-- ==== Sys2Proof/Word.lean ====
section
/-! DEFINITION. The plain words of the Hajten 2408: bytes, CRC words, time-base readings and the numbers of its legs and lanes. -/

namespace Sys2Proof

/-- One byte of a frame or of the cable memory image. -/
abbrev Byte := BitVec 8

/-- A CRC-16 word (R194). -/
abbrev Half := BitVec 16

/-- A reading of the 32-bit microsecond time base (R1): sums wrap modulo 2^32. -/
abbrev Time := BitVec 32

/-- A leg number, 0 to 3 ("Numbering", 00_scope.md). -/
abbrev LegId := Fin 4

/-- A copper lane number, 0 to 7; host lanes are numbered alike. -/
abbrev LaneId := Fin 8

/-- The index of a lane within a leg's window, counted from 0 (R4). -/
abbrev WinIx := Fin 8

/-- A cable serial of 8 bytes (R19, R164). -/
abbrev Serial := Vector Byte 8

end Sys2Proof
end

