-- ==== Sys2Proof/Syntax.lean ====
section
/-! DEFINITION. The commands the part takes: one constructor for each row of spec/opcode_table.json, in the table's order,
with the operands the event carries (frames as their bytes, so that every check of the spec is computed). -/

namespace Sys2Proof

/-- The role of the part, and the level of its ROLE strap: high is HUB, low is END ("Roles", 00_scope.md). -/
inductive Role where
  | hubRole
  | endRole
  deriving DecidableEq, Repr

/-- The items a FETCH may ask for (R123). -/
inductive FetchKind where
  | ident
  | status
  | laneInfo
  deriving DecidableEq, Repr

/-- A complete management request frame, less the start byte, the kind (the command's row) and the CRC that matched
(R174, R195). -/
structure RequestBody where
  tag : Byte
  payload : List Byte
  deriving DecidableEq, Repr

/-- A sideband command frame, less its command kind and item kind (R122, R196). `ignored` holds bits 3 and 6 of byte 0
and bit 3 of byte 2; the data length byte is the number of data bytes. -/
structure CommandBody where
  seq : Bool
  ignored : BitVec 3
  lane : WinIx
  beat : Fin 16
  data : List Byte
  crc : Byte
  deriving DecidableEq, Repr

/-- A sideband response frame, less its response kind (R122, R196). -/
structure ResponseBody where
  seq : Bool
  more : Bool
  item : Byte
  reason : Byte
  data : List Byte
  crc : Byte
  deriving DecidableEq, Repr

/-- Why the frame receiver discards a frame: its length byte, or the CRC of the collected frame (R174). -/
inductive DiscardCause where
  | badLength (len : Byte)
  | badCrc (kind tag : Byte) (payload : List Byte) (crc : Half)
  deriving DecidableEq, Repr

/-- The commands: rows of spec/opcode_table.json. -/
inductive Instr where
  /-- Device reset by the RESET pin or power-on, with the level of the ROLE strap (R161). -/
  | deviceReset (strap : Role)
  /-- The 1 ms of SETTLING ends (R161). -/
  | settlingEnd
  /-- The header read completes with the bytes read before the memory stopped acknowledging: none of them where the
  first read got no acknowledge, 7 where all did (R162). -/
  | factoryHeaderRead (bytes : List Byte)
  /-- The whole-image read completes with the bytes read from 0x000 on before any lost acknowledge (R163). -/
  | factoryImageRead (bytes : List Byte)
  /-- The learned-block read completes with the bytes read from 0x400 on before any lost acknowledge (R167). -/
  | learnedBlockRead (bytes : List Byte)
  /-- A window report: eye height, error count and residue (two's complement, -64 to +63) of a copper lane (R11). -/
  | windowReport (lane : LaneId) (h : Fin 128) (e : Fin 65536) (r : BitVec 7)
  /-- A scan reading of a copper lane (R14). -/
  | scanReading (lane : LaneId) (level : Fin 64)
  | settleExpiry (lane : LaneId)
  | probeHoldoffExpiry (leg : LegId)
  | attemptDeadlineExpiry (leg : LegId)
  | probeWaitExpiry
  | hubSilenceExpiry
  | keepaliveTimerExpiry (leg : LegId)
  /-- The command frame of a leg's transaction with this sequence bit has been sent (R126). -/
  | commandFrameSent (leg : LegId) (seq : Bool)
  | sidebandAck (leg : LegId) (f : ResponseBody)
  | sidebandDefer (leg : LegId) (f : ResponseBody)
  | sidebandRefuse (leg : LegId) (f : ResponseBody)
  | replyTimeout
  | backoffEnd
  | transactionExpiry
  | beaconReceived (leg : LegId) (level : Fin 4) (crc : Byte)
  | beaconSilence (leg : LegId)
  /-- A command frame of any kind arrives on a pair (R31). -/
  | hubCommandFrame (pair : LegId) (kind : BitVec 3) (item : Byte) (f : CommandBody)
  | probeCommand (pair : LegId) (f : CommandBody)
  | fetchCommand (pair : LegId) (item : FetchKind) (f : CommandBody)
  | storePhase (pair : LegId) (f : CommandBody)
  | storeTapStatus (pair : LegId) (f : CommandBody)
  | exchangeTapRequest (pair : LegId) (f : CommandBody)
  | drainCommand (pair : LegId) (item : Byte) (f : CommandBody)
  | requestFrameGap
  | replySent
  | identify (q : RequestBody)
  | readLeg (q : RequestBody)
  | readLane (q : RequestBody)
  | configureLeg (q : RequestBody)
  | startLeg (q : RequestBody)
  | stopLeg (q : RequestBody)
  | resetLeg (q : RequestBody)
  | setLegPower (q : RequestBody)
  | pinTaps (q : RequestBody)
  | unpinTaps (q : RequestBody)
  | readPresets (q : RequestBody)
  | commitPresets (q : RequestBody)
  | forgetPresets (q : RequestBody)
  | farRead (q : RequestBody)
  | readNotices (q : RequestBody)
  | setNoticeLevels (q : RequestBody)
  | resetDevice (q : RequestBody)
  | pageSent
  | pollAcknowledged
  | pollLimitExpiry
  | pageWriteNack
  /-- A byte taken by the frame receiver at the start of a frame (R174). -/
  | requestFrameStart (byte : Byte)
  | requestFrameDiscarded (cause : DiscardCause)
  /-- A complete request frame of a kind outside 0x01 to 0x11 (R177). -/
  | unknownRequestKind (kind : Byte) (q : RequestBody)
  /-- A command frame whose kind is none of the five, or whose item kind its command does not carry (R140). -/
  | unknownCommandOrItem (pair : LegId) (kind : BitVec 3) (item : Byte) (f : CommandBody)
  /-- A response frame that fails a check of R128; `low` is its response kind and `mid` bits 2 and 3 of its byte 0. -/
  | replyFailingChecks (leg : LegId) (low mid : BitVec 2) (f : ResponseBody)
  deriving DecidableEq, Repr

end Sys2Proof
end

