-- ==== Sys2Proof/Machine/Crc.lean ====
section
/-! DEFINITION. The two CRCs of R194 and the byte strings of the frames of R195 and R196. -/

namespace Sys2Proof.Machine

/-- One bit of the CRC-16: shift left, and take away the polynomial 0x1021 where a 1 leaves (R194). -/
def crc16Bit (c : Nat) : Nat := (2 * c) ^^^ ((c / 2 ^ 15) * 0x11021)

/-- One byte of the CRC-16, most significant bit first. -/
def crc16Byte (c : Nat) (b : Byte) : Nat :=
  (List.range 8).foldl (fun c _ => crc16Bit c) (c ^^^ (b.toNat * 256))

/-- CRC-16: polynomial 0x1021, initial value 0xFFFF, no reflection, no final inversion (R194). -/
def crc16 (bs : List Byte) : Half := BitVec.ofNat 16 (bs.foldl crc16Byte 0xFFFF)

/-- One bit of the CRC-8, polynomial 0x07 (R194). -/
def crc8Bit (c : Nat) : Nat := (2 * c) ^^^ ((c / 2 ^ 7) * 0x107)

/-- One byte of the CRC-8, most significant bit first. -/
def crc8Byte (c : Nat) (b : Byte) : Nat :=
  (List.range 8).foldl (fun c _ => crc8Bit c) (c ^^^ b.toNat)

/-- CRC-8: polynomial 0x07, initial value 0x00, no reflection, no final inversion (R194). -/
def crc8 (bs : List Byte) : Byte := BitVec.ofNat 8 (bs.foldl crc8Byte 0)

/-- A yes/no field as a byte: 1 for yes, 0 for no (R193). -/
def boolByte (b : Bool) : Byte := if b then 1 else 0

/-- A number as one byte. -/
def byteOf (n : Nat) : Byte := BitVec.ofNat 8 n

/-- A 16-bit figure, low byte first (R193). -/
def le16 (n : Nat) : List Byte := [byteOf n, byteOf (n / 256)]

/-- A time-base reading, low byte first (R193). -/
def le32 (t : Time) : List Byte :=
  [byteOf t.toNat, byteOf (t.toNat / 2 ^ 8), byteOf (t.toNat / 2 ^ 16), byteOf (t.toNat / 2 ^ 24)]

/-- The bytes of a sideband command frame before its CRC (R196). -/
def commandBytes (kind : BitVec 3) (item : Byte) (seq : Bool) (ignored : BitVec 3) (lane : WinIx) (beat : Fin 16)
    (data : List Byte) : List Byte :=
  [ byteOf (kind.toNat + 8 * (ignored.getLsbD 0).toNat + 16 + 64 * (ignored.getLsbD 1).toNat + 128 * seq.toNat),
    item,
    byteOf (lane.val + 8 * (ignored.getLsbD 2).toNat + 16 * beat.val),
    byteOf data.length ] ++ data

/-- The bytes of a sideband response frame before its CRC (R196); `mid` is bits 2 and 3 of byte 0. -/
def responseBytes (low mid : BitVec 2) (f : ResponseBody) : List Byte :=
  [ byteOf (low.toNat + 4 * mid.toNat + 64 * f.more.toNat + 128 * f.seq.toNat),
    f.item, f.reason, byteOf f.data.length ] ++ f.data

/-- A received command frame's CRC is correct (R122). -/
def commandCrcOk (kind : BitVec 3) (item : Byte) (f : CommandBody) : Bool :=
  crc8 (commandBytes kind item f.seq f.ignored f.lane f.beat f.data) == f.crc

/-- A received response frame's CRC is correct (R122). -/
def responseCrcOk (low mid : BitVec 2) (f : ResponseBody) : Bool :=
  crc8 (responseBytes low mid f) == f.crc

/-- The bytes of a beacon before its CRC: 0x20 plus the attention level (R196). -/
def beaconBytes (level : Nat) : List Byte := [byteOf (0x20 + level)]

/-- The bytes the CRC-16 of a management request frame covers: kind to last payload byte (R194, R195). -/
def requestBytes (kind tag : Byte) (payload : List Byte) : List Byte :=
  [kind, tag, byteOf payload.length] ++ payload

/-- The start byte of a management frame (R195). -/
def startByte : Byte := 0x7E

end Sys2Proof.Machine
end

