-- ==== Sys2Proof/Config.lean ====
section
/-! DEFINITION. What an implementation fixes, and the free values: constants without a body, of which nothing can be proved. -/

namespace Sys2Proof

/-- The part code IDENTIFY reports (R178). -/
def Config.partCode : Nat := 2408

/-- The revision of the parts the manual describes (R178); the part's own IDENT carries it (R123). -/
def Config.revision : Byte := 3

/-- Free value: the pre of a learned entry supplied for a lane without far taps, which R87 does not state (DESIGN CHOICE, log 4). -/
opaque Config.unstatedPre : Nat → Nat

/-- Free value: the post of such an entry (R87; DESIGN CHOICE, log 4). -/
opaque Config.unstatedPost : Nat → Nat

/-- Free value: the lane index field of a command frame whose item names no lane, by command and item kind code
(R196 states none; DESIGN CHOICE, log 9). -/
opaque Config.idleLane : Byte → Byte → WinIx

/-- Free value: the beat number field of a command frame that is no DRAIN, by command and item kind code
(R196 states none; DESIGN CHOICE, log 9). -/
opaque Config.idleBeat : Byte → Byte → Fin 16

/-- Free value: bits 3 and 6 of byte 0 and bit 3 of byte 2 of a command frame the part sends (R196, R197 state none;
DESIGN CHOICE, log 9). -/
opaque Config.idleBits : BitVec 3

/-- Free value: the kind byte of the reply to an unknown request kind of 0x80 or above, whose sum with the reply mark 0x80
does not fit the byte (R176, R195 state none; DESIGN CHOICE, log 35). -/
opaque Config.unmarkedReplyKind : Byte → Byte

/-- Free choice: whether an EXCHANGE refused with UNKNOWN_ITEM acts on the search as a failed request or as a failed
lane. R78 gives these two effects for the other three reasons and none for this one (DESIGN CHOICE, log 10). -/
opaque Config.unknownItemFailsLane : Nat → Bool

end Sys2Proof
end

