-- ==== Sys2Proof/Machine/State.lean ====
section
/-! DEFINITION. The state the spec gives the part, as plain data, and its value right after reset. -/

namespace Sys2Proof.Machine

/-- The states of a leg (R19). -/
inductive LegState where
  | off | listen | probe | train | adapt | verify | up | degraded | standby | sleep | fault
  deriving DecidableEq, Repr

/-- The rate classes, L below M below H ("Rates", 00_scope.md). -/
inductive Rate where
  | l | m | h
  deriving DecidableEq, Repr

/-- The path of a lane (R2, R7). -/
inductive Path where
  | off | squelched | passing
  deriving DecidableEq, Repr

inductive Presence where
  | absent | present
  deriving DecidableEq, Repr

/-- The reasons of a leg's FAULT state (R19, R40). -/
inductive FaultReason where
  | noReason | roleConflict | widthMismatch | rateMismatch | trainFailed | errorLimit | farRefused
  deriving DecidableEq, Repr

/-- The cause codes of LEG_STATE, 1 to 25 in this order (R23). -/
inductive LegCause where
  | hostStart | autoStart | hostStop | legReset | farPresent | probeAnswered | probeAccepted | probeRefused
  | probeFailed | trained | adapted | verified | deadline | laneFailed | verifyFailed | retrain | health
  | signalLoss | sidebandLoss | hubSilence | powerLocal | powerFar | wake | faultEntry | phase
  deriving DecidableEq, Repr

/-- A leg's window: first host lane, width, copper offset (R4). -/
structure Window where
  f : Nat
  w : Nat
  o : Nat
  deriving DecidableEq, Repr

/-- The three coefficients of a copper transmitter in 48ths (R47). -/
structure Taps where
  pre : Nat
  main : Nat
  post : Nat
  deriving DecidableEq, Repr

/-- One window report with the time it was taken (R2). -/
structure Report where
  h : Fin 128
  e : Fin 65536
  r : BitVec 7
  time : Time
  deriving DecidableEq, Repr

inductive TapSel where
  | post | pre
  deriving DecidableEq, Repr

inductive Dir where
  | inc | dec
  deriving DecidableEq, Repr

inductive Waiting where
  | status | discard | measure
  deriving DecidableEq, Repr

/-- The request a search record has outstanding, or has last had (R66). -/
inductive ReqKind where
  | opening | step | undo
  deriving DecidableEq, Repr

/-- The search record of a lane under training (R2, R66). `openPinned`: the opening statuses were PINNED (R72).
`drained`: at an END, the outstanding request has left the queue in a DRAIN beat (R67). -/
structure Search where
  tap : TapSel
  dir : Dir
  best : Nat
  gained : Bool
  steps : Nat
  waiting : Option Waiting
  request : ReqKind
  openPinned : Bool
  drained : Bool
  done : Bool
  deriving DecidableEq, Repr

/-- The field codes of a STEP (R48). -/
inductive StepCode where
  | hold | inc | dec
  deriving DecidableEq, Repr

/-- A tap request's form and values (R48). -/
inductive TapRequest where
  | step (pre post : StepCode)
  | preset (n : Fin 8)
  | load (pre post : Nat)
  deriving DecidableEq, Repr

/-- The per-field statuses of an application (R54). -/
inductive TapStat where
  | updated | hold | atMax | atMin | mainFloor | pinned
  deriving DecidableEq, Repr

/-- A TAP_STATUS (R54). -/
structure TapStatus where
  index : WinIx
  pre : TapStat
  post : TapStat
  taps : Taps
  deriving DecidableEq, Repr

/-- The record of a copper lane (R2). -/
structure Lane where
  owner : Option LegId
  hostLane : Option LaneId
  path : Path
  taps : Taps
  pinned : Bool
  settleUntil : Option Time
  farTaps : Option Taps
  peaking : Nat
  d1 : Int
  presence : Presence
  debounce : Nat
  report : Option Report
  merit : Nat
  search : Option Search
  deriving DecidableEq, Repr

/-- An IDENT: role, revision, window width and rate cap as the codes received, and the cable serial (R123, R196). -/
structure Ident where
  role : Byte
  revision : Byte
  width : Byte
  rateCap : Byte
  serial : Serial
  deriving DecidableEq, Repr

/-- The named states of a PHASE item (R123); RUN names UP (R43). -/
inductive PhaseState where
  | listen | train | adapt | verify | run | standby | sleep
  deriving DecidableEq, Repr

/-- The requested states of a power request (R108). -/
inductive Power where
  | active | standby | sleep
  deriving DecidableEq, Repr

/-- An item of an outbound queue (R147, R148): the first six kinds are queued by a HUB, the last five by an END. Its
level, originator, command kind, item kind and data bytes are functions of it. -/
inductive Item where
  | probe (id : Ident)
  | phase (st : PhaseState) (attempt : Nat) (rate : Rate)
  | exchange (index : WinIx) (req : TapRequest)
  | storeStatus (st : TapStatus)
  | farFetch (kind : FetchKind) (index : WinIx)
  | keepalive
  | tapRequest (index : WinIx) (req : TapRequest)
  | trainDone (attempt : Nat)
  | verifyResult (attempt : Nat) (pass : Bool) (bad : Nat)
  | retrainRequest
  | powerRequest (p : Power)
  deriving DecidableEq, Repr

inductive AdaptStage where
  | peaking | feedback | complete
  deriving DecidableEq, Repr

/-- One lane of an ADAPT tally (R66, R80): the candidates in ascending order and the merits measured for the first of them. -/
structure AdaptLane where
  entry : Nat
  candidates : List Nat
  measured : List Nat
  stage : AdaptStage
  waiting : Waiting
  failed : Bool
  deriving DecidableEq, Repr

/-- One lane of a VERIFY tally (R66, R84). -/
structure VerifyLane where
  passedOver : Bool
  counted : Nat
  bad : Nat
  deriving DecidableEq, Repr

/-- What a STATUS told a HUB, with the time the reply was taken (R137). -/
structure FarStatus where
  state : LegState
  attention : Nat
  errCount : Nat
  lost : Bool
  time : Time
  deriving DecidableEq, Repr

/-- The record of a leg (R19), with its timers, phase marks, tallies, report set, outbound queue and holds, and the
sideband controller's and the arbiter's state for it (R127, R152). A timer holds the time it falls due. -/
structure Leg where
  window : Option Window
  rateCap : Rate
  negRate : Option Rate
  farId : Option Ident
  state : LegState
  attempt : Option Nat
  retrains : Nat
  errCount : Nat
  errThreshold : Nat
  eyeFloor : Nat
  presThreshold : Nat
  autoWake : Bool
  autoStart : Bool
  resume : Bool
  sbLost : Bool
  enteredAt : Time
  upSince : Option Time
  aggMerit : Nat
  lastFault : FaultReason
  faultCount : Nat
  wakePending : Bool
  holdoff : Option Time
  deadline : Option Time
  probeWait : Option Time
  localTrained : Bool
  farTrained : Bool
  localVerify : Option Bool
  farVerify : Option Bool
  standbyVerify : Bool
  reportSet : Vector (Option Report) 8
  adapt : Option (Vector AdaptLane 8)
  verify : Option (Vector VerifyLane 8)
  adaptFailed : Bool
  queue : List Item
  overflow : Option Item
  statusHold : Vector (Option TapStatus) 8
  laneHold : Vector (Option TapRequest) 8
  reportHold : Option Item
  healthHold : Bool
  seq : Bool
  beat : Fin 16
  beatTaken : Bool
  timeouts : Nat
  beacon : Fin 4
  keepalive : Option Time
  farStatus : Option FarStatus
  passOver : Nat
  drainDone : Bool
  deriving DecidableEq, Repr

/-- What a transaction carries: a queued item, or a DRAIN beat, which takes no place in the queue (R126, R148). -/
inductive Work where
  | item (i : Item)
  | drain
  deriving DecidableEq, Repr

/-- The engine's states while a transaction is in flight; FREE is the absence of one (R126). -/
inductive EngineState where
  | sending | waiting | backoff
  deriving DecidableEq, Repr

/-- The HUB's transaction record (R126). `live`: the search record that formed its tap request still stands (R67).
`beat` is the beat number of a DRAIN. -/
structure Transaction where
  leg : LegId
  work : Work
  seq : Bool
  beat : Fin 16
  phase : EngineState
  live : Bool
  replyTimer : Option Time
  backoff : Option Time
  expiry : Time
  deriving DecidableEq, Repr

/-- The arbiter's grant (R152). -/
structure Grant where
  leg : LegId
  count : Nat
  limit : Nat
  deriving DecidableEq, Repr

/-- The END's last-response hold (R139). -/
structure HeldResponse where
  seq : Bool
  kind : BitVec 3
  item : Byte
  lane : WinIx
  data : List Byte
  frame : List Byte
  deriving DecidableEq, Repr

/-- The END's responder (R138 to R144). `lastSent`, the response frame last sent, is the model's own output field. -/
structure Responder where
  held : Option HeldResponse
  beatPrev : Option (Fin 16)
  beatItem : Option Item
  silence : Option Time
  lastSent : Option (List Byte)
  deriving DecidableEq, Repr

/-- The start-up state (R161); LOADING with the read it is engaged in, and what the header said. -/
inductive StartUp where
  | settling
  | loadingHeader
  | loadingImage (len : Nat) (crc : Half)
  | loadingLearned
  | ready
  deriving DecidableEq, Repr

inductive LoadStatus where
  | ok | partialLoad | badImage | noMemory
  deriving DecidableEq, Repr

inductive LearnedStatus where
  | ok | absent | bad
  deriving DecidableEq, Repr

/-- An entry of the preset table; its main is derived (R52). -/
structure Preset where
  pre : Nat
  post : Nat
  deriving DecidableEq, Repr

/-- A row of the threshold table (R92). -/
structure Threshold where
  err : Nat
  eye : Nat
  deriving DecidableEq, Repr

/-- The three rows of the threshold table and its presence threshold (R92, R164). -/
structure ThresholdTable where
  l : Threshold
  m : Threshold
  h : Threshold
  presence : Nat
  deriving DecidableEq, Repr

/-- An entry of the working learned table (R87, R168). The rate class is its code, since an invalid entry's is not
checked (R167). -/
structure LearnedEntry where
  valid : Bool
  rate : Byte
  pre : Nat
  post : Nat
  peaking : Nat
  d1 : Int
  deriving DecidableEq, Repr

/-- A running commit job (R170, R171). The poll limit is absent while the page is being sent. -/
structure Job where
  entries : Vector LearnedEntry 8
  serial : Serial
  index : Nat
  poll : Option Time
  deriving DecidableEq, Repr

/-- The cable memory unit (table of 09_cable_memory_and_presets.md). A status not yet decided is absent. -/
structure Cable where
  startup : StartUp
  settlingEnds : Option Time
  loadStatus : Option LoadStatus
  learnedStatus : Option LearnedStatus
  serial : Serial
  lengthClass : Nat
  loss : Vector (Fin 8) 8
  presets : Vector Preset 8
  thresholds : ThresholdTable
  learned : Vector LearnedEntry 8
  learnedSerial : Serial
  job : Option Job
  deriving DecidableEq, Repr

/-- The reply statuses (R176). -/
inductive Status where
  | ok | accepted | busy | wrongState | badArgument | notSupported | conflict | farFailed
  deriving DecidableEq, Repr

/-- The request in progress (R175). -/
structure Slot where
  kind : Byte
  tag : Byte
  deriving DecidableEq, Repr

/-- A reply frame on the reply line (R176). `own`: it answers the request in progress, and frees the slot when sent.
`resets`: it answers RESET_DEVICE (R184). -/
structure Reply where
  kind : Byte
  tag : Byte
  status : Status
  payload : List Byte
  own : Bool
  resets : Bool
  deriving DecidableEq, Repr

/-- The management port (R174 to R176): the head of the reply line is being sent. -/
structure Port where
  collecting : Bool
  slot : Option Slot
  line : List Reply
  deriving DecidableEq, Repr

/-- The notice kinds, codes 1 to 11 in this order (R185, R195). -/
inductive NoticeKind where
  | legState | legFault | linkDegraded | wake | sidebandLost | sidebandRestored | deferExpired | commitDone
  | loadDone | serialMismatch | farPower
  deriving DecidableEq, Repr

/-- A notice record (R185); the data are the four bytes of R195. -/
structure Notice where
  kind : NoticeKind
  leg : Option LegId
  level : Nat
  count : Nat
  time : Time
  data : List Byte
  deriving DecidableEq, Repr

/-- The notice queue (R185 to R192), head first, and the ALERT line. -/
structure NoticeQueue where
  records : List Notice
  overflow : Bool
  levels : Vector Nat 11
  floor : Nat
  alert : Bool
  deriving DecidableEq, Repr

/-- The whole part. `free` is the model's own counter for fresh free values; `pending` is the queue of commands. -/
structure State where
  role : Role
  strap : Role
  time : Time
  lanes : Vector Lane 8
  legs : Vector Leg 4
  tx : Option Transaction
  grant : Option Grant
  resp : Responder
  cable : Cable
  port : Port
  notices : NoticeQueue
  free : Nat
  pending : List Instr
  deriving DecidableEq, Repr

/-- Reasons the machine stops with a fault: none. The spec gives every command an effect in every state, so no
constructor exists and nothing raises one. -/
inductive Fault where
  deriving DecidableEq, Repr

/-- Reasons a command is refused a meaning. -/
inductive Refusal where
  /-- The row of the opcode table has no meaning yet; raised by no arm of `exec` (safe). -/
  | notModelled (mnemonic : String)
  deriving DecidableEq, Repr

/-! ### Values at device reset -/

/-- The taps a reset sets, (0, 48, 0) (R3, R18). -/
def Taps.reset : Taps := ⟨0, 48, 0⟩

/-- A lane record at device reset (R3). -/
def Lane.reset : Lane :=
  { owner := none, hostLane := none, path := .off, taps := Taps.reset, pinned := false, settleUntil := none,
    farTaps := none, peaking := 7, d1 := 0, presence := .absent, debounce := 0, report := none, merit := 0,
    search := none }

/-- An open report set without entries (R12). -/
def emptySet : Vector (Option Report) 8 := Vector.replicate 8 none

def emptyStatusHold : Vector (Option TapStatus) 8 := Vector.replicate 8 none

def emptyLaneHold : Vector (Option TapRequest) 8 := Vector.replicate 8 none

/-- A leg record at device reset (R20), with the reset values of R85, R127, R147 and R152. DESIGN CHOICE: beat taken is
yes, as R127's table gives, where R143 lets a DRAIN that a device reset ends leave it no (log 33). -/
def Leg.reset : Leg :=
  { window := none, rateCap := .h, negRate := none, farId := none, state := .off, attempt := none, retrains := 0,
    errCount := 0, errThreshold := 64, eyeFloor := 16, presThreshold := 20, autoWake := false, autoStart := false,
    resume := false, sbLost := false, enteredAt := 0, upSince := none, aggMerit := 0, lastFault := .noReason,
    faultCount := 0, wakePending := false, holdoff := none, deadline := none, probeWait := none,
    localTrained := false, farTrained := false, localVerify := none, farVerify := none, standbyVerify := false,
    reportSet := emptySet, adapt := none, verify := none, adaptFailed := false, queue := [], overflow := none,
    statusHold := emptyStatusHold, laneHold := emptyLaneHold, reportHold := none, healthHold := false, seq := false,
    beat := 0, beatTaken := true, timeouts := 0, beacon := 0, keepalive := none, farStatus := none, passOver := 0,
    drainDone := false }

/-- The END responder at device reset (R139, R142, R144). -/
def Responder.reset : Responder :=
  { held := none, beatPrev := none, beatItem := none, silence := none, lastSent := none }

/-- The default factory presets P0 to P7 (R52). -/
def defaultPresets : Vector Preset 8 :=
  #v[⟨0, 0⟩, ⟨0, 4⟩, ⟨2, 6⟩, ⟨2, 10⟩, ⟨4, 12⟩, ⟨4, 14⟩, ⟨6, 16⟩, ⟨8, 16⟩]

/-- The default threshold table (R91, R165) with presence threshold 20 (R161). -/
def defaultThresholds : ThresholdTable := { l := ⟨4, 16⟩, m := ⟨16, 16⟩, h := ⟨64, 16⟩, presence := 20 }

/-- A learned entry at device reset: invalid (R161). DESIGN CHOICE: its other figures are 0, the spec gives none (log 7). -/
def LearnedEntry.reset : LearnedEntry := { valid := false, rate := 0, pre := 0, post := 0, peaking := 0, d1 := 0 }

def zeroSerial : Serial := Vector.replicate 8 0

/-- The cable memory unit at device reset (R161): SETTLING, which ends after 1 ms. -/
def Cable.reset : Cable :=
  { startup := .settling, settlingEnds := some 1000, loadStatus := none, learnedStatus := none, serial := zeroSerial,
    lengthClass := 0, loss := Vector.replicate 8 3, presets := defaultPresets, thresholds := defaultThresholds,
    learned := Vector.replicate 8 LearnedEntry.reset, learnedSerial := zeroSerial, job := none }

/-- The management port at device reset (R184). -/
def Port.reset : Port := { collecting := false, slot := none, line := [] }

/-- The default levels of the notice kinds, in kind order (R185). -/
def defaultLevels : Vector Nat 11 := #v[1, 3, 2, 2, 2, 1, 1, 1, 1, 0, 1]

/-- The notice queue at device reset (R191, R192). -/
def NoticeQueue.reset : NoticeQueue :=
  { records := [], overflow := false, levels := defaultLevels, floor := 1, alert := false }

/-- The part after a device reset with the ROLE strap at `strap` (R161, R184): every block at its device-reset values.
The model's own queue and free-value counter are given. -/
def State.afterReset (strap : Role) (free : Nat) (pending : List Instr) : State :=
  { role := strap, strap := strap, time := 0, lanes := Vector.replicate 8 Lane.reset,
    legs := Vector.replicate 4 Leg.reset, tx := none, grant := none, resp := Responder.reset, cable := Cable.reset,
    port := Port.reset, notices := NoticeQueue.reset, free := free, pending := pending }

/-- The part right after reset. DESIGN CHOICE: the strap is at HUB, since the spec leaves it to the board (log 3); a
DEVICE_RESET command carries its level. -/
def State.reset : State := State.afterReset .hubRole 0 []

end Sys2Proof.Machine
end

