-- ==== Sys2Proof/Machine/Codes.lean ====
section
/-! DEFINITION. The code sets of R193, R195 and R196, the byte strings of items, records and replies, and the reading of
received codes (R197). -/

namespace Sys2Proof.Machine

/-! ### Code sets -/

def LegState.code : LegState → Nat
  | .off => 0 | .listen => 1 | .probe => 2 | .train => 3 | .adapt => 4 | .verify => 5 | .up => 6 | .degraded => 7
  | .standby => 8 | .sleep => 9 | .fault => 10

/-- The leg state a code names, none above 10 (R193, R197). -/
def LegState.ofCode : Nat → Option LegState
  | 0 => some .off | 1 => some .listen | 2 => some .probe | 3 => some .train | 4 => some .adapt | 5 => some .verify
  | 6 => some .up | 7 => some .degraded | 8 => some .standby | 9 => some .sleep | 10 => some .fault | _ => none

def Rate.code : Rate → Nat
  | .l => 0 | .m => 1 | .h => 2

def Rate.ofCode : Nat → Option Rate
  | 0 => some .l | 1 => some .m | 2 => some .h | _ => none

/-- The lower of two rate classes (R29). -/
def Rate.lower (a b : Rate) : Rate := if a.code ≤ b.code then a else b

def roleCode : Role → Nat
  | .hubRole => 0 | .endRole => 1

def Presence.code : Presence → Nat
  | .absent => 0 | .present => 1

def Path.code : Path → Nat
  | .off => 0 | .squelched => 1 | .passing => 2

def TapSel.code : TapSel → Nat
  | .post => 0 | .pre => 1

def Dir.code : Dir → Nat
  | .inc => 0 | .dec => 1

def Waiting.code : Waiting → Nat
  | .status => 0 | .discard => 1 | .measure => 2

def FaultReason.code : FaultReason → Nat
  | .noReason => 0 | .roleConflict => 1 | .widthMismatch => 2 | .rateMismatch => 3 | .trainFailed => 4
  | .errorLimit => 5 | .farRefused => 6

/-- The cause codes of LEG_STATE (R23). -/
def LegCause.code : LegCause → Nat
  | .hostStart => 1 | .autoStart => 2 | .hostStop => 3 | .legReset => 4 | .farPresent => 5 | .probeAnswered => 6
  | .probeAccepted => 7 | .probeRefused => 8 | .probeFailed => 9 | .trained => 10 | .adapted => 11 | .verified => 12
  | .deadline => 13 | .laneFailed => 14 | .verifyFailed => 15 | .retrain => 16 | .health => 17 | .signalLoss => 18
  | .sidebandLoss => 19 | .hubSilence => 20 | .powerLocal => 21 | .powerFar => 22 | .wake => 23 | .faultEntry => 24
  | .phase => 25

def StartUp.code : StartUp → Nat
  | .settling => 0 | .loadingHeader => 1 | .loadingImage _ _ => 1 | .loadingLearned => 1 | .ready => 2

/-- Load status code; PENDING is 0xFF (R178, R193). -/
def loadCode : Option LoadStatus → Nat
  | some .ok => 0 | some .partialLoad => 1 | some .badImage => 2 | some .noMemory => 3 | none => 0xFF

/-- Learned status code; PENDING is 0xFF (R178, R193). -/
def learnedCode : Option LearnedStatus → Nat
  | some .ok => 0 | some .absent => 1 | some .bad => 2 | none => 0xFF

def Power.code : Power → Nat
  | .active => 0 | .standby => 1 | .sleep => 2

def Power.ofCode : Nat → Option Power
  | 0 => some .active | 1 => some .standby | 2 => some .sleep | _ => none

def TapStat.code : TapStat → Nat
  | .updated => 0 | .hold => 1 | .atMax => 2 | .atMin => 3 | .mainFloor => 4 | .pinned => 5

def TapStat.ofCode : Nat → Option TapStat
  | 0 => some .updated | 1 => some .hold | 2 => some .atMax | 3 => some .atMin | 4 => some .mainFloor
  | 5 => some .pinned | _ => none

def StepCode.code : StepCode → Nat
  | .hold => 0 | .inc => 1 | .dec => 2

def StepCode.ofCode : Nat → Option StepCode
  | 0 => some .hold | 1 => some .inc | 2 => some .dec | _ => none

/-- The code of a PHASE's named state: a leg state code, UP's for RUN (R196). -/
def PhaseState.code : PhaseState → Nat
  | .listen => 1 | .train => 3 | .adapt => 4 | .verify => 5 | .run => 6 | .standby => 8 | .sleep => 9

/-- The named state of a PHASE; OFF, PROBE, DEGRADED, FAULT and codes above 10 name none (R43, R197). -/
def PhaseState.ofCode : Nat → Option PhaseState
  | 1 => some .listen | 3 => some .train | 4 => some .adapt | 5 => some .verify | 6 => some .run | 8 => some .standby
  | 9 => some .sleep | _ => none

/-- The leg state a PHASE's named state stands for (R43). -/
def PhaseState.legState : PhaseState → LegState
  | .listen => .listen | .train => .train | .adapt => .adapt | .verify => .verify | .run => .up
  | .standby => .standby | .sleep => .sleep

def Status.code : Status → Nat
  | .ok => 0 | .accepted => 1 | .busy => 2 | .wrongState => 3 | .badArgument => 4 | .notSupported => 5
  | .conflict => 6 | .farFailed => 7

def NoticeKind.code : NoticeKind → Nat
  | .legState => 1 | .legFault => 2 | .linkDegraded => 3 | .wake => 4 | .sidebandLost => 5 | .sidebandRestored => 6
  | .deferExpired => 7 | .commitDone => 8 | .loadDone => 9 | .serialMismatch => 10 | .farPower => 11

/-- The place of a notice kind in the level table (R195). -/
def NoticeKind.ix : NoticeKind → Fin 11
  | .legState => 0 | .legFault => 1 | .linkDegraded => 2 | .wake => 3 | .sidebandLost => 4 | .sidebandRestored => 5
  | .deferExpired => 6 | .commitDone => 7 | .loadDone => 8 | .serialMismatch => 9 | .farPower => 10

/-- The item kind codes of the sideband (R196); 0 stands for none. -/
def fetchCode : FetchKind → Byte
  | .ident => 1 | .status => 2 | .laneInfo => 3

def fetchOfCode : Nat → Option FetchKind
  | 1 => some .ident | 2 => some .status | 3 => some .laneInfo | _ => none

/-- The causes of FAR_FAILED (R146, R195). -/
inductive FarCause where
  | refused | lost | expired | abandoned | flushed
  deriving DecidableEq, Repr

def FarCause.code : FarCause → Nat
  | .refused => 1 | .lost => 2 | .expired => 3 | .abandoned => 4 | .flushed => 5

/-- The refuse reasons of a response frame (R122, R196). -/
inductive RefuseReason where
  | unknownItem | wrongState | badLane | badValue
  deriving DecidableEq, Repr

def RefuseReason.code : RefuseReason → Nat
  | .unknownItem => 1 | .wrongState => 2 | .badLane => 3 | .badValue => 4

def RefuseReason.ofCode : Nat → Option RefuseReason
  | 1 => some .unknownItem | 2 => some .wrongState | 3 => some .badLane | 4 => some .badValue | _ => none

/-! ### Bytes of fields and items -/

/-- A signed field as one byte in two's complement (R193). -/
def signedByte (i : Int) : Byte := BitVec.ofInt 8 i

/-- An optional field of `n` bytes: a presence byte, then the field, or zeros where it is absent (R195). -/
def optBytes {α : Type} (n : Nat) (f : α → List Byte) : Option α → List Byte
  | some a => 1 :: f a
  | none => 0 :: List.replicate n 0

def Taps.bytes (t : Taps) : List Byte := [byteOf t.pre, byteOf t.main, byteOf t.post]

def Ident.bytes (d : Ident) : List Byte := [d.role, d.revision, d.width, d.rateCap] ++ d.serial.toList

def Window.bytes (w : Window) : List Byte := [byteOf w.f, byteOf w.w, byteOf w.o]

/-- The eight bytes of a serial that stand in a byte string from position `k` on. -/
def serialAt (bs : List Byte) (k : Nat) : Serial :=
  #v[bs.getD k 0, bs.getD (k + 1) 0, bs.getD (k + 2) 0, bs.getD (k + 3) 0, bs.getD (k + 4) 0, bs.getD (k + 5) 0,
     bs.getD (k + 6) 0, bs.getD (k + 7) 0]

/-- The number in byte `k` of a byte string. -/
def natAt (bs : List Byte) (k : Nat) : Nat := (bs.getD k 0).toNat

/-- The 16-bit figure at byte `k`, low byte first (R193). -/
def nat16At (bs : List Byte) (k : Nat) : Nat := natAt bs k + 256 * natAt bs (k + 1)

/-- A yes/no byte, none for any other value than 0 and 1 (R193, R197). -/
def boolOf : Nat → Option Bool
  | 0 => some false | 1 => some true | _ => none

/-- The data of a TAP_REQUEST (R196). -/
def tapRequestBytes (i : WinIx) : TapRequest → List Byte
  | .step p q => [byteOf i.val, 1, byteOf p.code, byteOf q.code]
  | .preset n => [byteOf i.val, 2, byteOf n.val, 0]
  | .load p q => [byteOf i.val, 3, byteOf p, byteOf q]

/-- The data of a TAP_STATUS (R196). -/
def TapStatus.bytes (t : TapStatus) : List Byte :=
  [byteOf t.index.val, byteOf t.pre.code, byteOf t.post.code] ++ t.taps.bytes

/-- The law of R47. -/
def Taps.lawful (t : Taps) : Bool := t.pre ≤ 12 && t.post ≤ 18 && t.main == 48 - t.pre - t.post && 24 ≤ t.main

/-- The command kind codes of R196. -/
def Work.command : Work → BitVec 3
  | .item (.probe _) => 1
  | .item (.farFetch _ _) => 2
  | .item .keepalive => 2
  | .item (.phase _ _ _) => 3
  | .item (.storeStatus _) => 3
  | .item (.exchange _ _) => 4
  | .drain => 5
  | .item _ => 0

/-- The item kind code of an item (R196). -/
def Item.code : Item → Byte
  | .probe _ => 1
  | .farFetch k _ => fetchCode k
  | .keepalive => 2
  | .phase _ _ _ => 4
  | .exchange _ _ => 5
  | .tapRequest _ _ => 5
  | .storeStatus _ => 6
  | .trainDone _ => 7
  | .verifyResult _ _ _ => 8
  | .retrainRequest => 9
  | .powerRequest _ => 10

/-- The item kind byte of a command frame; DEDUCED 0 for a DRAIN, which carries no item (log 13). -/
def Work.itemCode : Work → Byte
  | .item i => i.code
  | .drain => 0

/-- The data bytes of an item (R196). -/
def Item.data : Item → List Byte
  | .probe d => d.bytes
  | .farFetch _ _ => []
  | .keepalive => []
  | .phase st a r => [byteOf st.code, byteOf a, byteOf r.code]
  | .exchange i q => tapRequestBytes i q
  | .tapRequest i q => tapRequestBytes i q
  | .storeStatus t => t.bytes
  | .trainDone a => [byteOf a]
  | .verifyResult a p b => [byteOf a, boolByte p, byteOf b]
  | .retrainRequest => []
  | .powerRequest p => [byteOf p.code]

/-- The window index an item names, where it names a lane (R123, R147). -/
def Item.index : Item → Option WinIx
  | .exchange i _ => some i
  | .tapRequest i _ => some i
  | .storeStatus t => some t.index
  | .farFetch .laneInfo i => some i
  | _ => none

/-- The fixed level of each kind of item (R148). -/
def Item.level : Item → Nat
  | .keepalive => 1
  | .exchange _ _ => 2
  | .storeStatus _ => 2
  | .farFetch _ _ => 2
  | .tapRequest _ _ => 2
  | _ => 3

/-- The blocks that put items into an outbound queue (R126, R148). -/
inductive Originator where
  | legController | trainingEngine | sidebandController | managementPort
  deriving DecidableEq, Repr

/-- The originator of each kind of item (R148). -/
def Item.originator : Item → Originator
  | .exchange _ _ => .trainingEngine
  | .tapRequest _ _ => .trainingEngine
  | .trainDone _ => .trainingEngine
  | .verifyResult _ _ _ => .trainingEngine
  | .storeStatus _ => .sidebandController
  | .keepalive => .sidebandController
  | .farFetch _ _ => .managementPort
  | _ => .legController

def Item.isPhase : Item → Bool
  | .phase _ _ _ => true
  | _ => false

/-- The lane index field of a command frame: the item's, or a free value where it names none (log 9). -/
def Work.laneField : Work → WinIx
  | .item i => i.index.getD (Config.idleLane ((Work.item i).command.setWidth 8) i.code)
  | .drain => Config.idleLane 5 0

def Work.data : Work → List Byte
  | .item i => i.data
  | .drain => []

/-- The beat number field of a transaction's command frame: chosen for a DRAIN (R143), else a free value (log 9). -/
def Transaction.beatField (t : Transaction) : Fin 16 :=
  match t.work with
  | .drain => t.beat
  | w => Config.idleBeat (w.command.setWidth 8) w.itemCode

/-- The command frame of a transaction, CRC included (R126, R196): what the HUB sends, and resends, on the leg's pair. -/
def Transaction.frame (t : Transaction) : List Byte :=
  let bs := commandBytes t.work.command t.work.itemCode t.seq Config.idleBits t.work.laneField t.beatField t.work.data
  bs ++ [crc8 bs]

/-- The kind byte of a reply: the request's kind with the reply mark 0x80 added (R176, R195). DESIGN CHOICE: a free value
where the sum does not fit the byte (log 35). -/
def replyKind (kind : Byte) : Byte := if kind.toNat < 0x80 then kind + 0x80 else Config.unmarkedReplyKind kind

/-- A reply frame's bytes, CRC included (R176, R195). -/
def Reply.bytes (r : Reply) : List Byte :=
  let bs := [replyKind r.kind, r.tag, byteOf r.status.code, byteOf r.payload.length] ++ r.payload
  startByte :: bs ++ le16 (crc16 bs).toNat

/-- The twelve bytes of a notice in a READ_NOTICES reply (R195). -/
def Notice.bytes (n : Notice) : List Byte :=
  [byteOf n.kind.code, (n.leg.map (fun g => byteOf g.val)).getD 0xFF, byteOf n.level, byteOf n.count] ++ le32 n.time
    ++ (n.data ++ List.replicate 4 0).take 4

end Sys2Proof.Machine
end

