-- ==== Sys2Proof/Machine/Operands.lean ====
section
/-! DEFINITION. Reading the operands of commands: the data of received items and the payloads of requests, with the
ranges R123, R140, R177, R180, R196 and R197 give them. -/

namespace Sys2Proof.Machine

/-- The IDENT in twelve data bytes (R196); its codes are kept as received. -/
def parseIdent (d : List Byte) : Ident :=
  ⟨d.getD 0 0, d.getD 1 0, d.getD 2 0, d.getD 3 0, serialAt d 4⟩

/-- The tap request in four data bytes, none where R56 check 3 or R60 finds the form or a field code illegal (R197). -/
def parseTapRequest (d : List Byte) : Option TapRequest :=
  match natAt d 1 with
  | 1 => (StepCode.ofCode (natAt d 2)).bind (fun p => (StepCode.ofCode (natAt d 3)).map (fun q => .step p q))
  | 2 => if h : natAt d 2 < 8 then some (.preset ⟨natAt d 2, h⟩) else none
  | 3 => some (.load (natAt d 2) (natAt d 3))
  | _ => none

/-- The TAP_STATUS in six data bytes for the lane index `i`: its statuses must be status values, its taps keep the
law of R47, and its window index be `i` (R58, R59, R140). -/
def parseTapStatus (i : WinIx) (d : List Byte) : Option TapStatus :=
  match TapStat.ofCode (natAt d 1), TapStat.ofCode (natAt d 2) with
  | some p, some q =>
    let t : Taps := ⟨natAt d 3, natAt d 4, natAt d 5⟩
    if natAt d 0 = i.val ∧ t.lawful then some ⟨i, p, q, t⟩ else none
  | _, _ => none

/-- The STATUS in four data bytes, with the time it is taken; none for values out of range (R197). -/
def parseFarStatus (now : Time) (d : List Byte) : Option FarStatus :=
  match LegState.ofCode (natAt d 0), boolOf (natAt d 3) with
  | some st, some lost => if natAt d 1 ≤ 3 then some ⟨st, natAt d 1, natAt d 2, lost, now⟩ else none
  | _, _ => none

/-- The seven data bytes of a LANE_INFO are in range (R197). -/
def laneInfoOk (d : List Byte) : Bool :=
  (Taps.mk (natAt d 0) (natAt d 1) (natAt d 2)).lawful && natAt d 3 ≤ 1 && natAt d 4 ≤ 15
    && -31 ≤ (d.getD 5 0).toInt && (d.getD 5 0).toInt ≤ 31 && natAt d 6 ≤ 1

/-- The data length of an item's ACK, by command and item kind (R123, R128, R196). -/
def ackLength : Work → Nat
  | .item (.probe _) => 12
  | .item (.farFetch .ident _) => 12
  | .item (.farFetch .status _) => 4
  | .item (.farFetch .laneInfo _) => 7
  | .item .keepalive => 4
  | .item (.exchange _ _) => 6
  | _ => 0

/-- The data length of an item an END queues, by its kind code; 0 stands for no item (R143, R196). -/
def drainedLength : Nat → Option Nat
  | 0 => some 0
  | 5 => some 4
  | 7 => some 1
  | 8 => some 3
  | 9 => some 0
  | 10 => some 1
  | _ => none

/-- A command carries the item kind (table of R123). -/
def carries (kind : BitVec 3) (item : Byte) : Bool :=
  match kind.toNat, item.toNat with
  | 1, 1 => true
  | 2, 1 => true
  | 2, 2 => true
  | 2, 3 => true
  | 3, 4 => true
  | 3, 6 => true
  | 4, 5 => true
  | _, _ => false

/-- The data length of a command that carries its item (R140 check 3, R196). -/
def commandLength (kind : BitVec 3) (item : Byte) : Nat :=
  match kind.toNat, item.toNat with
  | 1, 1 => 12
  | 3, 4 => 3
  | 3, 6 => 6
  | 4, 5 => 4
  | _, _ => 0

/-- The management kinds of R195. -/
def knownKind (kind : Byte) : Bool := 1 ≤ kind.toNat && kind.toNat ≤ 0x11

/-- The frame is one R174 discards: a length above 48, or a CRC that differs. -/
def discards : DiscardCause → Bool
  | .badLength n => 48 < n.toNat
  | .badCrc kind tag payload crc => crc16 (requestBytes kind tag payload) != crc

/-- A window's shape is legal: f 0 to 7, w 1, 2, 4 or 8, o 0 to 7, f a multiple of w (R4, R5 check 3). -/
def Window.legal (w : Window) : Bool :=
  w.f ≤ 7 && (w.w == 1 || w.w == 2 || w.w == 4 || w.w == 8) && w.o ≤ 7 && w.f % w.w == 0

/-- The fields of a CONFIGURE_LEG after its leg byte (R180); an absent threshold carries the default mark. -/
structure LegConfig where
  window : Window
  rateCap : Rate
  err : Option Nat
  eye : Option Nat
  presence : Nat
  autoWake : Bool
  deriving DecidableEq, Repr

/-- The twelve payload bytes of CONFIGURE_LEG, none where check 3 of R5 fails (R180, R195, R197). Byte 9, in the place
of auto-start, is ignored. -/
def parseLegConfig (d : List Byte) : Option LegConfig :=
  let w : Window := ⟨natAt d 1, natAt d 2, natAt d 3⟩
  let marks := natAt d 11
  match Rate.ofCode (natAt d 4), boolOf (natAt d 10) with
  | some cap, some wake =>
    let errDefault := marks % 2 == 1
    let eyeDefault := marks / 2 == 1
    if w.legal ∧ marks ≤ 3 ∧ (eyeDefault ∨ natAt d 7 ≤ 127) ∧ natAt d 8 ≤ 63 then
      some
        { window := w, rateCap := cap, err := if errDefault then none else some (nat16At d 5),
          eye := if eyeDefault then none else some (natAt d 7), presence := natAt d 8, autoWake := wake }
    else none
  | _, _ => none

end Sys2Proof.Machine
end

