-- ==== Sys2Proof/Machine/Flags.lean ====
section
/-! DEFINITION. The judgements and figures the rules compute from the state: merit, bad windows, which lanes run and scan,
demand, ALERT, attention, and what the transmitters and the beacon send. -/

namespace Sys2Proof.Machine

/-! ### Lanes and windows -/

/-- The eight numbers 0 to 7, of lanes and of window indices. -/
def allLanes : List LaneId := [0, 1, 2, 3, 4, 5, 6, 7]

def allLegs : List LegId := [0, 1, 2, 3]

/-- The indices of a window's lanes (R4). -/
def Window.indices (w : Window) : List WinIx := allLanes.filter (fun i => i.val < w.w)

/-- The copper lane of window index i: (f + i + o) mod 8 (R4). -/
def Window.laneAt (w : Window) (i : WinIx) : LaneId := Fin.ofNat 8 (w.f + i.val + w.o)

/-- The host lane of window index i: f + i (R4). -/
def Window.hostAt (w : Window) (i : WinIx) : LaneId := Fin.ofNat 8 (w.f + i.val)

/-- The copper lanes a window holds, in index order (R4). -/
def Window.lanes (w : Window) : List LaneId := w.indices.map w.laneAt

def Window.hosts (w : Window) : List LaneId := w.indices.map w.hostAt

/-- The window index of a copper lane, where the window holds it (R4). -/
def Window.indexOf (w : Window) (c : LaneId) : Option WinIx := w.indices.find? (fun i => w.laneAt i == c)

/-- Two windows share a host lane or a copper lane (R5 check 4, R6). -/
def Window.overlaps (a b : Window) : Bool :=
  a.lanes.any (fun c => b.lanes.contains c) || a.hosts.any (fun h => b.hosts.contains h)

/-- The merit of a report: max(0, 4h - min(e, 255)) (R65). -/
def merit (h e : Nat) : Nat := 4 * h - min e 255

def Report.merit (r : Report) : Nat := Machine.merit r.h.val r.e.val

/-- A window is bad for a lane under a leg's error threshold and eye floor (R91). -/
def badWindow (l : Leg) (r : Report) : Bool := l.errThreshold < r.e.val || r.h.val < l.eyeFloor

/-- d1 after an update by a residue divided by `d`, rounded toward zero and clamped (R82, R102). -/
def updateD1 (d1 r d : Int) : Int := max (-31) (min 31 (d1 + r.tdiv d))

/-! ### What a leg's state implies -/

/-- The path of a window lane in each leg state (R8). -/
def LegState.path : LegState → Path
  | .up => .passing
  | .degraded => .passing
  | .listen => .squelched
  | .probe => .squelched
  | .train => .squelched
  | .adapt => .squelched
  | .verify => .squelched
  | .standby => .squelched
  | .off => .off
  | .sleep => .off
  | .fault => .off

/-- The receivers of the window lanes run (R10). -/
def LegState.receives : LegState → Bool
  | .train => true
  | .adapt => true
  | .verify => true
  | .up => true
  | .degraded => true
  | _ => false

/-- The scanning states: all but OFF and FAULT (R13). -/
def LegState.scans : LegState → Bool
  | .off => false
  | .fault => false
  | _ => true

/-- The states in which a HUB's keepalive timer runs (R136). -/
def LegState.keepsAlive : LegState → Bool
  | .train => true
  | .adapt => true
  | .verify => true
  | .up => true
  | .degraded => true
  | .standby => true
  | .sleep => true
  | _ => false

/-- UP and DEGRADED, the states that carry traffic. -/
def LegState.inService : LegState → Bool
  | .up => true
  | .degraded => true
  | _ => false

/-- What a transmitter sends (R7, R9). -/
inductive Tx where
  | unpowered
  | idle
  | training
  /-- The data received on this lane of the other side, retimed. -/
  | retimed (from' : LaneId)
  deriving DecidableEq, Repr

/-! ### Reading the state -/

/-- The record of a leg. -/
def State.leg (s : State) (g : LegId) : Leg := s.legs[g]

/-- The record of a copper lane. -/
def State.lane (s : State) (c : LaneId) : Lane := s.lanes[c]

/-- The part serves this leg: legs 0 to 3 as a HUB, leg 0 as an END ("Roles", R19). -/
def State.hasLeg (s : State) (g : LegId) : Bool := s.role == .hubRole || g == 0

def State.isHub (s : State) : Bool := s.role == .hubRole

/-- The copper lanes of a leg's window, in index order; none without a window. -/
def State.winLanes (s : State) (g : LegId) : List LaneId :=
  match (s.leg g).window with
  | some w => w.lanes
  | none => []

/-- The window indices of a leg. -/
def State.winIndices (s : State) (g : LegId) : List WinIx :=
  match (s.leg g).window with
  | some w => w.indices
  | none => []

/-- The copper lane at a window index of a leg (R4). -/
def State.winLane (s : State) (g : LegId) (i : WinIx) : LaneId :=
  match (s.leg g).window with
  | some w => w.laneAt i
  | none => i

/-- The window index is below the leg's width w. -/
def State.hasIndex (s : State) (g : LegId) (i : WinIx) : Bool := (s.winIndices g).contains i

/-- Every window lane of the leg is PRESENT (R28). -/
def State.allPresent (s : State) (g : LegId) : Bool :=
  (s.leg g).window.isSome && (s.winLanes g).all (fun c => (s.lane c).presence == .present)

/-- Every window lane is done with a best merit above 0 (R79). -/
def State.allTrained (s : State) (g : LegId) : Bool :=
  (s.winLanes g).all (fun c => (s.lane c).search.any (fun r => r.done && 0 < r.best))

/-- The state of the leg that owns a lane; OFF's picture for a lane without an owner (R2, R8). -/
def State.ownerState (s : State) (c : LaneId) : Option LegState := (s.lane c).owner.map (fun g => (s.leg g).state)

/-- A lane's receiver runs (R10). -/
def State.receiverRuns (s : State) (c : LaneId) : Bool := (s.ownerState c).any LegState.receives

/-- A lane is scanned (R13). -/
def State.scanned (s : State) (c : LaneId) : Bool := (s.ownerState c).any LegState.scans

/-- What the copper transmitter of a lane sends, under its local taps (R7, R9). -/
def State.copperTx (s : State) (c : LaneId) : Tx :=
  match (s.lane c).path with
  | .off => .unpowered
  | .passing => .retimed ((s.lane c).hostLane.getD c)
  | .squelched =>
    if s.ownerState c = some .train ∨ s.ownerState c = some .adapt ∨ s.ownerState c = some .verify then .training
    else .idle

/-- What the host transmitter of a host lane sends: nothing where no window holds it, else by the path of the copper
lane mapped to it (R7, R9). -/
def State.hostTx (s : State) (h : LaneId) : Tx :=
  match allLanes.find? (fun c => (s.lane c).hostLane == some h) with
  | none => .unpowered
  | some c =>
    match (s.lane c).path with
    | .off => .unpowered
    | .passing => .retimed c
    | .squelched => .idle

/-- An END's attention level: the highest level in its queue (R124, R151). -/
def Leg.attention (l : Leg) : Nat := l.queue.foldl (fun n i => max n i.level) 0

/-- The beacon an END sends between transactions, nothing in OFF or as a HUB (R124, R196). -/
def State.beacon (s : State) : Option (List Byte) :=
  if s.isHub || (s.leg 0).state == .off then none
  else
    let bs := beaconBytes (s.leg 0).attention
    some (bs ++ [crc8 bs])

/-- The row of the threshold table for a rate class (R92). -/
def ThresholdTable.row (t : ThresholdTable) : Rate → Threshold
  | .l => t.l
  | .m => t.m
  | .h => t.h

/-- The part's own IDENT for a leg (R28, R42). A leg without a window has width 0 here; a leg that answers has one. -/
def State.ident (s : State) (g : LegId) : Ident :=
  ⟨byteOf (roleCode s.role), Config.revision, byteOf (((s.leg g).window.map Window.w).getD 0),
   byteOf (s.leg g).rateCap.code, s.cable.serial⟩

/-- The rate a PHASE item carries: the negotiated rate, which a leg past PROBE has (R21). -/
def Leg.phaseRate (l : Leg) : Rate := l.negRate.getD .l

/-! ### The arbiter's figures -/

/-- The aging bonus of a pass-over count (R154). -/
def agingBonus (passOver : Nat) : Nat := passOver / 4

/-- The demand of a HUB leg, 0 to 6 (R153). -/
def Leg.demand (l : Leg) : Nat :=
  if l.state = .off ∨ l.state = .fault then 0
  else
    let base := max ((l.queue.head?.map Item.level).getD 0) (if l.drainDone then 0 else l.beacon.val)
    if base = 0 then 0 else base + agingBonus l.passOver

/-- The leg with the highest demand above 0, the lowest number on a tie (R155). -/
def State.bestLeg (s : State) : Option LegId :=
  allLegs.foldl
    (fun b g => if ((b.map (fun k => (s.leg k).demand)).getD 0) < (s.leg g).demand then some g else b) none

/-! ### Notices -/

/-- ALERT's condition: some record's level is at or above the floor (R192). -/
def NoticeQueue.alertDue (q : NoticeQueue) : Bool := q.records.any (fun n => q.floor ≤ n.level)

end Sys2Proof.Machine
end

