-- ==== Sys2Proof/Machine/Ops.lean ====
section
/-! DEFINITION. The named operations over the state that the rules share: updates of lanes and legs, notices, replies, the
outbound queue and its holds, timers, and the entry to a state (R22). -/

namespace Sys2Proof.Machine

/-! ### Updates -/

/-- Change one leg's record. -/
def State.modLeg (s : State) (g : LegId) (f : Leg → Leg) : State :=
  { s with legs := s.legs.set g.val (f (s.leg g)) g.isLt }

/-- Change one lane's record. -/
def State.modLane (s : State) (c : LaneId) (f : Lane → Lane) : State :=
  { s with lanes := s.lanes.set c.val (f (s.lane c)) c.isLt }

/-- A table of eight, by position. -/
def vec8 {α : Type} (f : Fin 8 → α) : Vector α 8 := #v[f 0, f 1, f 2, f 3, f 4, f 5, f 6, f 7]

/-- A table of four, by position. -/
def vec4 {α : Type} (f : Fin 4 → α) : Vector α 4 := #v[f 0, f 1, f 2, f 3]

/-- Change every lane's record by its number. -/
def State.mapLanes (s : State) (f : LaneId → Lane → Lane) : State :=
  { s with lanes := vec8 (fun c => f c (s.lane c)) }

/-- Change every leg's record by its number. -/
def State.mapLegs (s : State) (f : LegId → Leg → Leg) : State :=
  { s with legs := vec4 (fun g => f g (s.leg g)) }

/-- Change the records of a leg's window lanes. -/
def State.modWindow (s : State) (g : LegId) (f : Lane → Lane) : State :=
  s.mapLanes (fun c l => if (s.winLanes g).contains c then f l else l)

/-- The time a timer started now falls due (R1: modulo 2^32). -/
def State.after (s : State) (us : Nat) : Time := s.time + BitVec.ofNat 32 us

/-! ### Notices (R185 to R192) -/

/-- A record of the same kind and leg, which a posting merges into (R187). -/
def Notice.matches (k : NoticeKind) (g : Option LegId) (n : Notice) : Bool := n.kind == k && n.leg == g

/-- A posting merged into a record (R188). -/
def Notice.merged (data : List Byte) (now : Time) (n : Notice) : Notice :=
  { n with count := min 255 (n.count + 1), time := now, data := data }

/-- Insert after every record of its level and ahead of every record of a lower level (R187). -/
def insertNotice (r : Notice) : List Notice → List Notice
  | [] => [r]
  | n :: ns => if r.level ≤ n.level then n :: insertNotice r ns else r :: n :: ns

/-- Re-evaluate ALERT (R192). -/
def NoticeQueue.withAlert (q : NoticeQueue) : NoticeQueue := { q with alert := q.alertDue }

/-- Take a posting: merge, insert, displace the tail, or drop (R187 to R189). -/
def NoticeQueue.post (q : NoticeQueue) (k : NoticeKind) (g : Option LegId) (data : List Byte) (now : Time) : NoticeQueue :=
  let r : Notice := ⟨k, g, q.levels[k.ix], 1, now, data⟩
  NoticeQueue.withAlert
    (if q.records.any (Notice.matches k g) then
      { q with records := q.records.map (fun n => if n.matches k g then n.merged data now else n) }
    else if q.records.length < 16 then
      { q with records := insertNotice r q.records }
    else if ((q.records.getLast?.map Notice.level).getD 0) < r.level then
      { q with records := insertNotice r q.records.dropLast, overflow := true }
    else
      { q with overflow := true })

/-- Post a notice, stamped with the time base (R185). -/
def State.post (s : State) (k : NoticeKind) (g : Option LegId) (data : List Byte) : State :=
  { s with notices := s.notices.post k g data s.time }

/-! ### Replies (R175, R176) -/

/-- Put the reply of the request in progress on the reply line. -/
def Port.answer (p : Port) (st : Status) (payload : List Byte) (resets : Bool) : Port :=
  match p.slot with
  | some q => { p with line := p.line ++ [⟨q.kind, q.tag, st, payload, true, resets⟩] }
  | none => p

/-- Put a BUSY reply on the reply line, unless three already wait behind the reply being sent (R176). DESIGN CHOICE: the reply
of the request in progress, which is itself a BUSY by R145 or R114, is not one of the three (log 39). -/
def Port.answerBusy (p : Port) (kind tag : Byte) : Port :=
  if ((p.line.drop 1).filter (fun r => !r.own)).length < 3 then
    { p with line := p.line ++ [⟨kind, tag, .busy, [], false, false⟩] }
  else p

/-- Form the reply of the request in progress. -/
def State.reply (s : State) (st : Status) (payload : List Byte) : State := { s with port := s.port.answer st payload false }

/-- The payload of WRONG_STATE for a request that names a leg: the leg's state (R176). -/
def State.wrongState (s : State) (g : LegId) : State := s.reply .wrongState [byteOf (s.leg g).state.code]

/-- The management kind of FAR_READ (R195). -/
def farReadKind : Byte := 0x0E

/-- Answer the FAR_READ in progress, when its item's fate is settled (R146). -/
def State.farReadDone (s : State) (st : Status) (payload : List Byte) : State :=
  if s.port.slot.any (fun q => q.kind == farReadKind) then s.reply st payload else s

/-- FAR_FAILED with its cause and the refuse reason or 0 (R146, R195). -/
def State.farReadFailed (s : State) (c : FarCause) (reason : Nat) : State :=
  s.farReadDone .farFailed [byteOf c.code, byteOf reason]

/-! ### The outbound queue and its holds (R147 to R151) -/

/-- A place in the queue is free (R147). -/
def Leg.hasRoom (l : Leg) : Bool := l.queue.length < 4

/-- An item joins the tail where a place is free. -/
def Leg.push (l : Leg) (i : Item) : Leg := if l.hasRoom then { l with queue := l.queue ++ [i] } else l

/-- Put `new` in the place of the queued PHASE. -/
def replacePhase (new : Item) (q : List Item) : List Item := q.map (fun i => if i.isPhase then new else i)

/-- A HUB queues a PHASE: replacement, tail, or overflow hold (R149). -/
def Leg.queuePhase (l : Leg) (st : PhaseState) (attempt : Nat) (rate : Rate) : Leg :=
  let new := Item.phase st attempt rate
  if l.queue.any Item.isPhase then { l with queue := replacePhase new l.queue }
  else if l.overflow.isSome then { l with overflow := some new }
  else if l.hasRoom then { l with queue := l.queue ++ [new] }
  else { l with overflow := some new }

/-- The item a tap request crosses as: EXCHANGE from a HUB, TAP_REQUEST from an END (R71). -/
def requestItem (role : Role) (i : WinIx) (q : TapRequest) : Item :=
  match role with
  | .hubRole => .exchange i q
  | .endRole => .tapRequest i q

/-- The engine sends a tap request: to the queue, or to the lane's hold where the queue is full (R71). -/
def Leg.sendRequest (l : Leg) (role : Role) (i : WinIx) (q : TapRequest) : Leg :=
  if l.hasRoom then l.push (requestItem role i q) else { l with laneHold := l.laneHold.set i.val (some q) i.isLt }

/-- A HUB queues a STORE TAP_STATUS, or holds it for its lane, the newer replacing the older (R61). -/
def Leg.queueStatus (l : Leg) (t : TapStatus) : Leg :=
  if l.hasRoom then l.push (.storeStatus t)
  else { l with statusHold := l.statusHold.set t.index.val (some t) t.index.isLt }

/-- An END's engine queues TRAIN_DONE or VERIFY_RESULT, or keeps it in the report hold (R79, R85). -/
def Leg.queueReport (l : Leg) (i : Item) : Leg := if l.hasRoom then l.push i else { l with reportHold := some i }

/-- An END queues a RETRAIN_REQUEST unless one waits (R99), or keeps it in the health hold (R100). -/
def Leg.queueRetrain (l : Leg) : Leg :=
  if l.queue.contains .retrainRequest || l.healthHold then l
  else if l.hasRoom then l.push .retrainRequest
  else { l with healthHold := true }

/-- The first lane hold with a request, in ascending window index, and the leg without it. -/
def Leg.firstLaneHeld (l : Leg) (role : Role) : Option (Item × Leg) :=
  allLanes.findSome? (fun i =>
    l.laneHold[i].map (fun q => (requestItem role i q, { l with laneHold := l.laneHold.set i.val none i.isLt })))

/-- The first status hold with a TAP_STATUS, in ascending window index, and the leg without it. -/
def Leg.firstStatusHeld (l : Leg) : Option (Item × Leg) :=
  allLanes.findSome? (fun i =>
    l.statusHold[i].map (fun t => (Item.storeStatus t, { l with statusHold := l.statusHold.set i.val none i.isLt })))

/-- The held item that enters a free place next, and the leg without it (order of R150). -/
def Leg.nextHeld (l : Leg) (role : Role) : Option (Item × Leg) :=
  match role with
  | .hubRole =>
    match l.overflow with
    | some i => some (i, { l with overflow := none })
    | none => (l.firstStatusHeld).or (l.firstLaneHeld role)
  | .endRole =>
    if l.healthHold then some (.retrainRequest, { l with healthHold := false })
    else
      match l.reportHold with
      | some i => some (i, { l with reportHold := none })
      | none => l.firstLaneHeld role

/-- Held items enter the free places, one each, until the holds or up to `n` places run out (R150). -/
def Leg.fillHolds (role : Role) : Nat → Leg → Leg
  | 0, l => l
  | n + 1, l =>
    if l.hasRoom then
      match l.nextHeld role with
      | some (i, l') => Leg.fillHolds role n { l' with queue := l'.queue ++ [i] }
      | none => l
    else l

/-- The head item leaves the queue, and held items enter the place it frees (R150). -/
def Leg.popped (l : Leg) (role : Role) : Leg := Leg.fillHolds role 4 { l with queue := l.queue.tail }

/-- A flush: every queued item and every hold of the leg is discarded (R135, R147). -/
def Leg.flushed (l : Leg) : Leg :=
  { l with queue := [], overflow := none, statusHold := emptyStatusHold, laneHold := emptyLaneHold,
           reportHold := none, healthHold := false }

def Item.isFarFetch : Item → Bool
  | .farFetch _ _ => true
  | _ => false

/-- The END's beat hold emptied (R142). -/
def Responder.withoutBeat (r : Responder) : Responder := { r with beatPrev := none, beatItem := none }

/-- Flush a leg's queue with its holds; at an END the beat hold goes with it (R142), and a queued FAR_READ is answered
FLUSHED (R135, R146). -/
def State.flush (s : State) (g : LegId) : State :=
  let t := s.modLeg g Leg.flushed
  let t := if s.isHub then t else { t with resp := t.resp.withoutBeat }
  if (s.leg g).queue.any Item.isFarFetch then t.farReadFailed .flushed 0 else t

/-! ### Entry to a state (R22) -/

/-- A state whose entry drops the negotiated rate, far identity, up since, sideband lost and far status (R21, R137). -/
def LegState.quiet : LegState → Bool
  | .off => true
  | .listen => true
  | .fault => true
  | _ => false

/-- The ADAPT tally of a leg has a failed lane (R85). -/
def Leg.adaptHasFailed (l : Leg) : Bool := l.adapt.any (fun v => v.toList.any AdaptLane.failed)

/-- The leg record, its timers, marks, report set, tallies and holds after an entry to `new` (R12, R21, R22, R66, R85,
R88, R136, R137). -/
def Leg.entered (l : Leg) (role : Role) (new : LegState) (attempt : Option Nat) (now : Time) : Leg :=
  { l with
    state := new
    enteredAt := now
    deadline := none
    holdoff := none
    probeWait := none
    localTrained := false
    farTrained := false
    localVerify := none
    farVerify := none
    standbyVerify := false
    reportSet := emptySet
    adapt := none
    verify := none
    adaptFailed := if new = .train then false else l.adaptFailed || (role == .endRole && l.adaptHasFailed)
    laneHold := if role = .hubRole ∧ l.state = .train then emptyLaneHold else l.laneHold
    attempt := attempt
    negRate := if new.quiet then none else l.negRate
    farId := if new.quiet then none else l.farId
    upSince := if new.quiet then none else l.upSince
    sbLost := if new.quiet then false else l.sbLost
    resume := if new = .off ∨ new = .fault then false else l.resume
    farStatus := if new.quiet then none else l.farStatus
    keepalive :=
      if role = .hubRole ∧ new.keepsAlive then
        (if l.state.keepsAlive then l.keepalive else some (now + 5000#32))
      else none }

/-- A window lane after its leg's entry to `new`: path (R8), search record removed (R66), presence when scanning stops (R15). -/
def Lane.entered (new : LegState) (l : Lane) : Lane :=
  { l with
    path := new.path
    search := none
    presence := if new.scans then l.presence else .absent
    debounce := if new.scans then l.debounce else 0 }

/-- The END's responder after its leg's entry from `old` to `new`: last-response hold (R139), hub-silence watch (R144). -/
def Responder.entered (r : Responder) (old new : LegState) (now : Time) : Responder :=
  { r with
    held := if new.quiet then none else r.held
    silence := if new = .off then none else if old = .off then some (now + 20000#32) else r.silence }

/-- A transaction of the leg no longer belongs to a search record of it (R67). -/
def orphaned (g : LegId) (t : Transaction) : Transaction := if t.leg = g then { t with live := false } else t

/-- Every entry of a leg to a state, with its LEG_STATE notice (R22, R23). `attempt` is the attempt number after the
transition. -/
def State.enter (s : State) (g : LegId) (new : LegState) (cause : LegCause) (attempt : Option Nat) : State :=
  let old := (s.leg g).state
  let t := s.modWindow g (Lane.entered new)
  let t := t.modLeg g (fun l => l.entered s.role new attempt s.time)
  let t := { t with tx := t.tx.map (orphaned g), resp := if s.isHub then t.resp else t.resp.entered old new s.time }
  t.post .legState (some g) [byteOf old.code, byteOf new.code, byteOf cause.code, byteOf (attempt.getD 0)]

end Sys2Proof.Machine
end

