-- ==== Sys2Proof/Machine/Coefficient.lean ====
section
/-! DEFINITION. The coefficient unit: what a transmitter does with a tap request (R47 to R55), settles (R16), far taps (R17). -/

namespace Sys2Proof.Machine

/-- First stage of a STEP for one field: candidate value and status (R49). -/
def judgeField (cur limit : Nat) : StepCode → Nat × TapStat
  | .hold => (cur, .hold)
  | .inc => if cur < limit then (cur + 1, .updated) else (cur, .atMax)
  | .dec => if 0 < cur then (cur - 1, .updated) else (cur, .atMin)

/-- The revert of the floor check for one field (R50). -/
def revertField (cur : Nat) (code : StepCode) (j : Nat × TapStat) : Nat × TapStat :=
  if code = .inc ∧ j.2 = .updated then (cur, .mainFloor) else j

/-- Taps from pre and post; main is derived (R47). -/
def tapsOf (pre post : Nat) : Taps := ⟨pre, 48 - pre - post, post⟩

/-- A STEP on a lane that is not pinned: resulting taps and the two statuses (R49, R50). -/
def applyStep (t : Taps) (p q : StepCode) : Taps × TapStat × TapStat :=
  let a := judgeField t.pre 12 p
  let b := judgeField t.post 18 q
  let a' := if 48 < a.1 + b.1 + 24 then revertField t.pre p a else a
  let b' := if 48 < a.1 + b.1 + 24 then revertField t.post q b else b
  (tapsOf a'.1 b'.1, a'.2, b'.2)

/-- Pre and post values a LOAD may write, or PIN_TAPS may set (R51, R62). -/
def loadable (pre post : Nat) : Bool := pre ≤ 12 && post ≤ 18 && pre + post + 24 ≤ 48

/-- A LOAD on a lane that is not pinned (R51). -/
def applyLoad (t : Taps) (pre post : Nat) : Taps × TapStat × TapStat :=
  if 12 < pre ∨ 18 < post then (t, if 12 < pre then .atMax else .hold, if 18 < post then .atMax else .hold)
  else if loadable pre post then (tapsOf pre post, .updated, .updated)
  else (t, .mainFloor, .mainFloor)

/-- A request of any form applied to a lane's taps (R49 to R53). -/
def applyRequest (presets : Vector Preset 8) (pinned : Bool) (t : Taps) (q : TapRequest) : Taps × TapStat × TapStat :=
  if pinned then (t, .pinned, .pinned)
  else
    match q with
    | .step a b => applyStep t a b
    | .load a b => applyLoad t a b
    | .preset n => (tapsOf presets[n].pre presets[n].post, .updated, .updated)

/-- Write a lane's taps and start its settle of 300 microseconds (R16). -/
def State.writeTaps (s : State) (c : LaneId) (t : Taps) : State :=
  s.modLane c (fun l => { l with taps := t, settleUntil := some (s.after 300) })

/-- The TAP_STATUS of a request applied to the lane at window index i of leg g (R54). -/
def State.tapOutcome (s : State) (g : LegId) (i : WinIx) (q : TapRequest) : TapStatus :=
  let l := s.lane (s.winLane g i)
  let r := applyRequest s.cable.presets l.pinned l.taps q
  ⟨i, r.2.1, r.2.2, r.1⟩

/-- Some field of the application was written, so a settle starts (R54). -/
def TapStatus.wrote (t : TapStatus) : Bool := t.pre == .updated || t.post == .updated

/-- The coefficient unit applies a request to the lane at window index i of leg g (R49 to R55). -/
def State.applyTaps (s : State) (g : LegId) (i : WinIx) (q : TapRequest) : State :=
  let t := s.tapOutcome g i q
  if t.wrote then s.writeTaps (s.winLane g i) t.taps else s

/-- A TAP_STATUS taken for the lane at its index sets the far taps (R17); an index the leg's window no longer has names
no lane. -/
def State.setFarTaps (s : State) (g : LegId) (t : TapStatus) : State :=
  if s.hasIndex g t.index then s.modLane (s.winLane g t.index) (fun l => { l with farTaps := some t.taps }) else s

end Sys2Proof.Machine
end

