-- ==== Sys2Proof/Machine/Training.lean ====
section
/-! DEFINITION. The training engine's own records: the tap search (R68 to R78), receiver adaptation (R80 to R83) and the
VERIFY tally (R84, R85). What they lead the leg controller to do stands in LegControl. -/

namespace Sys2Proof.Machine

/-! ### The search record -/

/-- A new search record, with the opening request outstanding (R68). -/
def Search.fresh : Search :=
  { tap := .post, dir := .inc, best := 0, gained := false, steps := 0, waiting := some .status, request := .opening,
    openPinned := false, drained := false, done := false }

/-- What a search asks for after an event. -/
inductive SearchOut where
  | quiet
  | send (q : TapRequest)
  | finished
  | failed
  deriving DecidableEq, Repr

/-- A STEP on one tap with the other field HOLD (R74). -/
def stepOn (t : TapSel) (c : StepCode) : TapRequest :=
  match t with
  | .post => .step .hold c
  | .pre => .step c .hold

def Dir.forward : Dir → StepCode
  | .inc => .inc
  | .dec => .dec

def Dir.back : Dir → StepCode
  | .inc => .dec
  | .dec => .inc

/-- Steps used, 0 to 32 (R2), after one more. -/
def stepUp (n : Nat) : Nat := min (n + 1) 32

/-- Form the next step in the record's direction (R71, R74). -/
def Search.formStep (r : Search) : Search × SearchOut :=
  ({ r with steps := stepUp r.steps, waiting := some .status, request := .step, drained := false },
   .send (stepOn r.tap r.dir.forward))

/-- Form the undo of the last step, the opposite STEP (R74). -/
def Search.formUndo (r : Search) : Search × SearchOut :=
  ({ r with steps := stepUp r.steps, waiting := some .status, request := .undo, drained := false },
   .send (stepOn r.tap r.dir.back))

/-- The lane becomes done (R77). -/
def Search.finish (r : Search) : Search × SearchOut := ({ r with waiting := none, done := true }, .finished)

/-- The tap under search is finished: from POST to the first PRE step, from PRE to done (R77). -/
def Search.finishTap (r : Search) : Search × SearchOut :=
  match r.tap with
  | .post => Search.formStep { r with tap := .pre, dir := .inc, gained := false }
  | .pre => r.finish

/-- Without a gain: turn to DEC where nothing was gained in INC, else finish the tap (R75, R76). -/
def Search.turn (r : Search) : Search × SearchOut :=
  if r.gained = false ∧ r.dir = .inc then Search.formStep { r with dir := .dec } else r.finishTap

/-- The TAP_STATUS shows PINNED (R75). -/
def TapStatus.showsPinned (t : TapStatus) : Bool := t.pre == .pinned || t.post == .pinned

/-- The status of the field under search (R74, R75). -/
def TapStatus.field (t : TapStatus) : TapSel → TapStat
  | .post => t.post
  | .pre => t.pre

/-- The cap of 32 steps has been reached when a result is taken (R77). -/
def Search.capped (r : Search) : Bool := 32 ≤ r.steps

/-- The result ACK of the outstanding request (R72, R74 to R77). A status other than UPDATED and PINNED means the taps
did not move (R75; DEDUCED for HOLD, log 15). -/
def Search.onAck (r : Search) (t : TapStatus) : Search × SearchOut :=
  match r.request with
  | .opening => ({ r with waiting := some .discard, openPinned := t.showsPinned }, .quiet)
  | .step =>
    if t.showsPinned || r.capped then r.finish
    else if t.field r.tap = .updated then ({ r with waiting := some .discard }, .quiet)
    else r.turn
  | .undo => if t.showsPinned || r.capped then r.finish else r.turn

/-- The failure of the outstanding request (R72, R76, R78). -/
def Search.onFailure (r : Search) : Search × SearchOut :=
  match r.request with
  | .opening => ({ r with steps := stepUp r.steps, waiting := some .discard }, .quiet)
  | .step => if r.capped then r.finish else r.turn
  | .undo => if r.capped then r.finish else r.turn

/-- A window report of merit m acts on the record by its waiting-for (R72 to R74, R77). -/
def Search.onReport (r : Search) (m : Nat) : Search × SearchOut :=
  match r.waiting with
  | none => (r, .quiet)
  | some .status => (r, .quiet)
  | some .discard => ({ r with waiting := some .measure }, .quiet)
  | some .measure =>
    match r.request with
    | .opening =>
      if r.openPinned then Search.finish { r with best := m }
      else Search.formStep { r with best := m, tap := .post, dir := .inc, gained := false }
    | .step => if r.best < m then Search.formStep { r with best := m, gained := true } else r.formUndo
    | .undo => (r, .quiet)

/-- The result of a tap request as the engine takes it (R67). -/
inductive ReqResult where
  | ack (t : TapStatus)
  | failure
  | refuse (why : RefuseReason)
  deriving DecidableEq, Repr

/-- A result taken by a lane's search record; WRONG_STATE is a failure, BAD_LANE and BAD_VALUE fail the lane (R78);
`unknownFails` settles UNKNOWN_ITEM, which R78 does not name (log 10). -/
def Search.onResult (r : Search) (unknownFails : Bool) : ReqResult → Search × SearchOut
  | .ack t => r.onAck t
  | .failure => r.onFailure
  | .refuse .wrongState => r.onFailure
  | .refuse .badLane => (r, .failed)
  | .refuse .badValue => (r, .failed)
  | .refuse .unknownItem => if unknownFails then (r, .failed) else r.onFailure

/-! ### Opening requests -/

/-- The opening request of a lane, with the peaking and d1 it sets, if it sets them (R69, R70). -/
def State.opening (s : State) (g : LegId) (i : WinIx) : TapRequest × Option (Nat × Int) :=
  let c := s.winLane g i
  let l := s.leg g
  let loss := s.cable.loss[c]
  let e := s.cable.learned[c]
  match l.attempt.getD 1 with
  | 1 =>
    match l.resume, (s.lane c).farTaps with
    | true, some t => (.load t.pre t.post, none)
    | _, _ =>
      if e.valid ∧ l.negRate.map (fun r => byteOf r.code) = some e.rate ∧ s.cable.learnedSerial = s.cable.serial then
        (.load e.pre e.post, some (e.peaking, e.d1))
      else (.preset loss, some (7, 0))
  | 2 => (.preset loss, some (7, 0))
  | 3 => (.preset (Fin.ofNat 8 (min (loss.val + 1) 7)), some (7, 0))
  | _ => (.preset (Fin.ofNat 8 (loss.val - 1)), some (7, 0))

/-- A window lane gets its new search record, and the engine sends its opening request (R68, R71). -/
def State.openLane (g : LegId) (s : State) (i : WinIx) : State :=
  let o := s.opening g i
  let t := s.modLane (s.winLane g i) (fun l =>
    { l with search := some Search.fresh, peaking := (o.2.map Prod.fst).getD l.peaking,
             d1 := (o.2.map Prod.snd).getD l.d1 })
  t.modLeg g (fun l => l.sendRequest s.role i o.1)

/-- Every window lane opens its search; resume is used up by an attempt 1 (R68, R70). -/
def State.startSearch (s : State) (g : LegId) : State :=
  let t := (s.winIndices g).foldl (State.openLane g) s
  t.modLeg g (fun l => { l with resume := if l.attempt = some 1 then false else l.resume })

/-! ### Receiver adaptation -/

/-- The candidate peaking codes: p - 1, p, p + 1, clamped to 0 to 15, duplicates dropped, ascending (R80). -/
def peakingCodes (p : Nat) : List Nat := [p - 1, p, min (p + 1) 15].eraseDups

/-- A lane's part of a new ADAPT tally (R80). -/
def AdaptLane.start (p : Nat) : AdaptLane :=
  { entry := p, candidates := peakingCodes p, measured := [], stage := .peaking, waiting := .discard, failed := false }

/-- The highest recorded merit. -/
def AdaptLane.highest (a : AdaptLane) : Nat := a.measured.foldl max 0

/-- The choice of peaking among the measured candidates: the highest merit, the entry peaking on a tie that holds it,
else the lowest tied code (R81). -/
def AdaptLane.choice (a : AdaptLane) : Nat :=
  let tied := ((a.candidates.zip a.measured).filter (fun x => x.2 == a.highest)).map Prod.fst
  if tied.contains a.entry then a.entry else tied.headD a.entry

/-- What an ADAPT report does beyond the tally. -/
inductive AdaptOut where
  | quiet
  | setPeaking (p : Nat)
  | chosen (p : Nat) (failed : Bool)
  | feedback
  deriving DecidableEq, Repr

/-- A report of merit m in ADAPT acts on a lane's tally (R81). -/
def AdaptLane.onReport (a : AdaptLane) (m : Nat) : AdaptLane × AdaptOut :=
  match a.stage, a.waiting with
  | .complete, _ => (a, .quiet)
  | .peaking, .measure =>
    let b := { a with measured := a.measured ++ [m], waiting := .discard }
    match a.candidates[b.measured.length]? with
    | some p => (b, .setPeaking p)
    | none => ({ b with stage := .feedback, failed := b.highest == 0 }, .chosen b.choice (b.highest == 0))
  | .feedback, .measure => ({ a with stage := .complete }, .feedback)
  | _, _ => ({ a with waiting := .measure }, .quiet)

/-- Entry to ADAPT: the tally, and every window lane's first candidate (R80). -/
def State.startAdapt (s : State) (g : LegId) : State :=
  let t := s.modLeg g (fun l =>
    { l with adapt := some (vec8 (fun i => AdaptLane.start (s.lane (s.winLane g i)).peaking)) })
  t.modWindow g (fun l => { l with peaking := (peakingCodes l.peaking).headD l.peaking })

/-- A lane's adaptation cut short at an END: its tally and its peaking (R83). -/
def AdaptLane.cutShort (a : AdaptLane) (peaking : Nat) : AdaptLane × Nat :=
  match a.stage with
  | .peaking => if a.measured = [] then (a, a.entry) else ({ a with failed := a.highest == 0 }, a.choice)
  | .feedback => (a, peaking)
  | .complete => (a, peaking)

/-- PHASE(VERIFY) ends an ADAPT still running at an END (R83). -/
def State.cutShortAdapt (s : State) (g : LegId) : State :=
  match (s.leg g).adapt with
  | none => s
  | some v =>
    let t := s.mapLanes (fun c l =>
      match ((s.leg g).window.bind (fun w => w.indexOf c)) with
      | some i => { l with peaking := (v[i].cutShort l.peaking).2 }
      | none => l)
    t.modLeg g (fun l => { l with adapt := some (vec8 (fun i =>
      if s.hasIndex g i then (v[i].cutShort 0).1 else v[i])) })

/-- Every window lane is ADAPT-complete (R83). -/
def State.allAdapted (s : State) (g : LegId) : Bool :=
  (s.leg g).adapt.any (fun v => (s.winIndices g).all (fun i => v[i].stage == .complete))

/-! ### The VERIFY tally -/

/-- A report judged by a lane's VERIFY tally: the first passed over, sixteen counted (R84). -/
def VerifyLane.onReport (v : VerifyLane) (isBad : Bool) : VerifyLane :=
  if v.passedOver = false then { v with passedOver := true }
  else if v.counted < 16 then { v with counted := v.counted + 1, bad := v.bad + isBad.toNat }
  else v

/-- Entry to VERIFY: a tally with every count at 0 (R84). -/
def State.startVerify (s : State) (g : LegId) : State :=
  s.modLeg g (fun l => { l with verify := some (Vector.replicate 8 ⟨false, 0, 0⟩) })

/-- Every window lane has counted 16 reports (R85). -/
def State.allCounted (s : State) (g : LegId) : Bool :=
  (s.leg g).verify.any (fun v => (s.winIndices g).all (fun i => v[i].counted == 16))

/-- The local VERIFY result: every lane has at most 1 bad window (R85). -/
def State.verifyPasses (s : State) (g : LegId) : Bool :=
  (s.leg g).verify.any (fun v => (s.winIndices g).all (fun i => v[i].bad ≤ 1))

/-- The largest bad-window count of any lane (R85). -/
def State.worstBad (s : State) (g : LegId) : Nat :=
  match (s.leg g).verify with
  | some v => (s.winIndices g).foldl (fun n i => max n v[i].bad) 0
  | none => 0

/-! ### Coming up -/

/-- The learned entry supplied for a lane on entry to UP from VERIFY (R87). Without far taps its pre and post are
free values (log 4). -/
def State.learnedFor (s : State) (g : LegId) (c : LaneId) : LearnedEntry :=
  let l := s.lane c
  { valid := l.farTaps.isSome
    rate := byteOf (s.leg g).phaseRate.code
    pre := (l.farTaps.map Taps.pre).getD (Config.unstatedPre (s.free + c.val))
    post := (l.farTaps.map Taps.post).getD (Config.unstatedPost (s.free + c.val))
    peaking := l.peaking
    d1 := l.d1 }

/-- Every entry of a learned table marked invalid (R168, R169). -/
def forgotten (t : Vector LearnedEntry 8) : Vector LearnedEntry 8 := vec8 (fun c => { t[c] with valid := false })

/-- A table written for another serial is cleared and takes the own cable serial (R168 step 1). -/
def Cable.claimed (k : Cable) : Cable :=
  if k.learnedSerial = k.serial then k else { k with learned := forgotten k.learned, learnedSerial := k.serial }

/-- The learned entries of a leg's window lanes are handed to the cable memory unit (R87, R168). The counter of free
values moves past those used. -/
def State.handOver (s : State) (g : LegId) : State :=
  let k := s.cable.claimed
  { s with
    cable := { k with learned := vec8 (fun c => if (s.winLanes g).contains c then s.learnedFor g c else k.learned[c]) }
    free := s.free + 8 }

end Sys2Proof.Machine
end

