-- ==== Sys2Proof/Machine/LegControl.lean ====
section
/-! DEFINITION. The leg controller: the transitions between the states of a leg, in both roles, with what each rule does
beyond the entry of R22 (R25 to R46, R94 to R101, R106 to R118). -/

namespace Sys2Proof.Machine

/-! ### Entries the HUB leads -/

/-- A HUB queues a PHASE item for a leg, at its negotiated rate (R149). -/
def State.queuePhase (s : State) (g : LegId) (st : PhaseState) (attempt : Nat) : State :=
  s.modLeg g (fun l => l.queuePhase st attempt l.phaseRate)

/-- PHASE(LISTEN, 0, L) (R30, R38, R112). -/
def State.queueListen (s : State) (g : LegId) : State := s.modLeg g (fun l => l.queuePhase .listen 0 .l)

/-- A timer of the leg controller starts. -/
def State.startDeadline (s : State) (g : LegId) (us : Nat) : State :=
  s.modLeg g (fun l => { l with deadline := some (s.after us) })

/-- Entry to PROBE at a HUB: the PROBE item is queued (R28). -/
def State.enterProbe (s : State) (g : LegId) : State :=
  let t := s.enter g .probe .farPresent none
  t.modLeg g (fun l => l.push (.probe (s.ident g)))

/-- The check of R28 on a HUB leg in LISTEN: every window lane PRESENT and no probe holdoff running. -/
def State.checkListen (s : State) (g : LegId) : State :=
  if s.isHub ∧ (s.leg g).state = .listen ∧ (s.leg g).holdoff = none ∧ s.allPresent g then s.enterProbe g else s

/-- The END's probe wait starts in LISTEN with every window lane PRESENT (R45). -/
def State.checkProbeWait (s : State) (g : LegId) : State :=
  if s.isHub = false ∧ (s.leg g).state = .listen ∧ s.allPresent g then
    s.modLeg g (fun l => { l with probeWait := some (s.after 500000) })
  else s

/-- Entry to LISTEN (R28, R45): retrain count 0, flush, the probe holdoff and PHASE(LISTEN) where the causing rule says
so, then a HUB's check or an END's probe wait. -/
def State.enterListen (s : State) (g : LegId) (cause : LegCause) (holdoff phase : Bool) : State :=
  let t := (s.enter g .listen cause none).flush g
  let t := t.modLeg g (fun l =>
    { l with retrains := 0, holdoff := if holdoff then some (s.after 100000) else none })
  let t := if phase then t.queueListen g else t
  (t.checkListen g).checkProbeWait g

/-- Entry to FAULT from any state other than OFF and FAULT (R40). -/
def State.enterFault (s : State) (g : LegId) (why : FaultReason) : State :=
  let old := (s.leg g).state
  if old = .off ∨ old = .fault then s
  else
    let t := s.enter g .fault .faultEntry none
    let t := t.modLeg g (fun l => { l with lastFault := why, faultCount := min 255 (l.faultCount + 1) })
    let t := t.flush g
    t.post .legFault (some g) [byteOf why.code, byteOf (t.leg g).faultCount, byteOf old.code]

/-- Entry to TRAIN at a HUB (R32). -/
def State.enterTrain (s : State) (g : LegId) (cause : LegCause) (attempt : Nat) : State :=
  let t := s.enter g .train cause (some attempt)
  let t := (t.modLeg g (fun l => { l with errCount := 0 })).flush g
  let t := (t.queuePhase g .train attempt).startSearch g
  t.startDeadline g 250000

/-- Entry to ADAPT at a HUB (R33). -/
def State.enterAdapt (s : State) (g : LegId) : State :=
  let t := s.enter g .adapt .trained (s.leg g).attempt
  let t := t.queuePhase g .adapt ((s.leg g).attempt.getD 0)
  (t.startDeadline g 20000).startAdapt g

/-- Entry to VERIFY at a HUB from ADAPT (R34). -/
def State.enterVerify (s : State) (g : LegId) : State :=
  let t := s.enter g .verify .adapted (s.leg g).attempt
  let t := t.queuePhase g .verify ((s.leg g).attempt.getD 0)
  (t.startDeadline g 40000).startVerify g

/-- Entry to UP at a HUB from VERIFY (R35). -/
def State.enterUp (s : State) (g : LegId) : State :=
  let t := s.enter g .up .verified none
  let t := t.modLeg g (fun l => { l with upSince := some s.time })
  (t.handOver g).queuePhase g .run 0

/-- An attempt failure (R36). -/
def State.attemptFails (s : State) (g : LegId) (cause : LegCause) : State :=
  let l := s.leg g
  if l.standbyVerify then s.enterTrain g cause 1
  else if l.attempt.getD 0 < 4 then s.enterTrain g cause (l.attempt.getD 0 + 1)
  else s.enterFault g .trainFailed

/-- A retrain of a leg in UP or DEGRADED (R37). -/
def State.retrain (s : State) (g : LegId) : State :=
  if (s.leg g).retrains < 3 then
    (s.modLeg g (fun l => { l with retrains := l.retrains + 1 })).enterTrain g .retrain 1
  else s.enterFault g .errorLimit

/-- VERIFY decides once both results are present (R35). The Bool says whether the leg enters a state. -/
def State.decideVerify (s : State) (g : LegId) : State × Bool :=
  match (s.leg g).localVerify, (s.leg g).farVerify with
  | some a, some b => (if a && b then s.enterUp g else s.attemptFails g .verifyFailed, true)
  | _, _ => (s, false)

/-- Both ends are trained: TRAIN ends (R33). The Bool says whether the leg enters a state. -/
def State.checkTrained (s : State) (g : LegId) : State × Bool :=
  if (s.leg g).localTrained ∧ (s.leg g).farTrained then (s.enterAdapt g, true) else (s, false)

/-! ### The training engine's results

Each of these answers the new state and whether the leg entered a state, which R11 step 3 asks. -/

/-- A lane of the leg has failed in TRAIN or ADAPT: an attempt failure at a HUB; an END withholds TRAIN_DONE (R66, R79). -/
def State.laneFails (s : State) (g : LegId) : State × Bool :=
  if s.isHub then (s.attemptFails g .laneFailed, true) else (s, false)

/-- A lane has become done (R77, R79): with best merit 0 it has failed; when all are trained the HUB sets the local
trained mark, and the END queues TRAIN_DONE. -/
def State.laneDone (s : State) (g : LegId) (c : LaneId) : State × Bool :=
  if (s.lane c).search.any (fun r => r.best == 0) then s.laneFails g
  else if s.allTrained g then
    if s.isHub then (s.modLeg g (fun l => { l with localTrained := true })).checkTrained g
    else (s.modLeg g (fun l => l.queueReport (.trainDone (l.attempt.getD 0))), false)
  else (s, false)

/-- What the search of a lane asks for is done (R71, R77, R78). -/
def State.searchOut (s : State) (g : LegId) (i : WinIx) (o : SearchOut) : State × Bool :=
  match o with
  | .quiet => (s, false)
  | .send q => (s.modLeg g (fun l => l.sendRequest s.role i q), false)
  | .finished => s.laneDone g (s.winLane g i)
  | .failed => s.laneFails g

/-- The search record of a window lane moves, and what it asks for is done. -/
def State.moveSearch (s : State) (g : LegId) (i : WinIx) (f : Search → Search × SearchOut) : State × Bool :=
  match (s.lane (s.winLane g i)).search with
  | none => (s, false)
  | some r => (s.modLane (s.winLane g i) (fun l => { l with search := some (f r).1 })).searchOut g i (f r).2

/-- The result of a lane's outstanding request reaches the engine; without an outstanding request it is discarded (R67).
A refusal with UNKNOWN_ITEM draws a fresh free choice (log 10). -/
def State.takeResult (s : State) (g : LegId) (i : WinIx) (res : ReqResult) : State :=
  if (s.lane (s.winLane g i)).search.any (fun r => r.waiting == some .status) then
    let t := (s.moveSearch g i (fun r => r.onResult (Config.unknownItemFailsLane s.free) res)).1
    { t with free := if res = .refuse .unknownItem then t.free + 1 else t.free }
  else s

/-! ### Window reports (R11, R12) -/

/-- A report of window lane i in TRAIN (R73). -/
def State.reportTrain (s : State) (g : LegId) (i : WinIx) (m : Nat) : State × Bool :=
  s.moveSearch g i (fun r => r.onReport m)

/-- A report of window lane i in ADAPT (R81 to R83). -/
def State.reportAdapt (s : State) (g : LegId) (i : WinIx) (m : Nat) (r : Int) : State × Bool :=
  match (s.leg g).adapt with
  | none => (s, false)
  | some v =>
    let a := v[i].onReport m
    let t := s.modLeg g (fun l => { l with adapt := some (v.set i.val a.1 i.isLt) })
    let c := s.winLane g i
    match a.2 with
    | .quiet => (t, false)
    | .setPeaking p => (t.modLane c (fun l => { l with peaking := p }), false)
    | .chosen p failed =>
      let t := t.modLane c (fun l => { l with peaking := p })
      if failed then t.laneFails g else (t, false)
    | .feedback =>
      let t := t.modLane c (fun l => { l with d1 := updateD1 l.d1 r 4 })
      if t.isHub && t.allAdapted g then (t.enterVerify g, true) else (t, false)

/-- A report of window lane i in VERIFY (R84, R85). -/
def State.reportVerify (s : State) (g : LegId) (i : WinIx) (isBad : Bool) : State × Bool :=
  match (s.leg g).verify with
  | none => (s, false)
  | some v =>
    let a := v[i].onReport isBad
    let t := s.modLeg g (fun l => { l with verify := some (v.set i.val a i.isLt) })
    if a.counted = 16 ∧ v[i].counted ≠ 16 ∧ t.allCounted g then
      if t.isHub then
        (t.modLeg g (fun l => { l with localVerify := some (t.verifyPasses g) })).decideVerify g
      else
        (t.modLeg g (fun l =>
          l.queueReport (.verifyResult (l.attempt.getD 0) (t.verifyPasses g && !l.adaptFailed) (t.worstBad g))), false)
    else (t, false)

/-- A report goes to the consumer of the leg's state at its arrival (R11 step 2); the Bool says whether the handling made
the leg enter a state. -/
def State.handReport (s : State) (g : LegId) (c : LaneId) (rep : Report) : State × Bool :=
  match (s.leg g).window.bind (fun w => w.indexOf c) with
  | none => (s, false)
  | some i =>
    match (s.leg g).state with
    | .train => s.reportTrain g i rep.merit
    | .adapt => s.reportAdapt g i rep.merit rep.r.toInt
    | .verify => s.reportVerify g i (badWindow (s.leg g) rep)
    | .up => (s.modLane c (fun l => { l with d1 := updateD1 l.d1 rep.r.toInt 8 }), false)
    | .degraded => (s.modLane c (fun l => { l with d1 := updateD1 l.d1 rep.r.toInt 8 }), false)
    | _ => (s, false)

/-- The leg controller's check of the error counter against UP and DEGRADED (R96, R97). -/
def State.checkHealth (s : State) (g : LegId) : State :=
  let l := s.leg g
  if l.state = .up ∧ 128 ≤ l.errCount then
    (s.enter g .degraded .health none).post .linkDegraded (some g) (byteOf l.errCount :: le16 l.aggMerit)
  else if l.state = .degraded ∧ l.errCount ≤ 95 then s.enter g .up .health none
  else s

/-- The top of the counter (R98, R99). -/
def State.counterTop (s : State) (g : LegId) : State :=
  let t := s.modLeg g (fun l => { l with errCount := 0 })
  if t.isHub then t.retrain g else t.modLeg g Leg.queueRetrain

/-- The error counter after a counted set, none at the top (R94). -/
def countSet (n : Nat) (isBad : Bool) : Option Nat :=
  if isBad then (if n < 248 then some (n + 8) else none) else some (n - 1)

/-- The health tally counts a complete set of a leg in UP or DEGRADED (R93, R94). -/
def State.countHealth (s : State) (g : LegId) (isBad : Bool) : State :=
  match countSet (s.leg g).errCount isBad with
  | some n => (s.modLeg g (fun l => { l with errCount := n })).checkHealth g
  | none => s.counterTop g

/-- The entries of a leg's open report set for its window lanes (R12). -/
def State.setEntries (s : State) (g : LegId) : List (Option Report) := (s.winLanes g).map (fun c => (s.leg g).reportSet[c])

/-- The lowest merit among the entries (R12). -/
def lowestMerit (rs : List Report) : Nat := rs.foldl (fun n r => min n r.merit) 508

/-- A report joins its leg's open report set; a complete set gives the aggregate merit, goes to the health tally and is
opened again (R12). -/
def State.joinSet (s : State) (g : LegId) (c : LaneId) (rep : Report) : State :=
  let t := s.modLeg g (fun l => { l with reportSet := l.reportSet.set c.val (some rep) c.isLt })
  let es := t.setEntries g
  if es ≠ [] ∧ es.all Option.isSome then
    let rs := es.filterMap id
    let isBad := rs.any (badWindow (t.leg g))
    let u := t.modLeg g (fun l => { l with aggMerit := lowestMerit rs, reportSet := emptySet })
    if (u.leg g).state.inService then u.countHealth g isBad else u
  else t

/-- A window report arrives for a lane of leg g (R11). -/
def State.takeReport (s : State) (g : LegId) (c : LaneId) (rep : Report) : State :=
  let t := s.modLane c (fun l => { l with report := some rep, merit := rep.merit })
  let u := t.handReport g c rep
  if u.2 then u.1 else u.1.joinSet g c rep

/-! ### Presence (R13 to R15, R28, R38, R44, R45, R117) -/

/-- A wake event (R117). -/
def State.wakeEvent (s : State) (g : LegId) (c : LaneId) : State :=
  let l := s.leg g
  let t := s.modLeg g (fun l => { l with wakePending := true })
  let t := t.post .wake (some g) [byteOf c.val, boolByte l.autoWake]
  if l.autoWake then t.enterListen g .wake false (s.isHub && l.farId.isSome) else t

/-- A window lane of the leg has gone PRESENT (R28, R45, R117). -/
def State.lanePresent (s : State) (g : LegId) (c : LaneId) : State :=
  match (s.leg g).state with
  | .listen => (s.checkListen g).checkProbeWait g
  | .sleep => s.wakeEvent g c
  | _ => s

/-- Signal loss at a HUB (R31, R38): PHASE(LISTEN) is queued unless the leg was in PROBE or its sideband lost. -/
def State.hubSignalLoss (s : State) (g : LegId) : State :=
  match (s.leg g).state with
  | .train => s.enterListen g .signalLoss true (!(s.leg g).sbLost)
  | .adapt => s.enterListen g .signalLoss true (!(s.leg g).sbLost)
  | .verify => s.enterListen g .signalLoss true (!(s.leg g).sbLost)
  | .up => s.enterListen g .signalLoss true (!(s.leg g).sbLost)
  | .degraded => s.enterListen g .signalLoss true (!(s.leg g).sbLost)
  | .standby => s.enterListen g .signalLoss true (!(s.leg g).sbLost)
  | .probe => s.enterListen g .signalLoss true false
  | _ => s

/-- Signal loss at an END (R44), which in LISTEN stops the probe wait (R45). -/
def State.endSignalLoss (s : State) (g : LegId) : State :=
  match (s.leg g).state with
  | .off => s
  | .sleep => s
  | .fault => s
  | .listen => s.modLeg g (fun l => { l with probeWait := none })
  | _ => s.enterListen g .signalLoss false false

/-- A presence change reaches the leg controller (R14). -/
def State.presenceChange (s : State) (g : LegId) (c : LaneId) : Presence → State
  | .present => s.lanePresent g c
  | .absent => if s.isHub then s.hubSignalLoss g else s.endSignalLoss g

/-- The presence a reading agrees with (R13). -/
def seen (signal : Bool) : Presence := if signal then .present else .absent

/-- A scan reading moves the debounce count of a scanned lane and may flip its presence (R14). -/
def State.takeReading (s : State) (g : LegId) (c : LaneId) (signal : Bool) : State :=
  let l := s.lane c
  if l.presence = seen signal then s.modLane c (fun l => { l with debounce := 0 })
  else if l.debounce < 3 then s.modLane c (fun l => { l with debounce := l.debounce + 1 })
  else (s.modLane c (fun l => { l with presence := seen signal, debounce := 0 })).presenceChange g c (seen signal)

/-! ### Probing (R29, R30), sideband loss (R39), refusals of a PHASE (R40) -/

/-- The PROBE of a leg in PROBE ends with ACK: the checks of R29 in order. -/
def State.probeAck (s : State) (g : LegId) (d : Ident) : State :=
  if (s.leg g).state ≠ .probe then s
  else if d.role ≠ 1 then s.enterFault g .roleConflict
  else if some d.width.toNat ≠ (s.leg g).window.map Window.w then s.enterFault g .widthMismatch
  else
    match Rate.ofCode d.rateCap.toNat with
    | none => s.enterFault g .rateMismatch
    | some cap =>
      let t := s.modLeg g (fun l => { l with farId := some d, negRate := some (l.rateCap.lower cap) })
      let t := if d.serial = s.cable.serial then t else t.post .serialMismatch (some g) []
      t.enterTrain g .probeAccepted 1

/-- The PROBE of a leg in PROBE ends with REFUSE (R30). -/
def State.probeRefused (s : State) (g : LegId) (why : RefuseReason) : State :=
  if (s.leg g).state ≠ .probe then s else s.enterListen g .probeRefused true (why == .wrongState)

/-- The PROBE of a leg in PROBE fails (R30). -/
def State.probeFailed (s : State) (g : LegId) : State :=
  if (s.leg g).state ≠ .probe then s
  else (s.enterListen g .probeFailed true false).post .sidebandLost (some g) []

/-- The leg controller acts on a declaration of loss by the leg's state (R39). -/
def State.sidebandLost (s : State) (g : LegId) : State :=
  match (s.leg g).state with
  | .train => (s.enterListen g .sidebandLoss true false).post .sidebandLost (some g) []
  | .adapt => (s.enterListen g .sidebandLoss true false).post .sidebandLost (some g) []
  | .verify => (s.enterListen g .sidebandLoss true false).post .sidebandLost (some g) []
  | .up => (s.modLeg g (fun l => { l with sbLost := true })).post .sidebandLost (some g) []
  | .degraded => (s.modLeg g (fun l => { l with sbLost := true })).post .sidebandLost (some g) []
  | .standby => (s.modLeg g (fun l => { l with sbLost := true })).post .sidebandLost (some g) []
  | .sleep => (s.modLeg g (fun l => { l with sbLost := true })).post .sidebandLost (some g) []
  | .probe => s.probeFailed g
  | .listen => s.post .sidebandLost (some g) []
  | .off => s
  | .fault => s

/-- The sideband lost flag is cleared, with its notice, where it is yes (R39, R44, R128). -/
def State.restoreSideband (s : State) (g : LegId) : State :=
  if (s.leg g).sbLost then (s.modLeg g (fun l => { l with sbLost := false })).post .sidebandRestored (some g) [] else s

/-- A PHASE is refused (R40). -/
def State.phaseRefused (s : State) (g : LegId) (st : PhaseState) : State :=
  if st = .listen ∨ (s.leg g).state = .listen then s else s.enterFault g .farRefused

/-! ### Power requests at a HUB (R108 to R112) -/

/-- A standby verify begins (R111). -/
def State.standbyVerify (s : State) (g : LegId) (cause : LegCause) : State :=
  let t := s.enter g .verify cause (some 4)
  let t := (t.modLeg g (fun l => { l with standbyVerify := true })).queuePhase g .verify 4
  (t.startDeadline g 40000).startVerify g

/-- The table of R108 accepts the request in this state. -/
def powerAccepted (p : Power) (st : LegState) : Bool :=
  match p, st with
  | .standby, .up => true
  | .standby, .degraded => true
  | .standby, _ => false
  | .sleep, .up => true
  | .sleep, .degraded => true
  | .sleep, .standby => true
  | .sleep, .listen => true
  | .sleep, _ => false
  | .active, _ => true

/-- An accepted power request takes its effect at a HUB (R109 to R112). -/
def State.powerTaken (s : State) (g : LegId) (p : Power) (cause : LegCause) : State :=
  match p with
  | .standby => (s.enter g .standby cause none).queuePhase g .standby 0
  | .sleep =>
    let t := s.enter g .sleep cause none
    if (s.leg g).state = .listen then t
    else (t.modLeg g (fun l => { l with resume := true })).queuePhase g .sleep 0
  | .active =>
    match (s.leg g).state with
    | .standby => s.standbyVerify g cause
    | .sleep => s.enterListen g cause false (s.leg g).farId.isSome
    | _ => s

/-- A power request at a HUB, decided by the table of R108: a refused one changes nothing. -/
def State.powerRequest (s : State) (g : LegId) (p : Power) (cause : LegCause) : State :=
  if powerAccepted p (s.leg g).state then s.powerTaken g p cause else s

/-- A POWER_REQUEST drained from the END, with its FAR_POWER notice (R116). -/
def State.drainedPower (s : State) (g : LegId) (code : Byte) : State :=
  match Power.ofCode code.toNat with
  | some p =>
    let ok := powerAccepted p (s.leg g).state
    let t := s.powerRequest g p .powerFar
    t.post .farPower (some g) [code, if ok then 0 else 1, byteOf (t.leg g).state.code]
  | none => s.post .farPower (some g) [code, 1, byteOf (s.leg g).state.code]

/-! ### Items drained from an END (R159) -/

/-- A drained TAP_REQUEST is applied in TRAIN and its TAP_STATUS queued, or it is discarded (R60, R61). -/
def State.drainedTap (s : State) (g : LegId) (d : List Byte) : State :=
  match parseTapRequest d with
  | some q =>
    if h : natAt d 0 < 8 then
      let i : WinIx := ⟨natAt d 0, h⟩
      if (s.leg g).state = .train ∧ s.hasIndex g i then
        (s.applyTaps g i q).modLeg g (fun l => l.queueStatus (s.tapOutcome g i q))
      else s
    else s
  | none => s

/-- A drained TRAIN_DONE with the leg's attempt number, in TRAIN (R33). -/
def State.drainedTrainDone (s : State) (g : LegId) (attempt : Nat) : State :=
  if (s.leg g).state = .train ∧ (s.leg g).attempt = some attempt then
    ((s.modLeg g (fun l => { l with farTrained := true })).checkTrained g).1
  else s

/-- A drained VERIFY_RESULT with the leg's attempt number, in VERIFY (R35). -/
def State.drainedVerify (s : State) (g : LegId) (attempt : Nat) (pass : Bool) : State :=
  if (s.leg g).state = .verify ∧ (s.leg g).attempt = some attempt then
    ((s.modLeg g (fun l => { l with farVerify := some pass })).decideVerify g).1
  else s

/-- A drained RETRAIN_REQUEST (R37, R101). -/
def State.drainedRetrain (s : State) (g : LegId) : State := if (s.leg g).state.inService then s.retrain g else s

/-- An item carried by a DRAIN beat is applied; in FAULT every one is discarded (R40, R159). -/
def State.drained (s : State) (g : LegId) (item : Byte) (d : List Byte) : State :=
  if (s.leg g).state = .fault then s
  else
    match item.toNat with
    | 5 => s.drainedTap g d
    | 7 => s.drainedTrainDone g (natAt d 0)
    | 8 => s.drainedVerify g (natAt d 0) (natAt d 1 == 1)
    | 9 => s.drainedRetrain g
    | 10 => s.drainedPower g (d.getD 0 0)
    | _ => s

/-! ### Following at an END (R41 to R45, R68, R115) -/

/-- The queued items an END's entry by PHASE removes before they are drained (R68). -/
def Item.ofTraining : Item → Bool
  | .tapRequest _ _ => true
  | .trainDone _ => true
  | .verifyResult _ _ _ => true
  | _ => false

/-- On an END's entry to TRAIN, ADAPT, VERIFY or UP by a PHASE the undrained training items and the engine's holds go, and
the health hold may enter a place they free (R68, R150). -/
def Leg.withdrawn (l : Leg) (role : Role) : Leg :=
  Leg.fillHolds role 4
    { l with queue := l.queue.filter (fun i => !i.ofTraining), laneHold := emptyLaneHold, reportHold := none }

/-- The fields an END takes from a PHASE item other than PHASE(LISTEN): its rate (R43). -/
def State.takeRate (s : State) (g : LegId) (r : Rate) : State := s.modLeg g (fun l => { l with negRate := some r })

/-- An END enters the state a PHASE names, by PHASE, and withdraws its training items (R43, R68). -/
def State.follow (s : State) (g : LegId) (new : LegState) (attempt : Option Nat) (r : Rate) : State :=
  ((s.enter g new .phase attempt).takeRate g r).modLeg g (fun l => l.withdrawn s.role)

/-- PHASE(TRAIN) taken by an END (R41, R43, R68). -/
def State.followTrain (s : State) (g : LegId) (attempt : Nat) (r : Rate) : State :=
  let up := (s.leg g).state.inService
  let t := s.follow g .train (some attempt) r
  let t := t.modLeg g (fun l =>
    { l with errCount := 0, retrains := if up then min 3 (l.retrains + 1) else l.retrains })
  t.startSearch g

/-- PHASE(VERIFY) taken by an END (R43, R83). -/
def State.followVerify (s : State) (g : LegId) (attempt : Nat) (r : Rate) : State :=
  ((s.cutShortAdapt g).follow g .verify (some attempt) r).startVerify g

/-- PHASE(RUN) taken by an END (R43, R87). -/
def State.followRun (s : State) (g : LegId) (r : Rate) : State :=
  let t := s.follow g .up none r
  if (s.leg g).state = .verify then
    (t.modLeg g (fun l => { l with upSince := some s.time })).handOver g
  else t

/-- An END takes a PHASE item that passed its checks (R43, R115). -/
def State.takePhase (s : State) (g : LegId) (st : PhaseState) (attempt : Nat) (r : Rate) : State :=
  match st with
  | .train => s.followTrain g attempt r
  | .adapt => (s.follow g .adapt (some attempt) r).startAdapt g
  | .verify => s.followVerify g attempt r
  | .run => s.followRun g r
  | .standby => (s.enter g .standby .phase none).takeRate g r
  | .sleep => ((s.enter g .sleep .phase none).takeRate g r).modLeg g (fun l => { l with resume := true })
  | .listen => s.enterListen g .phase false false

/-- The hub is silent (R44). -/
def State.hubSilent (s : State) (g : LegId) : State :=
  match (s.leg g).state with
  | .probe => (s.enterListen g .hubSilence false false).post .sidebandLost (some g) []
  | .train => (s.enterListen g .hubSilence false false).post .sidebandLost (some g) []
  | .adapt => (s.enterListen g .hubSilence false false).post .sidebandLost (some g) []
  | .verify => (s.enterListen g .hubSilence false false).post .sidebandLost (some g) []
  | .up => (s.modLeg g (fun l => { l with sbLost := true })).post .sidebandLost (some g) []
  | .degraded => (s.modLeg g (fun l => { l with sbLost := true })).post .sidebandLost (some g) []
  | .standby => (s.modLeg g (fun l => { l with sbLost := true })).post .sidebandLost (some g) []
  | .sleep => (s.modLeg g (fun l => { l with sbLost := true })).post .sidebandLost (some g) []
  | .off => s
  | .listen => s
  | .fault => s

/-! ### Stopping and resetting a leg (R18, R26, R27, R134) -/

/-- A transaction of the leg is abandoned; a FAR_READ in flight is answered ABANDONED (R134, R146). -/
def State.abandon (s : State) (g : LegId) : State :=
  match s.tx with
  | some t =>
    if t.leg = g then
      match t.work with
      | .item (.farFetch _ _) => { s with tx := none }.farReadFailed .abandoned 0
      | _ => { s with tx := none }
    else s
  | none => s

/-- A leg goes to OFF by STOP_LEG or RESET_LEG, with its queue flushed and its transaction abandoned (R26, R127, R152). -/
def State.stopLeg (s : State) (g : LegId) (cause : LegCause) : State :=
  let t := ((s.enter g .off cause none).flush g).abandon g
  t.modLeg g (fun l => { l with timeouts := 0, passOver := 0, drainDone := false })

/-- A window lane at a leg reset (R18). -/
def Lane.legReset (l : Lane) : Lane :=
  { l with taps := if l.pinned then l.taps else Taps.reset, settleUntil := none, farTaps := none, search := none,
           report := none, merit := 0, peaking := 7, d1 := 0, path := .off, presence := .absent, debounce := 0 }

/-- A leg reset (R18, R27, R85, R125, R127). -/
def State.resetLeg (s : State) (g : LegId) : State :=
  let t := s.stopLeg g .legReset
  let t := t.modWindow g Lane.legReset
  t.modLeg g (fun l =>
    { l with retrains := 0, errCount := 0, aggMerit := 0, adaptFailed := false, beacon := 0 })

end Sys2Proof.Machine
end

