-- ==== Sys2Proof/Machine/Engine.lean ====
section
/-! DEFINITION. The HUB's sideband: the arbiter and its grants (R152 to R160), the transaction engine (R126 to R133, R143) and
what each result does. -/

namespace Sys2Proof.Machine

/-! ### The arbiter -/

/-- A transaction of the leg starts: sequence bit toggled, beat number chosen for a DRAIN, expiry timer started, the
command frame going out (R126, R143). -/
def State.beginTx (s : State) (g : LegId) (w : Work) : State :=
  let l := s.leg g
  let b := if w = .drain ∧ l.beatTaken then l.beat + 1 else l.beat
  let t := s.modLeg g (fun l =>
    { l with seq := !l.seq, beat := b, beatTaken := if w = .drain then false else l.beatTaken })
  let x : Transaction :=
    { leg := g, work := w, seq := !l.seq, beat := b, phase := .sending, live := true, replyTimer := none,
      backoff := none, expiry := s.after 2000 }
  { t with tx := some x }

/-- The grant's transaction count rises as one starts (R156). -/
def State.countTx (s : State) : State := { s with grant := s.grant.map (fun r => { r with count := r.count + 1 }) }

/-- What the engine starts for a leg at a choice point, if anything: the head item, else a DRAIN beat (R156). -/
def State.startNext (s : State) (g : LegId) : Option State :=
  match (s.leg g).queue.head? with
  | some i => some ((s.beginTx g (.item i)).modLeg g (fun l => l.popped s.role)).countTx
  | none =>
    if 0 < (s.leg g).beacon.val ∧ (s.leg g).drainDone = false then some (s.beginTx g .drain).countTx else none

/-- The pass-over count of a leg at the end of a grant held by leg `h` (R154). -/
def Leg.passedOver (l : Leg) (held : Bool) : Nat :=
  if held then 0 else if 0 < l.demand then min 12 (l.passOver + 1) else 0

/-- The end of a grant: the pass-over counts change (R154). -/
def State.endGrant (s : State) (r : Grant) : State :=
  { s.mapLegs (fun g l => { l with passOver := l.passedOver (g == r.leg) }) with grant := none }

/-- With the engine FREE and no grant held: a grant for the leg of highest demand, and its first transaction (R155). -/
def State.choose (s : State) : State :=
  match s.bestLeg with
  | none => s
  | some g => (State.startNext { s with grant := some ⟨g, 0, 8⟩ } g).getD s

/-- The decision of R157, once, after the 7th transaction: the limit becomes 16 where no other leg's demand reaches the
granted leg's. -/
def State.extended (s : State) (r : Grant) : Grant :=
  if r.count = 7 ∧ allLegs.all (fun k => k == r.leg || (s.leg k).demand < (s.leg r.leg).demand) then
    { r with limit := 16 }
  else r

/-- The choice of a HUB at the end of an event with the engine FREE: a choice point where a grant is held, which `ends` ends
(R156 to R158), else the choice of R155. -/
def State.arbitrate (s : State) (ends : Bool) : State :=
  if s.isHub = false ∨ s.tx.isSome then s
  else
    match s.grant with
    | none => s.choose
    | some r0 =>
      let r := s.extended r0
      let st := (s.leg r.leg).state
      if ends ∨ st = .off ∨ st = .fault ∨ r.limit ≤ r.count then (s.endGrant r).choose
      else
        match State.startNext { s with grant := some r } r.leg with
        | some t => t
        | none => (s.endGrant r).choose

/-! ### Results -/

/-- How a transaction ends (R133). -/
inductive TxResult where
  | ack (item : Byte) (more : Bool) (data : List Byte)
  | refuse (why : RefuseReason)
  | lost
  | expired
  deriving DecidableEq, Repr

/-- The result of a tap request as the engine gets it from an EXCHANGE (R59). -/
def TxResult.forEngine (i : WinIx) : TxResult → ReqResult
  | .ack _ _ d => ((parseTapStatus i d).map ReqResult.ack).getD .failure
  | .refuse why => .refuse why
  | .lost => .failure
  | .expired => .failure

/-- The result of an EXCHANGE: far taps, then the training engine where the request's search record stands (R59, R67). -/
def State.exchangeEnds (s : State) (t : Transaction) (i : WinIx) (r : TxResult) : State :=
  let q := r.forEngine i
  let u := match q with
    | .ack st => s.setFarTaps t.leg st
    | _ => s
  if t.live then u.takeResult t.leg i q else u

/-- A good ACK of a FETCH STATUS sets the far status (R137). -/
def State.takeFarStatus (s : State) (g : LegId) (d : List Byte) : State :=
  s.modLeg g (fun l => { l with farStatus := parseFarStatus s.time d })

/-- The result of a FAR_READ's FETCH settles its reply (R146). -/
def State.farFetchEnds (s : State) (t : Transaction) (k : FetchKind) (r : TxResult) : State :=
  match r with
  | .ack _ _ d => (if k = .status then s.takeFarStatus t.leg d else s).farReadDone .ok d
  | .refuse why => s.farReadFailed .refused why.code
  | .lost => s.farReadFailed .lost 0
  | .expired => s.farReadFailed .expired 0

/-- The result of the PROBE (R29, R30). -/
def State.probeEnds (s : State) (t : Transaction) (r : TxResult) : State :=
  match r with
  | .ack _ _ d => s.probeAck t.leg (parseIdent d)
  | .refuse why => s.probeRefused t.leg why
  | .lost => s.probeFailed t.leg
  | .expired => s.probeFailed t.leg

/-- The result of a DRAIN beat: an ACK's item is taken and applied, and the drain-done mark set where the END has no more
(R143, R153, R159). -/
def State.drainEnds (s : State) (t : Transaction) (r : TxResult) : State :=
  match r with
  | .ack item more d =>
    let u := s.modLeg t.leg (fun l => { l with beatTaken := true, drainDone := l.drainDone || item == 0 || !more })
    u.drained t.leg item d
  | _ => s

/-- The result of a transaction goes to its originator (R133). -/
def State.handOn (s : State) (t : Transaction) (r : TxResult) : State :=
  match t.work with
  | .drain => s.drainEnds t r
  | .item i =>
    match i with
    | .probe _ => s.probeEnds t r
    | .phase st _ _ =>
      match r with
      | .refuse _ => s.phaseRefused t.leg st
      | _ => s
    | .exchange ix _ => s.exchangeEnds t ix r
    | .keepalive =>
      match r with
      | .ack _ _ d => s.takeFarStatus t.leg d
      | _ => s
    | .farFetch k _ => s.farFetchEnds t k r
    | _ => s

/-- The end of this transaction ends the grant: a DRAIN with nothing more, refused or failed, or a loss (R158). -/
def Transaction.endsGrant (t : Transaction) (r : TxResult) : Bool :=
  match r with
  | .lost => true
  | .ack item more _ => t.work == .drain && (item == 0 || !more)
  | _ => t.work == .drain

def Work.isProbe : Work → Bool
  | .item (.probe _) => true
  | _ => false

/-- A transaction ends: its result is handed on, a declaration of loss follows it, then the choice point (R130, R133, R156).
The failure of a leg's PROBE and its loss are one matter (R130). -/
def State.endTx (s : State) (t : Transaction) (r : TxResult) : State :=
  let u := State.handOn { s with tx := none } t r
  let u := if r = .lost ∧ ¬(t.work.isProbe ∧ (s.leg t.leg).state = .probe) then u.sidebandLost t.leg else u
  u.arbitrate (t.endsGrant r)

/-! ### Replies, timeouts, expiry -/

/-- An ACK's data pass the length and content checks of R128, R143 and R197. -/
def ackGood (t : Transaction) (item : Byte) (d : List Byte) : Bool :=
  match t.work with
  | .drain => drainedLength item.toNat == some d.length
  | .item i =>
    d.length == ackLength t.work &&
      (match i with
       | .exchange ix _ => (parseTapStatus ix d).isSome
       | .keepalive => (parseFarStatus 0 d).isSome
       | .farFetch .status _ => (parseFarStatus 0 d).isSome
       | .farFetch .laneInfo _ => laneInfoOk d
       | _ => true)

/-- The item kind of a reply is the command's; to a DRAIN, none or a kind an END queues (R128, R143). -/
def itemGood (t : Transaction) (item : Byte) : Bool :=
  match t.work with
  | .drain => (drainedLength item.toNat).isSome
  | w => item == w.itemCode

/-- The checks of R128 on a reply with a correct CRC; `low` is its response kind, `mid` bits 2 and 3 of its byte 0 (R197). -/
def replyGood (t : Transaction) (low mid : BitVec 2) (f : ResponseBody) : Bool :=
  low != 0 && mid == 0 && f.seq == t.seq && itemGood t f.item &&
    (if low = 1 then ackGood t f.item f.data
     else if low = 3 then (RefuseReason.ofCode f.reason.toNat).isSome
     else true)

/-- A timeout of the current send: the command is resent, or on the third in a row the sideband is lost (R129, R130). -/
def State.timeout (s : State) (t : Transaction) : State :=
  if (s.leg t.leg).timeouts + 1 < 3 then
    { s.modLeg t.leg (fun l => { l with timeouts := l.timeouts + 1 }) with
      tx := some { t with phase := .sending, replyTimer := none } }
  else State.endTx (s.modLeg t.leg (fun l => { l with timeouts := 0 })) t .lost

/-- A good DEFER: back-off of 100 microseconds (R131). -/
def State.backOff (s : State) (t : Transaction) : State :=
  { s with tx := some { t with phase := .backoff, replyTimer := none, backoff := some (s.after 100) } }

/-- A good reply: the timeouts are forgotten, a lost sideband restored, then its kind acts (R128). -/
def State.goodReply (s : State) (t : Transaction) (low : BitVec 2) (f : ResponseBody) : State :=
  let u := (s.modLeg t.leg (fun l => { l with timeouts := 0 })).restoreSideband t.leg
  if low = 1 then u.endTx t (.ack f.item f.more f.data)
  else if low = 2 then u.backOff t
  else u.endTx t (.refuse ((RefuseReason.ofCode f.reason.toNat).getD .badValue))

/-- A response frame arrives on a leg's pair: a reply where the leg's transaction is WAITING and the CRC correct, otherwise
discarded (R128). An END has no transaction and discards it (R122). -/
def State.takeResponse (s : State) (g : LegId) (low mid : BitVec 2) (f : ResponseBody) : State :=
  match s.tx with
  | none => s
  | some t =>
    if s.isHub ∧ t.leg = g ∧ t.phase = .waiting ∧ responseCrcOk low mid f then
      if replyGood t low mid f then s.goodReply t low f else s.timeout t
    else s

/-- The data of DEFER_EXPIRED: command kind, item kind, lane index (R132). -/
def Transaction.expiryData (t : Transaction) : List Byte :=
  [byteOf t.work.command.toNat, t.work.itemCode, byteOf t.work.laneField.val]

/-- The expiry timer of the transaction ends it (R132). -/
def State.expireTx (s : State) (t : Transaction) : State :=
  (s.post .deferExpired (some t.leg) t.expiryData).endTx t .expired

/-- A command frame with a correct CRC arrives on a pair of a HUB (R31). -/
def State.hubHearsCommand (s : State) (g : LegId) : State := (s.enterFault g .roleConflict).arbitrate false

/-- Whether the sideband receiver watches the beacon of a leg's pair: not while a transaction of the leg is in flight (R125). -/
def State.watchesBeacon (s : State) (g : LegId) : Bool := s.isHub && !(s.tx.any (fun t => t.leg == g))

/-- A level received on a leg's pair outside a transaction: beacon level and drain-done mark (R125, R153). -/
def State.takeBeacon (s : State) (g : LegId) (level : Fin 4) : State :=
  if s.watchesBeacon g then
    (s.modLeg g (fun l => { l with beacon := level, drainDone := false })).arbitrate false
  else s

end Sys2Proof.Machine
end

