-- ==== Sys2Proof/Machine/LaneEvents.lean ====
section
/-! DEFINITION. The commands that reach the lane datapath: window reports, scan readings and settle expiries. -/

namespace Sys2Proof.Machine

/-- WINDOW_REPORT (R11, R12): taken for a lane of a window in whatever state its leg is (R103; DEDUCED, log 17); without
an owner nothing is taken (R2). -/
def execWindowReport (c : LaneId) (h : Fin 128) (e : Fin 65536) (r : BitVec 7) (s : State) : Host.Outcome State Fault Refusal :=
  .next
    (match (s.lane c).owner with
     | some g => (s.takeReport g c ⟨h, e, r, s.time⟩).arbitrate false
     | none => s)

/-- SCAN_READING (R13, R14): a lane that is not scanned gets none. Signal is a level at or above the threshold. -/
def execScanReading (c : LaneId) (level : Fin 64) (s : State) : Host.Outcome State Fault Refusal :=
  .next
    (match (s.lane c).owner with
     | some g =>
       if s.scanned c then (s.takeReading g c ((s.leg g).presThreshold ≤ level.val)).arbitrate false else s
     | none => s)

/-- SETTLE_EXPIRY (R16): settle until becomes absent. -/
def execSettleExpiry (c : LaneId) (s : State) : Host.Outcome State Fault Refusal :=
  .next (s.modLane c (fun l => { l with settleUntil := none }))

end Sys2Proof.Machine
end

