-- ==== Sys2Proof/Machine/Windows.lean ====
section
/-! DEFINITION. Leg windows: installing one with the lane fields it sets (R4 to R6). -/

namespace Sys2Proof.Machine

/-- A lane after leg g's window became `w` (R4, R5, R8, R15): held by it, left by it, or untouched. -/
def Lane.underWindow (g : LegId) (w : Window) (path : Path) (c : LaneId) (l : Lane) : Lane :=
  match w.indexOf c with
  | some i => { l with owner := some g, hostLane := some (w.hostAt i), path := path }
  | none =>
    if l.owner = some g then
      { l with owner := none, hostLane := none, path := .off, presence := .absent, debounce := 0 }
    else l

/-- Leg g's window is set or replaced, with the owner and host lane fields, in one step (R4). -/
def State.installWindow (s : State) (g : LegId) (w : Window) : State :=
  (s.mapLanes (Lane.underWindow g w (s.leg g).state.path)).modLeg g (fun l => { l with window := some w })

/-- The window shares a host or copper lane with the window of another leg (R5 check 4). -/
def State.conflicts (s : State) (g : LegId) (w : Window) : Bool :=
  allLegs.any (fun k => k != g && s.hasLeg k && (s.leg k).window.any w.overlaps)

/-- The window shares a host or copper lane with that of a lower-numbered leg (R6). -/
def State.conflictsBelow (s : State) (g : LegId) (w : Window) : Bool :=
  allLegs.any (fun k => decide (k < g) && (s.leg k).window.any w.overlaps)

end Sys2Proof.Machine
end

