-- ==== Sys2Proof/Machine/CableMemory.lean ====
section
/-! DEFINITION. The cable memory unit: start-up (R161), the factory image (R162 to R165, R198), the learned block (R167, R199) and
the pages of the commit job (R170 to R172). -/

namespace Sys2Proof.Machine

/-! ### Records of the factory image -/

/-- One entry of a LEG_DEFAULTS record (R164). -/
structure LegDefault where
  leg : LegId
  window : Window
  cap : Rate
  autoStart : Bool
  autoWake : Bool
  deriving DecidableEq, Repr

/-- The last accepted record of each type (R163). -/
structure Accepted where
  cableId : Option (Serial × Nat)
  loss : Option (Vector (Fin 8) 8)
  presets : Option (Vector Preset 8)
  defaults : Option (List LegDefault)
  thresholds : Option ThresholdTable
  deriving DecidableEq, Repr

def Accepted.empty : Accepted := ⟨none, none, none, none, none⟩

/-- CABLE_ID: serial and length class 0 to 15 (R164). -/
def parseCableId (d : List Byte) : Option (Serial × Nat) :=
  if d.length = 9 ∧ natAt d 8 ≤ 15 then some (serialAt d 0, natAt d 8) else none

/-- LANE_LOSS: eight classes 0 to 7 (R164). -/
def parseLoss (d : List Byte) : Option (Vector (Fin 8) 8) :=
  if d.length = 8 ∧ d.all (fun b => b.toNat < 8) then some (vec8 (fun c => Fin.ofNat 8 (natAt d c.val))) else none

/-- FACTORY_PRESETS: eight lawful pairs (R164). -/
def parsePresets (d : List Byte) : Option (Vector Preset 8) :=
  if d.length = 16 ∧ allLanes.all (fun n => loadable (natAt d (2 * n.val)) (natAt d (2 * n.val + 1))) then
    some (vec8 (fun n => ⟨natAt d (2 * n.val), natAt d (2 * n.val + 1)⟩))
  else none

/-- The entry of a LEG_DEFAULTS record at byte k of its data (R164, R198). -/
def parseLegDefault (d : List Byte) (k : Nat) : Option LegDefault :=
  let w : Window := ⟨natAt d (k + 1), natAt d (k + 2), natAt d (k + 3)⟩
  match Rate.ofCode (natAt d (k + 4)), boolOf (natAt d (k + 5)), boolOf (natAt d (k + 6)) with
  | some cap, some start, some wake =>
    if h : natAt d k < 4 then if w.legal then some ⟨⟨natAt d k, h⟩, w, cap, start, wake⟩ else none else none
  | _, _, _ => none

/-- LEG_DEFAULTS: a count 0 to 4 with matching length, every entry in range, no leg named twice (R164). -/
def parseLegDefaults (d : List Byte) : Option (List LegDefault) :=
  let n := natAt d 0
  let es := (List.range n).map (fun k => parseLegDefault d (1 + 7 * k))
  if d.length = 1 + 7 * n ∧ n ≤ 4 ∧ es.all Option.isSome ∧ ((es.filterMap id).map LegDefault.leg).Nodup then
    some (es.filterMap id)
  else none

/-- THRESHOLDS: three rows and the presence threshold (R164). -/
def parseThresholds (d : List Byte) : Option ThresholdTable :=
  if d.length = 10 ∧ natAt d 2 ≤ 127 ∧ natAt d 5 ≤ 127 ∧ natAt d 8 ≤ 127 ∧ natAt d 9 ≤ 63 then
    some ⟨⟨nat16At d 0, natAt d 2⟩, ⟨nat16At d 3, natAt d 5⟩, ⟨nat16At d 6, natAt d 8⟩, natAt d 9⟩
  else none

/-- A record is accepted or rejected (R164), an unknown type skipped (R163). The Bool notes a rejection. -/
def takeRecord (type : Nat) (d : List Byte) (r : Accepted × Bool) : Accepted × Bool :=
  match type with
  | 1 => match parseCableId d with
    | some x => ({ r.1 with cableId := some x }, r.2)
    | none => (r.1, true)
  | 2 => match parseLoss d with
    | some x => ({ r.1 with loss := some x }, r.2)
    | none => (r.1, true)
  | 3 => match parsePresets d with
    | some x => ({ r.1 with presets := some x }, r.2)
    | none => (r.1, true)
  | 4 => match parseLegDefaults d with
    | some x => ({ r.1 with defaults := some x }, r.2)
    | none => (r.1, true)
  | 5 => match parseThresholds d with
    | some x => ({ r.1 with thresholds := some x }, r.2)
    | none => (r.1, true)
  | _ => r

/-- The walk of the record chain from offset `off` (R163). Offsets rise, so `img.length + 1` steps of fuel suffice. The
Bool notes a rejected record or a broken chain. -/
def walkChain (img : List Byte) : Nat → Nat → Accepted × Bool → Accepted × Bool
  | 0, _, r => (r.1, true)
  | n + 1, off, r =>
    if img.length < off + 4 + natAt img (off + 1) then (r.1, true)
    else
      let r' := takeRecord (natAt img off) ((img.drop (off + 4)).take (natAt img (off + 1))) r
      let next := nat16At img (off + 2)
      if next = 0 then r' else if next ≤ off then (r'.1, true) else walkChain img n next r'

/-- The accepted records of an image, from the first record at 0x007 (R163, R198). -/
def readChain (img : List Byte) : Accepted × Bool := walkChain img (img.length + 1) 7 (Accepted.empty, false)

/-! ### Applying the records -/

/-- The cable memory unit's tables after steps 1 to 4 of R165. -/
def Cable.withRecords (k : Cable) (a : Accepted) : Cable :=
  { k with
    serial := (a.cableId.map Prod.fst).getD k.serial
    lengthClass := (a.cableId.map Prod.snd).getD k.lengthClass
    loss := a.loss.getD k.loss
    presets := a.presets.getD k.presets
    thresholds := a.thresholds.getD k.thresholds }

/-- The LEG_DEFAULTS entry of a leg is installed, its window rejected where it overlaps a lower leg's (R6, R165). The Bool
notes a rejection. -/
def installDefault (ds : List LegDefault) (r : State × Bool) (g : LegId) : State × Bool :=
  match ds.find? (fun d => d.leg == g), r.1.hasLeg g with
  | some d, true =>
    let t := r.1.modLeg g (fun l => { l with rateCap := d.cap, autoStart := d.autoStart, autoWake := d.autoWake })
    if t.conflictsBelow g d.window then (t, true) else (t.installWindow g d.window, r.2)
  | _, _ => r

/-- Every leg of the part takes the threshold table's figures for its rate cap (R20, R92, R165 step 6). -/
def State.takeThresholds (s : State) : State :=
  s.mapLegs (fun g l =>
    if s.hasLeg g then
      { l with errThreshold := (s.cable.thresholds.row l.rateCap).err, eyeFloor := (s.cable.thresholds.row l.rateCap).eye,
               presThreshold := s.cable.thresholds.presence }
    else l)

/-- The accepted records are applied in order, in one event (R165); the load status is decided (R164). -/
def State.applyRecords (s : State) (r : Accepted × Bool) : State :=
  let t := { s with cable := s.cable.withRecords r.1 }
  let u := allLegs.foldl (installDefault (r.1.defaults.getD [])) (t, r.2)
  let v := u.1.takeThresholds
  { v with cable := { v.cable with loadStatus := some (if u.2 then .partialLoad else .ok), startup := .loadingLearned } }

/-- The bytes the CRC-16 of the factory image covers: all but those at 0x005 and 0x006 (R194). -/
def imageCovered (img : List Byte) : List Byte := img.take 5 ++ img.drop 7

/-- BAD_IMAGE: the factory figures keep their device-reset values, and the learned block is read next (R162). -/
def State.badImage (s : State) : State :=
  { s with cable := { s.cable with loadStatus := some .badImage, startup := .loadingLearned } }

/-- A leg starts by auto-start at READY (R25, R161). -/
def State.autoStart (s : State) (g : LegId) : State :=
  if s.hasLeg g ∧ (s.leg g).autoStart ∧ (s.leg g).window.isSome ∧ (s.leg g).state = .off then
    s.enterListen g .autoStart false false
  else s

/-- The entry to READY (R161): LOAD_DONE, then the auto-starts in leg order. -/
def State.enterReady (s : State) : State :=
  let t := { s with cable := { s.cable with startup := .ready } }
  let t := t.post .loadDone none [byteOf (loadCode s.cable.loadStatus), byteOf (learnedCode s.cable.learnedStatus)]
  (allLegs.foldl State.autoStart t).arbitrate false

/-- The header read completes (R162). -/
def State.takeHeader (s : State) (bs : List Byte) : State :=
  if s.cable.startup ≠ .loadingHeader then s
  else if bs = [] then
    State.enterReady { s with cable := { s.cable with
      loadStatus := some .noMemory, learnedStatus := some .absent, learnedSerial := s.cable.serial } }
  else if bs.length < 7 ∨ natAt bs 0 ≠ 0x48 ∨ natAt bs 1 ≠ 0x4A ∨ natAt bs 2 ≠ 1 ∨ 1024 < nat16At bs 3
      ∨ nat16At bs 3 < 7 then s.badImage
  else { s with cable := { s.cable with startup := .loadingImage (nat16At bs 3) (BitVec.ofNat 16 (nat16At bs 5)) } }

/-- The read of the whole image completes (R162, R163, R165). -/
def State.takeImage (s : State) (bs : List Byte) : State :=
  match s.cable.startup with
  | .loadingImage len crc =>
    let img := bs.take len
    if img.length < len ∨ crc16 (imageCovered img) ≠ crc then s.badImage else s.applyRecords (readChain img)
  | _ => s

/-! ### The learned block -/

/-- The learned block has 80 bytes, its entries from byte 16 on (R199). -/
def blockEntry (bs : List Byte) (c : LaneId) : LearnedEntry :=
  let k := 16 + 8 * c.val
  { valid := natAt bs (k + 1) == 1, rate := bs.getD (k + 2) 0, pre := natAt bs (k + 3), post := natAt bs (k + 4),
    peaking := natAt bs (k + 5), d1 := (bs.getD (k + 6) 0).toInt }

/-- The entry in position c names lane c and passes the checks of R167. -/
def blockEntryOk (bs : List Byte) (c : LaneId) : Bool :=
  let e := blockEntry bs c
  natAt bs (16 + 8 * c.val) == c.val && natAt bs (16 + 8 * c.val + 1) ≤ 1 &&
    (!e.valid || ((Rate.ofCode e.rate.toNat).isSome && loadable e.pre e.post && e.peaking ≤ 15 && -31 ≤ e.d1 && e.d1 ≤ 31))

/-- The bytes the CRC-16 of the learned block covers: all but those at 0x40A and 0x40B (R194). -/
def blockCovered (bs : List Byte) : List Byte := bs.take 10 ++ bs.drop 12

/-- The learned status a read of the block decides (R167). DESIGN CHOICE: a read that loses its acknowledge before both bytes
of the magic are in is LEARNED_BAD, even where the one byte read is not the magic's (log 34). -/
def learnedFinding (bs : List Byte) : LearnedStatus :=
  if 2 ≤ bs.length ∧ ¬(natAt bs 0 = 0x4C ∧ natAt bs 1 = 0x42) then .absent
  else if bs.length < 80 ∨ crc16 (blockCovered bs) ≠ BitVec.ofNat 16 (nat16At bs 10) ∨ allLanes.all (blockEntryOk bs) = false
    then .bad
  else .ok

/-- The read of the learned block completes, and the part enters READY (R161, R167). -/
def State.takeLearned (s : State) (bytes : List Byte) : State :=
  if s.cable.startup ≠ .loadingLearned then s
  else
    let bs := bytes.take 80
    let f := learnedFinding bs
    let k :=
      if f = .ok then { s.cable with learned := vec8 (blockEntry bs), learnedSerial := serialAt bs 2 }
      else { s.cable with learnedSerial := s.cable.serial }
    State.enterReady { s with cable := { k with learnedStatus := some f } }

/-! ### The commit job -/

/-- The eight bytes of a learned entry in the block (R199). -/
def LearnedEntry.bytes (e : LearnedEntry) (c : LaneId) : List Byte :=
  [byteOf c.val, boolByte e.valid, e.rate, byteOf e.pre, byteOf e.post, byteOf e.peaking, signedByte e.d1, 0]

/-- The sixteen bytes of a page of two entries (R171). -/
def entryPage (v : Vector LearnedEntry 8) (a b : LaneId) : List Byte := v[a].bytes a ++ v[b].bytes b

/-- All entries in the block's order. -/
def allEntries (v : Vector LearnedEntry 8) : List Byte :=
  entryPage v 0 1 ++ entryPage v 2 3 ++ entryPage v 4 5 ++ entryPage v 6 7

/-- The CRC-16 over the block as write 5 leaves it (R194). -/
def Job.crc (j : Job) : Half := crc16 ([0x4C, 0x42] ++ j.serial.toList ++ [0, 0, 0, 0] ++ allEntries j.entries)

/-- The page a running job writes: its address and sixteen bytes (R171, R199). Every address is 0x400 or above (R166). -/
def Job.page (j : Job) : Nat × List Byte :=
  match j.index with
  | 0 => (0x400, [0, 0] ++ j.serial.toList ++ [0, 0, 0, 0, 0, 0])
  | 1 => (0x410, entryPage j.entries 0 1)
  | 2 => (0x420, entryPage j.entries 2 3)
  | 3 => (0x430, entryPage j.entries 4 5)
  | 4 => (0x440, entryPage j.entries 6 7)
  | _ => (0x400, [0x4C, 0x42] ++ j.serial.toList ++ le16 j.crc.toNat ++ [0, 0, 0, 0])

/-- COMMIT_PRESETS accepted: the table is claimed for the own serial, then snapshot (R170). -/
def Cable.startCommit (k : Cable) : Cable :=
  { k.claimed with job := some ⟨k.claimed.learned, k.serial, 0, none⟩ }

/-- The job ends, with its COMMIT_DONE and the learned status (R172); `data` are the result and the write index. -/
def State.endCommit (s : State) (status : LearnedStatus) (data : List Byte) : State :=
  State.post { s with cable := { s.cable with job := none, learnedStatus := some status } } .commitDone none data

/-- A commit page's last byte is sent, and the poll limit starts (R171). -/
def State.pageSent (s : State) : State :=
  match s.cable.job with
  | some j => if j.poll = none then { s with cable := { s.cable with job := some { j with poll := some (s.after 10000) } } } else s
  | none => s

/-- A poll is acknowledged before the limit: the next write begins, or the job ends with OK (R171, R172). -/
def State.pollAcked (s : State) : State :=
  match s.cable.job with
  | some j =>
    if j.poll = none then s
    else if j.index < 5 then { s with cable := { s.cable with job := some { j with index := j.index + 1, poll := none } } }
    else s.endCommit .ok [0, 0]
  | none => s

/-- The poll limit of a write expires (R172). -/
def State.pollExpired (s : State) : State :=
  match s.cable.job with
  | some j => if j.poll = none then s else s.endCommit .absent [1, byteOf j.index]
  | none => s

/-- The memory does not acknowledge the address or a data byte of a page write (R172). -/
def State.pageNacked (s : State) : State :=
  match s.cable.job with
  | some j => if j.poll = none then s.endCommit .absent [2, byteOf j.index] else s
  | none => s

end Sys2Proof.Machine
end

