-- ==== Sys2Proof/Machine/Responder.lean ====
section
/-! DEFINITION. The END responder: how an END takes each command frame (R138 to R144) with the item rules R42, R43, R56 to R58
and R141. -/

namespace Sys2Proof.Machine

/-- The response kinds of R196. -/
def ackKind : BitVec 2 := 1

def deferKind : BitVec 2 := 2

def refuseKind : BitVec 2 := 3

/-- A response frame with its CRC (R196). -/
def responseFrame (low : BitVec 2) (seq more : Bool) (item : Byte) (reason : Nat) (data : List Byte) : List Byte :=
  let bs := responseBytes low 0 ⟨seq, more, item, byteOf reason, data, 0⟩
  bs ++ [crc8 bs]

/-- The END sends a response frame. -/
def State.send (s : State) (frame : List Byte) : State := { s with resp := { s.resp with lastSent := some frame } }

/-- The END sends a response and keeps it in the last-response hold with its command (R139). -/
def State.answer (s : State) (kind : BitVec 3) (item : Byte) (f : CommandBody) (frame : List Byte) : State :=
  { s with resp := { s.resp with
      held := some ⟨f.seq, kind, item, f.lane, f.data, frame⟩
      lastSent := some frame } }

/-- ACK with an item's data; the response carries the item kind of the command (R140). DESIGN CHOICE: its more flag is no,
since R142 gives the flag a meaning in the ACK of a DRAIN alone (log 38). -/
def State.ack (s : State) (kind : BitVec 3) (item : Byte) (f : CommandBody) (data : List Byte) : State :=
  s.answer kind item f (responseFrame ackKind f.seq false item 0 data)

/-- REFUSE with a reason, echoing the item kind (R140); DEDUCED: no data and more = no (log 22). -/
def State.refuse (s : State) (kind : BitVec 3) (item : Byte) (f : CommandBody) (why : RefuseReason) : State :=
  s.answer kind item f (responseFrame refuseKind f.seq false item why.code [])

/-- DEFER, which is not kept in the hold (R57, R139); DEDUCED: no data and more = no (log 22). -/
def State.defer (s : State) (item : Byte) (f : CommandBody) : State :=
  s.send (responseFrame deferKind f.seq false item 0 [])

/-- Steps 3 of R138: the watches restart, and a lost sideband is restored (R44, R45, R144). -/
def State.heard (s : State) : State :=
  let t := { s with resp := { s.resp with silence := some (s.after 20000) } }
  let t := t.modLeg 0 (fun l => { l with probeWait := l.probeWait.map (fun _ => s.after 500000) })
  t.restoreSideband 0

/-- The command repeats the one in the last-response hold (R139). -/
def HeldResponse.repeats (h : HeldResponse) (kind : BitVec 3) (item : Byte) (f : CommandBody) : Bool :=
  h.seq == f.seq && h.kind == kind && h.item == item && h.lane == f.lane && h.data == f.data

/-- The fields of a STATUS (R123, R141). -/
def State.statusData (s : State) : List Byte :=
  let l := s.leg 0
  [byteOf l.state.code, byteOf l.attention, byteOf l.errCount, boolByte l.sbLost]

/-- The fields of a LANE_INFO (R123, R141). -/
def Lane.info (l : Lane) : List Byte :=
  l.taps.bytes ++ [boolByte l.pinned, byteOf l.peaking, signedByte l.d1, byteOf l.presence.code]

/-- A PROBE that is no repeat (R42). DESIGN CHOICE: SERIAL_MISMATCH is posted after the LEG_STATE of the entry to PROBE
(R185; log 14). -/
def State.takeProbe (s : State) (kind : BitVec 3) (item : Byte) (f : CommandBody) : State :=
  if (s.leg 0).state = .listen then
    let d := parseIdent f.data
    let t := (s.enter 0 .probe .probeAnswered none).modLeg 0 (fun l => { l with farId := some d })
    let t := if d.serial = s.cable.serial then t else t.post .serialMismatch (some 0) []
    t.ack kind item f (s.ident 0).bytes
  else s.refuse kind item f .wrongState

/-- A FETCH (R141). -/
def State.takeFetch (s : State) (kind : BitVec 3) (item : Byte) (f : CommandBody) : State :=
  match fetchOfCode item.toNat with
  | some .ident => s.ack kind item f (s.ident 0).bytes
  | some .status => s.ack kind item f s.statusData
  | some .laneInfo =>
    if s.hasIndex 0 f.lane then s.ack kind item f (s.lane (s.winLane 0 f.lane)).info
    else s.refuse kind item f .badLane
  | none => s.refuse kind item f .unknownItem

/-- The attempt of a PHASE is legal for its named state (R43 check 3). -/
def phaseAttemptOk (st : PhaseState) (attempt : Nat) : Bool :=
  match st with
  | .train => 1 ≤ attempt && attempt ≤ 4
  | .adapt => 1 ≤ attempt && attempt ≤ 4
  | .verify => 1 ≤ attempt && attempt ≤ 4
  | _ => true

/-- A STORE PHASE (R43): the state, then the named state, then attempt and rate; an item that passes is taken. -/
def State.takeStorePhase (s : State) (kind : BitVec 3) (item : Byte) (f : CommandBody) : State :=
  if (s.leg 0).state = .listen ∨ (s.leg 0).state = .fault then s.refuse kind item f .wrongState
  else
    match PhaseState.ofCode (natAt f.data 0) with
    | none => s.refuse kind item f .badValue
    | some .listen => (s.takePhase 0 .listen 0 .l).ack kind item f []
    | some st =>
      match Rate.ofCode (natAt f.data 2) with
      | none => s.refuse kind item f .badValue
      | some r =>
        if phaseAttemptOk st (natAt f.data 1) ∧ r.code ≤ (s.leg 0).rateCap.code then
          (s.takePhase 0 st (natAt f.data 1) r).ack kind item f []
        else s.refuse kind item f .badValue

/-- The TAP_STATUS answers a request that has left the END's queue (R67). -/
def State.awaitsStatus (s : State) (c : LaneId) : Bool :=
  (s.lane c).search.any (fun r => r.waiting == some .status && r.drained)

/-- A STORE TAP_STATUS (R58). -/
def State.takeStoreStatus (s : State) (kind : BitVec 3) (item : Byte) (f : CommandBody) : State :=
  if (s.leg 0).state = .listen ∨ (s.leg 0).state = .fault then s.refuse kind item f .wrongState
  else if s.hasIndex 0 f.lane = false then s.refuse kind item f .badLane
  else
    match parseTapStatus f.lane f.data with
    | none => s.refuse kind item f .badValue
    | some st =>
      let t := s.setFarTaps 0 st
      let t :=
        if (s.leg 0).state = .train ∧ s.awaitsStatus (s.winLane 0 f.lane) then t.takeResult 0 f.lane (.ack st) else t
      t.ack kind item f []

/-- An EXCHANGE TAP_REQUEST (R56, R57). -/
def State.takeExchange (s : State) (kind : BitVec 3) (item : Byte) (f : CommandBody) : State :=
  if (s.leg 0).state ≠ .train then s.refuse kind item f .wrongState
  else if s.hasIndex 0 f.lane = false then s.refuse kind item f .badLane
  else
    match parseTapRequest f.data with
    | none => s.refuse kind item f .badValue
    | some q =>
      if natAt f.data 0 ≠ f.lane.val then s.refuse kind item f .badValue
      else if (s.lane (s.winLane 0 f.lane)).settleUntil.isSome then s.defer item f
      else (s.applyTaps 0 f.lane q).ack kind item f (s.tapOutcome 0 f.lane q).bytes

/-- A command that is neither a DRAIN nor a repeat: kind, item kind, length, then the item's rule (R140). -/
def State.checkCommand (s : State) (kind : BitVec 3) (item : Byte) (f : CommandBody) : State :=
  if kind = 0 ∨ 5 ≤ kind.toNat then s.refuse kind item f .badValue
  else if carries kind item = false then s.refuse kind item f .unknownItem
  else if f.data.length ≠ commandLength kind item then s.refuse kind item f .badValue
  else
    match kind.toNat, item.toNat with
    | 1, _ => s.takeProbe kind item f
    | 2, _ => s.takeFetch kind item f
    | 3, 4 => s.takeStorePhase kind item f
    | 3, _ => s.takeStoreStatus kind item f
    | _, _ => s.takeExchange kind item f

/-- A drained TAP_REQUEST is no longer in the queue: its search record notes it (R67). -/
def State.noteDrained (s : State) (i : Item) : State :=
  match i with
  | .tapRequest ix _ =>
    s.modLane (s.winLane 0 ix) (fun l => { l with search := l.search.map (fun r => { r with drained := true }) })
  | _ => s

/-- The ACK to a DRAIN beat: the held item or none, and the more flag (R142). -/
def drainFrame (seq : Bool) (item : Option Item) (more : Bool) : List Byte :=
  match item with
  | some i => responseFrame ackKind seq more i.code 0 i.data
  | none => responseFrame ackKind seq more 0 0 []

/-- A DRAIN beat at an END (R142): the same beat again, or a new one with the next head item. -/
def State.takeDrain (s : State) (f : CommandBody) : State :=
  if s.resp.beatPrev = some f.beat then
    s.send (drainFrame f.seq s.resp.beatItem (!(s.leg 0).queue.isEmpty))
  else
    match (s.leg 0).queue with
    | [] =>
      State.send { s with resp := { s.resp with beatPrev := some f.beat, beatItem := none } } (drainFrame f.seq none false)
    | i :: rest =>
      let t := (s.modLeg 0 (fun l => l.popped s.role)).noteDrained i
      State.send { t with resp := { t.resp with beatPrev := some f.beat, beatItem := some i } }
        (drainFrame f.seq (some i) (!rest.isEmpty))

/-- A command frame arrives on a pair (R31 at a HUB; R122 and R138 at an END). -/
def State.takeCommand (s : State) (pair : LegId) (kind : BitVec 3) (item : Byte) (f : CommandBody) : State :=
  if commandCrcOk kind item f = false then s
  else if s.isHub then s.hubHearsCommand pair
  else if pair ≠ 0 ∨ (s.leg 0).state = .off then s
  else
    let t := s.heard
    if kind = 5 then t.takeDrain f
    else
      match t.resp.held with
      | some h => if h.repeats kind item f then t.send h.frame else t.checkCommand kind item f
      | none => t.checkCommand kind item f

end Sys2Proof.Machine
end

