-- ==== Sys2Proof/Machine/Port.lean ====
section
/-! DEFINITION. The management port: taking a request (R174, R175, R177), the payloads of the replies (R178 to R183, R195) and
what each request kind does (R25 to R27, R62, R63, R108, R114, R145, R169, R170, R190, R191). -/

namespace Sys2Proof.Machine

/-! ### Taking a request -/

/-- The frame receiver begins or stops collecting (R174). -/
def State.collect (s : State) (b : Bool) : State := { s with port := { s.port with collecting := b } }

/-- The request occupies the slot (R175). -/
def State.occupy (s : State) (kind tag : Byte) : State := { s with port := { s.port with slot := some ⟨kind, tag⟩ } }

/-- A complete frame of this kind is answered BUSY: start-up for every kind but IDENTIFY, or the slot occupied (R175). -/
def State.portBusy (s : State) (kind : Byte) : Bool :=
  (s.cable.startup != .ready && kind != 1) || s.port.slot.isSome

/-- A complete request frame is dealt with (R174, R175): BUSY, or taken by its kind's own act. -/
def State.takeRequest (s : State) (kind : Byte) (q : RequestBody) (act : State → List Byte → State) : State :=
  let t := s.collect false
  if s.portBusy kind then { t with port := t.port.answerBusy kind q.tag }
  else act (t.occupy kind q.tag) q.payload

/-- Check 3 of R177. -/
def State.ofLength (s : State) (n : Nat) (p : List Byte) (act : State) : State :=
  if p.length = n then act else s.reply .badArgument []

/-- Checks 3 and 4 of R177 for a request whose first byte names a leg. -/
def State.forLeg (s : State) (n : Nat) (p : List Byte) (act : LegId → State) : State :=
  if p.length = n then
    if h : natAt p 0 < 4 then
      if s.hasLeg ⟨natAt p 0, h⟩ then act ⟨natAt p 0, h⟩ else s.reply .badArgument []
    else s.reply .badArgument []
  else s.reply .badArgument []

/-- Checks 3 and 4 of R177 for a request whose first byte names a copper lane. -/
def State.forLane (s : State) (n : Nat) (p : List Byte) (act : LaneId → State) : State :=
  if p.length = n then
    if h : natAt p 0 < 8 then act ⟨natAt p 0, h⟩ else s.reply .badArgument []
  else s.reply .badArgument []

/-! ### Payloads of reading requests -/

/-- IDENTIFY's payload (R178). -/
def State.identifyData (s : State) : List Byte :=
  le16 Config.partCode ++
    [Config.revision, byteOf (roleCode s.role), byteOf s.cable.startup.code, byteOf (loadCode s.cable.loadStatus),
     byteOf (learnedCode s.cable.learnedStatus)] ++ s.cable.serial.toList ++ [byteOf s.cable.lengthClass]

/-- The fields of the leg record in the order of R19. -/
def Leg.recordData (l : Leg) (g : LegId) : List Byte :=
  byteOf g.val :: optBytes 3 Window.bytes l.window ++ [byteOf l.rateCap.code]
    ++ optBytes 1 (fun r => [byteOf (Rate.code r)]) l.negRate ++ optBytes 12 Ident.bytes l.farId
    ++ [byteOf l.state.code] ++ optBytes 1 (fun n => [byteOf n]) l.attempt
    ++ [byteOf l.retrains, byteOf l.errCount] ++ le16 l.errThreshold
    ++ [byteOf l.eyeFloor, byteOf l.presThreshold, boolByte l.autoWake, boolByte l.autoStart, boolByte l.resume,
        boolByte l.sbLost]
    ++ le32 l.enteredAt ++ optBytes 4 le32 l.upSince ++ le16 l.aggMerit
    ++ [byteOf l.lastFault.code, byteOf l.faultCount, boolByte l.wakePending]

/-- The far status in the order of R137. -/
def FarStatus.bytes (f : FarStatus) : List Byte :=
  [byteOf f.state.code, byteOf f.attention, byteOf f.errCount, boolByte f.lost] ++ le32 f.time

/-- READ_LEG's payload (R179): the record, then the far status and the arbiter figures of a HUB, or the queue count and
attention level of an END (R152). -/
def State.legData (s : State) (g : LegId) : List Byte :=
  let l := s.leg g
  l.recordData g ++
    (if s.isHub then
      optBytes 8 FarStatus.bytes l.farStatus ++
        [byteOf l.queue.length, boolByte l.overflow.isSome, byteOf l.beacon.val, boolByte l.drainDone,
         byteOf l.passOver]
     else [byteOf l.queue.length, byteOf l.attention])

/-- The last report in the order of R2; the residue is sign extended to its byte (R193). -/
def Report.bytes (r : Report) : List Byte := byteOf r.h.val :: le16 r.e.val ++ [r.r.signExtend 8] ++ le32 r.time

/-- The search record in the order of R2, with an optional waiting-for (R66). -/
def Search.bytes (r : Search) : List Byte :=
  [byteOf r.tap.code, byteOf r.dir.code] ++ le16 r.best ++ [boolByte r.gained, byteOf r.steps]
    ++ optBytes 1 (fun w => [byteOf (Waiting.code w)]) r.waiting ++ [boolByte r.done]

/-- READ_LANE's payload: the fields of the lane record in the order of R2 (R179). -/
def Lane.recordData (l : Lane) (c : LaneId) : List Byte :=
  byteOf c.val :: optBytes 1 (fun g => [byteOf (Fin.val g)]) l.owner ++ optBytes 1 (fun h => [byteOf (Fin.val h)]) l.hostLane
    ++ [byteOf l.path.code] ++ l.taps.bytes ++ [boolByte l.pinned] ++ optBytes 4 le32 l.settleUntil
    ++ optBytes 3 Taps.bytes l.farTaps ++ [byteOf l.peaking, signedByte l.d1, byteOf l.presence.code, byteOf l.debounce]
    ++ optBytes 8 Report.bytes l.report ++ le16 l.merit ++ optBytes 9 Search.bytes l.search

/-- The configuration fields of a leg as now set (R180). -/
def Leg.configData (l : Leg) : List Byte :=
  optBytes 3 Window.bytes l.window ++ [byteOf l.rateCap.code] ++ le16 l.errThreshold
    ++ [byteOf l.eyeFloor, byteOf l.presThreshold, boolByte l.autoWake, boolByte l.autoStart]

/-- The rows of the threshold table and the presence threshold (R181). -/
def ThresholdTable.bytes (t : ThresholdTable) : List Byte :=
  le16 t.l.err ++ [byteOf t.l.eye] ++ le16 t.m.err ++ [byteOf t.m.eye] ++ le16 t.h.err ++ [byteOf t.h.eye]
    ++ [byteOf t.presence]

/-- A learned entry with its valid flag and its values (R181). -/
def LearnedEntry.readData (e : LearnedEntry) : List Byte :=
  [boolByte e.valid, e.rate, byteOf e.pre, byteOf e.post, byteOf e.peaking, signedByte e.d1]

/-- READ_PRESETS' payload (R181). -/
def Cable.presetData (k : Cable) : List Byte :=
  k.presets.toList.flatMap (fun p => [byteOf p.pre, byteOf p.post]) ++ k.loss.toList.map (fun n => byteOf (Fin.val n))
    ++ k.thresholds.bytes ++ k.learned.toList.flatMap LearnedEntry.readData ++ k.learnedSerial.toList
    ++ [boolByte k.job.isSome] ++ optBytes 1 (fun j => [byteOf (Job.index j)]) k.job

/-- READ_NOTICES' payload: the number handed out, the marker, the notices (R190, R195). -/
def NoticeQueue.readData (q : NoticeQueue) : List Byte :=
  [byteOf (q.records.take 4).length, boolByte q.overflow] ++ (q.records.take 4).flatMap Notice.bytes

/-! ### What each request kind does

Each acts on the state in which the request has been taken, with its payload. -/

/-- IDENTIFY (R178). -/
def State.doIdentify (s : State) (p : List Byte) : State := s.ofLength 0 p (s.reply .ok s.identifyData)

/-- READ_LEG (R119, R179). -/
def State.doReadLeg (s : State) (p : List Byte) : State :=
  s.forLeg 2 p (fun g =>
    match boolOf (natAt p 1) with
    | none => s.reply .badArgument []
    | some clear =>
      (s.reply .ok (s.legData g)).modLeg g (fun l =>
        { l with wakePending := if clear then false else l.wakePending }))

/-- READ_LANE (R179). -/
def State.doReadLane (s : State) (p : List Byte) : State :=
  s.forLane 1 p (fun c => s.reply .ok ((s.lane c).recordData c))

/-- The fields an accepted CONFIGURE_LEG sets (R92, R180). -/
def State.configure (s : State) (g : LegId) (k : LegConfig) : State :=
  let row := s.cable.thresholds.row k.rateCap
  (s.installWindow g k.window).modLeg g (fun l =>
    { l with rateCap := k.rateCap, errThreshold := k.err.getD row.err, eyeFloor := k.eye.getD row.eye,
             presThreshold := k.presence, autoWake := k.autoWake })

/-- CONFIGURE_LEG: the checks of R5 in order, then every field at once (R180). -/
def State.doConfigureLeg (s : State) (p : List Byte) : State :=
  s.forLeg 12 p (fun g =>
    if (s.leg g).state ≠ .off ∧ (s.leg g).state ≠ .fault then s.wrongState g
    else
      match parseLegConfig p with
      | none => s.reply .badArgument []
      | some k =>
        if s.isHub ∧ s.conflicts g k.window then s.reply .conflict []
        else
          let t := s.configure g k
          t.reply .ok (t.leg g).configData)

/-- START_LEG (R25). -/
def State.doStartLeg (s : State) (p : List Byte) : State :=
  s.forLeg 1 p (fun g =>
    if (s.leg g).state = .off ∧ (s.leg g).window.isSome then
      ((s.enterListen g .hostStart false false).reply .ok []).arbitrate false
    else s.wrongState g)

/-- The grant is held by this leg (R152). -/
def State.grantHeldBy (s : State) (g : LegId) : Bool := s.grant.any (fun r => r.leg == g)

/-- STOP_LEG (R26). -/
def State.doStopLeg (s : State) (p : List Byte) : State :=
  s.forLeg 1 p (fun g =>
    match (s.leg g).state with
    | .off => s.reply .ok []
    | .fault => s.wrongState g
    | _ => ((s.stopLeg g .hostStop).reply .ok []).arbitrate (s.grantHeldBy g))

/-- RESET_LEG (R27). -/
def State.doResetLeg (s : State) (p : List Byte) : State :=
  s.forLeg 1 p (fun g => ((s.resetLeg g).reply .ok []).arbitrate (s.grantHeldBy g))

/-- A power request of the HUB's own host (R108). -/
def State.hubPower (s : State) (g : LegId) (w : Power) : State :=
  if powerAccepted w (s.leg g).state then ((s.powerTaken g w .powerLocal).reply .ok []).arbitrate false
  else s.wrongState g

/-- A POWER_REQUEST is queued, or answered BUSY where the queue is full (R114). -/
def State.queuePower (s : State) (g : LegId) (w : Power) : State :=
  if (s.leg g).hasRoom then (s.modLeg g (fun l => l.push (.powerRequest w))).reply .ok [] else s.reply .busy []

/-- A power request of an END's own host (table of R114). -/
def State.endPower (s : State) (g : LegId) (w : Power) : State :=
  match w, (s.leg g).state with
  | .active, .standby => s.queuePower g .active
  | .active, .sleep =>
    ((s.enterListen g .powerLocal false false).modLeg g (fun l => l.push (.powerRequest .active))).reply .ok []
  | .active, _ => s.reply .ok []
  | _, .off => s.wrongState g
  | _, .listen => s.wrongState g
  | _, .fault => s.wrongState g
  | _, _ => s.queuePower g w

/-- SET_LEG_POWER (R108, R114). -/
def State.doSetLegPower (s : State) (p : List Byte) : State :=
  s.forLeg 2 p (fun g =>
    match Power.ofCode (natAt p 1) with
    | none => s.reply .badArgument []
    | some w => if s.isHub then s.hubPower g w else s.endPower g w)

/-- PIN_TAPS (R62). -/
def State.doPinTaps (s : State) (p : List Byte) : State :=
  s.forLane 3 p (fun c =>
    if loadable (natAt p 1) (natAt p 2) then
      let t := tapsOf (natAt p 1) (natAt p 2)
      ((s.writeTaps c t).modLane c (fun l => { l with pinned := true })).reply .ok (byteOf c.val :: t.bytes)
    else s.reply .badArgument [])

/-- UNPIN_TAPS (R63). -/
def State.doUnpinTaps (s : State) (p : List Byte) : State :=
  s.forLane 1 p (fun c => (s.modLane c (fun l => { l with pinned := false })).reply .ok [])

/-- READ_PRESETS (R181). -/
def State.doReadPresets (s : State) (p : List Byte) : State := s.ofLength 0 p (s.reply .ok s.cable.presetData)

/-- COMMIT_PRESETS (R170). -/
def State.doCommitPresets (s : State) (p : List Byte) : State :=
  s.ofLength 0 p
    (match s.cable.job with
     | none => State.reply { s with cable := s.cable.startCommit } .accepted []
     | some _ => s.reply .wrongState [])

/-- FORGET_PRESETS (R169). -/
def State.doForgetPresets (s : State) (p : List Byte) : State :=
  s.ofLength 0 p (State.reply { s with cable := { s.cable with learned := forgotten s.cable.learned } } .ok [])

/-- The window index a FAR_READ asks for: of its lane for LANE_INFO, absent where the leg's window does not hold that lane
(R145 check 5); 0 for the other items, whose lane byte is not used. -/
def State.farIndex (s : State) (g : LegId) (k : FetchKind) (lane : Nat) : Option WinIx :=
  match k with
  | .laneInfo => (s.leg g).window.bind (fun w => w.indexOf (Fin.ofNat 8 lane))
  | _ => some 0

/-- A FAR_READ of a leg that passed checks 1 to 3 of R145: its checks 4 to 6, then the FETCH is queued and the reply
waits (R183). -/
def State.queueFarRead (s : State) (g : LegId) (k : FetchKind) (lane : Nat) : State :=
  if (s.leg g).state = .off ∨ (s.leg g).state = .fault then s.wrongState g
  else
    match s.farIndex g k lane with
    | none => s.reply .badArgument []
    | some i =>
      if (s.leg g).hasRoom then (s.modLeg g (fun l => l.push (.farFetch k i))).arbitrate false
      else s.reply .busy []

/-- FAR_READ (R145, R177). -/
def State.doFarRead (s : State) (p : List Byte) : State :=
  if s.isHub = false then s.reply .notSupported []
  else
    s.forLeg 3 p (fun g =>
      match fetchOfCode (natAt p 1) with
      | none => s.reply .badArgument []
      | some k =>
        if k = .laneInfo ∧ 7 < natAt p 2 then s.reply .badArgument [] else s.queueFarRead g k (natAt p 2))

/-- The queue after a read: the first four records gone, the marker cleared, ALERT judged again (R190). -/
def NoticeQueue.afterRead (q : NoticeQueue) : NoticeQueue :=
  NoticeQueue.withAlert { q with records := q.records.drop 4, overflow := false }

/-- READ_NOTICES (R182, R190). -/
def State.doReadNotices (s : State) (p : List Byte) : State :=
  s.ofLength 0 p (State.reply { s with notices := s.notices.afterRead } .ok s.notices.readData)

/-- The eleven levels of a SET_NOTICE_LEVELS, in notice kind order (R195). -/
def levelsOf (p : List Byte) : Vector Nat 11 :=
  #v[natAt p 0, natAt p 1, natAt p 2, natAt p 3, natAt p 4, natAt p 5, natAt p 6, natAt p 7, natAt p 8, natAt p 9,
     natAt p 10]

/-- SET_NOTICE_LEVELS (R182, R191). -/
def State.doSetNoticeLevels (s : State) (p : List Byte) : State :=
  s.ofLength 12 p
    (if p.all (fun b => b.toNat ≤ 3) then
       State.reply { s with notices :=
         NoticeQueue.withAlert { s.notices with levels := levelsOf p, floor := natAt p 11 } } .ok []
     else s.reply .badArgument [])

/-- RESET_DEVICE: OK, and the reset follows the sending of that reply (R184). -/
def State.doResetDevice (s : State) (p : List Byte) : State :=
  s.ofLength 0 p { s with port := s.port.answer .ok [] true }

/-- A frame of an unknown kind (R177 check 1). -/
def State.doUnknown (s : State) (_ : List Byte) : State := s.reply .notSupported []

/-! ### The receiver and the reply line -/

/-- A byte taken at the start of a frame: the start value begins one while hunting (R174). -/
def State.takeStart (s : State) (b : Byte) : State :=
  if s.port.collecting = false ∧ b = startByte then s.collect true else s

/-- The last byte of the reply being sent has gone out (R175, R176, R184). DESIGN CHOICE: the reset after RESET_DEVICE's
reply finds the ROLE strap at the level the last DEVICE_RESET gave, since no row changes the strap alone (log 36). -/
def State.replyGone (s : State) : State :=
  match s.port.line with
  | [] => s
  | r :: rest =>
    if r.resets then State.afterReset s.strap s.free s.pending
    else { s with port := { s.port with line := rest, slot := if r.own then none else s.port.slot } }

end Sys2Proof.Machine
end

