-- ==== Sys2Proof/Machine/Requests.lean ====
section
/-! DEFINITION. The commands of the management port: complete request frames by kind (R175, R177), the frame receiver and the reply
line (R174, R176). -/

namespace Sys2Proof.Machine

/-- REQUEST_FRAME_START (R174). -/
def execRequestFrameStart (b : Byte) (s : State) : Host.Outcome State Fault Refusal := .next (s.takeStart b)

/-- REQUEST_FRAME_GAP (R174): the partial frame is discarded. -/
def execRequestFrameGap (s : State) : Host.Outcome State Fault Refusal := .next (s.collect false)

/-- REQUEST_FRAME_DISCARDED (R174): no reply, and the receiver returns to hunting. -/
def execRequestFrameDiscarded (why : DiscardCause) (s : State) : Host.Outcome State Fault Refusal :=
  .next (if discards why then s.collect false else s)

/-- REPLY_SENT (R175, R176, R184). -/
def execReplySent (s : State) : Host.Outcome State Fault Refusal := .next s.replyGone

def execIdentify (q : RequestBody) (s : State) : Host.Outcome State Fault Refusal :=
  .next (s.takeRequest 0x01 q State.doIdentify)

def execReadLeg (q : RequestBody) (s : State) : Host.Outcome State Fault Refusal :=
  .next (s.takeRequest 0x02 q State.doReadLeg)

def execReadLane (q : RequestBody) (s : State) : Host.Outcome State Fault Refusal :=
  .next (s.takeRequest 0x03 q State.doReadLane)

def execConfigureLeg (q : RequestBody) (s : State) : Host.Outcome State Fault Refusal :=
  .next (s.takeRequest 0x04 q State.doConfigureLeg)

def execStartLeg (q : RequestBody) (s : State) : Host.Outcome State Fault Refusal :=
  .next (s.takeRequest 0x05 q State.doStartLeg)

def execStopLeg (q : RequestBody) (s : State) : Host.Outcome State Fault Refusal :=
  .next (s.takeRequest 0x06 q State.doStopLeg)

def execResetLeg (q : RequestBody) (s : State) : Host.Outcome State Fault Refusal :=
  .next (s.takeRequest 0x07 q State.doResetLeg)

def execSetLegPower (q : RequestBody) (s : State) : Host.Outcome State Fault Refusal :=
  .next (s.takeRequest 0x08 q State.doSetLegPower)

def execPinTaps (q : RequestBody) (s : State) : Host.Outcome State Fault Refusal :=
  .next (s.takeRequest 0x09 q State.doPinTaps)

def execUnpinTaps (q : RequestBody) (s : State) : Host.Outcome State Fault Refusal :=
  .next (s.takeRequest 0x0A q State.doUnpinTaps)

def execReadPresets (q : RequestBody) (s : State) : Host.Outcome State Fault Refusal :=
  .next (s.takeRequest 0x0B q State.doReadPresets)

def execCommitPresets (q : RequestBody) (s : State) : Host.Outcome State Fault Refusal :=
  .next (s.takeRequest 0x0C q State.doCommitPresets)

def execForgetPresets (q : RequestBody) (s : State) : Host.Outcome State Fault Refusal :=
  .next (s.takeRequest 0x0D q State.doForgetPresets)

def execFarRead (q : RequestBody) (s : State) : Host.Outcome State Fault Refusal :=
  .next (s.takeRequest farReadKind q State.doFarRead)

def execReadNotices (q : RequestBody) (s : State) : Host.Outcome State Fault Refusal :=
  .next (s.takeRequest 0x0F q State.doReadNotices)

def execSetNoticeLevels (q : RequestBody) (s : State) : Host.Outcome State Fault Refusal :=
  .next (s.takeRequest 0x10 q State.doSetNoticeLevels)

def execResetDevice (q : RequestBody) (s : State) : Host.Outcome State Fault Refusal :=
  .next (s.takeRequest 0x11 q State.doResetDevice)

/-- UNKNOWN_REQUEST_KIND (R177, R197): a frame of a known kind is no such command. -/
def execUnknownRequestKind (kind : Byte) (q : RequestBody) (s : State) : Host.Outcome State Fault Refusal :=
  .next (if knownKind kind then s else s.takeRequest kind q State.doUnknown)

end Sys2Proof.Machine
end

