-- ==== Sys2Proof/Machine/SidebandEnd.lean ====
section
/-! DEFINITION. The command frames an END answers (R138 to R142). Each row's command and item kind are those of R196; in HUB
role a frame acts by R31 (log 20). -/

namespace Sys2Proof.Machine

/-- PROBE_COMMAND (R42). -/
def execProbeCommand (pair : LegId) (f : CommandBody) (s : State) : Host.Outcome State Fault Refusal :=
  .next (s.takeCommand pair 1 1 f)

/-- FETCH_COMMAND (R141). -/
def execFetchCommand (pair : LegId) (item : FetchKind) (f : CommandBody) (s : State) : Host.Outcome State Fault Refusal :=
  .next (s.takeCommand pair 2 (fetchCode item) f)

/-- STORE_PHASE (R43). -/
def execStorePhase (pair : LegId) (f : CommandBody) (s : State) : Host.Outcome State Fault Refusal :=
  .next (s.takeCommand pair 3 4 f)

/-- STORE_TAP_STATUS (R58). -/
def execStoreTapStatus (pair : LegId) (f : CommandBody) (s : State) : Host.Outcome State Fault Refusal :=
  .next (s.takeCommand pair 3 6 f)

/-- EXCHANGE_TAP_REQUEST (R56, R57). -/
def execExchangeTapRequest (pair : LegId) (f : CommandBody) (s : State) : Host.Outcome State Fault Refusal :=
  .next (s.takeCommand pair 4 5 f)

/-- DRAIN_COMMAND (R142). -/
def execDrainCommand (pair : LegId) (item : Byte) (f : CommandBody) (s : State) : Host.Outcome State Fault Refusal :=
  .next (s.takeCommand pair 5 item f)

/-- UNKNOWN_COMMAND_OR_ITEM (R138, R140, R197). -/
def execUnknownCommandOrItem (pair : LegId) (kind : BitVec 3) (item : Byte) (f : CommandBody) (s : State) :
    Host.Outcome State Fault Refusal :=
  .next (s.takeCommand pair kind item f)

end Sys2Proof.Machine
end

