-- ==== Sys2Proof/Machine/SidebandHub.lean ====
section
/-! DEFINITION. The commands of a HUB's sideband: the transaction's frame, replies, timeouts, back-off and expiry (R126 to
R133), beacons (R125), and a command frame from the far part (R31). -/

namespace Sys2Proof.Machine

/-- COMMAND_FRAME_SENT (R126, R129): from SENDING to WAITING, with the reply timer of 200 microseconds. A frame of a
transaction that is over starts nothing (R132, R134). -/
def execCommandFrameSent (g : LegId) (seq : Bool) (s : State) : Host.Outcome State Fault Refusal :=
  .next
    (match s.tx with
     | some t =>
       if t.leg = g ∧ t.seq = seq ∧ t.phase = .sending then
         { s with tx := some { t with phase := .waiting, replyTimer := some (s.after 200) } }
       else s
     | none => s)

/-- SIDEBAND_ACK (R128, R133). -/
def execSidebandAck (g : LegId) (f : ResponseBody) (s : State) : Host.Outcome State Fault Refusal :=
  .next (s.takeResponse g ackKind 0 f)

/-- SIDEBAND_DEFER (R128, R131). -/
def execSidebandDefer (g : LegId) (f : ResponseBody) (s : State) : Host.Outcome State Fault Refusal :=
  .next (s.takeResponse g deferKind 0 f)

/-- SIDEBAND_REFUSE (R128, R133). -/
def execSidebandRefuse (g : LegId) (f : ResponseBody) (s : State) : Host.Outcome State Fault Refusal :=
  .next (s.takeResponse g refuseKind 0 f)

/-- REPLY_FAILING_CHECKS (R128, R129, R197): taken at once as a timeout. -/
def execReplyFailingChecks (g : LegId) (low mid : BitVec 2) (f : ResponseBody) (s : State) : Host.Outcome State Fault Refusal :=
  .next (s.takeResponse g low mid f)

/-- REPLY_TIMEOUT (R129, R130): the reply timer runs in WAITING only. -/
def execReplyTimeout (s : State) : Host.Outcome State Fault Refusal :=
  .next
    (match s.tx with
     | some t => if t.phase = .waiting then s.timeout t else s
     | none => s)

/-- BACKOFF_END (R131): the same command frame is resent. -/
def execBackoffEnd (s : State) : Host.Outcome State Fault Refusal :=
  .next
    (match s.tx with
     | some t => if t.phase = .backoff then { s with tx := some { t with phase := .sending, backoff := none } } else s
     | none => s)

/-- TRANSACTION_EXPIRY (R132). -/
def execTransactionExpiry (s : State) : Host.Outcome State Fault Refusal :=
  .next
    (match s.tx with
     | some t => s.expireTx t
     | none => s)

/-- BEACON_RECEIVED (R125): a beacon with a correct CRC. DESIGN CHOICE: the operand holds levels 0 to 3, the bytes 0x20 to
0x23 of R196; another byte with bit 5 set, which no rule reads, is no operand (log 37). -/
def execBeaconReceived (g : LegId) (level : Fin 4) (crc : Byte) (s : State) : Host.Outcome State Fault Refusal :=
  .next (if crc8 (beaconBytes level.val) = crc then s.takeBeacon g level else s)

/-- BEACON_SILENCE (R125): the received level becomes 0. -/
def execBeaconSilence (g : LegId) (s : State) : Host.Outcome State Fault Refusal :=
  .next (s.takeBeacon g 0)

/-- HUB_COMMAND_FRAME (R31): a command frame of any kind. -/
def execHubCommandFrame (pair : LegId) (kind : BitVec 3) (item : Byte) (f : CommandBody) (s : State) :
    Host.Outcome State Fault Refusal :=
  .next (s.takeCommand pair kind item f)

end Sys2Proof.Machine
end

