-- ==== Sys2Proof/Machine/StartUpEvents.lean ====
section
/-! DEFINITION. The commands of the cable memory unit: device reset, the reads of start-up (R161 to R167) and the commit job
(R171, R172). -/

namespace Sys2Proof.Machine

/-- DEVICE_RESET by the RESET pin or power-on, which samples the strap (R161, R184). -/
def execDeviceReset (strap : Role) (s : State) : Host.Outcome State Fault Refusal :=
  .next (State.afterReset strap s.free s.pending)

/-- SETTLING_END (R161): LOADING begins with the header read. -/
def execSettlingEnd (s : State) : Host.Outcome State Fault Refusal :=
  .next
    (if s.cable.startup = .settling then
      { s with cable := { s.cable with startup := .loadingHeader, settlingEnds := none } }
     else s)

/-- FACTORY_HEADER_READ (R162). -/
def execFactoryHeaderRead (bytes : List Byte) (s : State) : Host.Outcome State Fault Refusal := .next (s.takeHeader bytes)

/-- FACTORY_IMAGE_READ (R162, R163, R165). -/
def execFactoryImageRead (bytes : List Byte) (s : State) : Host.Outcome State Fault Refusal := .next (s.takeImage bytes)

/-- LEARNED_BLOCK_READ (R161, R167). -/
def execLearnedBlockRead (bytes : List Byte) (s : State) : Host.Outcome State Fault Refusal := .next (s.takeLearned bytes)

/-- PAGE_SENT (R171). -/
def execPageSent (s : State) : Host.Outcome State Fault Refusal := .next s.pageSent

/-- POLL_ACKNOWLEDGED (R171, R172). -/
def execPollAcknowledged (s : State) : Host.Outcome State Fault Refusal := .next s.pollAcked

/-- POLL_LIMIT_EXPIRY (R172). -/
def execPollLimitExpiry (s : State) : Host.Outcome State Fault Refusal := .next s.pollExpired

/-- PAGE_WRITE_NACK (R172). -/
def execPageWriteNack (s : State) : Host.Outcome State Fault Refusal := .next s.pageNacked

end Sys2Proof.Machine
end

