-- ==== Sys2Proof/Machine/TimerEvents.lean ====
section
/-! DEFINITION. The expiries of the leg timers and the watches. A timer that is not running does not expire (log 1). -/

namespace Sys2Proof.Machine

/-- PROBE_HOLDOFF_EXPIRY (R24, R28). -/
def execProbeHoldoffExpiry (g : LegId) (s : State) : Host.Outcome State Fault Refusal :=
  .next
    (if (s.leg g).holdoff.isSome then
      ((s.modLeg g (fun l => { l with holdoff := none })).checkListen g).arbitrate false
     else s)

/-- ATTEMPT_DEADLINE_EXPIRY (R24, R36). -/
def execAttemptDeadlineExpiry (g : LegId) (s : State) : Host.Outcome State Fault Refusal :=
  .next
    (if s.isHub ∧ (s.leg g).deadline.isSome then (s.attemptFails g .deadline).arbitrate false else s)

/-- PROBE_WAIT_EXPIRY (R45), at an END's leg 0. -/
def execProbeWaitExpiry (s : State) : Host.Outcome State Fault Refusal :=
  .next
    (if s.isHub = false ∧ (s.leg 0).probeWait.isSome then s.enterFault 0 .roleConflict else s)

/-- HUB_SILENCE_EXPIRY (R44, R144), at an END's leg 0: the watch stays stopped. -/
def execHubSilenceExpiry (s : State) : Host.Outcome State Fault Refusal :=
  .next
    (if s.isHub = false ∧ s.resp.silence.isSome then
      State.hubSilent { s with resp := { s.resp with silence := none } } 0
     else s)

/-- The keepalive timer's next expiry is 5 ms later, and a FETCH STATUS is queued where there is room and none waits (R136). -/
def Leg.keptAlive (l : Leg) : Leg :=
  let t := { l with keepalive := l.keepalive.map (fun due => due + 5000#32) }
  if t.queue.contains .keepalive then t else t.push .keepalive

/-- KEEPALIVE_TIMER_EXPIRY (R136). -/
def execKeepaliveTimerExpiry (g : LegId) (s : State) : Host.Outcome State Fault Refusal :=
  .next
    (if (s.leg g).keepalive.isSome then (s.modLeg g Leg.keptAlive).arbitrate false else s)

end Sys2Proof.Machine
end

