-- ==== Sys2Proof/Machine/Dispatch.lean ====
section
/-! DEFINITION. The one dispatch from commands to their meanings. -/

namespace Sys2Proof.Machine

def exec (i : Instr) (s : State) : Host.Outcome State Fault Refusal :=
  match i with
  | .deviceReset strap => Sys2Proof.Machine.execDeviceReset strap s
  | .settlingEnd => Sys2Proof.Machine.execSettlingEnd s
  | .factoryHeaderRead bytes => Sys2Proof.Machine.execFactoryHeaderRead bytes s
  | .factoryImageRead bytes => Sys2Proof.Machine.execFactoryImageRead bytes s
  | .learnedBlockRead bytes => Sys2Proof.Machine.execLearnedBlockRead bytes s
  | .windowReport lane h e r => Sys2Proof.Machine.execWindowReport lane h e r s
  | .scanReading lane level => Sys2Proof.Machine.execScanReading lane level s
  | .settleExpiry lane => Sys2Proof.Machine.execSettleExpiry lane s
  | .probeHoldoffExpiry leg => Sys2Proof.Machine.execProbeHoldoffExpiry leg s
  | .attemptDeadlineExpiry leg => Sys2Proof.Machine.execAttemptDeadlineExpiry leg s
  | .probeWaitExpiry => Sys2Proof.Machine.execProbeWaitExpiry s
  | .hubSilenceExpiry => Sys2Proof.Machine.execHubSilenceExpiry s
  | .keepaliveTimerExpiry leg => Sys2Proof.Machine.execKeepaliveTimerExpiry leg s
  | .commandFrameSent leg seq => Sys2Proof.Machine.execCommandFrameSent leg seq s
  | .sidebandAck leg f => Sys2Proof.Machine.execSidebandAck leg f s
  | .sidebandDefer leg f => Sys2Proof.Machine.execSidebandDefer leg f s
  | .sidebandRefuse leg f => Sys2Proof.Machine.execSidebandRefuse leg f s
  | .replyTimeout => Sys2Proof.Machine.execReplyTimeout s
  | .backoffEnd => Sys2Proof.Machine.execBackoffEnd s
  | .transactionExpiry => Sys2Proof.Machine.execTransactionExpiry s
  | .beaconReceived leg level crc => Sys2Proof.Machine.execBeaconReceived leg level crc s
  | .beaconSilence leg => Sys2Proof.Machine.execBeaconSilence leg s
  | .hubCommandFrame pair kind item f => Sys2Proof.Machine.execHubCommandFrame pair kind item f s
  | .probeCommand pair f => Sys2Proof.Machine.execProbeCommand pair f s
  | .fetchCommand pair item f => Sys2Proof.Machine.execFetchCommand pair item f s
  | .storePhase pair f => Sys2Proof.Machine.execStorePhase pair f s
  | .storeTapStatus pair f => Sys2Proof.Machine.execStoreTapStatus pair f s
  | .exchangeTapRequest pair f => Sys2Proof.Machine.execExchangeTapRequest pair f s
  | .drainCommand pair item f => Sys2Proof.Machine.execDrainCommand pair item f s
  | .requestFrameGap => Sys2Proof.Machine.execRequestFrameGap s
  | .replySent => Sys2Proof.Machine.execReplySent s
  | .identify q => Sys2Proof.Machine.execIdentify q s
  | .readLeg q => Sys2Proof.Machine.execReadLeg q s
  | .readLane q => Sys2Proof.Machine.execReadLane q s
  | .configureLeg q => Sys2Proof.Machine.execConfigureLeg q s
  | .startLeg q => Sys2Proof.Machine.execStartLeg q s
  | .stopLeg q => Sys2Proof.Machine.execStopLeg q s
  | .resetLeg q => Sys2Proof.Machine.execResetLeg q s
  | .setLegPower q => Sys2Proof.Machine.execSetLegPower q s
  | .pinTaps q => Sys2Proof.Machine.execPinTaps q s
  | .unpinTaps q => Sys2Proof.Machine.execUnpinTaps q s
  | .readPresets q => Sys2Proof.Machine.execReadPresets q s
  | .commitPresets q => Sys2Proof.Machine.execCommitPresets q s
  | .forgetPresets q => Sys2Proof.Machine.execForgetPresets q s
  | .farRead q => Sys2Proof.Machine.execFarRead q s
  | .readNotices q => Sys2Proof.Machine.execReadNotices q s
  | .setNoticeLevels q => Sys2Proof.Machine.execSetNoticeLevels q s
  | .resetDevice q => Sys2Proof.Machine.execResetDevice q s
  | .pageSent => Sys2Proof.Machine.execPageSent s
  | .pollAcknowledged => Sys2Proof.Machine.execPollAcknowledged s
  | .pollLimitExpiry => Sys2Proof.Machine.execPollLimitExpiry s
  | .pageWriteNack => Sys2Proof.Machine.execPageWriteNack s
  | .requestFrameStart byte => Sys2Proof.Machine.execRequestFrameStart byte s
  | .requestFrameDiscarded cause => Sys2Proof.Machine.execRequestFrameDiscarded cause s
  | .unknownRequestKind kind q => Sys2Proof.Machine.execUnknownRequestKind kind q s
  | .unknownCommandOrItem pair kind item f => Sys2Proof.Machine.execUnknownCommandOrItem pair kind item f s
  | .replyFailingChecks leg low mid f => Sys2Proof.Machine.execReplyFailingChecks leg low mid f s

end Sys2Proof.Machine
end

