-- ==== Sys2Proof/Safety.lean ====
section
/-! DEFINITION. What a safe state is: the ranges, lifetimes and agreements the spec gives the records, in the terms the statements
use. -/

namespace Sys2Proof.Machine

/-! ### Ranges -/

/-- The ranges of a search record (R2). -/
def Search.Ok (r : Search) : Prop := r.best ≤ 508 ∧ r.steps ≤ 32

/-- The ranges of a lane record (R2) with the law of R47 for the local and the far taps, and merit as R2 ties it to the last
report. -/
def Lane.Ok (l : Lane) : Prop :=
  l.taps.lawful ∧ (∀ t, l.farTaps = some t → t.lawful) ∧ l.peaking ≤ 15 ∧ -31 ≤ l.d1 ∧ l.d1 ≤ 31 ∧ l.debounce ≤ 3
    ∧ l.merit = (l.report.map Report.merit).getD 0 ∧ (∀ r, l.search = some r → r.Ok)

/-- A lane's part of an ADAPT tally holds the codes around its entry peaking of 0 to 15, and in PEAKING one of them is yet to
be measured and the lane has not failed (R80, R81). -/
def AdaptLane.Ok (a : AdaptLane) : Prop :=
  a.entry ≤ 15 ∧ a.candidates = peakingCodes a.entry
    ∧ (a.stage = .peaking → a.measured.length < a.candidates.length ∧ a.failed = false)

/-- The ranges of a leg record (R19), of its queue (R147), its timeouts (R127), its pass-over count (R152) and its tallies. -/
def Leg.Ok (l : Leg) : Prop :=
  l.queue.length ≤ 4 ∧ l.retrains ≤ 3 ∧ l.errCount ≤ 255 ∧ l.aggMerit ≤ 508 ∧ l.faultCount ≤ 255 ∧ l.passOver ≤ 12
    ∧ l.timeouts ≤ 2 ∧ l.errThreshold ≤ 65535 ∧ l.eyeFloor ≤ 127 ∧ l.presThreshold ≤ 63
    ∧ (∀ v, l.adapt = some v → ∀ i : WinIx, v[i].Ok)

/-- The ranges of a threshold row (R92, R164). -/
def Threshold.Ok (t : Threshold) : Prop := t.err ≤ 65535 ∧ t.eye ≤ 127

/-- A valid learned entry lies in the ranges of R167. -/
def LearnedEntry.Ok (e : LearnedEntry) : Prop := e.valid → e.peaking ≤ 15 ∧ -31 ≤ e.d1 ∧ e.d1 ≤ 31

/-- The preset, threshold and learned tables lie in their ranges, and a running job's write index in 0 to 5 (R164, R167,
R171). -/
def Cable.Ok (k : Cable) : Prop :=
  (∀ n : Fin 8, loadable k.presets[n].pre k.presets[n].post) ∧ k.thresholds.l.Ok ∧ k.thresholds.m.Ok ∧ k.thresholds.h.Ok
    ∧ k.thresholds.presence ≤ 63 ∧ (∀ c : LaneId, k.learned[c].Ok) ∧ (∀ j, k.job = some j → j.index ≤ 5)

/-- Every record of the part lies in the ranges the spec gives it. -/
def State.InRange (s : State) : Prop := (∀ c, (s.lane c).Ok) ∧ (∀ g, (s.leg g).Ok) ∧ s.cable.Ok

/-! ### Windows, owners and paths -/

/-- The lane record agrees with the windows: it is owned, mapped and its path set as the one window that holds it says, or it
has no owner, no host lane and path OFF (R2, R4, R8). -/
def State.LaneAgrees (s : State) (c : LaneId) : Prop :=
  (∀ g w, (s.leg g).window = some w → ∀ i, w.indexOf c = some i →
      (s.lane c).owner = some g ∧ (s.lane c).hostLane = some (w.hostAt i) ∧ (s.lane c).path = (s.leg g).state.path)
    ∧ ((∀ g w, (s.leg g).window = some w → w.indexOf c = none) →
      (s.lane c).owner = none ∧ (s.lane c).hostLane = none ∧ (s.lane c).path = .off)

/-- The start-up has not come to the end of the factory image. -/
def StartUp.beforeImage : StartUp → Bool
  | .settling => true
  | .loadingHeader => true
  | .loadingImage _ _ => true
  | .loadingLearned => false
  | .ready => false

/-- Windows are absent until the factory image is applied (R3, R20), legal (R4), held by legs of the part only (R19), disjoint
between legs (R4), and every lane record agrees with them. -/
def State.WindowsOk (s : State) : Prop :=
  (s.cable.startup.beforeImage → ∀ g, (s.leg g).window = none)
    ∧ (∀ g w, (s.leg g).window = some w → w.legal ∧ s.hasLeg g)
    ∧ (∀ g k, g ≠ k → ∀ w, (s.leg g).window = some w → ∀ v, (s.leg k).window = some v → w.overlaps v = false)
    ∧ ∀ c, s.LaneAgrees c

/-! ### Lifetimes of leg fields and timers -/

/-- TRAIN, ADAPT and VERIFY, the phases of an attempt. -/
def LegState.attempting : LegState → Bool
  | .train => true
  | .adapt => true
  | .verify => true
  | _ => false

/-- The lifetimes of R21, of the leg timers (R24, R45) and of the keepalive timer (R136). -/
def Leg.LifetimesOk (role : Role) (l : Leg) : Prop :=
  (∀ n, l.attempt = some n → l.state.attempting ∧ 1 ≤ n ∧ n ≤ 4)
    ∧ (l.state.quiet → l.negRate = none ∧ l.farId = none ∧ l.upSince = none ∧ l.sbLost = false)
    ∧ (l.deadline.isSome → l.state.attempting) ∧ (l.holdoff.isSome → l.state = .listen)
    ∧ (l.probeWait.isSome → l.state = .listen) ∧ (l.keepalive.isSome ↔ role = .hubRole ∧ l.state.keepsAlive)

/-- Every leg of the part keeps the lifetimes of its fields and timers. -/
def State.LifetimesOk (s : State) : Prop := ∀ g, (s.leg g).LifetimesOk s.role

/-! ### Notices and grants -/

/-- Records stand by level, highest first (R186). -/
def orderedByLevel : List Notice → Bool
  | [] => true
  | n :: ns => ns.all (fun m => m.level ≤ n.level) && orderedByLevel ns

/-- At most 16 records, ordered, no two of one kind and leg, counts of 1 to 255, and ALERT as R192 gives (R185 to R189). -/
def NoticeQueue.Ok (q : NoticeQueue) : Prop :=
  q.records.length ≤ 16 ∧ orderedByLevel q.records
    ∧ (q.records.map (fun n => (n.kind, n.leg))).Nodup
    ∧ (∀ n ∈ q.records, 1 ≤ n.count ∧ n.count ≤ 255 ∧ n.level ≤ 3)
    ∧ (∀ k : Fin 11, q.levels[k] ≤ 3) ∧ q.floor ≤ 3 ∧ q.alert = q.alertDue

/-- A grant's limit is 8 or 16 and its count does not pass it (R152, R157). -/
def State.GrantOk (s : State) : Prop := ∀ r, s.grant = some r → (r.limit = 8 ∨ r.limit = 16) ∧ r.count ≤ r.limit

/-- The grant held in s has ended (R154, R155, R158): its leg's pass-over count is 0, and a grant that stands afterwards is the
new one of the choice that followed, with its first transaction. -/
def State.grantEnded (s t : State) : Prop :=
  (∀ r, s.grant = some r → (t.leg r.leg).passOver = 0) ∧ (∀ r, t.grant = some r → r.count = 1 ∧ r.limit = 8)

/-! ### What a command leaves alone -/

/-- A leg record without what the arbiter moves when it starts a transaction or ends a grant: the queue with its holds, the
sequence bit, the beat number and the pass-over count (R126, R143, R150, R154). -/
def Leg.apart (l : Leg) : Leg :=
  { l with queue := [], overflow := none, statusHold := emptyStatusHold, laneHold := emptyLaneHold, reportHold := none,
           healthHold := false, seq := false, beat := 0, beatTaken := true, passOver := 0 }

/-- Every leg but g stands as it stood, apart from what the arbiter moves. -/
def State.othersKept (s t : State) (g : LegId) : Prop := ∀ k, k ≠ g → (t.leg k).apart = (s.leg k).apart

/-- Every leg stands as it stood, apart from what the arbiter moves. -/
def State.legsKept (s t : State) : Prop := ∀ k, (t.leg k).apart = (s.leg k).apart

/-- Every lane outside leg g's window stands as it stood. -/
def State.outsideKept (s t : State) (g : LegId) : Prop := ∀ c, c ∉ s.winLanes g → t.lane c = s.lane c

/-- No lane's transmitter or far taps moved (R47, R64): local taps, pin, settle and far taps. -/
def State.tapsKept (s t : State) : Prop :=
  ∀ c, (t.lane c).taps = (s.lane c).taps ∧ (t.lane c).pinned = (s.lane c).pinned
    ∧ (t.lane c).settleUntil = (s.lane c).settleUntil ∧ (t.lane c).farTaps = (s.lane c).farTaps

/-- The role, strap, time base, cable memory unit and waiting commands stand as they stood. -/
def State.settingKept (s t : State) : Prop :=
  t.role = s.role ∧ t.strap = s.strap ∧ t.time = s.time ∧ t.cable = s.cable ∧ t.pending = s.pending

/-- The configuration and sticky fields of a leg (R19) stand as they stood. -/
def Leg.configKept (l m : Leg) : Prop :=
  m.window = l.window ∧ m.rateCap = l.rateCap ∧ m.errThreshold = l.errThreshold ∧ m.eyeFloor = l.eyeFloor
    ∧ m.presThreshold = l.presThreshold ∧ m.autoWake = l.autoWake ∧ m.autoStart = l.autoStart
    ∧ m.lastFault = l.lastFault ∧ m.faultCount = l.faultCount ∧ m.wakePending = l.wakePending

/-! ### Items on their way, and the holds -/

/-- The held items of a leg in the order in which they enter freed places (R150). -/
def Leg.heldItems (l : Leg) (role : Role) : List Item :=
  (match role with
   | .hubRole => l.overflow.toList ++ allLanes.filterMap (fun i => l.statusHold[i].map Item.storeStatus)
   | .endRole => (if l.healthHold then [.retrainRequest] else []) ++ l.reportHold.toList)
    ++ allLanes.filterMap (fun i => l.laneHold[i].map (requestItem role i))

/-- The item waits in leg g's queue or in a hold of the leg, or is what the leg's transaction carries (R126, R147, R148). -/
def State.sends (s : State) (g : LegId) (i : Item) : Prop :=
  i ∈ (s.leg g).queue ∨ i ∈ (s.leg g).heldItems s.role ∨ s.tx.map (fun x => (x.leg, x.work)) = some (g, .item i)

/-- At most one PHASE item of the leg is unsent (R147): in the queue or in the overflow hold, which holds nothing else. -/
def Leg.OnePhase (l : Leg) : Prop :=
  (∀ i, l.overflow = some i → i.isPhase) ∧ (∀ i, l.reportHold = some i → i.isPhase = false)
    ∧ (l.queue.filter Item.isPhase).length + l.overflow.toList.length ≤ 1

def State.OnePhase (s : State) : Prop := ∀ g, (s.leg g).OnePhase

/-- Before READY the request in progress, if any, is an IDENTIFY (R175). -/
def State.PortOk (s : State) : Prop := s.cable.startup ≠ .ready → ∀ q, s.port.slot = some q → q.kind = 1

/-- No PHASE of leg g waits in its queue or its overflow hold, and none is in flight (R126, R147). -/
def State.noPhase (s : State) (g : LegId) : Bool :=
  !(s.leg g).queue.any Item.isPhase && (s.leg g).overflow.isNone
    && !s.tx.any (fun x => x.leg == g && (match x.work with | .item i => i.isPhase | .drain => false))

/-- A HUB's engine is FREE only while no leg has demand: every command that ends a transaction or raises a demand comes to the
arbiter's choice (R155, R156). -/
def State.EngineServes (s : State) : Prop := s.isHub → s.tx = none → ∀ g, (s.leg g).demand = 0

/-- The result of the transaction reaches no search: it carries no tap request, or the search record that formed the request is
gone or waits for no status (R67, R133). -/
def State.besideSearch (s : State) (x : Transaction) : Bool :=
  match x.work with
  | .item (.exchange ix _) =>
    !(x.live && (s.lane (s.winLane x.leg ix)).search.any (fun r => r.waiting == some .status))
  | _ => true

/-- The bytes are a command frame by R196: command and item kind, sequence bit, the lane index and the beat number where they
are given, the data with their length, and the CRC-8 of all before it. Bits 3 and 6 of byte 0, bit 3 of byte 2 and a field
not given may hold anything. -/
def readsAsCommand (bs : List Byte) (kind item : Nat) (seq : Bool) (lane : Option WinIx) (beat : Option (Fin 16))
    (data : List Byte) : Prop :=
  bs.length = data.length + 5 ∧ natAt bs 0 % 8 = kind ∧ natAt bs 0 / 16 % 4 = 1 ∧ natAt bs 0 / 128 = seq.toNat
    ∧ natAt bs 1 = item ∧ (∀ i, lane = some i → natAt bs 2 % 8 = i.val) ∧ (∀ b, beat = some b → natAt bs 2 / 16 = b.val)
    ∧ natAt bs 3 = data.length ∧ (bs.drop 4).take data.length = data ∧ bs = bs.dropLast ++ [crc8 bs.dropLast]

/-! ### What the phases of an attempt begin with

Each of these relates the state `s` before a command to the state `t` after it. -/

/-- Window lane i of leg g has opened its search for attempt n at a negotiated rate (R68): its opening request, with the
peaking and d1 it sets, is that of R69 and R70, and is on its way (R71). -/
def State.OpensLane (s t : State) (g : LegId) (n : Nat) (rate : Option Rate) (i : WinIx) : Prop :=
  let c := s.winLane g i
  let e := s.cable.learned[c]
  let loss := s.cable.loss[c]
  let resumes := n = 1 ∧ (s.leg g).resume ∧ (s.lane c).farTaps ≠ none
  let learned := n = 1 ∧ e.valid ∧ rate.map (fun r => byteOf r.code) = some e.rate ∧ s.cable.learnedSerial = s.cable.serial
  (t.lane c).search
      = some { tap := .post, dir := .inc, best := 0, gained := false, steps := 0, waiting := some .status,
               request := .opening, openPinned := false, drained := false, done := false }
    ∧ (resumes → ∀ u, (s.lane c).farTaps = some u →
        t.sends g (requestItem s.role i (.load u.pre u.post)) ∧ (t.lane c).peaking = (s.lane c).peaking
        ∧ (t.lane c).d1 = (s.lane c).d1)
    ∧ (¬resumes → learned →
        t.sends g (requestItem s.role i (.load e.pre e.post)) ∧ (t.lane c).peaking = e.peaking ∧ (t.lane c).d1 = e.d1)
    ∧ (¬resumes → ¬learned →
        t.sends g (requestItem s.role i (.preset (Fin.ofNat 8
          (if n ≤ 2 then loss.val else if n = 3 then min (loss.val + 1) 7 else loss.val - 1))))
        ∧ (t.lane c).peaking = 7 ∧ (t.lane c).d1 = 0)

/-- Leg g stands in TRAIN with attempt n, every window lane's search opened and resume used up by an attempt 1 (R68, R70); at
a HUB with PHASE(TRAIN, n) on its way and 250 ms to the deadline (R32). -/
def State.BeginsTrain (s t : State) (g : LegId) (n : Nat) (rate : Option Rate) : Prop :=
  (t.leg g).state = .train ∧ (t.leg g).attempt = some n ∧ (t.leg g).errCount = 0 ∧ (t.leg g).negRate = rate
    ∧ (∀ i, s.hasIndex g i → s.OpensLane t g n rate i)
    ∧ (t.leg g).resume = (if n = 1 then false else (s.leg g).resume)
    ∧ (s.isHub → (t.leg g).deadline = some (s.time + 250000) ∧ t.sends g (.phase .train n (rate.getD .l)))

/-- Leg g stands in ADAPT with attempt n: every window lane's tally holds the codes p - 1, p and p + 1 clamped to 0 to 15, and
its peaking is the lowest of them (R80); at a HUB with PHASE(ADAPT, n) on its way and 20 ms to the deadline (R33). -/
def State.BeginsAdapt (s t : State) (g : LegId) (n : Nat) : Prop :=
  (t.leg g).state = .adapt ∧ (t.leg g).attempt = some n
    ∧ (∃ v, (t.leg g).adapt = some v ∧ ∀ i, s.hasIndex g i → (s.lane (s.winLane g i)).peaking ≤ 15 →
        v[i] = { entry := (s.lane (s.winLane g i)).peaking,
                 candidates :=
                   if (s.lane (s.winLane g i)).peaking = 0 then [0, 1]
                   else if (s.lane (s.winLane g i)).peaking = 15 then [14, 15]
                   else [(s.lane (s.winLane g i)).peaking - 1, (s.lane (s.winLane g i)).peaking,
                         (s.lane (s.winLane g i)).peaking + 1],
                 measured := [], stage := .peaking, waiting := .discard, failed := false }
        ∧ (t.lane (s.winLane g i)).peaking = (s.lane (s.winLane g i)).peaking - 1)
    ∧ (s.isHub → (t.leg g).deadline = some (s.time + 20000) ∧ t.sends g (.phase .adapt n (s.leg g).phaseRate))

/-- Leg g stands in VERIFY with attempt n and an empty tally (R84); at a HUB with PHASE(VERIFY, n) on its way and 40 ms to
the deadline (R34). -/
def State.BeginsVerify (s t : State) (g : LegId) (n : Nat) : Prop :=
  (t.leg g).state = .verify ∧ (t.leg g).attempt = some n
    ∧ (∃ v, (t.leg g).verify = some v ∧ ∀ i, s.hasIndex g i → v[i] = ⟨false, 0, 0⟩)
    ∧ (s.isHub → (t.leg g).deadline = some (s.time + 40000) ∧ t.sends g (.phase .verify n (s.leg g).phaseRate))

/-- The learned entries of leg g's window lanes are in the working table, which belongs to the own serial (R87, R168). -/
def State.HandsOver (s t : State) (g : LegId) (r : Rate) : Prop :=
  t.cable = { s.cable with learned := t.cable.learned, learnedSerial := s.cable.serial }
    ∧ (∀ c ∈ s.winLanes g,
        t.cable.learned[c].valid = (s.lane c).farTaps.isSome ∧ t.cable.learned[c].rate = byteOf r.code
        ∧ t.cable.learned[c].peaking = (s.lane c).peaking ∧ t.cable.learned[c].d1 = (s.lane c).d1
        ∧ ∀ u, (s.lane c).farTaps = some u → t.cable.learned[c].pre = u.pre ∧ t.cable.learned[c].post = u.post)
    ∧ (∀ c, c ∉ s.winLanes g → t.cable.learned[c] =
        if s.cable.learnedSerial = s.cable.serial then s.cable.learned[c]
        else { s.cable.learned[c] with valid := false })

/-- A HUB's leg g has come up from VERIFY: UP, no attempt, up since now, the learned entries handed over and PHASE(RUN) on
its way (R35). -/
def State.CameUp (s t : State) (g : LegId) (r : Rate) : Prop :=
  (t.leg g).state = .up ∧ (t.leg g).attempt = none ∧ (t.leg g).upSince = some s.time
    ∧ (t.leg g).retrains = (s.leg g).retrains ∧ s.HandsOver t g r ∧ t.sends g (.phase .run 0 r)

/-- Attempt n of a HUB's leg g has failed (R36): TRAIN with the next attempt, or with attempt 1 after a standby verify, or
FAULT with TRAIN_FAILED after attempt 4. -/
def State.AttemptFailed (s t : State) (g : LegId) (n : Nat) : Prop :=
  if (s.leg g).standbyVerify ∨ n < 4 then
    s.BeginsTrain t g (if (s.leg g).standbyVerify then 1 else n + 1) (s.leg g).negRate
      ∧ (t.leg g).retrains = (s.leg g).retrains
  else
    (t.leg g).state = .fault ∧ (t.leg g).lastFault = .trainFailed
      ∧ (t.leg g).faultCount = min 255 ((s.leg g).faultCount + 1) ∧ (t.leg g).attempt = none ∧ (t.leg g).queue = []

/-! ### What a search does next -/

/-- The search of window lane i stands in TRAIN with the record r. -/
def State.SearchIs (s t : State) (g : LegId) (i : WinIx) (r : Search) : Prop :=
  (t.leg g).state = .train ∧ (t.lane (s.winLane g i)).search = some r

/-- The record r has formed one more step or undo (R71, R74): a STEP on the tap under search by the code, the other field HOLD,
is on its way, and the lane waits for its status. -/
def State.SearchSends (s t : State) (g : LegId) (i : WinIx) (r : Search) (kind : ReqKind) (code : StepCode) : Prop :=
  s.SearchIs t g i
      { r with steps := min (r.steps + 1) 32, waiting := some .status, request := kind, drained := false }
    ∧ t.sends g (requestItem s.role i (match r.tap with | .post => .step .hold code | .pre => .step code .hold))

/-- The next step goes in the record's direction (R74). -/
def State.SearchSteps (s t : State) (g : LegId) (i : WinIx) (r : Search) : Prop :=
  s.SearchSends t g i r .step (match r.dir with | .inc => .inc | .dec => .dec)

/-- Every window lane of leg g but lane c is done with a best merit above 0 (R79). -/
def State.othersDone (s : State) (g : LegId) (c : LaneId) : Bool :=
  (s.winLanes g).all (fun k => k == c || (s.lane k).search.any (fun r => r.done && 0 < r.best))

/-- The search of window lane i ended with the record r in attempt n (R77, R79). With best merit 0 the lane failed: at a HUB
the attempt fails (R36), and an END withholds TRAIN_DONE. With every lane done a HUB sets the local trained mark, or enters
ADAPT where the far end is trained too (R33), and an END has TRAIN_DONE on its way. -/
def State.SearchEnds (s t : State) (g : LegId) (i : WinIx) (r : Search) (n : Nat) : Prop :=
  if s.isHub ∧ r.best = 0 then s.AttemptFailed t g n
  else if s.isHub ∧ s.othersDone g (s.winLane g i) ∧ (s.leg g).farTrained then s.BeginsAdapt t g n
  else
    s.SearchIs t g i { r with waiting := none, done := true }
      ∧ (if r.best ≠ 0 ∧ s.othersDone g (s.winLane g i) then
          (s.isHub → (t.leg g).localTrained = true) ∧ (s.isHub = false → t.sends g (.trainDone n))
         else
          (t.leg g).localTrained = (s.leg g).localTrained
            ∧ (s.isHub = false → (t.leg g).queue = (s.leg g).queue ∧ (t.leg g).reportHold = (s.leg g).reportHold))

/-- No gain (R75, R76): a search that has gained nothing in INC turns to DEC; else POST is followed by PRE, and PRE ends the
search (R77). -/
def State.SearchTurns (s t : State) (g : LegId) (i : WinIx) (r : Search) (n : Nat) : Prop :=
  if r.gained = false ∧ r.dir = .inc then s.SearchSteps t g i { r with dir := .dec }
  else if r.tap = .post then s.SearchSteps t g i { r with tap := .pre, dir := .inc, gained := false }
  else s.SearchEnds t g i r n

/-- The search with record r has taken a TAP_STATUS as the result of its request (R72, R74 to R77). -/
def State.SearchTakes (s t : State) (g : LegId) (i : WinIx) (r : Search) (u : TapStatus) (n : Nat) : Prop :=
  let pinned := u.pre == .pinned || u.post == .pinned
  if r.request = .opening then s.SearchIs t g i { r with waiting := some .discard, openPinned := pinned }
  else if pinned ∨ 32 ≤ r.steps then s.SearchEnds t g i r n
  else if r.request = .step ∧ (match r.tap with | .post => u.post | .pre => u.pre) = .updated then
    s.SearchIs t g i { r with waiting := some .discard }
  else s.SearchTurns t g i r n

/-- The request of the search with record r has failed, or was refused with WRONG_STATE (R72, R76 to R78). -/
def State.SearchMisses (s t : State) (g : LegId) (i : WinIx) (r : Search) (n : Nat) : Prop :=
  if r.request = .opening then s.SearchIs t g i { r with steps := min (r.steps + 1) 32, waiting := some .discard }
  else if 32 ≤ r.steps then s.SearchEnds t g i r n
  else s.SearchTurns t g i r n

/-- The code p is the choice of R81 among tried codes with their merits: one of highest merit, the entry code if that is among
them, else the lowest. -/
def bestCode (codes merits : List Nat) (entry p : Nat) : Prop :=
  ∃ x ∈ codes.zip merits, x.1 = p
    ∧ ∀ y ∈ codes.zip merits, y.2 ≤ x.2 ∧ (y.2 = x.2 → (y.1 = entry → p = entry) ∧ (p = entry ∨ p ≤ y.1))

/-! ### Layout of a record chain -/

/-- Records of a factory image laid one after another from an offset, each with the next record's offset, the last with `last`
(R198). -/
def chainBytes (last : Nat) : Nat → List (Byte × List Byte) → List Byte
  | _, [] => []
  | off, r :: rs =>
    let next := off + 4 + r.2.length
    [r.1, byteOf r.2.length] ++ le16 (if rs = [] then last else next) ++ r.2 ++ chainBytes last next rs

/-! ### Commands by shape -/

/-- The kind and body of a complete request frame (R195). -/
def requestOf : Instr → Option (Byte × RequestBody)
  | .identify q => some (0x01, q)
  | .readLeg q => some (0x02, q)
  | .readLane q => some (0x03, q)
  | .configureLeg q => some (0x04, q)
  | .startLeg q => some (0x05, q)
  | .stopLeg q => some (0x06, q)
  | .resetLeg q => some (0x07, q)
  | .setLegPower q => some (0x08, q)
  | .pinTaps q => some (0x09, q)
  | .unpinTaps q => some (0x0A, q)
  | .readPresets q => some (0x0B, q)
  | .commitPresets q => some (0x0C, q)
  | .forgetPresets q => some (0x0D, q)
  | .farRead q => some (0x0E, q)
  | .readNotices q => some (0x0F, q)
  | .setNoticeLevels q => some (0x10, q)
  | .resetDevice q => some (0x11, q)
  | .unknownRequestKind kind q => if knownKind kind then none else some (kind, q)
  | _ => none

/-- The pair, command kind, item kind and body of a command frame (R196). -/
def commandOf : Instr → Option (LegId × BitVec 3 × Byte × CommandBody)
  | .hubCommandFrame pair kind item f => some (pair, kind, item, f)
  | .probeCommand pair f => some (pair, 1, 1, f)
  | .fetchCommand pair .ident f => some (pair, 2, 1, f)
  | .fetchCommand pair .status f => some (pair, 2, 2, f)
  | .fetchCommand pair .laneInfo f => some (pair, 2, 3, f)
  | .storePhase pair f => some (pair, 3, 4, f)
  | .storeTapStatus pair f => some (pair, 3, 6, f)
  | .exchangeTapRequest pair f => some (pair, 4, 5, f)
  | .drainCommand pair item f => some (pair, 5, item, f)
  | .unknownCommandOrItem pair kind item f => some (pair, kind, item, f)
  | _ => none

/-- The data length of an item a command carries, by the codes of R196, where the command carries it (R123, R140). -/
def carriedLength (kind : BitVec 3) (item : Byte) : Option Nat :=
  match kind.toNat, item.toNat with
  | 1, 1 => some 12
  | 2, 1 => some 0
  | 2, 2 => some 0
  | 2, 3 => some 0
  | 3, 4 => some 3
  | 3, 6 => some 6
  | 4, 5 => some 4
  | _, _ => none

/-! ### Hypotheses of statements about commands -/

/-- The transaction of leg g waits for its reply, and a response frame with a correct CRC passes the checks of R128. -/
def State.getsReply (s : State) (g : LegId) (x : Transaction) (low : BitVec 2) (f : ResponseBody) : Prop :=
  s.isHub ∧ s.tx = some x ∧ x.leg = g ∧ x.phase = .waiting ∧ responseCrcOk low 0 f ∧ replyGood x low 0 f

/-- An END out of OFF takes a command frame on the pair of leg 0 that repeats nothing (R138 to R140). -/
def State.takesCommand (s : State) (kind : BitVec 3) (item : Byte) (f : CommandBody) : Prop :=
  s.isHub = false ∧ (s.leg 0).state ≠ .off ∧ commandCrcOk kind item f ∧ ∀ h, s.resp.held = some h → h.repeats kind item f = false

/-- A request frame that completes now is taken (R175): the part is READY and the slot empty. -/
def State.takesRequests (s : State) : Prop := s.cable.startup = .ready ∧ s.port.slot = none

/-- The port after a taken request answered at once: hunting, the slot occupied, the reply last on the reply line (R174 to
R176). -/
def Port.answered (p : Port) (kind : Byte) (tag : Byte) (st : Status) (payload : List Byte) : Port :=
  { collecting := false, slot := some ⟨kind, tag⟩, line := p.line ++ [⟨kind, tag, st, payload, true, false⟩] }

/-- The port after a request whose reply is formed later (R183). -/
def Port.waiting (p : Port) (kind : Byte) (tag : Byte) : Port :=
  { collecting := false, slot := some ⟨kind, tag⟩, line := p.line }

end Sys2Proof.Machine
end

