-- ==== Sys2Proof/Certificates/Slice0/Obligations.lean ====
section
/-! DEFINITION. The statements for the provers, from the rules of spec/. -/

open Sys2Proof Sys2Proof.Machine

/-- For every command c, every state s and every queue rest, the step of s with c in front is exec of c on s with the
queue's rest. With an empty queue a step raises the time base by 1 modulo 2^32 and changes nothing else. That the
idle step is one microsecond of the time base is the model's choice (log 2). (R1, 95_what_each_step_holds) -/
def Obligations.StepRunsFrontCommand : Prop :=
  (∀ (c : Instr) (rest : List Instr) (s : State), step { s with pending := c :: rest } = exec c
    { s with pending := rest }) ∧ (∀ s : State, s.pending = [] → ∃ t, step s = .next t
    ∧ t.time.toNat = (s.time.toNat + 1) % 2 ^ 32 ∧ t = { s with time := t.time })

/-- DEVICE_RESET answers a next state in which every lane record has the values of R3 and every leg record the values of
R20, with timers stopped, phase marks clear, queue and every hold empty (R147), report set, tallies and the
adapt-failed mark cleared (R12, R66, R85) and the sideband and arbiter fields of R127 and R152 at their reset
values. DEVICE_RESET samples the strap as the role, sets the time base to 0, leaves no transaction, grant, request
or reply, empties the END's holds, sets the notice queue to its defaults and starts SETTLING with default tables
and no valid learned entry. The waiting commands, which are the model's own, are kept. Beat taken is yes, as R127's
table gives; that it is yes also where the reset cuts off a DRAIN, which R143 says it leaves no, is the model's
choice (log 33). (R3, R12, R20, R66, R85, R127, R147, R152, R161, R184, R191, R192) -/
def Obligations.DeviceResetLeavesDefaults : Prop :=
  (∀ (s : State) (strap : Role), ∃ t, exec (.deviceReset strap) s = .next t ∧ (∀ c, t.lane c =
    { owner := none, hostLane := none, path := .off, taps := ⟨0, 48, 0⟩, pinned := false, settleUntil := none,
      farTaps := none, peaking := 7, d1 := 0, presence := .absent, debounce := 0, report := none, merit := 0,
      search := none }) ∧ (∀ g, (t.leg g).window = none ∧ (t.leg g).rateCap = .h ∧ (t.leg g).errThreshold = 64
    ∧ (t.leg g).eyeFloor = 16 ∧ (t.leg g).presThreshold = 20 ∧ (t.leg g).autoWake = false
    ∧ (t.leg g).autoStart = false ∧ (t.leg g).state = .off ∧ (t.leg g).negRate = none ∧ (t.leg g).farId = none
    ∧ (t.leg g).attempt = none ∧ (t.leg g).upSince = none ∧ (t.leg g).retrains = 0 ∧ (t.leg g).errCount = 0
    ∧ (t.leg g).resume = false ∧ (t.leg g).sbLost = false ∧ (t.leg g).enteredAt = 0 ∧ (t.leg g).aggMerit = 0
    ∧ (t.leg g).lastFault = .noReason ∧ (t.leg g).faultCount = 0 ∧ (t.leg g).wakePending = false)
    ∧ (∀ g, (t.leg g).holdoff = none ∧ (t.leg g).deadline = none ∧ (t.leg g).probeWait = none
    ∧ (t.leg g).localTrained = false ∧ (t.leg g).farTrained = false ∧ (t.leg g).localVerify = none
    ∧ (t.leg g).farVerify = none ∧ (t.leg g).standbyVerify = false) ∧ (∀ g, (t.leg g).queue = []
    ∧ (t.leg g).overflow = none ∧ (t.leg g).seq = false ∧ (t.leg g).beat = 0 ∧ (t.leg g).beatTaken = true
    ∧ (t.leg g).timeouts = 0 ∧ (t.leg g).beacon = 0 ∧ (t.leg g).keepalive = none ∧ (t.leg g).farStatus = none
    ∧ (t.leg g).passOver = 0 ∧ (t.leg g).drainDone = false)
    ∧ (∀ (g : LegId) (i : Fin 8), (t.leg g).statusHold[i] = none ∧ (t.leg g).laneHold[i] = none
    ∧ (t.leg g).reportSet[i] = none) ∧ (∀ g, (t.leg g).reportHold = none ∧ (t.leg g).healthHold = false
    ∧ (t.leg g).adapt = none ∧ (t.leg g).verify = none ∧ (t.leg g).adaptFailed = false))
  ∧ (∀ (s : State) (strap : Role), ∃ t, exec (.deviceReset strap) s = .next t ∧ t.role = strap ∧ t.time = 0
    ∧ t.tx = none ∧ t.grant = none ∧ t.resp.held = none ∧ t.resp.beatPrev = none ∧ t.resp.beatItem = none
    ∧ t.resp.silence = none ∧ t.port = { collecting := false, slot := none, line := [] } ∧ t.notices.records = []
    ∧ t.notices.overflow = false ∧ t.notices.floor = 1 ∧ t.notices.alert = false
    ∧ t.notices.levels = #v[1, 3, 2, 2, 2, 1, 1, 1, 1, 0, 1] ∧ t.cable.startup = .settling
    ∧ t.cable.settlingEnds = some 1000 ∧ t.cable.loadStatus = none ∧ t.cable.learnedStatus = none
    ∧ (∀ k : Fin 8, t.cable.serial[k] = 0 ∧ t.cable.learnedSerial[k] = 0) ∧ t.cable.lengthClass = 0
    ∧ (∀ c : LaneId, t.cable.loss[c] = 3 ∧ t.cable.learned[c].valid = false) ∧ t.cable.job = none
    ∧ t.cable.presets = #v[⟨0, 0⟩, ⟨0, 4⟩, ⟨2, 6⟩, ⟨2, 10⟩, ⟨4, 12⟩, ⟨4, 14⟩, ⟨6, 16⟩, ⟨8, 16⟩]
    ∧ t.cable.thresholds = { l := ⟨4, 16⟩, m := ⟨16, 16⟩, h := ⟨64, 16⟩, presence := 20 } ∧ t.pending = s.pending)

/-- State.reset, and the state after a device reset with the strap at either level, is in range, has its windows,
lifetimes, notices and grant in order, at most one unsent PHASE a leg, and no request in progress before READY but
an IDENTIFY, and no leg with demand that the free engine of a HUB leaves waiting. (R3, R20, R161) -/
def Obligations.ResetMeetsInvariants : Prop :=
  State.reset.InRange ∧ State.reset.WindowsOk ∧ State.reset.LifetimesOk ∧ State.reset.notices.Ok
    ∧ State.reset.GrantOk ∧ State.reset.OnePhase ∧ State.reset.PortOk ∧ State.reset.EngineServes
    ∧ ∀ (strap : Role) (s : State), ∃ t, exec (.deviceReset strap) s = .next t ∧ t.InRange ∧ t.WindowsOk
    ∧ t.LifetimesOk ∧ t.notices.Ok ∧ t.GrantOk ∧ t.OnePhase ∧ t.PortOk ∧ t.EngineServes

/-- SETTLING_END begins LOADING. A header read with no acknowledge gives NO_MEMORY and LEARNED_NONE and ends in READY,
keeping the tables; a header with wrong magic, format or length gives BAD_IMAGE and goes on to the learned block; a
good header starts the image read. (R161, R162, R198) -/
def Obligations.HeaderReadJudged : Prop :=
  (∀ (s : State), s.cable.startup = .settling → exec .settlingEnd s = .next
    { s with cable := { s.cable with startup := .loadingHeader, settlingEnds := none } })
  ∧ (∀ (s : State), s.cable.startup = .loadingHeader → ∃ t, exec (.factoryHeaderRead []) s = .next t ∧ t.cable =
    { s.cable with startup := .ready, loadStatus := some .noMemory, learnedStatus := some .absent,
                   learnedSerial := s.cable.serial } ∧ s.tapsKept t)
  ∧ (∀ (s : State) (bytes : List Byte), s.cable.startup = .loadingHeader → bytes ≠ [] → (bytes.length < 7
    ∨ natAt bytes 0 ≠ 0x48 ∨ natAt bytes 1 ≠ 0x4A ∨ natAt bytes 2 ≠ 1 ∨ nat16At bytes 3 < 7 ∨ 1024 < nat16At bytes 3)
    → exec (.factoryHeaderRead bytes) s = .next
    { s with cable := { s.cable with loadStatus := some .badImage, startup := .loadingLearned } })
  ∧ (∀ (s : State) (n : Nat) (crc : Half), s.cable.startup = .loadingHeader → 7 ≤ n → n ≤ 1024
    → exec (.factoryHeaderRead ([0x48, 0x4A, 1] ++ le16 n ++ le16 crc.toNat)) s = .next
    { s with cable := { s.cable with startup := .loadingImage n crc } })

/-- With a lost acknowledge or a wrong CRC only the load status changes, to BAD_IMAGE, and the learned block is read
next. Otherwise the last accepted record of each type replaces its table; each leg of the part named in
LEG_DEFAULTS takes its rate cap, auto-start and auto-wake, and its window unless that shares a lane with a
lower-numbered leg's, in which case the window field stays as it stood; every leg takes the threshold row of its
rate cap and the presence threshold; no leg changes state, no notice is posted, and no lane's taps or receiver
settings change. The load status is PARTIAL where a record was rejected, the chain was broken or a window rejected,
else OK. A chain of records laid one after another is read record by record: each is accepted with its fields where
its length and ranges are those of R164, rejected otherwise, and skipped where its type is unknown; it is broken
where the last next offset is not 0 and leads back or out of the image, or where the last record is cut off. The
length and the CRC judged are those kept from the first header read (the model's reading, log 26). (R162, R163,
R164, R165, R6, R92, R198) -/
def Obligations.ImageReadApplied : Prop :=
  ((∀ (head img : List Byte) (rs : List (Byte × List Byte)) (r : Byte × List Byte) (last : Nat), head.length = 7
    → (∀ x ∈ rs ++ [r], x.2.length < 256) → img = head ++ chainBytes last 7 (rs ++ [r]) → img.length ≤ 1024
    → last < 65536 → (last = 0 → readChain img = (rs ++ [r]).foldl (fun a x => takeRecord x.1.toNat x.2 a)
    (Accepted.empty, false)) ∧ (last ≠ 0 → (last + 4 + r.2.length ≤ img.length ∨ img.length ≤ last) → readChain img =
    (((rs ++ [r]).foldl (fun a x => takeRecord x.1.toNat x.2 a) (Accepted.empty, false)).1, true))
    ∧ (∀ n, n < img.length → img.length ≤ n + 4 + r.2.length → readChain (img.take n) = ((rs.foldl (fun a x =>
    takeRecord x.1.toNat x.2 a) (Accepted.empty, false)).1, true)))
    ∧ (∀ (d : List Byte) (a : Accepted × Bool), (if d.length = 9 ∧ natAt d 8 ≤ 15 then takeRecord 1 d a =
    ({ a.1 with cableId := some (serialAt d 0, natAt d 8) }, a.2) else takeRecord 1 d a = (a.1, true))
    ∧ (if d.length = 8 ∧ ∀ c : Fin 8, natAt d c.val ≤ 7 then ∃ v, takeRecord 2 d a = ({ a.1 with loss := some v },
    a.2) ∧ ∀ c : Fin 8, v[c].val = natAt d c.val else takeRecord 2 d a = (a.1, true)) ∧ (if d.length = 16
    ∧ ∀ n : Fin 8, natAt d (2 * n.val) ≤ 12 ∧ natAt d (2 * n.val + 1) ≤ 18
    ∧ natAt d (2 * n.val) + natAt d (2 * n.val + 1) ≤ 24 then ∃ v, takeRecord 3 d a =
    ({ a.1 with presets := some v }, a.2) ∧ ∀ n : Fin 8, v[n] = ⟨natAt d (2 * n.val), natAt d (2 * n.val + 1)⟩ else
    takeRecord 3 d a = (a.1, true)) ∧ (if d.length = 1 + 7 * natAt d 0 ∧ natAt d 0 ≤ 4
    ∧ (∀ k < natAt d 0, natAt d (1 + 7 * k) ≤ 3 ∧ natAt d (2 + 7 * k) ≤ 7 ∧ natAt d (3 + 7 * k) ∈ [1, 2, 4, 8]
    ∧ natAt d (2 + 7 * k) % natAt d (3 + 7 * k) = 0 ∧ natAt d (4 + 7 * k) ≤ 7 ∧ natAt d (5 + 7 * k) ≤ 2
    ∧ natAt d (6 + 7 * k) ≤ 1 ∧ natAt d (7 + 7 * k) ≤ 1)
    ∧ (∀ j < natAt d 0, ∀ k < natAt d 0, natAt d (1 + 7 * j) = natAt d (1 + 7 * k)
    → j = k) then ∃ ds, takeRecord 4 d a = ({ a.1 with defaults := some ds }, a.2) ∧ ds.length = natAt d 0
    ∧ ∀ k e, ds[k]? = some e → e.leg.val = natAt d (1 + 7 * k)
    ∧ e.window = ⟨natAt d (2 + 7 * k), natAt d (3 + 7 * k), natAt d (4 + 7 * k)⟩ ∧ e.cap.code = natAt d (5 + 7 * k)
    ∧ boolByte e.autoStart = d.getD (6 + 7 * k) 0
    ∧ boolByte e.autoWake = d.getD (7 + 7 * k) 0 else takeRecord 4 d a = (a.1, true)) ∧ (if d.length = 10
    ∧ natAt d 2 ≤ 127 ∧ natAt d 5 ≤ 127 ∧ natAt d 8 ≤ 127 ∧ natAt d 9 ≤ 63 then takeRecord 5 d a =
    ({ a.1 with thresholds := some { l := ⟨natAt d 0 + 256 * natAt d 1, natAt d 2⟩, m := ⟨natAt d 3 + 256 * natAt d 4, natAt d 5⟩, h := ⟨natAt d 6 + 256 * natAt d 7, natAt d 8⟩, presence := natAt d 9 } },
    a.2) else takeRecord 5 d a = (a.1, true)) ∧ ∀ type, (type = 0 ∨ 5 < type) → takeRecord type d a = a))
  ∧ (∀ (s : State) (len : Nat) (crc : Half) (bytes : List Byte), s.cable.startup = .loadingImage len crc
    → (bytes.length < len ∨ crc16 (imageCovered (bytes.take len)) ≠ crc) → exec (.factoryImageRead bytes) s = .next
    { s with cable := { s.cable with loadStatus := some .badImage, startup := .loadingLearned } })
  ∧ (∀ (s : State) (len : Nat) (crc : Half) (bytes : List Byte) (ds : List LegDefault), s.cable.startup =
    .loadingImage len crc → len ≤ bytes.length → crc16 (imageCovered (bytes.take len)) = crc
    → ds = (readChain (bytes.take len)).1.defaults.getD [] → ∃ t, exec (.factoryImageRead bytes) s = .next t
    ∧ t.cable.startup = .loadingLearned ∧ t.cable.loadStatus = some (if (readChain (bytes.take len)).2
    ∨ ∃ d ∈ ds, s.hasLeg d.leg ∧ t.conflictsBelow d.leg d.window then .partialLoad else .ok)
    ∧ t.cable.serial = ((readChain (bytes.take len)).1.cableId.map Prod.fst).getD s.cable.serial ∧
    t.cable.lengthClass = ((readChain (bytes.take len)).1.cableId.map Prod.snd).getD s.cable.lengthClass
    ∧ t.cable.loss = (readChain (bytes.take len)).1.loss.getD s.cable.loss
    ∧ t.cable.presets = (readChain (bytes.take len)).1.presets.getD s.cable.presets
    ∧ t.cable.thresholds = (readChain (bytes.take len)).1.thresholds.getD s.cable.thresholds ∧ (∀ g, s.hasLeg g
    → (t.leg g).errThreshold = (t.cable.thresholds.row (t.leg g).rateCap).err
    ∧ (t.leg g).eyeFloor = (t.cable.thresholds.row (t.leg g).rateCap).eye
    ∧ (t.leg g).presThreshold = t.cable.thresholds.presence) ∧ (∀ g, (t.leg g).state = (s.leg g).state
    ∧ (t.leg g).queue = (s.leg g).queue) ∧ (∀ c, (t.lane c).taps = (s.lane c).taps
    ∧ (t.lane c).farTaps = (s.lane c).farTaps ∧ (t.lane c).peaking = (s.lane c).peaking
    ∧ (t.lane c).d1 = (s.lane c).d1) ∧ t.cable.learned = s.cable.learned ∧ t.notices = s.notices ∧ t.port = s.port
    ∧ t.tx = s.tx ∧ t.grant = s.grant ∧ (∀ d ∈ ds, s.hasLeg d.leg → (t.leg d.leg).rateCap = d.cap
    ∧ (t.leg d.leg).autoStart = d.autoStart ∧ (t.leg d.leg).autoWake = d.autoWake ∧ (t.leg d.leg).window = if
    t.conflictsBelow d.leg d.window then (s.leg d.leg).window else some d.window)
    ∧ (∀ g, (∀ d ∈ ds, s.hasLeg d.leg → d.leg ≠ g) → (t.leg g).rateCap = (s.leg g).rateCap
    ∧ (t.leg g).autoStart = (s.leg g).autoStart ∧ (t.leg g).autoWake = (s.leg g).autoWake
    ∧ (t.leg g).window = (s.leg g).window))

/-- The learned status by R167: a read that ends before both bytes of the magic is LEARNED_BAD (the model's choice, log
34); a magic other than 0x4C 0x42 is LEARNED_NONE, whatever follows; with the magic, a lost acknowledge, a wrong
CRC, an entry that names another lane, a valid flag above 1, or a valid entry with a rate class code above 2, taps
out of range, peaking above 15 or d1 outside -31 to 31 is LEARNED_BAD, and a block without any of these LEARNED_OK.
A completed read enters READY. LEARNED_OK loads every entry's fields and the serial; the other findings leave the
table and set the learned serial to the own serial. LOAD_DONE carries both statuses. Each leg with auto-start and a
window leaves OFF for LISTEN, or, at a HUB that sees every window lane PRESENT, for PROBE with its PROBE on the
way; no other leg changes state. Where no FAR_READ holds the slot, as none can before READY (BusyPortTakesNothing
states it of every step), the port stands as it stood. (R161, R167, R25, R28, R87, R194, R199) -/
def Obligations.LearnedReadEntersReady : Prop :=
  (∀ bs : List Byte, bs.length ≤ 80 → (bs.length < 2 → learnedFinding bs = .bad) ∧ (2 ≤ bs.length
    → (natAt bs 0 ≠ 0x4C ∨ natAt bs 1 ≠ 0x42) → learnedFinding bs = .absent) ∧ (2 ≤ bs.length → natAt bs 0 = 0x4C
    → natAt bs 1 = 0x42 → ((bs.length < 80 ∨ crc16 (bs.take 10 ++ bs.drop 12) ≠ BitVec.ofNat 16 (nat16At bs 10)
    ∨ ∃ c : LaneId, natAt bs (16 + 8 * c.val) ≠ c.val ∨ 1 < natAt bs (17 + 8 * c.val)
    ∨ (natAt bs (17 + 8 * c.val) = 1 ∧ (2 < natAt bs (18 + 8 * c.val) ∨ 12 < natAt bs (19 + 8 * c.val)
    ∨ 18 < natAt bs (20 + 8 * c.val) ∨ 24 < natAt bs (19 + 8 * c.val) + natAt bs (20 + 8 * c.val)
    ∨ 15 < natAt bs (21 + 8 * c.val) ∨ (31 < natAt bs (22 + 8 * c.val) ∧ natAt bs (22 + 8 * c.val) < 225))))
    → learnedFinding bs = .bad) ∧ (bs.length = 80
    → crc16 (bs.take 10 ++ bs.drop 12) = BitVec.ofNat 16 (nat16At bs 10)
    → (∀ c : LaneId, natAt bs (16 + 8 * c.val) = c.val ∧ natAt bs (17 + 8 * c.val) ≤ 1
    ∧ (natAt bs (17 + 8 * c.val) = 1 → natAt bs (18 + 8 * c.val) ≤ 2 ∧ natAt bs (19 + 8 * c.val) ≤ 12
    ∧ natAt bs (20 + 8 * c.val) ≤ 18 ∧ natAt bs (19 + 8 * c.val) + natAt bs (20 + 8 * c.val) ≤ 24
    ∧ natAt bs (21 + 8 * c.val) ≤ 15 ∧ (natAt bs (22 + 8 * c.val) ≤ 31 ∨ 225 ≤ natAt bs (22 + 8 * c.val))))
    → learnedFinding bs = .ok)))
  ∧ (∀ (s : State) (bytes : List Byte), s.cable.startup = .loadingLearned
    → ∃ t, exec (.learnedBlockRead bytes) s = .next t ∧ t.cable.startup = .ready
    ∧ t.cable.learnedStatus = some (learnedFinding (bytes.take 80)) ∧ (learnedFinding (bytes.take 80) = .ok
    → (∀ c : LaneId, t.cable.learned[c] =
    { valid := natAt (bytes.take 80) (17 + 8 * c.val) == 1, rate := (bytes.take 80).getD (18 + 8 * c.val) 0,
      pre := natAt (bytes.take 80) (19 + 8 * c.val), post := natAt (bytes.take 80) (20 + 8 * c.val),
      peaking := natAt (bytes.take 80) (21 + 8 * c.val), d1 := ((bytes.take 80).getD (22 + 8 * c.val) 0).toInt })
    ∧ t.cable.learnedSerial = serialAt (bytes.take 80) 2) ∧ (learnedFinding (bytes.take 80) ≠ .ok
    → t.cable.learned = s.cable.learned ∧ t.cable.learnedSerial = s.cable.serial) ∧ (s.notices.records = []
    → ∃ n ∈ t.notices.records, n.kind = .loadDone ∧ n.leg = none ∧ n.data = [byteOf (loadCode s.cable.loadStatus),
    byteOf (learnedCode (some (learnedFinding (bytes.take 80))))]) ∧ (∀ g, (s.leg g).state = .off → s.hasLeg g
    → (s.leg g).autoStart → (s.leg g).window.isSome
    → (t.leg g).state = (if s.isHub ∧ s.allPresent g then .probe else .listen) ∧ (t.leg g).enteredAt = s.time
    ∧ (t.leg g).retrains = 0 ∧ (t.leg g).holdoff = none ∧ (s.isHub → s.allPresent g
    → t.sends g (.probe (s.ident g)))) ∧ (∀ g, ((s.leg g).state ≠ .off ∨ (s.leg g).autoStart = false
    ∨ (s.leg g).window = none) → (t.leg g).state = (s.leg g).state) ∧ s.tapsKept t
    ∧ (s.port.slot.map Slot.kind ≠ some 0x0E → t.port = s.port))

/-- For every commit job whose entries fit the block's fields, and whose valid entries lie in the ranges of R167, the
eighty bytes its page writes leave in the memory (write 5 over the header page, writes 1 to 4 below it) are loaded
by the learned-block read with status LEARNED_OK, the job's entries and the job's serial. (R167, R171, R194, R199) -/
def Obligations.CommitThenLoadAgree : Prop :=
  ∀ (j : Job) (s : State), s.cable.startup = .loadingLearned → (∀ c : LaneId, j.entries[c].pre < 256
    ∧ j.entries[c].post < 256 ∧ j.entries[c].peaking < 256 ∧ -128 ≤ j.entries[c].d1 ∧ j.entries[c].d1 ≤ 127
    ∧ (j.entries[c].valid → j.entries[c].rate.toNat ≤ 2 ∧ loadable j.entries[c].pre j.entries[c].post
    ∧ j.entries[c].peaking ≤ 15 ∧ -31 ≤ j.entries[c].d1 ∧ j.entries[c].d1 ≤ 31)) → ∃ t, exec (.learnedBlockRead
    (({ j with index := 5 } : Job).page.2 ++ ({ j with index := 1 } : Job).page.2 ++ ({ j with index := 2 } :
    Job).page.2 ++ ({ j with index := 3 } : Job).page.2 ++ ({ j with index := 4 } : Job).page.2)) s = .next t
    ∧ t.cable.startup = .ready ∧ t.cable.learnedStatus = some .ok ∧ t.cable.learned = j.entries
    ∧ t.cable.learnedSerial = j.serial

/-- PAGE_SENT starts the 10 ms poll limit. A poll acknowledged before it begins the next write, or after write 5 ends the
job with LEARNED_OK and COMMIT_DONE OK. The poll limit's expiry ends it with TIMEOUT and a lost acknowledge with
NO_MEMORY, each with the write index, and the learned status becomes LEARNED_NONE. With no job nothing changes.
(The write index byte of COMMIT_DONE OK, 0, is the model's reading, log 11.) For each write index 0 to 5 the page
is sixteen bytes long and starts at the header page 0x400 for writes 0 and 5 and at 0x400 plus 16 times the index
for writes 1 to 4; no write lies below 0x400. Write 0's page has the magic cleared, the snapshot serial, the CRC-16
cleared and zeros (CommitThenLoadAgree reads the pages of writes 1 to 5). That with no job running a page's end, a
poll, the limit's expiry and a lost acknowledge change nothing is the model's choice (log 1). (R171, R172, R166,
R199) -/
def Obligations.CommitJobSteps : Prop :=
  (∀ j : Job, j.index ≤ 5 → j.page.2.length = 16 ∧ 0x400 ≤ j.page.1
    ∧ j.page.1 = 0x400 + 16 * (if j.index = 5 then 0 else j.index) ∧ (j.index = 0
    → j.page.2 = [0, 0] ++ j.serial.toList ++ [0, 0, 0, 0, 0, 0]))
  ∧ (∀ (s : State) (j : Job), s.cable.job = some j → j.poll = none → exec .pageSent s = .next
    { s with cable := { s.cable with job := some { j with poll := some (s.time + 10000) } } })
  ∧ (∀ (s : State) (j : Job), s.cable.job = some j → j.poll ≠ none → j.index < 5 → exec .pollAcknowledged s = .next
    { s with cable := { s.cable with job := some { j with index := j.index + 1, poll := none } } })
  ∧ (∀ (s : State) (j : Job), s.cable.job = some j → j.poll ≠ none → j.index = 5 → exec .pollAcknowledged s = .next
    { s with cable := { s.cable with job := none, learnedStatus := some .ok },
             notices := s.notices.post .commitDone none [0, 0] s.time })
  ∧ (∀ (s : State) (j : Job), s.cable.job = some j → j.poll ≠ none → exec .pollLimitExpiry s = .next
    { s with cable := { s.cable with job := none, learnedStatus := some .absent },
             notices := s.notices.post .commitDone none [1, byteOf j.index] s.time })
  ∧ (∀ (s : State) (j : Job), s.cable.job = some j → j.poll = none → exec .pageWriteNack s = .next
    { s with cable := { s.cable with job := none, learnedStatus := some .absent },
             notices := s.notices.post .commitDone none [2, byteOf j.index] s.time })
  ∧ (∀ (s : State) (i : Instr), s.cable.job = none → (i = .pageSent ∨ i = .pollAcknowledged ∨ i = .pollLimitExpiry
    ∨ i = .pageWriteNack) → exec i s = .next s)

/-- A report of an owned lane, in whatever state its leg is, becomes its last report, stamped with the time base, and its
merit becomes max(0, 4h - min(e, 255)), at most 508. No other lane's last report or merit changes, and no lane's
local taps, pin, settle or far taps. A report of a lane without an owner changes nothing. (Both, for any leg state
and for no owner, are the model's reading, log 17.) In TRAIN the report acts on the lane's search record: in STATUS
and done it does nothing, DISCARD becomes MEASURE, and in MEASURE the merit is judged. After the opening it becomes
the best merit and the first POST step is sent, or, with PINNED opening statuses, the lane is done; after a step a
merit above the best is a gain and the next step is sent, any other draws the undo. Steps and undos count as steps
used, up to 32. A lane done with best merit 0 fails the attempt at a HUB; the last lane done sets the local trained
mark at a HUB, or begins ADAPT where the far end is trained, and has an END send TRAIN_DONE. (R2, R11, R65, R71,
R72, R73, R74, R77, R79, R33, R36) -/
def Obligations.WindowReportRecorded : Prop :=
  (∀ (s : State) (c : LaneId) (h : Fin 128) (e : Fin 65536) (r : BitVec 7) (g : LegId), (s.lane c).owner = some g
    → ∃ t, exec (.windowReport c h e r) s = .next t ∧ (t.lane c).report = some ⟨h, e, r, s.time⟩
    ∧ ((t.lane c).merit : Int) = max 0 (4 * (h.val : Int) - min (e.val : Int) 255) ∧ (t.lane c).merit ≤ 508
    ∧ (∀ k, k ≠ c → (t.lane k).report = (s.lane k).report ∧ (t.lane k).merit = (s.lane k).merit) ∧ s.tapsKept t)
  ∧ (∀ (s : State) (c : LaneId) (h : Fin 128) (e : Fin 65536) (r : BitVec 7), (s.lane c).owner = none
    → exec (.windowReport c h e r) s = .next s)
  ∧ (∀ (s : State) (g : LegId) (i : WinIx) (h : Fin 128) (e : Fin 65536) (r : BitVec 7) (k : Search), (s.lane
    (s.winLane g i)).owner = some g → s.hasIndex g i → (s.leg g).state = .train
    → (s.lane (s.winLane g i)).search = some k → (k.waiting = none ∨ k.waiting = some .status)
    → ∃ t, exec (.windowReport (s.winLane g i) h e r) s = .next t ∧ s.SearchIs t g i k ∧ s.othersKept t g
    ∧ s.tapsKept t ∧ s.settingKept t)
  ∧ (∀ (s : State) (g : LegId) (i : WinIx) (h : Fin 128) (e : Fin 65536) (r : BitVec 7) (k : Search), (s.lane
    (s.winLane g i)).owner = some g → s.hasIndex g i → (s.leg g).state = .train
    → (s.lane (s.winLane g i)).search = some k → k.waiting = some .discard
    → ∃ t, exec (.windowReport (s.winLane g i) h e r) s = .next t
    ∧ s.SearchIs t g i { k with waiting := some .measure } ∧ s.othersKept t g ∧ s.tapsKept t ∧ s.settingKept t)
  ∧ (∀ (s : State) (g : LegId) (i : WinIx) (h : Fin 128) (e : Fin 65536) (r : BitVec 7) (k : Search), (s.lane
    (s.winLane g i)).owner = some g → s.hasIndex g i → (s.leg g).state = .train
    → (s.lane (s.winLane g i)).search = some k → k.waiting = some .measure → k.request = .opening
    → k.openPinned = false → ∃ t, exec (.windowReport (s.winLane g i) h e r) s = .next t ∧ s.SearchSteps t g i
    { k with best := 4 * h.val - min e.val 255, tap := .post, dir := .inc, gained := false } ∧ s.othersKept t g
    ∧ s.tapsKept t ∧ s.settingKept t)
  ∧ (∀ (s : State) (g : LegId) (i : WinIx) (h : Fin 128) (e : Fin 65536) (r : BitVec 7) (k : Search) (n : Nat),
    (s.lane (s.winLane g i)).owner = some g → s.hasIndex g i → (s.leg g).state = .train
    → (s.lane (s.winLane g i)).search = some k → k.waiting = some .measure → k.request = .opening → k.openPinned
    → (s.leg g).attempt = some n → 1 ≤ n → (s.leg g).standbyVerify = false
    → ∃ t, exec (.windowReport (s.winLane g i) h e r) s = .next t
    ∧ s.SearchEnds t g i { k with best := 4 * h.val - min e.val 255 } n ∧ s.othersKept t g ∧ s.tapsKept t
    ∧ s.settingKept t)
  ∧ (∀ (s : State) (g : LegId) (i : WinIx) (h : Fin 128) (e : Fin 65536) (r : BitVec 7) (k : Search), (s.lane
    (s.winLane g i)).owner = some g → s.hasIndex g i → (s.leg g).state = .train
    → (s.lane (s.winLane g i)).search = some k → k.waiting = some .measure → k.request = .step
    → k.best < 4 * h.val - min e.val 255 → ∃ t, exec (.windowReport (s.winLane g i) h e r) s = .next t
    ∧ s.SearchSteps t g i { k with best := 4 * h.val - min e.val 255, gained := true } ∧ s.othersKept t g
    ∧ s.tapsKept t ∧ s.settingKept t)
  ∧ (∀ (s : State) (g : LegId) (i : WinIx) (h : Fin 128) (e : Fin 65536) (r : BitVec 7) (k : Search), (s.lane
    (s.winLane g i)).owner = some g → s.hasIndex g i → (s.leg g).state = .train
    → (s.lane (s.winLane g i)).search = some k → k.waiting = some .measure → k.request = .step
    → 4 * h.val - min e.val 255 ≤ k.best → ∃ t, exec (.windowReport (s.winLane g i) h e r) s = .next t
    ∧ s.SearchSends t g i k .undo (match k.dir with | .inc => .dec | .dec => .inc) ∧ s.othersKept t g ∧ s.tapsKept t
    ∧ s.settingKept t)

/-- In UP or DEGRADED, below the top of the error counter, a report of a window lane sets d1 to clamp(d1 + trunc(r / 8),
-31, 31) and leaves its peaking and every other lane's receiver settings and every lane's taps. In ADAPT every
first report after a change is passed over. A measured report in PEAKING records its merit and sets the next
candidate code; after the last candidate peaking becomes the code of highest merit, the entry code on a tie that
holds it, else the lowest, and the lane goes to FEEDBACK, failed where every merit was 0, which at a HUB fails the
attempt. The measured report of FEEDBACK sets d1 to clamp(d1 + trunc(r / 4), -31, 31) and makes the lane COMPLETE;
the last lane of a HUB leg to complete begins VERIFY. (R11, R102, R80, R81, R82, R83, R34, R36, R84) -/
def Obligations.TrackingMovesFeedbackTap : Prop :=
  (∀ (s : State) (c : LaneId) (h : Fin 128) (e : Fin 65536) (r : BitVec 7) (g : LegId) (w : Window), (s.lane c).owner
    = some g → (s.leg g).window = some w → w.indexOf c ≠ none → ((s.leg g).state = .up ∨ (s.leg g).state = .degraded)
    → (s.leg g).errCount < 248 → ∃ t, exec (.windowReport c h e r) s = .next t
    ∧ (t.lane c).d1 = max (-31) (min 31 ((s.lane c).d1 + r.toInt.tdiv 8)) ∧ (t.lane c).peaking = (s.lane c).peaking
    ∧ (∀ k, k ≠ c → (t.lane k).d1 = (s.lane k).d1 ∧ (t.lane k).peaking = (s.lane k).peaking) ∧ s.tapsKept t
    ∧ s.settingKept t)
  ∧ (∀ (s : State) (g : LegId) (i : WinIx) (h : Fin 128) (e : Fin 65536) (r : BitVec 7) (v : Vector AdaptLane 8),
    (s.lane (s.winLane g i)).owner = some g → s.hasIndex g i → (s.leg g).state = .adapt → (s.leg g).adapt = some v
    → (v[i].stage = .complete ∨ v[i].waiting ≠ .measure)
    → ∃ t, exec (.windowReport (s.winLane g i) h e r) s = .next t ∧ (t.leg g).state = .adapt
    ∧ (t.leg g).adapt = some (if v[i].stage = .complete then v else v.set i.val { v[i] with waiting := .measure }
    i.isLt) ∧ (∀ c, (t.lane c).peaking = (s.lane c).peaking ∧ (t.lane c).d1 = (s.lane c).d1) ∧ s.othersKept t g
    ∧ s.tapsKept t ∧ s.settingKept t)
  ∧ (∀ (s : State) (g : LegId) (i : WinIx) (h : Fin 128) (e : Fin 65536) (r : BitVec 7) (v : Vector AdaptLane 8) (p :
    Nat), (s.lane (s.winLane g i)).owner = some g → s.hasIndex g i → (s.leg g).state = .adapt
    → (s.leg g).adapt = some v → v[i].stage = .peaking → v[i].waiting = .measure
    → v[i].candidates[v[i].measured.length + 1]? = some p
    → ∃ t, exec (.windowReport (s.winLane g i) h e r) s = .next t ∧ (t.leg g).state = .adapt
    ∧ (t.leg g).adapt = some (v.set i.val
    { v[i] with measured := v[i].measured ++ [4 * h.val - min e.val 255], waiting := .discard } i.isLt)
    ∧ (t.lane (s.winLane g i)).peaking = p ∧ (t.lane (s.winLane g i)).d1 = (s.lane (s.winLane g i)).d1
    ∧ (∀ c, c ≠ s.winLane g i → (t.lane c).peaking = (s.lane c).peaking ∧ (t.lane c).d1 = (s.lane c).d1)
    ∧ s.othersKept t g ∧ s.tapsKept t ∧ s.settingKept t)
  ∧ (∀ (s : State) (g : LegId) (i : WinIx) (h : Fin 128) (e : Fin 65536) (r : BitVec 7) (v : Vector AdaptLane 8),
    (s.lane (s.winLane g i)).owner = some g → s.hasIndex g i → (s.leg g).state = .adapt → (s.leg g).adapt = some v
    → v[i].stage = .peaking → v[i].waiting = .measure → v[i].Ok → v[i].measured.length + 1 = v[i].candidates.length
    → (s.isHub = false ∨ (v[i].measured ++ [4 * h.val - min e.val 255]).any (fun x => x != 0))
    → ∃ t, exec (.windowReport (s.winLane g i) h e r) s = .next t ∧ (t.leg g).state = .adapt
    ∧ (t.leg g).adapt = some (v.set i.val
    { v[i] with measured := v[i].measured ++ [4 * h.val - min e.val 255], waiting := .discard, stage := .feedback,
                failed := (v[i].measured ++ [4 * h.val - min e.val 255]).all (fun x => x == 0) } i.isLt) ∧ bestCode
    v[i].candidates (v[i].measured ++ [4 * h.val - min e.val 255]) v[i].entry (t.lane (s.winLane g i)).peaking
    ∧ (t.lane (s.winLane g i)).d1 = (s.lane (s.winLane g i)).d1 ∧ (∀ c, c ≠ s.winLane g i
    → (t.lane c).peaking = (s.lane c).peaking ∧ (t.lane c).d1 = (s.lane c).d1) ∧ s.othersKept t g ∧ s.tapsKept t
    ∧ s.settingKept t)
  ∧ (∀ (s : State) (g : LegId) (i : WinIx) (h : Fin 128) (e : Fin 65536) (r : BitVec 7) (v : Vector AdaptLane 8) (n :
    Nat), (s.lane (s.winLane g i)).owner = some g → s.hasIndex g i → (s.leg g).state = .adapt
    → (s.leg g).adapt = some v → v[i].stage = .peaking → v[i].waiting = .measure → v[i].Ok
    → v[i].measured.length + 1 = v[i].candidates.length → s.isHub
    → (v[i].measured ++ [4 * h.val - min e.val 255]).all (fun x => x == 0) → (s.leg g).attempt = some n → 1 ≤ n
    → (s.leg g).standbyVerify = false → ∃ t, exec (.windowReport (s.winLane g i) h e r) s = .next t
    ∧ s.AttemptFailed t g n ∧ s.othersKept t g ∧ s.tapsKept t ∧ s.settingKept t)
  ∧ (∀ (s : State) (g : LegId) (i : WinIx) (h : Fin 128) (e : Fin 65536) (r : BitVec 7) (v : Vector AdaptLane 8),
    (s.lane (s.winLane g i)).owner = some g → s.hasIndex g i → (s.leg g).state = .adapt → (s.leg g).adapt = some v
    → v[i].stage = .feedback → v[i].waiting = .measure → (s.isHub = false ∨ ∃ j ∈ s.winIndices g, j ≠ i
    ∧ v[j].stage ≠ .complete) → ∃ t, exec (.windowReport (s.winLane g i) h e r) s = .next t
    ∧ (t.leg g).state = .adapt ∧ (t.leg g).adapt = some (v.set i.val { v[i] with stage := .complete } i.isLt) ∧
    (t.lane (s.winLane g i)).d1 = max (-31) (min 31 ((s.lane (s.winLane g i)).d1 + r.toInt.tdiv 4))
    ∧ (t.lane (s.winLane g i)).peaking = (s.lane (s.winLane g i)).peaking ∧ (∀ c, c ≠ s.winLane g i
    → (t.lane c).peaking = (s.lane c).peaking ∧ (t.lane c).d1 = (s.lane c).d1) ∧ s.othersKept t g ∧ s.tapsKept t
    ∧ s.settingKept t)
  ∧ (∀ (s : State) (g : LegId) (i : WinIx) (h : Fin 128) (e : Fin 65536) (r : BitVec 7) (v : Vector AdaptLane 8) (n :
    Nat), (s.lane (s.winLane g i)).owner = some g → s.hasIndex g i → (s.leg g).state = .adapt
    → (s.leg g).adapt = some v → v[i].stage = .feedback → v[i].waiting = .measure → s.isHub
    → (∀ j ∈ s.winIndices g, j ≠ i → v[j].stage = .complete) → (s.leg g).attempt = some n
    → ∃ t, exec (.windowReport (s.winLane g i) h e r) s = .next t ∧ s.BeginsVerify t g n ∧ (t.lane (s.winLane g
    i)).d1 = max (-31) (min 31 ((s.lane (s.winLane g i)).d1 + r.toInt.tdiv 4))
    ∧ (t.lane (s.winLane g i)).peaking = (s.lane (s.winLane g i)).peaking ∧ (∀ c, c ≠ s.winLane g i
    → (t.lane c).peaking = (s.lane c).peaking ∧ (t.lane c).d1 = (s.lane c).d1) ∧ s.othersKept t g ∧ s.tapsKept t
    ∧ s.settingKept t)

/-- In service a report joins its leg's report set, in the place of an earlier one of its lane, and while another window
lane has no entry nothing is counted. A report that completes the set sets the aggregate merit to the lowest merit
of the entries and empties the set. A set with a bad entry (errors above the threshold, or eye below the floor)
below 248 raises the counter by 8, a good one lowers it by 1 down to 0. UP with 128 or more becomes DEGRADED,
DEGRADED with 95 or less becomes UP. In VERIFY each window lane passes over its first report and counts sixteen
with its bad windows. When every lane has counted sixteen the result is pass where none has more than 1 bad window:
an END sends VERIFY_RESULT, failed also by its adapt-failed mark, with the largest bad count; a HUB keeps the
result until the far one is there, and with both enters UP, handing the learned entries over (R87, R168), or fails
the attempt. (R12, R91, R93, R94, R96, R84, R85, R35, R36, R87, R168) -/
def Obligations.HealthCountsASet : Prop :=
  (∀ (s : State) (c : LaneId) (h : Fin 128) (e : Fin 65536) (r : BitVec 7) (g : LegId) (es : LaneId → Report),
    (s.lane c).owner = some g → c ∈ s.winLanes g → ((s.leg g).state = .up ∨ (s.leg g).state = .degraded)
    → es c = ⟨h, e, r, s.time⟩ → (∀ j ∈ s.winLanes g, j ≠ c → (s.leg g).reportSet[j] = some (es j))
    → (∃ j ∈ s.winLanes g, (s.leg g).errThreshold < (es j).e.val ∨ (es j).h.val < (s.leg g).eyeFloor)
    → (s.leg g).errCount < 248 → ∃ t, exec (.windowReport c h e r) s = .next t
    ∧ (t.leg g).errCount = (s.leg g).errCount + 8
    ∧ (∀ j ∈ s.winLanes g, (t.leg g).aggMerit ≤ 4 * (es j).h.val - min (es j).e.val 255)
    ∧ (∃ j ∈ s.winLanes g, (t.leg g).aggMerit = 4 * (es j).h.val - min (es j).e.val 255)
    ∧ (∀ j : LaneId, (t.leg g).reportSet[j] = none) ∧ (t.leg g).state = (if (s.leg g).state = .up
    ∧ 128 ≤ (s.leg g).errCount + 8 then .degraded else if (s.leg g).state = .degraded
    ∧ (s.leg g).errCount + 8 ≤ 95 then .up else (s.leg g).state) ∧ s.othersKept t g ∧ s.settingKept t)
  ∧ (∀ (s : State) (c : LaneId) (h : Fin 128) (e : Fin 65536) (r : BitVec 7) (g : LegId) (es : LaneId → Report),
    (s.lane c).owner = some g → c ∈ s.winLanes g → ((s.leg g).state = .up ∨ (s.leg g).state = .degraded)
    → es c = ⟨h, e, r, s.time⟩ → (∀ j ∈ s.winLanes g, j ≠ c → (s.leg g).reportSet[j] = some (es j))
    → (∀ j ∈ s.winLanes g, (es j).e.val ≤ (s.leg g).errThreshold ∧ (s.leg g).eyeFloor ≤ (es j).h.val)
    → ∃ t, exec (.windowReport c h e r) s = .next t ∧ (t.leg g).errCount = (s.leg g).errCount - 1
    ∧ (∀ j ∈ s.winLanes g, (t.leg g).aggMerit ≤ 4 * (es j).h.val - min (es j).e.val 255)
    ∧ (∃ j ∈ s.winLanes g, (t.leg g).aggMerit = 4 * (es j).h.val - min (es j).e.val 255)
    ∧ (∀ j : LaneId, (t.leg g).reportSet[j] = none) ∧ (t.leg g).state = (if (s.leg g).state = .up
    ∧ 128 ≤ (s.leg g).errCount - 1 then .degraded else if (s.leg g).state = .degraded
    ∧ (s.leg g).errCount - 1 ≤ 95 then .up else (s.leg g).state) ∧ s.othersKept t g ∧ s.settingKept t)
  ∧ (∀ (s : State) (c : LaneId) (h : Fin 128) (e : Fin 65536) (r : BitVec 7) (g : LegId), (s.lane c).owner = some g
    → c ∈ s.winLanes g → ((s.leg g).state = .up ∨ (s.leg g).state = .degraded)
    → (∃ j ∈ s.winLanes g, j ≠ c ∧ (s.leg g).reportSet[j] = none) → ∃ t, exec (.windowReport c h e r) s = .next t
    ∧ (t.leg g).reportSet[c] = some ⟨h, e, r, s.time⟩ ∧ (∀ j : LaneId, j ≠ c
    → (t.leg g).reportSet[j] = (s.leg g).reportSet[j]) ∧ (t.leg g).errCount = (s.leg g).errCount
    ∧ (t.leg g).aggMerit = (s.leg g).aggMerit ∧ (t.leg g).state = (s.leg g).state ∧ s.othersKept t g
    ∧ s.settingKept t)
  ∧ (∀ (s : State) (g : LegId) (i : WinIx) (h : Fin 128) (e : Fin 65536) (r : BitVec 7) (v : Vector VerifyLane 8),
    (s.lane (s.winLane g i)).owner = some g → s.hasIndex g i → (s.leg g).state = .verify → (s.leg g).verify = some v
    → (v[i].passedOver = false ∨ 16 ≤ v[i].counted) → ∃ t, exec (.windowReport (s.winLane g i) h e r) s = .next t
    ∧ (t.leg g).state = .verify ∧ (t.leg g).verify = some (if v[i].passedOver then v else v.set i.val
    { v[i] with passedOver := true } i.isLt) ∧ (t.leg g).localVerify = (s.leg g).localVerify
    ∧ (t.leg g).farVerify = (s.leg g).farVerify ∧ s.othersKept t g ∧ s.tapsKept t ∧ s.settingKept t)
  ∧ (∀ (s : State) (g : LegId) (i : WinIx) (h : Fin 128) (e : Fin 65536) (r : BitVec 7) (v : Vector VerifyLane 8),
    (s.lane (s.winLane g i)).owner = some g → s.hasIndex g i → (s.leg g).state = .verify → (s.leg g).verify = some v
    → v[i].passedOver → v[i].counted < 16 → (v[i].counted < 15 ∨ ∃ j ∈ s.winIndices g, j ≠ i ∧ v[j].counted ≠ 16)
    → ∃ t, exec (.windowReport (s.winLane g i) h e r) s = .next t ∧ (t.leg g).state = .verify
    ∧ (t.leg g).verify = some (v.set i.val
    { v[i] with counted := v[i].counted + 1,
                bad := v[i].bad + (if (s.leg g).errThreshold < e.val ∨ h.val < (s.leg g).eyeFloor then 1 else 0) }
    i.isLt) ∧ (t.leg g).localVerify = (s.leg g).localVerify ∧ (t.leg g).farVerify = (s.leg g).farVerify
    ∧ s.othersKept t g ∧ s.tapsKept t ∧ s.settingKept t)
  ∧ (∀ (s : State) (g : LegId) (i : WinIx) (h : Fin 128) (e : Fin 65536) (r : BitVec 7) (v : Vector VerifyLane 8) (u
    : Vector VerifyLane 8) (ok : Bool) (rt : Rate) (n : Nat), (s.lane (s.winLane g i)).owner = some g
    → s.hasIndex g i → (s.leg g).state = .verify → (s.leg g).verify = some v → v[i].passedOver → v[i].counted = 15
    → (∀ j ∈ s.winIndices g, j ≠ i → v[j].counted = 16) → (u = v.set i.val
    { v[i] with counted := v[i].counted + 1,
                bad := v[i].bad + (if (s.leg g).errThreshold < e.val ∨ h.val < (s.leg g).eyeFloor then 1 else 0) }
    i.isLt) → (ok = true ↔ ∀ j ∈ s.winIndices g, u[j].bad ≤ 1) → (s.leg g).negRate = some rt
    → (s.leg g).attempt = some n → ∃ t, exec (.windowReport (s.winLane g i) h e r) s = .next t ∧ (s.isHub
    → (s.leg g).farVerify = none → (t.leg g).state = .verify ∧ (t.leg g).verify = some u
    ∧ (t.leg g).localVerify = some ok) ∧ (s.isHub → ∀ b, (s.leg g).farVerify = some b
    → if ok && b then s.CameUp t g rt else s.AttemptFailed t g n) ∧ (s.isHub = false → (t.leg g).state = .verify
    ∧ (t.leg g).verify = some u ∧ t.sends g (.verifyResult n (ok && !(s.leg g).adaptFailed) (((s.winIndices g).map
    (fun j => u[j].bad)).foldl max 0))) ∧ s.othersKept t g ∧ s.tapsKept t)

/-- In service a bad set at 248 or more, over every lane of the window, sets the counter to 0 and empties the report set.
A HUB below three retrains enters TRAIN with attempt 1, its retrain count one higher and its deadline in 250 ms; at
three it enters FAULT with ERROR_LIMIT. An END keeps its state and has a RETRAIN_REQUEST queued or held. (R12, R93,
R94, R98, R99, R100, R37) -/
def Obligations.CounterTopRetrains : Prop :=
  ∀ (s : State) (c : LaneId) (h : Fin 128) (e : Fin 65536) (r : BitVec 7) (g : LegId) (es : LaneId → Report), (s.lane
    c).owner = some g → c ∈ s.winLanes g → ((s.leg g).state = .up ∨ (s.leg g).state = .degraded)
    → es c = ⟨h, e, r, s.time⟩ → (∀ j ∈ s.winLanes g, j ≠ c → (s.leg g).reportSet[j] = some (es j))
    → (∃ j ∈ s.winLanes g, (s.leg g).errThreshold < (es j).e.val ∨ (es j).h.val < (s.leg g).eyeFloor)
    → 248 ≤ (s.leg g).errCount → ∃ t, exec (.windowReport c h e r) s = .next t ∧ (t.leg g).errCount = 0 ∧ (s.isHub
    → (s.leg g).retrains < 3 → (t.leg g).state = .train ∧ (t.leg g).attempt = some 1
    ∧ (t.leg g).retrains = (s.leg g).retrains + 1 ∧ (t.leg g).deadline = some (s.time + 250000)) ∧ (s.isHub
    → 3 ≤ (s.leg g).retrains → (t.leg g).state = .fault ∧ (t.leg g).lastFault = .errorLimit
    ∧ (t.leg g).retrains = (s.leg g).retrains) ∧ (s.isHub = false → (t.leg g).state = (s.leg g).state
    ∧ (Item.retrainRequest ∈ (t.leg g).queue ∨ (t.leg g).healthHold)) ∧ s.othersKept t g
    ∧ (∀ j : LaneId, (t.leg g).reportSet[j] = none)

/-- A reading at or above the leg's presence threshold is signal. A scanned lane's agreeing reading sets its debounce
count to 0; a disagreeing one raises it while below 3, and at 3 flips the presence and sets the count to 0. No
other lane's presence or count changes. A lane that is not scanned takes no reading. (R13, R14) -/
def Obligations.ScanReadingDebounces : Prop :=
  (∀ (s : State) (c : LaneId) (g : LegId) (level : Fin 64), (s.lane c).owner = some g
    → ((s.leg g).state ≠ .off ∧ (s.leg g).state ≠ .fault) → (((s.lane c).presence = .present
    ↔ (s.leg g).presThreshold ≤ level.val)) → ∃ t, exec (.scanReading c level) s = .next t
    ∧ (t.lane c).presence = (s.lane c).presence ∧ (t.lane c).debounce = 0 ∧ (∀ k, k ≠ c → t.lane k = s.lane k)
    ∧ s.legsKept t ∧ s.settingKept t)
  ∧ (∀ (s : State) (c : LaneId) (g : LegId) (level : Fin 64), (s.lane c).owner = some g
    → ((s.leg g).state ≠ .off ∧ (s.leg g).state ≠ .fault) → (¬((s.lane c).presence = .present
    ↔ (s.leg g).presThreshold ≤ level.val)) → (s.lane c).debounce < 3 → ∃ t, exec (.scanReading c level) s = .next t
    ∧ (t.lane c).presence = (s.lane c).presence ∧ (t.lane c).debounce = (s.lane c).debounce + 1
    ∧ (∀ k, k ≠ c → t.lane k = s.lane k) ∧ s.legsKept t ∧ s.settingKept t)
  ∧ (∀ (s : State) (c : LaneId) (g : LegId) (level : Fin 64), (s.lane c).owner = some g
    → ((s.leg g).state ≠ .off ∧ (s.leg g).state ≠ .fault) → (¬((s.lane c).presence = .present
    ↔ (s.leg g).presThreshold ≤ level.val)) → 3 ≤ (s.lane c).debounce → ∃ t, exec (.scanReading c level) s = .next t
    ∧ (t.lane c).presence = (if (s.leg g).presThreshold ≤ level.val then .present else .absent)
    ∧ (t.lane c).debounce = 0 ∧ (∀ k, k ≠ c → (t.lane k).presence = (s.lane k).presence
    ∧ (t.lane k).debounce = (s.lane k).debounce) ∧ s.tapsKept t ∧ s.settingKept t)
  ∧ (∀ (s : State) (c : LaneId) (level : Fin 64), ((s.lane c).owner = none ∨ ∃ g, (s.lane c).owner = some g
    ∧ ((s.leg g).state = .off ∨ (s.leg g).state = .fault)) → exec (.scanReading c level) s = .next s)

/-- When a window lane of a leg in PROBE to STANDBY goes ABSENT the leg enters LISTEN with cause SIGNAL_LOSS, retrain
count 0 and no negotiated rate or far identity. At a HUB whose engine is busy the probe holdoff of 100 ms runs and
the queue holds PHASE(LISTEN) alone, or nothing where the leg was in PROBE or the sideband lost; at an END the
queue is empty. When a window lane of a leg in SLEEP goes PRESENT, wake pending becomes yes and WAKE is posted with
the lane and whether the leg left SLEEP. Without auto-wake the leg stays as it is; with it the leg enters LISTEN,
resume kept, with no probe holdoff, at a HUB with PHASE(LISTEN) queued where the far identity was present, and goes
on by R28 to PROBE, or by R45 to an END's probe wait, where every lane is PRESENT. In LISTEN and SLEEP a lane going
ABSENT is recorded and moves no state; at an END in LISTEN it stops the probe wait. (R31, R38, R44, R28, R45, R112,
R117) -/
def Obligations.SignalLossReturnsToListen : Prop :=
  (∀ (s : State) (c : LaneId) (g : LegId) (level : Fin 64), (s.lane c).owner = some g → ((s.leg g).state.receives
    ∨ (s.leg g).state = .standby ∨ (s.leg g).state = .probe) → (s.lane c).presence = .present
    → 3 ≤ (s.lane c).debounce → level.val < (s.leg g).presThreshold → c ∈ s.winLanes g → (s.isHub ∨ g = 0)
    → ∃ t, exec (.scanReading c level) s = .next t ∧ (t.leg g).state = .listen ∧ (t.leg g).enteredAt = s.time
    ∧ (t.leg g).retrains = 0 ∧ (t.leg g).negRate = none ∧ (t.leg g).farId = none ∧ (t.leg g).attempt = none
    ∧ (t.leg g).errCount = (s.leg g).errCount ∧ (s.isHub → (t.leg g).holdoff = some (s.time + 100000)) ∧ (s.isHub
    → s.tx.isSome → (t.leg g).queue = if (s.leg g).sbLost
    ∨ (s.leg g).state = .probe then [] else [.phase .listen 0 .l])
    ∧ (s.isHub = false → (t.leg g).queue = [] ∧ (t.leg g).holdoff = none) ∧ s.othersKept t g ∧ (s.isHub → s.tx = none
    → ((s.leg g).sbLost ∨ (s.leg g).state = .probe) → t.noPhase g) ∧ (s.isHub → (s.leg g).sbLost = false
    → (s.leg g).state ≠ .probe → t.sends g (.phase .listen 0 .l)) ∧ (s.notices.records = []
    → ∃ n ∈ t.notices.records, n.kind = .legState ∧ n.leg = some g
    ∧ n.data = [byteOf (s.leg g).state.code, 1, 18, 0]))
  ∧ (∀ (s : State) (c : LaneId) (g : LegId) (level : Fin 64), (s.lane c).owner = some g → (s.leg g).state = .sleep
    → (s.lane c).presence = .absent → 3 ≤ (s.lane c).debounce → (s.leg g).presThreshold ≤ level.val
    → c ∈ s.winLanes g → (s.isHub ∨ g = 0) → ∃ t, exec (.scanReading c level) s = .next t
    ∧ (t.leg g).wakePending = true ∧ (t.leg g).resume = (s.leg g).resume ∧ (s.notices.records = []
    → ∃ n ∈ t.notices.records, n.kind = .wake ∧ n.leg = some g
    ∧ n.data = [byteOf c.val, boolByte (s.leg g).autoWake]) ∧ ((s.leg g).autoWake = false
    → (t.leg g).apart = { (s.leg g).apart with wakePending := true }) ∧ ((s.leg g).autoWake
    → (t.leg g).state = (if s.isHub
    ∧ (∀ j ∈ s.winLanes g, j ≠ c → (s.lane j).presence = .present) then .probe else .listen)
    ∧ (t.leg g).enteredAt = s.time ∧ (t.leg g).retrains = 0 ∧ (t.leg g).holdoff = none ∧ (t.leg g).negRate = none
    ∧ (t.leg g).farId = none ∧ (s.isHub → s.tx.isSome → (t.leg g).queue = (if (s.leg g).farId.isSome then [.phase
    .listen 0 .l] else []) ++ (if (∀ j ∈ s.winLanes g, j ≠ c → (s.lane j).presence = .present) then [.probe (s.ident
    g)] else [])) ∧ (s.isHub = false → (t.leg g).queue = [] ∧ (t.leg g).probeWait = (if (∀ j ∈ s.winLanes g, j ≠ c →
    (s.lane j).presence = .present) then some (s.time + 500000) else none))) ∧ s.othersKept t g ∧ s.tapsKept t
    ∧ s.settingKept t)
  ∧ (∀ (s : State) (c : LaneId) (g : LegId) (level : Fin 64), (s.lane c).owner = some g
    → ((s.leg g).state = .listen ∨ (s.leg g).state = .sleep) → (s.lane c).presence = .present
    → 3 ≤ (s.lane c).debounce → level.val < (s.leg g).presThreshold → (s.isHub ∨ g = 0)
    → ∃ t, exec (.scanReading c level) s = .next t
    ∧ (t.lane c) = { s.lane c with presence := .absent, debounce := 0 } ∧ (∀ k, k ≠ c → t.lane k = s.lane k)
    ∧ (t.leg g).apart =
    { (s.leg g).apart with probeWait := if s.isHub = false ∧ (s.leg g).state = .listen then none else (s.leg g).probeWait }
    ∧ t.notices = s.notices ∧ s.othersKept t g ∧ s.settingKept t)

/-- The probe holdoff's expiry stops it. A HUB leg in LISTEN with every window lane PRESENT then enters PROBE, stamped
with the time base, and posts LEG_STATE with cause FAR_PRESENT; in LISTEN without that it stays. At a HUB the
expiry of a running deadline in TRAIN, ADAPT or VERIFY: a standby verify goes to TRAIN with attempt 1, attempts 1
to 3 go to TRAIN with the next attempt, each with counter 0 and a new 250 ms deadline, and attempt 4 enters FAULT
with TRAIN_FAILED and no deadline. The new attempt opens every window lane's search with the request of R69 and R70
and has PHASE(TRAIN) on its way. The entry to PROBE has the PROBE with the own IDENT on its way, its queue having
the free place that R148 shows. (R24, R28, R22, R32, R36, R68, R69, R70) -/
def Obligations.HubTimersMoveTheLeg : Prop :=
  (∀ (s : State) (g : LegId), s.isHub → (s.leg g).state = .listen → (s.leg g).holdoff ≠ none → s.allPresent g
    → ∃ t, exec (.probeHoldoffExpiry g) s = .next t ∧ (t.leg g).state = .probe ∧ (t.leg g).holdoff = none
    ∧ (t.leg g).enteredAt = s.time ∧ (t.leg g).attempt = none ∧ (s.notices.records = []
    → ∃ n ∈ t.notices.records, n.kind = .legState ∧ n.leg = some g ∧ n.data = [1, 2, 5, 0]) ∧ s.othersKept t g
    ∧ s.outsideKept t g ∧ s.settingKept t ∧ t.port = s.port ∧ ((s.leg g).queue.length < 4
    → t.sends g (.probe (s.ident g))))
  ∧ (∀ (s : State) (g : LegId), (s.leg g).state = .listen → (s.leg g).holdoff ≠ none → s.allPresent g = false
    → ∃ t, exec (.probeHoldoffExpiry g) s = .next t ∧ (t.leg g).apart = { (s.leg g).apart with holdoff := none }
    ∧ s.othersKept t g ∧ t.lanes = s.lanes ∧ t.notices = s.notices ∧ s.settingKept t)
  ∧ (∀ (s : State) (g : LegId) (n : Nat), s.isHub → (s.leg g).deadline ≠ none → (s.leg g).state.attempting
    → (s.leg g).attempt = some n → ((s.leg g).standbyVerify ∨ n < 4)
    → ∃ t, exec (.attemptDeadlineExpiry g) s = .next t ∧ (t.leg g).state = .train
    ∧ (t.leg g).attempt = some (if (s.leg g).standbyVerify then 1 else n + 1) ∧ (t.leg g).errCount = 0
    ∧ (t.leg g).deadline = some (s.time + 250000) ∧ (t.leg g).standbyVerify = false
    ∧ (t.leg g).retrains = (s.leg g).retrains ∧ s.othersKept t g ∧ s.outsideKept t g ∧ s.tapsKept t ∧ s.settingKept t
    ∧ s.BeginsTrain t g (if (s.leg g).standbyVerify then 1 else n + 1) (s.leg g).negRate)
  ∧ (∀ (s : State) (g : LegId) (n : Nat), s.isHub → (s.leg g).deadline ≠ none → (s.leg g).state.attempting
    → (s.leg g).attempt = some n → (s.leg g).standbyVerify = false → 4 ≤ n
    → ∃ t, exec (.attemptDeadlineExpiry g) s = .next t ∧ (t.leg g).state = .fault
    ∧ (t.leg g).lastFault = .trainFailed ∧ (t.leg g).faultCount = min 255 ((s.leg g).faultCount + 1)
    ∧ (t.leg g).attempt = none ∧ (t.leg g).deadline = none ∧ (t.leg g).queue = [] ∧ (t.leg g).negRate = none
    ∧ s.othersKept t g ∧ s.outsideKept t g ∧ s.tapsKept t ∧ s.settingKept t)

/-- At an END in LISTEN the expiry of the running probe wait enters FAULT with ROLE_CONFLICT: the fault count rises, the
queue is flushed, and LEG_FAULT is posted with reason, count and the state left. At an END with the watch running
its expiry stops the watch. In PROBE, TRAIN, ADAPT or VERIFY the leg enters LISTEN; in UP, DEGRADED, STANDBY or
SLEEP the state is kept and sideband lost set; in OFF, LISTEN and FAULT nothing else changes. (R45, R40, R44, R144) -/
def Obligations.EndWatchesExpire : Prop :=
  (∀ (s : State), s.isHub = false → (s.leg 0).state = .listen → (s.leg 0).probeWait ≠ none
    → ∃ t, exec .probeWaitExpiry s = .next t ∧ (t.leg 0).state = .fault ∧ (t.leg 0).lastFault = .roleConflict
    ∧ (t.leg 0).probeWait = none ∧ (t.leg 0).faultCount = min 255 ((s.leg 0).faultCount + 1) ∧ (t.leg 0).queue = []
    ∧ (t.leg 0).farId = none ∧ (s.notices.records = [] → ∃ n ∈ t.notices.records, n.kind = .legFault ∧ n.leg = some 0
    ∧ n.data = [1, byteOf (min 255 ((s.leg 0).faultCount + 1)), 1]) ∧ (∀ k, k ≠ 0 → t.leg k = s.leg k)
    ∧ s.outsideKept t 0 ∧ s.tapsKept t ∧ s.settingKept t)
  ∧ (∀ (s : State), s.isHub = false → s.resp.silence ≠ none → ((s.leg 0).state = .probe ∨ (s.leg 0).state.attempting)
    → ∃ t, exec .hubSilenceExpiry s = .next t ∧ (t.leg 0).state = .listen ∧ (t.leg 0).farId = none
    ∧ (t.leg 0).negRate = none ∧ (t.leg 0).queue = [] ∧ t.resp.silence = none ∧ t.resp.held = none
    ∧ (∀ k, k ≠ 0 → t.leg k = s.leg k) ∧ s.tapsKept t ∧ s.settingKept t)
  ∧ (∀ (s : State), s.isHub = false → s.resp.silence ≠ none → ((s.leg 0).state.inService ∨ (s.leg 0).state = .standby
    ∨ (s.leg 0).state = .sleep) → ∃ t, exec .hubSilenceExpiry s = .next t ∧ t.leg 0 = { s.leg 0 with sbLost := true }
    ∧ t.resp = { s.resp with silence := none } ∧ t.notices = s.notices.post .sidebandLost (some 0) [] s.time
    ∧ t.lanes = s.lanes ∧ (∀ k, k ≠ 0 → t.leg k = s.leg k) ∧ s.settingKept t)
  ∧ (∀ (s : State), s.isHub = false → s.resp.silence ≠ none → (s.leg 0).state.quiet
    → exec .hubSilenceExpiry s = .next { s with resp := { s.resp with silence := none } })

/-- With the timer running its next expiry is 5 ms later. While the engine is busy, a leg with a free place and no queued
keepalive has one appended, and any other queue stays; whatever the engine does, no other part of any leg record,
lane, notice or port changes. A timer that is not running does not expire (the model's reading, log 1). (R136) -/
def Obligations.KeepaliveIsQueued : Prop :=
  (∀ (s : State) (g : LegId) (due : Time), (s.leg g).keepalive = some due → s.tx ≠ none
    → ∃ t, exec (.keepaliveTimerExpiry g) s = .next t ∧ (t.leg g) =
    { s.leg g with keepalive := some (due + 5000),
                   queue := if (s.leg g).queue.length < 4 ∧ Item.keepalive ∉ (s.leg g).queue then (s.leg g).queue ++ [.keepalive] else (s.leg g).queue }
    ∧ (∀ k, k ≠ g → t.leg k = s.leg k) ∧ t = { s with legs := t.legs })
  ∧ (∀ (s : State) (g : LegId) (due : Time), (s.leg g).keepalive = some due
    → ∃ t, exec (.keepaliveTimerExpiry g) s = .next t
    ∧ (t.leg g).apart = { (s.leg g).apart with keepalive := some (due + 5000) } ∧ s.othersKept t g
    ∧ t = { s with legs := t.legs, tx := t.tx, grant := t.grant })
  ∧ (∀ (s : State) (g : LegId), (s.leg g).keepalive = none → exec (.keepaliveTimerExpiry g) s = .next s)

/-- A sent command frame of the transaction in SENDING starts the 200 us reply timer in WAITING; the end of the back-off
resends in SENDING; a good DEFER enters BACKOFF for 100 us, sets the timeouts to 0 and clears a lost sideband. With
no transaction a sent frame changes nothing. The frame of a transaction is laid out by R196, with the command and
item kind of its item, its sequence bit, its data in the codes of R193 and R196 and their CRC-8, the lane index of
an item that names a lane and the beat number of a DRAIN. A lane index or beat number not named is a free value
(log 9), and the item kind 0 of a DRAIN is the model's reading (log 13). (R123, R126, R129, R131, R128, R193, R194,
R196) -/
def Obligations.EngineSendsAndWaits : Prop :=
  (∀ x : Transaction, (∀ d, x.work = .item (.probe d) → readsAsCommand x.frame 1 1 x.seq none none ([d.role,
    d.revision, d.width, d.rateCap] ++ d.serial.toList)) ∧ (∀ ix, x.work = .item (.farFetch .ident ix)
    → readsAsCommand x.frame 2 1 x.seq none none []) ∧ (∀ ix, x.work = .item (.farFetch .status ix)
    → readsAsCommand x.frame 2 2 x.seq none none []) ∧ (∀ ix, x.work = .item (.farFetch .laneInfo ix)
    → readsAsCommand x.frame 2 3 x.seq (some ix) none []) ∧ (x.work = .item .keepalive
    → readsAsCommand x.frame 2 2 x.seq none none []) ∧ (∀ st a r, x.work = .item (.phase st a r)
    → readsAsCommand x.frame 3 4 x.seq none none [byteOf st.code, byteOf a, byteOf r.code])
    ∧ (∀ u, x.work = .item (.storeStatus u) → readsAsCommand x.frame 3 6 x.seq (some u.index) none [byteOf
    u.index.val, byteOf u.pre.code, byteOf u.post.code, byteOf u.taps.pre, byteOf u.taps.main, byteOf u.taps.post])
    ∧ (∀ ix p q, x.work = .item (.exchange ix (.step p q)) → readsAsCommand x.frame 4 5 x.seq (some ix) none [byteOf
    ix.val, 1, byteOf p.code, byteOf q.code]) ∧ (∀ ix n, x.work = .item (.exchange ix (.preset n))
    → readsAsCommand x.frame 4 5 x.seq (some ix) none [byteOf ix.val, 2, byteOf n.val, 0])
    ∧ (∀ ix a b, x.work = .item (.exchange ix (.load a b))
    → readsAsCommand x.frame 4 5 x.seq (some ix) none [byteOf ix.val, 3, byteOf a, byteOf b]) ∧ (x.work = .drain
    → readsAsCommand x.frame 5 0 x.seq none (some x.beat) []) ∧ [PhaseState.listen, .train, .adapt, .verify, .run,
    .standby, .sleep].map PhaseState.code = [1, 3, 4, 5, 6, 8, 9] ∧ [Rate.l, .m, .h].map Rate.code = [0, 1, 2]
    ∧ [StepCode.hold, .inc, .dec].map StepCode.code = [0, 1, 2] ∧ [TapStat.updated, .hold, .atMax, .atMin,
    .mainFloor, .pinned].map TapStat.code = [0, 1, 2, 3, 4, 5])
  ∧ (∀ (s : State) (x : Transaction), s.tx = some x → x.phase = .sending
    → exec (.commandFrameSent x.leg x.seq) s = .next
    { s with tx := some { x with phase := .waiting, replyTimer := some (s.time + 200) } })
  ∧ (∀ (s : State) (x : Transaction), s.tx = some x → x.phase = .backoff → exec .backoffEnd s = .next
    { s with tx := some { x with phase := .sending, backoff := none } })
  ∧ (∀ (s : State) (g : LegId) (x : Transaction) (f : ResponseBody), s.getsReply g x 2 f
    → ∃ t, exec (.sidebandDefer g f) s = .next t
    ∧ t.tx = some { x with phase := .backoff, replyTimer := none, backoff := some (s.time + 100) }
    ∧ t.leg g = { s.leg g with timeouts := 0, sbLost := false } ∧ (∀ k, k ≠ g → t.leg k = s.leg k)
    ∧ t = { s with legs := t.legs, tx := t.tx, notices := t.notices })
  ∧ (∀ (s : State) (g : LegId) (b : Bool), s.tx = none → exec (.commandFrameSent g b) s = .next s)

/-- In WAITING a reply timeout, and likewise a reply with a correct CRC that fails the checks, raises the leg's timeouts
below 2 and resends: the same transaction in SENDING. The third sets the count to 0, hands the failure to the
originator, and declares the sideband lost, by the leg's state. At a HUB that ends the grant: the count of its leg
is 0, and a grant that stands afterwards is a new one with its first transaction. Whatever the transaction carries,
but for a tap request that a search waits for: in UP, DEGRADED, STANDBY and SLEEP the sideband is marked lost and
the state kept; in TRAIN, ADAPT and VERIFY the leg enters LISTEN with cause SIDEBAND_LOSS, and in PROBE with cause
PROBE_FAILED, each with the holdoff running and no PHASE; in LISTEN the state and the flag stay; each posts
SIDEBAND_LOST; in OFF and FAULT nothing but the count moves. A tap request that a search in TRAIN waits for fails
there first: where that ends attempt 4 the leg enters FAULT with TRAIN_FAILED and the declaration does nothing
more, and otherwise the leg enters LISTEN. That a loss in PROBE by a transaction other than the PROBE acts as the
PROBE's failure is the model's reading (log 23). (R128, R129, R130, R39, R30, R133, R76, R77, R78, R36, R154, R158) -/
def Obligations.TimeoutResendsThenLoses : Prop :=
  (∀ (s : State) (x : Transaction), s.tx = some x → x.phase = .waiting → (s.leg x.leg).timeouts < 2
    → ∃ t, exec .replyTimeout s = .next t ∧ t.tx = some { x with phase := .sending, replyTimer := none }
    ∧ t.leg x.leg = { s.leg x.leg with timeouts := (s.leg x.leg).timeouts + 1 }
    ∧ (∀ k, k ≠ x.leg → t.leg k = s.leg k) ∧ t = { s with legs := t.legs, tx := t.tx })
  ∧ (∀ (s : State) (x : Transaction) (low : BitVec 2) (mid : BitVec 2) (f : ResponseBody), s.isHub → s.tx = some x
    → x.phase = .waiting → (s.leg x.leg).timeouts < 2 → responseCrcOk low mid f → replyGood x low mid f = false
    → ∃ t, exec (.replyFailingChecks x.leg low mid f) s = .next t
    ∧ t.tx = some { x with phase := .sending, replyTimer := none }
    ∧ t.leg x.leg = { s.leg x.leg with timeouts := (s.leg x.leg).timeouts + 1 }
    ∧ (∀ k, k ≠ x.leg → t.leg k = s.leg k) ∧ t = { s with legs := t.legs, tx := t.tx })
  ∧ (∀ (s : State) (x : Transaction), s.tx = some x → x.phase = .waiting → s.besideSearch x
    → 2 ≤ (s.leg x.leg).timeouts → ((s.leg x.leg).state.inService ∨ (s.leg x.leg).state = .standby
    ∨ (s.leg x.leg).state = .sleep) → ∃ t, exec .replyTimeout s = .next t ∧ (t.leg x.leg).timeouts = 0
    ∧ (t.leg x.leg).sbLost = true ∧ (t.leg x.leg).state = (s.leg x.leg).state
    ∧ t.notices = s.notices.post .sidebandLost (some x.leg) [] s.time ∧ s.othersKept t x.leg ∧ t.lanes = s.lanes
    ∧ s.settingKept t ∧ (s.isHub → s.grantEnded t))
  ∧ (∀ (s : State) (x : Transaction), s.isHub → s.tx = some x → x.phase = .waiting → s.besideSearch x
    → 2 ≤ (s.leg x.leg).timeouts → (s.leg x.leg).state.attempting → ∃ t, exec .replyTimeout s = .next t
    ∧ (t.leg x.leg).timeouts = 0 ∧ (t.leg x.leg).sbLost = false ∧ (t.leg x.leg).state = .listen
    ∧ (t.leg x.leg).holdoff = some (s.time + 100000) ∧ (t.leg x.leg).retrains = 0 ∧ (t.leg x.leg).farId = none
    ∧ t.noPhase x.leg ∧ (s.notices.records = [] → (∃ n ∈ t.notices.records, n.kind = .legState ∧ n.leg = some x.leg
    ∧ n.data = [byteOf (s.leg x.leg).state.code, 1, 19, 0]) ∧ (∃ n ∈ t.notices.records, n.kind = .sidebandLost
    ∧ n.leg = some x.leg)) ∧ s.othersKept t x.leg ∧ s.tapsKept t ∧ s.settingKept t ∧ s.grantEnded t)
  ∧ (∀ (s : State) (x : Transaction), s.isHub → s.tx = some x → x.phase = .waiting → 2 ≤ (s.leg x.leg).timeouts
    → s.besideSearch x → (s.leg x.leg).state = .probe → ∃ t, exec .replyTimeout s = .next t
    ∧ (t.leg x.leg).timeouts = 0 ∧ (t.leg x.leg).sbLost = false ∧ (t.leg x.leg).state = .listen
    ∧ (t.leg x.leg).holdoff = some (s.time + 100000) ∧ (t.leg x.leg).retrains = 0 ∧ t.noPhase x.leg
    ∧ (s.notices.records = [] → (∃ n ∈ t.notices.records, n.kind = .legState ∧ n.leg = some x.leg
    ∧ n.data = [2, 1, 9, 0]) ∧ (∃ n ∈ t.notices.records, n.kind = .sidebandLost ∧ n.leg = some x.leg))
    ∧ s.othersKept t x.leg ∧ s.tapsKept t ∧ s.settingKept t ∧ s.grantEnded t)
  ∧ (∀ (s : State) (x : Transaction), s.tx = some x → x.phase = .waiting → 2 ≤ (s.leg x.leg).timeouts
    → s.besideSearch x → (s.leg x.leg).state = .listen → ∃ t, exec .replyTimeout s = .next t
    ∧ (t.leg x.leg).apart = { (s.leg x.leg).apart with timeouts := 0 }
    ∧ t.notices = s.notices.post .sidebandLost (some x.leg) [] s.time ∧ s.othersKept t x.leg ∧ t.lanes = s.lanes
    ∧ s.settingKept t ∧ (s.isHub → s.grantEnded t))
  ∧ (∀ (s : State) (x : Transaction), s.tx = some x → x.phase = .waiting → 2 ≤ (s.leg x.leg).timeouts
    → s.besideSearch x → ((s.leg x.leg).state = .off ∨ (s.leg x.leg).state = .fault)
    → ∃ t, exec .replyTimeout s = .next t ∧ (t.leg x.leg).apart = { (s.leg x.leg).apart with timeouts := 0 }
    ∧ t.notices = s.notices ∧ s.othersKept t x.leg ∧ t.lanes = s.lanes ∧ s.settingKept t ∧ (s.isHub
    → s.grantEnded t))
  ∧ (∀ (s : State) (g : LegId) (x : Transaction) (ix : WinIx) (q : TapRequest) (k : Search) (n : Nat), s.isHub
    → s.tx = some x → x.phase = .waiting → 2 ≤ (s.leg x.leg).timeouts → x.leg = g → x.work = .item (.exchange ix q)
    → s.hasIndex g ix → x.live → (s.leg g).state = .train → (s.lane (s.winLane g ix)).search = some k
    → k.waiting = some .status → (s.leg g).attempt = some n → 1 ≤ n → (s.leg g).standbyVerify = false → (n < 4
    ∨ 0 < k.best ∨ k.request = .opening ∨ (k.steps < 32 ∧ (k.tap = .post ∨ (k.gained = false ∧ k.dir = .inc))))
    → ∃ t, exec .replyTimeout s = .next t ∧ (t.leg g).timeouts = 0 ∧ (t.leg g).sbLost = false
    ∧ (t.leg g).state = .listen ∧ (t.leg g).holdoff = some (s.time + 100000) ∧ t.noPhase g ∧ s.othersKept t g
    ∧ s.tapsKept t ∧ s.settingKept t ∧ s.grantEnded t)
  ∧ (∀ (s : State) (g : LegId) (x : Transaction) (ix : WinIx) (q : TapRequest) (k : Search) (n : Nat), s.isHub
    → s.tx = some x → x.phase = .waiting → 2 ≤ (s.leg x.leg).timeouts → x.leg = g → x.work = .item (.exchange ix q)
    → s.hasIndex g ix → x.live → (s.leg g).state = .train → (s.lane (s.winLane g ix)).search = some k
    → k.waiting = some .status → (s.leg g).attempt = some n → 1 ≤ n → (s.leg g).standbyVerify = false → 4 ≤ n
    → k.best = 0 → k.request ≠ .opening → (32 ≤ k.steps ∨ (k.tap = .pre ∧ (k.gained ∨ k.dir = .dec)))
    → ∃ t, exec .replyTimeout s = .next t ∧ (t.leg g).timeouts = 0 ∧ s.AttemptFailed t g n ∧ s.othersKept t g
    ∧ s.tapsKept t ∧ s.settingKept t ∧ s.grantEnded t)

/-- The far status takes the state, attention level, error counter and lost flag of the item with the time of the reply;
timeouts become 0 and sideband lost no; the rest of the leg, apart from the arbiter's moves, and all lanes stay. It
is recorded in every state of the leg, FAULT included (the model's reading, log 18). (R128, R136, R137) -/
def Obligations.KeepaliveAckSetsFarStatus : Prop :=
  ∀ (s : State) (g : LegId) (x : Transaction) (f : ResponseBody), s.getsReply g x 1 f → x.work = .item .keepalive
    → ∃ t, exec (.sidebandAck g f) s = .next t ∧ (∃ st, (t.leg g).farStatus = some st
    ∧ st.state.code = natAt f.data 0 ∧ st.attention = natAt f.data 1 ∧ st.errCount = natAt f.data 2
    ∧ boolByte st.lost = f.data.getD 3 0 ∧ st.time = s.time) ∧ (t.leg g).apart =
    { (s.leg g).apart with farStatus := (t.leg g).farStatus, timeouts := 0, sbLost := false } ∧ s.othersKept t g
    ∧ t.lanes = s.lanes ∧ s.settingKept t ∧ t.port = s.port

/-- At a HUB leg in PROBE with a window: a role other than END faults with ROLE_CONFLICT, another width with
WIDTH_MISMATCH, a rate cap code above 2 with RATE_MISMATCH; otherwise the leg enters TRAIN with attempt 1, the far
identity as received, the lower rate cap as negotiated rate and a 250 ms deadline. Every window lane's search opens
with the request of R70. SERIAL_MISMATCH is posted on the way to TRAIN exactly where the cable serials differ. A
REFUSE in PROBE returns the leg to LISTEN with cause PROBE_REFUSED and the probe holdoff of 100 ms, with
PHASE(LISTEN) on its way where the reason is WRONG_STATE and no PHASE otherwise. A failure in PROBE, by the third
timeout or by expiry, returns it to LISTEN with cause PROBE_FAILED and the holdoff, posts SIDEBAND_LOST, and queues
no PHASE and sets no flag; an expiry also posts DEFER_EXPIRED, whose lane byte is a free value (log 9), and leaves
the timeouts. An ACK or a REFUSE taken outside PROBE does nothing but what every good reply does. (R29, R30, R32,
R68, R70, R128, R130, R132, R133) -/
def Obligations.ProbeAckIsChecked : Prop :=
  (∀ (s : State) (g : LegId) (x : Transaction) (f : ResponseBody) (w : Window) (id : Ident), s.getsReply g x 1 f
    → x.work = .item (.probe id) → (s.leg g).state = .probe → (s.leg g).window = some w
    → ∃ t, exec (.sidebandAck g f) s = .next t ∧ (natAt f.data 0 ≠ 1 → (t.leg g).state = .fault
    ∧ (t.leg g).lastFault = .roleConflict) ∧ (natAt f.data 0 = 1 → natAt f.data 2 ≠ w.w → (t.leg g).state = .fault
    ∧ (t.leg g).lastFault = .widthMismatch) ∧ (natAt f.data 0 = 1 → natAt f.data 2 = w.w → 2 < natAt f.data 3
    → (t.leg g).state = .fault ∧ (t.leg g).lastFault = .rateMismatch) ∧ (natAt f.data 0 = 1 → natAt f.data 2 = w.w
    → natAt f.data 3 ≤ 2 → s.BeginsTrain t g 1 (t.leg g).negRate ∧ (t.leg g).farId = some (parseIdent f.data)
    ∧ (t.leg g).negRate.map Rate.code = some (min (s.leg g).rateCap.code (natAt f.data 3))) ∧ s.othersKept t g
    ∧ s.outsideKept t g ∧ s.tapsKept t ∧ s.settingKept t ∧ (s.notices.records = [] → natAt f.data 0 = 1
    → natAt f.data 2 = w.w → natAt f.data 3 ≤ 2 → (serialAt f.data 4 ≠ s.cable.serial
    → ∃ n ∈ t.notices.records, n.kind = .serialMismatch ∧ n.leg = some g) ∧ (serialAt f.data 4 = s.cable.serial
    → ∀ n ∈ t.notices.records, n.kind ≠ .serialMismatch)))
  ∧ (∀ (s : State) (g : LegId) (x : Transaction) (f : ResponseBody) (id : Ident), s.getsReply g x 3 f
    → x.work = .item (.probe id) → (s.leg g).state = .probe → ∃ t, exec (.sidebandRefuse g f) s = .next t
    ∧ (t.leg g).state = .listen ∧ (t.leg g).enteredAt = s.time ∧ (t.leg g).holdoff = some (s.time + 100000)
    ∧ (t.leg g).retrains = 0 ∧ (t.leg g).farId = none ∧ (t.leg g).sbLost = false ∧ (t.leg g).timeouts = 0
    ∧ (s.notices.records = [] → ∃ n ∈ t.notices.records, n.kind = .legState ∧ n.leg = some g ∧ n.data = [2, 1, 8, 0])
    ∧ (f.reason = 2 → t.sends g (.phase .listen 0 .l)) ∧ (f.reason ≠ 2 → t.noPhase g) ∧ s.othersKept t g
    ∧ s.outsideKept t g ∧ s.tapsKept t ∧ s.settingKept t)
  ∧ (∀ (s : State) (g : LegId) (x : Transaction) (id : Ident), s.isHub → s.tx = some x → x.phase = .waiting
    → 2 ≤ (s.leg x.leg).timeouts → x.leg = g → x.work = .item (.probe id) → (s.leg g).state = .probe
    → ∃ t, exec .replyTimeout s = .next t ∧ (t.leg g).state = .listen ∧ (t.leg g).enteredAt = s.time
    ∧ (t.leg g).holdoff = some (s.time + 100000) ∧ (t.leg g).retrains = 0 ∧ (t.leg g).farId = none
    ∧ (t.leg g).sbLost = false ∧ (t.leg g).timeouts = 0 ∧ (s.notices.records = []
    → ∃ n ∈ t.notices.records, n.kind = .legState ∧ n.leg = some g ∧ n.data = [2, 1, 9, 0]) ∧ t.noPhase g
    ∧ (s.notices.records = [] → ∃ n ∈ t.notices.records, n.kind = .sidebandLost ∧ n.leg = some g) ∧ s.othersKept t g
    ∧ s.outsideKept t g ∧ s.tapsKept t ∧ s.settingKept t)
  ∧ (∀ (s : State) (g : LegId) (x : Transaction) (id : Ident), s.isHub → s.tx = some x → x.leg = g
    → x.work = .item (.probe id) → (s.leg g).state = .probe → ∃ t, exec .transactionExpiry s = .next t
    ∧ (t.leg g).state = .listen ∧ (t.leg g).enteredAt = s.time ∧ (t.leg g).holdoff = some (s.time + 100000)
    ∧ (t.leg g).retrains = 0 ∧ (t.leg g).farId = none ∧ (t.leg g).sbLost = false
    ∧ (t.leg g).timeouts = (s.leg g).timeouts ∧ (s.notices.records = [] → ∃ n ∈ t.notices.records, n.kind = .legState
    ∧ n.leg = some g ∧ n.data = [2, 1, 9, 0]) ∧ t.noPhase g ∧ (s.notices.records = []
    → (∃ n ∈ t.notices.records, n.kind = .sidebandLost ∧ n.leg = some g)
    ∧ (∃ n ∈ t.notices.records, n.kind = .deferExpired ∧ n.leg = some g
    ∧ n.data = [1, 1, byteOf x.work.laneField.val])) ∧ s.othersKept t g ∧ s.outsideKept t g ∧ s.tapsKept t
    ∧ s.settingKept t)
  ∧ (∀ (s : State) (g : LegId) (x : Transaction) (f : ResponseBody) (id : Ident), s.getsReply g x 1 f
    → x.work = .item (.probe id) → (s.leg g).state ≠ .probe → ∃ t, exec (.sidebandAck g f) s = .next t
    ∧ (t.leg g).apart = { (s.leg g).apart with timeouts := 0, sbLost := false } ∧ t.lanes = s.lanes
    ∧ s.othersKept t g ∧ s.settingKept t)
  ∧ (∀ (s : State) (g : LegId) (x : Transaction) (f : ResponseBody) (id : Ident), s.getsReply g x 3 f
    → x.work = .item (.probe id) → (s.leg g).state ≠ .probe → ∃ t, exec (.sidebandRefuse g f) s = .next t
    ∧ (t.leg g).apart = { (s.leg g).apart with timeouts := 0, sbLost := false } ∧ t.lanes = s.lanes
    ∧ s.othersKept t g ∧ s.settingKept t)

/-- A good ACK of an EXCHANGE for a window index of the leg sets that lane's far taps to the pre, main and post of its
TAP_STATUS, whatever the statuses, whether or not the search still stands, and in every state of the leg, FAULT
included (the model's reading, log 18); no other lane's far taps and no local taps, pin or settle change. In TRAIN
the search that formed the request takes the status: the opening waits to measure; PINNED or the 32nd step ends the
lane; a step with UPDATED waits to measure; a step that did not move, and every undo, turns to DEC where nothing
was gained in INC, else POST is followed by PRE, and PRE ends the lane. A lane with best merit 0 fails the attempt,
and the last lane done sets the local trained mark or begins ADAPT. A status for a search that stands no more, or
that waits for none, leaves every search. REFUSE with BAD_LANE or BAD_VALUE fails the attempt at once. REFUSE with
WRONG_STATE and expiry are failures: the opening counts a step and is measured, a step or undo is decided as one
without gain. That the search takes a status PINNED in one field only as PINNED, and HOLD for the searched field as
no move, is the model's reading (log 15). (R17, R59, R67, R72, R74, R75, R76, R77, R78, R79, R36, R33) -/
def Obligations.ExchangeAckSetsFarTaps : Prop :=
  (∀ (s : State) (g : LegId) (x : Transaction) (f : ResponseBody) (ix : WinIx) (q : TapRequest), s.getsReply g x 1 f
    → x.work = .item (.exchange ix q) → s.hasIndex g ix → ∃ t, exec (.sidebandAck g f) s = .next t
    ∧ (t.lane (s.winLane g ix)).farTaps = some ⟨natAt f.data 3, natAt f.data 4, natAt f.data 5⟩
    ∧ (∀ c, c ≠ s.winLane g ix → (t.lane c).farTaps = (s.lane c).farTaps) ∧ (∀ c, (t.lane c).taps = (s.lane c).taps
    ∧ (t.lane c).pinned = (s.lane c).pinned ∧ (t.lane c).settleUntil = (s.lane c).settleUntil) ∧ s.othersKept t g)
  ∧ (∀ (s : State) (g : LegId) (x : Transaction) (f : ResponseBody) (ix : WinIx) (q : TapRequest) (k : Search) (u :
    TapStatus) (n : Nat), s.getsReply g x 1 f → x.work = .item (.exchange ix q) → s.hasIndex g ix → x.live
    → (s.leg g).state = .train → (s.lane (s.winLane g ix)).search = some k → k.waiting = some .status
    → parseTapStatus ix f.data = some u → (s.leg g).attempt = some n → 1 ≤ n → (s.leg g).standbyVerify = false
    → ∃ t, exec (.sidebandAck g f) s = .next t ∧ s.SearchTakes t g ix k u n ∧ s.othersKept t g)
  ∧ (∀ (s : State) (g : LegId) (x : Transaction) (f : ResponseBody) (ix : WinIx) (q : TapRequest), s.getsReply g x 1
    f → x.work = .item (.exchange ix q) → s.hasIndex g ix → (x.live = false
    ∨ (s.lane (s.winLane g ix)).search.map Search.waiting ≠ some (some .status))
    → ∃ t, exec (.sidebandAck g f) s = .next t ∧ (∀ c, (t.lane c).search = (s.lane c).search)
    ∧ (t.leg g).state = (s.leg g).state ∧ s.othersKept t g)
  ∧ (∀ (s : State) (g : LegId) (x : Transaction) (f : ResponseBody) (ix : WinIx) (q : TapRequest) (k : Search) (n :
    Nat), s.getsReply g x 3 f → x.work = .item (.exchange ix q) → s.hasIndex g ix → x.live → (s.leg g).state = .train
    → (s.lane (s.winLane g ix)).search = some k → k.waiting = some .status → (f.reason = 3 ∨ f.reason = 4)
    → (s.leg g).attempt = some n → 1 ≤ n → (s.leg g).standbyVerify = false
    → ∃ t, exec (.sidebandRefuse g f) s = .next t ∧ s.AttemptFailed t g n ∧ s.tapsKept t ∧ s.othersKept t g)
  ∧ (∀ (s : State) (g : LegId) (x : Transaction) (f : ResponseBody) (ix : WinIx) (q : TapRequest) (k : Search) (n :
    Nat), s.getsReply g x 3 f → x.work = .item (.exchange ix q) → s.hasIndex g ix → x.live → (s.leg g).state = .train
    → (s.lane (s.winLane g ix)).search = some k → k.waiting = some .status → f.reason = 2
    → (s.leg g).attempt = some n → 1 ≤ n → (s.leg g).standbyVerify = false
    → ∃ t, exec (.sidebandRefuse g f) s = .next t ∧ s.SearchMisses t g ix k n ∧ s.tapsKept t ∧ s.othersKept t g)
  ∧ (∀ (s : State) (g : LegId) (x : Transaction) (ix : WinIx) (q : TapRequest) (k : Search) (n : Nat), s.isHub
    → s.tx = some x → x.leg = g → x.work = .item (.exchange ix q) → s.hasIndex g ix → x.live
    → (s.leg g).state = .train → (s.lane (s.winLane g ix)).search = some k → k.waiting = some .status
    → (s.leg g).attempt = some n → 1 ≤ n → (s.leg g).standbyVerify = false → ∃ t, exec .transactionExpiry s = .next t
    ∧ s.SearchMisses t g ix k n ∧ s.tapsKept t ∧ s.othersKept t g)

/-- The ACK of a DRAIN: with no item or no more, beat taken and the drain-done mark are yes and the grant ends. A
TAP_REQUEST in TRAIN for a window index whose lane has lawful taps is applied to the local taps and its TAP_STATUS
is queued or held; any other is discarded. TRAIN_DONE in TRAIN with the leg's attempt sets the far trained mark, or
begins ADAPT where this end is trained. VERIFY_RESULT in VERIFY with the leg's attempt is kept, or with the local
result there enters UP where both pass, handing the learned entries over, or fails the attempt. A RETRAIN_REQUEST
in UP or DEGRADED below three retrains enters TRAIN with attempt 1 and opens every lane's search, and at three
enters FAULT with ERROR_LIMIT. A POWER_REQUEST is decided by the table of R108: STANDBY in UP and DEGRADED; SLEEP
in UP, DEGRADED, STANDBY and LISTEN, with resume set unless in LISTEN; ACTIVE enters VERIFY as a standby verify
from STANDBY and LISTEN, or PROBE, from SLEEP, and is otherwise accepted without effect; others are refused. The
END is told of an accepted request: PHASE(STANDBY), and PHASE(SLEEP) but for a SLEEP from LISTEN, is on its way at
the negotiated rate; for ACTIVE in STANDBY it is PHASE(VERIFY, 4), and in SLEEP PHASE(LISTEN) where the far
identity was present and none otherwise, with a PROBE where every lane is PRESENT. FAR_POWER is posted with the
request, whether it was accepted and the state after it. The other items taken in another state, and every item in
FAULT, change nothing but what every good ACK does. (R143, R60, R61, R33, R35, R37, R101, R108, R116, R158, R153,
R159) -/
def Obligations.DrainedItemsAreApplied : Prop :=
  (∀ (s : State) (g : LegId) (x : Transaction) (f : ResponseBody), s.getsReply g x 1 f → x.work = .drain
    → (f.item = 0 ∨ f.more = false) → ∃ t, exec (.sidebandAck g f) s = .next t ∧ (t.leg g).beatTaken = true
    ∧ (t.leg g).drainDone = true ∧ (∀ k, k ≠ g → (t.leg k).state = (s.leg k).state)
    ∧ (∀ k, (t.lane k).pinned = (s.lane k).pinned) ∧ s.grantEnded t)
  ∧ (∀ (s : State) (g : LegId) (x : Transaction) (f : ResponseBody) (q : TapRequest) (i : WinIx), s.getsReply g x 1 f
    → x.work = .drain → f.item = 5 → parseTapRequest f.data = some q → natAt f.data 0 = i.val → s.hasIndex g i
    → (s.leg g).state = .train → (s.lane (s.winLane g i)).taps.lawful → ∃ t, exec (.sidebandAck g f) s = .next t
    ∧ (t.lane (s.winLane g i)).taps = (s.tapOutcome g i q).taps ∧ (∀ c, c ≠ s.winLane g i → t.lane c = s.lane c)
    ∧ (t.leg g).state = .train ∧ s.othersKept t g ∧ s.settingKept t ∧ t.sends g (.storeStatus (s.tapOutcome g i q)))
  ∧ (∀ (s : State) (g : LegId) (x : Transaction) (f : ResponseBody), s.getsReply g x 1 f → x.work = .drain
    → f.item = 9 → (s.leg g).state.inService → (s.leg g).retrains < 3 → ∃ t, exec (.sidebandAck g f) s = .next t
    ∧ s.BeginsTrain t g 1 (s.leg g).negRate ∧ (t.leg g).retrains = (s.leg g).retrains + 1 ∧ (t.leg g).errCount = 0
    ∧ s.tapsKept t ∧ s.othersKept t g)
  ∧ (∀ (s : State) (g : LegId) (x : Transaction) (f : ResponseBody), s.getsReply g x 1 f → x.work = .drain
    → f.item = 10 → f.data = [1] → (s.leg g).state.inService → ∃ t, exec (.sidebandAck g f) s = .next t
    ∧ (t.leg g).state = .standby ∧ (t.leg g).resume = (s.leg g).resume ∧ (t.leg g).errCount = (s.leg g).errCount
    ∧ s.tapsKept t ∧ s.othersKept t g ∧ (s.notices.records = [] → ∃ n ∈ t.notices.records, n.kind = .farPower
    ∧ n.leg = some g ∧ n.data = [1, 0, byteOf (t.leg g).state.code]) ∧ (∀ rt, (s.leg g).negRate = some rt
    → t.sends g (.phase .standby 0 rt)))
  ∧ (∀ (s : State) (g : LegId) (x : Transaction) (f : ResponseBody), s.getsReply g x 1 f → x.work = .drain
    → f.item = 5 → ((s.leg g).state ≠ .train ∨ parseTapRequest f.data = none ∨ ∀ i : WinIx, natAt f.data 0 = i.val
    → s.hasIndex g i = false) → ∃ t, exec (.sidebandAck g f) s = .next t ∧ (t.leg g).apart =
    { (s.leg g).apart with timeouts := 0, sbLost := false, drainDone := (t.leg g).drainDone }
    ∧ (∀ k, (t.leg k).state = (s.leg k).state) ∧ t.lanes = s.lanes ∧ s.settingKept t)
  ∧ (∀ (s : State) (g : LegId) (x : Transaction) (f : ResponseBody), s.getsReply g x 1 f → x.work = .drain
    → f.item = 9 → (s.leg g).state.inService → 3 ≤ (s.leg g).retrains → ∃ t, exec (.sidebandAck g f) s = .next t
    ∧ (t.leg g).state = .fault ∧ (t.leg g).lastFault = .errorLimit ∧ (t.leg g).retrains = (s.leg g).retrains
    ∧ s.tapsKept t ∧ s.othersKept t g)
  ∧ (∀ (s : State) (g : LegId) (x : Transaction) (f : ResponseBody), s.getsReply g x 1 f → x.work = .drain
    → f.item = 9 → (s.leg g).state.inService = false → ∃ t, exec (.sidebandAck g f) s = .next t ∧ (t.leg g).apart =
    { (s.leg g).apart with timeouts := 0, sbLost := false, drainDone := (t.leg g).drainDone }
    ∧ (∀ k, (t.leg k).state = (s.leg k).state) ∧ t.lanes = s.lanes ∧ s.settingKept t)
  ∧ (∀ (s : State) (g : LegId) (x : Transaction) (f : ResponseBody) (n : Nat), s.getsReply g x 1 f → x.work = .drain
    → f.item = 7 → n = natAt f.data 0 → (s.leg g).state = .train → (s.leg g).attempt = some n
    → ∃ t, exec (.sidebandAck g f) s = .next t
    ∧ (if (s.leg g).localTrained then s.BeginsAdapt t g n else (t.leg g).state = .train
    ∧ (t.leg g).farTrained = true) ∧ s.tapsKept t ∧ s.othersKept t g ∧ s.settingKept t)
  ∧ (∀ (s : State) (g : LegId) (x : Transaction) (f : ResponseBody), s.getsReply g x 1 f → x.work = .drain
    → f.item = 7 → ((s.leg g).state ≠ .train ∨ (s.leg g).attempt ≠ some (natAt f.data 0))
    → ∃ t, exec (.sidebandAck g f) s = .next t ∧ (t.leg g).apart =
    { (s.leg g).apart with timeouts := 0, sbLost := false, drainDone := (t.leg g).drainDone }
    ∧ (∀ k, (t.leg k).state = (s.leg k).state) ∧ t.lanes = s.lanes ∧ s.settingKept t)
  ∧ (∀ (s : State) (g : LegId) (x : Transaction) (f : ResponseBody) (n : Nat) (rt : Rate), s.getsReply g x 1 f
    → x.work = .drain → f.item = 8 → n = natAt f.data 0 → natAt f.data 1 ≤ 1 → (s.leg g).state = .verify
    → (s.leg g).attempt = some n → (s.leg g).negRate = some rt → ∃ t, exec (.sidebandAck g f) s = .next t
    ∧ ((s.leg g).localVerify = none → (t.leg g).state = .verify ∧ (t.leg g).farVerify = some (natAt f.data 1 == 1))
    ∧ (∀ b, (s.leg g).localVerify = some b
    → if b && natAt f.data 1 == 1 then s.CameUp t g rt else s.AttemptFailed t g n) ∧ s.tapsKept t ∧ s.othersKept t g)
  ∧ (∀ (s : State) (g : LegId) (x : Transaction) (f : ResponseBody), s.getsReply g x 1 f → x.work = .drain
    → f.item = 8 → ((s.leg g).state ≠ .verify ∨ (s.leg g).attempt ≠ some (natAt f.data 0))
    → ∃ t, exec (.sidebandAck g f) s = .next t ∧ (t.leg g).apart =
    { (s.leg g).apart with timeouts := 0, sbLost := false, drainDone := (t.leg g).drainDone }
    ∧ (∀ k, (t.leg k).state = (s.leg k).state) ∧ t.lanes = s.lanes ∧ s.settingKept t)
  ∧ (∀ (s : State) (g : LegId) (x : Transaction) (f : ResponseBody), s.getsReply g x 1 f → x.work = .drain
    → f.item = 10 → f.data = [2] → ((s.leg g).state.inService ∨ (s.leg g).state = .standby
    ∨ (s.leg g).state = .listen) → ∃ t, exec (.sidebandAck g f) s = .next t ∧ (t.leg g).state = .sleep
    ∧ (t.leg g).resume = ((s.leg g).resume || (s.leg g).state != .listen) ∧ (t.leg g).errCount = (s.leg g).errCount
    ∧ (s.notices.records = [] → ∃ n ∈ t.notices.records, n.kind = .farPower ∧ n.leg = some g
    ∧ n.data = [2, 0, byteOf (t.leg g).state.code]) ∧ s.tapsKept t ∧ s.othersKept t g
    ∧ (∀ rt, (s.leg g).negRate = some rt → (s.leg g).state ≠ .listen → t.sends g (.phase .sleep 0 rt))
    ∧ ((s.leg g).state = .listen → s.noPhase g → t.noPhase g))
  ∧ (∀ (s : State) (g : LegId) (x : Transaction) (f : ResponseBody), s.getsReply g x 1 f → x.work = .drain
    → f.item = 10 → f.data = [0] → (s.leg g).state = .standby → ∃ t, exec (.sidebandAck g f) s = .next t
    ∧ s.BeginsVerify t g 4 ∧ (t.leg g).standbyVerify = true ∧ (s.notices.records = []
    → ∃ n ∈ t.notices.records, n.kind = .farPower ∧ n.leg = some g ∧ n.data = [0, 0, byteOf (t.leg g).state.code])
    ∧ s.tapsKept t ∧ s.othersKept t g)
  ∧ (∀ (s : State) (g : LegId) (x : Transaction) (f : ResponseBody), s.getsReply g x 1 f → x.work = .drain
    → f.item = 10 → f.data = [0] → (s.leg g).state = .sleep → ∃ t, exec (.sidebandAck g f) s = .next t
    ∧ (t.leg g).state = (if s.allPresent g then .probe else .listen) ∧ (t.leg g).resume = (s.leg g).resume
    ∧ (t.leg g).holdoff = none ∧ (t.leg g).retrains = 0 ∧ (s.notices.records = []
    → ∃ n ∈ t.notices.records, n.kind = .farPower ∧ n.leg = some g ∧ n.data = [0, 0, byteOf (t.leg g).state.code])
    ∧ s.tapsKept t ∧ s.othersKept t g ∧ ((s.leg g).farId ≠ none → t.sends g (.phase .listen 0 .l))
    ∧ ((s.leg g).farId = none → t.noPhase g) ∧ (s.allPresent g → t.sends g (.probe (s.ident g))))
  ∧ (∀ (s : State) (g : LegId) (x : Transaction) (f : ResponseBody) (code : Byte), s.getsReply g x 1 f
    → x.work = .drain → f.item = 10 → f.data = [code] → (s.leg g).state ≠ .fault → ((code = 0
    ∧ (s.leg g).state ≠ .standby ∧ (s.leg g).state ≠ .sleep) ∨ (code = 1 ∧ (s.leg g).state.inService = false)
    ∨ (code = 2 ∧ (s.leg g).state.inService = false ∧ (s.leg g).state ≠ .standby ∧ (s.leg g).state ≠ .listen)
    ∨ 2 < code.toNat) → ∃ t, exec (.sidebandAck g f) s = .next t ∧ (t.leg g).apart =
    { (s.leg g).apart with timeouts := 0, sbLost := false, drainDone := (t.leg g).drainDone }
    ∧ (s.notices.records = [] → ∃ n ∈ t.notices.records, n.kind = .farPower ∧ n.leg = some g
    ∧ n.data = [code, if code = 0 then 0 else 1, byteOf (t.leg g).state.code])
    ∧ (∀ k, (t.leg k).state = (s.leg k).state) ∧ t.lanes = s.lanes ∧ s.settingKept t)
  ∧ (∀ (s : State) (g : LegId) (x : Transaction) (f : ResponseBody), s.getsReply g x 1 f → x.work = .drain
    → (s.leg g).state = .fault → ∃ t, exec (.sidebandAck g f) s = .next t ∧ (t.leg g).apart =
    { (s.leg g).apart with timeouts := 0, sbLost := false, drainDone := (t.leg g).drainDone }
    ∧ (∀ k, (t.leg k).state = (s.leg k).state) ∧ t.lanes = s.lanes ∧ s.settingKept t)

/-- A good REFUSE of a PHASE naming a state other than LISTEN, taken in any state but OFF, LISTEN and FAULT, enters FAULT
with FAR_REFUSED; a refused PHASE(LISTEN), or one taken in LISTEN, leaves the leg's state. A good REFUSE of a
keepalive, a STORE TAP_STATUS or a DRAIN is discarded: it does what every good reply does and hands nothing on;
that of a DRAIN ends the grant. (R40, R133, R137, R143, R158) -/
def Obligations.PhaseRefusalFaults : Prop :=
  (∀ (s : State) (g : LegId) (x : Transaction) (f : ResponseBody) (st : PhaseState) (a : Nat) (r : Rate), s.getsReply
    g x 3 f → x.work = .item (.phase st a r) → st ≠ .listen → ((s.leg g).state ≠ .off ∧ (s.leg g).state ≠ .listen
    ∧ (s.leg g).state ≠ .fault) → ∃ t, exec (.sidebandRefuse g f) s = .next t ∧ (t.leg g).state = .fault
    ∧ (t.leg g).lastFault = .farRefused ∧ (t.leg g).faultCount = min 255 ((s.leg g).faultCount + 1)
    ∧ (t.leg g).queue = [] ∧ (t.leg g).negRate = none ∧ s.othersKept t g ∧ s.outsideKept t g ∧ s.tapsKept t
    ∧ s.settingKept t)
  ∧ (∀ (s : State) (g : LegId) (x : Transaction) (f : ResponseBody) (st : PhaseState) (a : Nat) (r : Rate),
    s.getsReply g x 3 f → x.work = .item (.phase st a r) → (st = .listen ∨ (s.leg g).state = .listen)
    → ∃ t, exec (.sidebandRefuse g f) s = .next t
    ∧ (t.leg g).apart = { (s.leg g).apart with timeouts := 0, sbLost := false } ∧ s.othersKept t g
    ∧ t.lanes = s.lanes ∧ s.settingKept t)
  ∧ (∀ (s : State) (g : LegId) (x : Transaction) (f : ResponseBody), s.getsReply g x 3 f
    → (x.work = .item .keepalive ∨ x.work = .drain) → ∃ t, exec (.sidebandRefuse g f) s = .next t
    ∧ (t.leg g).apart = { (s.leg g).apart with timeouts := 0, sbLost := false } ∧ s.othersKept t g
    ∧ t.lanes = s.lanes ∧ s.settingKept t ∧ t.port = s.port ∧ (x.work = .drain → s.grantEnded t))
  ∧ (∀ (s : State) (g : LegId) (x : Transaction) (f : ResponseBody) (u : TapStatus), s.getsReply g x 3 f
    → x.work = .item (.storeStatus u) → ∃ t, exec (.sidebandRefuse g f) s = .next t
    ∧ (t.leg g).apart = { (s.leg g).apart with timeouts := 0, sbLost := false } ∧ s.othersKept t g
    ∧ t.lanes = s.lanes ∧ s.settingKept t ∧ t.port = s.port)

/-- Whatever the transaction carries, but for a PROBE in PROBE (ProbeAckIsChecked) and a tap request that a search waits
for (ExchangeAckSetsFarTaps): DEFER_EXPIRED is posted with the command kind, item kind and lane index, no leg's
state, timeouts or flags and no lane change, and, where no leg has anything queued or signalled, the engine is FREE
with no grant. A DRAIN's failure ends its grant and keeps its beat number and beat taken at no, so the leg's next
DRAIN repeats the number. The lane index byte of an item that names no lane is the free value of log 9, and the
item kind 0 of a DRAIN is the model's reading (log 13). That an expiry with no transaction in flight changes
nothing is the model's choice (log 1). (R132, R133, R143, R158) -/
def Obligations.ExpiryEndsTheTransaction : Prop :=
  (∀ x : Transaction, (x.work = .item .keepalive → x.expiryData = [2, 2, byteOf x.work.laneField.val])
    ∧ (x.work = .drain → x.expiryData = [5, 0, byteOf x.work.laneField.val]) ∧ (∀ d, x.work = .item (.probe d)
    → x.expiryData = [1, 1, byteOf x.work.laneField.val]) ∧ (∀ st a r, x.work = .item (.phase st a r)
    → x.expiryData = [3, 4, byteOf x.work.laneField.val]) ∧ (∀ u, x.work = .item (.storeStatus u)
    → x.expiryData = [3, 6, byteOf u.index.val]) ∧ (∀ ix q, x.work = .item (.exchange ix q)
    → x.expiryData = [4, 5, byteOf ix.val]) ∧ (∀ k ix, x.work = .item (.farFetch k ix) → x.expiryData = [2, fetchCode
    k, if k = .laneInfo then byteOf ix.val else byteOf x.work.laneField.val]))
  ∧ (∀ (s : State) (x : Transaction), s.isHub → s.tx = some x → s.besideSearch x
    → (¬(x.work.isProbe ∧ (s.leg x.leg).state = .probe)) → ∃ t, exec .transactionExpiry s = .next t
    ∧ t.notices = s.notices.post .deferExpired (some x.leg) x.expiryData s.time ∧ s.legsKept t ∧ t.lanes = s.lanes
    ∧ (s.port.slot.map Slot.kind ≠ some 0x0E → t.port = s.port) ∧ s.settingKept t ∧ ((∀ k, (s.leg k).queue = []
    ∧ (s.leg k).beacon = 0) → t.tx = none ∧ t.grant = none))
  ∧ (∀ (s : State) (x : Transaction), s.isHub → s.tx = some x → x.work = .drain → (s.leg x.leg).beatTaken = false
    → ∃ t, exec .transactionExpiry s = .next t ∧ (t.leg x.leg).beat = (s.leg x.leg).beat
    ∧ (t.leg x.leg).beatTaken = false ∧ s.grantEnded t ∧ s.legsKept t ∧ t.port = s.port ∧ s.settingKept t)
  ∧ (∀ (s : State), s.tx = none → exec .transactionExpiry s = .next s)

/-- At a HUB with no transaction of the leg in flight a beacon with a correct CRC sets the leg's beacon level, and
silence sets it to 0; either clears the drain-done mark. A wrong CRC, a transaction of the leg in flight, or an END
changes nothing. That an END takes no beacon and no silence is the model's reading (log 29). (R125, R153, R196) -/
def Obligations.BeaconSetsTheLevel : Prop :=
  (∀ (s : State) (g : LegId) (level : Fin 4) (crc : Byte), s.watchesBeacon g → crc = crc8 [byteOf (0x20 + level.val)]
    → ∃ t, exec (.beaconReceived g level crc) s = .next t
    ∧ (t.leg g).apart = { (s.leg g).apart with beacon := level, drainDone := false } ∧ s.othersKept t g
    ∧ t = { s with legs := t.legs, tx := t.tx, grant := t.grant })
  ∧ (∀ (s : State) (g : LegId), s.watchesBeacon g → ∃ t, exec (.beaconSilence g) s = .next t
    ∧ (t.leg g).apart = { (s.leg g).apart with beacon := 0, drainDone := false } ∧ s.othersKept t g
    ∧ t = { s with legs := t.legs, tx := t.tx, grant := t.grant })
  ∧ (∀ (s : State) (g : LegId) (level : Fin 4) (crc : Byte), (s.watchesBeacon g = false ∨ crc ≠ crc8 [byteOf (0x20 +
    level.val)]) → exec (.beaconReceived g level crc) s = .next s)
  ∧ (∀ (s : State) (g : LegId), s.watchesBeacon g = false → exec (.beaconSilence g) s = .next s)

/-- At a HUB a command frame with a correct CRC, of any kind, faults a leg in any state but OFF and FAULT with
ROLE_CONFLICT and flushes its queue; a frame with a wrong CRC changes nothing. (R31, R40) -/
def Obligations.CommandAtHubFaults : Prop :=
  (∀ (s : State) (g : LegId) (kind : BitVec 3) (item : Byte) (f : CommandBody), s.isHub → commandCrcOk kind item f
    → ((s.leg g).state ≠ .off ∧ (s.leg g).state ≠ .fault) → ∃ t, exec (.hubCommandFrame g kind item f) s = .next t
    ∧ (t.leg g).state = .fault ∧ (t.leg g).lastFault = .roleConflict
    ∧ (t.leg g).faultCount = min 255 ((s.leg g).faultCount + 1) ∧ (t.leg g).queue = [] ∧ s.othersKept t g
    ∧ s.outsideKept t g ∧ s.tapsKept t ∧ s.settingKept t)
  ∧ (∀ (s : State) (g : LegId) (kind : BitVec 3) (item : Byte) (f : CommandBody), commandCrcOk kind item f = false
    → exec (.hubCommandFrame g kind item f) s = .next s)

/-- The model's operation State.endGrant, which every end of a grant runs through: the count of the grant's leg becomes
0, the count of every other leg with demand above 0 rises by 1 up to 12, and the count of every other leg becomes
0; demand is judged as it stands, and nothing else of a leg changes. The demand is 0 in OFF and FAULT. In any other
state it is 0 where the base demand, the higher of the head item's level and the beacon level (0 with the
drain-done mark), is 0, and otherwise the base demand plus the aging bonus, which is the count divided by 4,
remainder dropped: 0, 1, 2 and 3 for counts 0 to 3, 4 to 7, 8 to 11 and 12. The level of each kind of item is that
of R148. (R148, R153, R154) -/
def Obligations.GrantEndAgesWaitingLegs : Prop :=
  (∀ (s : State) (r : Grant) (g : LegId), (s.endGrant r).grant = none ∧ ((s.endGrant r).leg g).passOver = (if g =
    r.leg then 0 else if 0 < (s.leg g).demand then min 12 ((s.leg g).passOver + 1) else 0)
    ∧ { (s.endGrant r).leg g with passOver := (s.leg g).passOver } = s.leg g)
    ∧ (∀ l : Leg, ((l.state = .off ∨ l.state = .fault) → l.demand = 0) ∧ (l.state ≠ .off → l.state ≠ .fault → ∀ base,
    base = max ((l.queue.head?.map Item.level).getD 0) (if l.drainDone then 0 else l.beacon.val)
    → (base = 0 → l.demand = 0) ∧ (0 < base → l.demand = base + (if l.passOver < 4 then 0 else if l.passOver < 8 then
    1 else if l.passOver < 12 then 2 else l.passOver / 4)))) ∧ Item.level .keepalive = 1
    ∧ (∀ ix q, Item.level (.exchange ix q) = 2 ∧ Item.level (.tapRequest ix q) = 2)
    ∧ (∀ u, Item.level (.storeStatus u) = 2) ∧ (∀ k ix, Item.level (.farFetch k ix) = 2)
    ∧ (∀ d, Item.level (.probe d) = 3) ∧ (∀ st a r, Item.level (.phase st a r) = 3)
    ∧ (∀ a, Item.level (.trainDone a) = 3) ∧ (∀ a p b, Item.level (.verifyResult a p b) = 3)
    ∧ Item.level .retrainRequest = 3 ∧ (∀ p, Item.level (.powerRequest p) = 3)

/-- With the engine FREE and no grant held, where some leg has demand above 0 the arbiter's choice starts a transaction
of a leg whose demand no leg exceeds and no lower-numbered leg equals, under a grant of count 1 and limit 8, with
the leg's head item or, with an empty queue, a DRAIN beat; where none has demand nothing changes. The head item
leaves the queue, and held items enter the places that are then free: the overflow hold, the status holds and the
lane holds, the last two in ascending window index. A DRAIN's beat number is raised by 1, 15 on to 0, where beat
taken is yes and kept where it is no, and beat taken becomes no; another transaction moves neither. Within a grant
below its limit the leg's head item goes next, the count rises by 1, and after the 7th transaction the limit
becomes 16 where no other leg's demand reaches the granted leg's. At every choice, the end of a grant or not, no
transaction starts for a leg in OFF or FAULT. Every step runs this choice where it must: if a HUB's engine is FREE
only while no leg has demand, then so it is after any step. (R143, R150, R155, R156, R157, R126) -/
def Obligations.GrantGoesToHighestDemand : Prop :=
  (∀ s : State, s.isHub → s.tx = none → s.grant = none → ((∀ g, (s.leg g).demand = 0) → s.arbitrate false = s)
    ∧ ((∃ g, 0 < (s.leg g).demand) → ∃ x, (s.arbitrate false).tx = some x
    ∧ (s.arbitrate false).grant = some ⟨x.leg, 1, 8⟩ ∧ x.phase = .sending ∧ x.expiry = s.time + 2000
    ∧ x.seq = !(s.leg x.leg).seq ∧ (∀ k, (s.leg k).demand ≤ (s.leg x.leg).demand)
    ∧ (∀ k, k < x.leg → (s.leg k).demand < (s.leg x.leg).demand)
    ∧ x.work = (match (s.leg x.leg).queue.head? with | some i => .item i | none => .drain) ∧ (x.work = .drain
    → x.beat = (if (s.leg x.leg).beatTaken then (s.leg x.leg).beat + 1 else (s.leg x.leg).beat)
    ∧ ((s.arbitrate false).leg x.leg).beat = x.beat ∧ ((s.arbitrate false).leg x.leg).beatTaken = false)
    ∧ (x.work ≠ .drain → ((s.arbitrate false).leg x.leg).beat = (s.leg x.leg).beat
    ∧ ((s.arbitrate false).leg x.leg).beatTaken = (s.leg x.leg).beatTaken)
    ∧ (∀ i rest, (s.leg x.leg).queue = i :: rest → ((s.arbitrate false).leg x.leg).queue = rest ++ ((s.leg
    x.leg).heldItems .hubRole).take (4 - rest.length) ∧ ((s.arbitrate false).leg x.leg).heldItems .hubRole = ((s.leg
    x.leg).heldItems .hubRole).drop (4 - rest.length)))) ∧ (∀ (s : State) (r : Grant) (i : Item), s.isHub
    → s.tx = none → s.grant = some r → (s.leg r.leg).queue.head? = some i → (s.leg r.leg).state ≠ .off
    → (s.leg r.leg).state ≠ .fault → r.count < r.limit → ∃ x, (s.arbitrate false).tx = some x ∧ x.leg = r.leg
    ∧ x.work = .item i ∧ (s.arbitrate false).grant = some
    { r with count := r.count + 1,
             limit := if r.count = 7 ∧ (∀ k, k ≠ r.leg → (s.leg k).demand < (s.leg r.leg).demand) then 16 else r.limit })
    ∧ (∀ s t : State, s.EngineServes → step s = .next t → t.EngineServes)
    ∧ (∀ (s : State) (ends : Bool) (x : Transaction), s.isHub → s.tx = none → (s.arbitrate ends).tx = some x
    → (s.leg x.leg).state ≠ .off ∧ (s.leg x.leg).state ≠ .fault)

/-- In LISTEN an IDENT of 12 bytes is answered ACK with the END's own IDENT, becomes the far identity, and the leg enters
PROBE with cause PROBE_ANSWERED; SERIAL_MISMATCH is posted exactly where the cable serials differ. From PROBE to
SLEEP and in FAULT the answer is REFUSE with WRONG_STATE and the leg's state is unchanged. Both are stored in the
last-response hold. In OFF nothing happens. That a REFUSE carries no data and more = no is the model's reading (log
22). That the ACK says more = no is the model's choice (log 38). (R42, R138, R139, R140) -/
def Obligations.EndAnswersProbe : Prop :=
  (∀ (s : State) (f : CommandBody), s.takesCommand 1 1 f → f.data.length = 12 → (s.leg 0).state = .listen
    → ∃ t, exec (.probeCommand 0 f) s = .next t ∧ (t.leg 0).state = .probe
    ∧ (t.leg 0).farId = some (parseIdent f.data) ∧ (t.leg 0).enteredAt = s.time
    ∧ t.resp.lastSent = some (responseFrame 1 f.seq false 1 0 (s.ident 0).bytes) ∧ t.resp.held = some ⟨f.seq, 1, 1,
    f.lane, f.data, responseFrame 1 f.seq false 1 0 (s.ident 0).bytes⟩ ∧ t.resp.silence = some (s.time + 20000)
    ∧ (∀ k, k ≠ 0 → t.leg k = s.leg k) ∧ s.tapsKept t ∧ s.settingKept t ∧ (s.notices.records = []
    → (∃ n ∈ t.notices.records, n.kind = .legState ∧ n.leg = some 0 ∧ n.data = [1, 2, 6, 0])
    ∧ (serialAt f.data 4 ≠ s.cable.serial → ∃ n ∈ t.notices.records, n.kind = .serialMismatch ∧ n.leg = some 0)
    ∧ (serialAt f.data 4 = s.cable.serial → ∀ n ∈ t.notices.records, n.kind ≠ .serialMismatch)))
  ∧ (∀ (s : State) (f : CommandBody), s.takesCommand 1 1 f → f.data.length = 12 → (s.leg 0).state ≠ .listen
    → ∃ t, exec (.probeCommand 0 f) s = .next t ∧ t.leg 0 =
    { s.leg 0 with sbLost := false, probeWait := (s.leg 0).probeWait.map (fun _ => s.time + 500000) }
    ∧ t.resp.lastSent = some (responseFrame 3 f.seq false 1 2 [])
    ∧ t.resp.held = some ⟨f.seq, 1, 1, f.lane, f.data, responseFrame 3 f.seq false 1 2 []⟩
    ∧ (∀ k, k ≠ 0 → t.leg k = s.leg k) ∧ t.lanes = s.lanes ∧ s.settingKept t)
  ∧ (∀ (s : State) (f : CommandBody), s.isHub = false → (s.leg 0).state = .off
    → exec (.probeCommand 0 f) s = .next s)

/-- A FETCH without data is answered ACK with the own IDENT; with the leg's state, attention level, error counter and,
since the frame was heard, sideband lost no; or with the taps, pin, peaking, d1 and presence of the lane at the
frame's index, REFUSE with BAD_LANE where the window has no such index. The state and the lanes are unchanged. That
a REFUSE carries no data and more = no is the model's reading (log 22). That the ACK says more = no is the model's
choice (log 38). (R141, R140, R138) -/
def Obligations.EndAnswersFetch : Prop :=
  (∀ (s : State) (f : CommandBody), s.takesCommand 2 1 f → f.data = []
    → ∃ t, exec (.fetchCommand 0 .ident f) s = .next t
    ∧ t.resp.lastSent = some (responseFrame 1 f.seq false 1 0 (s.ident 0).bytes) ∧ (t.leg 0).state = (s.leg 0).state
    ∧ (t.leg 0).farId = (s.leg 0).farId ∧ t.lanes = s.lanes ∧ s.settingKept t)
  ∧ (∀ (s : State) (f : CommandBody), s.takesCommand 2 2 f → f.data = []
    → ∃ t, exec (.fetchCommand 0 .status f) s = .next t ∧ t.resp.lastSent = some (responseFrame 1 f.seq false 2 0
    [byteOf (s.leg 0).state.code, byteOf (s.leg 0).attention, byteOf (s.leg 0).errCount, 0])
    ∧ (t.leg 0).state = (s.leg 0).state ∧ t.lanes = s.lanes ∧ s.settingKept t)
  ∧ (∀ (s : State) (f : CommandBody), s.takesCommand 2 3 f → f.data = []
    → ∃ t, exec (.fetchCommand 0 .laneInfo f) s = .next t ∧ t.resp.lastSent = some (if s.hasIndex 0 f.lane then
    responseFrame 1 f.seq false 3 0 ((s.lane (s.winLane 0 f.lane)).taps.bytes ++ [boolByte (s.lane (s.winLane 0
    f.lane)).pinned, byteOf (s.lane (s.winLane 0 f.lane)).peaking, signedByte (s.lane (s.winLane 0 f.lane)).d1,
    byteOf (s.lane (s.winLane 0 f.lane)).presence.code]) else responseFrame 3 f.seq false 3 3 [])
    ∧ (t.leg 0).state = (s.leg 0).state ∧ t.lanes = s.lanes ∧ s.settingKept t)

/-- From PROBE to SLEEP a PHASE naming TRAIN, ADAPT, VERIFY, RUN, STANDBY or SLEEP with an attempt of 1 to 4 for the
first three and a rate not above the rate cap enters that state with the item's rate and, for the first three, its
attempt. TRAIN clears the error counter, counts a retrain from UP or DEGRADED up to 3, and opens every window
lane's search; ADAPT and VERIFY start their tallies; RUN from VERIFY sets up since and hands the learned entries
over; SLEEP sets resume; undrained training items of before are gone in ADAPT, VERIFY and RUN. A VERIFY that cuts
ADAPT short leaves each lane the best code measured, or its entry peaking where none was, and marks the adapt
failed where a lane failed or its merits are all 0. PHASE(LISTEN) enters LISTEN with an empty queue. The answer is
ACK. A rate above the cap, an attempt out of range or another state code is refused with BAD_VALUE, and LISTEN and
FAULT with WRONG_STATE, without moving the state. That the frame of a REFUSE carries no data and more = no is the
model's reading (log 22), and that of the ACK more = no its choice (log 38). (R41, R43, R68, R69, R70, R80, R83,
R84, R87, R115, R140, R168) -/
def Obligations.EndFollowsPhase : Prop :=
  (∀ (s : State) (f : CommandBody) (st : PhaseState) (a : Byte) (r : Rate), s.takesCommand 3 4 f
    → ((s.leg 0).state ≠ .listen ∧ (s.leg 0).state ≠ .fault) → st ≠ .listen
    → f.data = [byteOf st.code, a, byteOf r.code] → ((st = .train ∨ st = .adapt ∨ st = .verify) → 1 ≤ a.toNat
    ∧ a.toNat ≤ 4) → r.code ≤ (s.leg 0).rateCap.code → ∃ t, exec (.storePhase 0 f) s = .next t
    ∧ (t.leg 0).state = st.legState ∧ (t.leg 0).negRate = some r ∧ (t.leg 0).attempt = (if st = .train ∨ st = .adapt
    ∨ st = .verify then some a.toNat else none) ∧ (st = .train → s.BeginsTrain t 0 a.toNat (some r) ∧ (t.leg
    0).retrains = if (s.leg 0).state.inService then min 3 ((s.leg 0).retrains + 1) else (s.leg 0).retrains)
    ∧ (st = .adapt → s.BeginsAdapt t 0 a.toNat) ∧ (st = .verify → s.BeginsVerify t 0 a.toNat) ∧ (st = .run
    → (s.leg 0).state = .verify → (t.leg 0).upSince = some s.time ∧ s.HandsOver t 0 r) ∧ (st = .run
    → (s.leg 0).state ≠ .verify → (t.leg 0).upSince = (s.leg 0).upSince ∧ t.cable = s.cable) ∧ ((st = .adapt
    ∨ st = .verify ∨ st = .run) → (t.leg 0).reportHold = none ∧ (∀ i : WinIx, (t.leg 0).laneHold[i] = none)
    ∧ ∀ i ∈ (t.leg 0).queue, i.ofTraining = false) ∧ (st = .sleep → (t.leg 0).resume = true)
    ∧ t.resp.lastSent = some (responseFrame 1 f.seq false 4 0 [])
    ∧ t.resp.held = some ⟨f.seq, 3, 4, f.lane, f.data, responseFrame 1 f.seq false 4 0 []⟩
    ∧ (∀ k, k ≠ 0 → t.leg k = s.leg k) ∧ s.outsideKept t 0 ∧ s.tapsKept t)
  ∧ (∀ (s : State) (f : CommandBody), s.takesCommand 3 4 f → ((s.leg 0).state ≠ .listen ∧ (s.leg 0).state ≠ .fault)
    → f.data.length = 3 → natAt f.data 0 = 1 → ∃ t, exec (.storePhase 0 f) s = .next t ∧ (t.leg 0).state = .listen
    ∧ (t.leg 0).queue = [] ∧ (t.leg 0).retrains = 0 ∧ (t.leg 0).farId = none ∧ (t.leg 0).negRate = none
    ∧ t.resp.lastSent = some (responseFrame 1 f.seq false 4 0 []) ∧ s.tapsKept t)
  ∧ (∀ (s : State) (f : CommandBody), s.takesCommand 3 4 f → f.data.length = 3
    → ((s.leg 0).state = .listen ∨ (s.leg 0).state = .fault) → ∃ t, exec (.storePhase 0 f) s = .next t
    ∧ (t.leg 0).state = (s.leg 0).state ∧ t.resp.lastSent = some (responseFrame 3 f.seq false 4 2 [])
    ∧ t.lanes = s.lanes)
  ∧ (∀ (s : State) (f : CommandBody), s.takesCommand 3 4 f → f.data.length = 3
    → ((s.leg 0).state ≠ .listen ∧ (s.leg 0).state ≠ .fault) → natAt f.data 0 ≠ 1
    → (PhaseState.ofCode (natAt f.data 0) = none ∨ 2 < natAt f.data 2 ∨ (s.leg 0).rateCap.code < natAt f.data 2
    ∨ (natAt f.data 0 ∈ [3, 4, 5] ∧ (natAt f.data 1 < 1 ∨ 4 < natAt f.data 1)))
    → ∃ t, exec (.storePhase 0 f) s = .next t ∧ (t.leg 0).state = (s.leg 0).state
    ∧ t.resp.lastSent = some (responseFrame 3 f.seq false 4 4 []) ∧ t.lanes = s.lanes)
  ∧ (∀ (s : State) (f : CommandBody) (a : Byte) (r : Rate) (v : Vector AdaptLane 8), s.takesCommand 3 4 f
    → (s.leg 0).state = .adapt → (s.leg 0).adapt = some v → (∀ i : WinIx, v[i].Ok) → f.data = [5, a, byteOf r.code]
    → 1 ≤ a.toNat → a.toNat ≤ 4 → r.code ≤ (s.leg 0).rateCap.code → ∃ t, exec (.storePhase 0 f) s = .next t
    ∧ (∀ i ∈ s.winIndices 0, if v[i].stage = .peaking ∧ v[i].measured ≠ [] then bestCode v[i].candidates
    v[i].measured v[i].entry (t.lane (s.winLane 0 i)).peaking else (t.lane (s.winLane 0 i)).peaking = if v[i].stage =
    .peaking then v[i].entry else (s.lane (s.winLane 0 i)).peaking) ∧ ((t.leg 0).adaptFailed = true
    ↔ (s.leg 0).adaptFailed = true ∨ (∃ i : WinIx, v[i].failed = true) ∨ ∃ i ∈ s.winIndices 0, v[i].stage = .peaking
    ∧ v[i].measured ≠ [] ∧ v[i].measured.all (fun m => m == 0)) ∧ (∀ c, (t.lane c).d1 = (s.lane c).d1)
    ∧ s.BeginsVerify t 0 a.toNat ∧ s.tapsKept t)

/-- From PROBE to SLEEP a STORE TAP_STATUS for a window index, well formed and naming that index, sets the far taps of
the lane to the taps it carries and is answered ACK; an index the window lacks is refused with BAD_LANE, and with
BAD_VALUE a status that names another index, has a status code above 5 or taps that break the law of R47. No local
taps move. In TRAIN a lane that waits for the status of a request that has left the queue takes it as its result:
the opening waits to measure, PINNED or the 32nd step ends the lane, a step with UPDATED waits to measure, and one
that did not move and every undo turn to DEC, to PRE or to the lane's end; the last lane done with a merit above 0
sends TRAIN_DONE. Any other status leaves every search. That the frame of a REFUSE carries no data and more = no is
the model's reading (log 22), and that of the ACK more = no its choice (log 38). That the search takes a status
PINNED in one field only as PINNED, and HOLD for the searched field as no move, is the model's reading (log 15).
(R17, R47, R54, R58, R140, R67, R72, R74, R75, R76, R77, R79) -/
def Obligations.EndTakesTapStatus : Prop :=
  (∀ (s : State) (f : CommandBody) (p : TapStat) (q : TapStat) (u : Taps), s.takesCommand 3 6 f
    → ((s.leg 0).state ≠ .listen ∧ (s.leg 0).state ≠ .fault) → s.hasIndex 0 f.lane → u.lawful
    → f.data = [byteOf f.lane.val, byteOf p.code, byteOf q.code] ++ u.bytes
    → ∃ t, exec (.storeTapStatus 0 f) s = .next t ∧ (t.lane (s.winLane 0 f.lane)).farTaps = some u
    ∧ (∀ c, c ≠ s.winLane 0 f.lane → (t.lane c).farTaps = (s.lane c).farTaps)
    ∧ t.resp.lastSent = some (responseFrame 1 f.seq false 6 0 []) ∧ (t.leg 0).state = (s.leg 0).state
    ∧ (∀ c, (t.lane c).taps = (s.lane c).taps ∧ (t.lane c).settleUntil = (s.lane c).settleUntil)
    ∧ (∀ k, k ≠ 0 → t.leg k = s.leg k) ∧ s.settingKept t)
  ∧ (∀ (s : State) (f : CommandBody), s.takesCommand 3 6 f → f.data.length = 6
    → ((s.leg 0).state ≠ .listen ∧ (s.leg 0).state ≠ .fault) → s.hasIndex 0 f.lane = false
    → ∃ t, exec (.storeTapStatus 0 f) s = .next t ∧ t.resp.lastSent = some (responseFrame 3 f.seq false 6 3 [])
    ∧ t.lanes = s.lanes ∧ (t.leg 0).state = (s.leg 0).state)
  ∧ (∀ (s : State) (f : CommandBody), s.takesCommand 3 6 f → f.data.length = 6
    → ((s.leg 0).state ≠ .listen ∧ (s.leg 0).state ≠ .fault) → s.hasIndex 0 f.lane → (natAt f.data 0 ≠ f.lane.val
    ∨ 5 < natAt f.data 1 ∨ 5 < natAt f.data 2 ∨ 12 < natAt f.data 3 ∨ 18 < natAt f.data 5
    ∨ natAt f.data 4 ≠ 48 - natAt f.data 3 - natAt f.data 5 ∨ natAt f.data 4 < 24)
    → ∃ t, exec (.storeTapStatus 0 f) s = .next t ∧ t.resp.lastSent = some (responseFrame 3 f.seq false 6 4 [])
    ∧ t.lanes = s.lanes ∧ (t.leg 0).state = (s.leg 0).state)
  ∧ (∀ (s : State) (f : CommandBody) (u : TapStatus) (k : Search) (n : Nat), s.takesCommand 3 6 f
    → ((s.leg 0).state ≠ .listen ∧ (s.leg 0).state ≠ .fault) → s.hasIndex 0 f.lane → u.taps.lawful → u.index = f.lane
    → f.data = u.bytes → (s.leg 0).state = .train → (s.leg 0).attempt = some n
    → (s.lane (s.winLane 0 f.lane)).search = some k → k.waiting = some .status → k.drained
    → ∃ t, exec (.storeTapStatus 0 f) s = .next t ∧ s.SearchTakes t 0 f.lane k u n
    ∧ (t.lane (s.winLane 0 f.lane)).farTaps = some u.taps
    ∧ t.resp.lastSent = some (responseFrame 1 f.seq false 6 0 []))
  ∧ (∀ (s : State) (f : CommandBody) (u : TapStatus), s.takesCommand 3 6 f
    → ((s.leg 0).state ≠ .listen ∧ (s.leg 0).state ≠ .fault) → s.hasIndex 0 f.lane → u.taps.lawful → u.index = f.lane
    → f.data = u.bytes → ((s.leg 0).state ≠ .train
    ∨ (s.lane (s.winLane 0 f.lane)).search.all (fun k => k.waiting != some .status || !k.drained))
    → ∃ t, exec (.storeTapStatus 0 f) s = .next t ∧ (∀ c, (t.lane c).search = (s.lane c).search)
    ∧ (t.leg 0).queue = (s.leg 0).queue)

/-- In TRAIN a well-formed request for a window index whose lane is not settling is applied by the coefficient unit and
answered ACK with its TAP_STATUS, a settle of 300 us starting exactly where a field was updated; on a settling lane
the answer is DEFER, nothing is applied and the last-response hold is kept. Outside TRAIN it is refused with
WRONG_STATE; in TRAIN, settling or not, with BAD_LANE where the window has no such index, and with BAD_VALUE where
the form is none of STEP, PRESET and LOAD, a STEP field code or a PRESET number is out of range, or the item names
another index. A refusal is stored in the last-response hold and changes no lane. The lane's taps are taken to be
lawful, which every step keeps (StepKeepsRanges). That DEFER and REFUSE carry no data and more = no is the model's
reading (log 22). That the ACK says more = no is the model's choice (log 38). (R16, R54, R56, R57, R139, R140,
R197) -/
def Obligations.EndAppliesExchange : Prop :=
  (∀ (s : State) (f : CommandBody) (q : TapRequest), s.takesCommand 4 5 f → (s.leg 0).state = .train
    → s.hasIndex 0 f.lane → f.data.length = 4 → parseTapRequest f.data = some q → natAt f.data 0 = f.lane.val
    → (s.lane (s.winLane 0 f.lane)).settleUntil = none → (s.lane (s.winLane 0 f.lane)).taps.lawful
    → ∃ t, exec (.exchangeTapRequest 0 f) s = .next t
    ∧ (t.lane (s.winLane 0 f.lane)).taps = (s.tapOutcome 0 f.lane q).taps
    ∧ (t.lane (s.winLane 0 f.lane)).settleUntil = (if (s.tapOutcome 0 f.lane q).pre = .updated
    ∨ (s.tapOutcome 0 f.lane q).post = .updated then some (s.time + 300) else none)
    ∧ (t.lane (s.winLane 0 f.lane)).farTaps = (s.lane (s.winLane 0 f.lane)).farTaps
    ∧ (∀ c, c ≠ s.winLane 0 f.lane → t.lane c = s.lane c)
    ∧ t.resp.lastSent = some (responseFrame 1 f.seq false 5 0 (s.tapOutcome 0 f.lane q).bytes)
    ∧ (t.leg 0).state = .train ∧ (t.leg 0).queue = (s.leg 0).queue ∧ s.settingKept t)
  ∧ (∀ (s : State) (f : CommandBody) (q : TapRequest), s.takesCommand 4 5 f → (s.leg 0).state = .train
    → s.hasIndex 0 f.lane → f.data.length = 4 → parseTapRequest f.data = some q → natAt f.data 0 = f.lane.val
    → (s.lane (s.winLane 0 f.lane)).settleUntil ≠ none → ∃ t, exec (.exchangeTapRequest 0 f) s = .next t
    ∧ t.lanes = s.lanes ∧ t.resp.held = s.resp.held ∧ t.resp.lastSent = some (responseFrame 2 f.seq false 5 0 [])
    ∧ (t.leg 0).queue = (s.leg 0).queue)
  ∧ (∀ (s : State) (f : CommandBody), s.takesCommand 4 5 f → f.data.length = 4 → (s.leg 0).state ≠ .train
    → ∃ t, exec (.exchangeTapRequest 0 f) s = .next t ∧ t.lanes = s.lanes
    ∧ t.resp.lastSent = some (responseFrame 3 f.seq false 5 2 []) ∧ (t.leg 0).state = (s.leg 0).state)
  ∧ (∀ (s : State) (f : CommandBody), s.takesCommand 4 5 f → (s.leg 0).state = .train → f.data.length = 4
    → s.hasIndex 0 f.lane = false → ∃ t, exec (.exchangeTapRequest 0 f) s = .next t ∧ t.lanes = s.lanes
    ∧ t.resp.lastSent = some (responseFrame 3 f.seq false 5 3 [])
    ∧ t.resp.held = some ⟨f.seq, 4, 5, f.lane, f.data, responseFrame 3 f.seq false 5 3 []⟩ ∧ (t.leg 0).state = .train
    ∧ (t.leg 0).queue = (s.leg 0).queue ∧ s.settingKept t)
  ∧ (∀ (s : State) (f : CommandBody), s.takesCommand 4 5 f → (s.leg 0).state = .train → f.data.length = 4
    → s.hasIndex 0 f.lane → (natAt f.data 0 ≠ f.lane.val ∨ natAt f.data 1 ∉ [1, 2, 3]
    ∨ (natAt f.data 1 = 1 ∧ (2 < natAt f.data 2 ∨ 2 < natAt f.data 3)) ∨ (natAt f.data 1 = 2 ∧ 7 < natAt f.data 2))
    → ∃ t, exec (.exchangeTapRequest 0 f) s = .next t ∧ t.lanes = s.lanes
    ∧ t.resp.lastSent = some (responseFrame 3 f.seq false 5 4 [])
    ∧ t.resp.held = some ⟨f.seq, 4, 5, f.lane, f.data, responseFrame 3 f.seq false 5 4 []⟩ ∧ (t.leg 0).state = .train
    ∧ (t.leg 0).queue = (s.leg 0).queue ∧ s.settingKept t)

/-- At an END out of OFF: a beat equal to the previous one sends the held item again and takes nothing from the queue. A
new beat removes the head item, holds and sends it with more set exactly where the queue held another, or, on an
empty queue, holds and sends none. The last-response hold is unchanged. Held items enter the places then free: the
health hold, the report hold, and the lane holds in ascending window index. Between transactions an END out of OFF
sends the beacon 0x20 plus the highest level in its queue, 0 where that is empty, with its CRC-8; in OFF, and as a
HUB, it sends none. (R138, R142, R150, R124, R151, R194, R196) -/
def Obligations.EndDrainsOneItemPerBeat : Prop :=
  (∀ s : State, (s.isHub ∨ (s.leg 0).state = .off → s.beacon = none) ∧ (s.isHub = false → (s.leg 0).state ≠ .off
    → ∃ n, n ≤ 3 ∧ s.beacon = some [byteOf (0x20 + n), crc8 [byteOf (0x20 + n)]] ∧ ((s.leg 0).queue = [] → n = 0)
    ∧ (∀ i ∈ (s.leg 0).queue, i.level ≤ n) ∧ ((s.leg 0).queue ≠ [] → ∃ i ∈ (s.leg 0).queue, i.level = n)))
  ∧ (∀ (s : State) (f : CommandBody), s.isHub = false → (s.leg 0).state ≠ .off → commandCrcOk 5 0 f
    → s.resp.beatPrev = some f.beat → ∃ t, exec (.drainCommand 0 0 f) s = .next t ∧ (t.leg 0).queue = (s.leg 0).queue
    ∧ t.resp.beatPrev = s.resp.beatPrev ∧ t.resp.beatItem = s.resp.beatItem ∧ t.resp.held = s.resp.held
    ∧ t.resp.lastSent = some (drainFrame f.seq s.resp.beatItem (!(s.leg 0).queue.isEmpty)) ∧ t.lanes = s.lanes)
  ∧ (∀ (s : State) (f : CommandBody) (i : Item) (rest : List Item), s.isHub = false → (s.leg 0).state ≠ .off
    → commandCrcOk 5 0 f → s.resp.beatPrev ≠ some f.beat → (s.leg 0).queue = i :: rest
    → ∃ t, exec (.drainCommand 0 0 f) s = .next t ∧ t.resp.beatPrev = some f.beat ∧ t.resp.beatItem = some i
    ∧ t.resp.held = s.resp.held ∧ t.resp.lastSent = some (drainFrame f.seq (some i) (!rest.isEmpty))
    ∧ (t.leg 0).queue = rest ++ ((s.leg 0).heldItems .endRole).take (4 - rest.length)
    ∧ (t.leg 0).heldItems .endRole = ((s.leg 0).heldItems .endRole).drop (4 - rest.length) ∧ s.tapsKept t
    ∧ (t.leg 0).state = (s.leg 0).state)
  ∧ (∀ (s : State) (f : CommandBody), s.isHub = false → (s.leg 0).state ≠ .off → commandCrcOk 5 0 f
    → s.resp.beatPrev ≠ some f.beat → (s.leg 0).queue = [] → ∃ t, exec (.drainCommand 0 0 f) s = .next t
    ∧ t.resp.beatPrev = some f.beat ∧ t.resp.beatItem = none ∧ t.resp.held = s.resp.held
    ∧ t.resp.lastSent = some (drainFrame f.seq none false) ∧ t.lanes = s.lanes ∧ (t.leg 0).queue = [])

/-- For every command row of an END other than a DRAIN: a frame on the pair of leg 0 that agrees with the last-response
hold is answered with the held response; the lanes, the queue, the state and the hold do not change. (R138, R139) -/
def Obligations.EndAnswersRepeatsFromItsHold : Prop :=
  ∀ (s : State) (i : Instr) (kind : BitVec 3) (item : Byte) (f : CommandBody) (hd : HeldResponse), commandOf i = some
    (0, kind, item, f) → kind ≠ 5 → s.isHub = false → (s.leg 0).state ≠ .off → commandCrcOk kind item f
    → s.resp.held = some hd → hd.repeats kind item f → ∃ t, exec i s = .next t ∧ t.lanes = s.lanes
    ∧ (t.leg 0).queue = (s.leg 0).queue ∧ (t.leg 0).state = (s.leg 0).state ∧ t.resp.held = s.resp.held
    ∧ t.resp.lastSent = some hd.frame ∧ t.resp.silence = some (s.time + 20000)

/-- An END out of OFF that gets a command kind other than PROBE to DRAIN refuses it with BAD_VALUE; an item kind the
command does not carry is refused with UNKNOWN_ITEM. For every command row, an item the command carries with a data
length other than the item's (12 for a PROBE, 0 for a FETCH, 3 for a PHASE, 6 for a TAP_STATUS, 4 for a
TAP_REQUEST) is refused with BAD_VALUE in every state but OFF. Each refusal echoes the item kind, is stored in the
hold and restarts the hub-silence watch; nothing else of the leg but its lost flag and probe wait moves. That a
REFUSE carries no data and more = no is the model's reading (log 22). (R123, R138, R139, R140, R196, R197) -/
def Obligations.EndRefusesUnknownCommands : Prop :=
  (∀ (s : State) (kind : BitVec 3) (item : Byte) (f : CommandBody), s.takesCommand kind item f
    → (kind = 0 ∨ kind = 6 ∨ kind = 7) → ∃ t, exec (.unknownCommandOrItem 0 kind item f) s = .next t
    ∧ t.resp.lastSent = some (responseFrame 3 f.seq false item 4 [])
    ∧ t.resp.held = some ⟨f.seq, kind, item, f.lane, f.data, responseFrame 3 f.seq false item 4 []⟩
    ∧ t.resp.silence = some (s.time + 20000)
    ∧ t.leg 0 = { s.leg 0 with sbLost := false, probeWait := (t.leg 0).probeWait } ∧ t.lanes = s.lanes
    ∧ s.settingKept t)
  ∧ (∀ (s : State) (kind : BitVec 3) (item : Byte) (f : CommandBody), s.takesCommand kind item f → ((kind = 1
    ∧ item ≠ 1) ∨ (kind = 2 ∧ item ≠ 1 ∧ item ≠ 2 ∧ item ≠ 3) ∨ (kind = 3 ∧ item ≠ 4 ∧ item ≠ 6) ∨ (kind = 4
    ∧ item ≠ 5)) → ∃ t, exec (.unknownCommandOrItem 0 kind item f) s = .next t
    ∧ t.resp.lastSent = some (responseFrame 3 f.seq false item 1 [])
    ∧ t.resp.held = some ⟨f.seq, kind, item, f.lane, f.data, responseFrame 3 f.seq false item 1 []⟩
    ∧ t.resp.silence = some (s.time + 20000)
    ∧ t.leg 0 = { s.leg 0 with sbLost := false, probeWait := (t.leg 0).probeWait } ∧ t.lanes = s.lanes
    ∧ s.settingKept t)
  ∧ (∀ (s : State) (kind : BitVec 3) (item : Byte) (f : CommandBody) (i : Instr) (len : Nat), commandOf i = some (0,
    kind, item, f) → s.takesCommand kind item f → carriedLength kind item = some len → f.data.length ≠ len
    → ∃ t, exec i s = .next t ∧ t.resp.lastSent = some (responseFrame 3 f.seq false item 4 [])
    ∧ t.resp.held = some ⟨f.seq, kind, item, f.lane, f.data, responseFrame 3 f.seq false item 4 []⟩
    ∧ t.resp.silence = some (s.time + 20000)
    ∧ t.leg 0 = { s.leg 0 with sbLost := false, probeWait := (t.leg 0).probeWait } ∧ t.lanes = s.lanes
    ∧ s.settingKept t)

/-- While hunting a byte 0x7E starts collecting and any other byte is ignored. A gap returns the receiver to hunting; so
does a frame discarded for a length above 48 or a wrong CRC. Nothing else changes. REPLY_SENT takes the head of the
reply line; a reply of the request in progress empties the slot, a BUSY reply leaves it. After the reply of
RESET_DEVICE the part is as a device reset leaves it; that this reset samples the level the strap had at the last
DEVICE_RESET is the model's choice (log 36). On an empty line nothing changes. A reply's bytes are those of R195:
start byte, the kind with the reply mark, tag, status code, length, payload and CRC-16, for a kind below 0x80; the
kind byte of another is a free value (log 35). (R174, R175, R176, R184, R194, R195) -/
def Obligations.ReceiverAndReplyLineMove : Prop :=
  (∀ r : Reply, (r.kind.toNat < 0x80 → r.payload.length < 256 → r.bytes = [0x7E, r.kind + 0x80, r.tag, byteOf
    r.status.code, byteOf r.payload.length] ++ r.payload ++ le16 (crc16 ([r.kind + 0x80, r.tag, byteOf r.status.code,
    byteOf r.payload.length] ++ r.payload)).toNat) ∧ [Status.ok, .accepted, .busy, .wrongState, .badArgument,
    .notSupported, .conflict, .farFailed].map Status.code = [0, 1, 2, 3, 4, 5, 6, 7])
  ∧ (∀ (s : State) (byte : Byte), s.port.collecting = false → exec (.requestFrameStart byte) s = .next
    { s with port := { s.port with collecting := byte == 0x7E } })
  ∧ (∀ (s : State), exec .requestFrameGap s = .next { s with port := { s.port with collecting := false } })
  ∧ (∀ (s : State) (n : Byte), 48 < n.toNat → exec (.requestFrameDiscarded (.badLength n)) s = .next
    { s with port := { s.port with collecting := false } })
  ∧ (∀ (s : State) (kind : Byte) (tag : Byte) (payload : List Byte) (crc : Half), crc16 ([kind, tag, byteOf
    payload.length] ++ payload) ≠ crc → exec (.requestFrameDiscarded (.badCrc kind tag payload crc)) s = .next
    { s with port := { s.port with collecting := false } })
  ∧ (∀ (s : State) (r : Reply) (rest : List Reply), s.port.line = r :: rest → r.resets = false
    → exec .replySent s = .next
    { s with port := { s.port with line := rest, slot := if r.own then none else s.port.slot } })
  ∧ (∀ (s : State) (r : Reply) (rest : List Reply), s.port.line = r :: rest → r.resets
    → ∃ t, exec .replySent s = .next t ∧ exec (.deviceReset s.strap) s = .next t)
  ∧ (∀ (s : State), s.port.line = [] → exec .replySent s = .next s)

/-- For every request row: in start-up (but for IDENTIFY) or with the slot occupied, the receiver returns to hunting and
a BUSY reply with the frame's kind and tag and an empty payload joins the reply line, unless three BUSY replies
already wait behind the reply being sent. Nothing else changes. An IDENTIFY in start-up with the slot occupied is
answered BUSY too (the model's reading, log 19). Every step keeps it so that before READY the slot holds no request
but an IDENTIFY. That the reply of the request in progress, where it is itself a BUSY (R145, R114), is not one of
the three is the model's choice (log 39). (R161, R174, R175, R176, R183) -/
def Obligations.BusyPortTakesNothing : Prop :=
  (∀ s t : State, s.PortOk → step s = .next t → t.PortOk)
  ∧ (∀ (s : State) (i : Instr) (kind : Byte) (q : RequestBody), requestOf i = some (kind, q)
    → (s.port.slot ≠ none ∨ (s.cable.startup ≠ .ready ∧ kind ≠ 1)) → ∃ t, exec i s = .next t
    ∧ t = { s with port := t.port } ∧ t.port.collecting = false ∧ t.port.slot = s.port.slot ∧ t.port.line = (if
    ((s.port.line.drop 1).filter (fun r => !r.own)).length < 3 then s.port.line ++ [⟨kind, q.tag, .busy, [], false,
    false⟩] else s.port.line))

/-- IDENTIFY is answered in every start-up state with part code 2408, revision 3, role, start-up state, load and learned
status, serial and length class. READ_LEG carries the leg's record; with the clear-wake option wake pending becomes
no. READ_LANE and READ_PRESETS carry their records. Nothing else but the port changes. The layouts of the payloads
of READ_LEG, READ_LANE and READ_PRESETS beyond R179, R181 and R195 are the model's reading (log 12). (R178, R179,
R181, R119, R175) -/
def Obligations.ReadsAnswerAsItStands : Prop :=
  (∀ (s : State) (tag : Byte), s.port.slot = none → exec (.identify ⟨tag, []⟩) s = .next
    { s with port := s.port.answered 0x01 tag .ok ([0x68, 0x09, 3, byteOf (roleCode s.role), byteOf s.cable.startup.code, byteOf (loadCode s.cable.loadStatus), byteOf (learnedCode s.cable.learnedStatus)] ++ s.cable.serial.toList ++ [byteOf s.cable.lengthClass]) })
  ∧ (∀ (s : State) (g : LegId) (tag : Byte) (b : Bool), s.takesRequests → s.hasLeg g
    → ∃ t, exec (.readLeg ⟨tag, [byteOf g.val, boolByte b]⟩) s = .next t
    ∧ t = { s with legs := t.legs, port := s.port.answered 0x02 tag .ok (s.legData g) }
    ∧ (∀ k, k ≠ g → t.leg k = s.leg k) ∧ t.leg g = { s.leg g with wakePending := (s.leg g).wakePending && !b })
  ∧ (∀ (s : State) (c : LaneId) (tag : Byte), s.takesRequests → exec (.readLane ⟨tag, [byteOf c.val]⟩) s = .next
    { s with port := s.port.answered 0x03 tag .ok ((s.lane c).recordData c) })
  ∧ (∀ (s : State) (tag : Byte), s.takesRequests → exec (.readPresets ⟨tag, []⟩) s = .next
    { s with port := s.port.answered 0x0B tag .ok s.cable.presetData })

/-- With every check passed the leg's window, rate cap, thresholds (a default mark takes the threshold table's row of the
new cap), presence threshold and auto-wake are set, the window's lanes take owner and host lane, its state and the
lanes' taps stay, and the reply is OK with the fields. In another state the answer is WRONG_STATE with the state,
an illegal field BAD_ARGUMENT and, at a HUB, a shared lane CONFLICT, with nothing else changed. An illegal field is
any that check 3 of R5 names, an eye floor above 127 without its default mark among them (R92). The layout of the
reply's fields is the model's reading (log 12). (R4, R5, R92, R180) -/
def Obligations.ConfigureLegSetsItsFields : Prop :=
  (∀ (s : State) (g : LegId) (q : RequestBody) (k : LegConfig), s.takesRequests → s.hasLeg g → q.payload.length = 12
    → natAt q.payload 0 = g.val → ((s.leg g).state = .off ∨ (s.leg g).state = .fault)
    → parseLegConfig q.payload = some k → (s.isHub = false ∨ s.conflicts g k.window = false)
    → ∃ t, exec (.configureLeg q) s = .next t ∧ (t.leg g) =
    { s.leg g with window := some ⟨natAt q.payload 1, natAt q.payload 2, natAt q.payload 3⟩, rateCap := k.rateCap,
                   errThreshold := if natAt q.payload 11 % 2 = 1 then (s.cable.thresholds.row k.rateCap).err else nat16At q.payload 5,
                   eyeFloor := if 2 ≤ natAt q.payload 11 then (s.cable.thresholds.row k.rateCap).eye else natAt q.payload 7,
                   presThreshold := natAt q.payload 8, autoWake := k.autoWake } ∧ k.rateCap.code = natAt q.payload 4
    ∧ boolByte k.autoWake = q.payload.getD 10 0 ∧ (∀ c i, k.window.indexOf c = some i → (t.lane c).owner = some g
    ∧ (t.lane c).hostLane = some (k.window.hostAt i)) ∧ (∀ c, k.window.indexOf c = none → (s.lane c).owner = some g
    → (t.lane c).owner = none ∧ (t.lane c).hostLane = none ∧ (t.lane c).path = .off)
    ∧ (∀ c, k.window.indexOf c = none → (s.lane c).owner ≠ some g → t.lane c = s.lane c) ∧ s.tapsKept t ∧ t =
    { s with lanes := t.lanes, legs := t.legs, port := s.port.answered 0x04 q.tag .ok (t.leg g).configData }
    ∧ (∀ j, j ≠ g → t.leg j = s.leg j))
  ∧ (∀ (s : State) (g : LegId) (q : RequestBody), s.takesRequests → s.hasLeg g → q.payload.length = 12
    → natAt q.payload 0 = g.val → ((s.leg g).state ≠ .off ∧ (s.leg g).state ≠ .fault)
    → exec (.configureLeg q) s = .next
    { s with port := s.port.answered 0x04 q.tag .wrongState [byteOf (s.leg g).state.code] })
  ∧ (∀ (s : State) (g : LegId) (q : RequestBody), s.takesRequests → s.hasLeg g → q.payload.length = 12
    → natAt q.payload 0 = g.val → ((s.leg g).state = .off ∨ (s.leg g).state = .fault) → (7 < natAt q.payload 1
    ∨ natAt q.payload 2 ∉ [1, 2, 4, 8] ∨ 7 < natAt q.payload 3 ∨ natAt q.payload 1 % natAt q.payload 2 ≠ 0
    ∨ 2 < natAt q.payload 4 ∨ 63 < natAt q.payload 8 ∨ 1 < natAt q.payload 10 ∨ 3 < natAt q.payload 11
    ∨ (natAt q.payload 11 < 2 ∧ 127 < natAt q.payload 7)) → exec (.configureLeg q) s = .next
    { s with port := s.port.answered 0x04 q.tag .badArgument [] })
  ∧ (∀ (s : State) (g : LegId) (q : RequestBody) (k : LegConfig), s.takesRequests → s.isHub → q.payload.length = 12
    → natAt q.payload 0 = g.val → ((s.leg g).state = .off ∨ (s.leg g).state = .fault)
    → parseLegConfig q.payload = some k → s.conflicts g k.window
    → exec (.configureLeg q) s = .next { s with port := s.port.answered 0x04 q.tag .conflict [] })

/-- START_LEG in OFF with a window enters LISTEN, or PROBE at once where a HUB already sees every lane PRESENT; elsewhere
it is refused with the leg's state and nothing changes. STOP_LEG enters OFF with the queue flushed, the transaction
abandoned, rate, identity, attempt and resume gone, and configuration, counters, sticky fields and taps kept; in
OFF it changes nothing and in FAULT it is refused. The entry to PROBE has the PROBE with the own IDENT on its way.
STOP_LEG posts LEG_STATE, empties every hold of the leg and its report set, sets the pass-over count to 0 and the
drain-done mark to no, stops the leg's timers, ends a grant it held, keeps its sequence bit, beat, beat taken and
beacon level, and at an END empties the last-response and beat holds and stops the hub-silence watch. (R25, R26,
R28, R127, R134, R135, R139, R142, R144, R147, R152, R158) -/
def Obligations.StartAndStopMoveTheLeg : Prop :=
  (∀ (s : State) (g : LegId) (tag : Byte), s.takesRequests → s.hasLeg g → (s.leg g).state = .off
    → (s.leg g).window ≠ none → ∃ t, exec (.startLeg ⟨tag, [byteOf g.val]⟩) s = .next t
    ∧ (t.leg g).state = (if s.isHub ∧ s.allPresent g then .probe else .listen) ∧ (t.leg g).enteredAt = s.time
    ∧ (t.leg g).holdoff = none ∧ (t.leg g).retrains = 0 ∧ (s.leg g).configKept (t.leg g)
    ∧ t.port = s.port.answered 0x05 tag .ok [] ∧ s.othersKept t g ∧ s.outsideKept t g ∧ s.tapsKept t
    ∧ s.settingKept t ∧ (s.isHub → s.allPresent g → t.sends g (.probe (s.ident g))))
  ∧ (∀ (s : State) (g : LegId) (tag : Byte), s.takesRequests → s.hasLeg g
    → ((s.leg g).state ≠ .off ∨ (s.leg g).window = none) → exec (.startLeg ⟨tag, [byteOf g.val]⟩) s = .next
    { s with port := s.port.answered 0x05 tag .wrongState [byteOf (s.leg g).state.code] })
  ∧ (∀ (s : State) (g : LegId) (tag : Byte), s.takesRequests → s.hasLeg g → (s.leg g).state ≠ .off
    → (s.leg g).state ≠ .fault → ∃ t, exec (.stopLeg ⟨tag, [byteOf g.val]⟩) s = .next t ∧ (t.leg g).state = .off
    ∧ (t.leg g).queue = [] ∧ (t.leg g).overflow = none ∧ (t.leg g).farId = none ∧ (t.leg g).negRate = none
    ∧ (t.leg g).attempt = none ∧ (t.leg g).resume = false ∧ (t.leg g).sbLost = false ∧ (t.leg g).timeouts = 0
    ∧ (t.leg g).errCount = (s.leg g).errCount ∧ (t.leg g).retrains = (s.leg g).retrains
    ∧ (t.leg g).aggMerit = (s.leg g).aggMerit ∧ (s.leg g).configKept (t.leg g)
    ∧ (s.isHub → ∀ x, t.tx = some x → x.leg ≠ g) ∧ t.port = s.port.answered 0x06 tag .ok [] ∧ s.othersKept t g
    ∧ s.outsideKept t g ∧ s.tapsKept t ∧ s.settingKept t ∧ (t.leg g).overflow = none ∧ (t.leg g).reportHold = none
    ∧ (t.leg g).healthHold = false ∧ (∀ i : Fin 8, (t.leg g).statusHold[i] = none ∧ (t.leg g).laneHold[i] = none
    ∧ (t.leg g).reportSet[i] = none) ∧ (t.leg g).passOver = 0 ∧ (t.leg g).drainDone = false
    ∧ (t.leg g).keepalive = none ∧ (t.leg g).deadline = none ∧ (t.leg g).holdoff = none ∧ (t.leg g).probeWait = none
    ∧ (t.leg g).adapt = none ∧ (t.leg g).verify = none ∧ (t.leg g).seq = (s.leg g).seq
    ∧ (t.leg g).beat = (s.leg g).beat ∧ (t.leg g).beatTaken = (s.leg g).beatTaken ∧ (s.isHub → ∀ x, s.tx = some x
    → x.leg = g → ∀ r, s.grant = some r → r.leg = g → s.grantEnded t) ∧ (s.isHub = false → t.resp.held = none
    ∧ t.resp.beatPrev = none ∧ t.resp.beatItem = none ∧ t.resp.silence = none) ∧ (t.leg g).beacon = (s.leg g).beacon
    ∧ (t.leg g).farStatus = none ∧ (s.notices.records = [] → ∃ n ∈ t.notices.records, n.kind = .legState
    ∧ n.leg = some g ∧ n.data = [byteOf (s.leg g).state.code, 0, 3, 0]))
  ∧ (∀ (s : State) (g : LegId) (tag : Byte), s.takesRequests → s.hasLeg g → (s.leg g).state = .off
    → exec (.stopLeg ⟨tag, [byteOf g.val]⟩) s = .next { s with port := s.port.answered 0x06 tag .ok [] })
  ∧ (∀ (s : State) (g : LegId) (tag : Byte), s.takesRequests → s.hasLeg g → (s.leg g).state = .fault
    → exec (.stopLeg ⟨tag, [byteOf g.val]⟩) s = .next { s with port := s.port.answered 0x06 tag .wrongState [10] })

/-- In every state RESET_LEG enters OFF: rate, identity, attempt and up since absent, counters and aggregate merit 0,
queue empty, beacon level 0, and each window lane has its far taps, report, settle and search absent, peaking 7, d1
0, presence ABSENT, path OFF and its taps (0, 48, 0) unless it is pinned. Configuration and sticky fields, owners
and every lane outside the window stay. LEG_STATE is posted with cause LEG_RESET. At a HUB the leg's transaction in
flight is abandoned and a grant it held ends. Timeouts and pass-over count are 0, the drain-done mark is no, every
hold of the leg and its report set are empty, its tallies gone, its timers stopped, and its sequence bit, beat and
beat taken kept. At an END the last-response and beat holds are empty and the hub-silence watch is stopped. (R18,
R27, R64, R127, R134, R135, R139, R142, R144, R147, R152, R158) -/
def Obligations.ResetLegKeepsConfiguration : Prop :=
  ∀ (s : State) (g : LegId) (tag : Byte), s.takesRequests → s.hasLeg g
    → ∃ t, exec (.resetLeg ⟨tag, [byteOf g.val]⟩) s = .next t ∧ (t.leg g).state = .off ∧ (t.leg g).negRate = none
    ∧ (t.leg g).farId = none ∧ (t.leg g).attempt = none ∧ (t.leg g).upSince = none ∧ (t.leg g).retrains = 0
    ∧ (t.leg g).errCount = 0 ∧ (t.leg g).resume = false ∧ (t.leg g).sbLost = false ∧ (t.leg g).aggMerit = 0
    ∧ (t.leg g).enteredAt = s.time ∧ (t.leg g).queue = [] ∧ (t.leg g).beacon = 0 ∧ (t.leg g).farStatus = none
    ∧ (s.leg g).configKept (t.leg g) ∧ t.port = s.port.answered 0x07 tag .ok [] ∧ (∀ c, c ∈ s.winLanes g → t.lane c =
    { s.lane c with path := .off, taps := if (s.lane c).pinned then (s.lane c).taps else ⟨0, 48, 0⟩,
                    settleUntil := none, farTaps := none, search := none, report := none, merit := 0, peaking := 7,
                    d1 := 0, presence := .absent, debounce := 0 }) ∧ s.othersKept t g ∧ s.outsideKept t g
    ∧ s.settingKept t ∧ (t.leg g).overflow = none ∧ (t.leg g).reportHold = none ∧ (t.leg g).healthHold = false
    ∧ (∀ i : Fin 8, (t.leg g).statusHold[i] = none ∧ (t.leg g).laneHold[i] = none ∧ (t.leg g).reportSet[i] = none)
    ∧ (t.leg g).passOver = 0 ∧ (t.leg g).drainDone = false ∧ (t.leg g).keepalive = none ∧ (t.leg g).deadline = none
    ∧ (t.leg g).holdoff = none ∧ (t.leg g).probeWait = none ∧ (t.leg g).adapt = none ∧ (t.leg g).verify = none
    ∧ (t.leg g).seq = (s.leg g).seq ∧ (t.leg g).beat = (s.leg g).beat ∧ (t.leg g).beatTaken = (s.leg g).beatTaken
    ∧ (s.isHub → ∀ x, s.tx = some x → x.leg = g → ∀ r, s.grant = some r → r.leg = g → s.grantEnded t)
    ∧ (s.isHub = false → t.resp.held = none ∧ t.resp.beatPrev = none ∧ t.resp.beatItem = none
    ∧ t.resp.silence = none) ∧ (t.leg g).adaptFailed = false ∧ (t.leg g).timeouts = 0
    ∧ (s.isHub → ∀ x, t.tx = some x → x.leg ≠ g) ∧ (s.notices.records = []
    → ∃ n ∈ t.notices.records, n.kind = .legState ∧ n.leg = some g ∧ n.data = [byteOf (s.leg g).state.code, 0, 4, 0])

/-- STANDBY in UP or DEGRADED enters STANDBY, and SLEEP in UP, DEGRADED, STANDBY or LISTEN enters SLEEP with resume set
unless it came from LISTEN, each keeping the error counter and the taps; ACTIVE in STANDBY enters VERIFY as a
standby verify with attempt 4 and a 40 ms deadline; ACTIVE in SLEEP enters LISTEN, or PROBE where every lane is
PRESENT; ACTIVE elsewhere moves no state. The reply is OK. Any other request is refused with the leg's state and
changes nothing; a power code above 2 is BAD_ARGUMENT. The END is told of an accepted request: PHASE(STANDBY), and
PHASE(SLEEP) but for a SLEEP from LISTEN, is on its way at the negotiated rate; for ACTIVE in STANDBY it is
PHASE(VERIFY, 4), and in SLEEP PHASE(LISTEN) where the far identity was present and none otherwise, with a PROBE
where every lane is PRESENT. (R108, R109, R110, R111, R112, R28, R84) -/
def Obligations.HubDecidesPowerRequests : Prop :=
  (∀ (s : State) (g : LegId) (tag : Byte), s.takesRequests → s.isHub → (s.leg g).state.inService
    → ∃ t, exec (.setLegPower ⟨tag, [byteOf g.val, 1]⟩) s = .next t ∧ (t.leg g).state = .standby
    ∧ (t.leg g).resume = (s.leg g).resume ∧ (t.leg g).errCount = (s.leg g).errCount
    ∧ (t.leg g).negRate = (s.leg g).negRate ∧ t.port = s.port.answered 0x08 tag .ok [] ∧ s.othersKept t g
    ∧ s.outsideKept t g ∧ s.tapsKept t ∧ s.settingKept t ∧ (∀ rt, (s.leg g).negRate = some rt
    → t.sends g (.phase .standby 0 rt)))
  ∧ (∀ (s : State) (g : LegId) (tag : Byte), s.takesRequests → s.isHub → ((s.leg g).state.inService
    ∨ (s.leg g).state = .standby ∨ (s.leg g).state = .listen)
    → ∃ t, exec (.setLegPower ⟨tag, [byteOf g.val, 2]⟩) s = .next t ∧ (t.leg g).state = .sleep
    ∧ (t.leg g).resume = ((s.leg g).resume || (s.leg g).state != .listen) ∧ (t.leg g).errCount = (s.leg g).errCount
    ∧ (t.leg g).holdoff = none ∧ t.port = s.port.answered 0x08 tag .ok [] ∧ s.othersKept t g ∧ s.outsideKept t g
    ∧ s.tapsKept t ∧ s.settingKept t ∧ (∀ rt, (s.leg g).negRate = some rt → (s.leg g).state ≠ .listen
    → t.sends g (.phase .sleep 0 rt)) ∧ ((s.leg g).state = .listen → s.noPhase g → t.noPhase g))
  ∧ (∀ (s : State) (g : LegId) (tag : Byte), s.takesRequests → s.isHub → (s.leg g).state = .standby
    → ∃ t, exec (.setLegPower ⟨tag, [byteOf g.val, 0]⟩) s = .next t ∧ (t.leg g).state = .verify
    ∧ (t.leg g).attempt = some 4 ∧ (t.leg g).standbyVerify = true ∧ (t.leg g).deadline = some (s.time + 40000)
    ∧ (t.leg g).retrains = (s.leg g).retrains ∧ (t.leg g).resume = (s.leg g).resume
    ∧ t.port = s.port.answered 0x08 tag .ok [] ∧ s.othersKept t g ∧ s.tapsKept t ∧ s.settingKept t
    ∧ s.BeginsVerify t g 4)
  ∧ (∀ (s : State) (g : LegId) (tag : Byte), s.takesRequests → s.isHub → (s.leg g).state = .sleep
    → ∃ t, exec (.setLegPower ⟨tag, [byteOf g.val, 0]⟩) s = .next t
    ∧ (t.leg g).state = (if s.allPresent g then .probe else .listen) ∧ (t.leg g).retrains = 0
    ∧ (t.leg g).resume = (s.leg g).resume ∧ (t.leg g).negRate = none ∧ (t.leg g).holdoff = none
    ∧ (t.leg g).wakePending = (s.leg g).wakePending ∧ t.port = s.port.answered 0x08 tag .ok [] ∧ s.othersKept t g
    ∧ s.tapsKept t ∧ s.settingKept t ∧ ((s.leg g).farId ≠ none → t.sends g (.phase .listen 0 .l))
    ∧ ((s.leg g).farId = none → s.noPhase g → t.noPhase g) ∧ (s.allPresent g → t.sends g (.probe (s.ident g))))
  ∧ (∀ (s : State) (g : LegId) (tag : Byte), s.takesRequests → s.isHub → (s.leg g).state ≠ .standby
    → (s.leg g).state ≠ .sleep → ∃ t, exec (.setLegPower ⟨tag, [byteOf g.val, 0]⟩) s = .next t ∧ s.legsKept t ∧ t =
    { s with legs := t.legs, tx := t.tx, grant := t.grant, port := s.port.answered 0x08 tag .ok [] })
  ∧ (∀ (s : State) (g : LegId) (tag : Byte) (p : Power), s.takesRequests → s.isHub → p ≠ .active
    → (s.leg g).state.inService = false → (p = .sleep → (s.leg g).state ≠ .standby ∧ (s.leg g).state ≠ .listen)
    → exec (.setLegPower ⟨tag, [byteOf g.val, byteOf p.code]⟩) s = .next
    { s with port := s.port.answered 0x08 tag .wrongState [byteOf (s.leg g).state.code] })
  ∧ (∀ (s : State) (g : LegId) (tag : Byte) (n : Byte), s.takesRequests → s.hasLeg g → 2 < n.toNat
    → exec (.setLegPower ⟨tag, [byteOf g.val, n]⟩) s = .next
    { s with port := s.port.answered 0x08 tag .badArgument [] })

/-- At an END: STANDBY and SLEEP are refused in OFF, LISTEN and FAULT and otherwise join the queue as a POWER_REQUEST,
BUSY where it is full; ACTIVE in STANDBY likewise; ACTIVE in SLEEP enters LISTEN with the POWER_REQUEST alone in
the queue; ACTIVE elsewhere changes nothing. A request that is queued does not move the state. (R114) -/
def Obligations.EndCarriesPowerRequests : Prop :=
  (∀ (s : State) (tag : Byte) (p : Power), s.takesRequests → s.isHub = false → p ≠ .active → (s.leg 0).state.quiet
    → exec (.setLegPower ⟨tag, [0, byteOf p.code]⟩) s = .next
    { s with port := s.port.answered 0x08 tag .wrongState [byteOf (s.leg 0).state.code] })
  ∧ (∀ (s : State) (tag : Byte) (p : Power), s.takesRequests → s.isHub = false → ((p ≠ .active
    ∧ (s.leg 0).state.quiet = false) ∨ (p = .active ∧ (s.leg 0).state = .standby)) → (s.leg 0).queue.length < 4
    → ∃ t, exec (.setLegPower ⟨tag, [0, byteOf p.code]⟩) s = .next t
    ∧ t.leg 0 = { s.leg 0 with queue := (s.leg 0).queue ++ [.powerRequest p] } ∧ (∀ k, k ≠ 0 → t.leg k = s.leg k)
    ∧ t = { s with legs := t.legs, port := s.port.answered 0x08 tag .ok [] })
  ∧ (∀ (s : State) (tag : Byte) (p : Power), s.takesRequests → s.isHub = false → ((p ≠ .active
    ∧ (s.leg 0).state.quiet = false) ∨ (p = .active ∧ (s.leg 0).state = .standby)) → 4 ≤ (s.leg 0).queue.length
    → exec (.setLegPower ⟨tag, [0, byteOf p.code]⟩) s = .next { s with port := s.port.answered 0x08 tag .busy [] })
  ∧ (∀ (s : State) (tag : Byte), s.takesRequests → s.isHub = false → (s.leg 0).state = .sleep
    → ∃ t, exec (.setLegPower ⟨tag, [0, 0]⟩) s = .next t ∧ (t.leg 0).state = .listen
    ∧ (t.leg 0).queue = [.powerRequest .active] ∧ (t.leg 0).resume = (s.leg 0).resume ∧ (t.leg 0).farId = none
    ∧ t.port = s.port.answered 0x08 tag .ok [] ∧ (∀ k, k ≠ 0 → t.leg k = s.leg k) ∧ s.tapsKept t)
  ∧ (∀ (s : State) (tag : Byte), s.takesRequests → s.isHub = false → (s.leg 0).state ≠ .standby
    → (s.leg 0).state ≠ .sleep → exec (.setLegPower ⟨tag, [0, 0]⟩) s = .next
    { s with port := s.port.answered 0x08 tag .ok [] })

/-- PIN_TAPS on any lane with pre at most 12, post at most 18 and main at least 24 sets the taps and pinned, starts a
settle of 300 us and answers OK with the lane and its taps; other values are BAD_ARGUMENT and change nothing.
UNPIN_TAPS clears pinned and leaves the taps. A lane number above 7 is BAD_ARGUMENT. SETTLE_EXPIRY makes the lane's
settle until absent and changes nothing else. With the windows in order (StepKeepsWindows states it of every step),
the transmitters of a window lane and its host lane send each other's received data while the leg is in UP or
DEGRADED; in TRAIN, ADAPT and VERIFY the training pattern and the idle pattern, in LISTEN, PROBE and STANDBY the
idle pattern on both, and in OFF, SLEEP and FAULT nothing; a copper or host lane in no window sends nothing. (R16,
R62, R63, R4, R7, R8, R9) -/
def Obligations.PinsAndSettles : Prop :=
  (∀ s : State, s.WindowsOk → (∀ (g : LegId) (w : Window) (i c h : Fin 8), (s.leg g).window = some w → i.val < w.w
    → c.val = (w.f + i.val + w.o) % 8 → h.val = w.f + i.val → ((s.leg g).state.inService → s.copperTx c = .retimed h
    ∧ s.hostTx h = .retimed c) ∧ ((s.leg g).state.attempting → s.copperTx c = .training ∧ s.hostTx h = .idle)
    ∧ ((s.leg g).state = .listen ∨ (s.leg g).state = .probe ∨ (s.leg g).state = .standby → s.copperTx c = .idle
    ∧ s.hostTx h = .idle) ∧ ((s.leg g).state = .off ∨ (s.leg g).state = .sleep ∨ (s.leg g).state = .fault
    → s.copperTx c = .unpowered ∧ s.hostTx h = .unpowered)) ∧ (∀ c, (∀ g w, (s.leg g).window = some w → c ∉ w.lanes)
    → s.copperTx c = .unpowered) ∧ (∀ h, (∀ g w, (s.leg g).window = some w → h ∉ w.hosts) → s.hostTx h = .unpowered))
  ∧ (∀ (s : State) (c : LaneId) (tag : Byte) (pre : Byte) (post : Byte), s.takesRequests → pre.toNat ≤ 12
    → post.toNat ≤ 18 → pre.toNat + post.toNat ≤ 24
    → ∃ t, exec (.pinTaps ⟨tag, [byteOf c.val, pre, post]⟩) s = .next t ∧ t.lane c =
    { s.lane c with taps := ⟨pre.toNat, 48 - pre.toNat - post.toNat, post.toNat⟩, pinned := true,
                    settleUntil := some (s.time + 300) } ∧ (∀ k, k ≠ c → t.lane k = s.lane k) ∧ t =
    { s with lanes := t.lanes,
             port := s.port.answered 0x09 tag .ok [byteOf c.val, pre, byteOf (48 - pre.toNat - post.toNat), post] })
  ∧ (∀ (s : State) (c : LaneId) (tag : Byte) (pre : Byte) (post : Byte), s.takesRequests
    → (12 < pre.toNat ∨ 18 < post.toNat ∨ 24 < pre.toNat + post.toNat)
    → exec (.pinTaps ⟨tag, [byteOf c.val, pre, post]⟩) s = .next
    { s with port := s.port.answered 0x09 tag .badArgument [] })
  ∧ (∀ (s : State) (c : LaneId) (tag : Byte), s.takesRequests
    → ∃ t, exec (.unpinTaps ⟨tag, [byteOf c.val]⟩) s = .next t ∧ t.lane c = { s.lane c with pinned := false }
    ∧ (∀ k, k ≠ c → t.lane k = s.lane k) ∧ t = { s with lanes := t.lanes, port := s.port.answered 0x0A tag .ok [] })
  ∧ (∀ (s : State) (tag : Byte) (n : Byte) (i : Instr), s.takesRequests → 7 < n.toNat → (i = .unpinTaps ⟨tag, [n]⟩
    ∨ ∃ pre post, i = .pinTaps ⟨tag, [n, pre, post]⟩) → ∃ t, exec i s = .next t
    ∧ ∃ kind, t = { s with port := s.port.answered kind tag .badArgument [] })
  ∧ (∀ (s : State) (c : LaneId), ∃ t, exec (.settleExpiry c) s = .next t ∧ (t.lane c).settleUntil = none
    ∧ t.lane c = { s.lane c with settleUntil := none } ∧ (∀ k, k ≠ c → t.lane k = s.lane k)
    ∧ t = { s with lanes := t.lanes })

/-- At a HUB a FAR_READ of IDENT or STATUS, or of LANE_INFO for a lane of the leg's window, on a leg in a state other
than OFF and FAULT with a free place in its queue occupies the slot with no reply; with the engine busy the FETCH
is the queue's last item. In OFF and FAULT it is refused with the state, with a full queue BUSY, at an END
NOT_SUPPORTED, changing nothing else. The reply follows when the item's fate is settled: OK with the fetched fields
on ACK, a STATUS setting the far status, and FAR_FAILED with its cause on REFUSE (with the reason), on loss by
timeouts, on expiry, and where a signal loss flushes the item from the queue. Another kind's reply leaves the far
identity and the far status. (R137, R145, R146, R183) -/
def Obligations.FarReadIsQueued : Prop :=
  (∀ (s : State) (g : LegId) (tag : Byte) (n : Byte) (lane : Byte) (k : FetchKind) (i : WinIx), s.takesRequests
    → s.isHub → (s.leg g).state ≠ .off → (s.leg g).state ≠ .fault → (s.leg g).queue.length < 4 → n = fetchCode k
    → ((k ≠ .laneInfo ∧ i = 0) ∨ (k = .laneInfo ∧ lane.toNat ≤ 7
    ∧ (s.leg g).window.bind (fun w => w.indexOf (Fin.ofNat 8 lane.toNat)) = some i))
    → ∃ t, exec (.farRead ⟨tag, [byteOf g.val, n, lane]⟩) s = .next t ∧ t.port = s.port.waiting 0x0E tag
    ∧ (s.tx ≠ none → (t.leg g).queue = (s.leg g).queue ++ [.farFetch k i]) ∧ s.legsKept t
    ∧ t = { s with legs := t.legs, tx := t.tx, grant := t.grant, port := t.port })
  ∧ (∀ (s : State) (g : LegId) (tag : Byte) (n : Byte) (lane : Byte), s.takesRequests → s.isHub
    → ((s.leg g).state = .off ∨ (s.leg g).state = .fault) → (n = 1 ∨ n = 2)
    → exec (.farRead ⟨tag, [byteOf g.val, n, lane]⟩) s = .next
    { s with port := s.port.answered 0x0E tag .wrongState [byteOf (s.leg g).state.code] })
  ∧ (∀ (s : State) (g : LegId) (tag : Byte) (n : Byte) (lane : Byte), s.takesRequests → s.isHub
    → (s.leg g).state ≠ .off → (s.leg g).state ≠ .fault → 4 ≤ (s.leg g).queue.length → (n = 1 ∨ n = 2)
    → exec (.farRead ⟨tag, [byteOf g.val, n, lane]⟩) s = .next { s with port := s.port.answered 0x0E tag .busy [] })
  ∧ (∀ (s : State) (tag : Byte) (payload : List Byte), s.takesRequests → s.isHub = false
    → exec (.farRead ⟨tag, payload⟩) s = .next { s with port := s.port.answered 0x0E tag .notSupported [] })
  ∧ (∀ (s : State) (g : LegId) (x : Transaction) (f : ResponseBody) (tag : Byte) (k : FetchKind) (i : WinIx),
    s.getsReply g x 1 f → x.work = .item (.farFetch k i) → s.port.slot = some ⟨0x0E, tag⟩
    → ∃ t, exec (.sidebandAck g f) s = .next t
    ∧ t.port = { s.port with line := s.port.line ++ [⟨0x0E, tag, .ok, f.data, true, false⟩] }
    ∧ (t.leg g).farId = (s.leg g).farId ∧ (t.leg g).state = (s.leg g).state ∧ (k = .status
    → ∃ st, (t.leg g).farStatus = some st ∧ st.state.code = natAt f.data 0 ∧ st.attention = natAt f.data 1
    ∧ st.errCount = natAt f.data 2 ∧ boolByte st.lost = f.data.getD 3 0 ∧ st.time = s.time)
    ∧ (k ≠ .status → (t.leg g).farStatus = (s.leg g).farStatus) ∧ s.othersKept t g ∧ t.lanes = s.lanes)
  ∧ (∀ (s : State) (g : LegId) (x : Transaction) (f : ResponseBody) (tag : Byte) (k : FetchKind) (i : WinIx),
    s.getsReply g x 3 f → x.work = .item (.farFetch k i) → s.port.slot = some ⟨0x0E, tag⟩
    → ∃ t, exec (.sidebandRefuse g f) s = .next t ∧ t.port =
    { s.port with line := s.port.line ++ [⟨0x0E, tag, .farFailed, [1, f.reason], true, false⟩] }
    ∧ (t.leg g).state = (s.leg g).state ∧ s.othersKept t g ∧ t.lanes = s.lanes)
  ∧ (∀ (s : State) (x : Transaction) (tag : Byte) (k : FetchKind) (i : WinIx), s.tx = some x
    → x.work = .item (.farFetch k i) → s.port.slot = some ⟨0x0E, tag⟩ → ∃ t, exec .transactionExpiry s = .next t
    ∧ t.port = { s.port with line := s.port.line ++ [⟨0x0E, tag, .farFailed, [3, 0], true, false⟩] } ∧ s.legsKept t
    ∧ t.lanes = s.lanes)
  ∧ (∀ (s : State) (x : Transaction) (tag : Byte) (k : FetchKind) (i : WinIx), s.tx = some x → x.phase = .waiting
    → 2 ≤ (s.leg x.leg).timeouts → x.work = .item (.farFetch k i) → s.port.slot = some ⟨0x0E, tag⟩
    → ∃ t, exec .replyTimeout s = .next t
    ∧ (s.port.line ++ [⟨0x0E, tag, .farFailed, [2, 0], true, false⟩] <+: t.port.line) ∧ t.port.slot = s.port.slot
    ∧ s.othersKept t x.leg)
  ∧ (∀ (s : State) (c : LaneId) (g : LegId) (level : Fin 64) (tag : Byte), s.isHub → (s.lane c).owner = some g
    → ((s.leg g).state.receives ∨ (s.leg g).state = .standby ∨ (s.leg g).state = .probe)
    → (s.lane c).presence = .present → 3 ≤ (s.lane c).debounce → level.val < (s.leg g).presThreshold
    → (∃ j ∈ (s.leg g).queue, j.isFarFetch) → s.port.slot = some ⟨0x0E, tag⟩
    → ∃ t, exec (.scanReading c level) s = .next t ∧ t.port =
    { s.port with line := s.port.line ++ [⟨0x0E, tag, .farFailed, [5, 0], true, false⟩] } ∧ s.othersKept t g)

/-- READ_NOTICES removes up to four records from the head, reports and clears the overflow marker, and re-evaluates
ALERT. SET_NOTICE_LEVELS with twelve values of 0 to 3 replaces the level table and the floor and re-evaluates
ALERT, leaving the records; a value above 3 is BAD_ARGUMENT and changes nothing. (R182, R190, R191, R192) -/
def Obligations.NoticesAreReadAndLevelled : Prop :=
  (∀ (s : State) (tag : Byte), s.takesRequests → ∃ t, exec (.readNotices ⟨tag, []⟩) s = .next t ∧ t =
    { s with notices := t.notices,
             port := s.port.answered 0x0F tag .ok ([byteOf (min 4 s.notices.records.length), boolByte s.notices.overflow] ++ (s.notices.records.take 4).flatMap Notice.bytes) }
    ∧ t.notices.records = s.notices.records.drop 4 ∧ t.notices.overflow = false ∧ t.notices.levels = s.notices.levels
    ∧ t.notices.floor = s.notices.floor ∧ (t.notices.alert = true
    ↔ ∃ n ∈ t.notices.records, t.notices.floor ≤ n.level))
  ∧ (∀ (s : State) (tag : Byte) (payload : List Byte), s.takesRequests → payload.length = 12
    → (∀ b ∈ payload, b.toNat ≤ 3) → ∃ t, exec (.setNoticeLevels ⟨tag, payload⟩) s = .next t
    ∧ t = { s with notices := t.notices, port := s.port.answered 0x10 tag .ok [] }
    ∧ t.notices.records = s.notices.records ∧ t.notices.overflow = s.notices.overflow
    ∧ (∀ k : Fin 11, t.notices.levels[k] = natAt payload k.val) ∧ t.notices.floor = natAt payload 11
    ∧ (t.notices.alert = true ↔ ∃ n ∈ t.notices.records, t.notices.floor ≤ n.level))
  ∧ (∀ (s : State) (tag : Byte) (payload : List Byte), s.takesRequests → payload.length = 12
    → (∃ b ∈ payload, 3 < b.toNat) → exec (.setNoticeLevels ⟨tag, payload⟩) s = .next
    { s with port := s.port.answered 0x10 tag .badArgument [] })

/-- COMMIT_PRESETS with no job sets the learned serial to the own serial, invalidating every entry where it differed, and
starts a job with that table and serial at write 0, answered ACCEPTED; while a job runs it is refused with
WRONG_STATE. FORGET_PRESETS makes every entry invalid and changes nothing else of the cable memory unit. (R168,
R169, R170) -/
def Obligations.PresetsAreCommittedAndForgotten : Prop :=
  (∀ (s : State) (tag : Byte), s.takesRequests → s.cable.job = none
    → ∃ t, exec (.commitPresets ⟨tag, []⟩) s = .next t
    ∧ t = { s with cable := t.cable, port := s.port.answered 0x0C tag .accepted [] }
    ∧ t.cable.learnedSerial = s.cable.serial
    ∧ (∀ c : LaneId, t.cable.learned[c] = if s.cable.learnedSerial = s.cable.serial then s.cable.learned[c] else
    { s.cable.learned[c] with valid := false }) ∧ t.cable.job = some ⟨t.cable.learned, s.cable.serial, 0, none⟩
    ∧ t.cable =
    { s.cable with learned := t.cable.learned, learnedSerial := t.cable.learnedSerial, job := t.cable.job })
  ∧ (∀ (s : State) (tag : Byte), s.takesRequests → s.cable.job ≠ none → exec (.commitPresets ⟨tag, []⟩) s = .next
    { s with port := s.port.answered 0x0C tag .wrongState [] })
  ∧ (∀ (s : State) (tag : Byte), s.takesRequests → ∃ t, exec (.forgetPresets ⟨tag, []⟩) s = .next t ∧ t =
    { s with cable := { s.cable with learned := t.cable.learned }, port := s.port.answered 0x0D tag .ok [] }
    ∧ ∀ c : LaneId, t.cable.learned[c] = { s.cable.learned[c] with valid := false })

/-- RESET_DEVICE is answered OK, the reply marked to reset the device when it has been sent; an unknown kind is answered
NOT_SUPPORTED. A START_LEG, STOP_LEG or RESET_LEG with a payload of a length other than 1, or a leg number above 3,
is answered BAD_ARGUMENT. None of them changes anything but the port. (R177, R184, R195) -/
def Obligations.ResetAndUnknownRequests : Prop :=
  (∀ (s : State) (tag : Byte), s.takesRequests → exec (.resetDevice ⟨tag, []⟩) s = .next
    { s with port := { collecting := false, slot := some ⟨0x11, tag⟩, line := s.port.line ++ [⟨0x11, tag, .ok, [], true, true⟩] } })
  ∧ (∀ (s : State) (kind : Byte) (q : RequestBody), s.takesRequests → (kind = 0 ∨ 0x11 < kind.toNat)
    → exec (.unknownRequestKind kind q) s = .next { s with port := s.port.answered kind q.tag .notSupported [] })
  ∧ (∀ (s : State) (i : Instr) (kind : Byte) (q : RequestBody), requestOf i = some (kind, q) → s.takesRequests
    → ((kind = 5 ∨ kind = 6 ∨ kind = 7) ∧ (q.payload.length ≠ 1 ∨ 3 < natAt q.payload 0))
    → exec i s = .next { s with port := s.port.answered kind q.tag .badArgument [] })

/-- On an unpinned lane a LOAD with pre above 12 or post above 18 leaves the taps and reports AT_MAX for each value out
of range and HOLD for the other; with both in range and main below 24 it leaves the taps and reports MAIN_FLOOR
twice; otherwise it writes both values, main is 48 less both, both report UPDATED, and a settle of 300 us starts
even where the values equal the old ones. (R51) -/
def Obligations.LoadWritesBothOrNeither : Prop :=
  ∀ (s : State) (g : LegId) (i : WinIx) (a b : Nat), (s.lane (s.winLane g i)).pinned = false → ((12 < a ∨ 18 < b)
    → s.applyTaps g i (.load a b) = s ∧ (s.tapOutcome g i (.load a b)).pre = (if 12 < a then .atMax else .hold)
    ∧ (s.tapOutcome g i (.load a b)).post = (if 18 < b then .atMax else .hold)
    ∧ (s.tapOutcome g i (.load a b)).taps = (s.lane (s.winLane g i)).taps) ∧ (a ≤ 12 → b ≤ 18 → 24 < a + b
    → s.applyTaps g i (.load a b) = s ∧ (s.tapOutcome g i (.load a b)).pre = .mainFloor
    ∧ (s.tapOutcome g i (.load a b)).post = .mainFloor
    ∧ (s.tapOutcome g i (.load a b)).taps = (s.lane (s.winLane g i)).taps) ∧ (a ≤ 12 → b ≤ 18 → a + b ≤ 24
    → ((s.applyTaps g i (.load a b)).lane (s.winLane g i)).taps = ⟨a, 48 - a - b, b⟩
    ∧ ((s.applyTaps g i (.load a b)).lane (s.winLane g i)).settleUntil = some (s.time + 300)
    ∧ s.tapOutcome g i (.load a b) = ⟨i, .updated, .updated, ⟨a, 48 - a - b, b⟩⟩)

/-- From lawful taps every STEP gives lawful taps; each field changes by at most one; a DEC field above 0 falls by one
and reports UPDATED, at 0 it reports AT_MIN; a HOLD field keeps its value; an INC field below its maximum either
rises by one with UPDATED or is reverted with MAIN_FLOOR, and it is reverted exactly where the candidate main would
be below 24. A request of any form applied to a pinned lane leaves the state unchanged, so no settle starts, both
fields report PINNED, and the taps reported are the pinned taps. (R47, R49, R50, R53) -/
def Obligations.StepKeepsTheTapLaw : Prop :=
  (∀ (u : Taps) (p q : StepCode), u.lawful → (applyStep u p q).1.lawful ∧ (p = .hold
    → (applyStep u p q).1.pre = u.pre ∧ (applyStep u p q).2.1 = .hold) ∧ (p = .dec
    → (applyStep u p q).1.pre = u.pre - 1 ∧ (applyStep u p q).2.1 = (if u.pre = 0 then .atMin else .updated))
    ∧ (p = .inc → u.pre = 12 → (applyStep u p q).1.pre = 12 ∧ (applyStep u p q).2.1 = .atMax) ∧ (p = .inc
    → u.pre < 12 → ((applyStep u p q).2.1 = .mainFloor ∧ (applyStep u p q).1.pre = u.pre
    ↔ 48 < (u.pre + 1) + (judgeField u.post 18 q).1 + 24) ∧ ((applyStep u p q).2.1 = .updated
    ∧ (applyStep u p q).1.pre = u.pre + 1 ↔ (u.pre + 1) + (judgeField u.post 18 q).1 + 24 ≤ 48)) ∧ (q = .hold
    → (applyStep u p q).1.post = u.post ∧ (applyStep u p q).2.2 = .hold) ∧ (q = .dec
    → (applyStep u p q).1.post = u.post - 1 ∧ (applyStep u p q).2.2 = (if u.post = 0 then .atMin else .updated))
    ∧ (q = .inc → u.post = 18 → (applyStep u p q).1.post = 18 ∧ (applyStep u p q).2.2 = .atMax) ∧ (q = .inc
    → u.post < 18 → ((applyStep u p q).2.2 = .mainFloor ∧ (applyStep u p q).1.post = u.post
    ↔ 48 < (judgeField u.pre 12 p).1 + (u.post + 1) + 24) ∧ ((applyStep u p q).2.2 = .updated
    ∧ (applyStep u p q).1.post = u.post + 1 ↔ (judgeField u.pre 12 p).1 + (u.post + 1) + 24 ≤ 48)))
    ∧ (∀ (s : State) (g : LegId) (i : WinIx) (q : TapRequest), (s.lane (s.winLane g i)).pinned
    → s.applyTaps g i q = s ∧ s.tapOutcome g i q = ⟨i, .pinned, .pinned, (s.lane (s.winLane g i)).taps⟩)

/-- Where at most one PHASE waits in the queue and the overflow hold together, queuing a PHASE leaves exactly one, the
new one; the other items and their order stay, and the queue does not grow past four. Every step keeps it so that
each leg has at most one unsent PHASE in its queue and its overflow hold, and none in its report hold. (R147, R149,
R150) -/
def Obligations.OnePhasePerLeg : Prop :=
  (∀ (l : Leg) (st : PhaseState) (a : Nat) (r : Rate), l.queue.length ≤ 4 → (∀ i, l.overflow = some i → i.isPhase)
    → (l.queue.filter Item.isPhase).length + l.overflow.toList.length ≤ 1 → (l.queuePhase st a r).queue.length ≤ 4 ∧
    ((l.queuePhase st a r).queue.filter Item.isPhase) ++ (l.queuePhase st a r).overflow.toList = [.phase st a r] ∧
    ((l.queuePhase st a r).queue.filter (fun i => !i.isPhase)) = (l.queue.filter (fun i => !i.isPhase)))
    ∧ (∀ s t : State, s.OnePhase → step s = .next t → t.OnePhase)

/-- The four data bytes of every tap request whose LOAD values fit a byte decode to it with its window index in byte 0;
the six bytes of every TAP_STATUS with lawful taps decode, for its index, to it. (R48, R54, R196) -/
def Obligations.TapItemsRoundTrip : Prop :=
  (∀ (i : WinIx) (q : TapRequest), (∀ a b, q = .load a b → a < 256 ∧ b < 256)
    → parseTapRequest (tapRequestBytes i q) = some q ∧ natAt (tapRequestBytes i q) 0 = i.val
    ∧ (tapRequestBytes i q).length = 4) ∧ (∀ u : TapStatus, u.taps.lawful → parseTapStatus u.index u.bytes = some u
    ∧ u.bytes.length = 6)

/-- If every lane, leg and cable memory record lies in its range (taps lawful, d1 within 31, peaking at most 15, queues
at most four, counters within their bounds, tallies of codes around the entry peaking), then so does every record
after any step. (R2, R19, R47, R80, R94, R147) -/
def Obligations.StepKeepsRanges : Prop :=
  ∀ s t : State, s.InRange → step s = .next t → t.InRange

/-- If windows are legal and disjoint, held by legs of the part, absent before the image is applied, and every lane
record has the owner, host lane and path its window and its leg's state give, then so it is after any step. (R4,
R5, R6, R8) -/
def Obligations.StepKeepsWindows : Prop :=
  ∀ s t : State, s.WindowsOk → step s = .next t → t.WindowsOk

/-- If attempts stand only in TRAIN, ADAPT and VERIFY and within 1 to 4, rate, identity and up since are absent in OFF,
LISTEN and FAULT, deadlines run only in attempts, holdoff and probe wait only in LISTEN, and the keepalive timer
exactly in a HUB's TRAIN to SLEEP, then so it is after any step. (R21, R24, R45, R136) -/
def Obligations.StepKeepsLifetimes : Prop :=
  ∀ s t : State, s.LifetimesOk → step s = .next t → t.LifetimesOk

/-- If the notice queue holds at most sixteen records by level, no two of one kind and leg, with counts and levels in
range, and ALERT asserted exactly where a record reaches the floor, then so it does after any step. (R185, R186,
R187, R188, R189, R192) -/
def Obligations.StepKeepsNotices : Prop :=
  ∀ s t : State, s.notices.Ok → step s = .next t → t.notices.Ok

/-- If a held grant has limit 8 or 16 and a count no higher than its limit, then so has the grant after any step. (R152,
R156, R157) -/
def Obligations.StepKeepsGrant : Prop :=
  ∀ s t : State, s.GrantOk → step s = .next t → t.GrantOk

/-- On an ordered queue: a posting with a queued record of its kind and leg raises that record's count by 1 up to 255 and
replaces its time and data, every place kept. Otherwise, below sixteen records it is inserted with count 1 and its
kind's level after every record of at least its level and ahead of every lower one. On a full queue a posting above
the lowest level present removes the tail and is inserted, any other is dropped, and either sets the overflow
marker. The queue never passes sixteen records and never holds two of one kind and leg. (The level and the count of
a new record are those R185 gives, and the order is that of R186.) (R187, R188, R189) -/
def Obligations.PostingMergesInsertsOrDisplaces : Prop :=
  ∀ (q : NoticeQueue) (k : NoticeKind) (g : Option LegId) (data : List Byte) (now : Time), orderedByLevel q.records
    → ((∃ n ∈ q.records, n.kind = k ∧ n.leg = g)
    → (q.post k g data now).records = q.records.map (fun n => if n.kind = k
    ∧ n.leg = g then { n with count := min 255 (n.count + 1), time := now, data := data } else n)
    ∧ (q.post k g data now).overflow = q.overflow) ∧ ((∀ n ∈ q.records, ¬(n.kind = k ∧ n.leg = g))
    → q.records.length < 16 → ∃ a b, q.records = a ++ b
    ∧ (q.post k g data now).records = a ++ ⟨k, g, q.levels[k.ix], 1, now, data⟩ :: b
    ∧ (∀ n ∈ a, q.levels[k.ix] ≤ n.level) ∧ (∀ n ∈ b, n.level < q.levels[k.ix])
    ∧ (q.post k g data now).overflow = q.overflow) ∧ (∀ tail rest, q.records = rest ++ [tail]
    → (∀ n ∈ q.records, ¬(n.kind = k ∧ n.leg = g)) → q.records.length = 16 → (tail.level < q.levels[k.ix]
    → ∃ a b, rest = a ++ b ∧ (q.post k g data now).records = a ++ ⟨k, g, q.levels[k.ix], 1, now, data⟩ :: b
    ∧ (∀ n ∈ a, q.levels[k.ix] ≤ n.level) ∧ (∀ n ∈ b, n.level < q.levels[k.ix])) ∧ (q.levels[k.ix] ≤ tail.level
    → (q.post k g data now).records = q.records) ∧ (q.post k g data now).overflow = true)
    ∧ (q.records.length ≤ 16 → (q.post k g data now).records.length ≤ 16)
    ∧ ((q.records.map (fun n => (n.kind, n.leg))).Nodup
    → ((q.post k g data now).records.map (fun n => (n.kind, n.leg))).Nodup)
end

