-- ==== Sys2Proof/Laws/State.lean ====
section
/-! SUPPORT. One lemma per field of the state for each update, so that no proof unfolds a record update, and what a lane's or a
leg's record is after one. -/

namespace Sys2Proof.Machine

/-! ### Tables by position -/

@[simp] theorem vec8_get {α : Type} (f : Fin 8 → α) (c : Fin 8) : (vec8 f)[c] = f c := by
  fin_cases c <;> rfl

@[simp] theorem vec4_get {α : Type} (f : Fin 4 → α) (g : Fin 4) : (vec4 f)[g] = f g := by
  fin_cases g <;> rfl

theorem mem_allLanes (c : LaneId) : c ∈ allLanes := by fin_cases c <;> decide

theorem mem_allLegs (g : LegId) : g ∈ allLegs := by fin_cases g <;> decide

/-! ### One leg changed -/

@[simp] theorem State.modLeg_role (s : State) (g : LegId) (f : Leg → Leg) : (s.modLeg g f).role = s.role := rfl

@[simp] theorem State.modLeg_strap (s : State) (g : LegId) (f : Leg → Leg) : (s.modLeg g f).strap = s.strap := rfl

@[simp] theorem State.modLeg_time (s : State) (g : LegId) (f : Leg → Leg) : (s.modLeg g f).time = s.time := rfl

@[simp] theorem State.modLeg_lanes (s : State) (g : LegId) (f : Leg → Leg) : (s.modLeg g f).lanes = s.lanes := rfl

@[simp] theorem State.modLeg_tx (s : State) (g : LegId) (f : Leg → Leg) : (s.modLeg g f).tx = s.tx := rfl

@[simp] theorem State.modLeg_grant (s : State) (g : LegId) (f : Leg → Leg) : (s.modLeg g f).grant = s.grant := rfl

@[simp] theorem State.modLeg_resp (s : State) (g : LegId) (f : Leg → Leg) : (s.modLeg g f).resp = s.resp := rfl

@[simp] theorem State.modLeg_cable (s : State) (g : LegId) (f : Leg → Leg) : (s.modLeg g f).cable = s.cable := rfl

@[simp] theorem State.modLeg_port (s : State) (g : LegId) (f : Leg → Leg) : (s.modLeg g f).port = s.port := rfl

@[simp] theorem State.modLeg_notices (s : State) (g : LegId) (f : Leg → Leg) : (s.modLeg g f).notices = s.notices := rfl

@[simp] theorem State.modLeg_free (s : State) (g : LegId) (f : Leg → Leg) : (s.modLeg g f).free = s.free := rfl

@[simp] theorem State.modLeg_pending (s : State) (g : LegId) (f : Leg → Leg) : (s.modLeg g f).pending = s.pending := rfl

@[simp] theorem State.modLeg_lane (s : State) (g : LegId) (f : Leg → Leg) (c : LaneId) :
    (s.modLeg g f).lane c = s.lane c := rfl

@[simp] theorem State.modLeg_leg_same (s : State) (g : LegId) (f : Leg → Leg) : (s.modLeg g f).leg g = f (s.leg g) := by
  simp [State.modLeg, State.leg]

@[simp] theorem State.modLeg_leg_other (s : State) (f : Leg → Leg) {g k : LegId} (h : k ≠ g) :
    (s.modLeg g f).leg k = s.leg k := by
  have hv : g.val ≠ k.val := fun e => h (Fin.ext e.symm)
  simp [State.modLeg, State.leg, hv]

theorem State.modLeg_leg (s : State) (g k : LegId) (f : Leg → Leg) :
    (s.modLeg g f).leg k = if k = g then f (s.leg g) else s.leg k := by
  by_cases h : k = g
  · subst h; simp
  · simp [h]

/-! ### One lane changed -/

@[simp] theorem State.modLane_role (s : State) (c : LaneId) (f : Lane → Lane) : (s.modLane c f).role = s.role := rfl

@[simp] theorem State.modLane_strap (s : State) (c : LaneId) (f : Lane → Lane) : (s.modLane c f).strap = s.strap := rfl

@[simp] theorem State.modLane_time (s : State) (c : LaneId) (f : Lane → Lane) : (s.modLane c f).time = s.time := rfl

@[simp] theorem State.modLane_legs (s : State) (c : LaneId) (f : Lane → Lane) : (s.modLane c f).legs = s.legs := rfl

@[simp] theorem State.modLane_tx (s : State) (c : LaneId) (f : Lane → Lane) : (s.modLane c f).tx = s.tx := rfl

@[simp] theorem State.modLane_grant (s : State) (c : LaneId) (f : Lane → Lane) : (s.modLane c f).grant = s.grant := rfl

@[simp] theorem State.modLane_resp (s : State) (c : LaneId) (f : Lane → Lane) : (s.modLane c f).resp = s.resp := rfl

@[simp] theorem State.modLane_cable (s : State) (c : LaneId) (f : Lane → Lane) : (s.modLane c f).cable = s.cable := rfl

@[simp] theorem State.modLane_port (s : State) (c : LaneId) (f : Lane → Lane) : (s.modLane c f).port = s.port := rfl

@[simp] theorem State.modLane_notices (s : State) (c : LaneId) (f : Lane → Lane) : (s.modLane c f).notices = s.notices := rfl

@[simp] theorem State.modLane_free (s : State) (c : LaneId) (f : Lane → Lane) : (s.modLane c f).free = s.free := rfl

@[simp] theorem State.modLane_pending (s : State) (c : LaneId) (f : Lane → Lane) : (s.modLane c f).pending = s.pending := rfl

@[simp] theorem State.modLane_leg (s : State) (c : LaneId) (f : Lane → Lane) (g : LegId) :
    (s.modLane c f).leg g = s.leg g := rfl

@[simp] theorem State.modLane_lane_same (s : State) (c : LaneId) (f : Lane → Lane) :
    (s.modLane c f).lane c = f (s.lane c) := by
  simp [State.modLane, State.lane]

@[simp] theorem State.modLane_lane_other (s : State) (f : Lane → Lane) {c d : LaneId} (h : d ≠ c) :
    (s.modLane c f).lane d = s.lane d := by
  have hv : c.val ≠ d.val := fun e => h (Fin.ext e.symm)
  simp [State.modLane, State.lane, hv]

theorem State.modLane_lane (s : State) (c d : LaneId) (f : Lane → Lane) :
    (s.modLane c f).lane d = if d = c then f (s.lane c) else s.lane d := by
  by_cases h : d = c
  · subst h; simp
  · simp [h]

/-! ### Every lane or every leg changed -/

@[simp] theorem State.mapLanes_role (s : State) (f : LaneId → Lane → Lane) : (s.mapLanes f).role = s.role := rfl

@[simp] theorem State.mapLanes_strap (s : State) (f : LaneId → Lane → Lane) : (s.mapLanes f).strap = s.strap := rfl

@[simp] theorem State.mapLanes_time (s : State) (f : LaneId → Lane → Lane) : (s.mapLanes f).time = s.time := rfl

@[simp] theorem State.mapLanes_legs (s : State) (f : LaneId → Lane → Lane) : (s.mapLanes f).legs = s.legs := rfl

@[simp] theorem State.mapLanes_tx (s : State) (f : LaneId → Lane → Lane) : (s.mapLanes f).tx = s.tx := rfl

@[simp] theorem State.mapLanes_grant (s : State) (f : LaneId → Lane → Lane) : (s.mapLanes f).grant = s.grant := rfl

@[simp] theorem State.mapLanes_resp (s : State) (f : LaneId → Lane → Lane) : (s.mapLanes f).resp = s.resp := rfl

@[simp] theorem State.mapLanes_cable (s : State) (f : LaneId → Lane → Lane) : (s.mapLanes f).cable = s.cable := rfl

@[simp] theorem State.mapLanes_port (s : State) (f : LaneId → Lane → Lane) : (s.mapLanes f).port = s.port := rfl

@[simp] theorem State.mapLanes_notices (s : State) (f : LaneId → Lane → Lane) : (s.mapLanes f).notices = s.notices := rfl

@[simp] theorem State.mapLanes_free (s : State) (f : LaneId → Lane → Lane) : (s.mapLanes f).free = s.free := rfl

@[simp] theorem State.mapLanes_pending (s : State) (f : LaneId → Lane → Lane) : (s.mapLanes f).pending = s.pending := rfl

@[simp] theorem State.mapLanes_leg (s : State) (f : LaneId → Lane → Lane) (g : LegId) :
    (s.mapLanes f).leg g = s.leg g := rfl

@[simp] theorem State.mapLanes_lane (s : State) (f : LaneId → Lane → Lane) (c : LaneId) :
    (s.mapLanes f).lane c = f c (s.lane c) := vec8_get _ c

@[simp] theorem State.mapLegs_role (s : State) (f : LegId → Leg → Leg) : (s.mapLegs f).role = s.role := rfl

@[simp] theorem State.mapLegs_strap (s : State) (f : LegId → Leg → Leg) : (s.mapLegs f).strap = s.strap := rfl

@[simp] theorem State.mapLegs_time (s : State) (f : LegId → Leg → Leg) : (s.mapLegs f).time = s.time := rfl

@[simp] theorem State.mapLegs_lanes (s : State) (f : LegId → Leg → Leg) : (s.mapLegs f).lanes = s.lanes := rfl

@[simp] theorem State.mapLegs_tx (s : State) (f : LegId → Leg → Leg) : (s.mapLegs f).tx = s.tx := rfl

@[simp] theorem State.mapLegs_grant (s : State) (f : LegId → Leg → Leg) : (s.mapLegs f).grant = s.grant := rfl

@[simp] theorem State.mapLegs_resp (s : State) (f : LegId → Leg → Leg) : (s.mapLegs f).resp = s.resp := rfl

@[simp] theorem State.mapLegs_cable (s : State) (f : LegId → Leg → Leg) : (s.mapLegs f).cable = s.cable := rfl

@[simp] theorem State.mapLegs_port (s : State) (f : LegId → Leg → Leg) : (s.mapLegs f).port = s.port := rfl

@[simp] theorem State.mapLegs_notices (s : State) (f : LegId → Leg → Leg) : (s.mapLegs f).notices = s.notices := rfl

@[simp] theorem State.mapLegs_free (s : State) (f : LegId → Leg → Leg) : (s.mapLegs f).free = s.free := rfl

@[simp] theorem State.mapLegs_pending (s : State) (f : LegId → Leg → Leg) : (s.mapLegs f).pending = s.pending := rfl

@[simp] theorem State.mapLegs_lane (s : State) (f : LegId → Leg → Leg) (c : LaneId) :
    (s.mapLegs f).lane c = s.lane c := rfl

@[simp] theorem State.mapLegs_leg (s : State) (f : LegId → Leg → Leg) (g : LegId) :
    (s.mapLegs f).leg g = f g (s.leg g) := vec4_get _ g

@[simp] theorem State.modWindow_role (s : State) (g : LegId) (f : Lane → Lane) : (s.modWindow g f).role = s.role := rfl

@[simp] theorem State.modWindow_strap (s : State) (g : LegId) (f : Lane → Lane) : (s.modWindow g f).strap = s.strap := rfl

@[simp] theorem State.modWindow_time (s : State) (g : LegId) (f : Lane → Lane) : (s.modWindow g f).time = s.time := rfl

@[simp] theorem State.modWindow_legs (s : State) (g : LegId) (f : Lane → Lane) : (s.modWindow g f).legs = s.legs := rfl

@[simp] theorem State.modWindow_tx (s : State) (g : LegId) (f : Lane → Lane) : (s.modWindow g f).tx = s.tx := rfl

@[simp] theorem State.modWindow_grant (s : State) (g : LegId) (f : Lane → Lane) : (s.modWindow g f).grant = s.grant := rfl

@[simp] theorem State.modWindow_resp (s : State) (g : LegId) (f : Lane → Lane) : (s.modWindow g f).resp = s.resp := rfl

@[simp] theorem State.modWindow_cable (s : State) (g : LegId) (f : Lane → Lane) : (s.modWindow g f).cable = s.cable := rfl

@[simp] theorem State.modWindow_port (s : State) (g : LegId) (f : Lane → Lane) : (s.modWindow g f).port = s.port := rfl

@[simp] theorem State.modWindow_notices (s : State) (g : LegId) (f : Lane → Lane) : (s.modWindow g f).notices = s.notices := rfl

@[simp] theorem State.modWindow_free (s : State) (g : LegId) (f : Lane → Lane) : (s.modWindow g f).free = s.free := rfl

@[simp] theorem State.modWindow_pending (s : State) (g : LegId) (f : Lane → Lane) : (s.modWindow g f).pending = s.pending := rfl

@[simp] theorem State.modWindow_leg (s : State) (g k : LegId) (f : Lane → Lane) : (s.modWindow g f).leg k = s.leg k := rfl

@[simp] theorem State.modWindow_lane (s : State) (g : LegId) (f : Lane → Lane) (c : LaneId) :
    (s.modWindow g f).lane c = if (s.winLanes g).contains c then f (s.lane c) else s.lane c := by
  simp [State.modWindow]

/-! ### Notices and replies -/

@[simp] theorem State.post_role (s : State) (k : NoticeKind) (g : Option LegId) (data : List Byte) :
    (s.post k g data).role = s.role := rfl

@[simp] theorem State.post_strap (s : State) (k : NoticeKind) (g : Option LegId) (data : List Byte) :
    (s.post k g data).strap = s.strap := rfl

@[simp] theorem State.post_time (s : State) (k : NoticeKind) (g : Option LegId) (data : List Byte) :
    (s.post k g data).time = s.time := rfl

@[simp] theorem State.post_lanes (s : State) (k : NoticeKind) (g : Option LegId) (data : List Byte) :
    (s.post k g data).lanes = s.lanes := rfl

@[simp] theorem State.post_legs (s : State) (k : NoticeKind) (g : Option LegId) (data : List Byte) :
    (s.post k g data).legs = s.legs := rfl

@[simp] theorem State.post_tx (s : State) (k : NoticeKind) (g : Option LegId) (data : List Byte) :
    (s.post k g data).tx = s.tx := rfl

@[simp] theorem State.post_grant (s : State) (k : NoticeKind) (g : Option LegId) (data : List Byte) :
    (s.post k g data).grant = s.grant := rfl

@[simp] theorem State.post_resp (s : State) (k : NoticeKind) (g : Option LegId) (data : List Byte) :
    (s.post k g data).resp = s.resp := rfl

@[simp] theorem State.post_cable (s : State) (k : NoticeKind) (g : Option LegId) (data : List Byte) :
    (s.post k g data).cable = s.cable := rfl

@[simp] theorem State.post_port (s : State) (k : NoticeKind) (g : Option LegId) (data : List Byte) :
    (s.post k g data).port = s.port := rfl

@[simp] theorem State.post_free (s : State) (k : NoticeKind) (g : Option LegId) (data : List Byte) :
    (s.post k g data).free = s.free := rfl

@[simp] theorem State.post_pending (s : State) (k : NoticeKind) (g : Option LegId) (data : List Byte) :
    (s.post k g data).pending = s.pending := rfl

@[simp] theorem State.post_lane (s : State) (k : NoticeKind) (g : Option LegId) (data : List Byte) (c : LaneId) :
    (s.post k g data).lane c = s.lane c := rfl

@[simp] theorem State.post_leg (s : State) (k : NoticeKind) (o : Option LegId) (data : List Byte) (g : LegId) :
    (s.post k o data).leg g = s.leg g := rfl

@[simp] theorem State.post_notices (s : State) (k : NoticeKind) (g : Option LegId) (data : List Byte) :
    (s.post k g data).notices = s.notices.post k g data s.time := rfl

@[simp] theorem State.reply_role (s : State) (st : Status) (payload : List Byte) : (s.reply st payload).role = s.role := rfl

@[simp] theorem State.reply_strap (s : State) (st : Status) (payload : List Byte) : (s.reply st payload).strap = s.strap := rfl

@[simp] theorem State.reply_time (s : State) (st : Status) (payload : List Byte) : (s.reply st payload).time = s.time := rfl

@[simp] theorem State.reply_lanes (s : State) (st : Status) (payload : List Byte) : (s.reply st payload).lanes = s.lanes := rfl

@[simp] theorem State.reply_legs (s : State) (st : Status) (payload : List Byte) : (s.reply st payload).legs = s.legs := rfl

@[simp] theorem State.reply_tx (s : State) (st : Status) (payload : List Byte) : (s.reply st payload).tx = s.tx := rfl

@[simp] theorem State.reply_grant (s : State) (st : Status) (payload : List Byte) : (s.reply st payload).grant = s.grant := rfl

@[simp] theorem State.reply_resp (s : State) (st : Status) (payload : List Byte) : (s.reply st payload).resp = s.resp := rfl

@[simp] theorem State.reply_cable (s : State) (st : Status) (payload : List Byte) : (s.reply st payload).cable = s.cable := rfl

@[simp] theorem State.reply_notices (s : State) (st : Status) (payload : List Byte) :
    (s.reply st payload).notices = s.notices := rfl

@[simp] theorem State.reply_free (s : State) (st : Status) (payload : List Byte) : (s.reply st payload).free = s.free := rfl

@[simp] theorem State.reply_pending (s : State) (st : Status) (payload : List Byte) :
    (s.reply st payload).pending = s.pending := rfl

@[simp] theorem State.reply_lane (s : State) (st : Status) (payload : List Byte) (c : LaneId) :
    (s.reply st payload).lane c = s.lane c := rfl

@[simp] theorem State.reply_leg (s : State) (st : Status) (payload : List Byte) (g : LegId) :
    (s.reply st payload).leg g = s.leg g := rfl

@[simp] theorem State.reply_port (s : State) (st : Status) (payload : List Byte) :
    (s.reply st payload).port = s.port.answer st payload false := rfl

/-! ### The management port -/

@[simp] theorem State.collect_role (s : State) (b : Bool) : (s.collect b).role = s.role := rfl

@[simp] theorem State.collect_strap (s : State) (b : Bool) : (s.collect b).strap = s.strap := rfl

@[simp] theorem State.collect_time (s : State) (b : Bool) : (s.collect b).time = s.time := rfl

@[simp] theorem State.collect_lanes (s : State) (b : Bool) : (s.collect b).lanes = s.lanes := rfl

@[simp] theorem State.collect_legs (s : State) (b : Bool) : (s.collect b).legs = s.legs := rfl

@[simp] theorem State.collect_tx (s : State) (b : Bool) : (s.collect b).tx = s.tx := rfl

@[simp] theorem State.collect_grant (s : State) (b : Bool) : (s.collect b).grant = s.grant := rfl

@[simp] theorem State.collect_resp (s : State) (b : Bool) : (s.collect b).resp = s.resp := rfl

@[simp] theorem State.collect_cable (s : State) (b : Bool) : (s.collect b).cable = s.cable := rfl

@[simp] theorem State.collect_notices (s : State) (b : Bool) : (s.collect b).notices = s.notices := rfl

@[simp] theorem State.collect_free (s : State) (b : Bool) : (s.collect b).free = s.free := rfl

@[simp] theorem State.collect_pending (s : State) (b : Bool) : (s.collect b).pending = s.pending := rfl

@[simp] theorem State.collect_lane (s : State) (b : Bool) (c : LaneId) : (s.collect b).lane c = s.lane c := rfl

@[simp] theorem State.collect_leg (s : State) (b : Bool) (g : LegId) : (s.collect b).leg g = s.leg g := rfl

@[simp] theorem State.occupy_role (s : State) (kind tag : Byte) : (s.occupy kind tag).role = s.role := rfl

@[simp] theorem State.occupy_strap (s : State) (kind tag : Byte) : (s.occupy kind tag).strap = s.strap := rfl

@[simp] theorem State.occupy_time (s : State) (kind tag : Byte) : (s.occupy kind tag).time = s.time := rfl

@[simp] theorem State.occupy_lanes (s : State) (kind tag : Byte) : (s.occupy kind tag).lanes = s.lanes := rfl

@[simp] theorem State.occupy_legs (s : State) (kind tag : Byte) : (s.occupy kind tag).legs = s.legs := rfl

@[simp] theorem State.occupy_tx (s : State) (kind tag : Byte) : (s.occupy kind tag).tx = s.tx := rfl

@[simp] theorem State.occupy_grant (s : State) (kind tag : Byte) : (s.occupy kind tag).grant = s.grant := rfl

@[simp] theorem State.occupy_resp (s : State) (kind tag : Byte) : (s.occupy kind tag).resp = s.resp := rfl

@[simp] theorem State.occupy_cable (s : State) (kind tag : Byte) : (s.occupy kind tag).cable = s.cable := rfl

@[simp] theorem State.occupy_notices (s : State) (kind tag : Byte) : (s.occupy kind tag).notices = s.notices := rfl

@[simp] theorem State.occupy_free (s : State) (kind tag : Byte) : (s.occupy kind tag).free = s.free := rfl

@[simp] theorem State.occupy_pending (s : State) (kind tag : Byte) : (s.occupy kind tag).pending = s.pending := rfl

@[simp] theorem State.occupy_lane (s : State) (kind tag : Byte) (c : LaneId) : (s.occupy kind tag).lane c = s.lane c := rfl

@[simp] theorem State.occupy_leg (s : State) (kind tag : Byte) (g : LegId) : (s.occupy kind tag).leg g = s.leg g := rfl

/-! ### The END responder -/

@[simp] theorem State.send_role (s : State) (frame : List Byte) : (s.send frame).role = s.role := rfl

@[simp] theorem State.send_strap (s : State) (frame : List Byte) : (s.send frame).strap = s.strap := rfl

@[simp] theorem State.send_time (s : State) (frame : List Byte) : (s.send frame).time = s.time := rfl

@[simp] theorem State.send_lanes (s : State) (frame : List Byte) : (s.send frame).lanes = s.lanes := rfl

@[simp] theorem State.send_legs (s : State) (frame : List Byte) : (s.send frame).legs = s.legs := rfl

@[simp] theorem State.send_tx (s : State) (frame : List Byte) : (s.send frame).tx = s.tx := rfl

@[simp] theorem State.send_grant (s : State) (frame : List Byte) : (s.send frame).grant = s.grant := rfl

@[simp] theorem State.send_cable (s : State) (frame : List Byte) : (s.send frame).cable = s.cable := rfl

@[simp] theorem State.send_port (s : State) (frame : List Byte) : (s.send frame).port = s.port := rfl

@[simp] theorem State.send_notices (s : State) (frame : List Byte) : (s.send frame).notices = s.notices := rfl

@[simp] theorem State.send_free (s : State) (frame : List Byte) : (s.send frame).free = s.free := rfl

@[simp] theorem State.send_pending (s : State) (frame : List Byte) : (s.send frame).pending = s.pending := rfl

@[simp] theorem State.send_lane (s : State) (frame : List Byte) (c : LaneId) : (s.send frame).lane c = s.lane c := rfl

@[simp] theorem State.send_leg (s : State) (frame : List Byte) (g : LegId) : (s.send frame).leg g = s.leg g := rfl

@[simp] theorem State.answer_role (s : State) (kind : BitVec 3) (item : Byte) (f : CommandBody) (frame : List Byte) :
    (s.answer kind item f frame).role = s.role := rfl

@[simp] theorem State.answer_strap (s : State) (kind : BitVec 3) (item : Byte) (f : CommandBody) (frame : List Byte) :
    (s.answer kind item f frame).strap = s.strap := rfl

@[simp] theorem State.answer_time (s : State) (kind : BitVec 3) (item : Byte) (f : CommandBody) (frame : List Byte) :
    (s.answer kind item f frame).time = s.time := rfl

@[simp] theorem State.answer_lanes (s : State) (kind : BitVec 3) (item : Byte) (f : CommandBody) (frame : List Byte) :
    (s.answer kind item f frame).lanes = s.lanes := rfl

@[simp] theorem State.answer_legs (s : State) (kind : BitVec 3) (item : Byte) (f : CommandBody) (frame : List Byte) :
    (s.answer kind item f frame).legs = s.legs := rfl

@[simp] theorem State.answer_tx (s : State) (kind : BitVec 3) (item : Byte) (f : CommandBody) (frame : List Byte) :
    (s.answer kind item f frame).tx = s.tx := rfl

@[simp] theorem State.answer_grant (s : State) (kind : BitVec 3) (item : Byte) (f : CommandBody) (frame : List Byte) :
    (s.answer kind item f frame).grant = s.grant := rfl

@[simp] theorem State.answer_cable (s : State) (kind : BitVec 3) (item : Byte) (f : CommandBody) (frame : List Byte) :
    (s.answer kind item f frame).cable = s.cable := rfl

@[simp] theorem State.answer_port (s : State) (kind : BitVec 3) (item : Byte) (f : CommandBody) (frame : List Byte) :
    (s.answer kind item f frame).port = s.port := rfl

@[simp] theorem State.answer_notices (s : State) (kind : BitVec 3) (item : Byte) (f : CommandBody) (frame : List Byte) :
    (s.answer kind item f frame).notices = s.notices := rfl

@[simp] theorem State.answer_free (s : State) (kind : BitVec 3) (item : Byte) (f : CommandBody) (frame : List Byte) :
    (s.answer kind item f frame).free = s.free := rfl

@[simp] theorem State.answer_pending (s : State) (kind : BitVec 3) (item : Byte) (f : CommandBody) (frame : List Byte) :
    (s.answer kind item f frame).pending = s.pending := rfl

@[simp] theorem State.answer_lane (s : State) (kind : BitVec 3) (item : Byte) (f : CommandBody) (frame : List Byte) (c : LaneId) :
    (s.answer kind item f frame).lane c = s.lane c := rfl

@[simp] theorem State.answer_leg (s : State) (kind : BitVec 3) (item : Byte) (f : CommandBody) (frame : List Byte) (g : LegId) :
    (s.answer kind item f frame).leg g = s.leg g := rfl

/-! ### The coefficient unit -/

@[simp] theorem State.writeTaps_role (s : State) (c : LaneId) (t : Taps) : (s.writeTaps c t).role = s.role := rfl

@[simp] theorem State.writeTaps_strap (s : State) (c : LaneId) (t : Taps) : (s.writeTaps c t).strap = s.strap := rfl

@[simp] theorem State.writeTaps_time (s : State) (c : LaneId) (t : Taps) : (s.writeTaps c t).time = s.time := rfl

@[simp] theorem State.writeTaps_legs (s : State) (c : LaneId) (t : Taps) : (s.writeTaps c t).legs = s.legs := rfl

@[simp] theorem State.writeTaps_tx (s : State) (c : LaneId) (t : Taps) : (s.writeTaps c t).tx = s.tx := rfl

@[simp] theorem State.writeTaps_grant (s : State) (c : LaneId) (t : Taps) : (s.writeTaps c t).grant = s.grant := rfl

@[simp] theorem State.writeTaps_resp (s : State) (c : LaneId) (t : Taps) : (s.writeTaps c t).resp = s.resp := rfl

@[simp] theorem State.writeTaps_cable (s : State) (c : LaneId) (t : Taps) : (s.writeTaps c t).cable = s.cable := rfl

@[simp] theorem State.writeTaps_port (s : State) (c : LaneId) (t : Taps) : (s.writeTaps c t).port = s.port := rfl

@[simp] theorem State.writeTaps_notices (s : State) (c : LaneId) (t : Taps) : (s.writeTaps c t).notices = s.notices := rfl

@[simp] theorem State.writeTaps_free (s : State) (c : LaneId) (t : Taps) : (s.writeTaps c t).free = s.free := rfl

@[simp] theorem State.writeTaps_pending (s : State) (c : LaneId) (t : Taps) : (s.writeTaps c t).pending = s.pending := rfl

@[simp] theorem State.writeTaps_leg (s : State) (c : LaneId) (t : Taps) (g : LegId) : (s.writeTaps c t).leg g = s.leg g := rfl

theorem State.writeTaps_lane (s : State) (c d : LaneId) (t : Taps) :
    (s.writeTaps c t).lane d
      = if d = c then { s.lane c with taps := t, settleUntil := some (s.after 300) } else s.lane d :=
  State.modLane_lane s c d _

/-! ### The arbiter and the engine -/

@[simp] theorem State.countTx_role (s : State) : (s.countTx).role = s.role := rfl

@[simp] theorem State.countTx_strap (s : State) : (s.countTx).strap = s.strap := rfl

@[simp] theorem State.countTx_time (s : State) : (s.countTx).time = s.time := rfl

@[simp] theorem State.countTx_lanes (s : State) : (s.countTx).lanes = s.lanes := rfl

@[simp] theorem State.countTx_legs (s : State) : (s.countTx).legs = s.legs := rfl

@[simp] theorem State.countTx_tx (s : State) : (s.countTx).tx = s.tx := rfl

@[simp] theorem State.countTx_resp (s : State) : (s.countTx).resp = s.resp := rfl

@[simp] theorem State.countTx_cable (s : State) : (s.countTx).cable = s.cable := rfl

@[simp] theorem State.countTx_port (s : State) : (s.countTx).port = s.port := rfl

@[simp] theorem State.countTx_notices (s : State) : (s.countTx).notices = s.notices := rfl

@[simp] theorem State.countTx_free (s : State) : (s.countTx).free = s.free := rfl

@[simp] theorem State.countTx_pending (s : State) : (s.countTx).pending = s.pending := rfl

@[simp] theorem State.countTx_lane (s : State) (c : LaneId) : (s.countTx).lane c = s.lane c := rfl

@[simp] theorem State.countTx_leg (s : State) (g : LegId) : (s.countTx).leg g = s.leg g := rfl

@[simp] theorem State.beginTx_role (s : State) (g : LegId) (w : Work) : (s.beginTx g w).role = s.role := rfl

@[simp] theorem State.beginTx_strap (s : State) (g : LegId) (w : Work) : (s.beginTx g w).strap = s.strap := rfl

@[simp] theorem State.beginTx_time (s : State) (g : LegId) (w : Work) : (s.beginTx g w).time = s.time := rfl

@[simp] theorem State.beginTx_lanes (s : State) (g : LegId) (w : Work) : (s.beginTx g w).lanes = s.lanes := rfl

@[simp] theorem State.beginTx_grant (s : State) (g : LegId) (w : Work) : (s.beginTx g w).grant = s.grant := rfl

@[simp] theorem State.beginTx_resp (s : State) (g : LegId) (w : Work) : (s.beginTx g w).resp = s.resp := rfl

@[simp] theorem State.beginTx_cable (s : State) (g : LegId) (w : Work) : (s.beginTx g w).cable = s.cable := rfl

@[simp] theorem State.beginTx_port (s : State) (g : LegId) (w : Work) : (s.beginTx g w).port = s.port := rfl

@[simp] theorem State.beginTx_notices (s : State) (g : LegId) (w : Work) : (s.beginTx g w).notices = s.notices := rfl

@[simp] theorem State.beginTx_free (s : State) (g : LegId) (w : Work) : (s.beginTx g w).free = s.free := rfl

@[simp] theorem State.beginTx_pending (s : State) (g : LegId) (w : Work) : (s.beginTx g w).pending = s.pending := rfl

@[simp] theorem State.beginTx_lane (s : State) (g : LegId) (w : Work) (c : LaneId) : (s.beginTx g w).lane c = s.lane c := rfl

theorem State.beginTx_tx (s : State) (g : LegId) (w : Work) :
    ∃ x, (s.beginTx g w).tx = some x ∧ x.leg = g ∧ x.work = w ∧ x.seq = !(s.leg g).seq ∧ x.phase = .sending
      ∧ x.expiry = s.after 2000 := ⟨_, rfl, rfl, rfl, rfl, rfl, rfl⟩

@[simp] theorem State.endGrant_role (s : State) (r : Grant) : (s.endGrant r).role = s.role := rfl

@[simp] theorem State.endGrant_strap (s : State) (r : Grant) : (s.endGrant r).strap = s.strap := rfl

@[simp] theorem State.endGrant_time (s : State) (r : Grant) : (s.endGrant r).time = s.time := rfl

@[simp] theorem State.endGrant_lanes (s : State) (r : Grant) : (s.endGrant r).lanes = s.lanes := rfl

@[simp] theorem State.endGrant_tx (s : State) (r : Grant) : (s.endGrant r).tx = s.tx := rfl

@[simp] theorem State.endGrant_resp (s : State) (r : Grant) : (s.endGrant r).resp = s.resp := rfl

@[simp] theorem State.endGrant_cable (s : State) (r : Grant) : (s.endGrant r).cable = s.cable := rfl

@[simp] theorem State.endGrant_port (s : State) (r : Grant) : (s.endGrant r).port = s.port := rfl

@[simp] theorem State.endGrant_notices (s : State) (r : Grant) : (s.endGrant r).notices = s.notices := rfl

@[simp] theorem State.endGrant_free (s : State) (r : Grant) : (s.endGrant r).free = s.free := rfl

@[simp] theorem State.endGrant_pending (s : State) (r : Grant) : (s.endGrant r).pending = s.pending := rfl

@[simp] theorem State.endGrant_lane (s : State) (r : Grant) (c : LaneId) : (s.endGrant r).lane c = s.lane c := rfl

/-! ### The leg controller -/

@[simp] theorem State.startDeadline_role (s : State) (g : LegId) (us : Nat) : (s.startDeadline g us).role = s.role := rfl

@[simp] theorem State.startDeadline_strap (s : State) (g : LegId) (us : Nat) : (s.startDeadline g us).strap = s.strap := rfl

@[simp] theorem State.startDeadline_time (s : State) (g : LegId) (us : Nat) : (s.startDeadline g us).time = s.time := rfl

@[simp] theorem State.startDeadline_lanes (s : State) (g : LegId) (us : Nat) : (s.startDeadline g us).lanes = s.lanes := rfl

@[simp] theorem State.startDeadline_tx (s : State) (g : LegId) (us : Nat) : (s.startDeadline g us).tx = s.tx := rfl

@[simp] theorem State.startDeadline_grant (s : State) (g : LegId) (us : Nat) : (s.startDeadline g us).grant = s.grant := rfl

@[simp] theorem State.startDeadline_resp (s : State) (g : LegId) (us : Nat) : (s.startDeadline g us).resp = s.resp := rfl

@[simp] theorem State.startDeadline_cable (s : State) (g : LegId) (us : Nat) : (s.startDeadline g us).cable = s.cable := rfl

@[simp] theorem State.startDeadline_port (s : State) (g : LegId) (us : Nat) : (s.startDeadline g us).port = s.port := rfl

@[simp] theorem State.startDeadline_notices (s : State) (g : LegId) (us : Nat) :
    (s.startDeadline g us).notices = s.notices := rfl

@[simp] theorem State.startDeadline_free (s : State) (g : LegId) (us : Nat) : (s.startDeadline g us).free = s.free := rfl

@[simp] theorem State.startDeadline_pending (s : State) (g : LegId) (us : Nat) :
    (s.startDeadline g us).pending = s.pending := rfl

@[simp] theorem State.startDeadline_lane (s : State) (g : LegId) (us : Nat) (c : LaneId) :
    (s.startDeadline g us).lane c = s.lane c := rfl

@[simp] theorem State.queuePhase_role (s : State) (g : LegId) (st : PhaseState) (attempt : Nat) :
    (s.queuePhase g st attempt).role = s.role := rfl

@[simp] theorem State.queuePhase_strap (s : State) (g : LegId) (st : PhaseState) (attempt : Nat) :
    (s.queuePhase g st attempt).strap = s.strap := rfl

@[simp] theorem State.queuePhase_time (s : State) (g : LegId) (st : PhaseState) (attempt : Nat) :
    (s.queuePhase g st attempt).time = s.time := rfl

@[simp] theorem State.queuePhase_lanes (s : State) (g : LegId) (st : PhaseState) (attempt : Nat) :
    (s.queuePhase g st attempt).lanes = s.lanes := rfl

@[simp] theorem State.queuePhase_tx (s : State) (g : LegId) (st : PhaseState) (attempt : Nat) :
    (s.queuePhase g st attempt).tx = s.tx := rfl

@[simp] theorem State.queuePhase_grant (s : State) (g : LegId) (st : PhaseState) (attempt : Nat) :
    (s.queuePhase g st attempt).grant = s.grant := rfl

@[simp] theorem State.queuePhase_resp (s : State) (g : LegId) (st : PhaseState) (attempt : Nat) :
    (s.queuePhase g st attempt).resp = s.resp := rfl

@[simp] theorem State.queuePhase_cable (s : State) (g : LegId) (st : PhaseState) (attempt : Nat) :
    (s.queuePhase g st attempt).cable = s.cable := rfl

@[simp] theorem State.queuePhase_port (s : State) (g : LegId) (st : PhaseState) (attempt : Nat) :
    (s.queuePhase g st attempt).port = s.port := rfl

@[simp] theorem State.queuePhase_notices (s : State) (g : LegId) (st : PhaseState) (attempt : Nat) :
    (s.queuePhase g st attempt).notices = s.notices := rfl

@[simp] theorem State.queuePhase_free (s : State) (g : LegId) (st : PhaseState) (attempt : Nat) :
    (s.queuePhase g st attempt).free = s.free := rfl

@[simp] theorem State.queuePhase_pending (s : State) (g : LegId) (st : PhaseState) (attempt : Nat) :
    (s.queuePhase g st attempt).pending = s.pending := rfl

@[simp] theorem State.queuePhase_lane (s : State) (g : LegId) (st : PhaseState) (attempt : Nat) (c : LaneId) :
    (s.queuePhase g st attempt).lane c = s.lane c := rfl

@[simp] theorem State.startVerify_role (s : State) (g : LegId) : (s.startVerify g).role = s.role := rfl

@[simp] theorem State.startVerify_strap (s : State) (g : LegId) : (s.startVerify g).strap = s.strap := rfl

@[simp] theorem State.startVerify_time (s : State) (g : LegId) : (s.startVerify g).time = s.time := rfl

@[simp] theorem State.startVerify_lanes (s : State) (g : LegId) : (s.startVerify g).lanes = s.lanes := rfl

@[simp] theorem State.startVerify_tx (s : State) (g : LegId) : (s.startVerify g).tx = s.tx := rfl

@[simp] theorem State.startVerify_grant (s : State) (g : LegId) : (s.startVerify g).grant = s.grant := rfl

@[simp] theorem State.startVerify_resp (s : State) (g : LegId) : (s.startVerify g).resp = s.resp := rfl

@[simp] theorem State.startVerify_cable (s : State) (g : LegId) : (s.startVerify g).cable = s.cable := rfl

@[simp] theorem State.startVerify_port (s : State) (g : LegId) : (s.startVerify g).port = s.port := rfl

@[simp] theorem State.startVerify_notices (s : State) (g : LegId) : (s.startVerify g).notices = s.notices := rfl

@[simp] theorem State.startVerify_free (s : State) (g : LegId) : (s.startVerify g).free = s.free := rfl

@[simp] theorem State.startVerify_pending (s : State) (g : LegId) : (s.startVerify g).pending = s.pending := rfl

@[simp] theorem State.startVerify_lane (s : State) (g : LegId) (c : LaneId) : (s.startVerify g).lane c = s.lane c := rfl

@[simp] theorem State.handOver_role (s : State) (g : LegId) : (s.handOver g).role = s.role := rfl

@[simp] theorem State.handOver_strap (s : State) (g : LegId) : (s.handOver g).strap = s.strap := rfl

@[simp] theorem State.handOver_time (s : State) (g : LegId) : (s.handOver g).time = s.time := rfl

@[simp] theorem State.handOver_lanes (s : State) (g : LegId) : (s.handOver g).lanes = s.lanes := rfl

@[simp] theorem State.handOver_legs (s : State) (g : LegId) : (s.handOver g).legs = s.legs := rfl

@[simp] theorem State.handOver_tx (s : State) (g : LegId) : (s.handOver g).tx = s.tx := rfl

@[simp] theorem State.handOver_grant (s : State) (g : LegId) : (s.handOver g).grant = s.grant := rfl

@[simp] theorem State.handOver_resp (s : State) (g : LegId) : (s.handOver g).resp = s.resp := rfl

@[simp] theorem State.handOver_port (s : State) (g : LegId) : (s.handOver g).port = s.port := rfl

@[simp] theorem State.handOver_notices (s : State) (g : LegId) : (s.handOver g).notices = s.notices := rfl

@[simp] theorem State.handOver_pending (s : State) (g : LegId) : (s.handOver g).pending = s.pending := rfl

@[simp] theorem State.handOver_lane (s : State) (g : LegId) (c : LaneId) : (s.handOver g).lane c = s.lane c := rfl

@[simp] theorem State.handOver_leg (s : State) (g k : LegId) : (s.handOver g).leg k = s.leg k := rfl

/-! ### Windows -/

@[simp] theorem State.installWindow_role (s : State) (g : LegId) (w : Window) : (s.installWindow g w).role = s.role := rfl

@[simp] theorem State.installWindow_strap (s : State) (g : LegId) (w : Window) : (s.installWindow g w).strap = s.strap := rfl

@[simp] theorem State.installWindow_time (s : State) (g : LegId) (w : Window) : (s.installWindow g w).time = s.time := rfl

@[simp] theorem State.installWindow_tx (s : State) (g : LegId) (w : Window) : (s.installWindow g w).tx = s.tx := rfl

@[simp] theorem State.installWindow_grant (s : State) (g : LegId) (w : Window) : (s.installWindow g w).grant = s.grant := rfl

@[simp] theorem State.installWindow_resp (s : State) (g : LegId) (w : Window) : (s.installWindow g w).resp = s.resp := rfl

@[simp] theorem State.installWindow_cable (s : State) (g : LegId) (w : Window) : (s.installWindow g w).cable = s.cable := rfl

@[simp] theorem State.installWindow_port (s : State) (g : LegId) (w : Window) : (s.installWindow g w).port = s.port := rfl

@[simp] theorem State.installWindow_notices (s : State) (g : LegId) (w : Window) :
    (s.installWindow g w).notices = s.notices := rfl

@[simp] theorem State.installWindow_free (s : State) (g : LegId) (w : Window) : (s.installWindow g w).free = s.free := rfl

@[simp] theorem State.installWindow_pending (s : State) (g : LegId) (w : Window) :
    (s.installWindow g w).pending = s.pending := rfl

@[simp] theorem State.installWindow_lane (s : State) (g : LegId) (w : Window) (c : LaneId) :
    (s.installWindow g w).lane c = (s.lane c).underWindow g w (s.leg g).state.path c := State.mapLanes_lane s _ c

@[simp] theorem State.installWindow_window (s : State) (g : LegId) (w : Window) :
    ((s.installWindow g w).leg g).window = some w := by
  simp [State.installWindow]

/-! ### The entry to a state -/

@[simp] theorem State.enter_role (s : State) (g : LegId) (new : LegState) (cause : LegCause) (attempt : Option Nat) :
    (s.enter g new cause attempt).role = s.role := rfl

@[simp] theorem State.enter_strap (s : State) (g : LegId) (new : LegState) (cause : LegCause) (attempt : Option Nat) :
    (s.enter g new cause attempt).strap = s.strap := rfl

@[simp] theorem State.enter_time (s : State) (g : LegId) (new : LegState) (cause : LegCause) (attempt : Option Nat) :
    (s.enter g new cause attempt).time = s.time := rfl

@[simp] theorem State.enter_grant (s : State) (g : LegId) (new : LegState) (cause : LegCause) (attempt : Option Nat) :
    (s.enter g new cause attempt).grant = s.grant := rfl

@[simp] theorem State.enter_cable (s : State) (g : LegId) (new : LegState) (cause : LegCause) (attempt : Option Nat) :
    (s.enter g new cause attempt).cable = s.cable := rfl

@[simp] theorem State.enter_port (s : State) (g : LegId) (new : LegState) (cause : LegCause) (attempt : Option Nat) :
    (s.enter g new cause attempt).port = s.port := rfl

@[simp] theorem State.enter_free (s : State) (g : LegId) (new : LegState) (cause : LegCause) (attempt : Option Nat) :
    (s.enter g new cause attempt).free = s.free := rfl

@[simp] theorem State.enter_pending (s : State) (g : LegId) (new : LegState) (cause : LegCause) (attempt : Option Nat) :
    (s.enter g new cause attempt).pending = s.pending := rfl

end Sys2Proof.Machine
end

