-- ==== Sys2Proof/Laws/Ops.lean ====
section
/-! SUPPORT. One lemma for each shared operation that says once what it can do, for proofs to cite in its place. -/

namespace Sys2Proof.Machine

/-! ### Notices (R187 to R192) -/

@[simp] theorem insertNotice_length (r : Notice) (ns : List Notice) : (insertNotice r ns).length = ns.length + 1 := by
  induction ns with
  | nil => rfl
  | cons n ns ih => unfold insertNotice; split <;> simp [ih]

theorem mem_insertNotice {r n : Notice} {ns : List Notice} : n ∈ insertNotice r ns ↔ n = r ∨ n ∈ ns := by
  induction ns with
  | nil => simp [insertNotice]
  | cons m ns ih =>
    unfold insertNotice
    split
    · simp only [List.mem_cons, ih]; tauto
    · simp only [List.mem_cons]

/-- The record goes between those of at least its level and the lower ones. -/
theorem insertNotice_split (r : Notice) (ns : List Notice) :
    ∃ a b, ns = a ++ b ∧ insertNotice r ns = a ++ r :: b ∧ ∀ n ∈ a, r.level ≤ n.level := by
  induction ns with
  | nil => exact ⟨[], [], rfl, rfl, by simp⟩
  | cons n ns ih =>
    unfold insertNotice
    split
    · rename_i h
      obtain ⟨a, b, rfl, e, k⟩ := ih
      exact ⟨n :: a, b, rfl, by simp [e], by simpa [h] using k⟩
    · exact ⟨[], n :: ns, rfl, rfl, by simp⟩

@[simp] theorem NoticeQueue.withAlert_records (q : NoticeQueue) : q.withAlert.records = q.records := rfl

@[simp] theorem NoticeQueue.withAlert_overflow (q : NoticeQueue) : q.withAlert.overflow = q.overflow := rfl

@[simp] theorem NoticeQueue.withAlert_levels (q : NoticeQueue) : q.withAlert.levels = q.levels := rfl

@[simp] theorem NoticeQueue.withAlert_floor (q : NoticeQueue) : q.withAlert.floor = q.floor := rfl

@[simp] theorem NoticeQueue.withAlert_alert (q : NoticeQueue) : q.withAlert.alert = q.alertDue := rfl

@[simp] theorem NoticeQueue.withAlert_alertDue (q : NoticeQueue) : q.withAlert.alertDue = q.alertDue := rfl

/-- A posting merges, is inserted, displaces the tail or is dropped; whichever it does, ALERT is judged after it. -/
theorem NoticeQueue.post_cases (q : NoticeQueue) (k : NoticeKind) (g : Option LegId) (data : List Byte) (now : Time) :
    (q.post k g data now).levels = q.levels ∧ (q.post k g data now).floor = q.floor
      ∧ (q.post k g data now).alert = (q.post k g data now).alertDue
      ∧ ((q.records.any (Notice.matches k g)
            ∧ (q.post k g data now).records = q.records.map (fun n => if n.matches k g then n.merged data now else n)
            ∧ (q.post k g data now).overflow = q.overflow)
        ∨ (q.records.any (Notice.matches k g) = false ∧ q.records.length < 16
            ∧ (q.post k g data now).records = insertNotice ⟨k, g, q.levels[k.ix], 1, now, data⟩ q.records
            ∧ (q.post k g data now).overflow = q.overflow)
        ∨ (q.records.any (Notice.matches k g) = false ∧ 16 ≤ q.records.length
            ∧ (q.records.getLast?.map Notice.level).getD 0 < q.levels[k.ix]
            ∧ (q.post k g data now).records = insertNotice ⟨k, g, q.levels[k.ix], 1, now, data⟩ q.records.dropLast
            ∧ (q.post k g data now).overflow = true)
        ∨ (q.records.any (Notice.matches k g) = false ∧ 16 ≤ q.records.length
            ∧ q.levels[k.ix] ≤ (q.records.getLast?.map Notice.level).getD 0
            ∧ (q.post k g data now).records = q.records ∧ (q.post k g data now).overflow = true)) := by
  unfold NoticeQueue.post
  simp only
  split
  · rename_i h; simp [h]
  · rename_i h
    have h' : q.records.any (Notice.matches k g) = false := by simpa using h
    split
    · rename_i h2; simp [h', h2]
    · rename_i h2
      have h2' : 16 ≤ q.records.length := by omega
      split
      · rename_i h3; exact ⟨rfl, rfl, rfl, .inr (.inr (.inl ⟨h', h2', h3, rfl, rfl⟩))⟩
      · rename_i h3; exact ⟨rfl, rfl, rfl, .inr (.inr (.inr ⟨h', h2', Nat.le_of_not_lt h3, rfl, rfl⟩))⟩

/-- A queue of at most sixteen records stays so (R189). -/
theorem NoticeQueue.post_length (q : NoticeQueue) (k : NoticeKind) (g : Option LegId) (data : List Byte) (now : Time)
    (h : q.records.length ≤ 16) : (q.post k g data now).records.length ≤ 16 := by
  rcases (q.post_cases k g data now).2.2.2 with ⟨-, e, -⟩ | ⟨-, hl, e, -⟩ | ⟨-, hl, -, e, -⟩ | ⟨-, -, -, e, -⟩ <;>
    simp only [e, List.length_map, insertNotice_length, List.length_dropLast] <;> omega

/-! ### Replies (R175, R176) -/

theorem Port.answer_cases (p : Port) (st : Status) (payload : List Byte) (resets : Bool) :
    (p.slot = none ∧ p.answer st payload resets = p)
      ∨ ∃ q, p.slot = some q ∧ p.answer st payload resets
          = { p with line := p.line ++ [⟨q.kind, q.tag, st, payload, true, resets⟩] } := by
  unfold Port.answer
  cases h : p.slot with
  | none => exact .inl ⟨rfl, by simp⟩
  | some q => exact .inr ⟨q, rfl, by simp⟩

/-- A complete frame is answered BUSY and nothing else happens, or its kind acts with the slot occupied. -/
theorem State.takeRequest_cases (s : State) (kind : Byte) (q : RequestBody) (act : State → List Byte → State) :
    (s.portBusy kind ∧ s.takeRequest kind q act
        = { s with port := Port.answerBusy { s.port with collecting := false } kind q.tag })
      ∨ (s.portBusy kind = false
          ∧ s.takeRequest kind q act = act ((s.collect false).occupy kind q.tag) q.payload) := by
  unfold State.takeRequest
  cases h : s.portBusy kind with
  | true => exact .inl ⟨rfl, by simp [State.collect]⟩
  | false => exact .inr ⟨rfl, by simp⟩

theorem State.ofLength_cases (s : State) (n : Nat) (p : List Byte) (act : State) :
    (p.length = n ∧ s.ofLength n p act = act) ∨ (p.length ≠ n ∧ s.ofLength n p act = s.reply .badArgument []) := by
  unfold State.ofLength
  split
  · rename_i h; exact .inl ⟨h, rfl⟩
  · rename_i h; exact .inr ⟨h, rfl⟩

/-- A request that names a leg acts on it, or is answered BAD_ARGUMENT. -/
theorem State.forLeg_cases (s : State) (n : Nat) (p : List Byte) (act : LegId → State) :
    (∃ g : LegId, p.length = n ∧ natAt p 0 = g.val ∧ s.hasLeg g ∧ s.forLeg n p act = act g)
      ∨ s.forLeg n p act = s.reply .badArgument [] := by
  unfold State.forLeg
  split
  · rename_i hn
    split
    · rename_i h
      split
      · rename_i hl; exact .inl ⟨_, hn, rfl, hl, rfl⟩
      · exact .inr rfl
    · exact .inr rfl
  · exact .inr rfl

/-- A request that names a copper lane acts on it, or is answered BAD_ARGUMENT. -/
theorem State.forLane_cases (s : State) (n : Nat) (p : List Byte) (act : LaneId → State) :
    (∃ c : LaneId, p.length = n ∧ natAt p 0 = c.val ∧ s.forLane n p act = act c)
      ∨ s.forLane n p act = s.reply .badArgument [] := by
  unfold State.forLane
  split
  · rename_i hn
    split
    · rename_i h; exact .inl ⟨_, hn, rfl, rfl⟩
    · exact .inr rfl
  · exact .inr rfl

/-- The FAR_READ in progress is answered, or there is none and nothing happens (R146). -/
theorem State.farReadDone_cases (s : State) (st : Status) (payload : List Byte) :
    s.farReadDone st payload = s ∨ s.farReadDone st payload = s.reply st payload := by
  unfold State.farReadDone
  split
  · exact .inr rfl
  · exact .inl rfl

/-! ### The outbound queue (R147 to R151) -/

theorem Leg.push_cases (l : Leg) (i : Item) :
    (l.queue.length < 4 ∧ l.push i = { l with queue := l.queue ++ [i] }) ∨ (4 ≤ l.queue.length ∧ l.push i = l) := by
  unfold Leg.push Leg.hasRoom
  by_cases h : l.queue.length < 4
  · exact .inl ⟨h, by simp [h]⟩
  · exact .inr ⟨by omega, by simp [h]⟩

/-- What fills places with held items changes the queue and the holds only, adds to the tail, and keeps to four places. -/
theorem Leg.fillHolds_spec (role : Role) (n : Nat) (l : Leg) :
    (∃ added, (Leg.fillHolds role n l).queue = l.queue ++ added)
      ∧ (l.queue.length ≤ 4 → (Leg.fillHolds role n l).queue.length ≤ 4) := by
  induction n generalizing l with
  | zero => exact ⟨⟨[], by simp [Leg.fillHolds]⟩, id⟩
  | succ n ih =>
    unfold Leg.fillHolds
    split
    · rename_i hr
      split
      · rename_i i l' h
        have hq : l'.queue = l.queue := by
          unfold Leg.nextHeld at h
          split at h
          · split at h
            · cases h; rfl
            · simp only [Option.or_eq_some_iff] at h
              rcases h with h | ⟨-, h⟩ <;>
                simp [Leg.firstStatusHeld, Leg.firstLaneHeld, List.findSome?_eq_some_iff] at h <;>
                obtain ⟨_, _, _, ⟨_, _, _, _, rfl⟩, _⟩ := h <;> rfl
          · split at h
            · cases h; rfl
            · split at h
              · cases h; rfl
              · simp [Leg.firstLaneHeld, List.findSome?_eq_some_iff] at h
                obtain ⟨_, _, _, ⟨_, _, _, _, rfl⟩, _⟩ := h; rfl
        obtain ⟨⟨added, e⟩, b⟩ := ih { l' with queue := l'.queue ++ [i] }
        refine ⟨⟨i :: added, by rw [e]; simp [hq]⟩, fun _ => b ?_⟩
        have : l.queue.length < 4 := by simpa [Leg.hasRoom] using hr
        simp [hq]; omega
      · exact ⟨⟨[], by simp⟩, id⟩
    · exact ⟨⟨[], by simp⟩, id⟩

theorem Leg.flushed_queue (l : Leg) : l.flushed.queue = [] := rfl

/-- A flush empties the leg's queue and holds, at an END the beat hold, and may answer a FAR_READ; no other leg moves. -/
theorem State.flush_leg (s : State) (g k : LegId) :
    (s.flush g).leg k = if k = g then (s.leg g).flushed else s.leg k := by
  have h : ∀ t : State, (if (s.leg g).queue.any Item.isFarFetch then t.farReadFailed .flushed 0 else t).leg k = t.leg k := by
    intro t
    split
    · rcases t.farReadDone_cases .farFailed [byteOf FarCause.flushed.code, byteOf 0] with e | e <;>
        simp [State.farReadFailed, e]
    · rfl
  have e : (s.flush g).leg k = (s.modLeg g Leg.flushed).leg k := by
    simp only [State.flush, h]
    split <;> rfl
  rw [e, State.modLeg_leg]

/-! ### The entry to a state (R22) -/

theorem State.enter_leg (s : State) (g k : LegId) (new : LegState) (cause : LegCause) (attempt : Option Nat) :
    (s.enter g new cause attempt).leg k
      = if k = g then (s.leg g).entered s.role new attempt s.time else s.leg k := by
  have e : (s.enter g new cause attempt).leg k
      = ((s.modWindow g (Lane.entered new)).modLeg g (fun l => l.entered s.role new attempt s.time)).leg k := rfl
  rw [e, State.modLeg_leg]
  simp

theorem State.enter_lane (s : State) (g : LegId) (new : LegState) (cause : LegCause) (attempt : Option Nat) (c : LaneId) :
    (s.enter g new cause attempt).lane c
      = if (s.winLanes g).contains c then (s.lane c).entered new else s.lane c := by
  have e : (s.enter g new cause attempt).lane c = (s.modWindow g (Lane.entered new)).lane c := rfl
  rw [e, State.modWindow_lane]

theorem State.enter_notices (s : State) (g : LegId) (new : LegState) (cause : LegCause) (attempt : Option Nat) :
    (s.enter g new cause attempt).notices
      = s.notices.post .legState (some g)
          [byteOf (s.leg g).state.code, byteOf new.code, byteOf cause.code, byteOf (attempt.getD 0)] s.time := rfl

/-! ### Applying a tap request (R54) -/

/-- A request writes its lane's taps with a settle, or changes nothing. -/
theorem State.applyTaps_cases (s : State) (g : LegId) (i : WinIx) (q : TapRequest) :
    ((s.tapOutcome g i q).wrote ∧ s.applyTaps g i q = s.writeTaps (s.winLane g i) (s.tapOutcome g i q).taps)
      ∨ ((s.tapOutcome g i q).wrote = false ∧ s.applyTaps g i q = s) := by
  cases h : (s.tapOutcome g i q).wrote with
  | true => exact .inl ⟨rfl, if_pos h⟩
  | false => exact .inr ⟨rfl, if_neg (by simp [h])⟩

/-! ### The arbiter (R154 to R158) -/

theorem Leg.fillHolds_apart (role : Role) (n : Nat) (l : Leg) : (Leg.fillHolds role n l).apart = l.apart := by
  induction n generalizing l with
  | zero => rfl
  | succ n ih =>
    unfold Leg.fillHolds
    split
    · split
      · rename_i i l' h
        rw [ih]
        unfold Leg.nextHeld at h
        split at h
        · split at h
          · cases h; rfl
          · simp only [Option.or_eq_some_iff] at h
            rcases h with h | ⟨-, h⟩ <;>
              simp [Leg.firstStatusHeld, Leg.firstLaneHeld, List.findSome?_eq_some_iff] at h <;>
              obtain ⟨_, _, _, ⟨_, _, _, _, rfl⟩, _⟩ := h <;> rfl
        · split at h
          · cases h; rfl
          · split at h
            · cases h; rfl
            · simp [Leg.firstLaneHeld, List.findSome?_eq_some_iff] at h
              obtain ⟨_, _, _, ⟨_, _, _, _, rfl⟩, _⟩ := h; rfl
      · rfl
    · rfl

@[simp] theorem Leg.popped_apart (l : Leg) (role : Role) : (l.popped role).apart = l.apart := Leg.fillHolds_apart role 4 _

/-- The state differs in its legs' arbiter and engine fields, the transaction and the grant at most. -/
def State.trafficOnly (s t : State) : Prop :=
  t = { s with legs := t.legs, tx := t.tx, grant := t.grant } ∧ s.legsKept t

theorem State.trafficOnly_refl (s : State) : s.trafficOnly s := ⟨rfl, fun _ => rfl⟩

theorem State.trafficOnly_trans {s t u : State} (h : s.trafficOnly t) (k : t.trafficOnly u) : s.trafficOnly u := by
  refine ⟨?_, fun g => (k.2 g).trans (h.2 g)⟩
  have e := k.1
  rw [h.1] at e
  exact e

theorem State.modLeg_trafficOnly (s : State) (g : LegId) (f : Leg → Leg) (h : (f (s.leg g)).apart = (s.leg g).apart) :
    s.trafficOnly (s.modLeg g f) := by
  refine ⟨rfl, fun k => ?_⟩
  rw [State.modLeg_leg]
  split
  · rename_i e; subst e; exact h
  · rfl

theorem State.beginTx_trafficOnly (s : State) (g : LegId) (w : Work) : s.trafficOnly (s.beginTx g w) := by
  refine ⟨rfl, fun k => ?_⟩
  have e : (s.beginTx g w).leg k = (s.modLeg g (fun l =>
    { l with seq := !l.seq, beat := (if w = .drain ∧ (s.leg g).beatTaken then (s.leg g).beat + 1 else (s.leg g).beat),
             beatTaken := if w = .drain then false else l.beatTaken })).leg k := rfl
  rw [e, State.modLeg_leg]
  split
  · rename_i e; subst e; rfl
  · rfl

theorem State.countTx_trafficOnly (s : State) : s.trafficOnly s.countTx := ⟨rfl, fun _ => rfl⟩

theorem State.startNext_trafficOnly {s t : State} {g : LegId} (h : s.startNext g = some t) : s.trafficOnly t := by
  unfold State.startNext at h
  split at h
  · cases h
    exact State.trafficOnly_trans (State.trafficOnly_trans (s.beginTx_trafficOnly g _)
      (State.modLeg_trafficOnly _ g _ (by simp))) (State.countTx_trafficOnly _)
  · split at h
    · cases h
      exact State.trafficOnly_trans (s.beginTx_trafficOnly g _) (State.countTx_trafficOnly _)
    · cases h

theorem State.endGrant_trafficOnly (s : State) (r : Grant) : s.trafficOnly (s.endGrant r) := by
  refine ⟨rfl, fun k => ?_⟩
  have e : (s.endGrant r).leg k
      = (s.mapLegs (fun g l => { l with passOver := l.passedOver (g == r.leg) })).leg k := rfl
  rw [e, State.mapLegs_leg]
  rfl

theorem State.choose_trafficOnly (s : State) : s.trafficOnly s.choose := by
  unfold State.choose
  split
  · exact s.trafficOnly_refl
  · rename_i g _
    cases h : State.startNext { s with grant := some ⟨g, 0, 8⟩ } g with
    | none => exact s.trafficOnly_refl
    | some t =>
      exact State.trafficOnly_trans (t := { s with grant := some ⟨g, 0, 8⟩ }) ⟨rfl, fun _ => rfl⟩
        (State.startNext_trafficOnly h)

/-- A choice of the arbiter moves the traffic fields only. -/
theorem State.arbitrate_trafficOnly (s : State) (ends : Bool) : s.trafficOnly (s.arbitrate ends) := by
  unfold State.arbitrate
  split
  · exact s.trafficOnly_refl
  · split
    · exact s.choose_trafficOnly
    · simp only
      split
      · exact State.trafficOnly_trans (s.endGrant_trafficOnly _) (State.choose_trafficOnly _)
      · rename_i r0 _ _
        split
        · rename_i t h
          exact State.trafficOnly_trans (t := { s with grant := some (s.extended r0) }) ⟨rfl, fun _ => rfl⟩
            (State.startNext_trafficOnly h)
        · exact State.trafficOnly_trans (s.endGrant_trafficOnly _) (State.choose_trafficOnly _)

/-- At an END the arbiter does nothing. -/
theorem State.arbitrate_end (s : State) (ends : Bool) (h : s.isHub = false) : s.arbitrate ends = s := by
  simp [State.arbitrate, h]

/-- While a transaction is in flight the arbiter does nothing. -/
theorem State.arbitrate_busy (s : State) (ends : Bool) (x : Transaction) (h : s.tx = some x) : s.arbitrate ends = s := by
  simp [State.arbitrate, h]

end Sys2Proof.Machine
end

