-- ==== Sys2Proof/WellFormed.lean ====
section
/-! DEFINITION. Which commands are well formed: the lengths the layouts allow, and operands that make the command the row it
claims to be. The meanings hold for every command; these are the commands an environment sends. -/

namespace Sys2Proof

/-- A sideband frame carries at most 12 data bytes (R196). -/
def CommandBody.wf (f : CommandBody) : Bool := f.data.length ≤ 12

def ResponseBody.wf (f : ResponseBody) : Bool := f.data.length ≤ 12

/-- A request frame carries at most 48 payload bytes (R174, R195). -/
def RequestBody.wf (q : RequestBody) : Bool := q.payload.length ≤ 48

/-- A frame that R174 discards, with a payload no longer than its length byte allows. -/
def DiscardCause.wf (why : DiscardCause) : Bool :=
  Machine.discards why &&
    (match why with
     | .badLength _ => true
     | .badCrc _ _ payload _ => payload.length ≤ 48)

/-- A command kind that is none of the five, or an item kind its command does not carry (R140, R197); a DRAIN is neither. -/
def unknownCommand (kind : BitVec 3) (item : Byte) : Bool :=
  kind != 5 && !(1 ≤ kind.toNat && kind.toNat ≤ 4 && Machine.carries kind item)

/-- The command is one its row names, within the lengths of the layouts. -/
def Instr.wf : Instr → Bool
  | .deviceReset _ => true
  | .settlingEnd => true
  | .factoryHeaderRead bytes => bytes.length ≤ 7
  | .factoryImageRead bytes => bytes.length ≤ 1024
  | .learnedBlockRead bytes => bytes.length ≤ 80
  | .windowReport _ _ _ _ => true
  | .scanReading _ _ => true
  | .settleExpiry _ => true
  | .probeHoldoffExpiry _ => true
  | .attemptDeadlineExpiry _ => true
  | .probeWaitExpiry => true
  | .hubSilenceExpiry => true
  | .keepaliveTimerExpiry _ => true
  | .commandFrameSent _ _ => true
  | .sidebandAck _ f => f.wf
  | .sidebandDefer _ f => f.wf
  | .sidebandRefuse _ f => f.wf
  | .replyTimeout => true
  | .backoffEnd => true
  | .transactionExpiry => true
  | .beaconReceived _ _ _ => true
  | .beaconSilence _ => true
  | .hubCommandFrame _ _ _ f => f.wf
  | .probeCommand _ f => f.wf
  | .fetchCommand _ _ f => f.wf
  | .storePhase _ f => f.wf
  | .storeTapStatus _ f => f.wf
  | .exchangeTapRequest _ f => f.wf
  | .drainCommand _ _ f => f.wf
  | .requestFrameGap => true
  | .replySent => true
  | .identify q => q.wf
  | .readLeg q => q.wf
  | .readLane q => q.wf
  | .configureLeg q => q.wf
  | .startLeg q => q.wf
  | .stopLeg q => q.wf
  | .resetLeg q => q.wf
  | .setLegPower q => q.wf
  | .pinTaps q => q.wf
  | .unpinTaps q => q.wf
  | .readPresets q => q.wf
  | .commitPresets q => q.wf
  | .forgetPresets q => q.wf
  | .farRead q => q.wf
  | .readNotices q => q.wf
  | .setNoticeLevels q => q.wf
  | .resetDevice q => q.wf
  | .pageSent => true
  | .pollAcknowledged => true
  | .pollLimitExpiry => true
  | .pageWriteNack => true
  | .requestFrameStart byte => byte == Machine.startByte
  | .requestFrameDiscarded why => why.wf
  | .unknownRequestKind kind q => !Machine.knownKind kind && q.wf
  | .unknownCommandOrItem _ kind item f => unknownCommand kind item && f.wf
  | .replyFailingChecks _ low mid f => Machine.responseCrcOk low mid f && f.wf

end Sys2Proof
end

