-- ==== Sys2Proof/Tests/Slice0.lean ====
section
/-! SUPPORT. Small tests whose expected values come from the spec's rules, tables and worked cases, and for every statement with
hypotheses a concrete state and operands that meet them. -/

set_option Elab.async false
set_option linter.unusedVariables false

namespace Sys2Proof.Tests

open Sys2Proof Sys2Proof.Machine

/-! ### Small states -/

/-- A HUB in READY, every leg OFF without a window. -/
def hub : State := { State.reset with cable := { Cable.reset with startup := .ready, settlingEnds := none } }

/-- An END in READY. -/
def endPart : State := { hub with role := .endRole, strap := .endRole }

/-- The start-up at a point of its own. -/
def atStart (u : StartUp) : State := { State.reset with cable := { Cable.reset with startup := u, settlingEnds := none } }

/-- A HUB with a commit job at a write. -/
def withJob (n : Nat) (poll : Option Time) : State :=
  { hub with cable := { hub.cable with job := some ⟨State.reset.cable.learned, State.reset.cable.serial, n, poll⟩ } }

/-- Leg 0 with a window, in a state, its lanes owned and on the state's path. -/
def placed (s : State) (w : Window) (st : LegState) : State :=
  (s.modLeg 0 (fun l => { l with state := st })).installWindow 0 w

/-- A HUB whose leg 0 has copper and host lane 2 alone. -/
def one (st : LegState) : State := placed hub ⟨2, 1, 0⟩ st

/-- A HUB whose leg 0 has all eight lanes. -/
def wide (st : LegState) : State := placed hub ⟨0, 8, 0⟩ st

/-- An END whose leg 0 has copper and host lane 2 alone. -/
def atEnd (st : LegState) : State := placed endPart ⟨2, 1, 0⟩ st

def counted (st : LegState) (n : Nat) : State := (one st).modLeg 0 (fun l => { l with errCount := n })

/-- Lane 2 at the last reading of its debounce. -/
def debounced (st : LegState) (p : Presence) : State :=
  (one st).modLane 2 (fun l => { l with presence := p, debounce := 3 })

/-- Leg 0 with its holdoff, deadline and attempt. -/
def timed (st : LegState) (p : Presence) (n : Nat) : State :=
  ((one st).modLane 2 (fun l => { l with presence := p })).modLeg 0 (fun l =>
    { l with holdoff := some 1, deadline := some 1, attempt := some n })

/-- An END whose watches run. -/
def watched (st : LegState) : State :=
  let s := (atEnd st).modLeg 0 (fun l => { l with probeWait := some 1 })
  { s with resp := { s.resp with silence := some 1 } }

/-- A transaction of leg 0. -/
def carrying (w : Work) (ph : EngineState) : Transaction := ⟨0, w, false, 0, ph, true, some 200, none, 2000⟩

/-- A HUB leg in a state whose transaction waits for its reply, its keepalive timer running. -/
def flying (st : LegState) (w : Work) : State :=
  let s := (one st).modLeg 0 (fun l => { l with keepalive := some 7, attempt := some 1 })
  { s with tx := some (carrying w .waiting), grant := some ⟨0, 1, 8⟩ }

def keeping (st : LegState) : State := (one st).modLeg 0 (fun l => { l with keepalive := some 7 })

def inPhase (ph : EngineState) : State := { one .up with tx := some (carrying .drain ph) }

/-- Two replies in a row have failed. -/
def timedOut (st : LegState) : State := (flying st (.item .keepalive)).modLeg 0 (fun l => { l with timeouts := 2 })

/-- An END with one item waiting and a beat remembered. -/
def drained (b : Option (Fin 16)) : State :=
  let s := (atEnd .up).modLeg 0 (fun l => { l with queue := [.retrainRequest] })
  { s with resp := { s.resp with beatPrev := b } }

/-- An END that has answered a FETCH of its IDENT. -/
def holding : State :=
  let s := atEnd .up
  { s with resp := { s.resp with held := some ⟨false, 2, 1, 0, [], [1]⟩ } }

def settling : State := (atEnd .train).modLane 2 (fun l => { l with settleUntil := some 300 })

def crowded : State := (atEnd .up).modLeg 0 (fun l => { l with queue := List.replicate 4 .retrainRequest })

def full : State := (one .up).modLeg 0 (fun l => { l with queue := List.replicate 4 .keepalive })

/-- A reply is being sent. -/
def replying (resets : Bool) : State :=
  { hub with port := ⟨false, some ⟨1, 9⟩, [⟨1, 9, .ok, [], true, resets⟩]⟩ }

/-- An image of one empty THRESHOLDS-less chain: a record of an unknown type and no data. -/
def lossless : List Byte := [0x48, 0x4A, 1, 11, 0, 0, 0, 9, 0, 0, 0]

/-- A response frame to the transaction of `flying` with its CRC. -/
def replied (low : BitVec 2) (item : Byte) (more : Bool) (data : List Byte) : ResponseBody :=
  { ({ seq := false, more := more, item := item, reason := 0, data := data, crc := 0 } : ResponseBody) with
    crc := crc8 (responseBytes low 0 ⟨false, more, item, 0, data, 0⟩) }

/-- A REFUSE to it. -/
def refused (item reason : Byte) : ResponseBody :=
  ⟨false, false, item, reason, [], crc8 (responseBytes 3 0 ⟨false, false, item, reason, [], 0⟩)⟩

/-- A command frame with its CRC. -/
def cmd (kind : BitVec 3) (item : Byte) (lane : WinIx) (data : List Byte) : CommandBody :=
  ⟨false, 0, lane, 0, data, crc8 (commandBytes kind item false 0 lane 0 data)⟩

/-- A measured search of POST in INC with best merit 40. -/
def record : Search := ⟨.post, .inc, 40, false, 3, some .measure, .step, false, false, false⟩

/-- The tally of an ADAPT lane that entered with code 7. -/
def tally : AdaptLane := ⟨7, [6, 7, 8], [], .peaking, .measure, false⟩

/-- Lane 2 of leg 0 under a search, in attempt n. -/
def searching (s : State) (n : Nat) (k : Search) : State :=
  (s.modLane 2 (fun l => { l with search := some k })).modLeg 0 (fun l => { l with attempt := some n, negRate := some .m })

def adapting (s : State) (n : Nat) (v : Vector AdaptLane 8) : State :=
  s.modLeg 0 (fun l => { l with adapt := some v, attempt := some n, negRate := some .m })

def verifying (s : State) (n : Nat) (v : Vector VerifyLane 8) : State :=
  s.modLeg 0 (fun l => { l with verify := some v, attempt := some n, negRate := some .m })

/-- Eight lanes in UP, every one but lane 0 with a good report in the set. -/
def gathered (n : Nat) : State :=
  (wide .up).modLeg 0 (fun l =>
    { l with reportSet := (Vector.replicate 8 (some ⟨16, 64, 0, 0⟩)).set 0 none, errCount := n })

/-- A HUB whose transaction carries the FETCH of a FAR_READ with tag 9. -/
def fetching (k : FetchKind) (n : Nat) : State :=
  let s := (flying .up (.item (.farFetch k 0))).modLeg 0 (fun l => { l with timeouts := n })
  { s with port := { s.port with slot := some ⟨0x0E, 9⟩ } }

/-- The same FETCH still waits, and lane 2 is at the last reading of its debounce. -/
def awaiting (st : LegState) : State :=
  let s := (debounced st .present).modLeg 0 (fun l => { l with queue := [.farFetch .status 0] })
  { s with port := { s.port with slot := some ⟨0x0E, 9⟩ } }

def retrained (n : Nat) : State := (flying .up .drain).modLeg 0 (fun l => { l with retrains := n })

/-- Two replies in a row to a transaction of any kind have failed. -/
def losing (st : LegState) (w : Work) : State := (flying st w).modLeg 0 (fun l => { l with timeouts := 2 })

/-- The HUB knows its END, and lane 2 is PRESENT. -/
def identified (s : State) : State :=
  (s.modLeg 0 (fun l => { l with farId := some ⟨1, 3, 1, 2, zeroSerial⟩ })).modLane 2 (fun l => { l with presence := .present })

/-- The learned block is read, and leg 0 starts by itself. -/
def starting (p : Presence) : State :=
  ((placed (atStart .loadingLearned) ⟨2, 1, 0⟩ .off).modLeg 0 (fun l => { l with autoStart := true })).modLane 2
    (fun l => { l with presence := p })

def rated (s : State) : State := s.modLeg 0 (fun l => { l with negRate := some .m })

theorem fresh_command {s : State} {kind : BitVec 3} {item : Byte} {f : CommandBody} (h : s.resp.held = none)
    (k : s.isHub = false ∧ (s.leg 0).state ≠ .off ∧ commandCrcOk kind item f) : s.takesCommand kind item f :=
  ⟨k.1, k.2.1, k.2.2, fun x e => by rw [h] at e; cases e⟩

/-- What a command leaves, judged. -/
def leaves (c : Instr) (s : State) (p : State → Bool) : Bool :=
  match exec c s with
  | .next t => p t
  | _ => false

/-- What two commands leave, judged. -/
def leaves2 (c d : Instr) (s : State) (p : State → Bool) : Bool :=
  match exec c s with
  | .next t => leaves d t p
  | _ => false

/-- The status of the reply last formed. -/
def said (t : State) : Option Status := t.port.line.getLast?.map Reply.status

/-- The payload of the reply last formed. -/
def told (t : State) : List Byte := (t.port.line.getLast?.map Reply.payload).getD []

/-! ### Well-formed commands: each check refuses a term -/

theorem test_wf_header_length : Instr.wf (.factoryHeaderRead (List.replicate 8 0)) = false := by decide

theorem test_wf_image_length : Instr.wf (.factoryImageRead (List.replicate 1025 0)) = false := by decide +kernel

theorem test_wf_block_length : Instr.wf (.learnedBlockRead (List.replicate 81 0)) = false := by decide

theorem test_wf_response_data :
    Instr.wf (.sidebandAck 0 ⟨false, false, 1, 0, List.replicate 13 0, 0⟩) = false
      ∧ Instr.wf (.sidebandDefer 0 ⟨false, false, 1, 0, List.replicate 13 0, 0⟩) = false
      ∧ Instr.wf (.sidebandRefuse 0 ⟨false, false, 1, 0, List.replicate 13 0, 0⟩) = false := by decide

theorem test_wf_command_data :
    let f : CommandBody := ⟨false, 0, 0, 0, List.replicate 13 0, 0⟩
    Instr.wf (.hubCommandFrame 0 1 1 f) = false ∧ Instr.wf (.probeCommand 0 f) = false
      ∧ Instr.wf (.fetchCommand 0 .ident f) = false ∧ Instr.wf (.storePhase 0 f) = false
      ∧ Instr.wf (.storeTapStatus 0 f) = false ∧ Instr.wf (.exchangeTapRequest 0 f) = false
      ∧ Instr.wf (.drainCommand 0 0 f) = false := by decide

theorem test_wf_request_payload :
    ([.identify, .readLeg, .readLane, .configureLeg, .startLeg, .stopLeg, .resetLeg, .setLegPower, .pinTaps, .unpinTaps,
      .readPresets, .commitPresets, .forgetPresets, .farRead, .readNotices, .setNoticeLevels, .resetDevice] :
        List (RequestBody → Instr)).all (fun c => !(c ⟨0, List.replicate 49 0⟩).wf) := by decide

theorem test_wf_start_byte : Instr.wf (.requestFrameStart 0x7F) = false := by decide

theorem test_wf_discard_needs_a_fault :
    Instr.wf (.requestFrameDiscarded (.badLength 48)) = false
      ∧ Instr.wf (.requestFrameDiscarded (.badCrc 1 0 [] (crc16 [1, 0, 0]))) = false := by decide +kernel

theorem test_wf_unknown_kind_is_unknown : Instr.wf (.unknownRequestKind 0x11 ⟨0, []⟩) = false := by decide

theorem test_wf_unknown_item_is_unknown :
    Instr.wf (.unknownCommandOrItem 0 3 4 (cmd 3 4 0 [])) = false
      ∧ Instr.wf (.unknownCommandOrItem 0 5 1 (cmd 5 1 0 [])) = false := by decide +kernel

theorem test_wf_failing_reply_has_its_crc :
    Instr.wf (.replyFailingChecks 0 1 0 ⟨false, false, 1, 0, [], 0⟩) = false := by decide +kernel

/-! ### Figures of the spec -/

/-- The usual check input of the two CRCs that R194 defines: the digits 1 to 9. -/
theorem test_crc_check_values :
    crc16 [0x31, 0x32, 0x33, 0x34, 0x35, 0x36, 0x37, 0x38, 0x39] = 0x29B1
      ∧ crc8 [0x31, 0x32, 0x33, 0x34, 0x35, 0x36, 0x37, 0x38, 0x39] = 0xF4 := by decide +kernel

/-- The table of R65. -/
theorem test_merit_table :
    [(70, 30), (5, 300), (127, 0), (64, 65535), (0, 0)].map (fun x => merit x.1 x.2) = [250, 0, 508, 1, 0] := by decide

/-- Worked cases 1 to 7 of 03_transmitter_coefficients.md. -/
theorem test_worked_steps :
    applyStep ⟨2, 40, 6⟩ .inc .inc = (⟨3, 38, 7⟩, .updated, .updated)
      ∧ applyStep ⟨8, 24, 16⟩ .hold .inc = (⟨8, 24, 16⟩, .hold, .mainFloor)
      ∧ applyStep ⟨8, 24, 16⟩ .inc .dec = (⟨9, 24, 15⟩, .updated, .updated)
      ∧ applyStep ⟨12, 30, 6⟩ .inc .inc = (⟨12, 29, 7⟩, .atMax, .updated)
      ∧ applyStep ⟨8, 24, 16⟩ .inc .inc = (⟨8, 24, 16⟩, .mainFloor, .mainFloor)
      ∧ applyStep ⟨12, 24, 12⟩ .inc .inc = (⟨12, 24, 12⟩, .atMax, .mainFloor)
      ∧ applyStep ⟨0, 48, 0⟩ .dec .hold = (⟨0, 48, 0⟩, .atMin, .hold) := by decide

/-- Worked cases 8 to 11 and 13. -/
theorem test_worked_loads :
    applyLoad ⟨2, 36, 10⟩ 12 18 = (⟨2, 36, 10⟩, .mainFloor, .mainFloor)
      ∧ applyLoad ⟨2, 36, 10⟩ 13 4 = (⟨2, 36, 10⟩, .atMax, .hold)
      ∧ applyLoad ⟨2, 36, 10⟩ 4 14 = (⟨4, 30, 14⟩, .updated, .updated)
      ∧ applyRequest defaultPresets false ⟨4, 30, 14⟩ (.preset 7) = (⟨8, 24, 16⟩, .updated, .updated)
      ∧ applyRequest defaultPresets true ⟨4, 32, 12⟩ (.step .hold .inc) = (⟨4, 32, 12⟩, .pinned, .pinned) := by decide

/-- The ADAPT rows of the worked bring-up: candidates, the tie that keeps the entry code, the d1 of both lanes. -/
theorem test_worked_adapt :
    peakingCodes 7 = [6, 7, 8] ∧ peakingCodes 0 = [0, 1] ∧ peakingCodes 15 = [14, 15]
      ∧ AdaptLane.choice ⟨7, [6, 7, 8], [238, 244, 244], .peaking, .measure, false⟩ = 7
      ∧ AdaptLane.choice ⟨7, [6, 7, 8], [236, 231, 229], .peaking, .measure, false⟩ = 6
      ∧ updateD1 0 (-9) 4 = -2 ∧ updateD1 0 14 4 = 3 := by decide

/-- The postings of the worked queue of 11_notices.md. -/
def storm : List (NoticeKind × Option LegId) :=
  [(.legState, some 0), (.legState, some 1), (.legState, some 2), (.legState, some 3), (.serialMismatch, some 0),
   (.serialMismatch, some 1), (.sidebandLost, some 2), (.deferExpired, some 0), (.deferExpired, some 1), (.wake, some 3),
   (.farPower, some 3), (.linkDegraded, some 0), (.linkDegraded, some 1), (.sidebandRestored, some 2),
   (.commitDone, none), (.deferExpired, some 2), (.legState, some 0), (.serialMismatch, some 2), (.legFault, some 1),
   (.sidebandLost, some 3), (.deferExpired, some 3)]

def afterStorm : NoticeQueue := storm.foldl (fun q x => q.post x.1 x.2 [] 0) NoticeQueue.reset

theorem test_worked_queue :
    afterStorm.records.map (fun n => (n.kind, n.leg, n.count))
      = [(.legFault, some 1, 1), (.sidebandLost, some 2, 1), (.wake, some 3, 1), (.linkDegraded, some 0, 1),
         (.linkDegraded, some 1, 1), (.sidebandLost, some 3, 1), (.legState, some 0, 2), (.legState, some 1, 1),
         (.legState, some 2, 1), (.legState, some 3, 1), (.deferExpired, some 0, 1), (.deferExpired, some 1, 1),
         (.farPower, some 3, 1), (.sidebandRestored, some 2, 1), (.commitDone, none, 1), (.deferExpired, some 2, 1)]
      ∧ afterStorm.overflow = true ∧ afterStorm.alert = true := by decide +kernel

/-- Its read hands out four records with the marker, and twelve remain under an asserted ALERT. -/
theorem test_worked_queue_read :
    leaves (.readNotices ⟨0, []⟩) { hub with notices := afterStorm } (fun t =>
      (told t).take 2 == [4, 1] && t.notices.records.length == 12 && !t.notices.overflow && t.notices.alert) := by
  decide +kernel

/-! ### Start-up and the commit job -/

theorem test_reset_pin : leaves (.deviceReset .endRole) (one .up) (fun t =>
    t.role == .endRole && t.cable.startup == .settling && (t.leg 0).window.isNone) := by decide +kernel

theorem test_settling_ends : leaves .settlingEnd State.reset (fun t => t.cable.startup == .loadingHeader) := by
  decide +kernel

theorem test_no_memory : leaves (.factoryHeaderRead []) (atStart .loadingHeader) (fun t =>
    t.cable.startup == .ready && t.notices.records.map Notice.data == [[3, 1]]) := by decide +kernel

theorem test_image_of_unknown_records : leaves (.factoryImageRead lossless)
    (atStart (.loadingImage 11 (crc16 (imageCovered lossless)))) (fun t => t.cable.loadStatus == some .ok) := by
  decide +kernel

theorem test_learned_none : leaves (.learnedBlockRead (List.replicate 80 0)) (atStart .loadingLearned) (fun t =>
    t.cable.learnedStatus == some .absent && t.cable.startup == .ready) := by decide +kernel

theorem test_commit_steps :
    leaves .pageSent (withJob 0 none) (fun t => t.cable.job.any (fun j => j.poll == some 10000))
      ∧ leaves .pollAcknowledged (withJob 0 (some 5)) (fun t => t.cable.job.any (fun j => j.index == 1))
      ∧ leaves .pollAcknowledged (withJob 5 (some 5)) (fun t => t.cable.job.isNone && t.cable.learnedStatus == some .ok)
      ∧ leaves .pollLimitExpiry (withJob 3 (some 5)) (fun t => t.notices.records.map Notice.data == [[1, 3]])
      ∧ leaves .pageWriteNack (withJob 2 none) (fun t => t.notices.records.map Notice.data == [[2, 2]]) := by
  decide +kernel

/-! ### Lanes -/

/-- The 16th bad set of the worked burst, and the good set that returns the leg to UP. -/
theorem test_worked_burst :
    leaves (.windowReport 2 70 65 0) (counted .up 120) (fun t => (t.leg 0).errCount == 128 && (t.leg 0).state == .degraded)
      ∧ leaves (.windowReport 2 70 64 0) (counted .degraded 96) (fun t =>
          (t.leg 0).errCount == 95 && (t.leg 0).state == .up) := by decide +kernel

/-- The fourth signal reading in a row of the worked presence, at a leg already PRESENT on its other lanes. -/
theorem test_worked_presence :
    leaves (.scanReading 2 41) (debounced .listen .absent) (fun t =>
        (t.lane 2).presence == .present && (t.leg 0).state == .probe)
      ∧ leaves (.scanReading 2 17) (debounced .listen .absent) (fun t => (t.lane 2).debounce == 0) := by decide +kernel

theorem test_settle_ends : leaves (.settleExpiry 2) settling (fun t => (t.lane 2).settleUntil.isNone) := by decide +kernel

/-! ### Timers -/

/-- The PROBE the entry queues is sent in the same event (R28, R155). -/
theorem test_holdoff_ends : leaves (.probeHoldoffExpiry 0) (timed .listen .present 1) (fun t =>
    (t.leg 0).state == .probe && t.tx.any (fun x => x.work.itemCode == 1)) := by decide +kernel

/-- 250.2 ms of the worked sequence: the deadline takes attempt 1 to 2; the fourth ends in FAULT. -/
theorem test_deadline :
    leaves (.attemptDeadlineExpiry 0) (timed .train .present 1) (fun t =>
        (t.leg 0).state == .train && (t.leg 0).attempt == some 2)
      ∧ leaves (.attemptDeadlineExpiry 0) (timed .train .present 4) (fun t =>
          (t.leg 0).state == .fault && (t.leg 0).lastFault == .trainFailed) := by decide +kernel

theorem test_end_watches :
    leaves .probeWaitExpiry (watched .listen) (fun t => (t.leg 0).lastFault == .roleConflict)
      ∧ leaves .hubSilenceExpiry (watched .verify) (fun t => (t.leg 0).state == .listen)
      ∧ leaves .hubSilenceExpiry (watched .up) (fun t => (t.leg 0).state == .up && (t.leg 0).sbLost) := by decide +kernel

theorem test_keepalive_due : leaves (.keepaliveTimerExpiry 0) (keeping .up) (fun t =>
    t.tx.any (fun x => x.work == .item .keepalive)) := by decide +kernel

/-! ### The sideband -/

theorem test_frame_sent : leaves (.commandFrameSent 0 false) (inPhase .sending) (fun t =>
    t.tx.any (fun x => x.phase == .waiting && x.replyTimer == some 200)) := by decide +kernel

theorem test_keepalive_answered : leaves (.sidebandAck 0 (replied 1 2 false [6, 1, 9, 0])) (flying .up (.item .keepalive))
    (fun t => (t.leg 0).farStatus == some ⟨.up, 1, 9, false, 0⟩ && t.tx.isNone) := by decide +kernel

theorem test_probe_answered : leaves (.sidebandAck 0 (replied 1 1 false ([1, 3, 1, 1] ++ List.replicate 8 0)))
    (flying .probe (.item (.probe ⟨0, 3, 1, 0, zeroSerial⟩))) (fun t =>
      (t.leg 0).state == .train && (t.leg 0).negRate == some .m) := by decide +kernel

theorem test_deferred : leaves (.sidebandDefer 0 (replied 2 0 false [])) (flying .up .drain) (fun t =>
    t.tx.any (fun x => x.phase == .backoff && x.backoff == some 100)) := by decide +kernel

theorem test_phase_refused : leaves (.sidebandRefuse 0 (refused 4 2)) (flying .train (.item (.phase .train 1 .l)))
    (fun t => (t.leg 0).state == .fault && (t.leg 0).lastFault == .farRefused) := by decide +kernel

theorem test_third_timeout :
    leaves .replyTimeout (flying .up (.item .keepalive)) (fun t =>
        (t.leg 0).timeouts == 1 && t.tx.any (fun x => x.phase == .sending))
      ∧ leaves .replyTimeout (timedOut .up) (fun t => (t.leg 0).sbLost && t.tx.isNone) := by decide +kernel

theorem test_backoff_ends : leaves .backoffEnd (inPhase .backoff) (fun t => t.tx.any (fun x => x.phase == .sending)) := by
  decide +kernel

theorem test_expiry_tells : leaves .transactionExpiry (flying .up (.item .keepalive)) (fun t =>
    t.notices.records.map (fun n => (n.kind, n.leg)) == [(.deferExpired, some 0)]) := by decide +kernel

theorem test_beacon : leaves (.beaconReceived 0 2 (crc8 [0x22])) (one .up) (fun t =>
      (t.leg 0).beacon == 2 && t.tx.any (fun x => x.work == .drain))
    ∧ leaves (.beaconSilence 0) (one .up) (fun t => (t.leg 0).beacon == 0) := by decide +kernel

theorem test_hub_hears_a_command : leaves (.hubCommandFrame 0 1 1 (cmd 1 1 0 [])) (one .listen) (fun t =>
    (t.leg 0).lastFault == .roleConflict) := by decide +kernel

theorem test_bad_reply_counts : leaves (.replyFailingChecks 0 0 0 (replied 0 0 false [])) (flying .up .drain) (fun t =>
    (t.leg 0).timeouts == 1) := by decide +kernel

/-! ### The END -/

/-- The response frame an END sends: kind and reason. -/
def sent (t : State) : Byte × Byte := ((t.resp.lastSent.getD []).getD 0 0, (t.resp.lastSent.getD []).getD 2 0)

theorem test_end_probe : leaves (.probeCommand 0 (cmd 1 1 0 ([0, 3, 1, 2] ++ List.replicate 8 0))) (atEnd .listen)
    (fun t => (t.leg 0).state == .probe && sent t == (1, 0)) := by decide +kernel

theorem test_end_fetch : leaves (.fetchCommand 0 .status (cmd 2 2 0 [])) (atEnd .up) (fun t =>
    (t.resp.lastSent.getD []).take 8 == [1, 2, 0, 4, 6, 0, 0, 0]) := by decide +kernel

theorem test_end_phase : leaves (.storePhase 0 (cmd 3 4 0 [3, 1, 1])) (atEnd .probe) (fun t =>
    (t.leg 0).state == .train && (t.leg 0).negRate == some .m && sent t == (1, 0)) := by decide +kernel

theorem test_end_tap_status : leaves (.storeTapStatus 0 (cmd 3 6 0 [0, 0, 0, 3, 38, 7])) (atEnd .train) (fun t =>
    (t.lane 2).farTaps == some ⟨3, 38, 7⟩) := by decide +kernel

/-- The worked settle: a request to a settling lane is deferred, and the retry after its expiry is applied. Case 12: PRESET 9
is refused with BAD_VALUE. -/
theorem test_end_exchange :
    leaves (.exchangeTapRequest 0 (cmd 4 5 0 [0, 1, 1, 0])) settling (fun t => sent t == (2, 0))
      ∧ leaves2 (.settleExpiry 2) (.exchangeTapRequest 0 (cmd 4 5 0 [0, 1, 1, 0])) settling (fun t =>
          (t.lane 2).taps == ⟨1, 47, 0⟩ && (t.resp.lastSent.getD []).take 10 == [1, 5, 0, 6, 0, 0, 1, 1, 47, 0])
      ∧ leaves (.exchangeTapRequest 0 (cmd 4 5 0 [0, 2, 9, 0])) (atEnd .train) (fun t => sent t == (3, 4)) := by
  decide +kernel

theorem test_end_drain : leaves (.drainCommand 0 0 (cmd 5 0 0 [])) (drained none) (fun t =>
    (t.leg 0).queue == [] && (t.resp.lastSent.getD []).take 4 == [1, 9, 0, 0]) := by decide +kernel

theorem test_end_unknown : leaves (.unknownCommandOrItem 0 6 1 (cmd 6 1 0 [])) (atEnd .up) (fun t => sent t == (3, 4)) := by
  decide +kernel

/-! ### The management port -/

theorem test_frame_receiver :
    leaves (.requestFrameStart 0x7E) hub (fun t => t.port.collecting)
      ∧ leaves .requestFrameGap { hub with port := ⟨true, none, []⟩ } (fun t => !t.port.collecting)
      ∧ leaves (.requestFrameDiscarded (.badLength 49)) { hub with port := ⟨true, none, []⟩ } (fun t =>
          !t.port.collecting && t.port.line == []) := by decide +kernel

theorem test_reply_sent :
    leaves .replySent (replying false) (fun t => t.port.slot.isNone && t.port.line == [])
      ∧ leaves .replySent (replying true) (fun t => t.cable.startup == .settling) := by decide +kernel

/-- Part code 2408, revision 3, HUB, LOADING, nothing decided (R178). -/
theorem test_identify : leaves (.identify ⟨7, []⟩) State.reset (fun t =>
    (told t).take 7 == [0x68, 0x09, 3, 0, 0, 0xFF, 0xFF] && said t == some .ok) := by decide +kernel

theorem test_read_leg : leaves (.readLeg ⟨0, [0, 1]⟩) ((one .up).modLeg 0 (fun l => { l with wakePending := true }))
    (fun t => !(t.leg 0).wakePending && (told t).take 5 == [0, 1, 2, 1, 0]) := by decide +kernel

theorem test_read_lane : leaves (.readLane ⟨0, [8]⟩) hub (fun t => said t == some .badArgument) := by decide +kernel

/-- The three legs of the worked crossbar. -/
def crossbar : State :=
  ((hub.installWindow 0 ⟨0, 2, 0⟩).installWindow 1 ⟨2, 2, 4⟩).installWindow 2 ⟨4, 4, 6⟩

theorem test_worked_crossbar :
    allLanes.map (fun c => (crossbar.lane c).owner) = [some 0, some 0, some 2, some 2, some 2, some 2, some 1, some 1]
      ∧ allLanes.map (fun c => (crossbar.lane c).hostLane)
          = [some 0, some 1, some 4, some 5, some 6, some 7, some 2, some 3] := by decide +kernel

theorem test_worked_conflicts :
    leaves (.configureLeg ⟨0, [1, 2, 4, 0, 0, 4, 0, 16, 20, 0, 0, 0]⟩) crossbar (fun t => said t == some .badArgument)
      ∧ leaves (.configureLeg ⟨0, [1, 2, 2, 0, 0, 4, 0, 16, 20, 0, 0, 0]⟩) crossbar (fun t => said t == some .conflict)
      ∧ leaves (.configureLeg ⟨0, [3, 6, 2, 1, 0, 4, 0, 16, 20, 0, 0, 0]⟩) crossbar (fun t => said t == some .conflict) := by
  decide +kernel

theorem test_start_and_stop :
    leaves (.startLeg ⟨0, [0]⟩) (one .off) (fun t => (t.leg 0).state == .listen)
      ∧ leaves (.stopLeg ⟨0, [0]⟩) (one .up) (fun t => (t.leg 0).state == .off && (t.lane 2).path == .off) := by
  decide +kernel

theorem test_reset_leg : leaves (.resetLeg ⟨0, [0]⟩) (one .fault) (fun t =>
    (t.leg 0).state == .off && (t.leg 0).window == some ⟨2, 1, 0⟩) := by decide +kernel

theorem test_power :
    leaves (.setLegPower ⟨0, [0, 1]⟩) (one .up) (fun t => (t.leg 0).state == .standby)
      ∧ leaves (.setLegPower ⟨0, [0, 2]⟩) (atEnd .up) (fun t => (t.leg 0).queue == [.powerRequest .sleep]) := by
  decide +kernel

/-- Pre 3 and post 11 at 150 microseconds, as in the worked settle. -/
theorem test_worked_pin : leaves (.pinTaps ⟨0, [2, 3, 11]⟩) { settling with time := 150 } (fun t =>
    (t.lane 2).taps == ⟨3, 34, 11⟩ && (t.lane 2).pinned && (t.lane 2).settleUntil == some 450) := by decide +kernel

theorem test_unpin : leaves (.unpinTaps ⟨0, [2]⟩) (hub.modLane 2 (fun l => { l with pinned := true })) (fun t =>
    !(t.lane 2).pinned && said t == some .ok) := by decide +kernel

theorem test_presets :
    leaves (.readPresets ⟨0, []⟩) hub (fun t => (told t).take 16 == [0, 0, 0, 4, 2, 6, 2, 10, 4, 12, 4, 14, 6, 16, 8, 16])
      ∧ leaves (.commitPresets ⟨0, []⟩) hub (fun t => said t == some .accepted && t.cable.job.isSome)
      ∧ leaves (.forgetPresets ⟨0, []⟩) hub (fun t => t.cable.learned.toList.all (fun e => !e.valid)) := by decide +kernel

theorem test_far_read : leaves (.farRead ⟨0, [0, 2, 0]⟩) (one .up) (fun t =>
    t.tx.any (fun x => x.work == .item (.farFetch .status 0)) && t.port.line == []) := by decide +kernel

theorem test_notice_levels : leaves (.setNoticeLevels ⟨0, [0, 1, 2, 3, 0, 1, 2, 3, 0, 1, 2, 3]⟩) hub (fun t =>
    t.notices.levels == #v[0, 1, 2, 3, 0, 1, 2, 3, 0, 1, 2] && t.notices.floor == 3) := by decide +kernel

theorem test_reset_request : leaves2 (.resetDevice ⟨0, []⟩) .replySent hub (fun t => t.cable.startup == .settling) := by
  decide +kernel

theorem test_unknown_request : leaves (.unknownRequestKind 0x12 ⟨0, []⟩) hub (fun t => said t == some .notSupported) := by
  decide +kernel

/-- The command in front runs, and the rest waits. -/
theorem test_step_takes_the_front :
    (match step { State.reset with pending := [.settlingEnd, .requestFrameGap] } with
     | .next t => t.cable.startup == .loadingHeader && t.pending == [.requestFrameGap]
     | _ => false) = true := by decide +kernel

/-! ### Witnesses of the statements -/

theorem witness_HeaderReadJudged :
    ((fun (s : State) => s.cable.startup = .settling) State.reset)
    ∧ ((fun (s : State) => s.cable.startup = .loadingHeader) (atStart .loadingHeader))
    ∧ ((fun (s : State) (bytes : List Byte) => s.cable.startup = .loadingHeader ∧ bytes ≠ [] ∧ (bytes.length < 7
      ∨ natAt bytes 0 ≠ 0x48 ∨ natAt bytes 1 ≠ 0x4A ∨ natAt bytes 2 ≠ 1 ∨ nat16At bytes 3 < 7
      ∨ 1024 < nat16At bytes 3)) (atStart .loadingHeader) [0x48])
    ∧ ((fun (s : State) (bytes : List Byte) => s.cable.startup = .loadingHeader ∧ bytes ≠ [] ∧ (bytes.length < 7
      ∨ natAt bytes 0 ≠ 0x48 ∨ natAt bytes 1 ≠ 0x4A ∨ natAt bytes 2 ≠ 1 ∨ nat16At bytes 3 < 7
      ∨ 1024 < nat16At bytes 3)) (atStart .loadingHeader) [0x48, 0x4A, 1, 6, 0, 0, 0])
    ∧ ((fun (s : State) (bytes : List Byte) => s.cable.startup = .loadingHeader ∧ bytes ≠ [] ∧ (bytes.length < 7
      ∨ natAt bytes 0 ≠ 0x48 ∨ natAt bytes 1 ≠ 0x4A ∨ natAt bytes 2 ≠ 1 ∨ nat16At bytes 3 < 7
      ∨ 1024 < nat16At bytes 3)) (atStart .loadingHeader) [0x48, 0x4A, 1, 1, 4, 0, 0])
    ∧ ((fun (s : State) (n : Nat) (crc : Half) => s.cable.startup = .loadingHeader ∧ 7 ≤ n
      ∧ n ≤ 1024) (atStart .loadingHeader) 7 0)
    ∧ ((fun (s : State) (n : Nat) (crc : Half) => s.cable.startup = .loadingHeader ∧ 7 ≤ n
      ∧ n ≤ 1024) (atStart .loadingHeader) 1024 0xFFFF) :=
  ⟨by beta_reduce; decide +kernel,
   by beta_reduce; decide +kernel,
   by beta_reduce; decide +kernel,
   by beta_reduce; decide +kernel,
   by beta_reduce; decide +kernel,
   by beta_reduce; decide +kernel,
   by beta_reduce; decide +kernel⟩

theorem witness_ImageReadApplied :
    ((fun (s : State) (len : Nat) (crc : Half) (bytes : List Byte) => s.cable.startup = .loadingImage len crc
      ∧ (bytes.length < len
      ∨ crc16 (imageCovered (bytes.take len)) ≠ crc)) (atStart (.loadingImage 11 0)) 11 0 lossless)
    ∧ ((fun (s : State) (len : Nat) (crc : Half) (bytes : List Byte) (ds : List LegDefault) => s.cable.startup =
      .loadingImage len crc ∧ len ≤ bytes.length ∧ crc16 (imageCovered (bytes.take len)) = crc ∧ ds = (readChain
      (bytes.take len)).1.defaults.getD []) (atStart (.loadingImage 11 (crc16 (imageCovered lossless)))) 11 (crc16
      (imageCovered lossless)) lossless []) :=
  ⟨by beta_reduce; decide +kernel,
   by beta_reduce; decide +kernel⟩

theorem witness_LearnedReadEntersReady :
    ((fun (s : State) (bytes : List Byte) => s.cable.startup = .loadingLearned) (atStart .loadingLearned) [])
    ∧ ((fun (s : State) (bytes : List Byte) => s.cable.startup = .loadingLearned) (starting .absent) [0x4C])
    ∧ ((fun (s : State) (bytes : List Byte) => s.cable.startup = .loadingLearned) (starting .present) (List.replicate
      80 0)) :=
  ⟨by beta_reduce; decide +kernel,
   by beta_reduce; decide +kernel,
   by beta_reduce; decide +kernel⟩

theorem witness_CommitJobSteps :
    ((fun (s : State) (j : Job) => s.cable.job = some j ∧ j.poll = none) (withJob 0 none) ⟨State.reset.cable.learned,
      State.reset.cable.serial, 0, none⟩)
    ∧ ((fun (s : State) (j : Job) => s.cable.job = some j ∧ j.poll ≠ none ∧ j.index < 5) (withJob 0 (some 9))
      ⟨State.reset.cable.learned, State.reset.cable.serial, 0, some 9⟩)
    ∧ ((fun (s : State) (j : Job) => s.cable.job = some j ∧ j.poll ≠ none ∧ j.index < 5) (withJob 4 (some 9))
      ⟨State.reset.cable.learned, State.reset.cable.serial, 4, some 9⟩)
    ∧ ((fun (s : State) (j : Job) => s.cable.job = some j ∧ j.poll ≠ none ∧ j.index = 5) (withJob 5 (some 9))
      ⟨State.reset.cable.learned, State.reset.cable.serial, 5, some 9⟩)
    ∧ ((fun (s : State) (j : Job) => s.cable.job = some j ∧ j.poll ≠ none) (withJob 5 (some 9))
      ⟨State.reset.cable.learned, State.reset.cable.serial, 5, some 9⟩)
    ∧ ((fun (s : State) (j : Job) => s.cable.job = some j ∧ j.poll = none) (withJob 0 none)
      ⟨State.reset.cable.learned, State.reset.cable.serial, 0, none⟩)
    ∧ ((fun (s : State) (i : Instr) => s.cable.job = none ∧ (i = .pageSent ∨ i = .pollAcknowledged
      ∨ i = .pollLimitExpiry ∨ i = .pageWriteNack)) hub .pageSent) :=
  ⟨by beta_reduce; decide +kernel,
   by beta_reduce; decide +kernel,
   by beta_reduce; decide +kernel,
   by beta_reduce; decide +kernel,
   by beta_reduce; decide +kernel,
   by beta_reduce; decide +kernel,
   by beta_reduce; decide +kernel⟩

theorem witness_WindowReportRecorded :
    ((fun (s : State) (c : LaneId) (h : Fin 128) (e : Fin 65536) (r : BitVec 7) (g : LegId) => (s.lane c).owner =
      some g) (wide .up) 7 127 65535 0x40 0)
    ∧ ((fun (s : State) (c : LaneId) (h : Fin 128) (e : Fin 65536) (r : BitVec 7) => (s.lane c).owner = none) hub 0 0
      0 0)
    ∧ ((fun (s : State) (g : LegId) (i : WinIx) (h : Fin 128) (e : Fin 65536) (r : BitVec 7) (k : Search) => (s.lane
      (s.winLane g i)).owner = some g ∧ s.hasIndex g i ∧ (s.leg g).state = .train
      ∧ (s.lane (s.winLane g i)).search = some k ∧ (k.waiting = none
      ∨ k.waiting = some .status)) (searching (one .train) 1 { record with waiting := none }) 0 0 10 0 5
      { record with waiting := none })
    ∧ ((fun (s : State) (g : LegId) (i : WinIx) (h : Fin 128) (e : Fin 65536) (r : BitVec 7) (k : Search) => (s.lane
      (s.winLane g i)).owner = some g ∧ s.hasIndex g i ∧ (s.leg g).state = .train
      ∧ (s.lane (s.winLane g i)).search = some k ∧ (k.waiting = none
      ∨ k.waiting = some .status)) (searching (atEnd .train) 4 { record with waiting := some .status }) 0 0 10 0 5
      { record with waiting := some .status })
    ∧ ((fun (s : State) (g : LegId) (i : WinIx) (h : Fin 128) (e : Fin 65536) (r : BitVec 7) (k : Search) => (s.lane
      (s.winLane g i)).owner = some g ∧ s.hasIndex g i ∧ (s.leg g).state = .train
      ∧ (s.lane (s.winLane g i)).search = some k ∧ k.waiting = some .discard) (searching (one .train) 1
      { record with waiting := some .discard }) 0 0 10 0 5 { record with waiting := some .discard })
    ∧ ((fun (s : State) (g : LegId) (i : WinIx) (h : Fin 128) (e : Fin 65536) (r : BitVec 7) (k : Search) => (s.lane
      (s.winLane g i)).owner = some g ∧ s.hasIndex g i ∧ (s.leg g).state = .train
      ∧ (s.lane (s.winLane g i)).search = some k ∧ k.waiting = some .measure ∧ k.request = .opening
      ∧ k.openPinned = false) (searching (one .train) 4 { record with request := .opening, best := 0 }) 0 0 10 0 5
      { record with request := .opening, best := 0 })
    ∧ ((fun (s : State) (g : LegId) (i : WinIx) (h : Fin 128) (e : Fin 65536) (r : BitVec 7) (k : Search) (n : Nat)
      => (s.lane (s.winLane g i)).owner = some g ∧ s.hasIndex g i ∧ (s.leg g).state = .train
      ∧ (s.lane (s.winLane g i)).search = some k ∧ k.waiting = some .measure ∧ k.request = .opening ∧ k.openPinned
      ∧ (s.leg g).attempt = some n ∧ 1 ≤ n ∧ (s.leg g).standbyVerify = false) (searching (one .train) 4
      { record with request := .opening, openPinned := true }) 0 0 10 0 5
      { record with request := .opening, openPinned := true } 4)
    ∧ ((fun (s : State) (g : LegId) (i : WinIx) (h : Fin 128) (e : Fin 65536) (r : BitVec 7) (k : Search) (n : Nat)
      => (s.lane (s.winLane g i)).owner = some g ∧ s.hasIndex g i ∧ (s.leg g).state = .train
      ∧ (s.lane (s.winLane g i)).search = some k ∧ k.waiting = some .measure ∧ k.request = .opening ∧ k.openPinned
      ∧ (s.leg g).attempt = some n ∧ 1 ≤ n ∧ (s.leg g).standbyVerify = false) (searching (atEnd .train) 1
      { record with request := .opening, openPinned := true }) 0 0 0 0 5
      { record with request := .opening, openPinned := true } 1)
    ∧ ((fun (s : State) (g : LegId) (i : WinIx) (h : Fin 128) (e : Fin 65536) (r : BitVec 7) (k : Search) => (s.lane
      (s.winLane g i)).owner = some g ∧ s.hasIndex g i ∧ (s.leg g).state = .train
      ∧ (s.lane (s.winLane g i)).search = some k ∧ k.waiting = some .measure ∧ k.request = .step
      ∧ k.best < 4 * h.val - min e.val 255) (searching (one .train) 1 record) 0 0 11 3 5 record)
    ∧ ((fun (s : State) (g : LegId) (i : WinIx) (h : Fin 128) (e : Fin 65536) (r : BitVec 7) (k : Search) => (s.lane
      (s.winLane g i)).owner = some g ∧ s.hasIndex g i ∧ (s.leg g).state = .train
      ∧ (s.lane (s.winLane g i)).search = some k ∧ k.waiting = some .measure ∧ k.request = .step
      ∧ k.best < 4 * h.val - min e.val 255) (searching (atEnd .train) 1 { record with best := 0 }) 0 0 127 0 5
      { record with best := 0 })
    ∧ ((fun (s : State) (g : LegId) (i : WinIx) (h : Fin 128) (e : Fin 65536) (r : BitVec 7) (k : Search) => (s.lane
      (s.winLane g i)).owner = some g ∧ s.hasIndex g i ∧ (s.leg g).state = .train
      ∧ (s.lane (s.winLane g i)).search = some k ∧ k.waiting = some .measure ∧ k.request = .step
      ∧ 4 * h.val - min e.val 255 ≤ k.best) (searching (one .train) 1 record) 0 0 10 0 5 record)
    ∧ ((fun (s : State) (g : LegId) (i : WinIx) (h : Fin 128) (e : Fin 65536) (r : BitVec 7) (k : Search) => (s.lane
      (s.winLane g i)).owner = some g ∧ s.hasIndex g i ∧ (s.leg g).state = .train
      ∧ (s.lane (s.winLane g i)).search = some k ∧ k.waiting = some .measure ∧ k.request = .step
      ∧ 4 * h.val - min e.val 255 ≤ k.best) (searching (one .train) 4
      { record with steps := 32, gained := true, tap := .pre }) 0 0 0 65535 5
      { record with steps := 32, gained := true, tap := .pre }) :=
  ⟨by beta_reduce; decide +kernel,
   by beta_reduce; decide +kernel,
   by beta_reduce; decide +kernel,
   by beta_reduce; decide +kernel,
   by beta_reduce; decide +kernel,
   by beta_reduce; decide +kernel,
   by beta_reduce; decide +kernel,
   by beta_reduce; decide +kernel,
   by beta_reduce; decide +kernel,
   by beta_reduce; decide +kernel,
   by beta_reduce; decide +kernel,
   by beta_reduce; decide +kernel⟩

theorem witness_TrackingMovesFeedbackTap :
    ((fun (s : State) (c : LaneId) (h : Fin 128) (e : Fin 65536) (r : BitVec 7) (g : LegId) (w : Window) => (s.lane
      c).owner = some g ∧ (s.leg g).window = some w ∧ w.indexOf c ≠ none
      ∧ ((s.leg g).state = .up ∨ (s.leg g).state = .degraded)
      ∧ (s.leg g).errCount < 248) (one .up) 2 0 0 0x40 0 ⟨2, 1, 0⟩)
    ∧ ((fun (s : State) (g : LegId) (i : WinIx) (h : Fin 128) (e : Fin 65536) (r : BitVec 7) (v : Vector AdaptLane 8)
      => (s.lane (s.winLane g i)).owner = some g ∧ s.hasIndex g i ∧ (s.leg g).state = .adapt
      ∧ (s.leg g).adapt = some v ∧ (v[i].stage = .complete
      ∨ v[i].waiting ≠ .measure)) (adapting (one .adapt) 1 (Vector.replicate 8 { tally with waiting := .discard })) 0
      0 10 0 5 (Vector.replicate 8 { tally with waiting := .discard }))
    ∧ ((fun (s : State) (g : LegId) (i : WinIx) (h : Fin 128) (e : Fin 65536) (r : BitVec 7) (v : Vector AdaptLane 8)
      => (s.lane (s.winLane g i)).owner = some g ∧ s.hasIndex g i ∧ (s.leg g).state = .adapt
      ∧ (s.leg g).adapt = some v ∧ (v[i].stage = .complete
      ∨ v[i].waiting ≠ .measure)) (adapting (atEnd .adapt) 1 (Vector.replicate 8
      { tally with measured := [0, 4, 0], stage := .complete })) 0 0 10 0 5 (Vector.replicate 8
      { tally with measured := [0, 4, 0], stage := .complete }))
    ∧ ((fun (s : State) (g : LegId) (i : WinIx) (h : Fin 128) (e : Fin 65536) (r : BitVec 7) (v : Vector AdaptLane 8)
      (p : Nat) => (s.lane (s.winLane g i)).owner = some g ∧ s.hasIndex g i ∧ (s.leg g).state = .adapt
      ∧ (s.leg g).adapt = some v ∧ v[i].stage = .peaking ∧ v[i].waiting = .measure ∧
      v[i].candidates[v[i].measured.length + 1]? = some p) (adapting (one .adapt) 1 (Vector.replicate 8 tally)) 0 0
      10 0 5 (Vector.replicate 8 tally) 7)
    ∧ ((fun (s : State) (g : LegId) (i : WinIx) (h : Fin 128) (e : Fin 65536) (r : BitVec 7) (v : Vector AdaptLane 8)
      (p : Nat) => (s.lane (s.winLane g i)).owner = some g ∧ s.hasIndex g i ∧ (s.leg g).state = .adapt
      ∧ (s.leg g).adapt = some v ∧ v[i].stage = .peaking ∧ v[i].waiting = .measure
      ∧ v[i].candidates[v[i].measured.length + 1]? = some p) (adapting (atEnd .adapt) 4 (Vector.replicate 8
      { tally with measured := [3] })) 0 0 10 0 5 (Vector.replicate 8 { tally with measured := [3] }) 8)
    ∧ ((fun (s : State) (g : LegId) (i : WinIx) (h : Fin 128) (e : Fin 65536) (r : BitVec 7) (v : Vector AdaptLane 8)
      => (s.lane (s.winLane g i)).owner = some g ∧ s.hasIndex g i ∧ (s.leg g).state = .adapt
      ∧ (s.leg g).adapt = some v ∧ v[i].stage = .peaking ∧ v[i].waiting = .measure ∧ v[i].Ok
      ∧ v[i].measured.length + 1 = v[i].candidates.length ∧ (s.isHub = false
      ∨ (v[i].measured ++ [4 * h.val - min e.val 255]).any (fun x => x != 0))) (adapting (one .adapt) 1 (Vector.replicate 8
      { tally with measured := [0, 4] })) 0 0 0 0 5 (Vector.replicate 8 { tally with measured := [0, 4] }))
    ∧ ((fun (s : State) (g : LegId) (i : WinIx) (h : Fin 128) (e : Fin 65536) (r : BitVec 7) (v : Vector AdaptLane 8)
      => (s.lane (s.winLane g i)).owner = some g ∧ s.hasIndex g i ∧ (s.leg g).state = .adapt
      ∧ (s.leg g).adapt = some v ∧ v[i].stage = .peaking ∧ v[i].waiting = .measure ∧ v[i].Ok
      ∧ v[i].measured.length + 1 = v[i].candidates.length ∧ (s.isHub = false
      ∨ (v[i].measured ++ [4 * h.val - min e.val 255]).any (fun x => x != 0))) (adapting (atEnd .adapt) 1 (Vector.replicate 8
      { tally with measured := [0, 0] })) 0 0 0 0 5 (Vector.replicate 8 { tally with measured := [0, 0] }))
    ∧ ((fun (s : State) (g : LegId) (i : WinIx) (h : Fin 128) (e : Fin 65536) (r : BitVec 7) (v : Vector AdaptLane 8)
      (n : Nat) => (s.lane (s.winLane g i)).owner = some g ∧ s.hasIndex g i ∧ (s.leg g).state = .adapt
      ∧ (s.leg g).adapt = some v ∧ v[i].stage = .peaking ∧ v[i].waiting = .measure ∧ v[i].Ok
      ∧ v[i].measured.length + 1 = v[i].candidates.length ∧ s.isHub
      ∧ (v[i].measured ++ [4 * h.val - min e.val 255]).all (fun x => x == 0) ∧ (s.leg g).attempt = some n ∧ 1 ≤ n
      ∧ (s.leg g).standbyVerify = false) (adapting (one .adapt) 1 (Vector.replicate 8
      { tally with measured := [0, 0] })) 0 0 0 0 5 (Vector.replicate 8 { tally with measured := [0, 0] }) 1)
    ∧ ((fun (s : State) (g : LegId) (i : WinIx) (h : Fin 128) (e : Fin 65536) (r : BitVec 7) (v : Vector AdaptLane 8)
      (n : Nat) => (s.lane (s.winLane g i)).owner = some g ∧ s.hasIndex g i ∧ (s.leg g).state = .adapt
      ∧ (s.leg g).adapt = some v ∧ v[i].stage = .peaking ∧ v[i].waiting = .measure ∧ v[i].Ok
      ∧ v[i].measured.length + 1 = v[i].candidates.length ∧ s.isHub
      ∧ (v[i].measured ++ [4 * h.val - min e.val 255]).all (fun x => x == 0) ∧ (s.leg g).attempt = some n ∧ 1 ≤ n
      ∧ (s.leg g).standbyVerify = false) (adapting (one .adapt) 4 (Vector.replicate 8
      { tally with measured := [0, 0] })) 0 0 1 4 5 (Vector.replicate 8 { tally with measured := [0, 0] }) 4)
    ∧ ((fun (s : State) (g : LegId) (i : WinIx) (h : Fin 128) (e : Fin 65536) (r : BitVec 7) (v : Vector AdaptLane 8)
      => (s.lane (s.winLane g i)).owner = some g ∧ s.hasIndex g i ∧ (s.leg g).state = .adapt
      ∧ (s.leg g).adapt = some v ∧ v[i].stage = .feedback ∧ v[i].waiting = .measure ∧ (s.isHub = false
      ∨ ∃ j ∈ s.winIndices g, j ≠ i ∧ v[j].stage ≠ .complete)) (adapting (atEnd .adapt) 1 (Vector.replicate 8
      { tally with measured := [0, 4, 0], stage := .feedback })) 0 0 10 0 5 (Vector.replicate 8
      { tally with measured := [0, 4, 0], stage := .feedback }))
    ∧ ((fun (s : State) (g : LegId) (i : WinIx) (h : Fin 128) (e : Fin 65536) (r : BitVec 7) (v : Vector AdaptLane 8)
      => (s.lane (s.winLane g i)).owner = some g ∧ s.hasIndex g i ∧ (s.leg g).state = .adapt
      ∧ (s.leg g).adapt = some v ∧ v[i].stage = .feedback ∧ v[i].waiting = .measure ∧ (s.isHub = false
      ∨ ∃ j ∈ s.winIndices g, j ≠ i ∧ v[j].stage ≠ .complete)) (adapting (wide .adapt) 1 (Vector.replicate 8
      { tally with measured := [0, 4, 0], stage := .feedback })) 0 0 10 0 5 (Vector.replicate 8
      { tally with measured := [0, 4, 0], stage := .feedback }))
    ∧ ((fun (s : State) (g : LegId) (i : WinIx) (h : Fin 128) (e : Fin 65536) (r : BitVec 7) (v : Vector AdaptLane 8)
      (n : Nat) => (s.lane (s.winLane g i)).owner = some g ∧ s.hasIndex g i ∧ (s.leg g).state = .adapt
      ∧ (s.leg g).adapt = some v ∧ v[i].stage = .feedback ∧ v[i].waiting = .measure ∧ s.isHub
      ∧ (∀ j ∈ s.winIndices g, j ≠ i → v[j].stage = .complete)
      ∧ (s.leg g).attempt = some n) (adapting (one .adapt) 4 (Vector.replicate 8
      { tally with measured := [0, 4, 0], stage := .feedback })) 0 0 10 0 5 (Vector.replicate 8
      { tally with measured := [0, 4, 0], stage := .feedback }) 4)
    ∧ ((fun (s : State) (g : LegId) (i : WinIx) (h : Fin 128) (e : Fin 65536) (r : BitVec 7) (v : Vector AdaptLane 8)
      (n : Nat) => (s.lane (s.winLane g i)).owner = some g ∧ s.hasIndex g i ∧ (s.leg g).state = .adapt
      ∧ (s.leg g).adapt = some v ∧ v[i].stage = .feedback ∧ v[i].waiting = .measure ∧ s.isHub
      ∧ (∀ j ∈ s.winIndices g, j ≠ i → v[j].stage = .complete)
      ∧ (s.leg g).attempt = some n) (adapting (wide .adapt) 1 (Vector.replicate 8
      { tally with measured := [0, 4, 0], stage := .complete } |>.set 0
      { tally with measured := [0, 4, 0], stage := .feedback })) 0 0 10 0 5 (Vector.replicate 8
      { tally with measured := [0, 4, 0], stage := .complete } |>.set 0
      { tally with measured := [0, 4, 0], stage := .feedback }) 1) :=
  ⟨by beta_reduce; decide +kernel,
   by beta_reduce; decide +kernel,
   by beta_reduce; decide +kernel,
   by beta_reduce; decide +kernel,
   by beta_reduce; decide +kernel,
   by unfold AdaptLane.Ok; decide +kernel,
   by unfold AdaptLane.Ok; decide +kernel,
   by unfold AdaptLane.Ok; decide +kernel,
   by unfold AdaptLane.Ok; decide +kernel,
   by beta_reduce; decide +kernel,
   by beta_reduce; decide +kernel,
   by beta_reduce; decide +kernel,
   by beta_reduce; decide +kernel⟩

theorem witness_HealthCountsASet :
    ((fun (s : State) (c : LaneId) (h : Fin 128) (e : Fin 65536) (r : BitVec 7) (g : LegId) (es : LaneId → Report) =>
      (s.lane c).owner = some g ∧ c ∈ s.winLanes g ∧ ((s.leg g).state = .up ∨ (s.leg g).state = .degraded)
      ∧ es c = ⟨h, e, r, s.time⟩ ∧ (∀ j ∈ s.winLanes g, j ≠ c → (s.leg g).reportSet[j] = some (es j))
      ∧ (∃ j ∈ s.winLanes g, (s.leg g).errThreshold < (es j).e.val ∨ (es j).h.val < (s.leg g).eyeFloor)
      ∧ (s.leg g).errCount < 248) (counted .up 247) 2 16 65 0 0 (fun _ => ⟨16, 65, 0, 0⟩))
    ∧ ((fun (s : State) (c : LaneId) (h : Fin 128) (e : Fin 65536) (r : BitVec 7) (g : LegId) (es : LaneId → Report)
      => (s.lane c).owner = some g ∧ c ∈ s.winLanes g ∧ ((s.leg g).state = .up ∨ (s.leg g).state = .degraded)
      ∧ es c = ⟨h, e, r, s.time⟩ ∧ (∀ j ∈ s.winLanes g, j ≠ c → (s.leg g).reportSet[j] = some (es j))
      ∧ (∃ j ∈ s.winLanes g, (s.leg g).errThreshold < (es j).e.val ∨ (es j).h.val < (s.leg g).eyeFloor)
      ∧ (s.leg g).errCount < 248) (counted .up 0) 2 15 64 0 0 (fun _ => ⟨15, 64, 0, 0⟩))
    ∧ ((fun (s : State) (c : LaneId) (h : Fin 128) (e : Fin 65536) (r : BitVec 7) (g : LegId) (es : LaneId → Report)
      => (s.lane c).owner = some g ∧ c ∈ s.winLanes g ∧ ((s.leg g).state = .up ∨ (s.leg g).state = .degraded)
      ∧ es c = ⟨h, e, r, s.time⟩ ∧ (∀ j ∈ s.winLanes g, j ≠ c → (s.leg g).reportSet[j] = some (es j))
      ∧ (∃ j ∈ s.winLanes g, (s.leg g).errThreshold < (es j).e.val ∨ (es j).h.val < (s.leg g).eyeFloor) ∧ (s.leg
      g).errCount < 248) (gathered 0) 0 15 64 0 0 (fun j => if j = 0 then ⟨15, 64, 0, 0⟩ else ⟨16, 64, 0, 0⟩))
    ∧ ((fun (s : State) (c : LaneId) (h : Fin 128) (e : Fin 65536) (r : BitVec 7) (g : LegId) (es : LaneId → Report)
      => (s.lane c).owner = some g ∧ c ∈ s.winLanes g ∧ ((s.leg g).state = .up ∨ (s.leg g).state = .degraded)
      ∧ es c = ⟨h, e, r, s.time⟩ ∧ (∀ j ∈ s.winLanes g, j ≠ c → (s.leg g).reportSet[j] = some (es j))
      ∧ (∀ j ∈ s.winLanes g, (es j).e.val ≤ (s.leg g).errThreshold ∧ (s.leg g).eyeFloor ≤ (es j).h.val)) (counted
      .degraded 0) 2 16 64 0 0 (fun _ => ⟨16, 64, 0, 0⟩))
    ∧ ((fun (s : State) (c : LaneId) (h : Fin 128) (e : Fin 65536) (r : BitVec 7) (g : LegId) (es : LaneId → Report)
      => (s.lane c).owner = some g ∧ c ∈ s.winLanes g ∧ ((s.leg g).state = .up ∨ (s.leg g).state = .degraded)
      ∧ es c = ⟨h, e, r, s.time⟩ ∧ (∀ j ∈ s.winLanes g, j ≠ c → (s.leg g).reportSet[j] = some (es j))
      ∧ (∀ j ∈ s.winLanes g, (es j).e.val ≤ (s.leg g).errThreshold ∧ (s.leg g).eyeFloor ≤ (es j).h.val)) (gathered
      255) 0 127 0 0 0 (fun j => if j = 0 then ⟨127, 0, 0, 0⟩ else ⟨16, 64, 0, 0⟩))
    ∧ ((fun (s : State) (c : LaneId) (h : Fin 128) (e : Fin 65536) (r : BitVec 7) (g : LegId) => (s.lane c).owner =
      some g ∧ c ∈ s.winLanes g ∧ ((s.leg g).state = .up ∨ (s.leg g).state = .degraded) ∧ (∃ j ∈ s.winLanes g, j ≠ c
      ∧ (s.leg g).reportSet[j] = none)) (wide .up) 7 16 65 0 0)
    ∧ ((fun (s : State) (g : LegId) (i : WinIx) (h : Fin 128) (e : Fin 65536) (r : BitVec 7) (v : Vector VerifyLane
      8) => (s.lane (s.winLane g i)).owner = some g ∧ s.hasIndex g i ∧ (s.leg g).state = .verify
      ∧ (s.leg g).verify = some v ∧ (v[i].passedOver = false ∨ 16 ≤ v[i].counted)) (verifying (one .verify) 1
      (Vector.replicate 8 ⟨false, 0, 0⟩)) 0 0 16 64 5 (Vector.replicate 8 ⟨false, 0, 0⟩))
    ∧ ((fun (s : State) (g : LegId) (i : WinIx) (h : Fin 128) (e : Fin 65536) (r : BitVec 7) (v : Vector VerifyLane
      8) => (s.lane (s.winLane g i)).owner = some g ∧ s.hasIndex g i ∧ (s.leg g).state = .verify
      ∧ (s.leg g).verify = some v ∧ (v[i].passedOver = false ∨ 16 ≤ v[i].counted)) (verifying (wide .verify) 4
      (Vector.replicate 8 ⟨true, 16, 2⟩)) 0 0 16 64 5 (Vector.replicate 8 ⟨true, 16, 2⟩))
    ∧ ((fun (s : State) (g : LegId) (i : WinIx) (h : Fin 128) (e : Fin 65536) (r : BitVec 7) (v : Vector VerifyLane
      8) => (s.lane (s.winLane g i)).owner = some g ∧ s.hasIndex g i ∧ (s.leg g).state = .verify
      ∧ (s.leg g).verify = some v ∧ v[i].passedOver ∧ v[i].counted < 16 ∧ (v[i].counted < 15
      ∨ ∃ j ∈ s.winIndices g, j ≠ i ∧ v[j].counted ≠ 16)) (verifying (one .verify) 1 (Vector.replicate 8 ⟨true, 14,
      0⟩)) 0 0 15 64 5 (Vector.replicate 8 ⟨true, 14, 0⟩))
    ∧ ((fun (s : State) (g : LegId) (i : WinIx) (h : Fin 128) (e : Fin 65536) (r : BitVec 7) (v : Vector VerifyLane
      8) => (s.lane (s.winLane g i)).owner = some g ∧ s.hasIndex g i ∧ (s.leg g).state = .verify
      ∧ (s.leg g).verify = some v ∧ v[i].passedOver ∧ v[i].counted < 16 ∧ (v[i].counted < 15
      ∨ ∃ j ∈ s.winIndices g, j ≠ i ∧ v[j].counted ≠ 16)) (verifying (wide .verify) 4 (Vector.replicate 8 ⟨true, 15,
      1⟩)) 0 0 16 64 5 (Vector.replicate 8 ⟨true, 15, 1⟩))
    ∧ ((fun (s : State) (g : LegId) (i : WinIx) (h : Fin 128) (e : Fin 65536) (r : BitVec 7) (v : Vector VerifyLane
      8) (u : Vector VerifyLane 8) (ok : Bool) (rt : Rate) (n : Nat) => (s.lane (s.winLane g i)).owner = some g
      ∧ s.hasIndex g i ∧ (s.leg g).state = .verify ∧ (s.leg g).verify = some v ∧ v[i].passedOver ∧ v[i].counted = 15
      ∧ (∀ j ∈ s.winIndices g, j ≠ i → v[j].counted = 16) ∧ (u = v.set i.val
      { v[i] with counted := v[i].counted + 1,
                  bad := v[i].bad + (if (s.leg g).errThreshold < e.val ∨ h.val < (s.leg g).eyeFloor then 1 else 0) }
      i.isLt) ∧ (ok = true ↔ ∀ j ∈ s.winIndices g, u[j].bad ≤ 1) ∧ (s.leg g).negRate = some rt ∧ (s.leg g).attempt =
      some n) (verifying (one .verify) 4 (Vector.replicate 8 ⟨true, 15, 1⟩)) 0 0 16 65 5 (Vector.replicate 8 ⟨true,
      15, 1⟩) (Vector.replicate 8 ⟨true, 15, 1⟩ |>.set 0 ⟨true, 16, 2⟩) false .m 4)
    ∧ ((fun (s : State) (g : LegId) (i : WinIx) (h : Fin 128) (e : Fin 65536) (r : BitVec 7) (v : Vector VerifyLane
      8) (u : Vector VerifyLane 8) (ok : Bool) (rt : Rate) (n : Nat) => (s.lane (s.winLane g i)).owner = some g
      ∧ s.hasIndex g i ∧ (s.leg g).state = .verify ∧ (s.leg g).verify = some v ∧ v[i].passedOver ∧ v[i].counted = 15
      ∧ (∀ j ∈ s.winIndices g, j ≠ i → v[j].counted = 16) ∧ (u = v.set i.val
      { v[i] with counted := v[i].counted + 1,
                  bad := v[i].bad + (if (s.leg g).errThreshold < e.val ∨ h.val < (s.leg g).eyeFloor then 1 else 0) }
      i.isLt) ∧ (ok = true ↔ ∀ j ∈ s.winIndices g, u[j].bad ≤ 1) ∧ (s.leg g).negRate = some rt ∧ (s.leg g).attempt =
      some n) (verifying (wide .verify) 1 (Vector.replicate 8 ⟨true, 16, 1⟩ |>.set 0 ⟨true, 15, 0⟩)) 0 0 15 64 5
      (Vector.replicate 8 ⟨true, 16, 1⟩ |>.set 0 ⟨true, 15, 0⟩) (Vector.replicate 8 ⟨true, 16, 1⟩ |>.set 0 ⟨true, 16,
      1⟩) true .m 1)
    ∧ ((fun (s : State) (g : LegId) (i : WinIx) (h : Fin 128) (e : Fin 65536) (r : BitVec 7) (v : Vector VerifyLane
      8) (u : Vector VerifyLane 8) (ok : Bool) (rt : Rate) (n : Nat) => (s.lane (s.winLane g i)).owner = some g
      ∧ s.hasIndex g i ∧ (s.leg g).state = .verify ∧ (s.leg g).verify = some v ∧ v[i].passedOver ∧ v[i].counted = 15
      ∧ (∀ j ∈ s.winIndices g, j ≠ i → v[j].counted = 16) ∧ (u = v.set i.val
      { v[i] with counted := v[i].counted + 1,
                  bad := v[i].bad + (if (s.leg g).errThreshold < e.val ∨ h.val < (s.leg g).eyeFloor then 1 else 0) }
      i.isLt) ∧ (ok = true ↔ ∀ j ∈ s.winIndices g, u[j].bad ≤ 1) ∧ (s.leg g).negRate = some rt ∧ (s.leg g).attempt =
      some n) (verifying (atEnd .verify) 1 (Vector.replicate 8 ⟨true, 15, 1⟩)) 0 0 16 64 5 (Vector.replicate 8 ⟨true,
      15, 1⟩) (Vector.replicate 8 ⟨true, 15, 1⟩ |>.set 0 ⟨true, 16, 1⟩) true .m 1) :=
  ⟨by beta_reduce; decide +kernel,
   by beta_reduce; decide +kernel,
   by beta_reduce; decide +kernel,
   by beta_reduce; decide +kernel,
   by beta_reduce; decide +kernel,
   by beta_reduce; decide +kernel,
   by beta_reduce; decide +kernel,
   by beta_reduce; decide +kernel,
   by beta_reduce; decide +kernel,
   by beta_reduce; decide +kernel,
   by beta_reduce; decide +kernel,
   by beta_reduce; decide +kernel,
   by beta_reduce; decide +kernel⟩

theorem witness_CounterTopRetrains :
    ((fun (s : State) (c : LaneId) (h : Fin 128) (e : Fin 65536) (r : BitVec 7) (g : LegId) (es : LaneId → Report) =>
      (s.lane c).owner = some g ∧ c ∈ s.winLanes g ∧ ((s.leg g).state = .up ∨ (s.leg g).state = .degraded)
      ∧ es c = ⟨h, e, r, s.time⟩ ∧ (∀ j ∈ s.winLanes g, j ≠ c → (s.leg g).reportSet[j] = some (es j))
      ∧ (∃ j ∈ s.winLanes g, (s.leg g).errThreshold < (es j).e.val ∨ (es j).h.val < (s.leg g).eyeFloor)
      ∧ 248 ≤ (s.leg g).errCount) (counted .up 248) 2 15 0 0 0 (fun _ => ⟨15, 0, 0, 0⟩))
    ∧ ((fun (s : State) (c : LaneId) (h : Fin 128) (e : Fin 65536) (r : BitVec 7) (g : LegId) (es : LaneId → Report)
      => (s.lane c).owner = some g ∧ c ∈ s.winLanes g ∧ ((s.leg g).state = .up ∨ (s.leg g).state = .degraded)
      ∧ es c = ⟨h, e, r, s.time⟩ ∧ (∀ j ∈ s.winLanes g, j ≠ c → (s.leg g).reportSet[j] = some (es j))
      ∧ (∃ j ∈ s.winLanes g, (s.leg g).errThreshold < (es j).e.val ∨ (es j).h.val < (s.leg g).eyeFloor)
      ∧ 248 ≤ (s.leg g).errCount) (counted .degraded 255) 2 127 65 0 0 (fun _ => ⟨127, 65, 0, 0⟩))
    ∧ ((fun (s : State) (c : LaneId) (h : Fin 128) (e : Fin 65536) (r : BitVec 7) (g : LegId) (es : LaneId → Report)
      => (s.lane c).owner = some g ∧ c ∈ s.winLanes g ∧ ((s.leg g).state = .up ∨ (s.leg g).state = .degraded)
      ∧ es c = ⟨h, e, r, s.time⟩ ∧ (∀ j ∈ s.winLanes g, j ≠ c → (s.leg g).reportSet[j] = some (es j))
      ∧ (∃ j ∈ s.winLanes g, (s.leg g).errThreshold < (es j).e.val ∨ (es j).h.val < (s.leg g).eyeFloor) ∧ 248 ≤
      (s.leg g).errCount) (gathered 248) 0 16 65 0 0 (fun j => if j = 0 then ⟨16, 65, 0, 0⟩ else ⟨16, 64, 0, 0⟩)) :=
  ⟨by beta_reduce; decide +kernel,
   by beta_reduce; decide +kernel,
   by beta_reduce; decide +kernel⟩

theorem witness_ScanReadingDebounces :
    ((fun (s : State) (c : LaneId) (g : LegId) (level : Fin 64) => (s.lane c).owner = some g
      ∧ ((s.leg g).state ≠ .off ∧ (s.leg g).state ≠ .fault) ∧ (((s.lane c).presence = .present
      ↔ (s.leg g).presThreshold ≤ level.val))) (one .listen) 2 0 19)
    ∧ ((fun (s : State) (c : LaneId) (g : LegId) (level : Fin 64) => (s.lane c).owner = some g
      ∧ ((s.leg g).state ≠ .off ∧ (s.leg g).state ≠ .fault) ∧ (¬((s.lane c).presence = .present
      ↔ (s.leg g).presThreshold ≤ level.val)) ∧ (s.lane c).debounce < 3) (one .listen) 2 0 20)
    ∧ ((fun (s : State) (c : LaneId) (g : LegId) (level : Fin 64) => (s.lane c).owner = some g
      ∧ ((s.leg g).state ≠ .off ∧ (s.leg g).state ≠ .fault) ∧ (¬((s.lane c).presence = .present
      ↔ (s.leg g).presThreshold ≤ level.val)) ∧ 3 ≤ (s.lane c).debounce) (debounced .listen .absent) 2 0 20)
    ∧ ((fun (s : State) (c : LaneId) (level : Fin 64) => ((s.lane c).owner = none ∨ ∃ g, (s.lane c).owner = some g
      ∧ ((s.leg g).state = .off ∨ (s.leg g).state = .fault))) hub 0 63)
    ∧ ((fun (s : State) (c : LaneId) (level : Fin 64) => ((s.lane c).owner = none ∨ ∃ g, (s.lane c).owner = some g
      ∧ ((s.leg g).state = .off ∨ (s.leg g).state = .fault))) (one .fault) 2 63) :=
  ⟨by beta_reduce; decide +kernel,
   by beta_reduce; decide +kernel,
   by beta_reduce; decide +kernel,
   Or.inl (by decide +kernel),
   Or.inr ⟨0, by decide +kernel⟩⟩

theorem witness_SignalLossReturnsToListen :
    ((fun (s : State) (c : LaneId) (g : LegId) (level : Fin 64) => (s.lane c).owner = some g
      ∧ ((s.leg g).state.receives ∨ (s.leg g).state = .standby ∨ (s.leg g).state = .probe)
      ∧ (s.lane c).presence = .present ∧ 3 ≤ (s.lane c).debounce ∧ level.val < (s.leg g).presThreshold
      ∧ c ∈ s.winLanes g ∧ (s.isHub ∨ g = 0)) (debounced .standby .present) 2 0 19)
    ∧ ((fun (s : State) (c : LaneId) (g : LegId) (level : Fin 64) => (s.lane c).owner = some g
      ∧ ((s.leg g).state.receives ∨ (s.leg g).state = .standby ∨ (s.leg g).state = .probe)
      ∧ (s.lane c).presence = .present ∧ 3 ≤ (s.lane c).debounce ∧ level.val < (s.leg g).presThreshold
      ∧ c ∈ s.winLanes g ∧ (s.isHub ∨ g = 0)) (debounced .probe .present) 2 0 19)
    ∧ ((fun (s : State) (c : LaneId) (g : LegId) (level : Fin 64) => (s.lane c).owner = some g
      ∧ (s.leg g).state = .sleep ∧ (s.lane c).presence = .absent ∧ 3 ≤ (s.lane c).debounce
      ∧ (s.leg g).presThreshold ≤ level.val ∧ c ∈ s.winLanes g ∧ (s.isHub
      ∨ g = 0)) (debounced .sleep .absent) 2 0 20)
    ∧ ((fun (s : State) (c : LaneId) (g : LegId) (level : Fin 64) => (s.lane c).owner = some g
      ∧ ((s.leg g).state = .listen ∨ (s.leg g).state = .sleep) ∧ (s.lane c).presence = .present
      ∧ 3 ≤ (s.lane c).debounce ∧ level.val < (s.leg g).presThreshold ∧ (s.isHub
      ∨ g = 0)) (debounced .listen .present) 2 0 19)
    ∧ ((fun (s : State) (c : LaneId) (g : LegId) (level : Fin 64) => (s.lane c).owner = some g
      ∧ ((s.leg g).state = .listen ∨ (s.leg g).state = .sleep) ∧ (s.lane c).presence = .present
      ∧ 3 ≤ (s.lane c).debounce ∧ level.val < (s.leg g).presThreshold ∧ (s.isHub
      ∨ g = 0)) (debounced .sleep .present) 2 0 0)
    ∧ ((fun (s : State) (c : LaneId) (g : LegId) (level : Fin 64) => (s.lane c).owner = some g
      ∧ ((s.leg g).state = .listen ∨ (s.leg g).state = .sleep) ∧ (s.lane c).presence = .present
      ∧ 3 ≤ (s.lane c).debounce ∧ level.val < (s.leg g).presThreshold ∧ (s.isHub
      ∨ g = 0)) { debounced .listen .present with role := .endRole } 2 0 0) :=
  ⟨by beta_reduce; decide +kernel,
   by beta_reduce; decide +kernel,
   by beta_reduce; decide +kernel,
   by beta_reduce; decide +kernel,
   by beta_reduce; decide +kernel,
   by beta_reduce; decide +kernel⟩

theorem witness_HubTimersMoveTheLeg :
    ((fun (s : State) (g : LegId) => s.isHub ∧ (s.leg g).state = .listen ∧ (s.leg g).holdoff ≠ none
      ∧ s.allPresent g) (timed .listen .present 1) 0)
    ∧ ((fun (s : State) (g : LegId) => (s.leg g).state = .listen ∧ (s.leg g).holdoff ≠ none
      ∧ s.allPresent g = false) (timed .listen .absent 1) 0)
    ∧ ((fun (s : State) (g : LegId) (n : Nat) => s.isHub ∧ (s.leg g).deadline ≠ none ∧ (s.leg g).state.attempting
      ∧ (s.leg g).attempt = some n ∧ ((s.leg g).standbyVerify ∨ n < 4)) (timed .verify .present 3) 0 3)
    ∧ ((fun (s : State) (g : LegId) (n : Nat) => s.isHub ∧ (s.leg g).deadline ≠ none ∧ (s.leg g).state.attempting
      ∧ (s.leg g).attempt = some n ∧ (s.leg g).standbyVerify = false ∧ 4 ≤ n) (timed .train .present 4) 0 4) :=
  ⟨by beta_reduce; decide +kernel,
   by beta_reduce; decide +kernel,
   by beta_reduce; decide +kernel,
   by beta_reduce; decide +kernel⟩

theorem witness_EndWatchesExpire :
    ((fun (s : State) => s.isHub = false ∧ (s.leg 0).state = .listen ∧ (s.leg 0).probeWait ≠ none) (watched .listen))
    ∧ ((fun (s : State) => s.isHub = false ∧ s.resp.silence ≠ none ∧ ((s.leg 0).state = .probe
      ∨ (s.leg 0).state.attempting)) (watched .probe))
    ∧ ((fun (s : State) => s.isHub = false ∧ s.resp.silence ≠ none ∧ ((s.leg 0).state = .probe
      ∨ (s.leg 0).state.attempting)) (watched .verify))
    ∧ ((fun (s : State) => s.isHub = false ∧ s.resp.silence ≠ none ∧ ((s.leg 0).state.inService
      ∨ (s.leg 0).state = .standby ∨ (s.leg 0).state = .sleep)) (watched .sleep))
    ∧ ((fun (s : State) => s.isHub = false ∧ s.resp.silence ≠ none ∧ (s.leg 0).state.quiet) (watched .fault)) :=
  ⟨by beta_reduce; decide +kernel,
   by beta_reduce; decide +kernel,
   by beta_reduce; decide +kernel,
   by beta_reduce; decide +kernel,
   by beta_reduce; decide +kernel⟩

theorem witness_KeepaliveIsQueued :
    ((fun (s : State) (g : LegId) (due : Time) => (s.leg g).keepalive = some due
      ∧ s.tx ≠ none) (flying .up .drain) 0 7)
    ∧ ((fun (s : State) (g : LegId) (due : Time) => (s.leg g).keepalive = some due) (keeping .up) 0 7)
    ∧ ((fun (s : State) (g : LegId) => (s.leg g).keepalive = none) hub 0) :=
  ⟨by beta_reduce; decide +kernel,
   by beta_reduce; decide +kernel,
   by beta_reduce; decide +kernel⟩

theorem witness_EngineSendsAndWaits :
    ((fun (s : State) (x : Transaction) => s.tx = some x ∧ x.phase = .sending) (inPhase .sending) ⟨0, .drain, false,
      0, .sending, true, some 200, none, 2000⟩)
    ∧ ((fun (s : State) (x : Transaction) => s.tx = some x ∧ x.phase = .backoff) (inPhase .backoff) ⟨0, .drain,
      false, 0, .backoff, true, some 200, none, 2000⟩)
    ∧ ((fun (s : State) (g : LegId) (x : Transaction) (f : ResponseBody) => s.getsReply g x 2 f) (flying .up .drain)
      0 ⟨0, .drain, false, 0, .waiting, true, some 200, none, 2000⟩ (replied 2 0 false []))
    ∧ ((fun (s : State) (g : LegId) (b : Bool) => s.tx = none) hub 3 true) :=
  ⟨by beta_reduce; decide +kernel,
   by beta_reduce; decide +kernel,
   by unfold State.getsReply; decide +kernel,
   by beta_reduce; decide +kernel⟩

theorem witness_TimeoutResendsThenLoses :
    ((fun (s : State) (x : Transaction) => s.tx = some x ∧ x.phase = .waiting ∧ (s.leg x.leg).timeouts < 2) (flying
      .up .drain) ⟨0, .drain, false, 0, .waiting, true, some 200, none, 2000⟩)
    ∧ ((fun (s : State) (x : Transaction) (low : BitVec 2) (mid : BitVec 2) (f : ResponseBody) => s.isHub
      ∧ s.tx = some x ∧ x.phase = .waiting ∧ (s.leg x.leg).timeouts < 2 ∧ responseCrcOk low mid f ∧ replyGood x low
      mid f = false) (flying .up .drain) ⟨0, .drain, false, 0, .waiting, true, some 200, none, 2000⟩ 0 0 (replied 0 0
      false []))
    ∧ ((fun (s : State) (x : Transaction) => s.tx = some x ∧ x.phase = .waiting ∧ s.besideSearch x
      ∧ 2 ≤ (s.leg x.leg).timeouts ∧ ((s.leg x.leg).state.inService ∨ (s.leg x.leg).state = .standby ∨ (s.leg
      x.leg).state = .sleep)) (losing .up (.item .keepalive)) ⟨0, .item .keepalive, false, 0, .waiting, true, some
      200, none, 2000⟩)
    ∧ ((fun (s : State) (x : Transaction) => s.tx = some x ∧ x.phase = .waiting ∧ s.besideSearch x
      ∧ 2 ≤ (s.leg x.leg).timeouts ∧ ((s.leg x.leg).state.inService ∨ (s.leg x.leg).state = .standby ∨ (s.leg
      x.leg).state = .sleep)) (losing .sleep (.drain)) ⟨0, .drain, false, 0, .waiting, true, some 200, none, 2000⟩)
    ∧ ((fun (s : State) (x : Transaction) => s.tx = some x ∧ x.phase = .waiting ∧ s.besideSearch x
      ∧ 2 ≤ (s.leg x.leg).timeouts ∧ ((s.leg x.leg).state.inService ∨ (s.leg x.leg).state = .standby ∨ (s.leg
      x.leg).state = .sleep)) (losing .standby (.item (.phase .run 0 .l))) ⟨0, .item (.phase .run 0 .l), false, 0,
      .waiting, true, some 200, none, 2000⟩)
    ∧ ((fun (s : State) (x : Transaction) => s.isHub ∧ s.tx = some x ∧ x.phase = .waiting ∧ s.besideSearch x
      ∧ 2 ≤ (s.leg x.leg).timeouts ∧ (s.leg x.leg).state.attempting) (losing .train (.item .keepalive)) ⟨0, .item
      .keepalive, false, 0, .waiting, true, some 200, none, 2000⟩)
    ∧ ((fun (s : State) (x : Transaction) => s.isHub ∧ s.tx = some x ∧ x.phase = .waiting ∧ s.besideSearch x
      ∧ 2 ≤ (s.leg x.leg).timeouts ∧ (s.leg x.leg).state.attempting) (losing .verify (.item (.phase .run 0 .l))) ⟨0,
      .item (.phase .run 0 .l), false, 0, .waiting, true, some 200, none, 2000⟩)
    ∧ ((fun (s : State) (x : Transaction) => s.isHub ∧ s.tx = some x ∧ x.phase = .waiting ∧ s.besideSearch x
      ∧ 2 ≤ (s.leg x.leg).timeouts ∧ (s.leg x.leg).state.attempting) (losing .train (.item (.exchange 0 (.preset
      7)))) ⟨0, .item (.exchange 0 (.preset 7)), false, 0, .waiting, true, some 200, none, 2000⟩)
    ∧ ((fun (s : State) (x : Transaction) => s.isHub ∧ s.tx = some x ∧ x.phase = .waiting
      ∧ 2 ≤ (s.leg x.leg).timeouts ∧ s.besideSearch x ∧ (s.leg x.leg).state = .probe) (losing .probe (.item (.probe
      ⟨0, 3, 1, 0, zeroSerial⟩))) ⟨0, .item (.probe ⟨0, 3, 1, 0, zeroSerial⟩), false, 0, .waiting, true, some 200,
      none, 2000⟩)
    ∧ ((fun (s : State) (x : Transaction) => s.isHub ∧ s.tx = some x ∧ x.phase = .waiting
      ∧ 2 ≤ (s.leg x.leg).timeouts ∧ s.besideSearch x ∧ (s.leg x.leg).state = .probe) (losing .probe (.drain)) ⟨0,
      .drain, false, 0, .waiting, true, some 200, none, 2000⟩)
    ∧ ((fun (s : State) (x : Transaction) => s.tx = some x ∧ x.phase = .waiting ∧ 2 ≤ (s.leg x.leg).timeouts
      ∧ s.besideSearch x ∧ (s.leg x.leg).state = .listen) (losing .listen (.item (.probe ⟨0, 3, 1, 0, zeroSerial⟩)))
      ⟨0, .item (.probe ⟨0, 3, 1, 0, zeroSerial⟩), false, 0, .waiting, true, some 200, none, 2000⟩)
    ∧ ((fun (s : State) (x : Transaction) => s.tx = some x ∧ x.phase = .waiting ∧ 2 ≤ (s.leg x.leg).timeouts
      ∧ s.besideSearch x ∧ (s.leg x.leg).state = .listen) (losing .listen (.item (.storeStatus ⟨0, .updated, .hold,
      ⟨0, 47, 1⟩⟩))) ⟨0, .item (.storeStatus ⟨0, .updated, .hold, ⟨0, 47, 1⟩⟩), false, 0, .waiting, true, some 200,
      none, 2000⟩)
    ∧ ((fun (s : State) (x : Transaction) => s.tx = some x ∧ x.phase = .waiting ∧ 2 ≤ (s.leg x.leg).timeouts
      ∧ s.besideSearch x ∧ ((s.leg x.leg).state = .off ∨ (s.leg x.leg).state = .fault)) (losing .fault (.item
      (.exchange 0 (.preset 7)))) ⟨0, .item (.exchange 0 (.preset 7)), false, 0, .waiting, true, some 200, none,
      2000⟩)
    ∧ ((fun (s : State) (x : Transaction) => s.tx = some x ∧ x.phase = .waiting ∧ 2 ≤ (s.leg x.leg).timeouts
      ∧ s.besideSearch x ∧ ((s.leg x.leg).state = .off ∨ (s.leg x.leg).state = .fault)) (losing .off (.drain)) ⟨0,
      .drain, false, 0, .waiting, true, some 200, none, 2000⟩)
    ∧ ((fun (s : State) (g : LegId) (x : Transaction) (ix : WinIx) (q : TapRequest) (k : Search) (n : Nat) => s.isHub
      ∧ s.tx = some x ∧ x.phase = .waiting ∧ 2 ≤ (s.leg x.leg).timeouts ∧ x.leg = g ∧ x.work = .item (.exchange ix q)
      ∧ s.hasIndex g ix ∧ x.live ∧ (s.leg g).state = .train ∧ (s.lane (s.winLane g ix)).search = some k
      ∧ k.waiting = some .status ∧ (s.leg g).attempt = some n ∧ 1 ≤ n ∧ (s.leg g).standbyVerify = false ∧ (n < 4
      ∨ 0 < k.best ∨ k.request = .opening ∨ (k.steps < 32 ∧ (k.tap = .post ∨ (k.gained = false
      ∧ k.dir = .inc))))) (searching (losing .train (.item (.exchange 0 (.preset 7)))) 3
      { record with steps := 32, waiting := some .status, best := 0 }) 0 ⟨0, .item (.exchange 0 (.preset 7)), false,
      0, .waiting, true, some 200, none, 2000⟩ 0 (.preset 7)
      { record with steps := 32, waiting := some .status, best := 0 } 3)
    ∧ ((fun (s : State) (g : LegId) (x : Transaction) (ix : WinIx) (q : TapRequest) (k : Search) (n : Nat) => s.isHub
      ∧ s.tx = some x ∧ x.phase = .waiting ∧ 2 ≤ (s.leg x.leg).timeouts ∧ x.leg = g ∧ x.work = .item (.exchange ix q)
      ∧ s.hasIndex g ix ∧ x.live ∧ (s.leg g).state = .train ∧ (s.lane (s.winLane g ix)).search = some k
      ∧ k.waiting = some .status ∧ (s.leg g).attempt = some n ∧ 1 ≤ n ∧ (s.leg g).standbyVerify = false ∧ (n < 4
      ∨ 0 < k.best ∨ k.request = .opening ∨ (k.steps < 32 ∧ (k.tap = .post ∨ (k.gained = false
      ∧ k.dir = .inc))))) (searching (losing .train (.item (.exchange 0 (.preset 7)))) 4
      { record with waiting := some .status, best := 1, steps := 32 }) 0 ⟨0, .item (.exchange 0 (.preset 7)), false,
      0, .waiting, true, some 200, none, 2000⟩ 0 (.preset 7)
      { record with waiting := some .status, best := 1, steps := 32 } 4)
    ∧ ((fun (s : State) (g : LegId) (x : Transaction) (ix : WinIx) (q : TapRequest) (k : Search) (n : Nat) => s.isHub
      ∧ s.tx = some x ∧ x.phase = .waiting ∧ 2 ≤ (s.leg x.leg).timeouts ∧ x.leg = g ∧ x.work = .item (.exchange ix q)
      ∧ s.hasIndex g ix ∧ x.live ∧ (s.leg g).state = .train ∧ (s.lane (s.winLane g ix)).search = some k
      ∧ k.waiting = some .status ∧ (s.leg g).attempt = some n ∧ 1 ≤ n ∧ (s.leg g).standbyVerify = false ∧ (n < 4
      ∨ 0 < k.best ∨ k.request = .opening ∨ (k.steps < 32 ∧ (k.tap = .post ∨ (k.gained = false
      ∧ k.dir = .inc))))) (searching (losing .train (.item (.exchange 0 (.preset 7)))) 4
      { record with request := .opening, waiting := some .status, best := 0 }) 0 ⟨0, .item (.exchange 0 (.preset 7)),
      false, 0, .waiting, true, some 200, none, 2000⟩ 0 (.preset 7)
      { record with request := .opening, waiting := some .status, best := 0 } 4)
    ∧ ((fun (s : State) (g : LegId) (x : Transaction) (ix : WinIx) (q : TapRequest) (k : Search) (n : Nat) => s.isHub
      ∧ s.tx = some x ∧ x.phase = .waiting ∧ 2 ≤ (s.leg x.leg).timeouts ∧ x.leg = g ∧ x.work = .item (.exchange ix q)
      ∧ s.hasIndex g ix ∧ x.live ∧ (s.leg g).state = .train ∧ (s.lane (s.winLane g ix)).search = some k
      ∧ k.waiting = some .status ∧ (s.leg g).attempt = some n ∧ 1 ≤ n ∧ (s.leg g).standbyVerify = false ∧ (n < 4
      ∨ 0 < k.best ∨ k.request = .opening ∨ (k.steps < 32 ∧ (k.tap = .post ∨ (k.gained = false
      ∧ k.dir = .inc))))) (searching (losing .train (.item (.exchange 0 (.preset 7)))) 4
      { record with steps := 31, waiting := some .status, best := 0 }) 0 ⟨0, .item (.exchange 0 (.preset 7)), false,
      0, .waiting, true, some 200, none, 2000⟩ 0 (.preset 7)
      { record with steps := 31, waiting := some .status, best := 0 } 4)
    ∧ ((fun (s : State) (g : LegId) (x : Transaction) (ix : WinIx) (q : TapRequest) (k : Search) (n : Nat) => s.isHub
      ∧ s.tx = some x ∧ x.phase = .waiting ∧ 2 ≤ (s.leg x.leg).timeouts ∧ x.leg = g ∧ x.work = .item (.exchange ix q)
      ∧ s.hasIndex g ix ∧ x.live ∧ (s.leg g).state = .train ∧ (s.lane (s.winLane g ix)).search = some k
      ∧ k.waiting = some .status ∧ (s.leg g).attempt = some n ∧ 1 ≤ n ∧ (s.leg g).standbyVerify = false ∧ (n < 4
      ∨ 0 < k.best ∨ k.request = .opening ∨ (k.steps < 32 ∧ (k.tap = .post ∨ (k.gained = false
      ∧ k.dir = .inc))))) (searching (losing .train (.item (.exchange 0 (.preset 7)))) 4
      { record with tap := .pre, waiting := some .status, best := 0 }) 0 ⟨0, .item (.exchange 0 (.preset 7)), false,
      0, .waiting, true, some 200, none, 2000⟩ 0 (.preset 7)
      { record with tap := .pre, waiting := some .status, best := 0 } 4)
    ∧ ((fun (s : State) (g : LegId) (x : Transaction) (ix : WinIx) (q : TapRequest) (k : Search) (n : Nat) => s.isHub
      ∧ s.tx = some x ∧ x.phase = .waiting ∧ 2 ≤ (s.leg x.leg).timeouts ∧ x.leg = g ∧ x.work = .item (.exchange ix q)
      ∧ s.hasIndex g ix ∧ x.live ∧ (s.leg g).state = .train ∧ (s.lane (s.winLane g ix)).search = some k
      ∧ k.waiting = some .status ∧ (s.leg g).attempt = some n ∧ 1 ≤ n ∧ (s.leg g).standbyVerify = false ∧ 4 ≤ n
      ∧ k.best = 0 ∧ k.request ≠ .opening ∧ (32 ≤ k.steps ∨ (k.tap = .pre ∧ (k.gained
      ∨ k.dir = .dec)))) (searching (losing .train (.item (.exchange 0 (.preset 7)))) 4
      { record with steps := 32, waiting := some .status, best := 0 }) 0 ⟨0, .item (.exchange 0 (.preset 7)), false,
      0, .waiting, true, some 200, none, 2000⟩ 0 (.preset 7)
      { record with steps := 32, waiting := some .status, best := 0 } 4)
    ∧ ((fun (s : State) (g : LegId) (x : Transaction) (ix : WinIx) (q : TapRequest) (k : Search) (n : Nat) => s.isHub
      ∧ s.tx = some x ∧ x.phase = .waiting ∧ 2 ≤ (s.leg x.leg).timeouts ∧ x.leg = g ∧ x.work = .item (.exchange ix q)
      ∧ s.hasIndex g ix ∧ x.live ∧ (s.leg g).state = .train ∧ (s.lane (s.winLane g ix)).search = some k
      ∧ k.waiting = some .status ∧ (s.leg g).attempt = some n ∧ 1 ≤ n ∧ (s.leg g).standbyVerify = false ∧ 4 ≤ n
      ∧ k.best = 0 ∧ k.request ≠ .opening ∧ (32 ≤ k.steps ∨ (k.tap = .pre ∧ (k.gained
      ∨ k.dir = .dec)))) (searching (losing .train (.item (.exchange 0 (.preset 7)))) 4
      { record with tap := .pre, dir := .dec, waiting := some .status, best := 0 }) 0 ⟨0, .item (.exchange 0 (.preset
      7)), false, 0, .waiting, true, some 200, none, 2000⟩ 0 (.preset 7)
      { record with tap := .pre, dir := .dec, waiting := some .status, best := 0 } 4)
    ∧ ((fun (s : State) (g : LegId) (x : Transaction) (ix : WinIx) (q : TapRequest) (k : Search) (n : Nat) => s.isHub
      ∧ s.tx = some x ∧ x.phase = .waiting ∧ 2 ≤ (s.leg x.leg).timeouts ∧ x.leg = g ∧ x.work = .item (.exchange ix q)
      ∧ s.hasIndex g ix ∧ x.live ∧ (s.leg g).state = .train ∧ (s.lane (s.winLane g ix)).search = some k
      ∧ k.waiting = some .status ∧ (s.leg g).attempt = some n ∧ 1 ≤ n ∧ (s.leg g).standbyVerify = false ∧ 4 ≤ n
      ∧ k.best = 0 ∧ k.request ≠ .opening ∧ (32 ≤ k.steps ∨ (k.tap = .pre ∧ (k.gained
      ∨ k.dir = .dec)))) (searching (losing .train (.item (.exchange 0 (.preset 7)))) 4
      { record with tap := .pre, gained := true, request := .undo, waiting := some .status, best := 0 }) 0 ⟨0, .item
      (.exchange 0 (.preset 7)), false, 0, .waiting, true, some 200, none, 2000⟩ 0 (.preset 7)
      { record with tap := .pre, gained := true, request := .undo, waiting := some .status, best := 0 } 4) :=
  ⟨by beta_reduce; decide +kernel,
   by beta_reduce; decide +kernel,
   by beta_reduce; decide +kernel,
   by beta_reduce; decide +kernel,
   by beta_reduce; decide +kernel,
   by beta_reduce; decide +kernel,
   by beta_reduce; decide +kernel,
   by beta_reduce; decide +kernel,
   by beta_reduce; decide +kernel,
   by beta_reduce; decide +kernel,
   by beta_reduce; decide +kernel,
   by beta_reduce; decide +kernel,
   by beta_reduce; decide +kernel,
   by beta_reduce; decide +kernel,
   by beta_reduce; decide +kernel,
   by beta_reduce; decide +kernel,
   by beta_reduce; decide +kernel,
   by beta_reduce; decide +kernel,
   by beta_reduce; decide +kernel,
   by beta_reduce; decide +kernel,
   by beta_reduce; decide +kernel,
   by beta_reduce; decide +kernel⟩

theorem witness_KeepaliveAckSetsFarStatus :
    (fun (s : State) (g : LegId) (x : Transaction) (f : ResponseBody) => s.getsReply g x 1 f ∧ x.work = .item
      .keepalive) (flying .up (.item .keepalive)) 0 ⟨0, .item .keepalive, false, 0, .waiting, true, some 200, none,
      2000⟩ (replied 1 2 false [10, 3, 255, 1]) :=
  ⟨by unfold State.getsReply; decide +kernel, by decide +kernel⟩

theorem witness_ProbeAckIsChecked :
    ((fun (s : State) (g : LegId) (x : Transaction) (f : ResponseBody) (w : Window) (id : Ident) => s.getsReply g x 1
      f ∧ x.work = .item (.probe id) ∧ (s.leg g).state = .probe ∧ (s.leg g).window = some w) (flying .probe (.item
      (.probe ⟨0, 3, 1, 0, zeroSerial⟩))) 0 ⟨0, .item (.probe ⟨0, 3, 1, 0, zeroSerial⟩), false, 0, .waiting, true,
      some 200, none, 2000⟩ (replied 1 1 false ([0, 3, 1, 0] ++ zeroSerial.toList)) ⟨2, 1, 0⟩ ⟨0, 3, 1, 0,
      zeroSerial⟩)
    ∧ ((fun (s : State) (g : LegId) (x : Transaction) (f : ResponseBody) (w : Window) (id : Ident) => s.getsReply g x
      1 f ∧ x.work = .item (.probe id) ∧ (s.leg g).state = .probe ∧ (s.leg g).window = some w) (flying .probe (.item
      (.probe ⟨0, 3, 1, 0, zeroSerial⟩))) 0 ⟨0, .item (.probe ⟨0, 3, 1, 0, zeroSerial⟩), false, 0, .waiting, true,
      some 200, none, 2000⟩ (replied 1 1 false ([1, 3, 2, 0] ++ zeroSerial.toList)) ⟨2, 1, 0⟩ ⟨0, 3, 1, 0,
      zeroSerial⟩)
    ∧ ((fun (s : State) (g : LegId) (x : Transaction) (f : ResponseBody) (w : Window) (id : Ident) => s.getsReply g x
      1 f ∧ x.work = .item (.probe id) ∧ (s.leg g).state = .probe ∧ (s.leg g).window = some w) (flying .probe (.item
      (.probe ⟨0, 3, 1, 0, zeroSerial⟩))) 0 ⟨0, .item (.probe ⟨0, 3, 1, 0, zeroSerial⟩), false, 0, .waiting, true,
      some 200, none, 2000⟩ (replied 1 1 false ([1, 3, 1, 3] ++ zeroSerial.toList)) ⟨2, 1, 0⟩ ⟨0, 3, 1, 0,
      zeroSerial⟩)
    ∧ ((fun (s : State) (g : LegId) (x : Transaction) (f : ResponseBody) (w : Window) (id : Ident) => s.getsReply g x
      1 f ∧ x.work = .item (.probe id) ∧ (s.leg g).state = .probe ∧ (s.leg g).window = some w) (flying .probe (.item
      (.probe ⟨0, 3, 1, 0, zeroSerial⟩))) 0 ⟨0, .item (.probe ⟨0, 3, 1, 0, zeroSerial⟩), false, 0, .waiting, true,
      some 200, none, 2000⟩ (replied 1 1 false ([1, 3, 1, 2] ++ zeroSerial.toList)) ⟨2, 1, 0⟩ ⟨0, 3, 1, 0,
      zeroSerial⟩)
    ∧ ((fun (s : State) (g : LegId) (x : Transaction) (f : ResponseBody) (w : Window) (id : Ident) => s.getsReply g x
      1 f ∧ x.work = .item (.probe id) ∧ (s.leg g).state = .probe ∧ (s.leg g).window = some w) (flying .probe (.item
      (.probe ⟨0, 3, 1, 0, zeroSerial⟩))) 0 ⟨0, .item (.probe ⟨0, 3, 1, 0, zeroSerial⟩), false, 0, .waiting, true,
      some 200, none, 2000⟩ (replied 1 1 false ([1, 3, 1, 0] ++ List.replicate 8 1)) ⟨2, 1, 0⟩ ⟨0, 3, 1, 0,
      zeroSerial⟩)
    ∧ ((fun (s : State) (g : LegId) (x : Transaction) (f : ResponseBody) (id : Ident) => s.getsReply g x 3 f
      ∧ x.work = .item (.probe id) ∧ (s.leg g).state = .probe) (flying .probe (.item (.probe ⟨0, 3, 1, 0,
      zeroSerial⟩))) 0 ⟨0, .item (.probe ⟨0, 3, 1, 0, zeroSerial⟩), false, 0, .waiting, true, some 200, none, 2000⟩
      (refused 1 1) ⟨0, 3, 1, 0, zeroSerial⟩)
    ∧ ((fun (s : State) (g : LegId) (x : Transaction) (f : ResponseBody) (id : Ident) => s.getsReply g x 3 f
      ∧ x.work = .item (.probe id) ∧ (s.leg g).state = .probe) (flying .probe (.item (.probe ⟨0, 3, 1, 0,
      zeroSerial⟩))) 0 ⟨0, .item (.probe ⟨0, 3, 1, 0, zeroSerial⟩), false, 0, .waiting, true, some 200, none, 2000⟩
      (refused 1 2) ⟨0, 3, 1, 0, zeroSerial⟩)
    ∧ ((fun (s : State) (g : LegId) (x : Transaction) (f : ResponseBody) (id : Ident) => s.getsReply g x 3 f
      ∧ x.work = .item (.probe id) ∧ (s.leg g).state = .probe) (flying .probe (.item (.probe ⟨0, 3, 1, 0,
      zeroSerial⟩))) 0 ⟨0, .item (.probe ⟨0, 3, 1, 0, zeroSerial⟩), false, 0, .waiting, true, some 200, none, 2000⟩
      (refused 1 4) ⟨0, 3, 1, 0, zeroSerial⟩)
    ∧ ((fun (s : State) (g : LegId) (x : Transaction) (id : Ident) => s.isHub ∧ s.tx = some x ∧ x.phase = .waiting
      ∧ 2 ≤ (s.leg x.leg).timeouts ∧ x.leg = g ∧ x.work = .item (.probe id) ∧ (s.leg g).state = .probe) (losing
      .probe (.item (.probe ⟨0, 3, 1, 0, zeroSerial⟩))) 0 ⟨0, .item (.probe ⟨0, 3, 1, 0, zeroSerial⟩), false, 0,
      .waiting, true, some 200, none, 2000⟩ ⟨0, 3, 1, 0, zeroSerial⟩)
    ∧ ((fun (s : State) (g : LegId) (x : Transaction) (id : Ident) => s.isHub ∧ s.tx = some x ∧ x.leg = g
      ∧ x.work = .item (.probe id) ∧ (s.leg g).state = .probe) (flying .probe (.item (.probe ⟨0, 3, 1, 0,
      zeroSerial⟩))) 0 ⟨0, .item (.probe ⟨0, 3, 1, 0, zeroSerial⟩), false, 0, .waiting, true, some 200, none, 2000⟩
      ⟨0, 3, 1, 0, zeroSerial⟩)
    ∧ ((fun (s : State) (g : LegId) (x : Transaction) (f : ResponseBody) (id : Ident) => s.getsReply g x 1 f
      ∧ x.work = .item (.probe id) ∧ (s.leg g).state ≠ .probe) (flying .listen (.item (.probe ⟨0, 3, 1, 0,
      zeroSerial⟩))) 0 ⟨0, .item (.probe ⟨0, 3, 1, 0, zeroSerial⟩), false, 0, .waiting, true, some 200, none, 2000⟩
      (replied 1 1 false ([1, 3, 1, 0] ++ zeroSerial.toList)) ⟨0, 3, 1, 0, zeroSerial⟩)
    ∧ ((fun (s : State) (g : LegId) (x : Transaction) (f : ResponseBody) (id : Ident) => s.getsReply g x 1 f
      ∧ x.work = .item (.probe id) ∧ (s.leg g).state ≠ .probe) (flying .fault (.item (.probe ⟨0, 3, 1, 0,
      zeroSerial⟩))) 0 ⟨0, .item (.probe ⟨0, 3, 1, 0, zeroSerial⟩), false, 0, .waiting, true, some 200, none, 2000⟩
      (replied 1 1 false ([1, 3, 1, 0] ++ zeroSerial.toList)) ⟨0, 3, 1, 0, zeroSerial⟩)
    ∧ ((fun (s : State) (g : LegId) (x : Transaction) (f : ResponseBody) (id : Ident) => s.getsReply g x 3 f
      ∧ x.work = .item (.probe id) ∧ (s.leg g).state ≠ .probe) (flying .listen (.item (.probe ⟨0, 3, 1, 0,
      zeroSerial⟩))) 0 ⟨0, .item (.probe ⟨0, 3, 1, 0, zeroSerial⟩), false, 0, .waiting, true, some 200, none, 2000⟩
      (refused 1 2) ⟨0, 3, 1, 0, zeroSerial⟩) :=
  ⟨⟨by unfold State.getsReply; decide +kernel, by decide +kernel⟩,
   ⟨by unfold State.getsReply; decide +kernel, by decide +kernel⟩,
   ⟨by unfold State.getsReply; decide +kernel, by decide +kernel⟩,
   ⟨by unfold State.getsReply; decide +kernel, by decide +kernel⟩,
   ⟨by unfold State.getsReply; decide +kernel, by decide +kernel⟩,
   ⟨by unfold State.getsReply; decide +kernel, by decide +kernel⟩,
   ⟨by unfold State.getsReply; decide +kernel, by decide +kernel⟩,
   ⟨by unfold State.getsReply; decide +kernel, by decide +kernel⟩,
   by beta_reduce; decide +kernel,
   by beta_reduce; decide +kernel,
   ⟨by unfold State.getsReply; decide +kernel, by decide +kernel⟩,
   ⟨by unfold State.getsReply; decide +kernel, by decide +kernel⟩,
   ⟨by unfold State.getsReply; decide +kernel, by decide +kernel⟩⟩

theorem witness_ExchangeAckSetsFarTaps :
    ((fun (s : State) (g : LegId) (x : Transaction) (f : ResponseBody) (ix : WinIx) (q : TapRequest) => s.getsReply g
      x 1 f ∧ x.work = .item (.exchange ix q) ∧ s.hasIndex g ix) (flying .train (.item (.exchange 0 (.preset 7)))) 0
      ⟨0, .item (.exchange 0 (.preset 7)), false, 0, .waiting, true, some 200, none, 2000⟩ (replied 1 5 false [0, 0,
      0, 12, 24, 12]) 0 (.preset 7))
    ∧ ((fun (s : State) (g : LegId) (x : Transaction) (f : ResponseBody) (ix : WinIx) (q : TapRequest) (k : Search)
      (u : TapStatus) (n : Nat) => s.getsReply g x 1 f ∧ x.work = .item (.exchange ix q) ∧ s.hasIndex g ix ∧ x.live
      ∧ (s.leg g).state = .train ∧ (s.lane (s.winLane g ix)).search = some k ∧ k.waiting = some .status
      ∧ parseTapStatus ix f.data = some u ∧ (s.leg g).attempt = some n ∧ 1 ≤ n
      ∧ (s.leg g).standbyVerify = false) (searching (flying .train (.item (.exchange 0 (.preset 7)))) 1
      { record with waiting := some .status }) 0 ⟨0, .item (.exchange 0 (.preset 7)), false, 0, .waiting, true, some
      200, none, 2000⟩ (replied 1 5 false [0, 0, 0, 12, 24, 12]) 0 (.preset 7)
      { record with waiting := some .status } ⟨0, .updated, .updated, ⟨12, 24, 12⟩⟩ 1)
    ∧ ((fun (s : State) (g : LegId) (x : Transaction) (f : ResponseBody) (ix : WinIx) (q : TapRequest) (k : Search)
      (u : TapStatus) (n : Nat) => s.getsReply g x 1 f ∧ x.work = .item (.exchange ix q) ∧ s.hasIndex g ix ∧ x.live
      ∧ (s.leg g).state = .train ∧ (s.lane (s.winLane g ix)).search = some k ∧ k.waiting = some .status
      ∧ parseTapStatus ix f.data = some u ∧ (s.leg g).attempt = some n ∧ 1 ≤ n
      ∧ (s.leg g).standbyVerify = false) (searching (flying .train (.item (.exchange 0 (.preset 7)))) 4
      { record with waiting := some .status, request := .opening, best := 0 }) 0 ⟨0, .item (.exchange 0 (.preset 7)),
      false, 0, .waiting, true, some 200, none, 2000⟩ (replied 1 5 false [0, 0, 0, 12, 24, 12]) 0 (.preset 7)
      { record with waiting := some .status, request := .opening, best := 0 } ⟨0, .updated, .updated, ⟨12, 24, 12⟩⟩
      4)
    ∧ ((fun (s : State) (g : LegId) (x : Transaction) (f : ResponseBody) (ix : WinIx) (q : TapRequest) => s.getsReply
      g x 1 f ∧ x.work = .item (.exchange ix q) ∧ s.hasIndex g ix ∧ (x.live = false ∨ (s.lane (s.winLane g
      ix)).search.map Search.waiting ≠ some (some .status))) (flying .train (.item (.exchange 0 (.preset 7)))) 0 ⟨0,
      .item (.exchange 0 (.preset 7)), false, 0, .waiting, true, some 200, none, 2000⟩ (replied 1 5 false [0, 0, 0,
      12, 24, 12]) 0 (.preset 7))
    ∧ ((fun (s : State) (g : LegId) (x : Transaction) (f : ResponseBody) (ix : WinIx) (q : TapRequest) => s.getsReply
      g x 1 f ∧ x.work = .item (.exchange ix q) ∧ s.hasIndex g ix ∧ (x.live = false ∨ (s.lane (s.winLane g
      ix)).search.map Search.waiting ≠ some (some .status))) (flying .fault (.item (.exchange 0 (.preset 7)))) 0 ⟨0,
      .item (.exchange 0 (.preset 7)), false, 0, .waiting, true, some 200, none, 2000⟩ (replied 1 5 false [0, 0, 0,
      12, 24, 12]) 0 (.preset 7))
    ∧ ((fun (s : State) (g : LegId) (x : Transaction) (f : ResponseBody) (ix : WinIx) (q : TapRequest) (k : Search)
      (n : Nat) => s.getsReply g x 3 f ∧ x.work = .item (.exchange ix q) ∧ s.hasIndex g ix ∧ x.live
      ∧ (s.leg g).state = .train ∧ (s.lane (s.winLane g ix)).search = some k ∧ k.waiting = some .status
      ∧ (f.reason = 3 ∨ f.reason = 4) ∧ (s.leg g).attempt = some n ∧ 1 ≤ n
      ∧ (s.leg g).standbyVerify = false) (searching (flying .train (.item (.exchange 0 (.preset 7)))) 1
      { record with waiting := some .status }) 0 ⟨0, .item (.exchange 0 (.preset 7)), false, 0, .waiting, true, some
      200, none, 2000⟩ (refused 5 3) 0 (.preset 7) { record with waiting := some .status } 1)
    ∧ ((fun (s : State) (g : LegId) (x : Transaction) (f : ResponseBody) (ix : WinIx) (q : TapRequest) (k : Search)
      (n : Nat) => s.getsReply g x 3 f ∧ x.work = .item (.exchange ix q) ∧ s.hasIndex g ix ∧ x.live
      ∧ (s.leg g).state = .train ∧ (s.lane (s.winLane g ix)).search = some k ∧ k.waiting = some .status
      ∧ (f.reason = 3 ∨ f.reason = 4) ∧ (s.leg g).attempt = some n ∧ 1 ≤ n
      ∧ (s.leg g).standbyVerify = false) (searching (flying .train (.item (.exchange 0 (.preset 7)))) 1
      { record with waiting := some .status }) 0 ⟨0, .item (.exchange 0 (.preset 7)), false, 0, .waiting, true, some
      200, none, 2000⟩ (refused 5 4) 0 (.preset 7) { record with waiting := some .status } 1)
    ∧ ((fun (s : State) (g : LegId) (x : Transaction) (f : ResponseBody) (ix : WinIx) (q : TapRequest) (k : Search)
      (n : Nat) => s.getsReply g x 3 f ∧ x.work = .item (.exchange ix q) ∧ s.hasIndex g ix ∧ x.live
      ∧ (s.leg g).state = .train ∧ (s.lane (s.winLane g ix)).search = some k ∧ k.waiting = some .status
      ∧ f.reason = 2 ∧ (s.leg g).attempt = some n ∧ 1 ≤ n
      ∧ (s.leg g).standbyVerify = false) (searching (flying .train (.item (.exchange 0 (.preset 7)))) 4
      { record with waiting := some .status, request := .opening, best := 0 }) 0 ⟨0, .item (.exchange 0 (.preset 7)),
      false, 0, .waiting, true, some 200, none, 2000⟩ (refused 5 2) 0 (.preset 7)
      { record with waiting := some .status, request := .opening, best := 0 } 4)
    ∧ ((fun (s : State) (g : LegId) (x : Transaction) (ix : WinIx) (q : TapRequest) (k : Search) (n : Nat) => s.isHub
      ∧ s.tx = some x ∧ x.leg = g ∧ x.work = .item (.exchange ix q) ∧ s.hasIndex g ix ∧ x.live
      ∧ (s.leg g).state = .train ∧ (s.lane (s.winLane g ix)).search = some k ∧ k.waiting = some .status
      ∧ (s.leg g).attempt = some n ∧ 1 ≤ n
      ∧ (s.leg g).standbyVerify = false) (searching (flying .train (.item (.exchange 0 (.preset 7)))) 4
      { record with waiting := some .status }) 0 ⟨0, .item (.exchange 0 (.preset 7)), false, 0, .waiting, true, some
      200, none, 2000⟩ 0 (.preset 7) { record with waiting := some .status } 4) :=
  ⟨⟨by unfold State.getsReply; decide +kernel, by decide +kernel⟩,
   ⟨by unfold State.getsReply; decide +kernel, by decide +kernel⟩,
   ⟨by unfold State.getsReply; decide +kernel, by decide +kernel⟩,
   ⟨by unfold State.getsReply; decide +kernel, by decide +kernel⟩,
   ⟨by unfold State.getsReply; decide +kernel, by decide +kernel⟩,
   ⟨by unfold State.getsReply; decide +kernel, by decide +kernel⟩,
   ⟨by unfold State.getsReply; decide +kernel, by decide +kernel⟩,
   ⟨by unfold State.getsReply; decide +kernel, by decide +kernel⟩,
   by beta_reduce; decide +kernel⟩

theorem witness_DrainedItemsAreApplied :
    ((fun (s : State) (g : LegId) (x : Transaction) (f : ResponseBody) => s.getsReply g x 1 f ∧ x.work = .drain
      ∧ (f.item = 0 ∨ f.more = false)) (flying .up .drain) 0 ⟨0, .drain, false, 0, .waiting, true, some 200, none,
      2000⟩ (replied 1 0 true []))
    ∧ ((fun (s : State) (g : LegId) (x : Transaction) (f : ResponseBody) (q : TapRequest) (i : WinIx) => s.getsReply
      g x 1 f ∧ x.work = .drain ∧ f.item = 5 ∧ parseTapRequest f.data = some q ∧ natAt f.data 0 = i.val
      ∧ s.hasIndex g i ∧ (s.leg g).state = .train ∧ (s.lane (s.winLane g i)).taps.lawful) (flying .train .drain) 0
      ⟨0, .drain, false, 0, .waiting, true, some 200, none, 2000⟩ (replied 1 5 true [0, 2, 7, 0]) (.preset 7) 0)
    ∧ ((fun (s : State) (g : LegId) (x : Transaction) (f : ResponseBody) => s.getsReply g x 1 f ∧ x.work = .drain
      ∧ f.item = 9 ∧ (s.leg g).state.inService ∧ (s.leg g).retrains < 3) (flying .up .drain) 0 ⟨0, .drain, false, 0,
      .waiting, true, some 200, none, 2000⟩ (replied 1 9 true []))
    ∧ ((fun (s : State) (g : LegId) (x : Transaction) (f : ResponseBody) => s.getsReply g x 1 f ∧ x.work = .drain
      ∧ f.item = 10 ∧ f.data = [1] ∧ (s.leg g).state.inService) (flying .degraded .drain) 0 ⟨0, .drain, false, 0,
      .waiting, true, some 200, none, 2000⟩ (replied 1 10 true [1]))
    ∧ ((fun (s : State) (g : LegId) (x : Transaction) (f : ResponseBody) => s.getsReply g x 1 f ∧ x.work = .drain
      ∧ f.item = 5 ∧ ((s.leg g).state ≠ .train ∨ parseTapRequest f.data = none ∨ ∀ i : WinIx, natAt f.data 0 = i.val
      → s.hasIndex g i = false)) (rated (flying .up .drain)) 0 ⟨0, .drain, false, 0, .waiting, true, some 200, none,
      2000⟩ (replied 1 5 true [0, 2, 7, 0]))
    ∧ ((fun (s : State) (g : LegId) (x : Transaction) (f : ResponseBody) => s.getsReply g x 1 f ∧ x.work = .drain
      ∧ f.item = 5 ∧ ((s.leg g).state ≠ .train ∨ parseTapRequest f.data = none ∨ ∀ i : WinIx, natAt f.data 0 = i.val
      → s.hasIndex g i = false)) (rated (flying .train .drain)) 0 ⟨0, .drain, false, 0, .waiting, true, some 200,
      none, 2000⟩ (replied 1 5 true [1, 2, 7, 0]))
    ∧ ((fun (s : State) (g : LegId) (x : Transaction) (f : ResponseBody) => s.getsReply g x 1 f ∧ x.work = .drain
      ∧ f.item = 5 ∧ ((s.leg g).state ≠ .train ∨ parseTapRequest f.data = none ∨ ∀ i : WinIx, natAt f.data 0 = i.val
      → s.hasIndex g i = false)) (rated (flying .train .drain)) 0 ⟨0, .drain, false, 0, .waiting, true, some 200,
      none, 2000⟩ (replied 1 5 true [0, 4, 7, 0]))
    ∧ ((fun (s : State) (g : LegId) (x : Transaction) (f : ResponseBody) => s.getsReply g x 1 f ∧ x.work = .drain
      ∧ f.item = 9 ∧ (s.leg g).state.inService ∧ 3 ≤ (s.leg g).retrains) (retrained 3) 0 ⟨0, .drain, false, 0,
      .waiting, true, some 200, none, 2000⟩ (replied 1 9 true []))
    ∧ ((fun (s : State) (g : LegId) (x : Transaction) (f : ResponseBody) => s.getsReply g x 1 f ∧ x.work = .drain
      ∧ f.item = 9 ∧ (s.leg g).state.inService = false) (rated (flying .train .drain)) 0 ⟨0, .drain, false, 0,
      .waiting, true, some 200, none, 2000⟩ (replied 1 9 true []))
    ∧ ((fun (s : State) (g : LegId) (x : Transaction) (f : ResponseBody) (n : Nat) => s.getsReply g x 1 f
      ∧ x.work = .drain ∧ f.item = 7 ∧ n = natAt f.data 0 ∧ (s.leg g).state = .train ∧ (s.leg g).attempt = some n)
      (rated (flying .train .drain)) 0 ⟨0, .drain, false, 0, .waiting, true, some 200, none, 2000⟩ (replied 1 7 true
      [1]) 1)
    ∧ ((fun (s : State) (g : LegId) (x : Transaction) (f : ResponseBody) => s.getsReply g x 1 f ∧ x.work = .drain
      ∧ f.item = 7 ∧ ((s.leg g).state ≠ .train ∨ (s.leg g).attempt ≠ some (natAt f.data 0))) (rated (flying .train
      .drain)) 0 ⟨0, .drain, false, 0, .waiting, true, some 200, none, 2000⟩ (replied 1 7 true [2]))
    ∧ ((fun (s : State) (g : LegId) (x : Transaction) (f : ResponseBody) => s.getsReply g x 1 f ∧ x.work = .drain
      ∧ f.item = 7 ∧ ((s.leg g).state ≠ .train ∨ (s.leg g).attempt ≠ some (natAt f.data 0))) (rated (flying .up
      .drain)) 0 ⟨0, .drain, false, 0, .waiting, true, some 200, none, 2000⟩ (replied 1 7 true [1]))
    ∧ ((fun (s : State) (g : LegId) (x : Transaction) (f : ResponseBody) (n : Nat) (rt : Rate) => s.getsReply g x 1 f
      ∧ x.work = .drain ∧ f.item = 8 ∧ n = natAt f.data 0 ∧ natAt f.data 1 ≤ 1 ∧ (s.leg g).state = .verify
      ∧ (s.leg g).attempt = some n ∧ (s.leg g).negRate = some rt) (rated (flying .verify .drain)) 0 ⟨0, .drain,
      false, 0, .waiting, true, some 200, none, 2000⟩ (replied 1 8 true [1, 0, 255]) 1 .m)
    ∧ ((fun (s : State) (g : LegId) (x : Transaction) (f : ResponseBody) (n : Nat) (rt : Rate) => s.getsReply g x 1 f
      ∧ x.work = .drain ∧ f.item = 8 ∧ n = natAt f.data 0 ∧ natAt f.data 1 ≤ 1 ∧ (s.leg g).state = .verify
      ∧ (s.leg g).attempt = some n ∧ (s.leg g).negRate = some rt) (rated (flying .verify .drain)) 0 ⟨0, .drain,
      false, 0, .waiting, true, some 200, none, 2000⟩ (replied 1 8 true [1, 1, 0]) 1 .m)
    ∧ ((fun (s : State) (g : LegId) (x : Transaction) (f : ResponseBody) => s.getsReply g x 1 f ∧ x.work = .drain
      ∧ f.item = 8 ∧ ((s.leg g).state ≠ .verify ∨ (s.leg g).attempt ≠ some (natAt f.data 0))) (rated (flying .verify
      .drain)) 0 ⟨0, .drain, false, 0, .waiting, true, some 200, none, 2000⟩ (replied 1 8 true [2, 0, 0]))
    ∧ ((fun (s : State) (g : LegId) (x : Transaction) (f : ResponseBody) => s.getsReply g x 1 f ∧ x.work = .drain
      ∧ f.item = 8 ∧ ((s.leg g).state ≠ .verify ∨ (s.leg g).attempt ≠ some (natAt f.data 0))) (rated (flying .up
      .drain)) 0 ⟨0, .drain, false, 0, .waiting, true, some 200, none, 2000⟩ (replied 1 8 true [1, 0, 0]))
    ∧ ((fun (s : State) (g : LegId) (x : Transaction) (f : ResponseBody) => s.getsReply g x 1 f ∧ x.work = .drain
      ∧ f.item = 10 ∧ f.data = [2] ∧ ((s.leg g).state.inService ∨ (s.leg g).state = .standby ∨ (s.leg g).state =
      .listen)) (rated (flying .up .drain)) 0 ⟨0, .drain, false, 0, .waiting, true, some 200, none, 2000⟩ (replied 1
      10 true [2]))
    ∧ ((fun (s : State) (g : LegId) (x : Transaction) (f : ResponseBody) => s.getsReply g x 1 f ∧ x.work = .drain
      ∧ f.item = 10 ∧ f.data = [2] ∧ ((s.leg g).state.inService ∨ (s.leg g).state = .standby ∨ (s.leg g).state =
      .listen)) (rated (flying .standby .drain)) 0 ⟨0, .drain, false, 0, .waiting, true, some 200, none, 2000⟩
      (replied 1 10 true [2]))
    ∧ ((fun (s : State) (g : LegId) (x : Transaction) (f : ResponseBody) => s.getsReply g x 1 f ∧ x.work = .drain
      ∧ f.item = 10 ∧ f.data = [2] ∧ ((s.leg g).state.inService ∨ (s.leg g).state = .standby ∨ (s.leg g).state =
      .listen)) (rated (flying .listen .drain)) 0 ⟨0, .drain, false, 0, .waiting, true, some 200, none, 2000⟩
      (replied 1 10 true [2]))
    ∧ ((fun (s : State) (g : LegId) (x : Transaction) (f : ResponseBody) => s.getsReply g x 1 f ∧ x.work = .drain
      ∧ f.item = 10 ∧ f.data = [0] ∧ (s.leg g).state = .standby) (rated (flying .standby .drain)) 0 ⟨0, .drain,
      false, 0, .waiting, true, some 200, none, 2000⟩ (replied 1 10 true [0]))
    ∧ ((fun (s : State) (g : LegId) (x : Transaction) (f : ResponseBody) => s.getsReply g x 1 f ∧ x.work = .drain
      ∧ f.item = 10 ∧ f.data = [0] ∧ (s.leg g).state = .sleep) (rated (flying .sleep .drain)) 0 ⟨0, .drain, false, 0,
      .waiting, true, some 200, none, 2000⟩ (replied 1 10 true [0]))
    ∧ ((fun (s : State) (g : LegId) (x : Transaction) (f : ResponseBody) => s.getsReply g x 1 f ∧ x.work = .drain
      ∧ f.item = 10 ∧ f.data = [0] ∧ (s.leg g).state = .sleep) (identified (flying .sleep .drain)) 0 ⟨0, .drain,
      false, 0, .waiting, true, some 200, none, 2000⟩ (replied 1 10 true [0]))
    ∧ ((fun (s : State) (g : LegId) (x : Transaction) (f : ResponseBody) (code : Byte) => s.getsReply g x 1 f
      ∧ x.work = .drain ∧ f.item = 10 ∧ f.data = [code] ∧ (s.leg g).state ≠ .fault ∧ ((code = 0
      ∧ (s.leg g).state ≠ .standby ∧ (s.leg g).state ≠ .sleep) ∨ (code = 1 ∧ (s.leg g).state.inService = false)
      ∨ (code = 2 ∧ (s.leg g).state.inService = false ∧ (s.leg g).state ≠ .standby ∧ (s.leg g).state ≠ .listen) ∨ 2 <
      code.toNat)) (rated (flying .up .drain)) 0 ⟨0, .drain, false, 0, .waiting, true, some 200, none, 2000⟩ (replied
      1 10 true [0]) 0)
    ∧ ((fun (s : State) (g : LegId) (x : Transaction) (f : ResponseBody) (code : Byte) => s.getsReply g x 1 f
      ∧ x.work = .drain ∧ f.item = 10 ∧ f.data = [code] ∧ (s.leg g).state ≠ .fault ∧ ((code = 0
      ∧ (s.leg g).state ≠ .standby ∧ (s.leg g).state ≠ .sleep) ∨ (code = 1 ∧ (s.leg g).state.inService = false)
      ∨ (code = 2 ∧ (s.leg g).state.inService = false ∧ (s.leg g).state ≠ .standby ∧ (s.leg g).state ≠ .listen) ∨ 2 <
      code.toNat)) (rated (flying .listen .drain)) 0 ⟨0, .drain, false, 0, .waiting, true, some 200, none, 2000⟩
      (replied 1 10 true [1]) 1)
    ∧ ((fun (s : State) (g : LegId) (x : Transaction) (f : ResponseBody) (code : Byte) => s.getsReply g x 1 f
      ∧ x.work = .drain ∧ f.item = 10 ∧ f.data = [code] ∧ (s.leg g).state ≠ .fault ∧ ((code = 0
      ∧ (s.leg g).state ≠ .standby ∧ (s.leg g).state ≠ .sleep) ∨ (code = 1 ∧ (s.leg g).state.inService = false)
      ∨ (code = 2 ∧ (s.leg g).state.inService = false ∧ (s.leg g).state ≠ .standby ∧ (s.leg g).state ≠ .listen) ∨ 2 <
      code.toNat)) (rated (flying .sleep .drain)) 0 ⟨0, .drain, false, 0, .waiting, true, some 200, none, 2000⟩
      (replied 1 10 true [2]) 2)
    ∧ ((fun (s : State) (g : LegId) (x : Transaction) (f : ResponseBody) (code : Byte) => s.getsReply g x 1 f
      ∧ x.work = .drain ∧ f.item = 10 ∧ f.data = [code] ∧ (s.leg g).state ≠ .fault ∧ ((code = 0
      ∧ (s.leg g).state ≠ .standby ∧ (s.leg g).state ≠ .sleep) ∨ (code = 1 ∧ (s.leg g).state.inService = false)
      ∨ (code = 2 ∧ (s.leg g).state.inService = false ∧ (s.leg g).state ≠ .standby ∧ (s.leg g).state ≠ .listen) ∨ 2 <
      code.toNat)) (rated (flying .up .drain)) 0 ⟨0, .drain, false, 0, .waiting, true, some 200, none, 2000⟩ (replied
      1 10 true [3]) 3)
    ∧ ((fun (s : State) (g : LegId) (x : Transaction) (f : ResponseBody) => s.getsReply g x 1 f ∧ x.work = .drain ∧
      (s.leg g).state = .fault) (rated (flying .fault .drain)) 0 ⟨0, .drain, false, 0, .waiting, true, some 200,
      none, 2000⟩ (replied 1 9 true []))
    ∧ ((fun (s : State) (g : LegId) (x : Transaction) (f : ResponseBody) => s.getsReply g x 1 f ∧ x.work = .drain ∧
      (s.leg g).state = .fault) (rated (flying .fault .drain)) 0 ⟨0, .drain, false, 0, .waiting, true, some 200,
      none, 2000⟩ (replied 1 10 true [1])) :=
  ⟨⟨by unfold State.getsReply; decide +kernel, by decide +kernel⟩,
   ⟨by unfold State.getsReply; decide +kernel, by decide +kernel⟩,
   ⟨by unfold State.getsReply; decide +kernel, by decide +kernel⟩,
   ⟨by unfold State.getsReply; decide +kernel, by decide +kernel⟩,
   ⟨by unfold State.getsReply; decide +kernel, by decide +kernel⟩,
   ⟨by unfold State.getsReply; decide +kernel, by decide +kernel⟩,
   ⟨by unfold State.getsReply; decide +kernel, by decide +kernel⟩,
   ⟨by unfold State.getsReply; decide +kernel, by decide +kernel⟩,
   ⟨by unfold State.getsReply; decide +kernel, by decide +kernel⟩,
   ⟨by unfold State.getsReply; decide +kernel, by decide +kernel⟩,
   ⟨by unfold State.getsReply; decide +kernel, by decide +kernel⟩,
   ⟨by unfold State.getsReply; decide +kernel, by decide +kernel⟩,
   ⟨by unfold State.getsReply; decide +kernel, by decide +kernel⟩,
   ⟨by unfold State.getsReply; decide +kernel, by decide +kernel⟩,
   ⟨by unfold State.getsReply; decide +kernel, by decide +kernel⟩,
   ⟨by unfold State.getsReply; decide +kernel, by decide +kernel⟩,
   ⟨by unfold State.getsReply; decide +kernel, by decide +kernel⟩,
   ⟨by unfold State.getsReply; decide +kernel, by decide +kernel⟩,
   ⟨by unfold State.getsReply; decide +kernel, by decide +kernel⟩,
   ⟨by unfold State.getsReply; decide +kernel, by decide +kernel⟩,
   ⟨by unfold State.getsReply; decide +kernel, by decide +kernel⟩,
   ⟨by unfold State.getsReply; decide +kernel, by decide +kernel⟩,
   ⟨by unfold State.getsReply; decide +kernel, by decide +kernel⟩,
   ⟨by unfold State.getsReply; decide +kernel, by decide +kernel⟩,
   ⟨by unfold State.getsReply; decide +kernel, by decide +kernel⟩,
   ⟨by unfold State.getsReply; decide +kernel, by decide +kernel⟩,
   ⟨by unfold State.getsReply; decide +kernel, by decide +kernel⟩,
   ⟨by unfold State.getsReply; decide +kernel, by decide +kernel⟩⟩

theorem witness_PhaseRefusalFaults :
    ((fun (s : State) (g : LegId) (x : Transaction) (f : ResponseBody) (st : PhaseState) (a : Nat) (r : Rate) =>
      s.getsReply g x 3 f ∧ x.work = .item (.phase st a r) ∧ st ≠ .listen ∧ ((s.leg g).state ≠ .off
      ∧ (s.leg g).state ≠ .listen ∧ (s.leg g).state ≠ .fault)) (flying .train (.item (.phase .train 1 .l))) 0 ⟨0,
      .item (.phase .train 1 .l), false, 0, .waiting, true, some 200, none, 2000⟩ (refused 4 4) .train 1 .l)
    ∧ ((fun (s : State) (g : LegId) (x : Transaction) (f : ResponseBody) (st : PhaseState) (a : Nat) (r : Rate) =>
      s.getsReply g x 3 f ∧ x.work = .item (.phase st a r) ∧ (st = .listen ∨ (s.leg g).state = .listen)) (flying
      .listen (.item (.phase .listen 0 .l))) 0 ⟨0, .item (.phase .listen 0 .l), false, 0, .waiting, true, some 200,
      none, 2000⟩ (refused 4 1) .listen 0 .l)
    ∧ ((fun (s : State) (g : LegId) (x : Transaction) (f : ResponseBody) => s.getsReply g x 3 f
      ∧ (x.work = .item .keepalive ∨ x.work = .drain)) (flying .up (.item .keepalive)) 0 ⟨0, .item .keepalive, false,
      0, .waiting, true, some 200, none, 2000⟩ (refused 2 2))
    ∧ ((fun (s : State) (g : LegId) (x : Transaction) (f : ResponseBody) => s.getsReply g x 3 f
      ∧ (x.work = .item .keepalive ∨ x.work = .drain)) (flying .fault .drain) 0 ⟨0, .drain, false, 0, .waiting, true,
      some 200, none, 2000⟩ (refused 0 4))
    ∧ ((fun (s : State) (g : LegId) (x : Transaction) (f : ResponseBody) (u : TapStatus) => s.getsReply g x 3 f ∧
      x.work = .item (.storeStatus u)) (flying .train (.item (.storeStatus ⟨0, .updated, .hold, ⟨0, 47, 1⟩⟩))) 0 ⟨0,
      .item (.storeStatus ⟨0, .updated, .hold, ⟨0, 47, 1⟩⟩), false, 0, .waiting, true, some 200, none, 2000⟩ (refused
      6 3) ⟨0, .updated, .hold, ⟨0, 47, 1⟩⟩) :=
  ⟨⟨by unfold State.getsReply; decide +kernel, by decide +kernel⟩,
   ⟨by unfold State.getsReply; decide +kernel, by decide +kernel⟩,
   ⟨by unfold State.getsReply; decide +kernel, by decide +kernel⟩,
   ⟨by unfold State.getsReply; decide +kernel, by decide +kernel⟩,
   ⟨by unfold State.getsReply; decide +kernel, by decide +kernel⟩⟩

theorem witness_ExpiryEndsTheTransaction :
    ((fun (s : State) (x : Transaction) => s.isHub ∧ s.tx = some x ∧ s.besideSearch x ∧ (¬(x.work.isProbe ∧ (s.leg
      x.leg).state = .probe))) (flying .up (.item .keepalive)) ⟨0, .item .keepalive, false, 0, .waiting, true, some
      200, none, 2000⟩)
    ∧ ((fun (s : State) (x : Transaction) => s.isHub ∧ s.tx = some x ∧ s.besideSearch x ∧ (¬(x.work.isProbe ∧ (s.leg
      x.leg).state = .probe))) (flying .listen (.item (.probe ⟨0, 3, 1, 0, zeroSerial⟩))) ⟨0, .item (.probe ⟨0, 3, 1,
      0, zeroSerial⟩), false, 0, .waiting, true, some 200, none, 2000⟩)
    ∧ ((fun (s : State) (x : Transaction) => s.isHub ∧ s.tx = some x ∧ s.besideSearch x ∧ (¬(x.work.isProbe ∧ (s.leg
      x.leg).state = .probe))) (flying .up (.item (.phase .run 0 .l))) ⟨0, .item (.phase .run 0 .l), false, 0,
      .waiting, true, some 200, none, 2000⟩)
    ∧ ((fun (s : State) (x : Transaction) => s.isHub ∧ s.tx = some x ∧ s.besideSearch x ∧ (¬(x.work.isProbe ∧ (s.leg
      x.leg).state = .probe))) (flying .train (.item (.storeStatus ⟨0, .updated, .hold, ⟨0, 47, 1⟩⟩))) ⟨0, .item
      (.storeStatus ⟨0, .updated, .hold, ⟨0, 47, 1⟩⟩), false, 0, .waiting, true, some 200, none, 2000⟩)
    ∧ ((fun (s : State) (x : Transaction) => s.isHub ∧ s.tx = some x ∧ s.besideSearch x ∧ (¬(x.work.isProbe ∧ (s.leg
      x.leg).state = .probe))) (flying .train (.item (.exchange 0 (.preset 7)))) ⟨0, .item (.exchange 0 (.preset 7)),
      false, 0, .waiting, true, some 200, none, 2000⟩)
    ∧ ((fun (s : State) (x : Transaction) => s.isHub ∧ s.tx = some x ∧ s.besideSearch x ∧ (¬(x.work.isProbe ∧ (s.leg
      x.leg).state = .probe))) (flying .up .drain) ⟨0, .drain, false, 0, .waiting, true, some 200, none, 2000⟩)
    ∧ ((fun (s : State) (x : Transaction) => s.isHub ∧ s.tx = some x ∧ x.work = .drain
      ∧ (s.leg x.leg).beatTaken = false) ((flying .up .drain).modLeg 0 (fun l =>
      { l with beatTaken := false, beat := 15 })) ⟨0, .drain, false, 0, .waiting, true, some 200, none, 2000⟩)
    ∧ ((fun (s : State) => s.tx = none) hub) :=
  ⟨by beta_reduce; decide +kernel,
   by beta_reduce; decide +kernel,
   by beta_reduce; decide +kernel,
   by beta_reduce; decide +kernel,
   by beta_reduce; decide +kernel,
   by beta_reduce; decide +kernel,
   by beta_reduce; decide +kernel,
   by beta_reduce; decide +kernel⟩

theorem witness_BeaconSetsTheLevel :
    ((fun (s : State) (g : LegId) (level : Fin 4) (crc : Byte) => s.watchesBeacon g
      ∧ crc = crc8 [byteOf (0x20 + level.val)]) hub 3 3 (crc8 [0x23]))
    ∧ ((fun (s : State) (g : LegId) => s.watchesBeacon g) hub 0)
    ∧ ((fun (s : State) (g : LegId) (level : Fin 4) (crc : Byte) => (s.watchesBeacon g = false
      ∨ crc ≠ crc8 [byteOf (0x20 + level.val)])) endPart 0 0 (crc8 [0x20]))
    ∧ ((fun (s : State) (g : LegId) (level : Fin 4) (crc : Byte) => (s.watchesBeacon g = false
      ∨ crc ≠ crc8 [byteOf (0x20 + level.val)])) hub 0 0 (crc8 [0x21]))
    ∧ ((fun (s : State) (g : LegId) => s.watchesBeacon g = false) endPart 0) :=
  ⟨by beta_reduce; decide +kernel,
   by beta_reduce; decide +kernel,
   by beta_reduce; decide +kernel,
   by beta_reduce; decide +kernel,
   by beta_reduce; decide +kernel⟩

theorem witness_CommandAtHubFaults :
    ((fun (s : State) (g : LegId) (kind : BitVec 3) (item : Byte) (f : CommandBody) => s.isHub
      ∧ commandCrcOk kind item f ∧ ((s.leg g).state ≠ .off
      ∧ (s.leg g).state ≠ .fault)) (one .listen) 0 1 1 (cmd 1 1 0 []))
      ∧ ((fun (s : State) (g : LegId) (kind : BitVec 3) (item : Byte) (f : CommandBody) => commandCrcOk kind item f = false) hub 0 1 1
      { cmd 1 1 0 [] with crc := (cmd 1 1 0 []).crc + 1 }) :=
  ⟨by beta_reduce; decide +kernel,
   by beta_reduce; decide +kernel⟩

theorem witness_EndAnswersProbe :
    ((fun (s : State) (f : CommandBody) => s.takesCommand 1 1 f ∧ f.data.length = 12
      ∧ (s.leg 0).state = .listen) (atEnd .listen) (cmd 1 1 0 (List.replicate 12 1)))
    ∧ ((fun (s : State) (f : CommandBody) => s.takesCommand 1 1 f ∧ f.data.length = 12
      ∧ (s.leg 0).state ≠ .listen) (atEnd .fault) (cmd 1 1 0 (List.replicate 12 1)))
    ∧ ((fun (s : State) (f : CommandBody) => s.isHub = false
      ∧ (s.leg 0).state = .off) endPart (cmd 1 1 0 (List.replicate 12 1))) :=
  ⟨⟨fresh_command (by decide +kernel) (by decide +kernel), by decide +kernel⟩,
   ⟨fresh_command (by decide +kernel) (by decide +kernel), by decide +kernel⟩,
   by beta_reduce; decide +kernel⟩

theorem witness_EndAnswersFetch :
    ((fun (s : State) (f : CommandBody) => s.takesCommand 2 1 f ∧ f.data = []) (atEnd .listen) (cmd 2 1 0 []))
    ∧ ((fun (s : State) (f : CommandBody) => s.takesCommand 2 2 f ∧ f.data = []) (atEnd .fault) (cmd 2 2 0 []))
    ∧ ((fun (s : State) (f : CommandBody) => s.takesCommand 2 3 f ∧ f.data = []) (atEnd .up) (cmd 2 3 7 [])) :=
  ⟨⟨fresh_command (by decide +kernel) (by decide +kernel), by decide +kernel⟩,
   ⟨fresh_command (by decide +kernel) (by decide +kernel), by decide +kernel⟩,
   ⟨fresh_command (by decide +kernel) (by decide +kernel), by decide +kernel⟩⟩

theorem witness_EndFollowsPhase :
    ((fun (s : State) (f : CommandBody) (st : PhaseState) (a : Byte) (r : Rate) => s.takesCommand 3 4 f
      ∧ ((s.leg 0).state ≠ .listen ∧ (s.leg 0).state ≠ .fault) ∧ st ≠ .listen
      ∧ f.data = [byteOf st.code, a, byteOf r.code] ∧ ((st = .train ∨ st = .adapt ∨ st = .verify) → 1 ≤ a.toNat
      ∧ a.toNat ≤ 4) ∧ r.code ≤ (s.leg 0).rateCap.code) (atEnd .probe) (cmd 3 4 0 [byteOf PhaseState.train.code, 1,
      0]) .train 1 .l)
    ∧ ((fun (s : State) (f : CommandBody) (st : PhaseState) (a : Byte) (r : Rate) => s.takesCommand 3 4 f
      ∧ ((s.leg 0).state ≠ .listen ∧ (s.leg 0).state ≠ .fault) ∧ st ≠ .listen
      ∧ f.data = [byteOf st.code, a, byteOf r.code] ∧ ((st = .train ∨ st = .adapt ∨ st = .verify) → 1 ≤ a.toNat
      ∧ a.toNat ≤ 4) ∧ r.code ≤ (s.leg 0).rateCap.code) (atEnd .up) (cmd 3 4 0 [byteOf PhaseState.sleep.code, 0, 2])
      .sleep 0 .h)
    ∧ ((fun (s : State) (f : CommandBody) => s.takesCommand 3 4 f
      ∧ ((s.leg 0).state ≠ .listen ∧ (s.leg 0).state ≠ .fault) ∧ f.data.length = 3
      ∧ natAt f.data 0 = 1) (atEnd .probe) (cmd 3 4 0 [1, 0, 0]))
    ∧ ((fun (s : State) (f : CommandBody) => s.takesCommand 3 4 f ∧ f.data.length = 3 ∧ ((s.leg 0).state = .listen
      ∨ (s.leg 0).state = .fault)) (atEnd .fault) (cmd 3 4 0 [1, 0, 0]))
    ∧ ((fun (s : State) (f : CommandBody) => s.takesCommand 3 4 f ∧ f.data.length = 3
      ∧ ((s.leg 0).state ≠ .listen ∧ (s.leg 0).state ≠ .fault) ∧ natAt f.data 0 ≠ 1
      ∧ (PhaseState.ofCode (natAt f.data 0) = none ∨ 2 < natAt f.data 2 ∨ (s.leg 0).rateCap.code < natAt f.data 2
      ∨ (natAt f.data 0 ∈ [3, 4, 5] ∧ (natAt f.data 1 < 1 ∨ 4 < natAt f.data 1)))) (atEnd .up) (cmd 3 4 0 [2, 1, 0]))
    ∧ ((fun (s : State) (f : CommandBody) => s.takesCommand 3 4 f ∧ f.data.length = 3
      ∧ ((s.leg 0).state ≠ .listen ∧ (s.leg 0).state ≠ .fault) ∧ natAt f.data 0 ≠ 1
      ∧ (PhaseState.ofCode (natAt f.data 0) = none ∨ 2 < natAt f.data 2 ∨ (s.leg 0).rateCap.code < natAt f.data 2
      ∨ (natAt f.data 0 ∈ [3, 4, 5] ∧ (natAt f.data 1 < 1 ∨ 4 < natAt f.data 1)))) (atEnd .up) (cmd 3 4 0 [3, 1, 3]))
    ∧ ((fun (s : State) (f : CommandBody) => s.takesCommand 3 4 f ∧ f.data.length = 3
      ∧ ((s.leg 0).state ≠ .listen ∧ (s.leg 0).state ≠ .fault) ∧ natAt f.data 0 ≠ 1
      ∧ (PhaseState.ofCode (natAt f.data 0) = none ∨ 2 < natAt f.data 2 ∨ (s.leg 0).rateCap.code < natAt f.data 2
      ∨ (natAt f.data 0 ∈ [3, 4, 5] ∧ (natAt f.data 1 < 1 ∨ 4 < natAt f.data 1)))) (atEnd .up) (cmd 3 4 0 [3, 0, 0]))
    ∧ ((fun (s : State) (f : CommandBody) => s.takesCommand 3 4 f ∧ f.data.length = 3
      ∧ ((s.leg 0).state ≠ .listen ∧ (s.leg 0).state ≠ .fault) ∧ natAt f.data 0 ≠ 1
      ∧ (PhaseState.ofCode (natAt f.data 0) = none ∨ 2 < natAt f.data 2 ∨ (s.leg 0).rateCap.code < natAt f.data 2
      ∨ (natAt f.data 0 ∈ [3, 4, 5] ∧ (natAt f.data 1 < 1 ∨ 4 < natAt f.data 1)))) (atEnd .up) (cmd 3 4 0 [3, 5, 0]))
    ∧ ((fun (s : State) (f : CommandBody) => s.takesCommand 3 4 f ∧ f.data.length = 3
      ∧ ((s.leg 0).state ≠ .listen ∧ (s.leg 0).state ≠ .fault) ∧ natAt f.data 0 ≠ 1
      ∧ (PhaseState.ofCode (natAt f.data 0) = none ∨ 2 < natAt f.data 2 ∨ (s.leg 0).rateCap.code < natAt f.data 2
      ∨ (natAt f.data 0 ∈ [3, 4, 5] ∧ (natAt f.data 1 < 1 ∨ 4 < natAt f.data 1)))) (atEnd .up) (cmd 3 4 0 [4, 0, 0]))
    ∧ ((fun (s : State) (f : CommandBody) => s.takesCommand 3 4 f ∧ f.data.length = 3
      ∧ ((s.leg 0).state ≠ .listen ∧ (s.leg 0).state ≠ .fault) ∧ natAt f.data 0 ≠ 1
      ∧ (PhaseState.ofCode (natAt f.data 0) = none ∨ 2 < natAt f.data 2 ∨ (s.leg 0).rateCap.code < natAt f.data 2
      ∨ (natAt f.data 0 ∈ [3, 4, 5] ∧ (natAt f.data 1 < 1 ∨ 4 < natAt f.data 1)))) (atEnd .up) (cmd 3 4 0 [5, 5, 0]))
    ∧ ((fun (s : State) (f : CommandBody) (a : Byte) (r : Rate) (v : Vector AdaptLane 8) => s.takesCommand 3 4 f
      ∧ (s.leg 0).state = .adapt ∧ (s.leg 0).adapt = some v ∧ (∀ i : WinIx, v[i].Ok) ∧ f.data = [5, a, byteOf r.code]
      ∧ 1 ≤ a.toNat ∧ a.toNat ≤ 4 ∧ r.code ≤ (s.leg 0).rateCap.code) (adapting (atEnd .adapt) 2 (Vector.replicate 8
      { tally with measured := [0, 0] })) (cmd 3 4 0 [5, 2, byteOf Rate.l.code]) 2 .l (Vector.replicate 8
      { tally with measured := [0, 0] })) :=
  ⟨⟨fresh_command (by decide +kernel) (by decide +kernel), by decide +kernel⟩,
   ⟨fresh_command (by decide +kernel) (by decide +kernel), by decide +kernel⟩,
   ⟨fresh_command (by decide +kernel) (by decide +kernel), by decide +kernel⟩,
   ⟨fresh_command (by decide +kernel) (by decide +kernel), by decide +kernel⟩,
   ⟨fresh_command (by decide +kernel) (by decide +kernel), by decide +kernel⟩,
   ⟨fresh_command (by decide +kernel) (by decide +kernel), by decide +kernel⟩,
   ⟨fresh_command (by decide +kernel) (by decide +kernel), by decide +kernel⟩,
   ⟨fresh_command (by decide +kernel) (by decide +kernel), by decide +kernel⟩,
   ⟨fresh_command (by decide +kernel) (by decide +kernel), by decide +kernel⟩,
   ⟨fresh_command (by decide +kernel) (by decide +kernel), by decide +kernel⟩,
   ⟨fresh_command (by decide +kernel) (by decide +kernel), by unfold AdaptLane.Ok; decide +kernel⟩⟩

theorem witness_EndTakesTapStatus :
    ((fun (s : State) (f : CommandBody) (p : TapStat) (q : TapStat) (u : Taps) => s.takesCommand 3 6 f
      ∧ ((s.leg 0).state ≠ .listen ∧ (s.leg 0).state ≠ .fault) ∧ s.hasIndex 0 f.lane ∧ u.lawful ∧ f.data = [byteOf
      f.lane.val, byteOf p.code, byteOf q.code] ++ u.bytes) (atEnd .train) (cmd 3 6 0 [0, 5, 0, 12, 24, 12]) .pinned
      .updated ⟨12, 24, 12⟩)
    ∧ ((fun (s : State) (f : CommandBody) => s.takesCommand 3 6 f ∧ f.data.length = 6
      ∧ ((s.leg 0).state ≠ .listen ∧ (s.leg 0).state ≠ .fault)
      ∧ s.hasIndex 0 f.lane = false) (atEnd .train) (cmd 3 6 1 [1, 0, 0, 0, 48, 0]))
    ∧ ((fun (s : State) (f : CommandBody) => s.takesCommand 3 6 f ∧ f.data.length = 6
      ∧ ((s.leg 0).state ≠ .listen ∧ (s.leg 0).state ≠ .fault) ∧ s.hasIndex 0 f.lane ∧ (natAt f.data 0 ≠ f.lane.val
      ∨ 5 < natAt f.data 1 ∨ 5 < natAt f.data 2 ∨ 12 < natAt f.data 3 ∨ 18 < natAt f.data 5
      ∨ natAt f.data 4 ≠ 48 - natAt f.data 3 - natAt f.data 5
      ∨ natAt f.data 4 < 24)) (atEnd .train) (cmd 3 6 0 [1, 0, 0, 0, 48, 0]))
    ∧ ((fun (s : State) (f : CommandBody) => s.takesCommand 3 6 f ∧ f.data.length = 6
      ∧ ((s.leg 0).state ≠ .listen ∧ (s.leg 0).state ≠ .fault) ∧ s.hasIndex 0 f.lane ∧ (natAt f.data 0 ≠ f.lane.val
      ∨ 5 < natAt f.data 1 ∨ 5 < natAt f.data 2 ∨ 12 < natAt f.data 3 ∨ 18 < natAt f.data 5
      ∨ natAt f.data 4 ≠ 48 - natAt f.data 3 - natAt f.data 5
      ∨ natAt f.data 4 < 24)) (atEnd .train) (cmd 3 6 0 [0, 6, 0, 0, 48, 0]))
    ∧ ((fun (s : State) (f : CommandBody) => s.takesCommand 3 6 f ∧ f.data.length = 6
      ∧ ((s.leg 0).state ≠ .listen ∧ (s.leg 0).state ≠ .fault) ∧ s.hasIndex 0 f.lane ∧ (natAt f.data 0 ≠ f.lane.val
      ∨ 5 < natAt f.data 1 ∨ 5 < natAt f.data 2 ∨ 12 < natAt f.data 3 ∨ 18 < natAt f.data 5
      ∨ natAt f.data 4 ≠ 48 - natAt f.data 3 - natAt f.data 5
      ∨ natAt f.data 4 < 24)) (atEnd .train) (cmd 3 6 0 [0, 0, 6, 0, 48, 0]))
    ∧ ((fun (s : State) (f : CommandBody) => s.takesCommand 3 6 f ∧ f.data.length = 6
      ∧ ((s.leg 0).state ≠ .listen ∧ (s.leg 0).state ≠ .fault) ∧ s.hasIndex 0 f.lane ∧ (natAt f.data 0 ≠ f.lane.val
      ∨ 5 < natAt f.data 1 ∨ 5 < natAt f.data 2 ∨ 12 < natAt f.data 3 ∨ 18 < natAt f.data 5
      ∨ natAt f.data 4 ≠ 48 - natAt f.data 3 - natAt f.data 5
      ∨ natAt f.data 4 < 24)) (atEnd .train) (cmd 3 6 0 [0, 0, 0, 13, 24, 11]))
    ∧ ((fun (s : State) (f : CommandBody) => s.takesCommand 3 6 f ∧ f.data.length = 6
      ∧ ((s.leg 0).state ≠ .listen ∧ (s.leg 0).state ≠ .fault) ∧ s.hasIndex 0 f.lane ∧ (natAt f.data 0 ≠ f.lane.val
      ∨ 5 < natAt f.data 1 ∨ 5 < natAt f.data 2 ∨ 12 < natAt f.data 3 ∨ 18 < natAt f.data 5
      ∨ natAt f.data 4 ≠ 48 - natAt f.data 3 - natAt f.data 5
      ∨ natAt f.data 4 < 24)) (atEnd .train) (cmd 3 6 0 [0, 0, 0, 5, 24, 19]))
    ∧ ((fun (s : State) (f : CommandBody) => s.takesCommand 3 6 f ∧ f.data.length = 6
      ∧ ((s.leg 0).state ≠ .listen ∧ (s.leg 0).state ≠ .fault) ∧ s.hasIndex 0 f.lane ∧ (natAt f.data 0 ≠ f.lane.val
      ∨ 5 < natAt f.data 1 ∨ 5 < natAt f.data 2 ∨ 12 < natAt f.data 3 ∨ 18 < natAt f.data 5
      ∨ natAt f.data 4 ≠ 48 - natAt f.data 3 - natAt f.data 5
      ∨ natAt f.data 4 < 24)) (atEnd .train) (cmd 3 6 0 [0, 0, 0, 12, 24, 11]))
    ∧ ((fun (s : State) (f : CommandBody) => s.takesCommand 3 6 f ∧ f.data.length = 6
      ∧ ((s.leg 0).state ≠ .listen ∧ (s.leg 0).state ≠ .fault) ∧ s.hasIndex 0 f.lane ∧ (natAt f.data 0 ≠ f.lane.val
      ∨ 5 < natAt f.data 1 ∨ 5 < natAt f.data 2 ∨ 12 < natAt f.data 3 ∨ 18 < natAt f.data 5
      ∨ natAt f.data 4 ≠ 48 - natAt f.data 3 - natAt f.data 5
      ∨ natAt f.data 4 < 24)) (atEnd .train) (cmd 3 6 0 [0, 0, 0, 12, 23, 13]))
    ∧ ((fun (s : State) (f : CommandBody) (u : TapStatus) (k : Search) (n : Nat) => s.takesCommand 3 6 f
      ∧ ((s.leg 0).state ≠ .listen ∧ (s.leg 0).state ≠ .fault) ∧ s.hasIndex 0 f.lane ∧ u.taps.lawful
      ∧ u.index = f.lane ∧ f.data = u.bytes ∧ (s.leg 0).state = .train ∧ (s.leg 0).attempt = some n
      ∧ (s.lane (s.winLane 0 f.lane)).search = some k ∧ k.waiting = some .status
      ∧ k.drained) (searching (atEnd .train) 1 { record with waiting := some .status, drained := true }) (cmd 3 6 0
      (TapStatus.bytes ⟨0, .updated, .updated, ⟨12, 24, 12⟩⟩)) ⟨0, .updated, .updated, ⟨12, 24, 12⟩⟩
      { record with waiting := some .status, drained := true } 1)
    ∧ ((fun (s : State) (f : CommandBody) (u : TapStatus) => s.takesCommand 3 6 f
      ∧ ((s.leg 0).state ≠ .listen ∧ (s.leg 0).state ≠ .fault) ∧ s.hasIndex 0 f.lane ∧ u.taps.lawful
      ∧ u.index = f.lane ∧ f.data = u.bytes ∧ ((s.leg 0).state ≠ .train ∨ (s.lane (s.winLane 0 f.lane)).search.all
      (fun k => k.waiting != some .status || !k.drained))) (atEnd .train) (cmd 3 6 0 (TapStatus.bytes ⟨0, .updated,
      .updated, ⟨12, 24, 12⟩⟩)) ⟨0, .updated, .updated, ⟨12, 24, 12⟩⟩)
    ∧ ((fun (s : State) (f : CommandBody) (u : TapStatus) => s.takesCommand 3 6 f
      ∧ ((s.leg 0).state ≠ .listen ∧ (s.leg 0).state ≠ .fault) ∧ s.hasIndex 0 f.lane ∧ u.taps.lawful
      ∧ u.index = f.lane ∧ f.data = u.bytes ∧ ((s.leg 0).state ≠ .train ∨ (s.lane (s.winLane 0 f.lane)).search.all
      (fun k => k.waiting != some .status || !k.drained))) (atEnd .up) (cmd 3 6 0 (TapStatus.bytes ⟨0, .updated,
      .updated, ⟨12, 24, 12⟩⟩)) ⟨0, .updated, .updated, ⟨12, 24, 12⟩⟩)
    ∧ ((fun (s : State) (f : CommandBody) (u : TapStatus) => s.takesCommand 3 6 f
      ∧ ((s.leg 0).state ≠ .listen ∧ (s.leg 0).state ≠ .fault) ∧ s.hasIndex 0 f.lane ∧ u.taps.lawful
      ∧ u.index = f.lane ∧ f.data = u.bytes ∧ ((s.leg 0).state ≠ .train
      ∨ (s.lane (s.winLane 0 f.lane)).search.all (fun k => k.waiting != some .status || !k.drained))) (searching (atEnd .train) 1
      { record with waiting := some .status }) (cmd 3 6 0 (TapStatus.bytes ⟨0, .updated, .updated, ⟨12, 24, 12⟩⟩))
      ⟨0, .updated, .updated, ⟨12, 24, 12⟩⟩) :=
  ⟨⟨fresh_command (by decide +kernel) (by decide +kernel), by decide +kernel⟩,
   ⟨fresh_command (by decide +kernel) (by decide +kernel), by decide +kernel⟩,
   ⟨fresh_command (by decide +kernel) (by decide +kernel), by decide +kernel⟩,
   ⟨fresh_command (by decide +kernel) (by decide +kernel), by decide +kernel⟩,
   ⟨fresh_command (by decide +kernel) (by decide +kernel), by decide +kernel⟩,
   ⟨fresh_command (by decide +kernel) (by decide +kernel), by decide +kernel⟩,
   ⟨fresh_command (by decide +kernel) (by decide +kernel), by decide +kernel⟩,
   ⟨fresh_command (by decide +kernel) (by decide +kernel), by decide +kernel⟩,
   ⟨fresh_command (by decide +kernel) (by decide +kernel), by decide +kernel⟩,
   ⟨fresh_command (by decide +kernel) (by decide +kernel), by decide +kernel⟩,
   ⟨fresh_command (by decide +kernel) (by decide +kernel), by decide +kernel⟩,
   ⟨fresh_command (by decide +kernel) (by decide +kernel), by decide +kernel⟩,
   ⟨fresh_command (by decide +kernel) (by decide +kernel), by decide +kernel⟩⟩

theorem witness_EndAppliesExchange :
    ((fun (s : State) (f : CommandBody) (q : TapRequest) => s.takesCommand 4 5 f ∧ (s.leg 0).state = .train
      ∧ s.hasIndex 0 f.lane ∧ f.data.length = 4 ∧ parseTapRequest f.data = some q ∧ natAt f.data 0 = f.lane.val
      ∧ (s.lane (s.winLane 0 f.lane)).settleUntil = none ∧ (s.lane (s.winLane 0 f.lane)).taps.lawful) (atEnd .train)
      (cmd 4 5 0 [0, 2, 7, 0]) (.preset 7))
    ∧ ((fun (s : State) (f : CommandBody) (q : TapRequest) => s.takesCommand 4 5 f ∧ (s.leg 0).state = .train
      ∧ s.hasIndex 0 f.lane ∧ f.data.length = 4 ∧ parseTapRequest f.data = some q ∧ natAt f.data 0 = f.lane.val ∧
      (s.lane (s.winLane 0 f.lane)).settleUntil ≠ none) (settling) (cmd 4 5 0 [0, 1, 1, 2]) (.step .inc .dec))
    ∧ ((fun (s : State) (f : CommandBody) => s.takesCommand 4 5 f ∧ f.data.length = 4
      ∧ (s.leg 0).state ≠ .train) (atEnd .up) (cmd 4 5 0 [0, 1, 1, 2]))
    ∧ ((fun (s : State) (f : CommandBody) => s.takesCommand 4 5 f ∧ (s.leg 0).state = .train ∧ f.data.length = 4
      ∧ s.hasIndex 0 f.lane = false) (atEnd .train) (cmd 4 5 1 [1, 2, 7, 0]))
    ∧ ((fun (s : State) (f : CommandBody) => s.takesCommand 4 5 f ∧ (s.leg 0).state = .train ∧ f.data.length = 4
      ∧ s.hasIndex 0 f.lane = false) (settling) (cmd 4 5 7 [7, 9, 7, 0]))
    ∧ ((fun (s : State) (f : CommandBody) => s.takesCommand 4 5 f ∧ (s.leg 0).state = .train ∧ f.data.length = 4
      ∧ s.hasIndex 0 f.lane ∧ (natAt f.data 0 ≠ f.lane.val ∨ natAt f.data 1 ∉ [1, 2, 3]
      ∨ (natAt f.data 1 = 1 ∧ (2 < natAt f.data 2 ∨ 2 < natAt f.data 3)) ∨ (natAt f.data 1 = 2
      ∧ 7 < natAt f.data 2))) (atEnd .train) (cmd 4 5 0 [1, 2, 7, 0]))
    ∧ ((fun (s : State) (f : CommandBody) => s.takesCommand 4 5 f ∧ (s.leg 0).state = .train ∧ f.data.length = 4
      ∧ s.hasIndex 0 f.lane ∧ (natAt f.data 0 ≠ f.lane.val ∨ natAt f.data 1 ∉ [1, 2, 3]
      ∨ (natAt f.data 1 = 1 ∧ (2 < natAt f.data 2 ∨ 2 < natAt f.data 3)) ∨ (natAt f.data 1 = 2
      ∧ 7 < natAt f.data 2))) (atEnd .train) (cmd 4 5 0 [0, 0, 0, 0]))
    ∧ ((fun (s : State) (f : CommandBody) => s.takesCommand 4 5 f ∧ (s.leg 0).state = .train ∧ f.data.length = 4
      ∧ s.hasIndex 0 f.lane ∧ (natAt f.data 0 ≠ f.lane.val ∨ natAt f.data 1 ∉ [1, 2, 3]
      ∨ (natAt f.data 1 = 1 ∧ (2 < natAt f.data 2 ∨ 2 < natAt f.data 3)) ∨ (natAt f.data 1 = 2
      ∧ 7 < natAt f.data 2))) (atEnd .train) (cmd 4 5 0 [0, 4, 0, 0]))
    ∧ ((fun (s : State) (f : CommandBody) => s.takesCommand 4 5 f ∧ (s.leg 0).state = .train ∧ f.data.length = 4
      ∧ s.hasIndex 0 f.lane ∧ (natAt f.data 0 ≠ f.lane.val ∨ natAt f.data 1 ∉ [1, 2, 3]
      ∨ (natAt f.data 1 = 1 ∧ (2 < natAt f.data 2 ∨ 2 < natAt f.data 3)) ∨ (natAt f.data 1 = 2
      ∧ 7 < natAt f.data 2))) (atEnd .train) (cmd 4 5 0 [0, 1, 3, 0]))
    ∧ ((fun (s : State) (f : CommandBody) => s.takesCommand 4 5 f ∧ (s.leg 0).state = .train ∧ f.data.length = 4
      ∧ s.hasIndex 0 f.lane ∧ (natAt f.data 0 ≠ f.lane.val ∨ natAt f.data 1 ∉ [1, 2, 3]
      ∨ (natAt f.data 1 = 1 ∧ (2 < natAt f.data 2 ∨ 2 < natAt f.data 3)) ∨ (natAt f.data 1 = 2
      ∧ 7 < natAt f.data 2))) (atEnd .train) (cmd 4 5 0 [0, 1, 0, 3]))
    ∧ ((fun (s : State) (f : CommandBody) => s.takesCommand 4 5 f ∧ (s.leg 0).state = .train ∧ f.data.length = 4
      ∧ s.hasIndex 0 f.lane ∧ (natAt f.data 0 ≠ f.lane.val ∨ natAt f.data 1 ∉ [1, 2, 3]
      ∨ (natAt f.data 1 = 1 ∧ (2 < natAt f.data 2 ∨ 2 < natAt f.data 3)) ∨ (natAt f.data 1 = 2
      ∧ 7 < natAt f.data 2))) (settling) (cmd 4 5 0 [0, 2, 8, 0])) :=
  ⟨⟨fresh_command (by decide +kernel) (by decide +kernel), by decide +kernel⟩,
   ⟨fresh_command (by decide +kernel) (by decide +kernel), by decide +kernel⟩,
   ⟨fresh_command (by decide +kernel) (by decide +kernel), by decide +kernel⟩,
   ⟨fresh_command (by decide +kernel) (by decide +kernel), by decide +kernel⟩,
   ⟨fresh_command (by decide +kernel) (by decide +kernel), by decide +kernel⟩,
   ⟨fresh_command (by decide +kernel) (by decide +kernel), by decide +kernel⟩,
   ⟨fresh_command (by decide +kernel) (by decide +kernel), by decide +kernel⟩,
   ⟨fresh_command (by decide +kernel) (by decide +kernel), by decide +kernel⟩,
   ⟨fresh_command (by decide +kernel) (by decide +kernel), by decide +kernel⟩,
   ⟨fresh_command (by decide +kernel) (by decide +kernel), by decide +kernel⟩,
   ⟨fresh_command (by decide +kernel) (by decide +kernel), by decide +kernel⟩⟩

theorem witness_EndDrainsOneItemPerBeat :
    ((fun (s : State) (f : CommandBody) => s.isHub = false ∧ (s.leg 0).state ≠ .off ∧ commandCrcOk 5 0 f
      ∧ s.resp.beatPrev = some f.beat) (drained (some 0)) (cmd 5 0 0 []))
    ∧ ((fun (s : State) (f : CommandBody) (i : Item) (rest : List Item) => s.isHub = false ∧ (s.leg 0).state ≠ .off
      ∧ commandCrcOk 5 0 f ∧ s.resp.beatPrev ≠ some f.beat
      ∧ (s.leg 0).queue = i :: rest) (drained none) (cmd 5 0 0 []) .retrainRequest [])
    ∧ ((fun (s : State) (f : CommandBody) => s.isHub = false ∧ (s.leg 0).state ≠ .off ∧ commandCrcOk 5 0 f
      ∧ s.resp.beatPrev ≠ some f.beat ∧ (s.leg 0).queue = []) (atEnd .up) (cmd 5 0 0 [])) :=
  ⟨by beta_reduce; decide +kernel,
   by beta_reduce; decide +kernel,
   by beta_reduce; decide +kernel⟩

theorem witness_EndAnswersRepeatsFromItsHold :
    (fun (s : State) (i : Instr) (kind : BitVec 3) (item : Byte) (f : CommandBody) (hd : HeldResponse) => commandOf i
      = some (0, kind, item, f) ∧ kind ≠ 5 ∧ s.isHub = false ∧ (s.leg 0).state ≠ .off ∧ commandCrcOk kind item f
      ∧ s.resp.held = some hd ∧ hd.repeats kind item f) (holding) (.fetchCommand 0 .ident (cmd 2 1 0 [])) 2 1 (cmd 2
      1 0 []) ⟨false, 2, 1, 0, [], [1]⟩ :=
  by beta_reduce; decide +kernel

theorem witness_EndRefusesUnknownCommands :
    ((fun (s : State) (kind : BitVec 3) (item : Byte) (f : CommandBody) => s.takesCommand kind item f ∧ (kind = 0
      ∨ kind = 6 ∨ kind = 7)) (atEnd .up) 0 1 (cmd 0 1 0 []))
    ∧ ((fun (s : State) (kind : BitVec 3) (item : Byte) (f : CommandBody) => s.takesCommand kind item f ∧ (kind = 0
      ∨ kind = 6 ∨ kind = 7)) (atEnd .up) 7 1 (cmd 7 1 0 []))
    ∧ ((fun (s : State) (kind : BitVec 3) (item : Byte) (f : CommandBody) => s.takesCommand kind item f ∧ ((kind = 1
      ∧ item ≠ 1) ∨ (kind = 2 ∧ item ≠ 1 ∧ item ≠ 2 ∧ item ≠ 3) ∨ (kind = 3 ∧ item ≠ 4 ∧ item ≠ 6) ∨ (kind = 4
      ∧ item ≠ 5))) (atEnd .up) 3 5 (cmd 3 5 0 []))
    ∧ ((fun (s : State) (kind : BitVec 3) (item : Byte) (f : CommandBody) => s.takesCommand kind item f ∧ ((kind = 1
      ∧ item ≠ 1) ∨ (kind = 2 ∧ item ≠ 1 ∧ item ≠ 2 ∧ item ≠ 3) ∨ (kind = 3 ∧ item ≠ 4 ∧ item ≠ 6) ∨ (kind = 4
      ∧ item ≠ 5))) (atEnd .up) 4 6 (cmd 4 6 0 []))
    ∧ ((fun (s : State) (kind : BitVec 3) (item : Byte) (f : CommandBody) (i : Instr) (len : Nat) => s.takesCommand
      kind item f ∧ commandOf i = some (0, kind, item, f) ∧ carriedLength kind item = some len ∧ f.data.length ≠ len)
      (atEnd .listen) 1 1 (cmd 1 1 0 (List.replicate 11 1)) (.probeCommand 0 (cmd 1 1 0 (List.replicate 11 1))) 12)
    ∧ ((fun (s : State) (kind : BitVec 3) (item : Byte) (f : CommandBody) (i : Instr) (len : Nat) => s.takesCommand
      kind item f ∧ commandOf i = some (0, kind, item, f) ∧ carriedLength kind item = some len ∧ f.data.length ≠ len)
      (atEnd .up) 2 1 (cmd 2 1 0 [0]) (.fetchCommand 0 .ident (cmd 2 1 0 [0])) 0)
    ∧ ((fun (s : State) (kind : BitVec 3) (item : Byte) (f : CommandBody) (i : Instr) (len : Nat) => s.takesCommand
      kind item f ∧ commandOf i = some (0, kind, item, f) ∧ carriedLength kind item = some len ∧ f.data.length ≠ len)
      (atEnd .fault) 2 2 (cmd 2 2 0 [0]) (.fetchCommand 0 .status (cmd 2 2 0 [0])) 0)
    ∧ ((fun (s : State) (kind : BitVec 3) (item : Byte) (f : CommandBody) (i : Instr) (len : Nat) => s.takesCommand
      kind item f ∧ commandOf i = some (0, kind, item, f) ∧ carriedLength kind item = some len ∧ f.data.length ≠ len)
      (atEnd .up) 2 3 (cmd 2 3 0 [0]) (.fetchCommand 0 .laneInfo (cmd 2 3 0 [0])) 0)
    ∧ ((fun (s : State) (kind : BitVec 3) (item : Byte) (f : CommandBody) (i : Instr) (len : Nat) => s.takesCommand
      kind item f ∧ commandOf i = some (0, kind, item, f) ∧ carriedLength kind item = some len
      ∧ f.data.length ≠ len) (atEnd .up) 3 4 (cmd 3 4 0 [3, 1]) (.storePhase 0 (cmd 3 4 0 [3, 1])) 3)
    ∧ ((fun (s : State) (kind : BitVec 3) (item : Byte) (f : CommandBody) (i : Instr) (len : Nat) => s.takesCommand
      kind item f ∧ commandOf i = some (0, kind, item, f) ∧ carriedLength kind item = some len ∧ f.data.length ≠ len)
      (atEnd .train) 3 6 (cmd 3 6 0 [0, 0, 0, 0, 48]) (.storeTapStatus 0 (cmd 3 6 0 [0, 0, 0, 0, 48])) 6)
    ∧ ((fun (s : State) (kind : BitVec 3) (item : Byte) (f : CommandBody) (i : Instr) (len : Nat) => s.takesCommand
      kind item f ∧ commandOf i = some (0, kind, item, f) ∧ carriedLength kind item = some len ∧ f.data.length ≠ len)
      (atEnd .train) 4 5 (cmd 4 5 0 [0, 2, 7, 0, 0]) (.exchangeTapRequest 0 (cmd 4 5 0 [0, 2, 7, 0, 0])) 4) :=
  ⟨⟨fresh_command (by decide +kernel) (by decide +kernel), by decide +kernel⟩,
   ⟨fresh_command (by decide +kernel) (by decide +kernel), by decide +kernel⟩,
   ⟨fresh_command (by decide +kernel) (by decide +kernel), by decide +kernel⟩,
   ⟨fresh_command (by decide +kernel) (by decide +kernel), by decide +kernel⟩,
   ⟨fresh_command (by decide +kernel) (by decide +kernel), by decide +kernel⟩,
   ⟨fresh_command (by decide +kernel) (by decide +kernel), by decide +kernel⟩,
   ⟨fresh_command (by decide +kernel) (by decide +kernel), by decide +kernel⟩,
   ⟨fresh_command (by decide +kernel) (by decide +kernel), by decide +kernel⟩,
   ⟨fresh_command (by decide +kernel) (by decide +kernel), by decide +kernel⟩,
   ⟨fresh_command (by decide +kernel) (by decide +kernel), by decide +kernel⟩,
   ⟨fresh_command (by decide +kernel) (by decide +kernel), by decide +kernel⟩⟩

theorem witness_ReceiverAndReplyLineMove :
    ((fun (s : State) (byte : Byte) => s.port.collecting = false) hub 0x7E)
    ∧ ((fun (s : State) (n : Byte) => 48 < n.toNat) hub 49)
    ∧ ((fun (s : State) (kind : Byte) (tag : Byte) (payload : List Byte) (crc : Half) => crc16 ([kind, tag, byteOf
      payload.length] ++ payload) ≠ crc) hub 1 0 [] (crc16 [1, 0, 0] + 1))
    ∧ ((fun (s : State) (r : Reply) (rest : List Reply) => s.port.line = r :: rest
      ∧ r.resets = false) (replying false) ⟨1, 9, .ok, [], true, false⟩ [])
    ∧ ((fun (s : State) (r : Reply) (rest : List Reply) => s.port.line = r :: rest
      ∧ r.resets) (replying true) ⟨1, 9, .ok, [], true, true⟩ [])
    ∧ ((fun (s : State) => s.port.line = []) hub) :=
  ⟨by beta_reduce; decide +kernel,
   by beta_reduce; decide +kernel,
   by beta_reduce; decide +kernel,
   by beta_reduce; decide +kernel,
   by beta_reduce; decide +kernel,
   by beta_reduce; decide +kernel⟩

theorem witness_BusyPortTakesNothing :
    ((fun (s : State) (i : Instr) (kind : Byte) (q : RequestBody) => requestOf i = some (kind, q)
      ∧ (s.port.slot ≠ none ∨ (s.cable.startup ≠ .ready ∧ kind ≠ 1))) (replying false) (.identify ⟨1, []⟩) 1 ⟨1, []⟩)
    ∧ ((fun (s : State) (i : Instr) (kind : Byte) (q : RequestBody) => requestOf i = some (kind, q)
      ∧ (s.port.slot ≠ none ∨ (s.cable.startup ≠ .ready
      ∧ kind ≠ 1))) State.reset (.unknownRequestKind 0x12 ⟨1, []⟩) 0x12 ⟨1, []⟩) :=
  ⟨by beta_reduce; decide +kernel,
   by beta_reduce; decide +kernel⟩

theorem witness_ReadsAnswerAsItStands :
    ((fun (s : State) (tag : Byte) => s.port.slot = none) State.reset 0)
    ∧ ((fun (s : State) (g : LegId) (tag : Byte) (b : Bool) => s.takesRequests ∧ s.hasLeg g) hub 3 255 true)
    ∧ ((fun (s : State) (c : LaneId) (tag : Byte) => s.takesRequests) hub 7 0)
    ∧ ((fun (s : State) (tag : Byte) => s.takesRequests) hub 0) :=
  ⟨by beta_reduce; decide +kernel,
   ⟨⟨by decide +kernel, by decide +kernel⟩, by decide +kernel⟩,
   ⟨by decide +kernel, by decide +kernel⟩,
   ⟨by decide +kernel, by decide +kernel⟩⟩

theorem witness_ConfigureLegSetsItsFields :
    ((fun (s : State) (g : LegId) (q : RequestBody) (k : LegConfig) => s.takesRequests ∧ s.hasLeg g
      ∧ q.payload.length = 12 ∧ natAt q.payload 0 = g.val ∧ ((s.leg g).state = .off ∨ (s.leg g).state = .fault)
      ∧ parseLegConfig q.payload = some k ∧ (s.isHub = false ∨ s.conflicts g k.window = false)) hub 3 ⟨0, [3, 0, 8,
      7, 2, 4, 0, 16, 63, 0, 1, 0]⟩ ⟨⟨0, 8, 7⟩, .h, some 4, some 16, 63, true⟩)
    ∧ ((fun (s : State) (g : LegId) (q : RequestBody) (k : LegConfig) => s.takesRequests ∧ s.hasLeg g
      ∧ q.payload.length = 12 ∧ natAt q.payload 0 = g.val ∧ ((s.leg g).state = .off ∨ (s.leg g).state = .fault)
      ∧ parseLegConfig q.payload = some k ∧ (s.isHub = false ∨ s.conflicts g k.window = false)) endPart 0 ⟨0, [0, 6,
      2, 0, 0, 4, 0, 16, 0, 0, 0, 3]⟩ ⟨⟨6, 2, 0⟩, .l, none, none, 0, false⟩)
    ∧ ((fun (s : State) (g : LegId) (q : RequestBody) => s.takesRequests ∧ s.hasLeg g ∧ q.payload.length = 12
      ∧ natAt q.payload 0 = g.val ∧ ((s.leg g).state ≠ .off
      ∧ (s.leg g).state ≠ .fault)) (one .up) 0 ⟨0, [0, 6, 2, 0, 0, 4, 0, 16, 0, 0, 0, 0]⟩)
    ∧ ((fun (s : State) (g : LegId) (q : RequestBody) => s.takesRequests ∧ s.hasLeg g ∧ q.payload.length = 12
      ∧ natAt q.payload 0 = g.val ∧ ((s.leg g).state = .off ∨ (s.leg g).state = .fault) ∧ (7 < natAt q.payload 1
      ∨ natAt q.payload 2 ∉ [1, 2, 4, 8] ∨ 7 < natAt q.payload 3 ∨ natAt q.payload 1 % natAt q.payload 2 ≠ 0
      ∨ 2 < natAt q.payload 4 ∨ 63 < natAt q.payload 8 ∨ 1 < natAt q.payload 10 ∨ 3 < natAt q.payload 11
      ∨ (natAt q.payload 11 < 2 ∧ 127 < natAt q.payload 7))) hub 0 ⟨0, [0, 6, 4, 0, 0, 4, 0, 16, 0, 0, 0, 0]⟩)
    ∧ ((fun (s : State) (g : LegId) (q : RequestBody) => s.takesRequests ∧ s.hasLeg g ∧ q.payload.length = 12
      ∧ natAt q.payload 0 = g.val ∧ ((s.leg g).state = .off ∨ (s.leg g).state = .fault) ∧ (7 < natAt q.payload 1
      ∨ natAt q.payload 2 ∉ [1, 2, 4, 8] ∨ 7 < natAt q.payload 3 ∨ natAt q.payload 1 % natAt q.payload 2 ≠ 0
      ∨ 2 < natAt q.payload 4 ∨ 63 < natAt q.payload 8 ∨ 1 < natAt q.payload 10 ∨ 3 < natAt q.payload 11
      ∨ (natAt q.payload 11 < 2 ∧ 127 < natAt q.payload 7))) hub 0 ⟨0, [0, 0, 3, 0, 0, 4, 0, 16, 0, 0, 0, 0]⟩)
    ∧ ((fun (s : State) (g : LegId) (q : RequestBody) => s.takesRequests ∧ s.hasLeg g ∧ q.payload.length = 12
      ∧ natAt q.payload 0 = g.val ∧ ((s.leg g).state = .off ∨ (s.leg g).state = .fault) ∧ (7 < natAt q.payload 1
      ∨ natAt q.payload 2 ∉ [1, 2, 4, 8] ∨ 7 < natAt q.payload 3 ∨ natAt q.payload 1 % natAt q.payload 2 ≠ 0
      ∨ 2 < natAt q.payload 4 ∨ 63 < natAt q.payload 8 ∨ 1 < natAt q.payload 10 ∨ 3 < natAt q.payload 11
      ∨ (natAt q.payload 11 < 2 ∧ 127 < natAt q.payload 7))) hub 0 ⟨0, [0, 0, 1, 0, 3, 4, 0, 16, 0, 0, 0, 0]⟩)
    ∧ ((fun (s : State) (g : LegId) (q : RequestBody) => s.takesRequests ∧ s.hasLeg g ∧ q.payload.length = 12
      ∧ natAt q.payload 0 = g.val ∧ ((s.leg g).state = .off ∨ (s.leg g).state = .fault) ∧ (7 < natAt q.payload 1
      ∨ natAt q.payload 2 ∉ [1, 2, 4, 8] ∨ 7 < natAt q.payload 3 ∨ natAt q.payload 1 % natAt q.payload 2 ≠ 0
      ∨ 2 < natAt q.payload 4 ∨ 63 < natAt q.payload 8 ∨ 1 < natAt q.payload 10 ∨ 3 < natAt q.payload 11
      ∨ (natAt q.payload 11 < 2 ∧ 127 < natAt q.payload 7))) hub 0 ⟨0, [0, 0, 1, 0, 0, 4, 0, 16, 0, 0, 0, 4]⟩)
    ∧ ((fun (s : State) (g : LegId) (q : RequestBody) => s.takesRequests ∧ s.hasLeg g ∧ q.payload.length = 12
      ∧ natAt q.payload 0 = g.val ∧ ((s.leg g).state = .off ∨ (s.leg g).state = .fault) ∧ (7 < natAt q.payload 1
      ∨ natAt q.payload 2 ∉ [1, 2, 4, 8] ∨ 7 < natAt q.payload 3 ∨ natAt q.payload 1 % natAt q.payload 2 ≠ 0
      ∨ 2 < natAt q.payload 4 ∨ 63 < natAt q.payload 8 ∨ 1 < natAt q.payload 10 ∨ 3 < natAt q.payload 11
      ∨ (natAt q.payload 11 < 2 ∧ 127 < natAt q.payload 7))) hub 0 ⟨0, [0, 6, 2, 0, 0, 4, 0, 128, 0, 0, 0, 1]⟩)
    ∧ ((fun (s : State) (g : LegId) (q : RequestBody) (k : LegConfig) => s.takesRequests ∧ s.isHub
      ∧ q.payload.length = 12 ∧ natAt q.payload 0 = g.val ∧ ((s.leg g).state = .off ∨ (s.leg g).state = .fault)
      ∧ parseLegConfig q.payload = some k ∧ s.conflicts g k.window) (one .up) 1 ⟨0, [1, 2, 1, 0, 0, 4, 0, 16, 0, 0,
      0, 3]⟩ ⟨⟨2, 1, 0⟩, .l, none, none, 0, false⟩) :=
  ⟨⟨⟨by decide +kernel, by decide +kernel⟩, by decide +kernel⟩,
   ⟨⟨by decide +kernel, by decide +kernel⟩, by decide +kernel⟩,
   ⟨⟨by decide +kernel, by decide +kernel⟩, by decide +kernel⟩,
   ⟨⟨by decide +kernel, by decide +kernel⟩, by decide +kernel⟩,
   ⟨⟨by decide +kernel, by decide +kernel⟩, by decide +kernel⟩,
   ⟨⟨by decide +kernel, by decide +kernel⟩, by decide +kernel⟩,
   ⟨⟨by decide +kernel, by decide +kernel⟩, by decide +kernel⟩,
   ⟨⟨by decide +kernel, by decide +kernel⟩, by decide +kernel⟩,
   ⟨⟨by decide +kernel, by decide +kernel⟩, by decide +kernel⟩⟩

theorem witness_StartAndStopMoveTheLeg :
    ((fun (s : State) (g : LegId) (tag : Byte) => s.takesRequests ∧ s.hasLeg g ∧ (s.leg g).state = .off
      ∧ (s.leg g).window ≠ none) (one .off) 0 0)
    ∧ ((fun (s : State) (g : LegId) (tag : Byte) => s.takesRequests ∧ s.hasLeg g ∧ ((s.leg g).state ≠ .off
      ∨ (s.leg g).window = none)) hub 3 0)
    ∧ ((fun (s : State) (g : LegId) (tag : Byte) => s.takesRequests ∧ s.hasLeg g ∧ (s.leg g).state ≠ .off
      ∧ (s.leg g).state ≠ .fault) (one .sleep) 0 0)
    ∧ ((fun (s : State) (g : LegId) (tag : Byte) => s.takesRequests ∧ s.hasLeg g ∧ (s.leg g).state ≠ .off
      ∧ (s.leg g).state ≠ .fault) (flying .train (.item (.exchange 0 (.preset 7)))) 0 0)
    ∧ ((fun (s : State) (g : LegId) (tag : Byte) => s.takesRequests ∧ s.hasLeg g ∧ (s.leg g).state ≠ .off
      ∧ (s.leg g).state ≠ .fault) (drained (some 3)) 0 0)
    ∧ ((fun (s : State) (g : LegId) (tag : Byte) => s.takesRequests ∧ s.hasLeg g
      ∧ (s.leg g).state = .off) (one .off) 0 0)
    ∧ ((fun (s : State) (g : LegId) (tag : Byte) => s.takesRequests ∧ s.hasLeg g
      ∧ (s.leg g).state = .fault) (one .fault) 0 0) :=
  ⟨⟨⟨by decide +kernel, by decide +kernel⟩, by decide +kernel⟩,
   ⟨⟨by decide +kernel, by decide +kernel⟩, by decide +kernel⟩,
   ⟨⟨by decide +kernel, by decide +kernel⟩, by decide +kernel⟩,
   ⟨⟨by decide +kernel, by decide +kernel⟩, by decide +kernel⟩,
   ⟨⟨by decide +kernel, by decide +kernel⟩, by decide +kernel⟩,
   ⟨⟨by decide +kernel, by decide +kernel⟩, by decide +kernel⟩,
   ⟨⟨by decide +kernel, by decide +kernel⟩, by decide +kernel⟩⟩

theorem witness_ResetLegKeepsConfiguration :
    ((fun (s : State) (g : LegId) (tag : Byte) => s.takesRequests ∧ s.hasLeg g) (one .fault) 0 0)
    ∧ ((fun (s : State) (g : LegId) (tag : Byte) => s.takesRequests
      ∧ s.hasLeg g) { flying .up .drain with grant := some ⟨0, 8, 16⟩ } 0 0)
    ∧ ((fun (s : State) (g : LegId) (tag : Byte) => s.takesRequests ∧ s.hasLeg g) (drained (some 3)) 0 0) :=
  ⟨⟨⟨by decide +kernel, by decide +kernel⟩, by decide +kernel⟩,
   ⟨⟨by decide +kernel, by decide +kernel⟩, by decide +kernel⟩,
   ⟨⟨by decide +kernel, by decide +kernel⟩, by decide +kernel⟩⟩

theorem witness_HubDecidesPowerRequests :
    ((fun (s : State) (g : LegId) (tag : Byte) => s.takesRequests ∧ s.isHub
      ∧ (s.leg g).state.inService) (one .degraded) 0 0)
    ∧ ((fun (s : State) (g : LegId) (tag : Byte) => s.takesRequests ∧ s.isHub
      ∧ (s.leg g).state.inService) (rated (one .up)) 0 0)
    ∧ ((fun (s : State) (g : LegId) (tag : Byte) => s.takesRequests ∧ s.isHub ∧ ((s.leg g).state.inService
      ∨ (s.leg g).state = .standby ∨ (s.leg g).state = .listen)) (one .listen) 0 0)
    ∧ ((fun (s : State) (g : LegId) (tag : Byte) => s.takesRequests ∧ s.isHub ∧ ((s.leg g).state.inService
      ∨ (s.leg g).state = .standby ∨ (s.leg g).state = .listen)) (rated (one .standby)) 0 0)
    ∧ ((fun (s : State) (g : LegId) (tag : Byte) => s.takesRequests ∧ s.isHub
      ∧ (s.leg g).state = .standby) (one .standby) 0 0)
    ∧ ((fun (s : State) (g : LegId) (tag : Byte) => s.takesRequests ∧ s.isHub
      ∧ (s.leg g).state = .sleep) (one .sleep) 0 0)
    ∧ ((fun (s : State) (g : LegId) (tag : Byte) => s.takesRequests ∧ s.isHub
      ∧ (s.leg g).state = .sleep) (identified (one .sleep)) 0 0)
    ∧ ((fun (s : State) (g : LegId) (tag : Byte) => s.takesRequests ∧ s.isHub ∧ (s.leg g).state ≠ .standby
      ∧ (s.leg g).state ≠ .sleep) (one .up) 0 0)
    ∧ ((fun (s : State) (g : LegId) (tag : Byte) (p : Power) => s.takesRequests ∧ s.isHub ∧ p ≠ .active
      ∧ (s.leg g).state.inService = false ∧ (p = .sleep → (s.leg g).state ≠ .standby
      ∧ (s.leg g).state ≠ .listen)) (one .standby) 0 0 .standby)
    ∧ ((fun (s : State) (g : LegId) (tag : Byte) (n : Byte) => s.takesRequests ∧ s.hasLeg g
      ∧ 2 < n.toNat) (one .up) 0 0 3) :=
  ⟨⟨⟨by decide +kernel, by decide +kernel⟩, by decide +kernel⟩,
   ⟨⟨by decide +kernel, by decide +kernel⟩, by decide +kernel⟩,
   ⟨⟨by decide +kernel, by decide +kernel⟩, by decide +kernel⟩,
   ⟨⟨by decide +kernel, by decide +kernel⟩, by decide +kernel⟩,
   ⟨⟨by decide +kernel, by decide +kernel⟩, by decide +kernel⟩,
   ⟨⟨by decide +kernel, by decide +kernel⟩, by decide +kernel⟩,
   ⟨⟨by decide +kernel, by decide +kernel⟩, by decide +kernel⟩,
   ⟨⟨by decide +kernel, by decide +kernel⟩, by decide +kernel⟩,
   ⟨⟨by decide +kernel, by decide +kernel⟩, by decide +kernel⟩,
   ⟨⟨by decide +kernel, by decide +kernel⟩, by decide +kernel⟩⟩

theorem witness_EndCarriesPowerRequests :
    ((fun (s : State) (tag : Byte) (p : Power) => s.takesRequests ∧ s.isHub = false ∧ p ≠ .active
      ∧ (s.leg 0).state.quiet) (atEnd .listen) 0 .sleep)
    ∧ ((fun (s : State) (tag : Byte) (p : Power) => s.takesRequests ∧ s.isHub = false ∧ ((p ≠ .active
      ∧ (s.leg 0).state.quiet = false) ∨ (p = .active ∧ (s.leg 0).state = .standby))
      ∧ (s.leg 0).queue.length < 4) (atEnd .up) 0 .sleep)
    ∧ ((fun (s : State) (tag : Byte) (p : Power) => s.takesRequests ∧ s.isHub = false ∧ ((p ≠ .active
      ∧ (s.leg 0).state.quiet = false) ∨ (p = .active ∧ (s.leg 0).state = .standby))
      ∧ (s.leg 0).queue.length < 4) (atEnd .standby) 0 .active)
    ∧ ((fun (s : State) (tag : Byte) (p : Power) => s.takesRequests ∧ s.isHub = false ∧ ((p ≠ .active
      ∧ (s.leg 0).state.quiet = false) ∨ (p = .active ∧ (s.leg 0).state = .standby))
      ∧ 4 ≤ (s.leg 0).queue.length) (crowded) 0 .standby)
    ∧ ((fun (s : State) (tag : Byte) => s.takesRequests ∧ s.isHub = false
      ∧ (s.leg 0).state = .sleep) (atEnd .sleep) 0)
    ∧ ((fun (s : State) (tag : Byte) => s.takesRequests ∧ s.isHub = false ∧ (s.leg 0).state ≠ .standby
      ∧ (s.leg 0).state ≠ .sleep) (atEnd .up) 0) :=
  ⟨⟨⟨by decide +kernel, by decide +kernel⟩, by decide +kernel⟩,
   ⟨⟨by decide +kernel, by decide +kernel⟩, by decide +kernel⟩,
   ⟨⟨by decide +kernel, by decide +kernel⟩, by decide +kernel⟩,
   ⟨⟨by decide +kernel, by decide +kernel⟩, by decide +kernel⟩,
   ⟨⟨by decide +kernel, by decide +kernel⟩, by decide +kernel⟩,
   ⟨⟨by decide +kernel, by decide +kernel⟩, by decide +kernel⟩⟩

theorem witness_PinsAndSettles :
    ((fun (s : State) (c : LaneId) (tag : Byte) (pre : Byte) (post : Byte) => s.takesRequests ∧ pre.toNat ≤ 12
      ∧ post.toNat ≤ 18 ∧ pre.toNat + post.toNat ≤ 24) hub 0 0 12 12)
    ∧ ((fun (s : State) (c : LaneId) (tag : Byte) (pre : Byte) (post : Byte) => s.takesRequests ∧ pre.toNat ≤ 12
      ∧ post.toNat ≤ 18 ∧ pre.toNat + post.toNat ≤ 24) hub 7 0 6 18)
    ∧ ((fun (s : State) (c : LaneId) (tag : Byte) (pre : Byte) (post : Byte) => s.takesRequests ∧ (12 < pre.toNat
      ∨ 18 < post.toNat ∨ 24 < pre.toNat + post.toNat)) hub 0 0 13 0)
    ∧ ((fun (s : State) (c : LaneId) (tag : Byte) (pre : Byte) (post : Byte) => s.takesRequests ∧ (12 < pre.toNat
      ∨ 18 < post.toNat ∨ 24 < pre.toNat + post.toNat)) hub 0 0 0 19)
    ∧ ((fun (s : State) (c : LaneId) (tag : Byte) (pre : Byte) (post : Byte) => s.takesRequests ∧ (12 < pre.toNat
      ∨ 18 < post.toNat ∨ 24 < pre.toNat + post.toNat)) hub 0 0 12 13)
    ∧ ((fun (s : State) (c : LaneId) (tag : Byte) => s.takesRequests) hub 7 0)
    ∧ ((fun (s : State) (tag : Byte) (n : Byte) (i : Instr) => s.takesRequests ∧ 7 < n.toNat
      ∧ (i = .unpinTaps ⟨tag, [n]⟩
      ∨ ∃ pre post, i = .pinTaps ⟨tag, [n, pre, post]⟩)) hub 0 8 (.unpinTaps ⟨0, [8]⟩)) :=
  ⟨⟨⟨by decide +kernel, by decide +kernel⟩, by decide +kernel⟩,
   ⟨⟨by decide +kernel, by decide +kernel⟩, by decide +kernel⟩,
   ⟨⟨by decide +kernel, by decide +kernel⟩, by decide +kernel⟩,
   ⟨⟨by decide +kernel, by decide +kernel⟩, by decide +kernel⟩,
   ⟨⟨by decide +kernel, by decide +kernel⟩, by decide +kernel⟩,
   ⟨by decide +kernel, by decide +kernel⟩,
   ⟨⟨by decide +kernel, by decide +kernel⟩, by decide +kernel, Or.inl rfl⟩⟩

theorem witness_FarReadIsQueued :
    ((fun (s : State) (g : LegId) (tag : Byte) (n : Byte) (lane : Byte) (k : FetchKind) (i : WinIx) =>
      s.takesRequests ∧ s.isHub ∧ (s.leg g).state ≠ .off ∧ (s.leg g).state ≠ .fault ∧ (s.leg g).queue.length < 4
      ∧ n = fetchCode k ∧ ((k ≠ .laneInfo ∧ i = 0) ∨ (k = .laneInfo ∧ lane.toNat ≤ 7 ∧ (s.leg g).window.bind (fun w
      => w.indexOf (Fin.ofNat 8 lane.toNat)) = some i))) (one .listen) 0 0 2 9 .status 0)
    ∧ ((fun (s : State) (g : LegId) (tag : Byte) (n : Byte) (lane : Byte) (k : FetchKind) (i : WinIx) =>
      s.takesRequests ∧ s.isHub ∧ (s.leg g).state ≠ .off ∧ (s.leg g).state ≠ .fault ∧ (s.leg g).queue.length < 4
      ∧ n = fetchCode k ∧ ((k ≠ .laneInfo ∧ i = 0) ∨ (k = .laneInfo ∧ lane.toNat ≤ 7 ∧ (s.leg g).window.bind (fun w
      => w.indexOf (Fin.ofNat 8 lane.toNat)) = some i))) (one .up) 0 0 3 2 .laneInfo 0)
    ∧ ((fun (s : State) (g : LegId) (tag : Byte) (n : Byte) (lane : Byte) => s.takesRequests ∧ s.isHub
      ∧ ((s.leg g).state = .off ∨ (s.leg g).state = .fault) ∧ (n = 1 ∨ n = 2)) (one .fault) 0 0 1 0)
    ∧ ((fun (s : State) (g : LegId) (tag : Byte) (n : Byte) (lane : Byte) => s.takesRequests ∧ s.isHub
      ∧ (s.leg g).state ≠ .off ∧ (s.leg g).state ≠ .fault ∧ 4 ≤ (s.leg g).queue.length ∧ (n = 1
      ∨ n = 2)) (full) 0 0 2 0)
    ∧ ((fun (s : State) (tag : Byte) (payload : List Byte) => s.takesRequests ∧ s.isHub = false) endPart 0 [])
    ∧ ((fun (s : State) (g : LegId) (x : Transaction) (f : ResponseBody) (tag : Byte) (k : FetchKind) (i : WinIx) =>
      s.getsReply g x 1 f ∧ x.work = .item (.farFetch k i) ∧ s.port.slot = some ⟨0x0E, tag⟩) (fetching .status 0) 0
      ⟨0, .item (.farFetch .status 0), false, 0, .waiting, true, some 200, none, 2000⟩ (replied 1 2 false [10, 3,
      255, 1]) 9 .status 0)
    ∧ ((fun (s : State) (g : LegId) (x : Transaction) (f : ResponseBody) (tag : Byte) (k : FetchKind) (i : WinIx) =>
      s.getsReply g x 3 f ∧ x.work = .item (.farFetch k i) ∧ s.port.slot = some ⟨0x0E, tag⟩) (fetching .laneInfo 2) 0
      ⟨0, .item (.farFetch .laneInfo 0), false, 0, .waiting, true, some 200, none, 2000⟩ (refused 3 3) 9 .laneInfo 0)
    ∧ ((fun (s : State) (x : Transaction) (tag : Byte) (k : FetchKind) (i : WinIx) => s.tx = some x
      ∧ x.work = .item (.farFetch k i) ∧ s.port.slot = some ⟨0x0E, tag⟩) (fetching .ident 0) ⟨0, .item (.farFetch
      .ident 0), false, 0, .waiting, true, some 200, none, 2000⟩ 9 .ident 0)
    ∧ ((fun (s : State) (x : Transaction) (tag : Byte) (k : FetchKind) (i : WinIx) => s.tx = some x
      ∧ x.phase = .waiting ∧ 2 ≤ (s.leg x.leg).timeouts ∧ x.work = .item (.farFetch k i) ∧ s.port.slot = some ⟨0x0E,
      tag⟩) (fetching .ident 2) ⟨0, .item (.farFetch .ident 0), false, 0, .waiting, true, some 200, none, 2000⟩ 9
      .ident 0)
    ∧ ((fun (s : State) (c : LaneId) (g : LegId) (level : Fin 64) (tag : Byte) => s.isHub ∧ (s.lane c).owner = some g
      ∧ ((s.leg g).state.receives ∨ (s.leg g).state = .standby ∨ (s.leg g).state = .probe)
      ∧ (s.lane c).presence = .present ∧ 3 ≤ (s.lane c).debounce ∧ level.val < (s.leg g).presThreshold
      ∧ (∃ j ∈ (s.leg g).queue, j.isFarFetch) ∧ s.port.slot = some ⟨0x0E, tag⟩) (awaiting .standby) 2 0 19 9)
    ∧ ((fun (s : State) (c : LaneId) (g : LegId) (level : Fin 64) (tag : Byte) => s.isHub ∧ (s.lane c).owner = some g
      ∧ ((s.leg g).state.receives ∨ (s.leg g).state = .standby ∨ (s.leg g).state = .probe)
      ∧ (s.lane c).presence = .present ∧ 3 ≤ (s.lane c).debounce ∧ level.val < (s.leg g).presThreshold
      ∧ (∃ j ∈ (s.leg g).queue, j.isFarFetch) ∧ s.port.slot = some ⟨0x0E, tag⟩) (awaiting .up) 2 0 0 9) :=
  ⟨⟨⟨by decide +kernel, by decide +kernel⟩, by decide +kernel⟩,
   ⟨⟨by decide +kernel, by decide +kernel⟩, by decide +kernel⟩,
   ⟨⟨by decide +kernel, by decide +kernel⟩, by decide +kernel⟩,
   ⟨⟨by decide +kernel, by decide +kernel⟩, by decide +kernel⟩,
   ⟨⟨by decide +kernel, by decide +kernel⟩, by decide +kernel⟩,
   ⟨by unfold State.getsReply; decide +kernel, by decide +kernel⟩,
   ⟨by unfold State.getsReply; decide +kernel, by decide +kernel⟩,
   by beta_reduce; decide +kernel,
   by beta_reduce; decide +kernel,
   by beta_reduce; decide +kernel,
   by beta_reduce; decide +kernel⟩

theorem witness_NoticesAreReadAndLevelled :
    ((fun (s : State) (tag : Byte) => s.takesRequests) hub 0)
    ∧ ((fun (s : State) (tag : Byte) (payload : List Byte) => s.takesRequests ∧ payload.length = 12
      ∧ (∀ b ∈ payload, b.toNat ≤ 3)) hub 0 (List.replicate 12 3))
    ∧ ((fun (s : State) (tag : Byte) (payload : List Byte) => s.takesRequests ∧ payload.length = 12
      ∧ (∃ b ∈ payload, 3 < b.toNat)) hub 0 (List.replicate 11 0 ++ [4])) :=
  ⟨⟨by decide +kernel, by decide +kernel⟩,
   ⟨⟨by decide +kernel, by decide +kernel⟩, by decide +kernel⟩,
   ⟨⟨by decide +kernel, by decide +kernel⟩, by decide +kernel⟩⟩

theorem witness_PresetsAreCommittedAndForgotten :
    ((fun (s : State) (tag : Byte) => s.takesRequests ∧ s.cable.job = none) hub 0)
    ∧ ((fun (s : State) (tag : Byte) => s.takesRequests ∧ s.cable.job ≠ none) (withJob 0 none) 0)
    ∧ ((fun (s : State) (tag : Byte) => s.takesRequests) hub 0) :=
  ⟨⟨⟨by decide +kernel, by decide +kernel⟩, by decide +kernel⟩,
   ⟨⟨by decide +kernel, by decide +kernel⟩, by decide +kernel⟩,
   ⟨by decide +kernel, by decide +kernel⟩⟩

theorem witness_ResetAndUnknownRequests :
    ((fun (s : State) (tag : Byte) => s.takesRequests) hub 0)
    ∧ ((fun (s : State) (kind : Byte) (q : RequestBody) => s.takesRequests ∧ (kind = 0
      ∨ 0x11 < kind.toNat)) hub 0 ⟨0, []⟩)
    ∧ ((fun (s : State) (kind : Byte) (q : RequestBody) => s.takesRequests ∧ (kind = 0
      ∨ 0x11 < kind.toNat)) hub 0x12 ⟨0, []⟩)
    ∧ ((fun (s : State) (i : Instr) (kind : Byte) (q : RequestBody) => s.takesRequests ∧ requestOf i = some (kind, q)
      ∧ ((kind = 5 ∨ kind = 6 ∨ kind = 7) ∧ (q.payload.length ≠ 1
      ∨ 3 < natAt q.payload 0))) hub (.startLeg ⟨0, [4]⟩) 5 ⟨0, [4]⟩)
    ∧ ((fun (s : State) (i : Instr) (kind : Byte) (q : RequestBody) => s.takesRequests ∧ requestOf i = some (kind, q)
      ∧ ((kind = 5 ∨ kind = 6 ∨ kind = 7) ∧ (q.payload.length ≠ 1
      ∨ 3 < natAt q.payload 0))) hub (.stopLeg ⟨0, []⟩) 6 ⟨0, []⟩) :=
  ⟨⟨by decide +kernel, by decide +kernel⟩,
   ⟨⟨by decide +kernel, by decide +kernel⟩, by decide +kernel⟩,
   ⟨⟨by decide +kernel, by decide +kernel⟩, by decide +kernel⟩,
   ⟨⟨by decide +kernel, by decide +kernel⟩, by decide +kernel⟩,
   ⟨⟨by decide +kernel, by decide +kernel⟩, by decide +kernel⟩⟩

/-- The hypotheses of `GrantEndAgesWaitingLegs` (its second part). -/
theorem witness_GrantEndAgesWaitingLegs :
    let base (l : Leg) : Nat := max ((l.queue.head?.map Item.level).getD 0) (if l.drainDone then 0 else l.beacon.val)
    let l : Leg := { Leg.reset with beacon := 3, passOver := 12 }
    Leg.reset.state = .off ∧ ((one .fault).leg 0).state = .fault
      ∧ (((one .sleep).leg 0).state ≠ .off ∧ ((one .sleep).leg 0).state ≠ .fault ∧ base ((one .sleep).leg 0) = 0)
      ∧ (∀ p ∈ [0, 3, 4, 7, 8, 11, 12], 0 < base { l with state := .sleep, passOver := p })
      ∧ base { l with state := .up, drainDone := true } = 0
      ∧ 0 < base { l with state := .listen, drainDone := true, queue := [.keepalive] } := by
  decide +kernel

theorem witness_GrantGoesToHighestDemand :
    (hub.isHub ∧ hub.tx = none ∧ hub.grant = none ∧ ∀ g, (hub.leg g).demand = 0)
      ∧ (full.isHub ∧ full.tx = none ∧ full.grant = none ∧ ∃ g, 0 < (full.leg g).demand) :=
  ⟨by decide +kernel, by decide +kernel⟩

theorem witness_LoadWritesBothOrNeither :
    (settling.lane (settling.winLane 0 0)).pinned = false ∧ (12 < 13 ∨ 18 < 0) ∧ (12 < 0 ∨ 18 < 19)
      ∧ (12 ≤ 12 ∧ 13 ≤ 18 ∧ 24 < 12 + 13) ∧ (12 ≤ 12 ∧ 12 ≤ 18 ∧ 12 + 12 ≤ 24) ∧ (6 ≤ 12 ∧ 18 ≤ 18 ∧ 6 + 18 ≤ 24) := by
  decide +kernel

theorem witness_StepKeepsTheTapLaw :
    (Taps.mk 12 24 12).lawful ∧ (Taps.mk 11 25 12).lawful ∧ (Taps.mk 6 24 18).lawful ∧ (Taps.mk 6 25 17).lawful
      ∧ (Taps.mk 0 48 0).lawful
      ∧ ((hub.modLane 3 (fun l => { l with pinned := true })).lane
          ((hub.modLane 3 (fun l => { l with pinned := true })).winLane 0 3)).pinned := by decide +kernel

/-- A full queue with a PHASE in the overflow hold. -/
def crammed : Leg := { Leg.reset with queue := List.replicate 4 .keepalive, overflow := some (.phase .run 0 .l) }

theorem witness_OnePhasePerLeg :
    crammed.queue.length ≤ 4 ∧ (∀ i, crammed.overflow = some i → i.isPhase)
      ∧ (crammed.queue.filter Item.isPhase).length + crammed.overflow.toList.length ≤ 1 :=
  ⟨by decide +kernel, by rintro i ⟨⟩; decide, by decide +kernel⟩

theorem witness_TapItemsRoundTrip :
    (∀ a b, TapRequest.load 255 0 = .load a b → a < 256 ∧ b < 256)
      ∧ (TapStatus.mk 7 .pinned .updated ⟨12, 24, 12⟩).taps.lawful :=
  ⟨by rintro a b ⟨⟩; decide, by decide⟩

/-- A job whose entries stand at the ends of their ranges. -/
def brimming : Job :=
  { entries := Vector.replicate 8 ⟨true, 2, 6, 18, 15, -31⟩, serial := zeroSerial, index := 0, poll := none }

theorem witness_CommitThenLoadAgree :
    (atStart .loadingLearned).cable.startup = .loadingLearned
      ∧ ∀ c : LaneId, brimming.entries[c].pre < 256 ∧ brimming.entries[c].post < 256 ∧ brimming.entries[c].peaking < 256
        ∧ -128 ≤ brimming.entries[c].d1 ∧ brimming.entries[c].d1 ≤ 127
        ∧ (brimming.entries[c].valid → brimming.entries[c].rate.toNat ≤ 2
            ∧ loadable brimming.entries[c].pre brimming.entries[c].post ∧ brimming.entries[c].peaking ≤ 15
            ∧ -31 ≤ brimming.entries[c].d1 ∧ brimming.entries[c].d1 ≤ 31) := by decide +kernel

theorem witness_CommitPages : ({ brimming with index := 5 } : Job).index ≤ 5 ∧ brimming.index = 0 := by decide

/-- A queue of sixteen records after the storm, and one of fewer. -/
theorem witness_PostingMergesInsertsOrDisplaces :
    (orderedByLevel afterStorm.records ∧ ∃ n ∈ afterStorm.records, n.kind = .legFault ∧ n.leg = some 1)
      ∧ (orderedByLevel NoticeQueue.reset.records
          ∧ (∀ n ∈ NoticeQueue.reset.records, ¬(n.kind = .wake ∧ n.leg = some 0)) ∧ NoticeQueue.reset.records.length < 16)
      ∧ (orderedByLevel afterStorm.records ∧ (∀ n ∈ afterStorm.records, ¬(n.kind = .wake ∧ n.leg = some 0))
          ∧ afterStorm.records.length = 16
          ∧ ∃ tail, afterStorm.records = afterStorm.records.dropLast ++ [tail]
            ∧ tail.level < afterStorm.levels[NoticeKind.wake.ix]
            ∧ afterStorm.levels[NoticeKind.deferExpired.ix] ≤ tail.level) :=
  ⟨by decide +kernel, by decide +kernel, by decide +kernel, by decide +kernel, by decide +kernel,
   ⟨.deferExpired, some 2, 1, 1, 0, []⟩, by decide +kernel, by decide +kernel, by decide +kernel⟩

theorem forall_some {α : Type} {o : Option α} {p : α → Prop} : (∀ t, o = some t → p t) ↔ ∀ t ∈ o.toList, p t := by
  cases o <;> simp

/-- A HUB whose leg 0 is in UP on lane 2, with a notice, a grant and a transaction: every invariant holds of it. -/
def living : State :=
  let s := (flying .up (.item .keepalive)).modLeg 0 (fun l => { l with attempt := none, negRate := some .m })
  s.post .wake (some 0) []

theorem witness_StepKeepsRanges : living.InRange ∧ ∃ t, step living = .next t := by
  refine ⟨?_, _, rfl⟩
  unfold State.InRange Lane.Ok Leg.Ok Cable.Ok Threshold.Ok LearnedEntry.Ok AdaptLane.Ok Search.Ok
  simp only [forall_some]
  decide +kernel

theorem witness_StepKeepsWindows : living.WindowsOk ∧ ∃ t, step living = .next t := by
  refine ⟨?_, _, rfl⟩
  unfold State.WindowsOk State.LaneAgrees
  simp only [forall_some]
  decide +kernel

theorem witness_StepKeepsLifetimes : living.LifetimesOk ∧ ∃ t, step living = .next t := by
  refine ⟨?_, _, rfl⟩
  unfold State.LifetimesOk Leg.LifetimesOk
  simp only [forall_some]
  decide +kernel

theorem witness_StepKeepsNotices : living.notices.Ok ∧ ∃ t, step living = .next t := by
  refine ⟨?_, _, rfl⟩
  unfold NoticeQueue.Ok
  decide +kernel

theorem witness_StepKeepsGrant : living.GrantOk ∧ ∃ t, step living = .next t := by
  refine ⟨?_, _, rfl⟩
  unfold State.GrantOk
  simp only [forall_some]
  decide +kernel


/-- A full queue with one PHASE in it, and the overflow hold empty. -/
theorem witness_OnePhasePerLeg_step : living.OnePhase ∧ ∃ t, step living = .next t := by
  refine ⟨?_, _, rfl⟩
  unfold State.OnePhase Leg.OnePhase
  decide +kernel

theorem witness_BusyPortTakesNothing_step : living.PortOk ∧ ∃ t, step living = .next t := by
  refine ⟨?_, _, rfl⟩
  unfold State.PortOk
  decide +kernel

/-- Two records in one chain: a last offset of 0, one that leads back, one out of the image, and a cut at the last record. -/
theorem witness_ImageReadApplied_chain :
    ∀ last ∈ [0, 7, 17, 65535], ∃ img, (List.replicate 7 (0 : Byte)).length = 7
      ∧ (∀ x ∈ [((9 : Byte), ([] : List Byte))] ++ [(1, [5, 6])], x.2.length < 256)
      ∧ img = List.replicate 7 0 ++ chainBytes last 7 ([(9, [])] ++ [(1, [5, 6])]) ∧ img.length ≤ 1024 ∧ last < 65536
      ∧ (last = 0 ∨ (last + 4 + 2 ≤ img.length ∨ img.length ≤ last)) ∧ (∃ n, n < img.length ∧ img.length ≤ n + 4 + 2) := by
  intro last h
  refine ⟨_, rfl, by decide, rfl, ?_⟩
  simp only [List.mem_cons, List.not_mem_nil, or_false] at h
  rcases h with rfl | rfl | rfl | rfl <;> exact ⟨by decide, by decide, by decide, 16, by decide, by decide⟩


theorem witness_StepRunsFrontCommand_idle : State.reset.pending = [] := rfl

/-- The eighty bytes that a finished commit of `brimming` leaves. -/
def brimmingBlock : List Byte :=
  ({ brimming with index := 5 } : Job).page.2 ++ ({ brimming with index := 1 } : Job).page.2
    ++ ({ brimming with index := 2 } : Job).page.2 ++ ({ brimming with index := 3 } : Job).page.2
    ++ ({ brimming with index := 4 } : Job).page.2

/-- Reads of no byte and of one byte; a cleared magic; the magic with a lost acknowledge, with a wrong CRC and with a wrong
lane, and a block that passes. -/
theorem witness_LearnedReadEntersReady_judged :
    (([] : List Byte).length < 2 ∧ [(0x4C : Byte)].length < 2)
      ∧ (2 ≤ (List.replicate 80 (0 : Byte)).length ∧ (natAt (List.replicate 80 0) 0 ≠ 0x4C ∨ natAt (List.replicate 80 0) 1 ≠ 0x42))
      ∧ (natAt [0x4C, 0x42] 0 = 0x4C ∧ natAt [0x4C, 0x42] 1 = 0x42 ∧ [(0x4C : Byte), 0x42].length < 80)
      ∧ (∃ c : LaneId, natAt ([0x4C, 0x42] ++ List.replicate 78 0) (16 + 8 * c.val) ≠ c.val)
      ∧ (brimmingBlock.length = 80
          ∧ crc16 (brimmingBlock.take 10 ++ brimmingBlock.drop 12) = BitVec.ofNat 16 (nat16At brimmingBlock 10)
          ∧ ∀ c : LaneId, natAt brimmingBlock (16 + 8 * c.val) = c.val ∧ natAt brimmingBlock (17 + 8 * c.val) ≤ 1
            ∧ (natAt brimmingBlock (17 + 8 * c.val) = 1 → natAt brimmingBlock (18 + 8 * c.val) ≤ 2
                ∧ natAt brimmingBlock (19 + 8 * c.val) ≤ 12 ∧ natAt brimmingBlock (20 + 8 * c.val) ≤ 18
                ∧ natAt brimmingBlock (19 + 8 * c.val) + natAt brimmingBlock (20 + 8 * c.val) ≤ 24
                ∧ natAt brimmingBlock (21 + 8 * c.val) ≤ 15
                ∧ (natAt brimmingBlock (22 + 8 * c.val) ≤ 31 ∨ 225 ≤ natAt brimmingBlock (22 + 8 * c.val)))) := by
  decide +kernel

/-- One transaction of each kind a HUB sends. -/
theorem witness_EngineSendsAndWaits_frames :
    ∀ w : Work, ∃ x : Transaction, x.work = w := fun w => ⟨carrying w .sending, rfl⟩

theorem witness_GrantGoesToHighestDemand_held :
    let s : State := { full with grant := some ⟨0, 7, 8⟩ }
    s.isHub ∧ s.tx = none ∧ s.grant = some ⟨0, 7, 8⟩ ∧ (s.leg 0).queue.head? = some .keepalive ∧ (s.leg 0).state ≠ .off
      ∧ (s.leg 0).state ≠ .fault ∧ 7 < 8 := by decide +kernel

theorem witness_GrantGoesToHighestDemand_step :
    (living.EngineServes ∧ hub.isHub ∧ hub.tx = none ∧ hub.EngineServes) ∧ ∃ t, step living = .next t := by
  refine ⟨?_, _, rfl⟩
  unfold State.EngineServes
  decide +kernel

/-- A DRAIN is next where the queue is empty and the END signals. -/
theorem witness_GrantGoesToHighestDemand_drain :
    let s : State := (one .up).modLeg 0 (fun l => { l with beacon := 2, beat := 15 })
    s.isHub ∧ s.tx = none ∧ s.grant = none ∧ (∃ g, 0 < (s.leg g).demand) ∧ (s.arbitrate false).tx.map Transaction.work = some .drain := by
  decide +kernel

/-- A choice at the end of a grant and within one. -/
theorem witness_GrantGoesToHighestDemand_running :
    let s : State := { full with grant := some ⟨0, 7, 8⟩ }
    s.isHub ∧ s.tx = none ∧ (s.arbitrate false).tx ≠ none ∧ (s.arbitrate true).tx ≠ none := by decide +kernel

theorem witness_EndDrainsOneItemPerBeat_beacon :
    ((atEnd .off).leg 0).state = .off ∧ hub.isHub ∧ ((drained none).isHub = false ∧ ((drained none).leg 0).state ≠ .off)
      ∧ ((drained none).leg 0).queue ≠ [] := by decide +kernel

theorem witness_ReceiverAndReplyLineMove_bytes :
    (Reply.mk 0x7F 9 .ok (List.replicate 255 0) true false).kind.toNat < 0x80
      ∧ (Reply.mk 0x7F 9 .ok (List.replicate 255 0) true false).payload.length < 256 := by decide +kernel

/-- A leg in UP on lane 2 alone, and lane 7 in no window. -/
theorem witness_PinsAndSettles_transmitters :
    (one .up).WindowsOk ∧ ((one .up).leg 0).window = some ⟨2, 1, 0⟩
      ∧ (∀ g w, ((one .up).leg g).window = some w → (7 : LaneId) ∉ w.lanes ∧ (7 : LaneId) ∉ w.hosts) := by
  refine ⟨?_, by decide +kernel, ?_⟩
  · unfold State.WindowsOk State.LaneAgrees
    simp only [forall_some]
    decide +kernel
  · simp only [forall_some]
    decide +kernel
end Sys2Proof.Tests
end

