-- ==== Sys2Proof/Proofs/Step.lean ====
section
/-! SUPPORT. What one step does, by the command queue: the two equations of `step`. -/

open Sys2Proof Sys2Proof.Machine

namespace Sys2Proof.Machine

/-- The queue is consumed before the command acts: no meaning sees its own command in `pending`. -/
theorem step_of_pending_cons {s : State} {c : Instr} {rest : List Instr} (h : s.pending = c :: rest) :
    step s = exec c { s with pending := rest } := by
  unfold step
  rw [h]

theorem step_of_pending_nil {s : State} (h : s.pending = []) : step s = .next { s with time := s.time + 1 } := by
  unfold step
  rw [h]

end Sys2Proof.Machine

/-- Settles O1: the two equations of `step`, one for each form of the queue. -/
theorem stepRunsFrontCommand : Obligations.StepRunsFrontCommand := by
  unfold Obligations.StepRunsFrontCommand
  constructor
  · intro c rest s
    exact step_of_pending_cons rfl
  · intro s idle
    have tick : (s.time + 1).toNat = (s.time.toNat + 1) % 2 ^ 32 := BitVec.toNat_add s.time 1
    exact ⟨{ s with time := s.time + 1 }, step_of_pending_nil idle, tick, rfl⟩
end

