-- ==== Sys2Proof/Proofs/WindowFacts.lean ====
section
/-! SUPPORT. Which lanes a window holds: membership, indices and disjointness, and the reset state, which has no window. -/

open Sys2Proof Sys2Proof.Machine

namespace Sys2Proof.Machine

/-! ### Lanes and indices of a window (R4) -/

theorem Window.mem_indices {w : Window} {i : WinIx} : i ∈ w.indices ↔ i.val < w.w := by
  simp [Window.indices, mem_allLanes]

theorem Window.laneAt_injective (w : Window) : Function.Injective w.laneAt := by
  intro i j h
  have hv : (w.f + i.val + w.o) % 8 = (w.f + j.val + w.o) % 8 := congrArg Fin.val h
  apply Fin.ext
  omega

theorem Window.mem_lanes {w : Window} {c : LaneId} : c ∈ w.lanes ↔ ∃ i, i.val < w.w ∧ w.laneAt i = c := by
  simp [Window.lanes, Window.mem_indices]

theorem Window.mem_hosts {w : Window} {h : LaneId} : h ∈ w.hosts ↔ ∃ i, i.val < w.w ∧ w.hostAt i = h := by
  simp [Window.hosts, Window.mem_indices]

theorem Window.indexOf_eq_some {w : Window} {c : LaneId} {i : WinIx} :
    w.indexOf c = some i ↔ i.val < w.w ∧ w.laneAt i = c := by
  constructor
  · intro h
    exact ⟨Window.mem_indices.mp (List.mem_of_find?_eq_some h), by simpa using List.find?_some h⟩
  · rintro ⟨hi, rfl⟩
    cases h : w.indexOf (w.laneAt i) with
    | none =>
      have := List.find?_eq_none.mp h i (Window.mem_indices.mpr hi)
      simp at this
    | some j =>
      have hj : w.laneAt j = w.laneAt i := by simpa using List.find?_some h
      rw [w.laneAt_injective hj]

theorem Window.indexOf_eq_none {w : Window} {c : LaneId} : w.indexOf c = none ↔ c ∉ w.lanes := by
  rw [Window.mem_lanes]
  constructor
  · rintro h ⟨i, hi⟩
    rw [Window.indexOf_eq_some.mpr hi] at h
    cases h
  · intro h
    cases e : w.indexOf c with
    | none => rfl
    | some i => exact absurd ⟨i, Window.indexOf_eq_some.mp e⟩ h

theorem Window.mem_lanes_iff_indexOf {w : Window} {c : LaneId} : c ∈ w.lanes ↔ ∃ i, w.indexOf c = some i := by
  simp only [Window.mem_lanes, Window.indexOf_eq_some]

/-- A window of legal shape ends at host lane 7 at the latest, so its host lanes do not wrap. -/
theorem Window.legal_bound {w : Window} (h : w.legal) : w.f + w.w ≤ 8 := by
  obtain ⟨f, n, o⟩ := w
  simp only [Window.legal, Bool.and_eq_true, Bool.or_eq_true, decide_eq_true_eq, beq_iff_eq] at h
  obtain ⟨⟨⟨hf, hw⟩, -⟩, hm⟩ := h
  change f + n ≤ 8
  rcases hw with ((rfl | rfl) | rfl) | rfl <;> omega

theorem Window.hostAt_val {w : Window} (h : w.legal) {i : WinIx} (hi : i.val < w.w) : (w.hostAt i).val = w.f + i.val := by
  have := w.legal_bound h
  exact Nat.mod_eq_of_lt (by omega)

theorem Window.hostAt_inj {w : Window} (h : w.legal) {i j : WinIx} (hi : i.val < w.w) (hj : j.val < w.w)
    (e : w.hostAt i = w.hostAt j) : i = j := by
  have hv := congrArg Fin.val e
  rw [Window.hostAt_val h hi, Window.hostAt_val h hj] at hv
  exact Fin.ext (by omega)

theorem Window.overlaps_eq_false {a b : Window} :
    a.overlaps b = false ↔ (∀ c ∈ a.lanes, c ∉ b.lanes) ∧ ∀ h ∈ a.hosts, h ∉ b.hosts := by
  simp [Window.overlaps]

theorem Window.overlaps_comm (a b : Window) : a.overlaps b = b.overlaps a := by
  rw [Bool.eq_iff_iff, ← not_iff_not, Bool.not_eq_true, Bool.not_eq_true, Window.overlaps_eq_false,
    Window.overlaps_eq_false]
  constructor <;> rintro ⟨hc, hh⟩ <;> exact ⟨fun c h k => hc c k h, fun c h k => hh c k h⟩

/-! ### The window of a leg -/

theorem State.hasIndex_iff {s : State} {g : LegId} {i : WinIx} :
    s.hasIndex g i ↔ ∃ w, (s.leg g).window = some w ∧ i.val < w.w := by
  unfold State.hasIndex State.winIndices
  cases (s.leg g).window <;> simp [Window.mem_indices]

theorem State.mem_winIndices {s : State} {g : LegId} {i : WinIx} : i ∈ s.winIndices g ↔ s.hasIndex g i := by
  simp [State.hasIndex]

theorem State.winLanes_of_window {s : State} {g : LegId} {w : Window} (h : (s.leg g).window = some w) :
    s.winLanes g = w.lanes := by
  simp [State.winLanes, h]

theorem State.winLane_of_window {s : State} {g : LegId} {w : Window} (h : (s.leg g).window = some w) (i : WinIx) :
    s.winLane g i = w.laneAt i := by
  simp [State.winLane, h]

theorem State.mem_winLanes {s : State} {g : LegId} {c : LaneId} :
    c ∈ s.winLanes g ↔ ∃ i, s.hasIndex g i ∧ s.winLane g i = c := by
  simp only [State.hasIndex_iff]
  cases h : (s.leg g).window with
  | none => simp [State.winLanes, h]
  | some w => simp [State.winLanes_of_window h, State.winLane_of_window h, Window.mem_lanes]

theorem State.winLane_mem {s : State} {g : LegId} {i : WinIx} (h : s.hasIndex g i) : s.winLane g i ∈ s.winLanes g :=
  State.mem_winLanes.mpr ⟨i, h, rfl⟩

theorem State.winLane_injective (s : State) (g : LegId) : Function.Injective (s.winLane g) := by
  cases h : (s.leg g).window with
  | none => intro i j e; simpa [State.winLane, h] using e
  | some w => intro i j e; exact w.laneAt_injective (by simpa [State.winLane, h] using e)

/-- The window index of a window lane is found again from the lane (R4). -/
theorem State.indexOf_winLane {s : State} {g : LegId} {i : WinIx} (h : s.hasIndex g i) :
    (s.leg g).window.bind (fun w => w.indexOf (s.winLane g i)) = some i := by
  obtain ⟨w, hw, hi⟩ := State.hasIndex_iff.mp h
  rw [hw, Option.bind_some, State.winLane_of_window hw]
  exact Window.indexOf_eq_some.mpr ⟨hi, rfl⟩

theorem State.winLanes_congr {s t : State} {g : LegId} (h : (t.leg g).window = (s.leg g).window) :
    t.winLanes g = s.winLanes g := by
  simp [State.winLanes, h]

theorem State.winIndices_congr {s t : State} {g : LegId} (h : (t.leg g).window = (s.leg g).window) :
    t.winIndices g = s.winIndices g := by
  simp [State.winIndices, h]

theorem State.winLane_congr {s t : State} {g : LegId} (h : (t.leg g).window = (s.leg g).window) (i : WinIx) :
    t.winLane g i = s.winLane g i := by
  simp [State.winLane, h]

theorem State.hasIndex_congr {s t : State} {g : LegId} (h : (t.leg g).window = (s.leg g).window) (i : WinIx) :
    t.hasIndex g i = s.hasIndex g i := by
  simp [State.hasIndex, State.winIndices_congr h]

/-! ### The state after a device reset -/

theorem State.afterReset_leg (strap : Role) (n : Nat) (q : List Instr) (g : LegId) :
    (State.afterReset strap n q).leg g = Leg.reset := by
  simp [State.afterReset, State.leg]

theorem State.afterReset_lane (strap : Role) (n : Nat) (q : List Instr) (c : LaneId) :
    (State.afterReset strap n q).lane c = Lane.reset := by
  simp [State.afterReset, State.lane]

end Sys2Proof.Machine
end

