-- ==== Sys2Proof/Proofs/ResetState.lean ====
section
/-! SUPPORT. The state after a device reset: its values and every invariant. -/

open Sys2Proof Sys2Proof.Machine

namespace Sys2Proof.Machine

theorem exec_deviceReset (strap : Role) (s : State) :
    exec (.deviceReset strap) s = .next (State.afterReset strap s.free s.pending) := rfl

theorem Lane.reset_ok : Lane.reset.Ok := by
  simp [Lane.Ok, Lane.reset, Taps.lawful, Taps.reset]

theorem Leg.reset_ok : Leg.reset.Ok := by
  simp [Leg.Ok, Leg.reset]

theorem Cable.reset_ok : Cable.reset.Ok := by
  refine ⟨by decide, ?_, ?_, ?_, ?_, ?_, ?_⟩ <;>
    simp [Cable.reset, defaultThresholds, Threshold.Ok, LearnedEntry.Ok, LearnedEntry.reset]

theorem State.afterReset_inRange (strap : Role) (n : Nat) (q : List Instr) : (State.afterReset strap n q).InRange := by
  refine ⟨fun c => ?_, fun g => ?_, Cable.reset_ok⟩
  · rw [State.afterReset_lane]; exact Lane.reset_ok
  · rw [State.afterReset_leg]; exact Leg.reset_ok

theorem State.afterReset_windowsOk (strap : Role) (n : Nat) (q : List Instr) : (State.afterReset strap n q).WindowsOk := by
  have none (g : LegId) : ((State.afterReset strap n q).leg g).window = none := by rw [State.afterReset_leg]; rfl
  refine ⟨fun _ => none, ?_, ?_, fun c => ⟨?_, fun _ => ?_⟩⟩
  · intro g w h; rw [none] at h; cases h
  · intro g k _ w h; rw [none] at h; cases h
  · intro g w h; rw [none] at h; cases h
  · rw [State.afterReset_lane]; exact ⟨rfl, rfl, rfl⟩

theorem State.afterReset_lifetimesOk (strap : Role) (n : Nat) (q : List Instr) :
    (State.afterReset strap n q).LifetimesOk := by
  intro g
  rw [State.afterReset_leg]
  simp [Leg.LifetimesOk, Leg.reset, LegState.keepsAlive]

theorem State.afterReset_onePhase (strap : Role) (n : Nat) (q : List Instr) : (State.afterReset strap n q).OnePhase := by
  intro g
  rw [State.afterReset_leg]
  simp [Leg.OnePhase, Leg.reset]

theorem State.afterReset_engineServes (strap : Role) (n : Nat) (q : List Instr) :
    (State.afterReset strap n q).EngineServes := by
  intro _ _ g
  rw [State.afterReset_leg]
  rfl

theorem State.afterReset_grantOk (strap : Role) (n : Nat) (q : List Instr) : (State.afterReset strap n q).GrantOk := by
  intro r h
  cases h

theorem State.afterReset_portOk (strap : Role) (n : Nat) (q : List Instr) : (State.afterReset strap n q).PortOk := by
  intro _ r h
  cases h

theorem NoticeQueue.reset_ok : NoticeQueue.reset.Ok := by
  refine ⟨?_, ?_, ?_, ?_, by decide, ?_, ?_⟩ <;> simp [NoticeQueue.reset, orderedByLevel, NoticeQueue.alertDue]

/-- After a device reset every invariant holds, whatever the strap (R3, R20, R161). -/
theorem State.afterReset_invariants (strap : Role) (n : Nat) (q : List Instr) :
    (State.afterReset strap n q).InRange ∧ (State.afterReset strap n q).WindowsOk
      ∧ (State.afterReset strap n q).LifetimesOk ∧ (State.afterReset strap n q).notices.Ok
      ∧ (State.afterReset strap n q).GrantOk ∧ (State.afterReset strap n q).OnePhase
      ∧ (State.afterReset strap n q).PortOk ∧ (State.afterReset strap n q).EngineServes :=
  ⟨State.afterReset_inRange strap n q, State.afterReset_windowsOk strap n q, State.afterReset_lifetimesOk strap n q,
    NoticeQueue.reset_ok, State.afterReset_grantOk strap n q, State.afterReset_onePhase strap n q,
    State.afterReset_portOk strap n q, State.afterReset_engineServes strap n q⟩

end Sys2Proof.Machine

/-- Settles O2: the reset state's records are the constants of R3, R20 and R161, read off field by field. -/
theorem deviceResetLeavesDefaults : Obligations.DeviceResetLeavesDefaults := by
  unfold Obligations.DeviceResetLeavesDefaults
  constructor
  · intro s strap
    refine ⟨_, exec_deviceReset strap s, fun c => State.afterReset_lane .., ?_⟩
    simp only [State.afterReset_leg]
    have holds (i : Fin 8) : emptyStatusHold[i] = none ∧ emptyLaneHold[i] = none ∧ emptySet[i] = none := by
      simp [emptyStatusHold, emptyLaneHold, emptySet]
    exact ⟨fun _ => by simp [Leg.reset], fun _ => by simp [Leg.reset], fun _ => by simp [Leg.reset], fun _ i => holds i,
      fun _ => by simp [Leg.reset]⟩
  · intro s strap
    refine ⟨_, exec_deviceReset strap s, ?_⟩
    simp [State.afterReset, Responder.reset, Port.reset, NoticeQueue.reset, Cable.reset, defaultLevels, zeroSerial,
      LearnedEntry.reset, defaultPresets, defaultThresholds]

/-- Settles O3: `State.reset` is itself a state after a device reset. -/
theorem resetMeetsInvariants : Obligations.ResetMeetsInvariants := by
  unfold Obligations.ResetMeetsInvariants
  have atReset := State.afterReset_invariants .hubRole 0 []
  obtain ⟨ranges, windows, lifetimes, notices, grant, phase, port, engine⟩ := atReset
  exact ⟨ranges, windows, lifetimes, notices, grant, phase, port, engine,
    fun strap s => ⟨_, exec_deviceReset strap s, State.afterReset_invariants strap _ _⟩⟩
end

