-- ==== Sys2Proof/Proofs/Keeping.lean ====
section
/-! SUPPORT. What an operation keeps: the two invariants of ranges and windows (`State.Keeps`), and for an operation of one leg's
controller everything that is not that leg's own (`State.Acts`). Both compose, so an operation built of others has a proof
built of theirs. -/

open Sys2Proof Sys2Proof.Machine

namespace Sys2Proof.Machine

/-! ### What windows are read from -/

/-- Windows, leg states and the lane fields they determine stand as they stood, and start-up has not gone back. -/
structure State.SamePlaces (s t : State) : Prop where
  role : t.role = s.role
  startup : t.cable.startup.beforeImage → s.cable.startup.beforeImage
  window : ∀ g, (t.leg g).window = (s.leg g).window
  state : ∀ g, (t.leg g).state = (s.leg g).state
  lane : ∀ c, (t.lane c).owner = (s.lane c).owner ∧ (t.lane c).hostLane = (s.lane c).hostLane
    ∧ (t.lane c).path = (s.lane c).path

/-- Windows are legal, held by legs of the part, disjoint, and every lane record agrees with them: `State.WindowsOk` without
its word on start-up. -/
def State.WindowsPlaced (s : State) : Prop :=
  (∀ g w, (s.leg g).window = some w → w.legal ∧ s.hasLeg g)
    ∧ (∀ g k, g ≠ k → ∀ w, (s.leg g).window = some w → ∀ v, (s.leg k).window = some v → w.overlaps v = false)
    ∧ ∀ c, s.LaneAgrees c

theorem State.windowsOk_iff {s : State} :
    s.WindowsOk ↔ (s.cable.startup.beforeImage → ∀ g, (s.leg g).window = none) ∧ s.WindowsPlaced := Iff.rfl

theorem State.SamePlaces.placed {s t : State} (e : s.SamePlaces t) (h : s.WindowsPlaced) : t.WindowsPlaced := by
  obtain ⟨legal, disjoint, agree⟩ := h
  have hasLeg (g : LegId) : t.hasLeg g = s.hasLeg g := by simp [State.hasLeg, e.role]
  refine ⟨fun g w => ?_, fun g k => ?_, fun c => ?_⟩
  · rw [e.window, hasLeg]; exact legal g w
  · rw [e.window, e.window]; exact disjoint g k
  · obtain ⟨ho, hh, hp⟩ := e.lane c
    unfold State.LaneAgrees
    simp only [e.window, e.state, ho, hh, hp]
    exact agree c

theorem State.SamePlaces.windowsOk {s t : State} (e : s.SamePlaces t) (h : s.WindowsOk) : t.WindowsOk :=
  State.windowsOk_iff.mpr ⟨fun b g => by rw [e.window]; exact h.1 (e.startup b) g, e.placed h.2⟩

/-! ### Operations that keep the two invariants -/

/-- The step from s to t keeps records in range and windows in order. -/
structure State.Keeps (s t : State) : Prop where
  ranges : s.InRange → t.InRange
  windows : s.WindowsOk → t.WindowsOk

theorem State.Keeps.refl (s : State) : s.Keeps s := ⟨id, id⟩

theorem State.Keeps.trans {s t u : State} (h : s.Keeps t) (k : t.Keeps u) : s.Keeps u :=
  ⟨fun r => k.ranges (h.ranges r), fun w => k.windows (h.windows w)⟩

theorem State.Keeps.of_samePlaces {s t : State} (e : s.SamePlaces t) (r : s.InRange → t.InRange) : s.Keeps t :=
  ⟨r, e.windowsOk⟩

/-- An operation that leaves role, lanes, legs and cable memory alone keeps both. -/
theorem State.Keeps.of_eq {s t : State} (role : t.role = s.role) (lanes : t.lanes = s.lanes) (legs : t.legs = s.legs)
    (cable : t.cable = s.cable) : s.Keeps t := by
  have lane (c : LaneId) : t.lane c = s.lane c := by simp [State.lane, lanes]
  have leg (g : LegId) : t.leg g = s.leg g := by simp [State.leg, legs]
  refine .of_samePlaces ⟨role, by simp [cable], by simp [leg], by simp [leg], by simp [lane]⟩ ?_
  rintro ⟨laneOk, legOk, cableOk⟩
  exact ⟨fun c => lane c ▸ laneOk c, fun g => leg g ▸ legOk g, cable ▸ cableOk⟩

/-- A change of the cable memory unit that does not take start-up back keeps both where the unit stays in range. -/
theorem State.Keeps.of_cable {s : State} {k : Cable} (startup : k.startup.beforeImage → s.cable.startup.beforeImage)
    (ok : s.InRange → k.Ok) : s.Keeps { s with cable := k } :=
  .of_samePlaces ⟨rfl, startup, fun _ => rfl, fun _ => rfl, fun _ => ⟨rfl, rfl, rfl⟩⟩
    fun h => ⟨h.1, h.2.1, ok h⟩

theorem State.Keeps.of_modLane (s : State) (c : LaneId) (f : Lane → Lane)
    (place : (f (s.lane c)).owner = (s.lane c).owner ∧ (f (s.lane c)).hostLane = (s.lane c).hostLane
      ∧ (f (s.lane c)).path = (s.lane c).path)
    (ok : s.InRange → (f (s.lane c)).Ok) : s.Keeps (s.modLane c f) := by
  refine .of_samePlaces ⟨rfl, id, fun _ => rfl, fun _ => rfl, fun d => ?_⟩ fun h => ⟨fun d => ?_, h.2.1, h.2.2⟩
  · rw [State.modLane_lane]
    split
    · rename_i e; subst e; exact place
    · exact ⟨rfl, rfl, rfl⟩
  · rw [State.modLane_lane]
    split
    · exact ok h
    · exact h.1 d

/-! ### Operations of one leg's controller -/

/-- A lane record but for its receiver settings, presence, debounce count and search stands as it stood. -/
def Lane.Steady (l m : Lane) : Prop :=
  m = { l with peaking := m.peaking, d1 := m.d1, presence := m.presence, debounce := m.debounce, search := m.search }

/-- What an operation of leg g leaves alone: the part's setting and cable memory but for the learned entries, every other
leg, the leg's window, and every lane's transmitter fields and report. -/
structure State.LegFrame (s : State) (g : LegId) (t : State) : Prop where
  role : t.role = s.role
  strap : t.strap = s.strap
  time : t.time = s.time
  pending : t.pending = s.pending
  cable : t.cable = { s.cable with learned := t.cable.learned, learnedSerial := t.cable.learnedSerial }
  others : ∀ k, k ≠ g → t.leg k = s.leg k
  window : (t.leg g).window = (s.leg g).window
  taps : s.tapsKept t
  report : ∀ c, (t.lane c).report = (s.lane c).report ∧ (t.lane c).merit = (s.lane c).merit

theorem State.LegFrame.refl (s : State) (g : LegId) : s.LegFrame g s :=
  ⟨rfl, rfl, rfl, rfl, rfl, fun _ _ => rfl, rfl, fun _ => ⟨rfl, rfl, rfl, rfl⟩, fun _ => ⟨rfl, rfl⟩⟩

theorem State.LegFrame.trans {s t u : State} {g : LegId} (h : s.LegFrame g t) (k : t.LegFrame g u) : s.LegFrame g u where
  role := k.role.trans h.role
  strap := k.strap.trans h.strap
  time := k.time.trans h.time
  pending := k.pending.trans h.pending
  cable := by rw [k.cable, h.cable]
  others j hj := (k.others j hj).trans (h.others j hj)
  window := k.window.trans h.window
  taps c := by
    obtain ⟨t1, p1, s1, f1⟩ := h.taps c
    obtain ⟨t2, p2, s2, f2⟩ := k.taps c
    exact ⟨t2.trans t1, p2.trans p1, s2.trans s1, f2.trans f1⟩
  report c := by
    obtain ⟨r1, m1⟩ := h.report c
    obtain ⟨r2, m2⟩ := k.report c
    exact ⟨r2.trans r1, m2.trans m1⟩

/-- An operation of leg g's controller: it keeps the two invariants, and moves the leg's own record and the receivers of
lanes at most. -/
structure State.Acts (s : State) (g : LegId) (t : State) : Prop extends s.LegFrame g t, s.Keeps t

theorem State.Acts.refl (s : State) (g : LegId) : s.Acts g s := ⟨.refl s g, .refl s⟩

theorem State.Acts.trans {s t u : State} {g : LegId} (h : s.Acts g t) (k : t.Acts g u) : s.Acts g u :=
  ⟨h.toLegFrame.trans k.toLegFrame, h.toKeeps.trans k.toKeeps⟩

/-- `State.Acts.trans` with the last operation first, for proofs that follow a definition from the outside in. -/
theorem State.Acts.after {s t u : State} {g : LegId} (k : t.Acts g u) (h : s.Acts g t) : s.Acts g u := h.trans k

theorem State.LegFrame.winLanes {s t : State} {g : LegId} (h : s.LegFrame g t) : t.winLanes g = s.winLanes g :=
  State.winLanes_congr h.window

theorem State.LegFrame.winLane {s t : State} {g : LegId} (h : s.LegFrame g t) (i : WinIx) :
    t.winLane g i = s.winLane g i := State.winLane_congr h.window i

theorem State.LegFrame.winIndices {s t : State} {g : LegId} (h : s.LegFrame g t) : t.winIndices g = s.winIndices g :=
  State.winIndices_congr h.window

theorem State.LegFrame.hasIndex {s t : State} {g : LegId} (h : s.LegFrame g t) (i : WinIx) :
    t.hasIndex g i = s.hasIndex g i := State.hasIndex_congr h.window i

theorem State.LegFrame.isHub {s t : State} {g : LegId} (h : s.LegFrame g t) : t.isHub = s.isHub := by
  simp [State.isHub, h.role]

theorem State.LegFrame.othersKept {s t : State} {g : LegId} (h : s.LegFrame g t) : s.othersKept t g :=
  fun k hk => congrArg Leg.apart (h.others k hk)

/-! ### The elementary operations -/

theorem State.modLeg_samePlaces (s : State) (g : LegId) (f : Leg → Leg) (window : (f (s.leg g)).window = (s.leg g).window)
    (state : (f (s.leg g)).state = (s.leg g).state) : s.SamePlaces (s.modLeg g f) := by
  refine ⟨rfl, id, fun k => ?_, fun k => ?_, fun _ => ⟨rfl, rfl, rfl⟩⟩ <;> rw [State.modLeg_leg] <;> split <;> rename_i e
  · subst e; exact window
  · rfl
  · subst e; exact state
  · rfl

/-- Leg g's own record changes, its window and state kept. -/
theorem State.acts_modLeg (s : State) (g : LegId) (f : Leg → Leg) (window : (f (s.leg g)).window = (s.leg g).window)
    (state : (f (s.leg g)).state = (s.leg g).state) (ok : s.InRange → (f (s.leg g)).Ok) : s.Acts g (s.modLeg g f) where
  toLegFrame :=
    ⟨rfl, rfl, rfl, rfl, rfl, fun _ hk => State.modLeg_leg_other s f hk, by rw [State.modLeg_leg_same, window],
      fun _ => ⟨rfl, rfl, rfl, rfl⟩, fun _ => ⟨rfl, rfl⟩⟩
  toKeeps := by
    refine .of_samePlaces (s.modLeg_samePlaces g f window state) fun h => ⟨h.1, fun k => ?_, h.2.2⟩
    rw [State.modLeg_leg]
    split
    · exact ok h
    · exact h.2.1 k

/-- Lanes change in nothing but receiver settings, presence, debounce count and search. -/
theorem State.acts_mapLanes (s : State) (g : LegId) (f : LaneId → Lane → Lane) (steady : ∀ c, (s.lane c).Steady (f c (s.lane c)))
    (ok : s.InRange → ∀ c, (f c (s.lane c)).Ok) : s.Acts g (s.mapLanes f) where
  toLegFrame := by
    refine ⟨rfl, rfl, rfl, rfl, rfl, fun _ _ => rfl, rfl, fun c => ?_, fun c => ?_⟩ <;>
      rw [State.mapLanes_lane, steady c]
    · exact ⟨rfl, rfl, rfl, rfl⟩
    · exact ⟨rfl, rfl⟩
  toKeeps := by
    refine .of_samePlaces ⟨rfl, id, fun _ => rfl, fun _ => rfl, fun c => ?_⟩ fun h => ⟨fun c => ?_, h.2.1, h.2.2⟩ <;>
      rw [State.mapLanes_lane]
    · rw [steady c]; exact ⟨rfl, rfl, rfl⟩
    · exact ok h c

theorem State.acts_modLane (s : State) (g : LegId) (c : LaneId) (f : Lane → Lane) (steady : (s.lane c).Steady (f (s.lane c)))
    (ok : s.InRange → (f (s.lane c)).Ok) : s.Acts g (s.modLane c f) where
  toLegFrame := by
    refine ⟨rfl, rfl, rfl, rfl, rfl, fun _ _ => rfl, rfl, fun d => ?_, fun d => ?_⟩ <;>
      rw [State.modLane_lane] <;> split <;> rename_i e
    · subst e; rw [steady]; exact ⟨rfl, rfl, rfl, rfl⟩
    · exact ⟨rfl, rfl, rfl, rfl⟩
    · subst e; rw [steady]; exact ⟨rfl, rfl⟩
    · exact ⟨rfl, rfl⟩
  toKeeps := .of_modLane s c f (by rw [steady]; exact ⟨rfl, rfl, rfl⟩) ok

theorem State.acts_modWindow (s : State) (g : LegId) (f : Lane → Lane) (steady : ∀ l : Lane, l.Steady (f l))
    (ok : ∀ l : Lane, l.Ok → (f l).Ok) : s.Acts g (s.modWindow g f) := by
  refine s.acts_mapLanes g _ (fun c => ?_) (fun h c => ?_) <;> split
  · exact steady _
  · rfl
  · exact ok _ (h.1 c)
  · exact h.1 c

/-- An operation on the transaction, the grant, the responder, the port or the notices. -/
theorem State.acts_of_eq {s t : State} (g : LegId)
    (e : t = { s with tx := t.tx, grant := t.grant, resp := t.resp, port := t.port, notices := t.notices, free := t.free }) :
    s.Acts g t := by
  rw [e]
  exact ⟨⟨rfl, rfl, rfl, rfl, rfl, fun _ _ => rfl, rfl, fun _ => ⟨rfl, rfl, rfl, rfl⟩, fun _ => ⟨rfl, rfl⟩⟩,
    .of_eq rfl rfl rfl rfl⟩

theorem State.acts_post (s : State) (g : LegId) (k : NoticeKind) (o : Option LegId) (data : List Byte) :
    s.Acts g (s.post k o data) := State.acts_of_eq g rfl

theorem State.acts_reply (s : State) (g : LegId) (st : Status) (payload : List Byte) : s.Acts g (s.reply st payload) :=
  State.acts_of_eq g rfl

theorem State.acts_farReadDone (s : State) (g : LegId) (st : Status) (payload : List Byte) :
    s.Acts g (s.farReadDone st payload) := by
  rcases s.farReadDone_cases st payload with e | e <;> rw [e]
  · exact .refl s g
  · exact s.acts_reply g st payload

/-- A change of the leg's record that keeps its window and state, and its ranges whatever the rest of the part. -/
theorem State.acts_setLeg (s : State) (g : LegId) (f : Leg → Leg)
    (h : ∀ l, (f l).window = l.window ∧ (f l).state = l.state ∧ (l.Ok → (f l).Ok)) : s.Acts g (s.modLeg g f) :=
  s.acts_modLeg g f (h _).1 (h _).2.1 fun k => (h _).2.2 (k.2.1 g)

end Sys2Proof.Machine
end

