-- ==== Sys2Proof/Proofs/RecordRanges.lean ====
section
/-! SUPPORT. The figures the rules compute stay in the ranges of their records: taps, merits, searches, adaptation tallies, and
the outbound queue with its holds. -/

open Sys2Proof Sys2Proof.Machine

namespace Sys2Proof.Machine

/-! ### Taps (R47 to R52) -/

theorem Taps.lawful_iff {t : Taps} :
    t.lawful ↔ t.pre ≤ 12 ∧ t.post ≤ 18 ∧ t.main = 48 - t.pre - t.post ∧ 24 ≤ t.main := by
  simp [Taps.lawful, and_assoc]

theorem tapsOf_lawful {pre post : Nat} (h : loadable pre post) : (tapsOf pre post).lawful := by
  simp only [loadable, Bool.and_eq_true, decide_eq_true_eq] at h
  rw [Taps.lawful_iff]
  change pre ≤ 12 ∧ post ≤ 18 ∧ 48 - pre - post = 48 - pre - post ∧ 24 ≤ 48 - pre - post
  omega

theorem judgeField_le {cur limit : Nat} (h : cur ≤ limit) (c : StepCode) : (judgeField cur limit c).1 ≤ limit := by
  cases c <;> simp only [judgeField]
  · exact h
  · split <;> simp only <;> omega
  · split <;> simp only <;> omega

/-- Where the floor check reverts a raised field, no field stands above its value before (R50). -/
theorem revertField_le (cur limit : Nat) (c : StepCode) : (revertField cur c (judgeField cur limit c)).1 ≤ cur := by
  cases c <;> simp only [judgeField, revertField]
  · simp
  · split <;> simp
  · split <;> simp

/-- A STEP on lawful taps gives loadable pre and post (R49, R50): the revert keeps main at 24 or above. -/
theorem applyStep_loadable {t : Taps} (h : t.lawful) (p q : StepCode) :
    ∃ pre post, (applyStep t p q).1 = tapsOf pre post ∧ loadable pre post := by
  rw [Taps.lawful_iff] at h
  refine ⟨_, _, rfl, ?_⟩
  have pre := judgeField_le h.1 p
  have post := judgeField_le h.2.1 q
  have pre' := revertField_le t.pre 12 p
  have post' := revertField_le t.post 18 q
  simp only [loadable, Bool.and_eq_true, decide_eq_true_eq]
  split <;> omega

theorem applyStep_lawful {t : Taps} (h : t.lawful) (p q : StepCode) : (applyStep t p q).1.lawful := by
  obtain ⟨pre, post, e, k⟩ := applyStep_loadable h p q
  rw [e]
  exact tapsOf_lawful k

theorem applyLoad_lawful {t : Taps} (h : t.lawful) (a b : Nat) : (applyLoad t a b).1.lawful := by
  unfold applyLoad
  split
  · exact h
  · split
    · rename_i k; exact tapsOf_lawful k
    · exact h

/-- A request of any form gives lawful taps, the presets being loadable (R164). -/
theorem applyRequest_lawful {t : Taps} (h : t.lawful) {presets : Vector Preset 8}
    (ok : ∀ n : Fin 8, loadable presets[n].pre presets[n].post) (pinned : Bool) (q : TapRequest) :
    (applyRequest presets pinned t q).1.lawful := by
  unfold applyRequest
  split
  · exact h
  · cases q with
    | step a b => exact applyStep_lawful h a b
    | load a b => exact applyLoad_lawful h a b
    | preset n => exact tapsOf_lawful (ok n)

theorem parseTapStatus_lawful {i : WinIx} {d : List Byte} {u : TapStatus} (h : parseTapStatus i d = some u) :
    u.taps.lawful ∧ u.index = i := by
  unfold parseTapStatus at h
  split at h
  · simp only at h
    split at h
    · rename_i k
      cases h
      exact ⟨k.2, rfl⟩
    · cases h
  · cases h

/-! ### Merits and receiver settings (R65, R82, R102) -/

theorem Report.merit_le (r : Report) : r.merit ≤ 508 := by
  have := r.h.isLt
  unfold Report.merit Machine.merit
  omega

theorem updateD1_range (d1 r d : Int) : -31 ≤ updateD1 d1 r d ∧ updateD1 d1 r d ≤ 31 := by
  unfold updateD1
  omega

theorem foldl_min_merit_le (rs : List Report) (n : Nat) : rs.foldl (fun n r => min n r.merit) n ≤ n := by
  induction rs generalizing n with
  | nil => exact le_refl n
  | cons r rs ih => exact (ih _).trans (Nat.min_le_left _ _)

theorem lowestMerit_le (rs : List Report) : lowestMerit rs ≤ 508 := foldl_min_merit_le rs 508

/-! ### Search records (R68 to R78) -/

theorem Search.fresh_ok : Search.fresh.Ok := by simp [Search.Ok, Search.fresh]

theorem stepUp_le (n : Nat) : stepUp n ≤ 32 := Nat.min_le_right _ _

theorem Search.formStep_ok {r : Search} (h : r.best ≤ 508) : r.formStep.1.Ok := ⟨h, stepUp_le _⟩

theorem Search.formUndo_ok {r : Search} (h : r.best ≤ 508) : r.formUndo.1.Ok := ⟨h, stepUp_le _⟩

theorem Search.finishTap_ok {r : Search} (h : r.Ok) : r.finishTap.1.Ok := by
  unfold Search.finishTap
  split
  · exact Search.formStep_ok h.1
  · exact h

theorem Search.turn_ok {r : Search} (h : r.Ok) : r.turn.1.Ok := by
  unfold Search.turn
  split
  · exact Search.formStep_ok h.1
  · exact Search.finishTap_ok h

theorem Search.onAck_ok {r : Search} (h : r.Ok) (t : TapStatus) : (r.onAck t).1.Ok := by
  unfold Search.onAck
  split
  · exact h
  · split
    · exact h
    · split
      · exact h
      · exact Search.turn_ok h
  · split
    · exact h
    · exact Search.turn_ok h

theorem Search.onFailure_ok {r : Search} (h : r.Ok) : r.onFailure.1.Ok := by
  unfold Search.onFailure
  split
  · exact ⟨h.1, stepUp_le _⟩
  · split
    · exact h
    · exact Search.turn_ok h
  · split
    · exact h
    · exact Search.turn_ok h

theorem Search.onResult_ok {r : Search} (h : r.Ok) (u : Bool) (res : ReqResult) : (r.onResult u res).1.Ok := by
  unfold Search.onResult
  split
  · exact Search.onAck_ok h _
  · exact Search.onFailure_ok h
  · exact Search.onFailure_ok h
  · exact h
  · exact h
  · split
    · exact h
    · exact Search.onFailure_ok h

theorem Search.onReport_ok {r : Search} (h : r.Ok) {m : Nat} (hm : m ≤ 508) : (r.onReport m).1.Ok := by
  unfold Search.onReport
  split
  · exact h
  · exact h
  · exact h
  · split
    · split
      · exact ⟨hm, h.2⟩
      · exact Search.formStep_ok hm
    · split
      · exact Search.formStep_ok hm
      · exact Search.formUndo_ok h.1
    · exact h

/-! ### Adaptation tallies (R80 to R83) -/

/-- The candidate codes of an entry code in range, written out. -/
theorem peakingCodes_eq {p : Nat} (h : p ≤ 15) :
    peakingCodes p = if p = 0 then [0, 1] else if p = 15 then [14, 15] else [p - 1, p, p + 1] := by
  interval_cases p <;> decide

theorem peakingCodes_le {p q : Nat} (h : p ≤ 15) (k : q ∈ peakingCodes p) : q ≤ 15 := by
  rw [peakingCodes_eq h] at k
  split at k
  · simp only [List.mem_cons, List.not_mem_nil, or_false] at k; omega
  · split at k <;> simp only [List.mem_cons, List.not_mem_nil, or_false] at k <;> omega

theorem peakingCodes_ascending {p : Nat} (h : p ≤ 15) : (peakingCodes p).Pairwise (· < ·) := by
  interval_cases p <;> decide

theorem peakingCodes_ne_nil {p : Nat} (h : p ≤ 15) : 0 < (peakingCodes p).length := by
  interval_cases p <;> decide

theorem peakingCodes_head {p : Nat} (h : p ≤ 15) : (peakingCodes p).headD p = p - 1 := by
  interval_cases p <;> decide

theorem AdaptLane.start_ok {p : Nat} (h : p ≤ 15) : (AdaptLane.start p).Ok :=
  ⟨h, rfl, fun _ => ⟨peakingCodes_ne_nil h, rfl⟩⟩

theorem AdaptLane.onReport_ok {a : AdaptLane} (h : a.Ok) (m : Nat) : (a.onReport m).1.Ok := by
  unfold AdaptLane.onReport
  split
  · exact h
  · simp only
    split
    · rename_i k
      rename_i st _ _ _
      refine ⟨h.1, h.2.1, fun _ => ⟨?_, (h.2.2 st).2⟩⟩
      exact (List.getElem?_eq_some_iff.mp k).1
    · exact ⟨h.1, h.2.1, fun c => nomatch c⟩
  · exact ⟨h.1, h.2.1, fun c => nomatch c⟩
  · exact h

/-- Every choice of R81 is one of the tried codes, or the entry code. -/
theorem AdaptLane.choice_mem (a : AdaptLane) : a.choice = a.entry ∨ a.choice ∈ a.candidates := by
  unfold AdaptLane.choice
  simp only
  split
  · exact .inl rfl
  · cases e : ((a.candidates.zip a.measured).filter (fun x => x.2 == a.highest)).map Prod.fst with
    | nil => exact .inl rfl
    | cons c cs =>
      right
      have hc : c ∈ ((a.candidates.zip a.measured).filter (fun x => x.2 == a.highest)).map Prod.fst := by simp [e]
      obtain ⟨x, hx, rfl⟩ := List.mem_map.mp hc
      exact (List.of_mem_zip (List.mem_of_mem_filter hx)).1

theorem AdaptLane.choice_le {a : AdaptLane} (h : a.entry ≤ 15) (k : a.candidates = peakingCodes a.entry) : a.choice ≤ 15 := by
  rcases a.choice_mem with e | e
  · rw [e]; exact h
  · rw [k] at e; exact peakingCodes_le h e

/-- Every peaking code a report in ADAPT sets is in range. -/
theorem AdaptLane.onReport_peaking {a : AdaptLane} (h : a.Ok) (m : Nat) :
    (∀ p, (a.onReport m).2 = .setPeaking p → p ≤ 15) ∧ ∀ p f, (a.onReport m).2 = .chosen p f → p ≤ 15 := by
  unfold AdaptLane.onReport
  split
  · simp
  · simp only
    split
    · rename_i q k
      refine ⟨fun p e => ?_, fun p f e => nomatch e⟩
      cases e
      have := List.mem_of_getElem? k
      rw [h.2.1] at this
      exact peakingCodes_le h.1 this
    · refine ⟨fun p e => (nomatch e), fun p f e => ?_⟩
      cases e
      exact AdaptLane.choice_le h.1 h.2.1
  · simp
  · simp

theorem AdaptLane.cutShort_le {a : AdaptLane} (h : a.Ok) {p : Nat} (hp : p ≤ 15) : (a.cutShort p).2 ≤ 15 := by
  unfold AdaptLane.cutShort
  split
  · split
    · exact h.1
    · exact AdaptLane.choice_le h.1 h.2.1
  · exact hp
  · exact hp

/-! ### The outbound queue and its holds (R147 to R151) -/

/-- A leg's record with its queue and holds moved, and no more than four places used. -/
structure Leg.Requeued (l m : Leg) : Prop where
  same : m = { l with queue := m.queue, overflow := m.overflow, statusHold := m.statusHold, laneHold := m.laneHold,
                      reportHold := m.reportHold, healthHold := m.healthHold }
  places : l.queue.length ≤ 4 → m.queue.length ≤ 4

theorem Leg.Requeued.refl (l : Leg) : l.Requeued l := ⟨rfl, id⟩

theorem Leg.Requeued.trans {l m n : Leg} (h : l.Requeued m) (k : m.Requeued n) : l.Requeued n :=
  ⟨by rw [k.same, h.same], fun q => k.places (h.places q)⟩

theorem Leg.Requeued.ok {l m : Leg} (h : l.Requeued m) (k : l.Ok) : m.Ok := by
  have q := h.places k.1
  rw [h.same]
  exact ⟨q, k.2⟩

theorem Leg.Requeued.window {l m : Leg} (h : l.Requeued m) : m.window = l.window := by rw [h.same]

theorem Leg.Requeued.state {l m : Leg} (h : l.Requeued m) : m.state = l.state := by rw [h.same]

theorem Leg.push_requeued (l : Leg) (i : Item) : l.Requeued (l.push i) := by
  rcases l.push_cases i with ⟨h, e⟩ | ⟨-, e⟩ <;> rw [e]
  · exact ⟨rfl, fun _ => by simp; omega⟩
  · exact .refl l

theorem Leg.queuePhase_requeued (l : Leg) (st : PhaseState) (a : Nat) (r : Rate) : l.Requeued (l.queuePhase st a r) := by
  unfold Leg.queuePhase Leg.hasRoom
  simp only
  split
  · exact ⟨rfl, by simp [replacePhase]⟩
  · split
    · exact ⟨rfl, id⟩
    · split
      · rename_i h
        exact ⟨rfl, fun _ => by simpa using h⟩
      · exact ⟨rfl, id⟩

theorem Leg.sendRequest_requeued (l : Leg) (role : Role) (i : WinIx) (q : TapRequest) : l.Requeued (l.sendRequest role i q) := by
  unfold Leg.sendRequest
  split
  · exact l.push_requeued _
  · exact ⟨rfl, id⟩

theorem Leg.queueStatus_requeued (l : Leg) (t : TapStatus) : l.Requeued (l.queueStatus t) := by
  unfold Leg.queueStatus
  split
  · exact l.push_requeued _
  · exact ⟨rfl, id⟩

theorem Leg.queueReport_requeued (l : Leg) (i : Item) : l.Requeued (l.queueReport i) := by
  unfold Leg.queueReport
  split
  · exact l.push_requeued _
  · exact ⟨rfl, id⟩

theorem Leg.queueRetrain_requeued (l : Leg) : l.Requeued l.queueRetrain := by
  unfold Leg.queueRetrain
  split
  · exact .refl l
  · split
    · exact l.push_requeued _
    · exact ⟨rfl, id⟩

theorem Leg.flushed_requeued (l : Leg) : l.Requeued l.flushed := ⟨rfl, fun _ => by simp [Leg.flushed]⟩

/-- What enters a free place next comes out of one of the holds, and nothing else of the leg moves. -/
theorem Leg.nextHeld_same {l m : Leg} {role : Role} {i : Item} (h : l.nextHeld role = some (i, m)) :
    m = { l with overflow := m.overflow, statusHold := m.statusHold, laneHold := m.laneHold, reportHold := m.reportHold,
                 healthHold := m.healthHold } := by
  have lane (h : l.firstLaneHeld role = some (i, m)) : m = { l with laneHold := m.laneHold } := by
    obtain ⟨j, -, e⟩ := List.exists_of_findSome?_eq_some h
    obtain ⟨q, -, e⟩ := Option.map_eq_some_iff.mp e
    cases e; rfl
  have status (h : l.firstStatusHeld = some (i, m)) : m = { l with statusHold := m.statusHold } := by
    obtain ⟨j, -, e⟩ := List.exists_of_findSome?_eq_some h
    obtain ⟨q, -, e⟩ := Option.map_eq_some_iff.mp e
    cases e; rfl
  cases role with
  | hubRole =>
    unfold Leg.nextHeld at h
    cases o : l.overflow with
    | some x => rw [o] at h; cases h; rfl
    | none =>
      rw [o] at h
      rcases Option.or_eq_some_iff.mp h with k | ⟨-, k⟩
      · rw [status k]
      · rw [lane k]
  | endRole =>
    unfold Leg.nextHeld at h
    cases o : l.healthHold with
    | true => rw [o] at h; cases h; rfl
    | false =>
      rw [o] at h
      cases r : l.reportHold with
      | some x => rw [r] at h; cases h; rfl
      | none =>
        rw [r] at h
        rw [lane h]

theorem Leg.fillHolds_requeued (role : Role) (n : Nat) (l : Leg) : l.Requeued (Leg.fillHolds role n l) := by
  induction n generalizing l with
  | zero => exact .refl l
  | succ n ih =>
    unfold Leg.fillHolds
    split
    · rename_i room
      split
      · rename_i i m h
        have same := Leg.nextHeld_same h
        refine Leg.Requeued.trans ⟨?_, fun _ => ?_⟩ (ih _)
        · rw [same]
        · have : l.queue.length < 4 := by simpa [Leg.hasRoom] using room
          rw [same]
          simpa using this
      · exact .refl l
    · exact .refl l

theorem Leg.popped_requeued (l : Leg) (role : Role) : l.Requeued (l.popped role) :=
  Leg.Requeued.trans (m := { l with queue := l.queue.tail }) ⟨rfl, fun h => by simp; omega⟩ (Leg.fillHolds_requeued role 4 _)

theorem Leg.withdrawn_requeued (l : Leg) (role : Role) : l.Requeued (l.withdrawn role) :=
  Leg.Requeued.trans
    (m := { l with queue := l.queue.filter (fun i => !i.ofTraining), laneHold := emptyLaneHold, reportHold := none })
    ⟨rfl, fun h => (List.length_filter_le _ _).trans h⟩ (Leg.fillHolds_requeued role 4 _)

theorem Leg.keptAlive_ok {l : Leg} (h : l.Ok) : l.keptAlive.Ok := by
  have k : ({ l with keepalive := l.keepalive.map (fun due => due + 5000#32) } : Leg).Ok := h
  unfold Leg.keptAlive
  simp only
  split
  · exact k
  · exact (Leg.push_requeued _ _).ok k

theorem Leg.keptAlive_place (l : Leg) : l.keptAlive.window = l.window ∧ l.keptAlive.state = l.state := by
  unfold Leg.keptAlive
  simp only
  split
  · exact ⟨rfl, rfl⟩
  · exact ⟨(Leg.push_requeued _ _).window, (Leg.push_requeued _ _).state⟩

/-! ### Entries to a state (R22) -/

/-- An entry drops the adaptation tally, so the record before it may hold any (R83). -/
theorem Leg.entered_ok {l : Leg} (h : ({ l with adapt := none } : Leg).Ok) (role : Role) (new : LegState) (a : Option Nat)
    (now : Time) : (l.entered role new a now).Ok := h

theorem Leg.Ok.withoutAdapt {l : Leg} (h : l.Ok) : ({ l with adapt := none } : Leg).Ok := by
  obtain ⟨h1, h2, h3, h4, h5, h6, h7, h8, h9, h10, -⟩ := h
  exact ⟨h1, h2, h3, h4, h5, h6, h7, h8, h9, h10, fun _ e => nomatch e⟩

theorem Lane.entered_ok {l : Lane} (h : l.Ok) (new : LegState) : (l.entered new).Ok := by
  obtain ⟨ht, hf, hp, hd, hd', hb, hm, -⟩ := h
  refine ⟨ht, hf, hp, hd, hd', ?_, hm, fun _ e => nomatch e⟩
  simp only [Lane.entered]
  split
  · exact hb
  · exact Nat.zero_le 3

end Sys2Proof.Machine
end

