-- ==== Sys2Proof/Proofs/LegActs.lean ====
section
/-! SUPPORT. Every operation of the leg controller and the training engine acts on its own leg (`State.Acts`): one lemma for each,
in the order of the definitions. -/

open Sys2Proof Sys2Proof.Machine

namespace Sys2Proof.Machine

/-! ### Ways to compose -/

theorem State.Acts.ite {s t u : State} {g : LegId} {p : Prop} [Decidable p] (h : s.Acts g t) (k : s.Acts g u) :
    s.Acts g (if p then t else u) := by
  split
  · exact h
  · exact k

theorem State.acts_foldl {α : Type} (g : LegId) (f : State → α → State) (h : ∀ (s : State) (a : α), s.Acts g (f s a)) (l : List α) (s : State) :
    s.Acts g (l.foldl f s) := by
  induction l generalizing s with
  | nil => exact .refl s g
  | cons a l ih => exact (h s a).trans (ih _)

/-- The leg's queue and holds move. -/
theorem State.acts_requeue (s : State) (g : LegId) (f : Leg → Leg) (h : ∀ l : Leg, l.Requeued (f l)) :
    s.Acts g (s.modLeg g f) := s.acts_setLeg g f fun l => ⟨(h l).window, (h l).state, (h l).ok⟩

/-! ### The entry to a state (R22) -/

/-- An entry needs the adaptation tally before it in no range, since it drops it (R83). -/
theorem State.enter_inRange {s : State} {g : LegId} (lanes : ∀ c, (s.lane c).Ok) (others : ∀ k, k ≠ g → (s.leg k).Ok)
    (own : ({ s.leg g with adapt := none } : Leg).Ok) (cable : s.cable.Ok) (new : LegState) (cause : LegCause) (a : Option Nat) :
    (s.enter g new cause a).InRange := by
  refine ⟨fun c => ?_, fun k => ?_, cable⟩
  · rw [State.enter_lane]
    split
    · exact Lane.entered_ok (lanes c) new
    · exact lanes c
  · rw [State.enter_leg]
    split
    · exact Leg.entered_ok own _ _ _ _
    · rename_i hk; exact others k hk

/-- With the windows disjoint, an entry sets the path of exactly the lanes whose leg it moves (R8). -/
theorem State.enter_windowsOk {s : State} (h : s.WindowsOk) (g : LegId) (new : LegState) (cause : LegCause) (a : Option Nat) :
    (s.enter g new cause a).WindowsOk := by
  obtain ⟨absent, legal, disjoint, agree⟩ := h
  have window (k : LegId) : ((s.enter g new cause a).leg k).window = (s.leg k).window := by
    rw [State.enter_leg]
    split
    · rename_i e; subst e; rfl
    · rfl
  have inside {w : Window} (hw : (s.leg g).window = some w) (c : LaneId) : (s.winLanes g).contains c ↔ ∃ i, w.indexOf c = some i := by
    rw [List.contains_iff_mem, State.winLanes_of_window hw, Window.mem_lanes_iff_indexOf]
  refine ⟨fun b k => ?_, fun k w hw => ?_, fun k j kj w hw v hv => ?_, fun c => ⟨fun k w hw i hi => ?_, fun none => ?_⟩⟩
  · rw [window]; exact absent b k
  · rw [window] at hw; exact legal k w hw
  · rw [window] at hw hv; exact disjoint k j kj w hw v hv
  · rw [window] at hw
    obtain ⟨owner, host, path⟩ := (agree c).1 k w hw i hi
    rw [State.enter_lane, State.enter_leg]
    by_cases hk : k = g
    · subst hk
      rw [if_pos ((inside hw c).mpr ⟨i, hi⟩), if_pos rfl]
      exact ⟨owner, host, rfl⟩
    · have out : ¬(s.winLanes g).contains c := by
        cases hg : (s.leg g).window with
        | none => simp [State.winLanes, hg]
        | some v =>
          rw [inside hg]
          rintro ⟨j, hj⟩
          have := (Window.overlaps_eq_false.mp (disjoint k g hk w hw v hg)).1 c (Window.mem_lanes_iff_indexOf.mpr ⟨i, hi⟩)
          exact this (Window.mem_lanes_iff_indexOf.mpr ⟨j, hj⟩)
      rw [if_neg out, if_neg hk]
      exact ⟨owner, host, path⟩
  · simp only [window] at none
    have out : ¬(s.winLanes g).contains c := by
      cases hg : (s.leg g).window with
      | none => simp [State.winLanes, hg]
      | some v => rw [inside hg, none g v hg]; simp
    rw [State.enter_lane, if_neg out]
    exact (agree c).2 none

theorem State.enter_legFrame (s : State) (g : LegId) (new : LegState) (cause : LegCause) (a : Option Nat) :
    s.LegFrame g (s.enter g new cause a) := by
  refine ⟨rfl, rfl, rfl, rfl, rfl, fun k hk => ?_, ?_, fun c => ?_, fun c => ?_⟩
  · rw [State.enter_leg, if_neg hk]
  · rw [State.enter_leg, if_pos rfl]; rfl
  · rw [State.enter_lane]; split <;> exact ⟨rfl, rfl, rfl, rfl⟩
  · rw [State.enter_lane]; split <;> exact ⟨rfl, rfl⟩

theorem State.acts_enter (s : State) (g : LegId) (new : LegState) (cause : LegCause) (a : Option Nat) :
    s.Acts g (s.enter g new cause a) where
  toLegFrame := s.enter_legFrame g new cause a
  toKeeps :=
    ⟨fun h => State.enter_inRange h.1 (fun k _ => h.2.1 k) (h.2.1 g).withoutAdapt h.2.2 new cause a,
      fun h => State.enter_windowsOk h g new cause a⟩

/-! ### Queue, timers and flush -/

theorem State.acts_queuePhase (s : State) (g : LegId) (st : PhaseState) (n : Nat) : s.Acts g (s.queuePhase g st n) :=
  s.acts_requeue g _ fun l => l.queuePhase_requeued st n _

theorem State.acts_queueListen (s : State) (g : LegId) : s.Acts g (s.queueListen g) :=
  s.acts_requeue g _ fun l => l.queuePhase_requeued .listen 0 .l

theorem State.acts_startDeadline (s : State) (g : LegId) (us : Nat) : s.Acts g (s.startDeadline g us) :=
  s.acts_setLeg g _ fun _ => ⟨rfl, rfl, fun h => h⟩

theorem State.acts_flush (s : State) (g : LegId) : s.Acts g (s.flush g) := by
  have flushed : s.Acts g (s.modLeg g Leg.flushed) := s.acts_requeue g _ Leg.flushed_requeued
  unfold State.flush
  refine .ite (State.Acts.trans ?_ (State.acts_farReadDone _ g _ _)) ?_ <;>
    exact .ite flushed (flushed.trans (State.acts_of_eq g rfl))

/-! ### Receivers and searches -/

theorem LearnedEntry.forgotten_ok (t : Vector LearnedEntry 8) (c : LaneId) : (forgotten t)[c].Ok := by
  unfold forgotten
  rw [vec8_get]
  exact fun e => nomatch e

theorem Cable.claimed_ok {k : Cable} (h : k.Ok) : k.claimed.Ok := by
  unfold Cable.claimed
  split
  · exact h
  · obtain ⟨h1, h2, h3, h4, h5, -, h7⟩ := h
    exact ⟨h1, h2, h3, h4, h5, LearnedEntry.forgotten_ok _, h7⟩

theorem Cable.claimed_startup (k : Cable) : k.claimed.startup = k.startup := by
  unfold Cable.claimed
  split <;> rfl

theorem Cable.claimed_same (k : Cable) :
    k.claimed = { k with learned := k.claimed.learned, learnedSerial := k.claimed.learnedSerial } := by
  unfold Cable.claimed
  split <;> rfl

/-- Every peaking and d1 an opening request sets is in range: a learned entry's or (7, 0) (R69). -/
theorem State.opening_range {s : State} (h : s.InRange) (g : LegId) (i : WinIx) {x : Nat × Int}
    (k : (s.opening g i).2 = some x) : x.1 ≤ 15 ∧ -31 ≤ x.2 ∧ x.2 ≤ 31 := by
  have fixed (e : some ((7 : Nat), (0 : Int)) = some x) : x.1 ≤ 15 ∧ -31 ≤ x.2 ∧ x.2 ≤ 31 := by cases e; decide
  have learnedOk := h.2.2.2.2.2.2.2.1 (s.winLane g i)
  unfold State.opening at k
  simp only at k
  split at k
  · split at k
    · cases k
    · split at k
      · rename_i e
        cases k
        exact learnedOk e.1
      · exact fixed k
  · exact fixed k
  · exact fixed k
  · exact fixed k

theorem State.acts_openLane (s : State) (g : LegId) (i : WinIx) : s.Acts g (s.openLane g i) := by
  unfold State.openLane
  refine .trans ?_ (State.acts_requeue _ g _ fun l => l.sendRequest_requeued _ _ _)
  refine s.acts_modLane g _ _ rfl fun h => ?_
  obtain ⟨ht, hf, hp, hd, hd', hb, hm, -⟩ := h.1 (s.winLane g i)
  refine ⟨ht, hf, ?_, ?_, ?_, hb, hm, fun r e => ?_⟩
  · cases o : (s.opening g i).2 with
    | none => exact hp
    | some x => exact (State.opening_range h g i o).1
  · cases o : (s.opening g i).2 with
    | none => exact hd
    | some x => exact (State.opening_range h g i o).2.1
  · cases o : (s.opening g i).2 with
    | none => exact hd'
    | some x => exact (State.opening_range h g i o).2.2
  · cases e; exact Search.fresh_ok

theorem State.acts_startSearch (s : State) (g : LegId) : s.Acts g (s.startSearch g) := by
  unfold State.startSearch
  exact .after (State.acts_setLeg _ g _ fun _ => ⟨rfl, rfl, fun h => h⟩)
    (State.acts_foldl g _ (fun s i => s.acts_openLane g i) _ s)

theorem State.acts_startAdapt (s : State) (g : LegId) : s.Acts g (s.startAdapt g) := by
  unfold State.startAdapt
  refine (s.acts_modLeg g _ rfl rfl fun h => ?_).trans (State.acts_modWindow _ g _ (fun _ => rfl) fun l h => ?_)
  · obtain ⟨h1, h2, h3, h4, h5, h6, h7, h8, h9, h10, -⟩ := h.2.1 g
    refine ⟨h1, h2, h3, h4, h5, h6, h7, h8, h9, h10, fun v e i => ?_⟩
    cases e
    rw [vec8_get]
    exact AdaptLane.start_ok (h.1 _).2.2.1
  · obtain ⟨ht, hf, hp, rest⟩ := h
    refine ⟨ht, hf, ?_, rest⟩
    simp only [peakingCodes_head hp]
    omega

theorem State.acts_startVerify (s : State) (g : LegId) : s.Acts g (s.startVerify g) :=
  s.acts_setLeg g _ fun _ => ⟨rfl, rfl, fun h => h⟩

theorem State.acts_handOver (s : State) (g : LegId) : s.Acts g (s.handOver g) where
  toLegFrame := by
    refine ⟨rfl, rfl, rfl, rfl, ?_, fun _ _ => rfl, rfl, fun _ => ⟨rfl, rfl, rfl, rfl⟩, fun _ => ⟨rfl, rfl⟩⟩
    simp only [State.handOver]
    rw [s.cable.claimed_same]
  toKeeps := by
    refine .trans (t := { s with cable := (s.handOver g).cable }) (.of_cable ?_ fun h => ?_) (.of_eq rfl rfl rfl rfl)
    · intro b
      rw [← s.cable.claimed_startup]
      exact b
    · obtain ⟨h1, h2, h3, h4, h5, h6, h7⟩ := Cable.claimed_ok h.2.2
      refine ⟨h1, h2, h3, h4, h5, fun c => ?_, h7⟩
      simp only [State.handOver, vec8_get]
      split
      · obtain ⟨-, -, hp, hd, hd', -⟩ := h.1 c
        exact fun _ => ⟨hp, hd, hd'⟩
      · exact h6 c

/-! ### Entries the HUB leads (R25 to R40) -/

theorem State.acts_enterProbe (s : State) (g : LegId) : s.Acts g (s.enterProbe g) := by
  unfold State.enterProbe
  exact (s.acts_enter g _ _ _).trans (State.acts_requeue _ g _ fun l => l.push_requeued _)

theorem State.acts_checkListen (s : State) (g : LegId) : s.Acts g (s.checkListen g) := .ite (s.acts_enterProbe g) (.refl s g)

theorem State.acts_checkProbeWait (s : State) (g : LegId) : s.Acts g (s.checkProbeWait g) :=
  .ite (s.acts_setLeg g _ fun _ => ⟨rfl, rfl, fun h => h⟩) (.refl s g)

theorem State.acts_retrains (s : State) (g : LegId) (n : Nat) (h : n ≤ 3) (hold : Option Time) :
    s.Acts g (s.modLeg g (fun l => { l with retrains := n, holdoff := hold })) := by
  refine s.acts_setLeg g _ fun l => ⟨rfl, rfl, fun k => ?_⟩
  obtain ⟨h1, -, rest⟩ := k
  exact ⟨h1, h, rest⟩

theorem State.acts_enterListen (s : State) (g : LegId) (cause : LegCause) (holdoff phase : Bool) :
    s.Acts g (s.enterListen g cause holdoff phase) := by
  have upToHoldoff := ((s.acts_enter g .listen cause none).trans (State.acts_flush _ g)).trans
    (State.acts_retrains _ g 0 (Nat.zero_le 3) (if holdoff then some (s.after 100000) else none))
  unfold State.enterListen
  refine State.Acts.trans ?_ ((State.acts_checkListen _ g).trans (State.acts_checkProbeWait _ g))
  exact .ite (upToHoldoff.trans (State.acts_queueListen _ g)) upToHoldoff

theorem State.acts_errCount (s : State) (g : LegId) (n : Nat) (h : n ≤ 255) :
    s.Acts g (s.modLeg g (fun l => { l with errCount := n })) := by
  refine s.acts_setLeg g _ fun l => ⟨rfl, rfl, fun k => ?_⟩
  obtain ⟨h1, h2, -, rest⟩ := k
  exact ⟨h1, h2, h, rest⟩

theorem State.acts_enterFault (s : State) (g : LegId) (why : FaultReason) : s.Acts g (s.enterFault g why) := by
  unfold State.enterFault
  refine .ite (.refl s g) ?_
  refine .after (State.acts_post _ g _ _ _) (.after (State.acts_flush _ g)
    (.after (State.acts_setLeg _ g _ fun l => ⟨rfl, rfl, fun k => ?_⟩) (s.acts_enter g _ _ _)))
  obtain ⟨h1, h2, h3, h4, -, rest⟩ := k
  exact ⟨h1, h2, h3, h4, Nat.min_le_left _ _, rest⟩

theorem State.acts_enterTrain (s : State) (g : LegId) (cause : LegCause) (n : Nat) : s.Acts g (s.enterTrain g cause n) := by
  unfold State.enterTrain
  exact ((((((s.acts_enter g _ _ _).trans (State.acts_errCount _ g 0 (Nat.zero_le 255))).trans (State.acts_flush _ g)).trans
    (State.acts_queuePhase _ g _ _)).trans (State.acts_startSearch _ g)).trans (State.acts_startDeadline _ g _))

theorem State.acts_enterAdapt (s : State) (g : LegId) : s.Acts g (s.enterAdapt g) :=
  (((s.acts_enter g _ _ _).trans (State.acts_queuePhase _ g _ _)).trans (State.acts_startDeadline _ g _)).trans
    (State.acts_startAdapt _ g)

theorem State.acts_enterVerify (s : State) (g : LegId) : s.Acts g (s.enterVerify g) :=
  (((s.acts_enter g _ _ _).trans (State.acts_queuePhase _ g _ _)).trans (State.acts_startDeadline _ g _)).trans
    (State.acts_startVerify _ g)

theorem State.acts_enterUp (s : State) (g : LegId) : s.Acts g (s.enterUp g) :=
  .after (State.acts_queuePhase _ g _ _) (.after (State.acts_handOver _ g)
    (.after (State.acts_setLeg _ g _ fun _ => ⟨rfl, rfl, fun h => h⟩) (s.acts_enter g _ _ _)))

theorem State.acts_attemptFails (s : State) (g : LegId) (cause : LegCause) : s.Acts g (s.attemptFails g cause) :=
  .ite (s.acts_enterTrain g _ _) (.ite (s.acts_enterTrain g _ _) (s.acts_enterFault g _))

theorem State.acts_retrain (s : State) (g : LegId) : s.Acts g (s.retrain g) := by
  unfold State.retrain
  split
  · rename_i below
    refine (s.acts_modLeg g _ rfl rfl fun h => ?_).trans (State.acts_enterTrain _ g _ _)
    obtain ⟨h1, -, rest⟩ := h.2.1 g
    exact ⟨h1, below, rest⟩
  · exact s.acts_enterFault g _

theorem State.acts_decideVerify (s : State) (g : LegId) : s.Acts g (s.decideVerify g).1 := by
  unfold State.decideVerify
  split
  · exact .ite (s.acts_enterUp g) (s.acts_attemptFails g _)
  · exact .refl s g

theorem State.acts_checkTrained (s : State) (g : LegId) : s.Acts g (s.checkTrained g).1 := by
  unfold State.checkTrained
  split
  · exact s.acts_enterAdapt g
  · exact .refl s g

/-! ### The training engine's results (R66 to R85) -/

theorem State.acts_laneFails (s : State) (g : LegId) : s.Acts g (s.laneFails g).1 := by
  unfold State.laneFails
  split
  · exact s.acts_attemptFails g _
  · exact .refl s g

theorem State.acts_laneDone (s : State) (g : LegId) (c : LaneId) : s.Acts g (s.laneDone g c).1 := by
  unfold State.laneDone
  split
  · exact s.acts_laneFails g
  · split
    · split
      · exact .after (State.acts_checkTrained _ g) (s.acts_setLeg g _ fun _ => ⟨rfl, rfl, fun h => h⟩)
      · exact s.acts_requeue g _ fun l => l.queueReport_requeued _
    · exact .refl s g

theorem State.acts_searchOut (s : State) (g : LegId) (i : WinIx) (o : SearchOut) : s.Acts g (s.searchOut g i o).1 := by
  cases o with
  | quiet => exact .refl s g
  | send q => exact s.acts_requeue g _ fun l => l.sendRequest_requeued _ _ _
  | finished => exact s.acts_laneDone g _
  | failed => exact s.acts_laneFails g

theorem State.acts_moveSearch (s : State) (g : LegId) (i : WinIx) (f : Search → Search × SearchOut)
    (ok : ∀ r : Search, r.Ok → (f r).1.Ok) : s.Acts g (s.moveSearch g i f).1 := by
  unfold State.moveSearch
  split
  · exact .refl s g
  · rename_i r hr
    refine .after (State.acts_searchOut _ g i _) (s.acts_modLane g _ _ rfl fun h => ?_)
    obtain ⟨ht, hf, hp, hd, hd', hb, hm, search⟩ := h.1 (s.winLane g i)
    refine ⟨ht, hf, hp, hd, hd', hb, hm, fun r' e => ?_⟩
    cases e
    exact ok r (search r hr)

theorem State.acts_takeResult (s : State) (g : LegId) (i : WinIx) (res : ReqResult) : s.Acts g (s.takeResult g i res) := by
  unfold State.takeResult
  exact .ite ((s.acts_moveSearch g i _ fun r h => Search.onResult_ok h _ res).trans (State.acts_of_eq g rfl)) (.refl s g)

theorem State.acts_reportTrain (s : State) (g : LegId) (i : WinIx) {m : Nat} (h : m ≤ 508) : s.Acts g (s.reportTrain g i m).1 :=
  s.acts_moveSearch g i _ fun _ k => Search.onReport_ok k h

/-- A lane's tally moves as R81 says. -/
theorem State.acts_tally (s : State) (g : LegId) (i : WinIx) {v : Vector AdaptLane 8} (hv : (s.leg g).adapt = some v) (m : Nat) :
    s.Acts g (s.modLeg g (fun l => { l with adapt := some (v.set i.val (v[i].onReport m).1 i.isLt) })) := by
  refine s.acts_modLeg g _ rfl rfl fun h => ?_
  obtain ⟨h1, h2, h3, h4, h5, h6, h7, h8, h9, h10, tally⟩ := h.2.1 g
  refine ⟨h1, h2, h3, h4, h5, h6, h7, h8, h9, h10, fun u e j => ?_⟩
  cases e
  by_cases hij : i = j
  · subst hij
    simpa using AdaptLane.onReport_ok (tally v hv i) m
  · have hn : i.val ≠ j.val := fun e => hij (Fin.ext e)
    simpa [Vector.getElem_set, hn] using tally v hv j

theorem State.acts_peaking (s : State) (g : LegId) (c : LaneId) (p : Nat) (h : s.InRange → p ≤ 15) :
    s.Acts g (s.modLane c (fun l => { l with peaking := p })) := by
  refine s.acts_modLane g c _ rfl fun r => ?_
  obtain ⟨ht, hf, -, rest⟩ := r.1 c
  exact ⟨ht, hf, h r, rest⟩

theorem State.acts_d1 (s : State) (g : LegId) (c : LaneId) (r d : Int) :
    s.Acts g (s.modLane c (fun l => { l with d1 := updateD1 l.d1 r d })) := by
  refine s.acts_modLane g c _ rfl fun h => ?_
  obtain ⟨ht, hf, hp, -, -, rest⟩ := h.1 c
  exact ⟨ht, hf, hp, (updateD1_range _ r d).1, (updateD1_range _ r d).2, rest⟩

/-- A tally's move with the peaking it sets, in range as the tally before the move is. -/
theorem State.acts_tallyPeaking (s : State) (g : LegId) (i : WinIx) {v : Vector AdaptLane 8} (hv : (s.leg g).adapt = some v)
    (m p : Nat) (c : LaneId) (hp : v[i].Ok → p ≤ 15) :
    s.Acts g ((s.modLeg g (fun l => { l with adapt := some (v.set i.val (v[i].onReport m).1 i.isLt) })).modLane c
      (fun l => { l with peaking := p })) :=
  (s.acts_peaking g c p fun h => hp ((h.2.1 g).2.2.2.2.2.2.2.2.2.2 v hv i)).trans
    (State.acts_tally (s.modLane c _) g i hv m)

theorem State.acts_reportAdapt (s : State) (g : LegId) (i : WinIx) (m : Nat) (r : Int) : s.Acts g (s.reportAdapt g i m r).1 := by
  unfold State.reportAdapt
  split
  · exact .refl s g
  · rename_i v hv
    have moved := s.acts_tally g i hv m
    dsimp only
    split
    · exact moved
    · rename_i p e
      exact s.acts_tallyPeaking g i hv m p _ fun h => (AdaptLane.onReport_peaking h m).1 p e
    · rename_i p failed e
      have chosen := s.acts_tallyPeaking g i hv m p (s.winLane g i) fun h => (AdaptLane.onReport_peaking h m).2 p failed e
      split
      · exact chosen.trans (State.acts_laneFails _ g)
      · exact chosen
    · have measured := moved.trans (State.acts_d1 _ g (s.winLane g i) r 4)
      split
      · exact measured.trans (State.acts_enterVerify _ g)
      · exact measured

theorem State.acts_reportVerify (s : State) (g : LegId) (i : WinIx) (bad : Bool) : s.Acts g (s.reportVerify g i bad).1 := by
  unfold State.reportVerify
  split
  · exact .refl s g
  · rename_i v hv
    have moved : s.Acts g (s.modLeg g (fun l => { l with verify := some (v.set i.val (v[i].onReport bad) i.isLt) })) :=
      s.acts_setLeg g _ fun _ => ⟨rfl, rfl, fun h => h⟩
    dsimp only
    split
    · split
      · exact .after (State.acts_decideVerify _ g) (.after (State.acts_setLeg _ g _ fun _ => ⟨rfl, rfl, fun h => h⟩) moved)
      · exact moved.trans (State.acts_requeue _ g _ fun l => l.queueReport_requeued _)
    · exact moved

theorem State.acts_handReport (s : State) (g : LegId) (c : LaneId) (rep : Report) : s.Acts g (s.handReport g c rep).1 := by
  unfold State.handReport
  split
  · exact .refl s g
  · split
    · exact s.acts_reportTrain g _ rep.merit_le
    · exact s.acts_reportAdapt g _ _ _
    · exact s.acts_reportVerify g _ _
    · exact s.acts_d1 g c _ 8
    · exact s.acts_d1 g c _ 8
    · exact .refl s g

/-! ### Link health (R93 to R101) -/

theorem State.acts_checkHealth (s : State) (g : LegId) : s.Acts g (s.checkHealth g) := by
  unfold State.checkHealth
  exact .ite ((s.acts_enter g _ _ _).trans (State.acts_post _ g _ _ _)) (.ite (s.acts_enter g _ _ _) (.refl s g))

theorem State.acts_counterTop (s : State) (g : LegId) : s.Acts g (s.counterTop g) := by
  have zeroed := s.acts_errCount g 0 (Nat.zero_le 255)
  unfold State.counterTop
  exact .ite (zeroed.trans (State.acts_retrain _ g)) (zeroed.trans (State.acts_requeue _ g _ Leg.queueRetrain_requeued))

theorem countSet_le {n m : Nat} {bad : Bool} (h : countSet n bad = some m) (k : n ≤ 255) : m ≤ 255 := by
  unfold countSet at h
  split at h
  · split at h
    · cases h; omega
    · cases h
  · cases h; omega

theorem State.acts_countHealth (s : State) (g : LegId) (bad : Bool) : s.Acts g (s.countHealth g bad) := by
  unfold State.countHealth
  split
  · rename_i n h
    refine (s.acts_modLeg g _ rfl rfl fun r => ?_).trans (State.acts_checkHealth _ g)
    obtain ⟨h1, h2, h3, rest⟩ := r.2.1 g
    exact ⟨h1, h2, countSet_le h h3, rest⟩
  · exact s.acts_counterTop g

theorem State.acts_joinSet (s : State) (g : LegId) (c : LaneId) (rep : Report) : s.Acts g (s.joinSet g c rep) := by
  have joined : s.Acts g (s.modLeg g (fun l => { l with reportSet := l.reportSet.set c.val (some rep) c.isLt })) :=
    s.acts_setLeg g _ fun _ => ⟨rfl, rfl, fun h => h⟩
  unfold State.joinSet
  refine .ite (joined.trans ?_) joined
  have counted (t : State) (n : Nat) (h : n ≤ 508) :
      t.Acts g (t.modLeg g (fun l => { l with aggMerit := n, reportSet := emptySet })) := by
    refine t.acts_setLeg g _ fun l => ⟨rfl, rfl, fun k => ?_⟩
    obtain ⟨h1, h2, h3, -, rest⟩ := k
    exact ⟨h1, h2, h3, h, rest⟩
  exact .ite ((counted _ _ (lowestMerit_le _)).trans (State.acts_countHealth _ g _)) (counted _ _ (lowestMerit_le _))

/-! ### Presence (R13 to R15, R28, R38, R44, R45, R117) -/

theorem State.acts_wakeEvent (s : State) (g : LegId) (c : LaneId) : s.Acts g (s.wakeEvent g c) := by
  have told := (s.acts_setLeg g (fun l => { l with wakePending := true }) fun _ => ⟨rfl, rfl, fun h => h⟩).trans
    (State.acts_post _ g .wake (some g) [byteOf c.val, boolByte (s.leg g).autoWake])
  unfold State.wakeEvent
  exact .ite (told.trans (State.acts_enterListen _ g _ _ _)) told

theorem State.acts_lanePresent (s : State) (g : LegId) (c : LaneId) : s.Acts g (s.lanePresent g c) := by
  unfold State.lanePresent
  split
  · exact (s.acts_checkListen g).trans (State.acts_checkProbeWait _ g)
  · exact s.acts_wakeEvent g c
  · exact .refl s g

theorem State.acts_hubSignalLoss (s : State) (g : LegId) : s.Acts g (s.hubSignalLoss g) := by
  unfold State.hubSignalLoss
  split <;> first | exact s.acts_enterListen g _ _ _ | exact .refl s g

theorem State.acts_endSignalLoss (s : State) (g : LegId) : s.Acts g (s.endSignalLoss g) := by
  unfold State.endSignalLoss
  split
  · exact .refl s g
  · exact .refl s g
  · exact .refl s g
  · exact s.acts_setLeg g _ fun _ => ⟨rfl, rfl, fun h => h⟩
  · exact s.acts_enterListen g _ _ _

theorem State.acts_presenceChange (s : State) (g : LegId) (c : LaneId) (p : Presence) : s.Acts g (s.presenceChange g c p) := by
  cases p with
  | absent => exact .ite (s.acts_hubSignalLoss g) (s.acts_endSignalLoss g)
  | present => exact s.acts_lanePresent g c

theorem State.acts_debounce (s : State) (g : LegId) (c : LaneId) (p : Presence) {n : Nat} (h : n ≤ 3) :
    s.Acts g (s.modLane c (fun l => { l with presence := p, debounce := n })) := by
  refine s.acts_modLane g c _ rfl fun r => ?_
  obtain ⟨ht, hf, hp, hd, hd', -, rest⟩ := r.1 c
  exact ⟨ht, hf, hp, hd, hd', h, rest⟩

theorem State.acts_takeReading (s : State) (g : LegId) (c : LaneId) (signal : Bool) : s.Acts g (s.takeReading g c signal) := by
  unfold State.takeReading
  dsimp only
  split
  · exact s.acts_debounce g c (s.lane c).presence (Nat.zero_le 3)
  · split
    · rename_i below
      exact s.acts_debounce g c (s.lane c).presence (n := (s.lane c).debounce + 1) below
    · exact (s.acts_debounce g c _ (Nat.zero_le 3)).trans (State.acts_presenceChange _ g c _)

/-! ### Probing, sideband loss and refusals (R29, R30, R39, R40, R44) -/

theorem State.acts_probeAck (s : State) (g : LegId) (d : Ident) : s.Acts g (s.probeAck g d) := by
  unfold State.probeAck
  refine .ite (.refl s g) (.ite (s.acts_enterFault g _) (.ite (s.acts_enterFault g _) ?_))
  split
  · exact s.acts_enterFault g _
  · rename_i cap _
    have identified : s.Acts g (s.modLeg g (fun l => { l with farId := some d, negRate := some (l.rateCap.lower cap) })) :=
      s.acts_setLeg g _ fun _ => ⟨rfl, rfl, fun h => h⟩
    exact (State.Acts.ite identified (identified.trans (State.acts_post _ g _ _ _))).trans (State.acts_enterTrain _ g _ _)

theorem State.acts_probeRefused (s : State) (g : LegId) (why : RefuseReason) : s.Acts g (s.probeRefused g why) :=
  .ite (.refl s g) (s.acts_enterListen g _ _ _)

theorem State.acts_listenLost (s : State) (g : LegId) (cause : LegCause) (holdoff phase : Bool) :
    s.Acts g ((s.enterListen g cause holdoff phase).post .sidebandLost (some g) []) :=
  (s.acts_enterListen g cause holdoff phase).trans (State.acts_post _ g _ _ _)

theorem State.acts_probeFailed (s : State) (g : LegId) : s.Acts g (s.probeFailed g) :=
  .ite (.refl s g) (s.acts_listenLost g _ _ _)

theorem State.acts_markLost (s : State) (g : LegId) :
    s.Acts g ((s.modLeg g (fun l => { l with sbLost := true })).post .sidebandLost (some g) []) :=
  .after (State.acts_post _ g _ _ _) (s.acts_setLeg g _ fun _ => ⟨rfl, rfl, fun h => h⟩)

theorem State.acts_sidebandLost (s : State) (g : LegId) : s.Acts g (s.sidebandLost g) := by
  unfold State.sidebandLost
  split
  · exact s.acts_listenLost g _ _ _
  · exact s.acts_listenLost g _ _ _
  · exact s.acts_listenLost g _ _ _
  · exact s.acts_markLost g
  · exact s.acts_markLost g
  · exact s.acts_markLost g
  · exact s.acts_markLost g
  · exact s.acts_probeFailed g
  · exact s.acts_post g _ _ _
  · exact .refl s g
  · exact .refl s g

theorem State.acts_restoreSideband (s : State) (g : LegId) : s.Acts g (s.restoreSideband g) :=
  .ite (.after (State.acts_post _ g _ _ _) (s.acts_setLeg g _ fun _ => ⟨rfl, rfl, fun h => h⟩)) (.refl s g)

theorem State.acts_phaseRefused (s : State) (g : LegId) (st : PhaseState) : s.Acts g (s.phaseRefused g st) :=
  .ite (.refl s g) (s.acts_enterFault g _)

theorem State.acts_hubSilent (s : State) (g : LegId) : s.Acts g (s.hubSilent g) := by
  unfold State.hubSilent
  split
  · exact s.acts_listenLost g _ _ _
  · exact s.acts_listenLost g _ _ _
  · exact s.acts_listenLost g _ _ _
  · exact s.acts_listenLost g _ _ _
  · exact s.acts_markLost g
  · exact s.acts_markLost g
  · exact s.acts_markLost g
  · exact s.acts_markLost g
  · exact .refl s g
  · exact .refl s g
  · exact .refl s g

/-! ### Power requests at a HUB (R108 to R116) -/

theorem State.acts_standbyVerify (s : State) (g : LegId) (cause : LegCause) : s.Acts g (s.standbyVerify g cause) := by
  unfold State.standbyVerify
  exact .after (State.acts_startVerify _ g) (.after (State.acts_startDeadline _ g _) (.after (State.acts_queuePhase _ g _ _)
    (.after (State.acts_setLeg _ g _ fun _ => ⟨rfl, rfl, fun h => h⟩) (s.acts_enter g _ _ _))))

theorem State.acts_powerTaken (s : State) (g : LegId) (p : Power) (cause : LegCause) : s.Acts g (s.powerTaken g p cause) := by
  cases p with
  | active =>
    unfold State.powerTaken
    dsimp only
    split
    · exact s.acts_standbyVerify g cause
    · exact s.acts_enterListen g _ _ _
    · exact .refl s g
  | standby => exact (s.acts_enter g _ _ _).trans (State.acts_queuePhase _ g _ _)
  | sleep =>
    exact .ite (s.acts_enter g _ _ _) (.after (State.acts_queuePhase _ g _ _)
      (.after (State.acts_setLeg _ g _ fun _ => ⟨rfl, rfl, fun h => h⟩) (s.acts_enter g _ _ _)))

theorem State.acts_powerRequest (s : State) (g : LegId) (p : Power) (cause : LegCause) : s.Acts g (s.powerRequest g p cause) :=
  .ite (s.acts_powerTaken g p cause) (.refl s g)

theorem State.acts_drainedPower (s : State) (g : LegId) (code : Byte) : s.Acts g (s.drainedPower g code) := by
  unfold State.drainedPower
  split
  · exact (s.acts_powerRequest g _ _).trans (State.acts_post _ g _ _ _)
  · exact s.acts_post g _ _ _

theorem State.acts_drainedTrainDone (s : State) (g : LegId) (n : Nat) : s.Acts g (s.drainedTrainDone g n) := by
  unfold State.drainedTrainDone
  exact .ite (.after (State.acts_checkTrained _ g) (s.acts_setLeg g _ fun _ => ⟨rfl, rfl, fun h => h⟩)) (.refl s g)

theorem State.acts_drainedVerify (s : State) (g : LegId) (n : Nat) (pass : Bool) : s.Acts g (s.drainedVerify g n pass) := by
  unfold State.drainedVerify
  exact .ite (.after (State.acts_decideVerify _ g) (s.acts_setLeg g _ fun _ => ⟨rfl, rfl, fun h => h⟩)) (.refl s g)

theorem State.acts_drainedRetrain (s : State) (g : LegId) : s.Acts g (s.drainedRetrain g) :=
  .ite (s.acts_retrain g) (.refl s g)

/-! ### Following at an END (R41 to R45, R68, R115) -/

theorem State.acts_takeRate (s : State) (g : LegId) (r : Rate) : s.Acts g (s.takeRate g r) :=
  s.acts_setLeg g _ fun _ => ⟨rfl, rfl, fun h => h⟩

theorem State.acts_withdraw (s : State) (g : LegId) (role : Role) : s.Acts g (s.modLeg g (fun l => l.withdrawn role)) :=
  s.acts_requeue g _ fun l => l.withdrawn_requeued role

theorem State.acts_follow (s : State) (g : LegId) (new : LegState) (a : Option Nat) (r : Rate) : s.Acts g (s.follow g new a r) :=
  ((s.acts_enter g _ _ _).trans (State.acts_takeRate _ g r)).trans (State.acts_withdraw _ g _)

theorem State.acts_followTrain (s : State) (g : LegId) (n : Nat) (r : Rate) : s.Acts g (s.followTrain g n r) := by
  unfold State.followTrain
  refine .after (State.acts_startSearch _ g)
    (.after (State.acts_setLeg _ g _ fun l => ⟨rfl, rfl, fun h => ?_⟩) (s.acts_follow g _ _ _))
  obtain ⟨h1, h2, -, rest⟩ := h
  refine ⟨h1, ?_, Nat.zero_le 255, rest⟩
  dsimp only
  split
  · exact Nat.min_le_left _ _
  · exact h2

/-- Cutting an adaptation short moves receivers and the leg's own tally, and keeps every range but the tally's, which the
entry that follows drops (R83). -/
theorem State.cutShortAdapt_frame (s : State) (g : LegId) :
    s.LegFrame g (s.cutShortAdapt g) ∧ (s.WindowsOk → (s.cutShortAdapt g).WindowsOk)
      ∧ (s.InRange → (∀ c, ((s.cutShortAdapt g).lane c).Ok) ∧ (∀ k, k ≠ g → ((s.cutShortAdapt g).leg k).Ok)
          ∧ ({ (s.cutShortAdapt g).leg g with adapt := none } : Leg).Ok ∧ (s.cutShortAdapt g).cable.Ok) := by
  unfold State.cutShortAdapt
  split
  · exact ⟨.refl s g, id, fun h => ⟨h.1, fun k _ => h.2.1 k, (h.2.1 g).withoutAdapt, h.2.2⟩⟩
  · rename_i v hv
    dsimp only
    have receivers : s.Acts g (s.mapLanes (fun c l =>
        match ((s.leg g).window.bind (fun w => w.indexOf c)) with
        | some i => { l with peaking := (v[i].cutShort l.peaking).2 }
        | none => l)) := by
      refine s.acts_mapLanes g _ (fun c => ?_) fun h c => ?_
      · split <;> rfl
      · split
        · obtain ⟨ht, hf, hp, rest⟩ := h.1 c
          exact ⟨ht, hf, AdaptLane.cutShort_le ((h.2.1 g).2.2.2.2.2.2.2.2.2.2 v hv _) hp, rest⟩
        · exact h.1 c
    have tally (t : State) (u : Option (Vector AdaptLane 8)) : t.LegFrame g (t.modLeg g (fun l => { l with adapt := u }))
        ∧ t.SamePlaces (t.modLeg g (fun l => { l with adapt := u })) := by
      exact ⟨⟨rfl, rfl, rfl, rfl, rfl, fun _ hk => State.modLeg_leg_other t _ hk, by rw [State.modLeg_leg_same],
        fun _ => ⟨rfl, rfl, rfl, rfl⟩, fun _ => ⟨rfl, rfl⟩⟩, t.modLeg_samePlaces g _ rfl rfl⟩
    refine ⟨receivers.toLegFrame.trans (tally _ _).1, fun h => (tally _ _).2.windowsOk (receivers.windows h), fun h => ?_⟩
    obtain ⟨lanes, legs, cable⟩ := receivers.ranges h
    refine ⟨lanes, fun k hk => ?_, ?_, cable⟩
    · rw [State.modLeg_leg_other _ _ hk]; exact legs k
    · rw [State.modLeg_leg_same]; exact (legs g).withoutAdapt

theorem State.acts_followVerify (s : State) (g : LegId) (n : Nat) (r : Rate) : s.Acts g (s.followVerify g n r) := by
  obtain ⟨frame, windows, ranges⟩ := s.cutShortAdapt_frame g
  have entered : s.Acts g ((s.cutShortAdapt g).enter g .verify .phase (some n)) := by
    refine ⟨frame.trans (State.enter_legFrame _ g _ _ _), ⟨fun h => ?_, fun h => State.enter_windowsOk (windows h) g _ _ _⟩⟩
    obtain ⟨lanes, others, own, cable⟩ := ranges h
    exact State.enter_inRange lanes others own cable _ _ _
  exact ((entered.trans (State.acts_takeRate _ g r)).trans (State.acts_withdraw _ g _)).trans (State.acts_startVerify _ g)

theorem State.acts_followRun (s : State) (g : LegId) (r : Rate) : s.Acts g (s.followRun g r) := by
  unfold State.followRun
  exact .ite (.after (State.acts_handOver _ g) (.after (State.acts_setLeg _ g _ fun _ => ⟨rfl, rfl, fun h => h⟩)
    (s.acts_follow g _ _ _))) (s.acts_follow g _ _ _)

theorem State.acts_takePhase (s : State) (g : LegId) (st : PhaseState) (n : Nat) (r : Rate) :
    s.Acts g (s.takePhase g st n r) := by
  cases st with
  | train => exact s.acts_followTrain g n r
  | adapt => exact .after (State.acts_startAdapt _ g) (s.acts_follow g _ _ _)
  | verify => exact s.acts_followVerify g n r
  | run => exact s.acts_followRun g r
  | standby => exact .after (State.acts_takeRate _ g r) (s.acts_enter g _ _ _)
  | sleep =>
    unfold State.takePhase
    exact .after (State.acts_setLeg _ g _ fun _ => ⟨rfl, rfl, fun h => h⟩)
      (.after (State.acts_takeRate _ g r) (s.acts_enter g _ _ _))
  | listen => exact s.acts_enterListen g _ _ _

/-! ### Stopping a leg (R26, R134) -/

theorem State.acts_abandon (s : State) (g : LegId) : s.Acts g (s.abandon g) := by
  have dropped : s.Acts g { s with tx := none } := State.acts_of_eq g rfl
  unfold State.abandon
  split
  · split
    · split
      · exact dropped.trans (State.acts_farReadDone _ g _ _)
      · exact dropped
    · exact .refl s g
  · exact .refl s g

theorem State.acts_stopLeg (s : State) (g : LegId) (cause : LegCause) : s.Acts g (s.stopLeg g cause) := by
  unfold State.stopLeg
  refine .after (State.acts_setLeg _ g _ fun l => ⟨rfl, rfl, fun h => ?_⟩)
    (.after (State.acts_abandon _ g) (.after (State.acts_flush _ g) (s.acts_enter g _ _ _)))
  obtain ⟨h1, h2, h3, h4, h5, -, -, rest⟩ := h
  exact ⟨h1, h2, h3, h4, h5, Nat.zero_le 12, Nat.zero_le 2, rest⟩

end Sys2Proof.Machine
end

