-- ==== Sys2Proof/Proofs/Installing.lean ====
section
/-! SUPPORT. Installing windows (R4 to R6), by a request or from the factory image, and the ranges of what the cable memory
delivers (R164, R167). -/

open Sys2Proof Sys2Proof.Machine

namespace Sys2Proof.Machine

/-! ### One window installed -/

theorem State.installWindow_leg (s : State) (g k : LegId) (w : Window) :
    (s.installWindow g w).leg k = if k = g then { s.leg g with window := some w } else s.leg k :=
  State.modLeg_leg _ g k _

/-- Installing a legal window clear of the other legs' windows keeps windows and lane records in agreement (R4, R5, R8). -/
theorem State.installWindow_placed {s : State} (h : s.WindowsPlaced) {g : LegId} {w : Window} (legal : w.legal)
    (leg : s.hasLeg g) (clear : ∀ k, k ≠ g → ∀ v, (s.leg k).window = some v → w.overlaps v = false) :
    (s.installWindow g w).WindowsPlaced := by
  obtain ⟨legalOf, disjoint, agree⟩ := h
  have window (k : LegId) : ((s.installWindow g w).leg k).window = if k = g then some w else (s.leg k).window := by
    rw [State.installWindow_leg]; split <;> rfl
  have state (k : LegId) : ((s.installWindow g w).leg k).state = (s.leg k).state := by
    rw [State.installWindow_leg]
    split
    · rename_i e; rw [e]
    · rfl
  refine ⟨fun k v hv => ?_, fun k j kj v hv u hu => ?_, fun c => ⟨fun k v hv j hj => ?_, fun unheld => ?_⟩⟩
  · rw [window] at hv
    split at hv
    · rename_i e; subst e; cases hv; exact ⟨legal, leg⟩
    · exact legalOf k v hv
  · rw [window] at hv hu
    by_cases hk : k = g <;> by_cases hj : j = g <;> simp only [hk, hj, if_true, if_false, Option.some.injEq] at hv hu
    · exact absurd (hk.trans hj.symm) kj
    · subst hv; exact clear j hj u hu
    · subst hu; rw [Window.overlaps_comm]; exact clear k hk v hv
    · exact disjoint k j kj v hv u hu
  · rw [window] at hv
    rw [State.installWindow_lane, state, Lane.underWindow]
    split at hv
    · rename_i e; subst e; cases hv
      simp only [hj, and_self]
    · rename_i ne
      obtain ⟨owner, host, path⟩ := (agree c).1 k v hv j hj
      have apart := (Window.overlaps_eq_false.mp (clear k ne v hv)).1 c
      have out : w.indexOf c = none := Window.indexOf_eq_none.mpr fun hc => apart hc (Window.mem_lanes_iff_indexOf.mpr ⟨j, hj⟩)
      have notOurs : (s.lane c).owner ≠ some g := by rw [owner]; exact fun e => ne (Option.some.inj e)
      simp only [out, if_neg notOurs]
      exact ⟨owner, host, path⟩
  · have out : w.indexOf c = none := by
      refine unheld g w ?_
      rw [window, if_pos rfl]
    rw [State.installWindow_lane, Lane.underWindow, out]
    dsimp only
    split
    · exact ⟨rfl, rfl, rfl⟩
    · rename_i notOurs
      refine (agree c).2 fun k v hv => ?_
      by_cases e : k = g
      · subst e
        cases hi : v.indexOf c with
        | none => rfl
        | some i => exact absurd ((agree c).1 k v hv i hi).1 notOurs
      · refine unheld k v ?_
        rw [window, if_neg e]; exact hv

theorem Lane.underWindow_ok {l : Lane} (h : l.Ok) (g : LegId) (w : Window) (p : Path) (c : LaneId) :
    (l.underWindow g w p c).Ok := by
  unfold Lane.underWindow
  split
  · exact h
  · split
    · obtain ⟨ht, hf, hp, hd, hd', -, rest⟩ := h
      exact ⟨ht, hf, hp, hd, hd', Nat.zero_le 3, rest⟩
    · exact h

theorem State.installWindow_inRange {s : State} (h : s.InRange) (g : LegId) (w : Window) : (s.installWindow g w).InRange := by
  refine ⟨fun c => ?_, fun k => ?_, h.2.2⟩
  · rw [State.installWindow_lane]; exact Lane.underWindow_ok (h.1 c) _ _ _ _
  · rw [State.installWindow_leg]
    split
    · exact h.2.1 g
    · exact h.2.1 k

/-! ### The records of the factory image (R163, R164) -/

theorem natAt_lt (bs : List Byte) (k : Nat) : natAt bs k < 256 := (bs.getD k 0).isLt

theorem nat16At_le (bs : List Byte) (k : Nat) : nat16At bs k ≤ 65535 := by
  have := natAt_lt bs k
  have := natAt_lt bs (k + 1)
  unfold nat16At
  omega

/-- The accepted records are in range: loadable presets, thresholds, and legal windows. -/
def Accepted.Ok (a : Accepted) : Prop :=
  (∀ p, a.presets = some p → ∀ n : Fin 8, loadable p[n].pre p[n].post)
    ∧ (∀ t, a.thresholds = some t → t.l.Ok ∧ t.m.Ok ∧ t.h.Ok ∧ t.presence ≤ 63)
    ∧ ∀ ds, a.defaults = some ds → ∀ d ∈ ds, d.window.legal

theorem parsePresets_ok {d : List Byte} {p : Vector Preset 8} (h : parsePresets d = some p) (n : Fin 8) :
    loadable p[n].pre p[n].post := by
  unfold parsePresets at h
  split at h
  · rename_i k
    cases h
    rw [vec8_get]
    exact List.all_eq_true.mp k.2 n (mem_allLanes n)
  · cases h

theorem parseThresholds_ok {d : List Byte} {t : ThresholdTable} (h : parseThresholds d = some t) :
    t.l.Ok ∧ t.m.Ok ∧ t.h.Ok ∧ t.presence ≤ 63 := by
  unfold parseThresholds at h
  split at h
  · rename_i k
    obtain ⟨-, l, m, h', p⟩ := k
    cases h
    exact ⟨⟨nat16At_le _ _, l⟩, ⟨nat16At_le _ _, m⟩, ⟨nat16At_le _ _, h'⟩, p⟩
  · cases h

theorem parseLegDefault_legal {d : List Byte} {k : Nat} {e : LegDefault} (h : parseLegDefault d k = some e) : e.window.legal := by
  unfold parseLegDefault at h
  dsimp only at h
  split at h
  · split at h
    · split at h
      · cases h; assumption
      · cases h
    · cases h
  · cases h

theorem parseLegDefaults_legal {d : List Byte} {es : List LegDefault} (h : parseLegDefaults d = some es) :
    ∀ e ∈ es, e.window.legal := by
  unfold parseLegDefaults at h
  dsimp only at h
  split at h
  · cases h
    intro e he
    simp only [List.mem_filterMap, List.mem_map, id_eq] at he
    obtain ⟨o, ⟨k, -, hk⟩, ho⟩ := he
    exact parseLegDefault_legal (hk.trans ho)
  · cases h

/-- Every record taken leaves the accepted ones in range. -/
theorem takeRecord_ok (type : Nat) (d : List Byte) {r : Accepted × Bool} (h : r.1.Ok) : (takeRecord type d r).1.Ok := by
  obtain ⟨presets, thresholds, defaults⟩ := h
  unfold takeRecord
  split <;> try split
  · exact ⟨presets, thresholds, defaults⟩
  · exact ⟨presets, thresholds, defaults⟩
  · exact ⟨presets, thresholds, defaults⟩
  · exact ⟨presets, thresholds, defaults⟩
  · rename_i x hx
    exact ⟨fun p e => by cases e; exact parsePresets_ok hx, thresholds, defaults⟩
  · exact ⟨presets, thresholds, defaults⟩
  · rename_i x hx
    exact ⟨presets, thresholds, fun p e => by cases e; exact parseLegDefaults_legal hx⟩
  · exact ⟨presets, thresholds, defaults⟩
  · rename_i x hx
    exact ⟨presets, fun p e => by cases e; exact parseThresholds_ok hx, defaults⟩
  · exact ⟨presets, thresholds, defaults⟩
  · exact ⟨presets, thresholds, defaults⟩

theorem walkChain_ok (img : List Byte) (fuel off : Nat) {r : Accepted × Bool} (h : r.1.Ok) :
    (walkChain img fuel off r).1.Ok := by
  induction fuel generalizing off r with
  | zero => exact h
  | succ n ih =>
    have taken := takeRecord_ok (natAt img off) ((img.drop (off + 4)).take (natAt img (off + 1))) h
    unfold walkChain
    split
    · exact h
    · dsimp only
      split
      · exact taken
      · split
        · exact taken
        · exact ih _ taken

theorem readChain_ok (img : List Byte) : (readChain img).1.Ok :=
  walkChain_ok img _ 7 ⟨fun _ e => (nomatch e), fun _ e => (nomatch e), fun _ e => nomatch e⟩

/-! ### The records applied (R165) -/

theorem Cable.withRecords_ok {k : Cable} (h : k.Ok) {a : Accepted} (ok : a.Ok) : (k.withRecords a).Ok := by
  obtain ⟨presets, tl, tm, th, tp, learned, job⟩ := h
  have table : ∀ t, (k.withRecords a).thresholds = t → t.l.Ok ∧ t.m.Ok ∧ t.h.Ok ∧ t.presence ≤ 63 := by
    rintro t rfl
    unfold Cable.withRecords
    cases e : a.thresholds with
    | none => exact ⟨tl, tm, th, tp⟩
    | some x => exact ok.2.1 x e
  obtain ⟨l, m, h, p⟩ := table _ rfl
  refine ⟨?_, l, m, h, p, learned, job⟩
  unfold Cable.withRecords
  cases e : a.presets with
  | none => exact presets
  | some x => exact ok.1 x e

theorem ThresholdTable.row_ok {t : ThresholdTable} (l : t.l.Ok) (m : t.m.Ok) (h : t.h.Ok) (r : Rate) : (t.row r).Ok := by
  cases r
  · exact l
  · exact m
  · exact h

/-- Windows are in order with none at a leg numbered n or above: how far the installing of the LEG_DEFAULTS has come. -/
def State.InstalledBelow (s : State) (n : Nat) : Prop := s.WindowsPlaced ∧ ∀ k : LegId, n ≤ k.val → (s.leg k).window = none

theorem State.InstalledBelow.of_samePlaces {s t : State} {n : Nat} (e : s.SamePlaces t) (h : s.InstalledBelow n) : t.InstalledBelow n :=
  ⟨e.placed h.1, fun k hk => by rw [e.window]; exact h.2 k hk⟩

theorem State.conflictsBelow_eq_false {s : State} {g : LegId} {w : Window} (h : s.conflictsBelow g w = false) {k : LegId}
    (below : k < g) {v : Window} (hv : (s.leg k).window = some v) : w.overlaps v = false := by
  have := List.any_eq_false.mp h k (mem_allLegs k)
  simpa [below, hv] using this

theorem installDefault_inRange {ds : List LegDefault} {r : State × Bool} (h : r.1.InRange) (g : LegId) :
    (installDefault ds r g).1.InRange := by
  unfold installDefault
  split
  · rename_i d _ _
    have set := (State.acts_setLeg r.1 g (fun l => { l with rateCap := d.cap, autoStart := d.autoStart, autoWake := d.autoWake })
      fun _ => ⟨rfl, rfl, fun h => h⟩).ranges h
    dsimp only
    split
    · exact set
    · exact State.installWindow_inRange set _ _
  · exact h

/-- The defaults of leg n are installed next: its window is judged against the lower legs' windows, the only ones (R6). -/
theorem installDefault_placed {ds : List LegDefault} (legal : ∀ d ∈ ds, d.window.legal) {r : State × Bool} (g : LegId)
    (h : r.1.InstalledBelow g.val) : (installDefault ds r g).1.InstalledBelow (g.val + 1) := by
  have weaken {s : State} (h : s.InstalledBelow g.val) : s.InstalledBelow (g.val + 1) := ⟨h.1, fun k hk => h.2 k (by omega)⟩
  unfold installDefault
  split
  · rename_i d hd hasLeg
    have places := r.1.modLeg_samePlaces g (fun l => { l with rateCap := d.cap, autoStart := d.autoStart, autoWake := d.autoWake }) rfl rfl
    have set := State.InstalledBelow.of_samePlaces places h
    dsimp only
    split
    · exact weaken set
    · rename_i noConflict
      refine ⟨State.installWindow_placed set.1 (legal d (List.mem_of_find?_eq_some hd)) hasLeg fun k ne v hv => ?_, fun k hk => ?_⟩
      · by_cases below : k < g
        · exact State.conflictsBelow_eq_false (by simpa using noConflict) below hv
        · have : (g : Nat) ≤ k := Nat.le_of_not_lt below
          rw [set.2 k this] at hv; cases hv
      · rw [State.installWindow_leg, if_neg (by rintro rfl; omega)]
        exact set.2 k (by omega)
  · exact weaken h

theorem State.takeThresholds_samePlaces (s : State) : s.SamePlaces s.takeThresholds := by
  refine ⟨rfl, id, fun g => ?_, fun g => ?_, fun _ => ⟨rfl, rfl, rfl⟩⟩ <;> unfold State.takeThresholds <;>
    rw [State.mapLegs_leg] <;> split <;> rfl

theorem State.takeThresholds_inRange {s : State} (h : s.InRange) : s.takeThresholds.InRange := by
  refine ⟨h.1, fun g => ?_, h.2.2⟩
  unfold State.takeThresholds
  rw [State.mapLegs_leg]
  split
  · obtain ⟨-, tl, tm, th, tp, -⟩ := h.2.2
    obtain ⟨h1, h2, h3, h4, h5, h6, h7, -, -, -, tally⟩ := h.2.1 g
    have row := ThresholdTable.row_ok tl tm th (s.leg g).rateCap
    exact ⟨h1, h2, h3, h4, h5, h6, h7, row.1, row.2, tp, tally⟩
  · exact h.2.1 g

/-- The image is read before any window stands, and its windows are installed leg by leg (R165). -/
theorem State.keeps_applyRecords {s : State} (before : s.cable.startup.beforeImage) {r : Accepted × Bool} (ok : r.1.Ok) :
    s.Keeps (s.applyRecords r) := by
  have legal : ∀ d ∈ r.1.defaults.getD [], d.window.legal := by
    cases e : r.1.defaults with
    | none => simp
    | some ds => exact ok.2.2 ds e
  constructor
  · intro h
    have start : ({ s with cable := s.cable.withRecords r.1 } : State).InRange := ⟨h.1, h.2.1, Cable.withRecords_ok h.2.2 ok⟩
    have installed : (allLegs.foldl (installDefault (r.1.defaults.getD []))
        ({ s with cable := s.cable.withRecords r.1 }, r.2)).1.InRange :=
      List.foldlRecOn (motive := fun x : State × Bool => x.1.InRange) allLegs _ start
        fun x hx g _ => installDefault_inRange hx g
    exact State.takeThresholds_inRange installed
  · intro h
    have start : ({ s with cable := s.cable.withRecords r.1 } : State).InstalledBelow 0 :=
      ⟨(State.windowsOk_iff.mp h).2, fun k _ => h.1 before k⟩
    have installed := installDefault_placed legal 3 (installDefault_placed legal 2 (installDefault_placed legal 1
      (installDefault_placed legal 0 (r := ({ s with cable := s.cable.withRecords r.1 }, r.2)) start)))
    have placed := (State.takeThresholds_samePlaces _).placed installed.1
    exact State.windowsOk_iff.mpr ⟨fun b => (nomatch b), placed⟩

end Sys2Proof.Machine
end

