-- ==== Sys2Proof/Proofs/StepKeeps.lean ====
section
/-! SUPPORT. Every command keeps the ranges and the windows (`State.Keeps`): the arbiter, the sideband at both ends, the cable
memory unit and the management port, and the dispatch over all commands. -/

open Sys2Proof Sys2Proof.Machine

namespace Sys2Proof.Machine

theorem State.Keeps.ite {s t u : State} {p : Prop} [Decidable p] (h : s.Keeps t) (k : s.Keeps u) : s.Keeps (if p then t else u) := by
  split
  · exact h
  · exact k

/-- `State.Keeps.trans` with the last operation first. -/
theorem State.Keeps.after {s t u : State} (k : t.Keeps u) (h : s.Keeps t) : s.Keeps u := h.trans k

theorem State.keeps_reply (s : State) (st : Status) (payload : List Byte) : s.Keeps (s.reply st payload) :=
  .of_eq rfl rfl rfl rfl

theorem State.keeps_post (s : State) (k : NoticeKind) (o : Option LegId) (data : List Byte) : s.Keeps (s.post k o data) :=
  .of_eq rfl rfl rfl rfl

theorem State.keeps_setTx (s : State) (x : Option Transaction) : s.Keeps { s with tx := x } := .of_eq rfl rfl rfl rfl

theorem State.keeps_setResp (s : State) (r : Responder) : s.Keeps { s with resp := r } := .of_eq rfl rfl rfl rfl

theorem State.keeps_countTx (s : State) : s.Keeps s.countTx := .of_eq rfl rfl rfl rfl

theorem State.keeps_setLeg (s : State) (g : LegId) (f : Leg → Leg)
    (h : ∀ l, (f l).window = l.window ∧ (f l).state = l.state ∧ (l.Ok → (f l).Ok)) : s.Keeps (s.modLeg g f) :=
  (s.acts_setLeg g f h).toKeeps

theorem State.keeps_requeue (s : State) (g : LegId) (f : Leg → Leg) (h : ∀ l : Leg, l.Requeued (f l)) : s.Keeps (s.modLeg g f) :=
  (s.acts_requeue g f h).toKeeps

/-! ### The arbiter (R152 to R160) -/

theorem State.keeps_beginTx (s : State) (g : LegId) (w : Work) : s.Keeps (s.beginTx g w) := by
  unfold State.beginTx
  exact .after (State.keeps_setTx _ _) (State.keeps_setLeg _ g _ fun _ => ⟨rfl, rfl, fun h => h⟩)

theorem State.keeps_startNext {s t : State} {g : LegId} (h : s.startNext g = some t) : s.Keeps t := by
  unfold State.startNext at h
  split at h
  · cases h
    exact .after (State.keeps_countTx _) (.after (State.keeps_requeue _ g _ fun l => l.popped_requeued _)
      (s.keeps_beginTx g _))
  · split at h
    · cases h
      exact .after (State.keeps_countTx _) (s.keeps_beginTx g _)
    · cases h

theorem Leg.passedOver_le (l : Leg) (held : Bool) : l.passedOver held ≤ 12 := by
  unfold Leg.passedOver
  split
  · omega
  · split <;> omega

theorem State.endGrant_leg (s : State) (r : Grant) (g : LegId) :
    (s.endGrant r).leg g = { s.leg g with passOver := (s.leg g).passedOver (g == r.leg) } :=
  State.mapLegs_leg s (fun g l => { l with passOver := l.passedOver (g == r.leg) }) g

theorem State.keeps_endGrant (s : State) (r : Grant) : s.Keeps (s.endGrant r) := by
  refine .of_samePlaces ⟨rfl, id, fun g => ?_, fun g => ?_, fun _ => ⟨rfl, rfl, rfl⟩⟩ fun h => ⟨h.1, fun g => ?_, h.2.2⟩ <;>
    rw [State.endGrant_leg]
  obtain ⟨h1, h2, h3, h4, h5, -, rest⟩ := h.2.1 g
  exact ⟨h1, h2, h3, h4, h5, Leg.passedOver_le _ _, rest⟩

theorem State.keeps_choose (s : State) : s.Keeps s.choose := by
  unfold State.choose
  split
  · exact .refl s
  · rename_i g _
    cases h : State.startNext { s with grant := some ⟨g, 0, 8⟩ } g with
    | none => exact .refl s
    | some t => exact .trans (t := { s with grant := some ⟨g, 0, 8⟩ }) (.of_eq rfl rfl rfl rfl) (State.keeps_startNext h)

theorem State.keeps_arbitrate (s : State) (ends : Bool) : s.Keeps (s.arbitrate ends) := by
  unfold State.arbitrate
  refine .ite (.refl s) ?_
  split
  · exact s.keeps_choose
  · rename_i r _
    have ended (r : Grant) : s.Keeps (s.endGrant r).choose := (s.keeps_endGrant r).trans (State.keeps_choose _)
    refine .ite (ended _) ?_
    split
    · rename_i t h
      exact .trans (t := { s with grant := some (s.extended r) }) (.of_eq rfl rfl rfl rfl) (State.keeps_startNext h)
    · exact ended _

/-- An operation of a leg followed by the arbiter's choice. -/
theorem State.Acts.arbitrated {s t : State} {g : LegId} (h : s.Acts g t) (ends : Bool) : s.Keeps (t.arbitrate ends) :=
  h.toKeeps.trans (t.keeps_arbitrate ends)

/-! ### Lanes (R11 to R17) -/

theorem State.keeps_takeReport (s : State) (g : LegId) (c : LaneId) (rep : Report) : s.Keeps (s.takeReport g c rep) := by
  have recorded : s.Keeps (s.modLane c (fun l => { l with report := some rep, merit := rep.merit })) := by
    refine .of_modLane s c _ ⟨rfl, rfl, rfl⟩ fun h => ?_
    obtain ⟨ht, hf, hp, hd, hd', hb, -, search⟩ := h.1 c
    exact ⟨ht, hf, hp, hd, hd', hb, rfl, search⟩
  have handed := recorded.trans (State.acts_handReport _ g c rep).toKeeps
  unfold State.takeReport
  exact .ite handed (handed.trans (State.acts_joinSet _ g c rep).toKeeps)

theorem State.keeps_writeTaps (s : State) (c : LaneId) (t : Taps) (h : s.InRange → t.lawful) : s.Keeps (s.writeTaps c t) := by
  refine .of_modLane s c _ ⟨rfl, rfl, rfl⟩ fun r => ?_
  obtain ⟨-, rest⟩ := r.1 c
  exact ⟨h r, rest⟩

theorem State.tapOutcome_lawful {s : State} (h : s.InRange) (g : LegId) (i : WinIx) (q : TapRequest) :
    (s.tapOutcome g i q).taps.lawful := applyRequest_lawful (h.1 _).1 h.2.2.1 _ q

theorem State.keeps_applyTaps (s : State) (g : LegId) (i : WinIx) (q : TapRequest) : s.Keeps (s.applyTaps g i q) := by
  rcases s.applyTaps_cases g i q with ⟨-, e⟩ | ⟨-, e⟩ <;> rw [e]
  · exact s.keeps_writeTaps _ _ fun h => State.tapOutcome_lawful h g i q
  · exact .refl s

theorem State.keeps_setFarTaps (s : State) (g : LegId) {t : TapStatus} (h : t.taps.lawful) : s.Keeps (s.setFarTaps g t) := by
  refine .ite (.of_modLane s _ _ ⟨rfl, rfl, rfl⟩ fun r => ?_) (.refl s)
  obtain ⟨ht, -, rest⟩ := r.1 (s.winLane g t.index)
  exact ⟨ht, fun u e => by cases e; exact h, rest⟩

theorem State.farReadDone_leg (s : State) (st : Status) (payload : List Byte) (g : LegId) :
    (s.farReadDone st payload).leg g = s.leg g := by
  rcases s.farReadDone_cases st payload with e | e <;> rw [e]
  rfl

theorem State.abandon_leg (s : State) (g k : LegId) : (s.abandon g).leg k = s.leg k := by
  unfold State.abandon
  split
  · split
    · split
      · exact State.farReadDone_leg _ _ _ k
      · rfl
    · rfl
  · rfl

/-- The leg's record after a stop: the entry to OFF, flushed, with the sideband's and the arbiter's figures cleared (R26). -/
theorem State.stopLeg_leg (s : State) (g : LegId) (cause : LegCause) :
    (s.stopLeg g cause).leg g
      = { ((s.leg g).entered s.role .off none s.time).flushed with timeouts := 0, passOver := 0, drainDone := false } := by
  unfold State.stopLeg
  rw [State.modLeg_leg_same, State.abandon_leg, State.flush_leg, if_pos rfl, State.enter_leg, if_pos rfl]

theorem State.stopLeg_state (s : State) (g : LegId) (cause : LegCause) : ((s.stopLeg g cause).leg g).state = .off := by
  rw [State.stopLeg_leg]; rfl

theorem Lane.legReset_ok {l : Lane} (h : l.Ok) : l.legReset.Ok := by
  refine ⟨?_, fun _ e => (nomatch e), (by decide : 7 ≤ 15), (by decide : (-31 : Int) ≤ 0),
    (by decide : (0 : Int) ≤ 31), Nat.zero_le 3, rfl, fun _ e => nomatch e⟩
  simp only [Lane.legReset]
  split
  · exact h.1
  · decide

/-- The lanes of a leg in OFF are on path OFF already, so resetting them moves no path (R8, R18). -/
theorem State.keeps_legReset (s : State) (g : LegId) (off : (s.leg g).state = .off) : s.Keeps (s.modWindow g Lane.legReset) := by
  constructor
  · refine fun h => ⟨fun c => ?_, h.2⟩
    rw [State.modWindow_lane]
    split
    · exact Lane.legReset_ok (h.1 c)
    · exact h.1 c
  · intro h
    have path (c : LaneId) (hc : c ∈ s.winLanes g) : (s.lane c).path = .off := by
      cases hw : (s.leg g).window with
      | none => simp [State.winLanes, hw] at hc
      | some w =>
        rw [State.winLanes_of_window hw, Window.mem_lanes_iff_indexOf] at hc
        obtain ⟨i, hi⟩ := hc
        rw [((h.2.2.2 c).1 g w hw i hi).2.2, off]
        rfl
    refine State.SamePlaces.windowsOk (s := s) ⟨rfl, id, fun _ => rfl, fun _ => rfl, fun c => ?_⟩ h
    rw [State.modWindow_lane]
    split
    · rename_i hc
      exact ⟨rfl, rfl, (path c (List.contains_iff_mem.mp hc)).symm⟩
    · exact ⟨rfl, rfl, rfl⟩

theorem State.keeps_resetLeg (s : State) (g : LegId) : s.Keeps (s.resetLeg g) := by
  unfold State.resetLeg
  refine .after (State.keeps_setLeg _ g _ fun l => ⟨rfl, rfl, fun h => ?_⟩)
    (.after (State.keeps_legReset _ g (s.stopLeg_state g .legReset)) (s.acts_stopLeg g _).toKeeps)
  obtain ⟨h1, -, -, -, h5, rest⟩ := h
  exact ⟨h1, Nat.zero_le 3, Nat.zero_le 255, Nat.zero_le 508, h5, rest⟩

/-! ### The HUB's sideband (R126 to R133, R143) -/

theorem State.keeps_drainedTap (s : State) (g : LegId) (d : List Byte) : s.Keeps (s.drainedTap g d) := by
  unfold State.drainedTap
  split
  · split
    · exact .ite (.after (State.keeps_requeue _ g _ fun l => l.queueStatus_requeued _) (s.keeps_applyTaps g _ _)) (.refl s)
    · exact .refl s
  · exact .refl s

theorem State.keeps_drained (s : State) (g : LegId) (item : Byte) (d : List Byte) : s.Keeps (s.drained g item d) := by
  unfold State.drained
  refine .ite (.refl s) ?_
  split
  · exact s.keeps_drainedTap g d
  · exact (s.acts_drainedTrainDone g _).toKeeps
  · exact (s.acts_drainedVerify g _ _).toKeeps
  · exact (s.acts_drainedRetrain g).toKeeps
  · exact (s.acts_drainedPower g _).toKeeps
  · exact .refl s

theorem State.keeps_exchangeEnds (s : State) (t : Transaction) (i : WinIx) (r : TxResult) : s.Keeps (s.exchangeEnds t i r) := by
  have told : s.Keeps (match r.forEngine i with
      | .ack st => s.setFarTaps t.leg st
      | _ => s) := by
    split
    · rename_i st e
      refine s.keeps_setFarTaps t.leg ?_
      cases r with
      | ack item more d =>
        cases p : parseTapStatus i d with
        | none => simp [TxResult.forEngine, p] at e
        | some u =>
          have : u = st := by simpa [TxResult.forEngine, p] using e
          exact this ▸ (parseTapStatus_lawful p).1
      | refuse why => cases e
      | lost => cases e
      | expired => cases e
    · exact .refl s
  exact .ite (told.trans (State.acts_takeResult _ t.leg i _).toKeeps) told

theorem State.keeps_takeFarStatus (s : State) (g : LegId) (d : List Byte) : s.Keeps (s.takeFarStatus g d) :=
  (State.keeps_setLeg _ g _ fun _ => ⟨rfl, rfl, fun h => h⟩)

theorem State.keeps_farReadDone (s : State) (st : Status) (payload : List Byte) : s.Keeps (s.farReadDone st payload) :=
  (s.acts_farReadDone 0 st payload).toKeeps

theorem State.keeps_farFetchEnds (s : State) (t : Transaction) (k : FetchKind) (r : TxResult) : s.Keeps (s.farFetchEnds t k r) := by
  cases r with
  | ack item more d => exact .after (State.keeps_farReadDone _ _ _) (.ite (s.keeps_takeFarStatus _ _) (.refl s))
  | refuse why => exact s.keeps_farReadDone _ _
  | lost => exact s.keeps_farReadDone _ _
  | expired => exact s.keeps_farReadDone _ _

theorem State.keeps_probeEnds (s : State) (t : Transaction) (r : TxResult) : s.Keeps (s.probeEnds t r) := by
  cases r with
  | ack item more d => exact (s.acts_probeAck _ _).toKeeps
  | refuse why => exact (s.acts_probeRefused _ _).toKeeps
  | lost => exact (s.acts_probeFailed _).toKeeps
  | expired => exact (s.acts_probeFailed _).toKeeps

theorem State.keeps_drainEnds (s : State) (t : Transaction) (r : TxResult) : s.Keeps (s.drainEnds t r) := by
  cases r with
  | ack item more d =>
    exact .after (State.keeps_drained _ _ _ _) (State.keeps_setLeg _ t.leg _ fun _ => ⟨rfl, rfl, fun h => h⟩)
  | refuse why => exact .refl s
  | lost => exact .refl s
  | expired => exact .refl s

theorem State.keeps_handOn (s : State) (t : Transaction) (r : TxResult) : s.Keeps (s.handOn t r) := by
  unfold State.handOn
  split
  · exact s.keeps_drainEnds t r
  · split
    · exact s.keeps_probeEnds t r
    · split
      · exact (s.acts_phaseRefused _ _).toKeeps
      · exact .refl s
    · exact s.keeps_exchangeEnds t _ r
    · split
      · exact s.keeps_takeFarStatus _ _
      · exact .refl s
    · exact s.keeps_farFetchEnds t _ r
    · exact .refl s

theorem State.keeps_endTx (s : State) (t : Transaction) (r : TxResult) : s.Keeps (s.endTx t r) := by
  have handed : s.Keeps (State.handOn { s with tx := none } t r) := .after (State.keeps_handOn _ t r) (s.keeps_setTx none)
  unfold State.endTx
  exact .after (State.keeps_arbitrate _ _) (.ite (handed.trans (State.acts_sidebandLost _ _).toKeeps) handed)

theorem State.acts_timeouts (s : State) (g : LegId) (n : Nat) (h : n ≤ 2) :
    s.Acts g (s.modLeg g (fun l => { l with timeouts := n })) := by
  refine s.acts_setLeg g _ fun l => ⟨rfl, rfl, fun k => ?_⟩
  obtain ⟨h1, h2, h3, h4, h5, h6, -, rest⟩ := k
  exact ⟨h1, h2, h3, h4, h5, h6, h, rest⟩

theorem State.keeps_timeout (s : State) (t : Transaction) : s.Keeps (s.timeout t) := by
  unfold State.timeout
  split
  · rename_i below
    refine .after (State.keeps_setTx _ _) (s.acts_modLeg t.leg _ rfl rfl fun h => ?_).toKeeps
    obtain ⟨h1, h2, h3, h4, h5, h6, -, rest⟩ := h.2.1 t.leg
    exact ⟨h1, h2, h3, h4, h5, h6, Nat.le_of_lt_succ below, rest⟩
  · exact .after (State.keeps_endTx _ _ _) (s.acts_timeouts t.leg 0 (Nat.zero_le 2)).toKeeps

theorem State.acts_goodReply (s : State) (t : Transaction) :
    s.Acts t.leg ((s.modLeg t.leg (fun l => { l with timeouts := 0 })).restoreSideband t.leg) :=
  .after (State.acts_restoreSideband _ t.leg) (s.acts_timeouts t.leg 0 (Nat.zero_le 2))

theorem State.keeps_goodReply (s : State) (t : Transaction) (low : BitVec 2) (f : ResponseBody) : s.Keeps (s.goodReply t low f) := by
  have heard := (s.acts_goodReply t).toKeeps
  unfold State.goodReply
  exact .ite (heard.trans (State.keeps_endTx _ _ _)) (.ite (heard.trans (State.keeps_setTx _ _)) (heard.trans (State.keeps_endTx _ _ _)))

theorem State.keeps_takeResponse (s : State) (g : LegId) (low mid : BitVec 2) (f : ResponseBody) :
    s.Keeps (s.takeResponse g low mid f) := by
  unfold State.takeResponse
  split
  · exact .refl s
  · exact .ite (.ite (s.keeps_goodReply _ _ _) (s.keeps_timeout _)) (.refl s)

theorem State.keeps_expireTx (s : State) (t : Transaction) : s.Keeps (s.expireTx t) :=
  (s.keeps_post _ _ _).trans (State.keeps_endTx _ _ _)

theorem State.keeps_takeBeacon (s : State) (g : LegId) (level : Fin 4) : s.Keeps (s.takeBeacon g level) := by
  unfold State.takeBeacon
  exact .ite (.after (State.keeps_arbitrate _ _) (State.keeps_setLeg _ g _ fun _ => ⟨rfl, rfl, fun h => h⟩)) (.refl s)

/-! ### The END's responder (R138 to R144) -/

theorem State.keeps_heard (s : State) : s.Keeps s.heard := by
  unfold State.heard
  exact .after (State.acts_restoreSideband _ 0).toKeeps (.after (State.keeps_setLeg _ 0 _ fun _ => ⟨rfl, rfl, fun h => h⟩)
    (s.keeps_setResp _))

theorem State.keeps_answer (s : State) (kind : BitVec 3) (item : Byte) (f : CommandBody) (frame : List Byte) :
    s.Keeps (s.answer kind item f frame) := .of_eq rfl rfl rfl rfl

theorem State.keeps_send (s : State) (frame : List Byte) : s.Keeps (s.send frame) := .of_eq rfl rfl rfl rfl

theorem State.keeps_takeProbe (s : State) (kind : BitVec 3) (item : Byte) (f : CommandBody) : s.Keeps (s.takeProbe kind item f) := by
  have entered : s.Keeps ((s.enter 0 .probe .probeAnswered none).modLeg 0 (fun l => { l with farId := some (parseIdent f.data) })) :=
    .after (State.keeps_setLeg _ 0 _ fun _ => ⟨rfl, rfl, fun h => h⟩) (s.acts_enter 0 _ _ _).toKeeps
  unfold State.takeProbe
  exact .ite (.after (State.keeps_answer _ _ _ _ _) (.ite entered (entered.trans (State.keeps_post _ _ _ _)))) (s.keeps_answer _ _ _ _)

theorem State.keeps_takeFetch (s : State) (kind : BitVec 3) (item : Byte) (f : CommandBody) : s.Keeps (s.takeFetch kind item f) := by
  unfold State.takeFetch
  split
  · exact s.keeps_answer _ _ _ _
  · exact s.keeps_answer _ _ _ _
  · exact .ite (s.keeps_answer _ _ _ _) (s.keeps_answer _ _ _ _)
  · exact s.keeps_answer _ _ _ _

theorem State.keeps_takeStorePhase (s : State) (kind : BitVec 3) (item : Byte) (f : CommandBody) :
    s.Keeps (s.takeStorePhase kind item f) := by
  have taken (st : PhaseState) (n : Nat) (r : Rate) : s.Keeps ((s.takePhase 0 st n r).ack kind item f []) :=
    (s.acts_takePhase 0 st n r).toKeeps.trans (State.keeps_answer _ _ _ _ _)
  unfold State.takeStorePhase
  refine .ite (s.keeps_answer _ _ _ _) ?_
  split
  · exact s.keeps_answer _ _ _ _
  · exact taken _ _ _
  · split
    · exact s.keeps_answer _ _ _ _
    · exact .ite (taken _ _ _) (s.keeps_answer _ _ _ _)

theorem State.keeps_takeStoreStatus (s : State) (kind : BitVec 3) (item : Byte) (f : CommandBody) :
    s.Keeps (s.takeStoreStatus kind item f) := by
  unfold State.takeStoreStatus
  refine .ite (s.keeps_answer _ _ _ _) (.ite (s.keeps_answer _ _ _ _) ?_)
  split
  · exact s.keeps_answer _ _ _ _
  · rename_i st h
    have told := s.keeps_setFarTaps 0 (parseTapStatus_lawful h).1
    exact .after (State.keeps_answer _ _ _ _ _) (.ite (told.trans (State.acts_takeResult _ 0 _ _).toKeeps) told)

theorem State.keeps_takeExchange (s : State) (kind : BitVec 3) (item : Byte) (f : CommandBody) :
    s.Keeps (s.takeExchange kind item f) := by
  unfold State.takeExchange
  refine .ite (s.keeps_answer _ _ _ _) (.ite (s.keeps_answer _ _ _ _) ?_)
  split
  · exact s.keeps_answer _ _ _ _
  · exact .ite (s.keeps_answer _ _ _ _) (.ite (s.keeps_send _) ((s.keeps_applyTaps 0 _ _).trans (State.keeps_answer _ _ _ _ _)))

theorem State.keeps_checkCommand (s : State) (kind : BitVec 3) (item : Byte) (f : CommandBody) :
    s.Keeps (s.checkCommand kind item f) := by
  unfold State.checkCommand
  refine .ite (s.keeps_answer _ _ _ _) (.ite (s.keeps_answer _ _ _ _) (.ite (s.keeps_answer _ _ _ _) ?_))
  split
  · exact s.keeps_takeProbe _ _ _
  · exact s.keeps_takeFetch _ _ _
  · exact s.keeps_takeStorePhase _ _ _
  · exact s.keeps_takeStoreStatus _ _ _
  · exact s.keeps_takeExchange _ _ _

theorem State.keeps_noteDrained (s : State) (i : Item) : s.Keeps (s.noteDrained i) := by
  unfold State.noteDrained
  split
  · rename_i ix _
    refine .of_modLane s _ _ ⟨rfl, rfl, rfl⟩ fun h => ?_
    obtain ⟨ht, hf, hp, hd, hd', hb, hm, search⟩ := h.1 (s.winLane 0 ix)
    refine ⟨ht, hf, hp, hd, hd', hb, hm, fun r e => ?_⟩
    obtain ⟨k, hk, rfl⟩ := Option.map_eq_some_iff.mp e
    exact search k hk
  · exact .refl s

theorem State.keeps_takeDrain (s : State) (f : CommandBody) : s.Keeps (s.takeDrain f) := by
  unfold State.takeDrain
  refine .ite (s.keeps_send _) ?_
  split
  · exact .of_eq rfl rfl rfl rfl
  · exact .after (State.keeps_send _ _) (.after (State.keeps_setResp _ _) (.after (State.keeps_noteDrained _ _) (State.keeps_requeue _ 0 _ fun l => l.popped_requeued _)))

theorem State.keeps_takeCommand (s : State) (pair : LegId) (kind : BitVec 3) (item : Byte) (f : CommandBody) :
    s.Keeps (s.takeCommand pair kind item f) := by
  unfold State.takeCommand
  refine .ite (.refl s) (.ite ((s.acts_enterFault pair _).arbitrated _) (.ite (.refl s) (.ite (s.keeps_heard.trans (State.keeps_takeDrain _ _)) ?_)))
  refine s.keeps_heard.trans ?_
  split
  · exact .ite (State.keeps_send _ _) (State.keeps_checkCommand _ _ _ _)
  · exact State.keeps_checkCommand _ _ _ _

/-! ### The cable memory unit (R161 to R172) -/

theorem State.keeps_autoStart (s : State) (g : LegId) : s.Keeps (s.autoStart g) :=
  .ite (s.acts_enterListen g _ _ _).toKeeps (.refl s)

theorem State.keeps_enterReady (s : State) : s.Keeps s.enterReady := by
  unfold State.enterReady
  refine .after (State.keeps_arbitrate _ _) ?_
  refine List.foldlRecOn allLegs _ ?_ fun t ht g _ => ht.trans (t.keeps_autoStart g)
  exact .after (State.keeps_post _ _ _ _) (.of_cable (fun b => nomatch b) fun h => h.2.2)

theorem State.keeps_takeHeader (s : State) (bs : List Byte) : s.Keeps (s.takeHeader bs) := by
  unfold State.takeHeader
  split
  · exact .refl s
  · rename_i atHeader
    have before : s.cable.startup.beforeImage := by
      rw [Decidable.not_not.mp atHeader]; rfl
    refine .ite (.after (State.keeps_enterReady _) (.of_cable id fun h => h.2.2)) (.ite ?_ ?_)
    · exact .of_cable (fun _ => before) fun h => h.2.2
    · exact .of_cable (fun _ => before) fun h => h.2.2

theorem State.keeps_takeImage (s : State) (bs : List Byte) : s.Keeps (s.takeImage bs) := by
  unfold State.takeImage
  split
  · rename_i len crc atImage
    refine .ite (.of_cable (fun b => nomatch b) fun h => h.2.2) (State.keeps_applyRecords ?_ (readChain_ok _))
    rw [atImage]; rfl
  · exact .refl s

theorem blockEntry_ok {bs : List Byte} {c : LaneId} (h : blockEntryOk bs c) : (blockEntry bs c).Ok := by
  intro valid
  simp only [blockEntryOk, valid, Bool.not_true, Bool.false_or, Bool.and_eq_true, decide_eq_true_eq] at h
  obtain ⟨-, ⟨⟨⟨-, -⟩, p⟩, d⟩, d'⟩ := h
  exact ⟨p, d, d'⟩

theorem learnedFinding_ok {bs : List Byte} (h : learnedFinding bs = .ok) (c : LaneId) : blockEntryOk bs c := by
  unfold learnedFinding at h
  split at h
  · cases h
  · split at h
    · cases h
    · rename_i k
      have all : allLanes.all (blockEntryOk bs) = true := by
        by_contra n
        exact k (.inr (.inr (by simpa using n)))
      exact List.all_eq_true.mp all c (mem_allLanes c)

theorem State.keeps_takeLearned (s : State) (bytes : List Byte) : s.Keeps (s.takeLearned bytes) := by
  unfold State.takeLearned
  refine .ite (.refl s) (.after (State.keeps_enterReady _) (.of_cable ?_ fun h => ?_))
  · split <;> exact id
  · obtain ⟨presets, tl, tm, th, tp, -, job⟩ := h.2.2
    split
    · rename_i found
      refine ⟨presets, tl, tm, th, tp, fun c => ?_, job⟩
      dsimp only
      rw [vec8_get]
      exact blockEntry_ok (learnedFinding_ok found c)
    · exact h.2.2

theorem Cable.withJob_ok {k : Cable} (h : k.Ok) (j : Job) (n : j.index ≤ 5) : ({ k with job := some j } : Cable).Ok := by
  obtain ⟨presets, tl, tm, th, tp, learned, -⟩ := h
  exact ⟨presets, tl, tm, th, tp, learned, fun i e => by cases e; exact n⟩

theorem Cable.job_index_le {k : Cable} (h : k.Ok) {j : Job} (e : k.job = some j) : j.index ≤ 5 := h.2.2.2.2.2.2 j e

theorem State.keeps_endCommit (s : State) (status : LearnedStatus) (data : List Byte) : s.Keeps (s.endCommit status data) := by
  refine .after (State.keeps_post _ _ _ _) (.of_cable id fun h => ?_)
  obtain ⟨presets, tl, tm, th, tp, learned, -⟩ := h.2.2
  exact ⟨presets, tl, tm, th, tp, learned, fun _ e => nomatch e⟩

theorem State.keeps_pageSent (s : State) : s.Keeps s.pageSent := by
  unfold State.pageSent
  split
  · rename_i j hj
    exact .ite (.of_cable id fun h => Cable.withJob_ok h.2.2 _ (Cable.job_index_le h.2.2 hj : j.index ≤ 5)) (.refl s)
  · exact .refl s

theorem State.keeps_pollAcked (s : State) : s.Keeps s.pollAcked := by
  unfold State.pollAcked
  split
  · refine .ite (.refl s) ?_
    split
    · rename_i below
      exact .of_cable id fun h => Cable.withJob_ok h.2.2 _ below
    · exact s.keeps_endCommit _ _
  · exact .refl s

theorem State.keeps_pollExpired (s : State) : s.Keeps s.pollExpired := by
  unfold State.pollExpired
  split
  · exact .ite (.refl s) (s.keeps_endCommit _ _)
  · exact .refl s

theorem State.keeps_pageNacked (s : State) : s.Keeps s.pageNacked := by
  unfold State.pageNacked
  split
  · exact .ite (s.keeps_endCommit _ _) (.refl s)
  · exact .refl s

/-! ### The management port (R174 to R191) -/

/-- A request keeps both where its kind's own act does, on the state in which the request has been taken. -/
theorem State.keeps_takeRequest (s : State) (kind : Byte) (q : RequestBody) (act : State → List Byte → State)
    (h : s.portBusy kind = false → ∀ t : State, t.cable = s.cable → t.Keeps (act t q.payload)) : s.Keeps (s.takeRequest kind q act) := by
  rcases s.takeRequest_cases kind q act with ⟨-, e⟩ | ⟨free, e⟩ <;> rw [e]
  · exact .of_eq rfl rfl rfl rfl
  · exact .trans (t := (s.collect false).occupy kind q.tag) (.of_eq rfl rfl rfl rfl) (h free _ rfl)

theorem State.keeps_ofLength {s t : State} (n : Nat) (p : List Byte) (h : s.Keeps t) : s.Keeps (s.ofLength n p t) :=
  .ite h (s.keeps_reply _ _)

theorem State.keeps_forLeg {s : State} (n : Nat) (p : List Byte) {act : LegId → State} (h : ∀ g, s.hasLeg g → s.Keeps (act g)) :
    s.Keeps (s.forLeg n p act) := by
  rcases s.forLeg_cases n p act with ⟨g, -, -, leg, e⟩ | e <;> rw [e]
  · exact h g leg
  · exact s.keeps_reply _ _

theorem State.keeps_forLane {s : State} (n : Nat) (p : List Byte) {act : LaneId → State} (h : ∀ c, s.Keeps (act c)) :
    s.Keeps (s.forLane n p act) := by
  rcases s.forLane_cases n p act with ⟨c, -, -, e⟩ | e <;> rw [e]
  · exact h c
  · exact s.keeps_reply _ _

/-- Outside start-up only IDENTIFY is not answered BUSY (R175). -/
theorem State.ready_of_notBusy {s : State} {kind : Byte} (h : s.portBusy kind = false) (k : kind ≠ 1) : s.cable.startup = .ready := by
  simp only [State.portBusy, Bool.or_eq_false_iff, Bool.and_eq_false_iff, bne_eq_false_iff_eq] at h
  exact h.1.resolve_right k

/-- The fields a CONFIGURE_LEG carries are in range (R180). -/
theorem parseLegConfig_ok {d : List Byte} {k : LegConfig} (h : parseLegConfig d = some k) :
    k.window.legal ∧ (∀ n, k.err = some n → n ≤ 65535) ∧ (∀ n, k.eye = some n → n ≤ 127) ∧ k.presence ≤ 63 := by
  unfold parseLegConfig at h
  dsimp only at h
  split at h
  · split at h
    · rename_i ok
      obtain ⟨legal, -, eye, presence⟩ := ok
      cases h
      refine ⟨legal, fun n e => ?_, fun n e => ?_, presence⟩
      · dsimp only at e
        split at e
        · cases e
        · cases e; exact nat16At_le _ _
      · dsimp only at e
        split at e
        · cases e
        · rename_i noMark
          cases e; exact eye.resolve_left noMark
    · cases h
  · cases h

/-- No conflict at a HUB, and no second leg at an END: the window is clear of every other leg's (R5 check 4). -/
theorem State.clear_of_noConflict {s : State} (h : s.WindowsOk) {g : LegId} (leg : s.hasLeg g) {w : Window}
    (noConflict : ¬(s.isHub ∧ s.conflicts g w)) (k : LegId) (ne : k ≠ g) (v : Window) (hv : (s.leg k).window = some v) :
    w.overlaps v = false := by
  have held := (h.2.1 k v hv).2
  cases hub : s.isHub with
  | true =>
    have none : s.conflicts g w = false := by simpa [hub] using noConflict
    simpa [ne, held, hv] using List.any_eq_false.mp none k (mem_allLegs k)
  | false =>
    have notHub : (s.role == Role.hubRole) = false := hub
    simp only [State.hasLeg, notHub, Bool.false_or, beq_iff_eq] at held leg
    exact absurd (held.trans leg.symm) ne

theorem State.keeps_configure {s : State} (ready : s.cable.startup = .ready) {g : LegId} (leg : s.hasLeg g) {p : List Byte} {k : LegConfig}
    (parsed : parseLegConfig p = some k) (noConflict : ¬(s.isHub ∧ s.conflicts g k.window)) : s.Keeps (s.configure g k) := by
  obtain ⟨legal, err, eye, presence⟩ := parseLegConfig_ok parsed
  unfold State.configure
  have installed : s.Keeps (s.installWindow g k.window) := by
    refine ⟨fun h => State.installWindow_inRange h g k.window, fun h => State.windowsOk_iff.mpr ⟨fun b => ?_, ?_⟩⟩
    · rw [State.installWindow_cable, ready] at b; cases b
    · exact State.installWindow_placed (State.windowsOk_iff.mp h).2 legal leg (State.clear_of_noConflict h leg noConflict)
  refine installed.trans (State.acts_modLeg _ g _ rfl rfl fun h => ?_).toKeeps
  obtain ⟨-, tl, tm, th, -, -⟩ := h.2.2
  obtain ⟨h1, h2, h3, h4, h5, h6, h7, -, -, -, tally⟩ := h.2.1 g
  have row := ThresholdTable.row_ok tl tm th k.rateCap
  refine ⟨h1, h2, h3, h4, h5, h6, h7, ?_, ?_, presence, tally⟩ <;> dsimp only
  · cases e : k.err with
    | none => exact row.1
    | some n => exact err n e
  · cases e : k.eye with
    | none => exact row.2
    | some n => exact eye n e

theorem State.keeps_doConfigureLeg {s : State} (ready : s.cable.startup = .ready) (p : List Byte) : s.Keeps (s.doConfigureLeg p) := by
  refine State.keeps_forLeg 12 p fun g leg => .ite (s.keeps_reply _ _) ?_
  split
  · exact s.keeps_reply _ _
  · rename_i k parsed
    split
    · exact s.keeps_reply _ _
    · rename_i noConflict
      exact (State.keeps_configure ready leg parsed noConflict).trans (State.keeps_reply _ _ _)

theorem State.keeps_doReadLeg (s : State) (p : List Byte) : s.Keeps (s.doReadLeg p) := by
  refine State.keeps_forLeg 2 p fun g _ => ?_
  split
  · exact s.keeps_reply _ _
  · exact .after (State.keeps_setLeg _ g _ fun _ => ⟨rfl, rfl, fun h => h⟩) (s.keeps_reply _ _)

theorem State.keeps_doStartLeg (s : State) (p : List Byte) : s.Keeps (s.doStartLeg p) :=
  State.keeps_forLeg 1 p fun g _ =>
    .ite (((s.acts_enterListen g _ _ _).trans (State.acts_reply _ g _ _)).arbitrated _) (s.keeps_reply _ _)

theorem State.keeps_doStopLeg (s : State) (p : List Byte) : s.Keeps (s.doStopLeg p) := by
  refine State.keeps_forLeg 1 p fun g _ => ?_
  split
  · exact s.keeps_reply _ _
  · exact s.keeps_reply _ _
  · exact ((s.acts_stopLeg g _).trans (State.acts_reply _ g _ _)).arbitrated _

theorem State.keeps_doResetLeg (s : State) (p : List Byte) : s.Keeps (s.doResetLeg p) :=
  State.keeps_forLeg 1 p fun g _ => .after (State.keeps_arbitrate _ _) (.after (State.keeps_reply _ _ _) (s.keeps_resetLeg g))

theorem State.keeps_queuePower (s : State) (g : LegId) (w : Power) : s.Keeps (s.queuePower g w) :=
  .ite (.after (State.keeps_reply _ _ _) (State.keeps_requeue _ g _ fun l => l.push_requeued _)) (s.keeps_reply _ _)

theorem State.keeps_endPower (s : State) (g : LegId) (w : Power) : s.Keeps (s.endPower g w) := by
  unfold State.endPower
  split
  · exact s.keeps_queuePower g _
  · exact .after (State.keeps_reply _ _ _) (.after (State.keeps_requeue _ g _ fun l => l.push_requeued _)
      (s.acts_enterListen g _ _ _).toKeeps)
  · exact s.keeps_reply _ _
  · exact s.keeps_reply _ _
  · exact s.keeps_reply _ _
  · exact s.keeps_reply _ _
  · exact s.keeps_queuePower g _

theorem State.keeps_doSetLegPower (s : State) (p : List Byte) : s.Keeps (s.doSetLegPower p) := by
  refine State.keeps_forLeg 2 p fun g _ => ?_
  split
  · exact s.keeps_reply _ _
  · exact .ite (.ite (((s.acts_powerTaken g _ _).trans (State.acts_reply _ g _ _)).arbitrated _) (s.keeps_reply _ _))
      (s.keeps_endPower g _)

theorem State.keeps_setPinned (s : State) (c : LaneId) (b : Bool) : s.Keeps (s.modLane c (fun l => { l with pinned := b })) :=
  .of_modLane s c _ ⟨rfl, rfl, rfl⟩ fun h => h.1 c

theorem State.keeps_doPinTaps (s : State) (p : List Byte) : s.Keeps (s.doPinTaps p) := by
  refine State.keeps_forLane 3 p fun c => ?_
  split
  · rename_i lawful
    exact .after (State.keeps_reply _ _ _) ((s.keeps_writeTaps c _ fun _ => tapsOf_lawful lawful).trans (State.keeps_setPinned _ c true))
  · exact s.keeps_reply _ _

theorem State.keeps_doUnpinTaps (s : State) (p : List Byte) : s.Keeps (s.doUnpinTaps p) :=
  State.keeps_forLane 1 p fun c => .after (State.keeps_reply _ _ _) (s.keeps_setPinned c false)

theorem State.keeps_doCommitPresets (s : State) (p : List Byte) : s.Keeps (s.doCommitPresets p) := by
  refine State.keeps_ofLength 0 p ?_
  split
  · refine .after (State.keeps_reply _ _ _) (.of_cable (fun b => ?_) fun h => Cable.withJob_ok (Cable.claimed_ok h.2.2) _ (Nat.zero_le 5))
    rw [← s.cable.claimed_startup]
    exact b
  · exact s.keeps_reply _ _

theorem State.keeps_doForgetPresets (s : State) (p : List Byte) : s.Keeps (s.doForgetPresets p) := by
  refine State.keeps_ofLength 0 p (.after (State.keeps_reply _ _ _) (.of_cable id fun h => ?_))
  obtain ⟨presets, tl, tm, th, tp, -, job⟩ := h.2.2
  exact ⟨presets, tl, tm, th, tp, LearnedEntry.forgotten_ok _, job⟩

theorem State.keeps_queueFarRead (s : State) (g : LegId) (k : FetchKind) (lane : Nat) : s.Keeps (s.queueFarRead g k lane) := by
  unfold State.queueFarRead
  refine .ite (s.keeps_reply _ _) ?_
  split
  · exact s.keeps_reply _ _
  · exact .ite ((s.acts_requeue g _ fun l => l.push_requeued _).arbitrated _) (s.keeps_reply _ _)

theorem State.keeps_doFarRead (s : State) (p : List Byte) : s.Keeps (s.doFarRead p) := by
  refine .ite (s.keeps_reply _ _) (State.keeps_forLeg 3 p fun g _ => ?_)
  split
  · exact s.keeps_reply _ _
  · exact .ite (s.keeps_reply _ _) (s.keeps_queueFarRead g _ _)

theorem State.keeps_doReadNotices (s : State) (p : List Byte) : s.Keeps (s.doReadNotices p) :=
  State.keeps_ofLength 0 p (.of_eq rfl rfl rfl rfl)

theorem State.keeps_doSetNoticeLevels (s : State) (p : List Byte) : s.Keeps (s.doSetNoticeLevels p) :=
  State.keeps_ofLength 12 p (.ite (.of_eq rfl rfl rfl rfl) (s.keeps_reply _ _))

theorem State.keeps_replyGone (s : State) : s.Keeps s.replyGone := by
  unfold State.replyGone
  split
  · exact .refl s
  · exact .ite ⟨fun _ => State.afterReset_inRange .., fun _ => State.afterReset_windowsOk ..⟩ (.of_eq rfl rfl rfl rfl)

/-! ### Every command -/

theorem State.keeps_windowReport (s : State) (c : LaneId) (rep : Report) :
    s.Keeps (match (s.lane c).owner with | some g => (s.takeReport g c rep).arbitrate false | none => s) := by
  split
  · exact (s.keeps_takeReport _ c rep).trans (State.keeps_arbitrate _ _)
  · exact .refl s

theorem State.keeps_scanReading (s : State) (c : LaneId) (level : Fin 64) :
    s.Keeps (match (s.lane c).owner with
      | some g => if s.scanned c then (s.takeReading g c ((s.leg g).presThreshold ≤ level.val)).arbitrate false else s
      | none => s) := by
  split
  · exact .ite ((s.acts_takeReading _ c _).arbitrated _) (.refl s)
  · exact .refl s

theorem State.keeps_settlingEnd (s : State) :
    s.Keeps (if s.cable.startup = .settling then
      { s with cable := { s.cable with startup := .loadingHeader, settlingEnds := none } } else s) := by
  split
  · rename_i settling
    exact .of_cable (fun _ => by rw [settling]; trivial) fun h => h.2.2
  · exact .refl s

theorem State.keeps_settleExpiry (s : State) (c : LaneId) :
    s.Keeps (s.modLane c (fun l => { l with settleUntil := none })) :=
  .of_modLane s c _ ⟨rfl, rfl, rfl⟩ fun h => h.1 c

theorem State.keeps_holdoff (s : State) (g : LegId) :
    s.Keeps (((s.modLeg g (fun l => { l with holdoff := none })).checkListen g).arbitrate false) :=
  State.Acts.arbitrated (.after (State.acts_checkListen _ g)
    (s.acts_setLeg g (fun l => { l with holdoff := none }) fun _ => ⟨rfl, rfl, fun h => h⟩)) _

theorem State.keeps_hubSilence (s : State) :
    s.Keeps (State.hubSilent { s with resp := { s.resp with silence := none } } 0) :=
  .after (State.acts_hubSilent _ 0).toKeeps (s.keeps_setResp _)

theorem State.keeps_keepalive (s : State) (g : LegId) : s.Keeps ((s.modLeg g Leg.keptAlive).arbitrate false) :=
  (s.acts_setLeg g _ fun l => ⟨(l.keptAlive_place).1, (l.keptAlive_place).2, Leg.keptAlive_ok⟩).arbitrated _

/-- A change of the transaction in flight keeps both. -/
theorem State.keeps_onTx (s : State) (f : Transaction → State) (h : ∀ t, s.Keeps (f t)) :
    s.Keeps (match s.tx with | some t => f t | none => s) := by
  split
  · exact h _
  · exact .refl s

/-- Every command keeps records in range and windows in order. -/
theorem exec_keeps {i : Instr} {s t : State} (h : exec i s = .next t) : s.Keeps t := by
  cases i <;> (injection h with h; subst h)
  case deviceReset strap => exact ⟨fun _ => State.afterReset_inRange .., fun _ => State.afterReset_windowsOk ..⟩
  case settlingEnd => exact s.keeps_settlingEnd
  case factoryHeaderRead bytes => exact s.keeps_takeHeader bytes
  case factoryImageRead bytes => exact s.keeps_takeImage bytes
  case learnedBlockRead bytes => exact s.keeps_takeLearned bytes
  case windowReport c h e r => exact s.keeps_windowReport c _
  case scanReading c level => exact s.keeps_scanReading c level
  case settleExpiry c => exact s.keeps_settleExpiry c
  case probeHoldoffExpiry g => exact .ite (s.keeps_holdoff g) (.refl s)
  case attemptDeadlineExpiry g => exact .ite ((s.acts_attemptFails g _).arbitrated _) (.refl s)
  case probeWaitExpiry => exact .ite (s.acts_enterFault 0 _).toKeeps (.refl s)
  case hubSilenceExpiry => exact .ite s.keeps_hubSilence (.refl s)
  case keepaliveTimerExpiry g => exact .ite (s.keeps_keepalive g) (.refl s)
  case commandFrameSent g seq => exact s.keeps_onTx _ fun t => .ite (s.keeps_setTx _) (.refl s)
  case sidebandAck g f => exact s.keeps_takeResponse g _ _ f
  case sidebandDefer g f => exact s.keeps_takeResponse g _ _ f
  case sidebandRefuse g f => exact s.keeps_takeResponse g _ _ f
  case replyFailingChecks g low mid f => exact s.keeps_takeResponse g low mid f
  case replyTimeout => exact s.keeps_onTx _ fun t => .ite (s.keeps_timeout t) (.refl s)
  case backoffEnd => exact s.keeps_onTx _ fun t => .ite (s.keeps_setTx _) (.refl s)
  case transactionExpiry => exact s.keeps_onTx _ fun t => s.keeps_expireTx t
  case beaconReceived g level crc => exact .ite (s.keeps_takeBeacon g level) (.refl s)
  case beaconSilence g => exact s.keeps_takeBeacon g 0
  case hubCommandFrame pair kind item f => exact s.keeps_takeCommand pair kind item f
  case probeCommand pair f => exact s.keeps_takeCommand pair 1 1 f
  case fetchCommand pair item f => exact s.keeps_takeCommand pair 2 _ f
  case storePhase pair f => exact s.keeps_takeCommand pair 3 4 f
  case storeTapStatus pair f => exact s.keeps_takeCommand pair 3 6 f
  case exchangeTapRequest pair f => exact s.keeps_takeCommand pair 4 5 f
  case drainCommand pair item f => exact s.keeps_takeCommand pair 5 item f
  case unknownCommandOrItem pair kind item f => exact s.keeps_takeCommand pair kind item f
  case requestFrameGap => exact .of_eq rfl rfl rfl rfl
  case requestFrameStart b => exact .ite (.of_eq rfl rfl rfl rfl) (.refl s)
  case requestFrameDiscarded why => exact .ite (.of_eq rfl rfl rfl rfl) (.refl s)
  case replySent => exact s.keeps_replyGone
  case identify q => exact s.keeps_takeRequest 0x01 q _ fun _ t _ => State.keeps_ofLength 0 _ (t.keeps_reply _ _)
  case readLeg q => exact s.keeps_takeRequest 0x02 q _ fun _ t _ => t.keeps_doReadLeg _
  case readLane q => exact s.keeps_takeRequest 0x03 q _ fun _ t _ => State.keeps_forLane 1 _ fun _ => t.keeps_reply _ _
  case configureLeg q =>
    exact s.keeps_takeRequest 0x04 q _ fun free t e =>
      t.keeps_doConfigureLeg (e ▸ State.ready_of_notBusy free (by decide)) _
  case startLeg q => exact s.keeps_takeRequest 0x05 q _ fun _ t _ => t.keeps_doStartLeg _
  case stopLeg q => exact s.keeps_takeRequest 0x06 q _ fun _ t _ => t.keeps_doStopLeg _
  case resetLeg q => exact s.keeps_takeRequest 0x07 q _ fun _ t _ => t.keeps_doResetLeg _
  case setLegPower q => exact s.keeps_takeRequest 0x08 q _ fun _ t _ => t.keeps_doSetLegPower _
  case pinTaps q => exact s.keeps_takeRequest 0x09 q _ fun _ t _ => t.keeps_doPinTaps _
  case unpinTaps q => exact s.keeps_takeRequest 0x0A q _ fun _ t _ => t.keeps_doUnpinTaps _
  case readPresets q => exact s.keeps_takeRequest 0x0B q _ fun _ t _ => State.keeps_ofLength 0 _ (t.keeps_reply _ _)
  case commitPresets q => exact s.keeps_takeRequest 0x0C q _ fun _ t _ => t.keeps_doCommitPresets _
  case forgetPresets q => exact s.keeps_takeRequest 0x0D q _ fun _ t _ => t.keeps_doForgetPresets _
  case farRead q => exact s.keeps_takeRequest farReadKind q _ fun _ t _ => t.keeps_doFarRead _
  case readNotices q => exact s.keeps_takeRequest 0x0F q _ fun _ t _ => t.keeps_doReadNotices _
  case setNoticeLevels q => exact s.keeps_takeRequest 0x10 q _ fun _ t _ => t.keeps_doSetNoticeLevels _
  case resetDevice q => exact s.keeps_takeRequest 0x11 q _ fun _ t _ => State.keeps_ofLength 0 _ (.of_eq rfl rfl rfl rfl)
  case unknownRequestKind kind q => exact .ite (.refl s) (s.keeps_takeRequest kind q _ fun _ t _ => t.keeps_reply _ _)
  case pageSent => exact s.keeps_pageSent
  case pollAcknowledged => exact s.keeps_pollAcked
  case pollLimitExpiry => exact s.keeps_pollExpired
  case pageWriteNack => exact s.keeps_pageNacked

/-- Every step, the idle one too, keeps records in range and windows in order. -/
theorem step_keeps {s t : State} (h : step s = .next t) : s.Keeps t := by
  cases e : s.pending with
  | nil =>
    rw [step_of_pending_nil e] at h
    injection h with h
    exact h ▸ .of_eq rfl rfl rfl rfl
  | cons c rest =>
    rw [step_of_pending_cons e] at h
    exact .trans (t := { s with pending := rest }) (.of_eq rfl rfl rfl rfl) (exec_keeps h)

end Sys2Proof.Machine

/-- Settles O55: each command keeps every record in range, and so does the idle step. -/
theorem stepKeepsRanges : Obligations.StepKeepsRanges := by
  unfold Obligations.StepKeepsRanges
  exact fun _ _ h e => (step_keeps e).ranges h

/-- Settles O56: each command keeps the windows in order, and so does the idle step. -/
theorem stepKeepsWindows : Obligations.StepKeepsWindows := by
  unfold Obligations.StepKeepsWindows
  exact fun _ _ h e => (step_keeps e).windows h
end

