-- ==== Sys2Proof/Proofs/PortRequests.lean ====
section
/-! SUPPORT. A request the free port takes (R175): the state its kind acts on, and the port after its reply. Then the lane
requests with the transmitters (R62, R63, R7 to R9). -/

open Sys2Proof Sys2Proof.Machine

namespace Sys2Proof.Machine

theorem State.portBusy_of_takes {s : State} (h : s.takesRequests) (kind : Byte) : s.portBusy kind = false := by
  obtain ⟨ready, slot⟩ := h
  simp [State.portBusy, ready, slot]

/-- The state a taken request acts on: hunting again, with the slot occupied (R174, R175). -/
def State.taken (s : State) (kind tag : Byte) : State := (s.collect false).occupy kind tag

theorem State.takeRequest_taken {s : State} (h : s.takesRequests) (kind : Byte) (q : RequestBody)
    (act : State → List Byte → State) : s.takeRequest kind q act = act (s.taken kind q.tag) q.payload := by
  rcases s.takeRequest_cases kind q act with ⟨busy, -⟩ | ⟨-, e⟩
  · rw [State.portBusy_of_takes h] at busy; cases busy
  · exact e

@[simp] theorem State.taken_time (s : State) (kind tag : Byte) : (s.taken kind tag).time = s.time := rfl

@[simp] theorem State.taken_tx (s : State) (kind tag : Byte) : (s.taken kind tag).tx = s.tx := rfl

@[simp] theorem State.taken_cable (s : State) (kind tag : Byte) : (s.taken kind tag).cable = s.cable := rfl

@[simp] theorem State.taken_isHub (s : State) (kind tag : Byte) : (s.taken kind tag).isHub = s.isHub := rfl

@[simp] theorem State.taken_leg (s : State) (kind tag : Byte) (g : LegId) : (s.taken kind tag).leg g = s.leg g := rfl

@[simp] theorem State.taken_lane (s : State) (kind tag : Byte) (c : LaneId) : (s.taken kind tag).lane c = s.lane c := rfl

theorem natAt_byteOf_cons (n : Nat) (h : n < 256) (p : List Byte) : natAt (byteOf n :: p) 0 = n := by
  simp [natAt, byteOf, Nat.mod_eq_of_lt h]

theorem State.forLane_eq {s : State} {n : Nat} {p : List Byte} (c : LaneId) (length : p.length = n) (lane : natAt p 0 = c.val)
    (act : LaneId → State) : s.forLane n p act = act c := by
  unfold State.forLane
  rw [if_pos length, dif_pos (lane ▸ c.isLt)]
  exact congrArg act (Fin.ext lane)

/-- A lane number above 7 names no lane (R177). -/
theorem State.forLane_beyond {s : State} {n : Nat} {p : List Byte} (lane : 7 < natAt p 0) (act : LaneId → State) :
    s.forLane n p act = s.reply .badArgument [] := by
  rcases s.forLane_cases n p act with ⟨c, -, e, -⟩ | e
  · exact absurd (e ▸ lane) (by omega)
  · exact e

theorem State.forLeg_eq {s : State} {n : Nat} {p : List Byte} {g : LegId} (length : p.length = n) (leg : natAt p 0 = g.val)
    (has : s.hasLeg g) (act : LegId → State) : s.forLeg n p act = act g := by
  unfold State.forLeg
  have e : (⟨natAt p 0, leg ▸ g.isLt⟩ : LegId) = g := Fin.ext leg
  rw [if_pos length, dif_pos (leg ▸ g.isLt), e, if_pos has]

/-! ### Pins and settles (R16, R62, R63) -/

theorem loadable_iff {pre post : Nat} : loadable pre post ↔ pre ≤ 12 ∧ post ≤ 18 ∧ pre + post ≤ 24 := by
  simp [loadable]
  omega

theorem natAt_byteOf_lane (c : LaneId) (p : List Byte) : natAt (byteOf c.val :: p) 0 = c.val :=
  natAt_byteOf_cons c.val (by omega) p

theorem State.doPinTaps_eq (s : State) (c : LaneId) (pre post : Byte) :
    s.doPinTaps [byteOf c.val, pre, post] =
      if loadable pre.toNat post.toNat then
        ((s.writeTaps c (tapsOf pre.toNat post.toNat)).modLane c (fun l => { l with pinned := true })).reply .ok
          (byteOf c.val :: (tapsOf pre.toNat post.toNat).bytes)
      else s.reply .badArgument [] := by
  unfold State.doPinTaps
  rw [State.forLane_eq (n := 3) c rfl (natAt_byteOf_lane c _)]
  rfl

theorem State.doUnpinTaps_eq (s : State) (c : LaneId) :
    s.doUnpinTaps [byteOf c.val] = (s.modLane c (fun l => { l with pinned := false })).reply .ok [] := by
  unfold State.doUnpinTaps
  rw [State.forLane_eq (n := 1) c rfl (natAt_byteOf_lane c _)]

/-- PIN_TAPS with values the law allows. -/
theorem exec_pinTaps {s : State} (h : s.takesRequests) (c : LaneId) (tag pre post : Byte) (ok : loadable pre.toNat post.toNat) :
    exec (.pinTaps ⟨tag, [byteOf c.val, pre, post]⟩) s = .next
      ((((s.taken 0x09 tag).writeTaps c (tapsOf pre.toNat post.toNat)).modLane c (fun l => { l with pinned := true })).reply
        .ok (byteOf c.val :: (tapsOf pre.toNat post.toNat).bytes)) := by
  refine congrArg Host.Outcome.next ((State.takeRequest_taken h _ _ _).trans ?_)
  rw [State.doPinTaps_eq, if_pos ok]

theorem exec_pinTaps_refused {s : State} (h : s.takesRequests) (c : LaneId) (tag pre post : Byte)
    (bad : ¬ loadable pre.toNat post.toNat) :
    exec (.pinTaps ⟨tag, [byteOf c.val, pre, post]⟩) s = .next { s with port := s.port.answered 0x09 tag .badArgument [] } := by
  refine congrArg Host.Outcome.next ((State.takeRequest_taken h _ _ _).trans ?_)
  rw [State.doPinTaps_eq, if_neg bad]
  rfl

theorem exec_unpinTaps {s : State} (h : s.takesRequests) (c : LaneId) (tag : Byte) :
    exec (.unpinTaps ⟨tag, [byteOf c.val]⟩) s = .next
      (((s.taken 0x0A tag).modLane c (fun l => { l with pinned := false })).reply .ok []) := by
  refine congrArg Host.Outcome.next ((State.takeRequest_taken h _ _ _).trans ?_)
  rw [State.doUnpinTaps_eq]

/-- A lane request that names a lane above 7 is answered BAD_ARGUMENT. -/
theorem exec_lane_beyond {s : State} (h : s.takesRequests) (tag n : Byte) (beyond : 7 < n.toNat) :
    exec (.unpinTaps ⟨tag, [n]⟩) s = .next { s with port := s.port.answered 0x0A tag .badArgument [] }
      ∧ ∀ pre post, exec (.pinTaps ⟨tag, [n, pre, post]⟩) s
          = .next { s with port := s.port.answered 0x09 tag .badArgument [] } := by
  refine ⟨congrArg Host.Outcome.next ((State.takeRequest_taken h _ _ _).trans ?_),
    fun pre post => congrArg Host.Outcome.next ((State.takeRequest_taken h _ _ _).trans ?_)⟩
  · unfold State.doUnpinTaps
    rw [State.forLane_beyond (show 7 < natAt [n] 0 from beyond)]
    rfl
  · unfold State.doPinTaps
    rw [State.forLane_beyond (show 7 < natAt [n, pre, post] 0 from beyond)]
    rfl

/-! ### What the transmitters send (R7, R9) -/

/-- A host lane is mapped to the copper lane at its window index, and to no other (R4, R5). -/
theorem State.WindowsOk.hostLane_iff {s : State} (ok : s.WindowsOk) {c h : LaneId} :
    (s.lane c).hostLane = some h ↔ ∃ g w i, (s.leg g).window = some w ∧ w.indexOf c = some i ∧ w.hostAt i = h := by
  obtain ⟨-, -, -, agree⟩ := ok
  constructor
  · intro e
    by_contra none
    have out : ∀ g w, (s.leg g).window = some w → w.indexOf c = Option.none := by
      intro g w hw
      cases hi : w.indexOf c with
      | none => rfl
      | some i =>
        have mapped := ((agree c).1 g w hw i hi).2.1
        exact absurd ⟨g, w, i, hw, hi, by rw [e] at mapped; exact (Option.some.inj mapped).symm⟩ none
    rw [((agree c).2 out).2.1] at e
    cases e
  · rintro ⟨g, w, i, hw, hi, rfl⟩
    exact ((agree c).1 g w hw i hi).2.1

theorem State.WindowsOk.host_unique {s : State} (ok : s.WindowsOk) {c d h : LaneId} (hc : (s.lane c).hostLane = some h)
    (hd : (s.lane d).hostLane = some h) : c = d := by
  obtain ⟨g, w, i, hw, hi, rfl⟩ := ok.hostLane_iff.mp hc
  obtain ⟨k, v, j, hv, hj, e⟩ := ok.hostLane_iff.mp hd
  obtain ⟨iw, rfl⟩ := Window.indexOf_eq_some.mp hi
  obtain ⟨jv, rfl⟩ := Window.indexOf_eq_some.mp hj
  obtain ⟨-, legal, disjoint, -⟩ := ok
  by_cases same : k = g
  · subst same
    rw [hw] at hv
    cases hv
    rw [Window.hostAt_inj (legal k w hw).1 jv iw e]
  · have apart := (Window.overlaps_eq_false.mp (disjoint k g same v hv w hw)).2
    exact absurd (Window.mem_hosts.mpr ⟨i, iw, rfl⟩) (apart _ (Window.mem_hosts.mpr ⟨j, jv, e⟩))

/-- The transmitter of a host lane follows the path of the copper lane mapped to it. -/
theorem State.WindowsOk.hostTx {s : State} (ok : s.WindowsOk) {c h : LaneId} (hc : (s.lane c).hostLane = some h) :
    s.hostTx h = match (s.lane c).path with | .off => .unpowered | .passing => .retimed c | .squelched => .idle := by
  have found : allLanes.find? (fun d => (s.lane d).hostLane == some h) = some c := by
    cases e : allLanes.find? (fun d => (s.lane d).hostLane == some h) with
    | none => exact absurd hc (by simpa using List.find?_eq_none.mp e c (mem_allLanes c))
    | some d =>
      have mapped : (s.lane d).hostLane = some h := by simpa using List.find?_some e
      rw [ok.host_unique mapped hc]
  unfold State.hostTx
  cases path : (s.lane c).path <;> simp [found, path]

/-- A window lane's transmitter and its host lane's, by the state of the leg (R8, R9). -/
theorem State.WindowsOk.transmitters {s : State} (ok : s.WindowsOk) {g : LegId} {w : Window} (hw : (s.leg g).window = some w)
    {i : WinIx} {c : LaneId} (hi : w.indexOf c = some i) :
    ((s.leg g).state.inService → s.copperTx c = .retimed (w.hostAt i) ∧ s.hostTx (w.hostAt i) = .retimed c)
      ∧ ((s.leg g).state.attempting → s.copperTx c = .training ∧ s.hostTx (w.hostAt i) = .idle)
      ∧ ((s.leg g).state = .listen ∨ (s.leg g).state = .probe ∨ (s.leg g).state = .standby →
          s.copperTx c = .idle ∧ s.hostTx (w.hostAt i) = .idle)
      ∧ ((s.leg g).state = .off ∨ (s.leg g).state = .sleep ∨ (s.leg g).state = .fault →
          s.copperTx c = .unpowered ∧ s.hostTx (w.hostAt i) = .unpowered) := by
  obtain ⟨owner, host, path⟩ := (ok.2.2.2 c).1 g w hw i hi
  rw [ok.hostTx host]
  unfold State.copperTx State.ownerState
  rw [owner, host, path, Option.map_some]
  cases (s.leg g).state <;> simp [LegState.path, LegState.inService, LegState.attempting]

theorem State.WindowsOk.copperTx_outside {s : State} (ok : s.WindowsOk) {c : LaneId}
    (out : ∀ g w, (s.leg g).window = some w → c ∉ w.lanes) : s.copperTx c = .unpowered := by
  have off := ((ok.2.2.2 c).2 fun g w hw => Window.indexOf_eq_none.mpr (out g w hw)).2.2
  simp [State.copperTx, off]

theorem State.WindowsOk.hostTx_outside {s : State} (ok : s.WindowsOk) {h : LaneId}
    (out : ∀ g w, (s.leg g).window = some w → h ∉ w.hosts) : s.hostTx h = .unpowered := by
  have unmapped : allLanes.find? (fun d => (s.lane d).hostLane == some h) = none := by
    refine List.find?_eq_none.mpr fun d _ mapped => ?_
    obtain ⟨g, w, i, hw, hi, e⟩ := ok.hostLane_iff.mp (by simpa using mapped)
    exact out g w hw (Window.mem_hosts.mpr ⟨i, (Window.indexOf_eq_some.mp hi).1, e⟩)
  simp [State.hostTx, unmapped]

end Sys2Proof.Machine

/-- Settles O46: the transmitters follow the lane agreement of the windows, and each request writes one lane. -/
theorem pinsAndSettles : Obligations.PinsAndSettles := by
  unfold Obligations.PinsAndSettles
  refine ⟨fun s ok => ⟨fun g w i c h hw hi hc hh => ?_, fun c => ok.copperTx_outside, fun h => ok.hostTx_outside⟩,
    fun s c tag pre post takes hpre hpost sum => ?_, fun s c tag pre post takes bad => ?_, fun s c tag takes => ?_,
    fun s tag n i takes beyond form => ?_, fun s c => ?_⟩
  · have lane : w.laneAt i = c := Fin.ext hc.symm
    have host : w.hostAt i = h := Fin.ext (Nat.mod_eq_of_lt (by omega) |>.trans hh.symm)
    exact host ▸ ok.transmitters hw (Window.indexOf_eq_some.mpr ⟨hi, lane⟩)
  · refine ⟨_, exec_pinTaps takes c tag pre post (loadable_iff.mpr ⟨hpre, hpost, sum⟩), ?_, fun k hk => ?_, ?_⟩
    · simp [State.writeTaps, tapsOf, State.after]
    · simp [State.writeTaps, hk]
    · have bytes : pre :: [byteOf (48 - pre.toNat - post.toNat), post] = (tapsOf pre.toNat post.toNat).bytes := by
        simp [Taps.bytes, tapsOf, byteOf]
      rw [bytes]
      rfl
  · exact exec_pinTaps_refused takes c tag pre post fun ok => by have := loadable_iff.mp ok; omega
  · exact ⟨_, exec_unpinTaps takes c tag, by simp, fun k hk => by simp [hk], rfl⟩
  · obtain ⟨unpin, pin⟩ := exec_lane_beyond takes tag n beyond
    rcases form with rfl | ⟨pre, post, rfl⟩
    · exact ⟨_, unpin, 0x0A, rfl⟩
    · exact ⟨_, pin pre post, 0x09, rfl⟩
  · exact ⟨s.modLane c (fun l => { l with settleUntil := none }), rfl, by simp, by simp, fun k hk => by simp [hk], rfl⟩
end

