-- ==== Sys2Proof/Proofs/Configuring.lean ====
section
/-! SUPPORT. CONFIGURE_LEG: which payloads are fields (R5 check 3, R180), and what a request with every check passed sets. -/

open Sys2Proof Sys2Proof.Machine

namespace Sys2Proof.Machine

theorem Rate.code_of_ofCode {n : Nat} {r : Rate} (h : Rate.ofCode n = some r) : r.code = n := by
  unfold Rate.ofCode at h
  split at h <;> cases h <;> rfl

theorem Rate.ofCode_beyond {n : Nat} (h : 2 < n) : Rate.ofCode n = none := by
  unfold Rate.ofCode
  split <;> first | omega | rfl

theorem boolByte_of_boolOf {d : List Byte} {i : Nat} {b : Bool} (h : boolOf (natAt d i) = some b) : boolByte b = d.getD i 0 := by
  apply BitVec.eq_of_toNat_eq
  change _ = natAt d i
  unfold boolOf at h
  split at h <;> cases h <;> rename_i e <;> rw [e] <;> rfl

theorem boolOf_beyond {n : Nat} (h : 1 < n) : boolOf n = none := by
  unfold boolOf
  split <;> first | omega | rfl

/-- What the payload of a CONFIGURE_LEG that is one says, field by field (R180). -/
theorem parseLegConfig_fields {d : List Byte} {k : LegConfig} (h : parseLegConfig d = some k) :
    k.window = ⟨natAt d 1, natAt d 2, natAt d 3⟩ ∧ k.rateCap.code = natAt d 4 ∧ boolByte k.autoWake = d.getD 10 0
      ∧ k.presence = natAt d 8
      ∧ (∀ n, k.err.getD n = if natAt d 11 % 2 = 1 then n else nat16At d 5)
      ∧ (∀ n, k.eye.getD n = if 2 ≤ natAt d 11 then n else natAt d 7) := by
  unfold parseLegConfig at h
  dsimp only at h
  split at h
  · rename_i cap wake hcap hwake
    split at h
    · rename_i ok
      cases h
      refine ⟨rfl, Rate.code_of_ofCode hcap, boolByte_of_boolOf hwake, rfl, fun n => ?_, fun n => ?_⟩
      · by_cases odd : natAt d 11 % 2 = 1 <;> simp [odd]
      · have mark : natAt d 11 / 2 = 1 ↔ 2 ≤ natAt d 11 := by omega
        by_cases high : 2 ≤ natAt d 11 <;> simp [mark, high]
    · cases h
  · cases h

/-- A payload with a field out of its range is no configuration (R5 check 3, R92). -/
theorem parseLegConfig_none {d : List Byte} (h : 7 < natAt d 1 ∨ natAt d 2 ∉ [1, 2, 4, 8] ∨ 7 < natAt d 3
    ∨ natAt d 1 % natAt d 2 ≠ 0 ∨ 2 < natAt d 4 ∨ 63 < natAt d 8 ∨ 1 < natAt d 10 ∨ 3 < natAt d 11
    ∨ (natAt d 11 < 2 ∧ 127 < natAt d 7)) : parseLegConfig d = none := by
  unfold parseLegConfig
  dsimp only
  split
  · rename_i cap wake hcap hwake
    rw [if_neg]
    simp only [Window.legal, Bool.and_eq_true, Bool.or_eq_true, decide_eq_true_eq, beq_iff_eq]
    rintro ⟨⟨⟨⟨f, w⟩, o⟩, aligned⟩, marks, eye, presence⟩
    have cap4 : ¬2 < natAt d 4 := fun b => by rw [Rate.ofCode_beyond b] at hcap; cases hcap
    have wake10 : ¬1 < natAt d 10 := fun b => by rw [boolOf_beyond b] at hwake; cases hwake
    rcases h with h | h | h | h | h | h | h | h | ⟨low, h⟩
    · exact absurd f (by omega)
    · exact h (by simpa [or_assoc] using w)
    · exact absurd o (by omega)
    · exact h aligned
    · exact cap4 h
    · exact absurd presence (by omega)
    · exact wake10 h
    · exact absurd marks (by omega)
    · omega
  · rfl

theorem State.configure_leg (s : State) (g j : LegId) (k : LegConfig) :
    (s.configure g k).leg j = if j = g then
      { s.leg g with window := some k.window, rateCap := k.rateCap,
                     errThreshold := k.err.getD (s.cable.thresholds.row k.rateCap).err,
                     eyeFloor := k.eye.getD (s.cable.thresholds.row k.rateCap).eye, presThreshold := k.presence,
                     autoWake := k.autoWake }
      else s.leg j := by
  unfold State.configure
  rw [State.modLeg_leg]
  split
  · rw [State.installWindow_leg, if_pos rfl]
  · rename_i ne
    rw [State.installWindow_leg, if_neg ne]

theorem State.configure_lane (s : State) (g : LegId) (k : LegConfig) (c : LaneId) :
    (s.configure g k).lane c = Lane.underWindow g k.window (s.leg g).state.path c (s.lane c) :=
  State.installWindow_lane s g k.window c

theorem Lane.underWindow_taps (g : LegId) (w : Window) (p : Path) (c : LaneId) (l : Lane) :
    (Lane.underWindow g w p c l).taps = l.taps ∧ (Lane.underWindow g w p c l).pinned = l.pinned
      ∧ (Lane.underWindow g w p c l).settleUntil = l.settleUntil ∧ (Lane.underWindow g w p c l).farTaps = l.farTaps := by
  unfold Lane.underWindow
  split
  · exact ⟨rfl, rfl, rfl, rfl⟩
  · split <;> exact ⟨rfl, rfl, rfl, rfl⟩

/-- CONFIGURE_LEG of a leg of the part, by the checks of R5 in their order. -/
theorem exec_configureLeg {s : State} (takes : s.takesRequests) {g : LegId} (has : s.hasLeg g) {q : RequestBody}
    (length : q.payload.length = 12) (leg : natAt q.payload 0 = g.val) :
    exec (.configureLeg q) s = .next
      (if (s.leg g).state ≠ .off ∧ (s.leg g).state ≠ .fault then (s.taken 0x04 q.tag).wrongState g
       else
         match parseLegConfig q.payload with
         | none => (s.taken 0x04 q.tag).reply .badArgument []
         | some k =>
           if s.isHub ∧ s.conflicts g k.window then (s.taken 0x04 q.tag).reply .conflict []
           else ((s.taken 0x04 q.tag).configure g k).reply .ok (((s.taken 0x04 q.tag).configure g k).leg g).configData) := by
  refine congrArg Host.Outcome.next ((State.takeRequest_taken takes _ _ _).trans ?_)
  unfold State.doConfigureLeg
  rw [State.forLeg_eq (n := 12) length leg (show (s.taken 0x04 q.tag).hasLeg g from has)]
  rfl

theorem exec_configureLeg_ok {s : State} (takes : s.takesRequests) {g : LegId} (has : s.hasLeg g) {q : RequestBody}
    (length : q.payload.length = 12) (leg : natAt q.payload 0 = g.val) (idle : (s.leg g).state = .off ∨ (s.leg g).state = .fault)
    {k : LegConfig} (parsed : parseLegConfig q.payload = some k) (clear : s.isHub = false ∨ s.conflicts g k.window = false) :
    exec (.configureLeg q) s = .next (((s.taken 0x04 q.tag).configure g k).reply .ok
      (((s.taken 0x04 q.tag).configure g k).leg g).configData) := by
  have noConflict : ¬(s.isHub ∧ s.conflicts g k.window) := by
    rcases clear with e | e <;> simp [e]
  rw [exec_configureLeg takes has length leg, if_neg (by tauto), parsed]
  exact congrArg _ (if_neg noConflict)

end Sys2Proof.Machine

/-- Settles O41: the request's checks in order, then one lemma for the leg record and one for the lane records it sets. -/
theorem configureLegSetsItsFields : Obligations.ConfigureLegSetsItsFields := by
  unfold Obligations.ConfigureLegSetsItsFields
  refine ⟨fun s g q k takes has length leg idle parsed clear => ?_, fun s g q takes has length leg busy => ?_,
    fun s g q takes has length leg idle illegal => ?_, fun s g q k takes hub length leg idle parsed conflict => ?_⟩
  · obtain ⟨window, cap, wake, presence, err, eye⟩ := parseLegConfig_fields parsed
    refine ⟨_, exec_configureLeg_ok takes has length leg idle parsed clear, ?_, cap, wake, fun c i hi => ?_,
      fun c hc own => ?_, fun c hc other => ?_, fun c => ?_, rfl, fun j ne => ?_⟩
    · rw [State.reply_leg, State.configure_leg, if_pos rfl, err, eye, window, presence]
      rfl
    · rw [State.reply_lane, State.configure_lane, Lane.underWindow, hi]
      exact ⟨rfl, rfl⟩
    · rw [State.reply_lane, State.configure_lane, Lane.underWindow, hc]
      dsimp only
      rw [State.taken_lane, if_pos own]
      exact ⟨rfl, rfl, rfl⟩
    · rw [State.reply_lane, State.configure_lane, Lane.underWindow, hc]
      exact if_neg other
    · rw [State.reply_lane, State.configure_lane]
      exact Lane.underWindow_taps ..
    · rw [State.reply_leg, State.configure_leg, if_neg ne]
      rfl
  · rw [exec_configureLeg takes has length leg, if_pos busy]
    rfl
  · rw [exec_configureLeg takes has length leg, if_neg (by tauto), parseLegConfig_none illegal]
    rfl
  · have has : s.hasLeg g := by
      unfold State.hasLeg; unfold State.isHub at hub; rw [hub]; rfl
    rw [exec_configureLeg takes has length leg, if_neg (by tauto), parsed]
    exact congrArg _ (if_pos ⟨hub, conflict⟩)
end

