-- ==== Sys2Proof/Proofs/CommandsAtEnd.lean ====
section
/-! SUPPORT. A command frame an END takes (R138 to R140): the state its item's rule acts on. Then the EXCHANGE (R56, R57). -/

open Sys2Proof Sys2Proof.Machine

namespace Sys2Proof.Machine

/-! ### The state after step 3 of R138 -/

@[simp] theorem State.restoreSideband_lanes (s : State) (g : LegId) : (s.restoreSideband g).lanes = s.lanes := by
  unfold State.restoreSideband
  split <;> rfl

theorem State.restoreSideband_leg (s : State) (g k : LegId) :
    (s.restoreSideband g).leg k = if k = g then { s.leg g with sbLost := false } else s.leg k := by
  unfold State.restoreSideband
  split
  · rw [State.post_leg, State.modLeg_leg]
  · rename_i kept
    split
    · rename_i e
      rw [e, show ({ s.leg g with sbLost := false } : Leg) = s.leg g from by rw [← eq_false_of_ne_true kept]]
    · rfl

theorem State.restoreSideband_rest (s : State) (g : LegId) :
    s.restoreSideband g = { s with legs := (s.restoreSideband g).legs, notices := (s.restoreSideband g).notices } := by
  unfold State.restoreSideband
  split <;> rfl

@[simp] theorem State.heard_lanes (s : State) : s.heard.lanes = s.lanes := State.restoreSideband_lanes _ _

@[simp] theorem State.heard_lane (s : State) (c : LaneId) : s.heard.lane c = s.lane c := by
  simp [State.lane]

theorem State.heard_rest (s : State) :
    s.heard = { s with legs := s.heard.legs, notices := s.heard.notices,
                       resp := { s.resp with silence := some (s.after 20000) } } := by
  unfold State.heard
  rw [State.restoreSideband_rest]
  rfl

theorem State.heard_leg (s : State) (k : LegId) :
    s.heard.leg k = if k = 0 then
      { s.leg 0 with probeWait := (s.leg 0).probeWait.map (fun _ => s.after 500000), sbLost := false }
      else s.leg k := by
  unfold State.heard
  rw [State.restoreSideband_leg]
  split
  · rw [State.modLeg_leg_same]; rfl
  · rename_i ne; rw [State.modLeg_leg_other _ _ ne]; rfl

theorem State.heard_leg_zero (s : State) :
    s.heard.leg 0 = { s.leg 0 with probeWait := (s.leg 0).probeWait.map (fun _ => s.after 500000), sbLost := false } :=
  s.heard_leg 0

theorem State.heard_leg_other (s : State) {k : LegId} (h : k ≠ 0) : s.heard.leg k = s.leg k := by
  rw [State.heard_leg, if_neg h]

@[simp] theorem State.heard_held (s : State) : s.heard.resp.held = s.resp.held := by rw [State.heard_rest]

@[simp] theorem State.heard_isHub (s : State) : s.heard.isHub = s.isHub := by rw [State.heard_rest]; rfl

theorem State.heard_settingKept (s : State) : s.settingKept s.heard := by
  rw [State.heard_rest]
  exact ⟨rfl, rfl, rfl, rfl, rfl⟩

@[simp] theorem State.heard_state (s : State) : (s.heard.leg 0).state = (s.leg 0).state := by rw [State.heard_leg_zero]

@[simp] theorem State.heard_queue (s : State) : (s.heard.leg 0).queue = (s.leg 0).queue := by rw [State.heard_leg_zero]

@[simp] theorem State.heard_window (s : State) : (s.heard.leg 0).window = (s.leg 0).window := by rw [State.heard_leg_zero]

@[simp] theorem State.heard_hasIndex (s : State) (i : WinIx) : s.heard.hasIndex 0 i = s.hasIndex 0 i :=
  State.hasIndex_congr s.heard_window i

@[simp] theorem State.heard_winLane (s : State) (i : WinIx) : s.heard.winLane 0 i = s.winLane 0 i :=
  State.winLane_congr s.heard_window i

@[simp] theorem State.heard_time (s : State) : s.heard.time = s.time := by rw [State.heard_rest]

/-! ### Which rule a frame comes to (R140) -/

/-- A fresh command other than DRAIN reaches the checks of R140. -/
theorem State.takeCommand_fresh {s : State} {kind : BitVec 3} {item : Byte} {f : CommandBody} (h : s.takesCommand kind item f)
    (k : kind ≠ 5) : s.takeCommand 0 kind item f = s.heard.checkCommand kind item f := by
  obtain ⟨notHub, awake, crc, fresh⟩ := h
  unfold State.takeCommand
  rw [if_neg (by simp [crc]), if_neg (by simp [notHub]), if_neg (by simp [awake]), if_neg k, State.heard_held]
  cases held : s.resp.held with
  | none => rfl
  | some x => exact if_neg (by simp [fresh x held])

theorem State.checkCommand_exchange (s : State) {f : CommandBody} (length : f.data.length = 4) :
    s.checkCommand 4 5 f = s.takeExchange 4 5 f := by
  simp [State.checkCommand, carries, commandLength, length]

theorem State.checkCommand_storeStatus (s : State) {f : CommandBody} (length : f.data.length = 6) :
    s.checkCommand 3 6 f = s.takeStoreStatus 3 6 f := by
  simp [State.checkCommand, carries, commandLength, length]

theorem State.settingKept_trans {s t u : State} (h : s.settingKept t) (k : t.settingKept u) : s.settingKept u := by
  obtain ⟨h1, h2, h3, h4, h5⟩ := h
  obtain ⟨k1, k2, k3, k4, k5⟩ := k
  exact ⟨k1.trans h1, k2.trans h2, k3.trans h3, k4.trans h4, k5.trans h5⟩

/-- A fresh command answered REFUSE: what every clause about a refusal reads off. -/
theorem State.heard_refuse (s : State) (kind : BitVec 3) (item : Byte) (f : CommandBody) (why : RefuseReason) :
    (s.heard.refuse kind item f why).lanes = s.lanes
      ∧ (s.heard.refuse kind item f why).resp.lastSent = some (responseFrame 3 f.seq false item why.code [])
      ∧ (s.heard.refuse kind item f why).resp.held
          = some ⟨f.seq, kind, item, f.lane, f.data, responseFrame 3 f.seq false item why.code []⟩
      ∧ ((s.heard.refuse kind item f why).leg 0).state = (s.leg 0).state
      ∧ ((s.heard.refuse kind item f why).leg 0).queue = (s.leg 0).queue
      ∧ s.settingKept (s.heard.refuse kind item f why) :=
  ⟨s.heard_lanes, rfl, rfl, s.heard_state, s.heard_queue, s.heard_settingKept.1, s.heard_settingKept.2.1,
    s.heard_settingKept.2.2.1, s.heard_settingKept.2.2.2.1, s.heard_settingKept.2.2.2.2⟩

/-! ### Applying a request (R49 to R55) -/

theorem tapsOf_of_lawful {t : Taps} (h : t.lawful) : tapsOf t.pre t.post = t := by
  obtain ⟨pre, main, post⟩ := t
  obtain ⟨-, -, main, -⟩ := Taps.lawful_iff.mp h
  exact congrArg (Taps.mk pre · post) main.symm

theorem judgeField_kept {cur limit : Nat} {c : StepCode} (h : (judgeField cur limit c).2 ≠ .updated) :
    (judgeField cur limit c).1 = cur := by
  unfold judgeField at h ⊢
  split
  · rfl
  · split <;> simp_all
  · split <;> simp_all

theorem revertField_kept {cur : Nat} {c : StepCode} {j : Nat × TapStat} (hj : j.2 ≠ .updated → j.1 = cur)
    (h : (revertField cur c j).2 ≠ .updated) : (revertField cur c j).1 = cur := by
  unfold revertField at h ⊢
  split
  · rfl
  · rename_i no
    rw [if_neg no] at h
    exact hj h

/-- A request that updates no field leaves lawful taps as they are (R54). -/
theorem applyRequest_unwritten {presets : Vector Preset 8} {pinned : Bool} {t : Taps} {q : TapRequest} (lawful : t.lawful)
    (hp : (applyRequest presets pinned t q).2.1 ≠ .updated) (hq : (applyRequest presets pinned t q).2.2 ≠ .updated) :
    (applyRequest presets pinned t q).1 = t := by
  unfold applyRequest at hp hq ⊢
  split
  · rfl
  · rename_i free
    rw [if_neg free] at hp hq
    cases q with
    | preset n => exact absurd rfl hp
    | load a b =>
      unfold applyLoad at hp hq ⊢
      dsimp only at hp hq ⊢
      split
      · rfl
      · rename_i small
        rw [if_neg small] at hp
        split
        · rename_i fits
          rw [if_pos fits] at hp
          exact absurd rfl hp
        · rfl
    | step a b =>
      unfold applyStep at hp hq ⊢
      dsimp only at hp hq ⊢
      have pre := judgeField_kept (cur := t.pre) (limit := 12) (c := a)
      have post := judgeField_kept (cur := t.post) (limit := 18) (c := b)
      split at hp
      · rename_i heavy
        rw [if_pos heavy] at hq
        rw [if_pos heavy, if_pos heavy, revertField_kept pre hp, revertField_kept post hq]
        exact tapsOf_of_lawful lawful
      · rename_i fits
        rw [if_neg fits] at hq
        rw [if_neg fits, if_neg fits, pre hp, post hq]
        exact tapsOf_of_lawful lawful

theorem State.tapOutcome_congr {s t : State} {g : LegId} (lanes : t.lanes = s.lanes) (cable : t.cable = s.cable)
    (window : (t.leg g).window = (s.leg g).window) (i : WinIx) (q : TapRequest) : t.tapOutcome g i q = s.tapOutcome g i q := by
  simp [State.tapOutcome, State.lane, State.winLane_congr window, lanes, cable]

@[simp] theorem State.heard_tapOutcome (s : State) (i : WinIx) (q : TapRequest) :
    s.heard.tapOutcome 0 i q = s.tapOutcome 0 i q :=
  State.tapOutcome_congr s.heard_lanes s.heard_settingKept.2.2.2.1 s.heard_window i q

/-- The lane a request is applied to: its taps, and a settle exactly where a field was updated (R16, R54). -/
theorem State.applyTaps_lane (s : State) (g : LegId) (i : WinIx) (q : TapRequest) (lawful : (s.lane (s.winLane g i)).taps.lawful)
    (c : LaneId) :
    (s.applyTaps g i q).lane c = if c = s.winLane g i then
      { s.lane (s.winLane g i) with
        taps := (s.tapOutcome g i q).taps
        settleUntil := if (s.tapOutcome g i q).pre = .updated ∨ (s.tapOutcome g i q).post = .updated then some (s.after 300)
          else (s.lane (s.winLane g i)).settleUntil }
      else s.lane c := by
  have wrote : (s.tapOutcome g i q).wrote ↔ (s.tapOutcome g i q).pre = .updated ∨ (s.tapOutcome g i q).post = .updated := by
    simp [TapStatus.wrote]
  rcases s.applyTaps_cases g i q with ⟨w, e⟩ | ⟨w, e⟩ <;> rw [e]
  · rw [State.writeTaps, State.modLane_lane, if_pos (wrote.mp w)]
  · have no : ¬((s.tapOutcome g i q).pre = .updated ∨ (s.tapOutcome g i q).post = .updated) := fun u => by
      rw [wrote.mpr u] at w; cases w
    rw [if_neg no]
    split
    · rename_i same
      have kept : (s.tapOutcome g i q).taps = (s.lane (s.winLane g i)).taps :=
        applyRequest_unwritten lawful (fun u => no (.inl u)) (fun u => no (.inr u))
      rw [kept, same]
    · rfl

theorem State.applyTaps_rest (s : State) (g : LegId) (i : WinIx) (q : TapRequest) :
    s.applyTaps g i q = { s with lanes := (s.applyTaps g i q).lanes } := by
  rcases s.applyTaps_cases g i q with ⟨-, e⟩ | ⟨-, e⟩
  · rw [e]; rfl
  · rw [e]

/-! ### Reading a tap request (R56, R60, R197) -/

theorem StepCode.ofCode_beyond {n : Nat} (h : 2 < n) : StepCode.ofCode n = none := by
  unfold StepCode.ofCode
  split <;> first | omega | rfl

/-- A form that is none of the three, a field code above 2 or a preset above 7 is no request. -/
theorem parseTapRequest_none {d : List Byte} (h : natAt d 1 ∉ [1, 2, 3] ∨ (natAt d 1 = 1 ∧ (2 < natAt d 2 ∨ 2 < natAt d 3))
    ∨ (natAt d 1 = 2 ∧ 7 < natAt d 2)) : parseTapRequest d = none := by
  rcases h with form | ⟨form, code⟩ | ⟨form, preset⟩
  · simp only [List.mem_cons, List.not_mem_nil, or_false, not_or] at form
    unfold parseTapRequest
    split
    · exact absurd ‹_› form.1
    · exact absurd ‹_› form.2.1
    · exact absurd ‹_› form.2.2
    · rfl
  · unfold parseTapRequest
    rw [form]
    rcases code with c | c
    · rw [StepCode.ofCode_beyond c]; rfl
    · rw [StepCode.ofCode_beyond c]
      cases StepCode.ofCode (natAt d 2) <;> rfl
  · unfold parseTapRequest
    rw [form]
    exact dif_neg (by omega)

/-! ### The EXCHANGE at an END -/

theorem exec_exchangeTapRequest {s : State} {f : CommandBody} (takes : s.takesCommand 4 5 f) (length : f.data.length = 4) :
    exec (.exchangeTapRequest 0 f) s = .next (s.heard.takeExchange 4 5 f) :=
  congrArg Host.Outcome.next ((State.takeCommand_fresh takes (by decide)).trans (s.heard.checkCommand_exchange length))

theorem State.takeExchange_wrongState {s : State} {f : CommandBody} (h : (s.leg 0).state ≠ .train) :
    s.takeExchange 4 5 f = s.refuse 4 5 f .wrongState := if_pos h

theorem State.takeExchange_badLane {s : State} {f : CommandBody} (train : (s.leg 0).state = .train)
    (none : s.hasIndex 0 f.lane = false) : s.takeExchange 4 5 f = s.refuse 4 5 f .badLane := by
  unfold State.takeExchange
  rw [if_neg (by simp [train]), if_pos none]

theorem State.takeExchange_badValue {s : State} {f : CommandBody} (train : (s.leg 0).state = .train)
    (has : s.hasIndex 0 f.lane) (bad : natAt f.data 0 ≠ f.lane.val ∨ parseTapRequest f.data = none) :
    s.takeExchange 4 5 f = s.refuse 4 5 f .badValue := by
  unfold State.takeExchange
  rw [if_neg (by simp [train]), if_neg (by simp [has])]
  cases parsed : parseTapRequest f.data with
  | none => rfl
  | some q => exact if_pos (bad.resolve_right (by simp [parsed]))

theorem State.takeExchange_good {s : State} {f : CommandBody} (train : (s.leg 0).state = .train) (has : s.hasIndex 0 f.lane)
    {q : TapRequest} (parsed : parseTapRequest f.data = some q) (index : natAt f.data 0 = f.lane.val) :
    s.takeExchange 4 5 f = if (s.lane (s.winLane 0 f.lane)).settleUntil.isSome then s.defer 5 f
      else (s.applyTaps 0 f.lane q).ack 4 5 f (s.tapOutcome 0 f.lane q).bytes := by
  unfold State.takeExchange
  rw [if_neg (by simp [train]), if_neg (by simp [has]), parsed]
  exact if_neg (by simp [index])

end Sys2Proof.Machine

/-- Settles O34: a fresh EXCHANGE comes to `takeExchange`, whose branches the clauses are. -/
theorem endAppliesExchange : Obligations.EndAppliesExchange := by
  unfold Obligations.EndAppliesExchange
  refine ⟨fun s f q takes train has length parsed index settled lawful => ?_,
    fun s f q takes train has length parsed index settling => ?_, fun s f takes length other => ?_,
    fun s f takes train length none => ?_, fun s f takes train length has bad => ?_⟩
  · have good := State.takeExchange_good (s := s.heard) (by simpa using train) (by simpa using has) parsed index
    rw [if_neg (by simp [settled])] at good
    have lane := s.heard.applyTaps_lane 0 f.lane q (by simpa using lawful)
    simp only [State.heard_winLane, State.heard_tapOutcome, State.heard_lane] at lane
    have rest := s.heard.applyTaps_rest 0 f.lane q
    have leg : (s.heard.applyTaps 0 f.lane q).leg 0 = s.heard.leg 0 := by rw [rest]; rfl
    have same := lane (s.winLane 0 f.lane)
    rw [if_pos rfl, settled] at same
    refine ⟨_, (exec_exchangeTapRequest takes length).trans (congrArg _ good), (congrArg Lane.taps same :), ?_,
      (congrArg Lane.farTaps same :), fun c ne => ?_, ?_, ?_, ?_, ?_⟩
    · refine (congrArg Lane.settleUntil same :).trans ?_
      rw [State.after, State.heard_time]
      rfl
    · exact (lane c).trans (if_neg ne)
    · rw [State.heard_tapOutcome]; rfl
    · exact (congrArg Leg.state leg).trans (s.heard_state.trans train)
    · exact (congrArg Leg.queue leg).trans s.heard_queue
    · refine State.settingKept_trans s.heard_settingKept ?_
      rw [rest]
      exact ⟨rfl, rfl, rfl, rfl, rfl⟩
  · have good := State.takeExchange_good (s := s.heard) (by simpa using train) (by simpa using has) parsed index
    rw [if_pos (by simpa [Option.isSome_iff_ne_none] using settling)] at good
    exact ⟨_, (exec_exchangeTapRequest takes length).trans (congrArg _ good), s.heard_lanes, s.heard_held, rfl, s.heard_queue⟩
  · obtain ⟨lanes, sent, -, state, -⟩ := s.heard_refuse 4 5 f .wrongState
    exact ⟨_, (exec_exchangeTapRequest takes length).trans (congrArg _ (State.takeExchange_wrongState (by simpa using other))),
      lanes, sent, state⟩
  · obtain ⟨lanes, sent, held, state, queue, setting⟩ := s.heard_refuse 4 5 f .badLane
    exact ⟨_, (exec_exchangeTapRequest takes length).trans (congrArg _ (State.takeExchange_badLane (by simpa using train)
      (by simpa using none))), lanes, sent, held, state.trans train, queue, setting⟩
  · obtain ⟨lanes, sent, held, state, queue, setting⟩ := s.heard_refuse 4 5 f .badValue
    exact ⟨_, (exec_exchangeTapRequest takes length).trans (congrArg _ (State.takeExchange_badValue (by simpa using train)
      (by simpa using has) (bad.imp_right parseTapRequest_none))), lanes, sent, held, state.trans train, queue, setting⟩
end

