-- ==== Sys2Proof/Proofs/ArbiterChoices.lean ====
section
/-! SUPPORT. What the arbiter's choice at the end of an event leaves as it was (R152 to R160): everything but traffic fields, a
leg in OFF or FAULT, and every item on its way. -/

open Sys2Proof Sys2Proof.Machine

namespace Sys2Proof.Machine

/-! ### The shape of a choice -/

/-- A leg in OFF or FAULT has no demand (R153). -/
theorem Leg.demand_awake {l : Leg} (h : 0 < l.demand) : l.state ≠ .off ∧ l.state ≠ .fault := by
  by_cases idle : l.state = .off ∨ l.state = .fault
  · simp [Leg.demand, idle] at h
  · exact not_or.mp idle

theorem State.bestLeg_demand {s : State} {g : LegId} (h : s.bestLeg = some g) : 0 < (s.leg g).demand := by
  unfold State.bestLeg at h
  suffices step : ∀ (ks : List LegId) (b : Option LegId), (∀ k, b = some k → 0 < (s.leg k).demand) →
      ∀ k, ks.foldl (fun b g => if ((b.map (fun k => (s.leg k).demand)).getD 0) < (s.leg g).demand then some g else b) b
        = some k → 0 < (s.leg k).demand from step _ none (fun _ e => nomatch e) g h
  intro ks
  induction ks with
  | nil => exact fun b hb k e => hb k e
  | cons k ks ih =>
    refine fun b hb => ih _ fun j e => ?_
    dsimp only at e
    split at e
    · rename_i more
      cases e
      exact Nat.lt_of_le_of_lt (Nat.zero_le _) more
    · exact hb j e

/-- What holds of the state, survives the end of a grant, a grant and the start of a transaction of a leg out of OFF and FAULT
holds after the choice. -/
theorem State.arbitrate_induct {s : State} {P : State → Prop} (start : P s) (ended : ∀ r, P (s.endGrant r))
    (granted : ∀ t x, P t → P { t with grant := x })
    (begun : ∀ t k u, P t → t.tx = none → (t.leg k).state ≠ .off → (t.leg k).state ≠ .fault → t.startNext k = some u → P u)
    (ends : Bool) : P (s.arbitrate ends) := by
  have chosen (t : State) (free : t.tx = none) (h : P t) : P t.choose := by
    unfold State.choose
    split
    · exact h
    · rename_i k best
      obtain ⟨off, fault⟩ := Leg.demand_awake (State.bestLeg_demand best)
      cases e : State.startNext { t with grant := some ⟨k, 0, 8⟩ } k with
      | none => exact h
      | some u => exact begun { t with grant := some ⟨k, 0, 8⟩ } k u (granted t _ h) free off fault e
  unfold State.arbitrate
  split
  · exact start
  · rename_i busy
    have free : s.tx = none := by simpa using (not_or.mp busy).2
    split
    · exact chosen s free start
    · rename_i r _
      have passed (r : Grant) : P (s.endGrant r).choose := chosen _ free (ended r)
      dsimp only
      split
      · exact passed _
      · rename_i held
        simp only [not_or] at held
        obtain ⟨-, off, fault, -⟩ := held
        have same : (s.extended r).leg = r.leg := by unfold State.extended; split <;> rfl
        split
        · rename_i u e
          rw [same] at off fault e
          exact begun { s with grant := some (s.extended r) } r.leg u (granted s _ start) free off fault e
        · exact passed _

theorem State.beginTx_leg (s : State) (g k : LegId) (w : Work) :
    (s.beginTx g w).leg k = if k = g then
      { s.leg g with seq := !(s.leg g).seq
                     beat := if w = .drain ∧ (s.leg g).beatTaken then (s.leg g).beat + 1 else (s.leg g).beat
                     beatTaken := if w = .drain then false else (s.leg g).beatTaken }
      else s.leg k :=
  State.modLeg_leg s g k (fun l =>
    { l with seq := !l.seq
             beat := if w = .drain ∧ (s.leg g).beatTaken then (s.leg g).beat + 1 else (s.leg g).beat
             beatTaken := if w = .drain then false else l.beatTaken })

/-- What starting a transaction of leg k does to the legs and the engine: the head item goes out, or else a DRAIN beat. -/
theorem State.startNext_cases {s t : State} {k : LegId} (h : s.startNext k = some t) :
    ∃ l : Leg, (∀ role, (l.queue, l.heldItems role) = ((s.leg k).queue, (s.leg k).heldItems role))
      ∧ ((∃ i, (s.leg k).queue.head? = some i ∧ t.tx.map (fun x => (x.leg, x.work)) = some (k, .item i)
            ∧ ∀ g, t.leg g = if g = k then l.popped s.role else s.leg g)
          ∨ (t.tx.map (fun x => (x.leg, x.work)) = some (k, .drain) ∧ ∀ g, t.leg g = if g = k then l else s.leg g)) := by
  have begun (w : Work) (role : Role) : (((s.beginTx k w).leg k).queue, ((s.beginTx k w).leg k).heldItems role)
      = ((s.leg k).queue, (s.leg k).heldItems role) := by
    rw [State.beginTx_leg, if_pos rfl]
    rfl
  unfold State.startNext at h
  split at h
  · rename_i i head
    cases h
    refine ⟨(s.beginTx k (.item i)).leg k, begun _, .inl ⟨i, head, rfl, fun g => ?_⟩⟩
    refine (State.modLeg_leg (s.beginTx k (.item i)) k g (fun l => l.popped s.role)).trans ?_
    split
    · rfl
    · rename_i ne; rw [State.beginTx_leg, if_neg ne]
  · split at h
    · cases h
      refine ⟨(s.beginTx k .drain).leg k, begun _, .inr ⟨rfl, fun g => ?_⟩⟩
      split
      · rename_i e; rw [e]; rfl
      · rename_i ne; exact (State.beginTx_leg s k g .drain).trans (if_neg ne)
    · cases h

theorem State.startNext_leg_other {s t : State} {k g : LegId} (h : s.startNext k = some t) (ne : g ≠ k) : t.leg g = s.leg g := by
  obtain ⟨l, -, ⟨i, -, -, leg⟩ | ⟨-, leg⟩⟩ := State.startNext_cases h <;> rw [leg, if_neg ne]

theorem State.startNext_tx_leg {s t : State} {k : LegId} (h : s.startNext k = some t) : ∀ x, t.tx = some x → x.leg = k := by
  intro x hx
  obtain ⟨l, -, ⟨i, -, tx, -⟩ | ⟨tx, -⟩⟩ := State.startNext_cases h <;> rw [hx] at tx <;>
    exact (Prod.mk.inj (Option.some.inj tx)).1

/-! ### Fields a choice does not move -/

@[simp] theorem State.arbitrate_role (s : State) (ends : Bool) : (s.arbitrate ends).role = s.role := by
  rw [(s.arbitrate_trafficOnly ends).1]

@[simp] theorem State.arbitrate_time (s : State) (ends : Bool) : (s.arbitrate ends).time = s.time := by
  rw [(s.arbitrate_trafficOnly ends).1]

@[simp] theorem State.arbitrate_lanes (s : State) (ends : Bool) : (s.arbitrate ends).lanes = s.lanes := by
  rw [(s.arbitrate_trafficOnly ends).1]

@[simp] theorem State.arbitrate_lane (s : State) (ends : Bool) (c : LaneId) : (s.arbitrate ends).lane c = s.lane c := by
  simp [State.lane]

@[simp] theorem State.arbitrate_resp (s : State) (ends : Bool) : (s.arbitrate ends).resp = s.resp := by
  rw [(s.arbitrate_trafficOnly ends).1]

@[simp] theorem State.arbitrate_cable (s : State) (ends : Bool) : (s.arbitrate ends).cable = s.cable := by
  rw [(s.arbitrate_trafficOnly ends).1]

@[simp] theorem State.arbitrate_port (s : State) (ends : Bool) : (s.arbitrate ends).port = s.port := by
  rw [(s.arbitrate_trafficOnly ends).1]

@[simp] theorem State.arbitrate_notices (s : State) (ends : Bool) : (s.arbitrate ends).notices = s.notices := by
  rw [(s.arbitrate_trafficOnly ends).1]

theorem State.arbitrate_settingKept (s : State) (ends : Bool) : s.settingKept (s.arbitrate ends) :=
  ⟨s.arbitrate_role ends, by rw [(s.arbitrate_trafficOnly ends).1], s.arbitrate_time ends, s.arbitrate_cable ends,
    by rw [(s.arbitrate_trafficOnly ends).1]⟩

theorem State.arbitrate_apart (s : State) (ends : Bool) (g : LegId) : ((s.arbitrate ends).leg g).apart = (s.leg g).apart :=
  (s.arbitrate_trafficOnly ends).2 g

/-- Two leg records equal apart from traffic differ in the traffic fields only. -/
theorem Leg.eq_of_apart {l m : Leg} (h : m.apart = l.apart) :
    m = { l with queue := m.queue, overflow := m.overflow, statusHold := m.statusHold, laneHold := m.laneHold,
                 reportHold := m.reportHold, healthHold := m.healthHold, seq := m.seq, beat := m.beat,
                 beatTaken := m.beatTaken, passOver := m.passOver } := by
  cases l
  cases m
  simp only [Leg.apart, Leg.mk.injEq] at h ⊢
  tauto

/-- A field the arbiter does not move (R126, R143, R150, R154) stands as it stood. -/
theorem State.arbitrate_field {α : Type} (f : Leg → α) (apart : ∀ l : Leg, f l.apart = f l) (s : State) (ends : Bool) (g : LegId) :
    f ((s.arbitrate ends).leg g) = f (s.leg g) := by
  rw [← apart, s.arbitrate_apart, apart]

@[simp] theorem State.arbitrate_state (s : State) (ends : Bool) (g : LegId) :
    ((s.arbitrate ends).leg g).state = (s.leg g).state := State.arbitrate_field Leg.state (fun _ => rfl) s ends g

@[simp] theorem State.arbitrate_window (s : State) (ends : Bool) (g : LegId) :
    ((s.arbitrate ends).leg g).window = (s.leg g).window := State.arbitrate_field Leg.window (fun _ => rfl) s ends g

/-! ### A leg in OFF or FAULT -/

/-- Of a leg in OFF or FAULT a choice moves nothing but the pass-over count, and that to 0 (R153, R154, R158). -/
theorem State.arbitrate_idle {s : State} {g : LegId} (idle : (s.leg g).state = .off ∨ (s.leg g).state = .fault) (ends : Bool) :
    ∃ p, (p = 0 ∨ p = (s.leg g).passOver) ∧ (s.arbitrate ends).leg g = { s.leg g with passOver := p } := by
  refine State.arbitrate_induct (P := fun t => ∃ p, (p = 0 ∨ p = (s.leg g).passOver) ∧ t.leg g = { s.leg g with passOver := p })
    ⟨(s.leg g).passOver, .inr rfl, rfl⟩ (fun r => ⟨0, .inl rfl, ?_⟩) (fun t x h => h) (fun t k u h free off fault e => ?_) ends
  · have asleep : ¬0 < (s.leg g).demand := fun d => by
      obtain ⟨off, fault⟩ := Leg.demand_awake d
      exact idle.elim off fault
    rw [State.endGrant_leg]
    simp [Leg.passedOver, asleep]
  · obtain ⟨p, hp, same⟩ := h
    have other : g ≠ k := by
      rintro rfl
      rw [same] at off fault
      exact idle.elim off fault
    exact ⟨p, hp, (State.startNext_leg_other e other).trans same⟩

/-- A choice starts no transaction of a leg in OFF or FAULT. -/
theorem State.arbitrate_tx_idle {s : State} {g : LegId} (idle : (s.leg g).state = .off ∨ (s.leg g).state = .fault)
    (h : ∀ x, s.tx = some x → x.leg ≠ g) (ends : Bool) : ∀ x, (s.arbitrate ends).tx = some x → x.leg ≠ g := by
  refine (State.arbitrate_induct (P := fun t => (t.leg g).state = (s.leg g).state ∧ ∀ x, t.tx = some x → x.leg ≠ g)
    ⟨rfl, h⟩ (fun r => ⟨by rw [State.endGrant_leg], h⟩) (fun t x h => h) (fun t k u h free off fault e => ?_) ends).2
  obtain ⟨state, -⟩ := h
  have other : k ≠ g := by
    rintro rfl
    rw [state] at off fault
    exact idle.elim off fault
  exact ⟨(congrArg Leg.state (Leg.eq_of_apart ((State.startNext_trafficOnly e).2 g))).trans state,
    fun x hx => State.startNext_tx_leg e x hx ▸ other⟩

/-! ### The end of a grant (R154, R155) -/

theorem State.startNext_grant {s t : State} {g : LegId} (h : s.startNext g = some t) :
    t.grant = s.grant.map (fun r => { r with count := r.count + 1 }) := by
  unfold State.startNext at h
  split at h
  · cases h; rfl
  · split at h
    · cases h; rfl
    · cases h

theorem State.choose_grant {s : State} (none : s.grant = none) : ∀ r, s.choose.grant = some r → r.count = 1 ∧ r.limit = 8 := by
  unfold State.choose
  split
  · simp [none]
  · rename_i g _
    cases e : State.startNext { s with grant := some ⟨g, 0, 8⟩ } g with
    | none => simp [none]
    | some t =>
      intro r hr
      rw [Option.getD_some, State.startNext_grant e] at hr
      cases hr
      exact ⟨rfl, rfl⟩

/-- Told to end the grant, the free engine of a HUB leaves none but the grant of the choice that follows. -/
theorem State.arbitrate_ends_grant {s : State} (hub : s.isHub) (free : s.tx = none) {r : Grant} (held : s.grant = some r) :
    ∀ q, (s.arbitrate true).grant = some q → q.count = 1 ∧ q.limit = 8 := by
  unfold State.arbitrate
  rw [if_neg (by simp [hub, free]), held]
  exact State.choose_grant rfl

/-! ### Items on their way (R147, R150) -/

/-- The item waits in the leg's queue or in a hold of it. -/
def Leg.carries (l : Leg) (role : Role) (i : Item) : Prop := i ∈ l.queue ∨ i ∈ l.heldItems role

theorem State.sends_iff {s : State} {g : LegId} {i : Item} :
    s.sends g i ↔ (s.leg g).carries s.role i ∨ s.tx.map (fun x => (x.leg, x.work)) = some (g, .item i) := by
  rw [Leg.carries, or_assoc]
  exact Iff.rfl

theorem Leg.mem_heldItems {l : Leg} {role : Role} {i : Item} :
    i ∈ l.heldItems role ↔
      (role = .hubRole ∧ (l.overflow = some i ∨ ∃ k : WinIx, (l.statusHold[k]).map Item.storeStatus = some i))
        ∨ (role = .endRole ∧ ((l.healthHold ∧ i = .retrainRequest) ∨ l.reportHold = some i))
        ∨ ∃ k : WinIx, (l.laneHold[k]).map (requestItem role k) = some i := by
  unfold Leg.heldItems
  rw [List.mem_append, ← or_assoc]
  refine or_congr ?_ ?_
  · cases role
    · simp only [List.mem_append, Option.mem_toList, List.mem_filterMap, mem_allLanes, true_and]
      simp
    · simp only [List.mem_append, Option.mem_toList]
      cases l.healthHold <;> simp
  · simp [List.mem_filterMap, mem_allLanes]

/-- Taking the next held item out leaves every other held item where it is. -/
theorem Leg.nextHeld_mem {l m : Leg} {role : Role} {i j : Item} (h : l.nextHeld role = some (i, m)) (hj : j ∈ l.heldItems role) :
    j = i ∨ j ∈ m.heldItems role := by
  have set_other {α : Type} (v : Vector (Option α) 8) (f : WinIx → α → Item) (k n : WinIx) (p : α) (q : Item)
      (hn : v[n] = some p) (hk : (v[k]).map (f k) = some q) :
      q = f n p ∨ ((v.set n.val none n.isLt)[k]).map (f k) = some q := by
    by_cases e : k = n
    · subst e
      rw [hn] at hk
      exact .inl (Option.some.inj hk).symm
    · have ne : n.val ≠ k.val := fun e' => e (Fin.ext e'.symm)
      exact .inr (by rw [← hk]; simp [ne])
  have lane (held : l.firstLaneHeld role = some (i, m)) (k : WinIx) (hk : (l.laneHold[k]).map (requestItem role k) = some j) :
      j = i ∨ (m.laneHold[k]).map (requestItem role k) = some j := by
    obtain ⟨n, -, hn⟩ := List.exists_of_findSome?_eq_some held
    rw [Option.map_eq_some_iff] at hn
    obtain ⟨q, hq, e⟩ := hn
    cases e
    exact set_other l.laneHold (requestItem role) k n q j hq hk
  have laneRest (held : l.firstLaneHeld role = some (i, m)) : m = { l with laneHold := m.laneHold } := by
    obtain ⟨n, -, hn⟩ := List.exists_of_findSome?_eq_some held
    obtain ⟨q, -, e⟩ := Option.map_eq_some_iff.mp hn
    cases e
    rfl
  rw [Leg.mem_heldItems] at hj ⊢
  unfold Leg.nextHeld at h
  cases role with
  | hubRole =>
    dsimp only at h
    split at h
    · rename_i o ho
      cases h
      rw [ho] at hj
      rcases hj with ⟨-, held | status⟩ | ⟨wrong, -⟩ | held
      · exact .inl (Option.some.inj held).symm
      · exact .inr (.inl ⟨rfl, .inr status⟩)
      · exact nomatch wrong
      · exact .inr (.inr (.inr held))
    · rename_i none
      rw [Option.or_eq_some_iff] at h
      rcases h with status | ⟨-, held⟩
      · obtain ⟨n, -, hn⟩ := List.exists_of_findSome?_eq_some status
        obtain ⟨q, hq, e⟩ := Option.map_eq_some_iff.mp hn
        cases e
        rcases hj with ⟨-, held | ⟨k, hk⟩⟩ | ⟨wrong, -⟩ | held
        · rw [none] at held; cases held
        · exact (set_other l.statusHold (fun _ => Item.storeStatus) k n q j hq hk).imp id
            fun h => .inl ⟨rfl, .inr ⟨k, h⟩⟩
        · exact nomatch wrong
        · exact .inr (.inr (.inr held))
      · rcases hj with first | ⟨wrong, -⟩ | ⟨k, hk⟩
        · rw [laneRest held]; exact .inr (.inl first)
        · exact nomatch wrong
        · exact (lane held k hk).imp id fun h => .inr (.inr ⟨k, h⟩)
  | endRole =>
    dsimp only at h
    split at h
    · rename_i due
      cases h
      rcases hj with ⟨wrong, -⟩ | ⟨-, ⟨-, e⟩ | rep⟩ | held
      · exact nomatch wrong
      · exact .inl e
      · exact .inr (.inr (.inl ⟨rfl, .inr rep⟩))
      · exact .inr (.inr (.inr held))
    · rename_i due
      split at h
      · rename_i o ho
        cases h
        rcases hj with ⟨wrong, -⟩ | ⟨-, ⟨health, -⟩ | rep⟩ | held
        · exact nomatch wrong
        · exact absurd health due
        · rw [ho] at rep; exact .inl (Option.some.inj rep).symm
        · exact .inr (.inr (.inr held))
      · rcases hj with ⟨wrong, -⟩ | second | ⟨k, hk⟩
        · exact nomatch wrong
        · rw [laneRest h]; exact .inr (.inr (.inl second))
        · exact (lane h k hk).imp id fun h => .inr (.inr ⟨k, h⟩)

/-- Filling free places moves items from the holds to the queue and loses none (R150). -/
theorem Leg.fillHolds_carries (role : Role) (n : Nat) {l : Leg} {i : Item} (h : l.carries role i) :
    (Leg.fillHolds role n l).carries role i := by
  induction n generalizing l with
  | zero => exact h
  | succ n ih =>
    unfold Leg.fillHolds
    split
    · split
      · rename_i j m next
        refine ih ?_
        rcases h with queued | held
        · have kept : m.queue = l.queue := by rw [Leg.nextHeld_same next]
          exact .inl (List.mem_append_left _ (kept ▸ queued))
        · exact (Leg.nextHeld_mem next held).elim (fun e => .inl (e ▸ List.mem_append_right _ (List.mem_singleton_self i))) .inr
      · exact h
    · exact h

/-- What a leg carried but for the head item it still carries after the head item has left. -/
theorem Leg.popped_carries {role : Role} {l : Leg} {i j : Item} (head : l.queue.head? = some j) (h : l.carries role i) :
    i = j ∨ (l.popped role).carries role i := by
  rcases h with queued | held
  · cases e : l.queue with
    | nil => rw [e] at queued; cases queued
    | cons k rest =>
      rw [e] at queued head
      cases head
      rcases List.mem_cons.mp queued with same | later
      · exact .inl same
      · exact .inr (Leg.fillHolds_carries role 4 (.inl (by rw [e]; exact later)))
  · exact .inr (Leg.fillHolds_carries role 4 (.inr held))

theorem Leg.carries_congr {l m : Leg} {role : Role} {i : Item} (h : (m.queue, m.heldItems role) = (l.queue, l.heldItems role)) :
    m.carries role i ↔ l.carries role i := by
  obtain ⟨queue, held⟩ := Prod.mk.inj h
  rw [Leg.carries, Leg.carries, queue, held]

/-- The start of a transaction by the free engine loses no item on its way: the head item is now the transaction's. -/
theorem State.startNext_sends {s t : State} {k g : LegId} {i : Item} (h : s.startNext k = some t) (free : s.tx = none)
    (sent : s.sends g i) : t.sends g i := by
  have carried : (s.leg g).carries s.role i := by
    rw [State.sends_iff, free] at sent
    exact sent.resolve_right fun e => nomatch e
  have role : t.role = s.role := by rw [(State.startNext_trafficOnly h).1]
  rw [State.sends_iff, role]
  by_cases e : g = k
  · subst e
    obtain ⟨l, same, ⟨j, head, tx, leg⟩ | ⟨-, leg⟩⟩ := State.startNext_cases h <;> rw [leg, if_pos rfl]
    · have head' : l.queue.head? = some j := by rw [(Prod.mk.inj (same s.role)).1]; exact head
      refine (Leg.popped_carries head' ((Leg.carries_congr (same s.role)).mpr carried)).symm.imp id fun e => ?_
      rw [tx, e]
    · exact .inl ((Leg.carries_congr (same s.role)).mpr carried)
  · rw [State.startNext_leg_other h e]
    exact .inl carried

/-- A choice loses no item on its way. -/
theorem State.arbitrate_sends {s : State} {g : LegId} {i : Item} (h : s.sends g i) (ends : Bool) : (s.arbitrate ends).sends g i := by
  refine State.arbitrate_induct (P := fun t => t.sends g i) h (fun r => ?_) (fun _ _ h => h)
    (fun _ _ _ h free _ _ e => State.startNext_sends e free h) ends
  rw [State.sends_iff] at h ⊢
  rw [State.endGrant_leg]
  exact h

end Sys2Proof.Machine
end

