-- ==== Sys2Proof/Proofs/ResettingLeg.lean ====
section
/-! SUPPORT. RESET_LEG (R18, R27, R134): the leg's record, the lanes, the responder and the notices after it, then the choice
that follows, which leaves a leg in OFF alone. -/

open Sys2Proof Sys2Proof.Machine

namespace Sys2Proof.Machine

@[simp] theorem State.enter_tx (s : State) (g : LegId) (new : LegState) (cause : LegCause) (attempt : Option Nat) :
    (s.enter g new cause attempt).tx = s.tx.map (orphaned g) := rfl

theorem State.enter_resp (s : State) (g : LegId) (new : LegState) (cause : LegCause) (attempt : Option Nat) :
    (s.enter g new cause attempt).resp = if s.isHub then s.resp else s.resp.entered (s.leg g).state new s.time := rfl

/-! ### Flushing and abandoning (R134, R135, R146) -/

theorem State.farReadDone_rest (s : State) (st : Status) (payload : List Byte) :
    s.farReadDone st payload = { s with port := (s.farReadDone st payload).port } := by
  rcases s.farReadDone_cases st payload with e | e <;> rw [e]
  rfl

/-- A flush empties the leg's queue and holds and at an END the beat hold; only a FAR_READ's reply may come of it. -/
theorem State.flush_rest (s : State) (g : LegId) :
    s.flush g = { s with legs := (s.modLeg g Leg.flushed).legs, resp := if s.isHub then s.resp else s.resp.withoutBeat,
                         port := (s.flush g).port } := by
  have dropped : (if s.isHub then s.modLeg g Leg.flushed else { s.modLeg g Leg.flushed with resp := s.resp.withoutBeat })
      = { s with legs := (s.modLeg g Leg.flushed).legs, resp := if s.isHub then s.resp else s.resp.withoutBeat } := by
    split <;> rfl
  unfold State.flush
  dsimp only [State.modLeg_resp]
  rw [dropped]
  split
  · exact State.farReadDone_rest _ _ _
  · rfl

/-- An abandoned transaction leaves the engine free; only a FAR_READ's reply may come of it. -/
theorem State.abandon_rest (s : State) (g : LegId) :
    s.abandon g = { s with tx := s.tx.filter (fun x => x.leg ≠ g), port := (s.abandon g).port } := by
  unfold State.abandon
  cases e : s.tx with
  | none => dsimp only [Option.filter]; rw [← e]
  | some x =>
    dsimp only
    by_cases own : x.leg = g
    · have dropped : (some x).filter (fun x => x.leg ≠ g) = none := by simp [own]
      rw [if_pos own, dropped]
      split
      · exact State.farReadDone_rest _ _ _
      · rfl
    · have kept : (some x).filter (fun x => x.leg ≠ g) = s.tx := by simp [own, e]
      rw [if_neg own, kept]

@[simp] theorem State.flush_role (s : State) (g : LegId) : (s.flush g).role = s.role := by rw [State.flush_rest]

@[simp] theorem State.flush_strap (s : State) (g : LegId) : (s.flush g).strap = s.strap := by rw [State.flush_rest]

@[simp] theorem State.flush_time (s : State) (g : LegId) : (s.flush g).time = s.time := by rw [State.flush_rest]

@[simp] theorem State.flush_lanes (s : State) (g : LegId) : (s.flush g).lanes = s.lanes := by rw [State.flush_rest]

@[simp] theorem State.flush_tx (s : State) (g : LegId) : (s.flush g).tx = s.tx := by rw [State.flush_rest]

@[simp] theorem State.flush_grant (s : State) (g : LegId) : (s.flush g).grant = s.grant := by rw [State.flush_rest]

@[simp] theorem State.flush_cable (s : State) (g : LegId) : (s.flush g).cable = s.cable := by rw [State.flush_rest]

@[simp] theorem State.flush_notices (s : State) (g : LegId) : (s.flush g).notices = s.notices := by rw [State.flush_rest]

@[simp] theorem State.flush_pending (s : State) (g : LegId) : (s.flush g).pending = s.pending := by rw [State.flush_rest]

@[simp] theorem State.flush_lane (s : State) (g : LegId) (c : LaneId) : (s.flush g).lane c = s.lane c := by simp [State.lane]

theorem State.flush_resp (s : State) (g : LegId) :
    (s.flush g).resp = if s.isHub then s.resp else s.resp.withoutBeat := by rw [State.flush_rest]

@[simp] theorem State.abandon_role (s : State) (g : LegId) : (s.abandon g).role = s.role := by rw [State.abandon_rest]

@[simp] theorem State.abandon_strap (s : State) (g : LegId) : (s.abandon g).strap = s.strap := by rw [State.abandon_rest]

@[simp] theorem State.abandon_time (s : State) (g : LegId) : (s.abandon g).time = s.time := by rw [State.abandon_rest]

@[simp] theorem State.abandon_lanes (s : State) (g : LegId) : (s.abandon g).lanes = s.lanes := by rw [State.abandon_rest]

@[simp] theorem State.abandon_grant (s : State) (g : LegId) : (s.abandon g).grant = s.grant := by rw [State.abandon_rest]

@[simp] theorem State.abandon_cable (s : State) (g : LegId) : (s.abandon g).cable = s.cable := by rw [State.abandon_rest]

@[simp] theorem State.abandon_notices (s : State) (g : LegId) : (s.abandon g).notices = s.notices := by rw [State.abandon_rest]

@[simp] theorem State.abandon_pending (s : State) (g : LegId) : (s.abandon g).pending = s.pending := by rw [State.abandon_rest]

@[simp] theorem State.abandon_resp (s : State) (g : LegId) : (s.abandon g).resp = s.resp := by rw [State.abandon_rest]

@[simp] theorem State.abandon_legs (s : State) (g : LegId) : (s.abandon g).legs = s.legs := by rw [State.abandon_rest]

@[simp] theorem State.abandon_tx (s : State) (g : LegId) : (s.abandon g).tx = s.tx.filter (fun x => x.leg ≠ g) := by
  rw [State.abandon_rest]

/-- Where no FAR_READ is in progress none is answered. -/
theorem State.farReadDone_none {s : State} (h : s.port.slot.any (fun q => q.kind == farReadKind) = false) (st : Status)
    (payload : List Byte) : s.farReadDone st payload = s :=
  if_neg (by rw [h]; decide)

theorem State.flush_port {s : State} (h : s.port.slot.any (fun q => q.kind == farReadKind) = false) (g : LegId) :
    (s.flush g).port = s.port := by
  have port (t : State) (e : t.port = s.port) : (t.farReadFailed .flushed 0).port = s.port := by
    rw [State.farReadFailed, State.farReadDone_none (by rw [e]; exact h), e]
  unfold State.flush
  dsimp only
  split
  · refine port _ ?_
    split <;> rfl
  · split <;> rfl

theorem State.abandon_port {s : State} (h : s.port.slot.any (fun q => q.kind == farReadKind) = false) (g : LegId) :
    (s.abandon g).port = s.port := by
  unfold State.abandon
  split
  · split
    · split
      · exact (congrArg State.port (State.farReadDone_none (s := { s with tx := none }) h _ _)).trans rfl
      · rfl
    · rfl
  · rfl

/-! ### The leg stopped and reset -/

/-- The lane records of a leg reset: the window's lanes with an entry to OFF and the reset values, the others untouched (R18). -/
theorem State.resetLeg_lane (s : State) (g : LegId) (c : LaneId) :
    (s.resetLeg g).lane c = if c ∈ s.winLanes g then
      { s.lane c with path := .off, taps := if (s.lane c).pinned then (s.lane c).taps else ⟨0, 48, 0⟩, settleUntil := none,
                      farTaps := none, search := none, report := none, merit := 0, peaking := 7, d1 := 0,
                      presence := .absent, debounce := 0 }
      else s.lane c := by
  have stopped : (s.stopLeg g .legReset).lane c = (s.enter g .off .legReset none).lane c := by
    unfold State.stopLeg
    rw [State.modLeg_lane, State.lane, State.abandon_lanes, State.flush_lanes]
    rfl
  have window : (s.stopLeg g .legReset).winLanes g = s.winLanes g := (s.acts_stopLeg g .legReset).winLanes
  unfold State.resetLeg
  rw [State.modLeg_lane, State.modWindow_lane, window, stopped, State.enter_lane]
  simp only [List.contains_iff_mem]
  split
  · rfl
  · rfl

/-- The leg's record after a leg reset (R18, R27). -/
theorem State.resetLeg_leg (s : State) (g : LegId) :
    (s.resetLeg g).leg g = { ((s.leg g).entered s.role .off none s.time).flushed with
      timeouts := 0, passOver := 0, drainDone := false, retrains := 0, errCount := 0, aggMerit := 0, adaptFailed := false,
      beacon := 0 } := by
  unfold State.resetLeg
  rw [State.modLeg_leg_same, State.modWindow_leg, State.stopLeg_leg]

theorem State.resetLeg_othersKept (s : State) (g : LegId) {k : LegId} (h : k ≠ g) : (s.resetLeg g).leg k = s.leg k := by
  unfold State.resetLeg
  rw [State.modLeg_leg_other _ _ h, State.modWindow_leg, (s.acts_stopLeg g .legReset).others k h]

/-- What a leg reset does besides the lanes and the leg's record: LEG_STATE posted, the transaction dropped, an END's holds
and watch gone (R27, R134, R139, R142, R144). -/
theorem State.resetLeg_rest {s : State} (h : s.port.slot.any (fun q => q.kind == farReadKind) = false) (g : LegId) :
    s.settingKept (s.resetLeg g) ∧ (s.resetLeg g).port = s.port ∧ (s.resetLeg g).grant = s.grant
      ∧ (s.resetLeg g).tx = (s.tx.map (orphaned g)).filter (fun x => x.leg ≠ g)
      ∧ (s.resetLeg g).notices
          = s.notices.post .legState (some g) [byteOf (s.leg g).state.code, 0, 4, 0] s.time
      ∧ (s.resetLeg g).resp = if s.isHub then s.resp else (s.resp.entered (s.leg g).state .off s.time).withoutBeat := by
  have port : (s.resetLeg g).port = s.port :=
    (State.abandon_port (s := (s.enter g .off .legReset none).flush g)
      (by rw [State.flush_port (s := s.enter g .off .legReset none) h]; exact h) g).trans
      (State.flush_port (s := s.enter g .off .legReset none) h g)
  have resp : (s.resetLeg g).resp = if s.isHub then s.resp else (s.resp.entered (s.leg g).state .off s.time).withoutBeat := by
    unfold State.resetLeg State.stopLeg
    simp only [State.modLeg_resp, State.modWindow_resp, State.abandon_resp, State.flush_resp, State.enter_resp, State.isHub,
      State.enter_role]
    by_cases hub : (s.role == Role.hubRole) = true <;> simp [hub]
  refine ⟨⟨?_, ?_, ?_, ?_, ?_⟩, port, ?_, ?_, ?_, resp⟩ <;> unfold State.resetLeg State.stopLeg <;> simp
  simp [State.enter_notices, LegState.code, LegCause.code, byteOf]

/-! ### The request -/

theorem exec_resetLeg {s : State} (takes : s.takesRequests) {g : LegId} (has : s.hasLeg g) (tag : Byte) :
    exec (.resetLeg ⟨tag, [byteOf g.val]⟩) s = .next
      ((((s.taken 0x07 tag).resetLeg g).reply .ok []).arbitrate (s.grantHeldBy g)) := by
  refine congrArg Host.Outcome.next ((State.takeRequest_taken takes _ _ _).trans ?_)
  unfold State.doResetLeg
  rw [State.forLeg_eq (n := 1) rfl (natAt_byteOf_cons g.val (by omega) []) (show (s.taken 0x07 tag).hasLeg g from has)]
  rfl

/-- A leg in OFF at its reset values is the same after the choice that follows. -/
theorem State.arbitrate_off {s : State} {g : LegId} (off : (s.leg g).state = .off) (passOver : (s.leg g).passOver = 0) (ends : Bool) :
    (s.arbitrate ends).leg g = s.leg g := by
  obtain ⟨p, hp, e⟩ := State.arbitrate_idle (.inl off) ends
  have zero : p = (s.leg g).passOver := hp.elim (fun h => h.trans passOver.symm) id
  rw [e, zero]

theorem NoticeQueue.mem_post_nil {q : NoticeQueue} (empty : q.records = []) (k : NoticeKind) (g : Option LegId) (data : List Byte)
    (now : Time) : (⟨k, g, q.levels[k.ix], 1, now, data⟩ : Notice) ∈ (q.post k g data now).records := by
  simp [NoticeQueue.post, empty, insertNotice]

end Sys2Proof.Machine

/-- Settles O43: the reset leg's record is `State.resetLeg_leg`, which the choice that follows does not move. -/
theorem resetLegKeepsConfiguration : Obligations.ResetLegKeepsConfiguration := by
  unfold Obligations.ResetLegKeepsConfiguration
  intro s g tag takes has
  obtain ⟨setting, port, grant, tx, notices, resp⟩ :=
    State.resetLeg_rest (s := s.taken 0x07 tag) rfl g
  let v := ((s.taken 0x07 tag).resetLeg g).reply .ok []
  have record : v.leg g = _ := (s.taken 0x07 tag).resetLeg_leg g
  have off : (v.leg g).state = .off := congrArg Leg.state record
  have leg := (State.arbitrate_off off (congrArg Leg.passOver record) (s.grantHeldBy g)).trans record
  have own {α : Type} (f : Leg → α) := congrArg f leg
  have lane (c : LaneId) : (v.arbitrate (s.grantHeldBy g)).lane c = _ :=
    (v.arbitrate_lane _ c).trans ((s.taken 0x07 tag).resetLeg_lane g c)
  refine ⟨_, exec_resetLeg takes has tag, own Leg.state, own Leg.negRate, own Leg.farId, own Leg.attempt, own Leg.upSince,
    own Leg.retrains, own Leg.errCount, own Leg.resume, own Leg.sbLost, own Leg.aggMerit, own Leg.enteredAt, own Leg.queue,
    own Leg.beacon, own Leg.farStatus, ?_, ?_, fun c hc => (lane c).trans (if_pos hc), fun k hk => ?_,
    fun c hc => (lane c).trans (if_neg hc), ?_, own Leg.overflow, own Leg.reportHold, own Leg.healthHold, fun i => ?_,
    own Leg.passOver, own Leg.drainDone, ?_, own Leg.deadline, own Leg.holdoff, own Leg.probeWait, own Leg.adapt, own Leg.verify,
    own Leg.seq, own Leg.beat, own Leg.beatTaken, fun hub x hx mine r hr held => ?_, fun notHub => ?_, own Leg.adaptFailed,
    own Leg.timeouts, fun hub => ?_, fun empty => ?_⟩
  · rw [leg]
    exact ⟨rfl, rfl, rfl, rfl, rfl, rfl, rfl, rfl, rfl, rfl⟩
  · rw [State.arbitrate_port, State.reply_port, port]
    rfl
  · rw [State.arbitrate_apart, State.reply_leg, State.resetLeg_othersKept _ g hk]
    rfl
  · exact State.settingKept_trans (t := v) setting (v.arbitrate_settingKept _)
  · rw [leg]
    simp [Leg.flushed, Leg.entered, emptyStatusHold, emptyLaneHold, emptySet]
  · rw [leg]
    simp [Leg.flushed, Leg.entered, LegState.keepsAlive]
  · have free : v.tx = none := by
      rw [State.reply_tx, tx, State.taken_tx, hx]
      simp [orphaned, mine]
    have grant' : v.grant = some r := by rw [State.reply_grant, grant]; exact hr
    have ends : s.grantHeldBy g = true := by simp [State.grantHeldBy, hr, held]
    rw [ends] at own ⊢
    refine ⟨fun q hq => ?_, State.arbitrate_ends_grant (s := v) (by rw [← hub]; exact congrArg (· == Role.hubRole) setting.1) free grant'⟩
    cases hr.symm.trans hq
    rw [held]
    exact own Leg.passOver
  · rw [State.arbitrate_resp, State.reply_resp, resp, State.taken_isHub, notHub]
    exact ⟨rfl, rfl, rfl, rfl⟩
  · refine State.arbitrate_tx_idle (.inl off) (fun x hx => ?_) _
    rw [State.reply_tx, tx] at hx
    simpa using (Option.filter_eq_some_iff.mp hx).2
  · rw [State.arbitrate_notices, State.reply_notices, notices]
    refine ⟨_, NoticeQueue.mem_post_nil empty _ _ _ _, rfl, rfl, rfl⟩
end

