-- ==== Sys2Proof/Proofs/CableKept.lean ====
section
/-! SUPPORT. The operations of a leg's controller that leave the cable memory unit exactly as it was: all but the entry to UP,
which hands learned entries over (R87). Then the presence of lanes (R13, R14). -/

open Sys2Proof Sys2Proof.Machine

namespace Sys2Proof.Machine

/-- An operation of one leg's controller that leaves the cable memory unit alone keeps the part's setting. -/
theorem State.LegFrame.settingKept {s t : State} {g : LegId} (h : s.LegFrame g t) (cable : t.cable = s.cable) : s.settingKept t :=
  ⟨h.role, h.strap, h.time, cable, h.pending⟩

@[simp] theorem State.checkListen_cable (s : State) (g : LegId) : (s.checkListen g).cable = s.cable := by
  unfold State.checkListen
  split <;> rfl

@[simp] theorem State.checkProbeWait_cable (s : State) (g : LegId) : (s.checkProbeWait g).cable = s.cable := by
  unfold State.checkProbeWait
  split <;> rfl

@[simp] theorem State.enterListen_cable (s : State) (g : LegId) (cause : LegCause) (holdoff phase : Bool) :
    (s.enterListen g cause holdoff phase).cable = s.cable := by
  unfold State.enterListen
  cases phase <;> simp [State.queueListen]

@[simp] theorem State.enterFault_cable (s : State) (g : LegId) (why : FaultReason) : (s.enterFault g why).cable = s.cable := by
  unfold State.enterFault
  dsimp only
  split
  · rfl
  · simp

@[simp] theorem State.openLane_cable (g : LegId) (s : State) (i : WinIx) : (State.openLane g s i).cable = s.cable := rfl

@[simp] theorem State.startSearch_cable (s : State) (g : LegId) : (s.startSearch g).cable = s.cable := by
  have opened (is : List WinIx) : ∀ t : State, (is.foldl (State.openLane g) t).cable = t.cable := by
    induction is with
    | nil => exact fun _ => rfl
    | cons i is ih => exact fun t => ih _
  exact opened _ s

@[simp] theorem State.enterTrain_cable (s : State) (g : LegId) (cause : LegCause) (n : Nat) :
    (s.enterTrain g cause n).cable = s.cable := by
  simp [State.enterTrain, State.startDeadline, State.queuePhase]

@[simp] theorem State.attemptFails_cable (s : State) (g : LegId) (cause : LegCause) : (s.attemptFails g cause).cable = s.cable := by
  unfold State.attemptFails
  dsimp only
  split
  · simp
  · split <;> simp

@[simp] theorem State.retrain_cable (s : State) (g : LegId) : (s.retrain g).cable = s.cable := by
  unfold State.retrain
  split <;> simp

@[simp] theorem State.enterAdapt_cable (s : State) (g : LegId) : (s.enterAdapt g).cable = s.cable := rfl

@[simp] theorem State.enterVerify_cable (s : State) (g : LegId) : (s.enterVerify g).cable = s.cable := rfl

@[simp] theorem State.laneFails_cable (s : State) (g : LegId) : (s.laneFails g).1.cable = s.cable := by
  unfold State.laneFails
  split <;> simp

@[simp] theorem State.checkTrained_cable (s : State) (g : LegId) : (s.checkTrained g).1.cable = s.cable := by
  unfold State.checkTrained
  split <;> simp

@[simp] theorem State.laneDone_cable (s : State) (g : LegId) (c : LaneId) : (s.laneDone g c).1.cable = s.cable := by
  unfold State.laneDone
  split
  · simp
  · split
    · split <;> simp
    · rfl

@[simp] theorem State.searchOut_cable (s : State) (g : LegId) (i : WinIx) (o : SearchOut) : (s.searchOut g i o).1.cable = s.cable := by
  cases o <;> simp [State.searchOut]

@[simp] theorem State.moveSearch_cable (s : State) (g : LegId) (i : WinIx) (f : Search → Search × SearchOut) :
    (s.moveSearch g i f).1.cable = s.cable := by
  unfold State.moveSearch
  split <;> simp

@[simp] theorem State.checkHealth_cable (s : State) (g : LegId) : (s.checkHealth g).cable = s.cable := by
  unfold State.checkHealth
  dsimp only
  split
  · rfl
  · split <;> rfl

@[simp] theorem State.countHealth_cable (s : State) (g : LegId) (bad : Bool) : (s.countHealth g bad).cable = s.cable := by
  unfold State.countHealth State.counterTop
  split
  · simp
  · dsimp only
    split <;> simp

@[simp] theorem State.joinSet_cable (s : State) (g : LegId) (c : LaneId) (rep : Report) : (s.joinSet g c rep).cable = s.cable := by
  unfold State.joinSet
  dsimp only
  split
  · split <;> simp
  · rfl

@[simp] theorem State.wakeEvent_cable (s : State) (g : LegId) (c : LaneId) : (s.wakeEvent g c).cable = s.cable := by
  unfold State.wakeEvent
  dsimp only
  split <;> simp

@[simp] theorem State.presenceChange_cable (s : State) (g : LegId) (c : LaneId) (p : Presence) :
    (s.presenceChange g c p).cable = s.cable := by
  cases p with
  | present => unfold State.presenceChange State.lanePresent; dsimp only; split <;> simp
  | absent =>
    unfold State.presenceChange State.hubSignalLoss State.endSignalLoss
    dsimp only
    split <;> split <;> simp

/-! ### Presence and debounce counts (R13 to R15) -/

/-- Every lane's presence and debounce count stand as they stood. -/
def State.presenceKept (s t : State) : Prop :=
  ∀ c, (t.lane c).presence = (s.lane c).presence ∧ (t.lane c).debounce = (s.lane c).debounce

theorem State.presenceKept.refl (s : State) : s.presenceKept s := fun _ => ⟨rfl, rfl⟩

theorem State.presenceKept.trans {s t u : State} (h : s.presenceKept t) (k : t.presenceKept u) : s.presenceKept u :=
  fun c => ⟨(k c).1.trans (h c).1, (k c).2.trans (h c).2⟩

theorem State.presenceKept.of_lanes {s t : State} (h : t.lanes = s.lanes) : s.presenceKept t := fun c => by simp [State.lane, h]

/-- An entry to a scanning state keeps them (R15). -/
theorem State.enter_presenceKept (s : State) (g : LegId) {new : LegState} (scans : new.scans) (cause : LegCause)
    (attempt : Option Nat) : s.presenceKept (s.enter g new cause attempt) := by
  intro c
  rw [State.enter_lane]
  split
  · simp [Lane.entered, scans]
  · exact ⟨rfl, rfl⟩

theorem State.checkListen_presenceKept (s : State) (g : LegId) : s.presenceKept (s.checkListen g) := by
  unfold State.checkListen
  split
  · exact s.enter_presenceKept g (new := .probe) rfl .farPresent none
  · exact .refl s

theorem State.checkProbeWait_presenceKept (s : State) (g : LegId) : s.presenceKept (s.checkProbeWait g) := by
  unfold State.checkProbeWait
  split <;> exact .of_lanes rfl

theorem State.enterListen_presenceKept (s : State) (g : LegId) (cause : LegCause) (holdoff phase : Bool) :
    s.presenceKept (s.enterListen g cause holdoff phase) := by
  unfold State.enterListen
  refine .trans (.trans (s.enter_presenceKept g (new := .listen) rfl cause none) ?_)
    (.trans (State.checkListen_presenceKept _ g) (State.checkProbeWait_presenceKept _ g))
  refine .of_lanes ?_
  cases phase <;> simp [State.queueListen]

theorem State.wakeEvent_presenceKept (s : State) (g : LegId) (c : LaneId) : s.presenceKept (s.wakeEvent g c) := by
  have told : s.presenceKept ((s.modLeg g (fun l => { l with wakePending := true })).post .wake (some g)
      [byteOf c.val, boolByte (s.leg g).autoWake]) := .of_lanes rfl
  unfold State.wakeEvent
  dsimp only
  split
  · exact told.trans (State.enterListen_presenceKept _ g _ _ _)
  · exact told

/-- What a presence change leads the leg controller to do moves no presence itself. -/
theorem State.presenceChange_presenceKept (s : State) (g : LegId) (c : LaneId) (p : Presence) :
    s.presenceKept (s.presenceChange g c p) := by
  cases p with
  | present =>
    unfold State.presenceChange State.lanePresent
    dsimp only
    split
    · exact .trans (s.checkListen_presenceKept g) (State.checkProbeWait_presenceKept _ g)
    · exact s.wakeEvent_presenceKept g c
    · exact .refl s
  | absent =>
    unfold State.presenceChange State.hubSignalLoss State.endSignalLoss
    dsimp only
    split
    · split <;> first | exact s.enterListen_presenceKept g _ _ _ | exact .refl s
    · split <;> first | exact s.enterListen_presenceKept g _ _ _ | exact .of_lanes rfl

/-! ### The reading (R13, R14) -/

theorem State.scanned_iff {s : State} {c : LaneId} {g : LegId} (owner : (s.lane c).owner = some g) :
    s.scanned c ↔ (s.leg g).state ≠ .off ∧ (s.leg g).state ≠ .fault := by
  unfold State.scanned State.ownerState
  rw [owner, Option.map_some, Option.any_some]
  cases (s.leg g).state <;> simp [LegState.scans]

theorem exec_scanReading {s : State} {c : LaneId} {g : LegId} (owner : (s.lane c).owner = some g) (level : Fin 64) :
    exec (.scanReading c level) s = .next
      (if s.scanned c then (s.takeReading g c ((s.leg g).presThreshold ≤ level.val)).arbitrate false else s) :=
  congrArg Host.Outcome.next (by rw [owner])

theorem exec_scanReading_scanned {s : State} {c : LaneId} {g : LegId} (owner : (s.lane c).owner = some g)
    (scans : (s.leg g).state ≠ .off ∧ (s.leg g).state ≠ .fault) (level : Fin 64) :
    exec (.scanReading c level) s = .next ((s.takeReading g c ((s.leg g).presThreshold ≤ level.val)).arbitrate false) := by
  rw [exec_scanReading owner, if_pos ((State.scanned_iff owner).mpr scans)]

theorem presence_eq_seen {p : Presence} {b : Bool} : p = seen b ↔ (p = .present ↔ b) := by
  cases p <;> cases b <;> simp [seen]

theorem State.takeReading_agrees {s : State} {g : LegId} {c : LaneId} {b : Bool} (h : (s.lane c).presence = .present ↔ b) :
    s.takeReading g c b = s.modLane c (fun l => { l with debounce := 0 }) :=
  if_pos (presence_eq_seen.mpr h)

theorem State.takeReading_counts {s : State} {g : LegId} {c : LaneId} {b : Bool} (h : ¬((s.lane c).presence = .present ↔ b))
    (below : (s.lane c).debounce < 3) : s.takeReading g c b = s.modLane c (fun l => { l with debounce := l.debounce + 1 }) :=
  (if_neg (fun e => h (presence_eq_seen.mp e))).trans (if_pos below)

theorem State.takeReading_flips {s : State} {g : LegId} {c : LaneId} {b : Bool} (h : ¬((s.lane c).presence = .present ↔ b))
    (top : 3 ≤ (s.lane c).debounce) : s.takeReading g c b
      = (s.modLane c (fun l => { l with presence := seen b, debounce := 0 })).presenceChange g c (seen b) :=
  (if_neg (fun e => h (presence_eq_seen.mp e))).trans (if_neg (Nat.not_lt.mpr top))

/-- A change of one lane alone, followed by a choice, keeps every other lane, the legs and the setting. -/
theorem State.modLane_arbitrate (s : State) (c : LaneId) (f : Lane → Lane) (ends : Bool) :
    (∀ k, k ≠ c → ((s.modLane c f).arbitrate ends).lane k = s.lane k) ∧ s.legsKept ((s.modLane c f).arbitrate ends)
      ∧ s.settingKept ((s.modLane c f).arbitrate ends) :=
  ⟨fun k ne => by simp [ne], fun k => by rw [State.arbitrate_apart]; rfl,
    State.settingKept_trans (t := s.modLane c f) ⟨rfl, rfl, rfl, rfl, rfl⟩ (State.arbitrate_settingKept _ _)⟩

end Sys2Proof.Machine

/-- Settles O13: the three branches of a reading; the flip's consequences move no presence. -/
theorem scanReadingDebounces : Obligations.ScanReadingDebounces := by
  unfold Obligations.ScanReadingDebounces
  refine ⟨fun s c g level owner scans agrees => ?_, fun s c g level owner scans differs below => ?_,
    fun s c g level owner scans differs top => ?_, fun s c level unscanned => ?_⟩
  · have e := (exec_scanReading_scanned owner scans level).trans
      (congrArg (fun u => Host.Outcome.next (State.arbitrate u false))
        (State.takeReading_agrees (g := g) (by simpa using agrees)))
    exact ⟨_, e, by simp, by simp, State.modLane_arbitrate ..⟩
  · have e := (exec_scanReading_scanned owner scans level).trans
      (congrArg (fun u => Host.Outcome.next (State.arbitrate u false))
        (State.takeReading_counts (g := g) (by simpa using differs) below))
    exact ⟨_, e, by simp, by simp, State.modLane_arbitrate ..⟩
  · have e := (exec_scanReading_scanned owner scans level).trans
      (congrArg (fun u => Host.Outcome.next (State.arbitrate u false))
        (State.takeReading_flips (g := g) (by simpa using differs) top))
    have acts := s.acts_takeReading g c ((s.leg g).presThreshold ≤ level.val)
    rw [State.takeReading_flips (by simpa using differs) top] at acts
    have kept := State.presenceChange_presenceKept
      (s.modLane c (fun l => { l with presence := seen ((s.leg g).presThreshold ≤ level.val), debounce := 0 })) g c
      (seen ((s.leg g).presThreshold ≤ level.val))
    refine ⟨_, e, ?_, ?_, fun k ne => ?_, fun k => ?_, ?_⟩
    · rw [State.arbitrate_lane, (kept c).1]
      simp [seen]
    · rw [State.arbitrate_lane, (kept c).2]
      simp
    · rw [State.arbitrate_lane, (kept k).1, (kept k).2, State.modLane_lane_other _ _ ne]
      exact ⟨rfl, rfl⟩
    · rw [State.arbitrate_lane]
      exact acts.taps k
    · exact State.settingKept_trans (acts.settingKept (by simp)) (State.arbitrate_settingKept _ _)
  · rcases unscanned with none | ⟨g, owner, idle⟩
    · exact congrArg Host.Outcome.next (by rw [none])
    · rw [exec_scanReading owner, if_neg]
      rw [State.scanned_iff owner]
      tauto
end

