-- ==== Sys2Proof/Proofs/ItemsOnTheirWay.lean ====
section
/-! SUPPORT. Queueing an item puts it on its way and loses no other (R71, R85, R147, R149); and what an event's end, with the
arbiter's choice, leaves of a state (`State.Onward`). -/

open Sys2Proof Sys2Proof.Machine

namespace Sys2Proof.Machine

/-- Requeueing moves traffic only. -/
theorem Leg.Requeued.apart {l m : Leg} (h : l.Requeued m) : m.apart = l.apart := by rw [h.same]; rfl

/-- A field that is no traffic is the same in records equal apart from traffic. -/
theorem Leg.field_of_apart {l m : Leg} (h : m.apart = l.apart) {α : Type} (f : Leg → α) (apart : ∀ l : Leg, f l.apart = f l) :
    f m = f l := by
  rw [← apart, h, apart]

theorem Leg.push_room {l : Leg} (room : l.hasRoom) (i : Item) : l.push i = { l with queue := l.queue ++ [i] } := if_pos room

/-! ### Queueing (R71, R85, R149) -/

theorem Leg.sendRequest_room {l : Leg} (room : l.hasRoom) (role : Role) (i : WinIx) (q : TapRequest) :
    l.sendRequest role i q = { l with queue := l.queue ++ [requestItem role i q] } :=
  (if_pos room).trans (l.push_room room _)

theorem Leg.sendRequest_full {l : Leg} (full : ¬l.hasRoom) (role : Role) (i : WinIx) (q : TapRequest) :
    l.sendRequest role i q = { l with laneHold := l.laneHold.set i.val (some q) i.isLt } := if_neg full

theorem Leg.sendRequest_carries (l : Leg) (role : Role) (i : WinIx) (q : TapRequest) :
    (l.sendRequest role i q).carries role (requestItem role i q) := by
  by_cases room : l.hasRoom
  · rw [Leg.sendRequest_room room]
    exact .inl (List.mem_append_right _ (List.mem_singleton_self _))
  · rw [Leg.sendRequest_full room]
    exact .inr (Leg.mem_heldItems.mpr (.inr (.inr ⟨i, by simp⟩)))

/-- A tap request takes the place of an older one of its own lane at most. -/
theorem Leg.sendRequest_carries_other {l : Leg} {role : Role} {x : Item} (h : l.carries role x) {i : WinIx}
    (other : ∀ q, x ≠ requestItem role i q) (q : TapRequest) : (l.sendRequest role i q).carries role x := by
  by_cases room : l.hasRoom
  · rw [Leg.sendRequest_room room]
    exact h.imp (List.mem_append_left _) id
  · rw [Leg.sendRequest_full room]
    refine h.imp id fun held => ?_
    rw [Leg.mem_heldItems] at held ⊢
    refine held.imp id (.imp id fun ⟨k, hk⟩ => ⟨k, ?_⟩)
    by_cases e : k = i
    · subst e
      obtain ⟨p, -, rfl⟩ := Option.map_eq_some_iff.mp hk
      exact absurd rfl (other p)
    · have ne : i.val ≠ k.val := fun e' => e (Fin.ext e'.symm)
      rw [← hk]
      simp [ne]

theorem requestItem_inj {role : Role} {i j : WinIx} {p q : TapRequest} (h : requestItem role i p = requestItem role j q) : i = j := by
  cases role <;> cases h <;> rfl

/-- A HUB's PHASE is on its way once queued, in place of an older one, at the tail, or in the overflow hold (R149). -/
theorem Leg.queuePhase_carries (l : Leg) (st : PhaseState) (n : Nat) (r : Rate) :
    (l.queuePhase st n r).carries .hubRole (.phase st n r) := by
  unfold Leg.queuePhase
  dsimp only
  split
  · rename_i waits
    obtain ⟨i, hi, phase⟩ := List.any_eq_true.mp waits
    exact .inl (List.mem_map.mpr ⟨i, hi, if_pos phase⟩)
  · have held : ({ l with overflow := some (Item.phase st n r) } : Leg).carries .hubRole (.phase st n r) :=
      .inr (Leg.mem_heldItems.mpr (.inl ⟨rfl, .inl rfl⟩))
    split
    · exact held
    · split
      · exact .inl (List.mem_append_right _ (List.mem_singleton_self _))
      · exact held

/-- An END's report is on its way once queued: in the queue, or in the report hold (R79, R85). -/
theorem Leg.queueReport_carries (l : Leg) (i : Item) : (l.queueReport i).carries .endRole i := by
  unfold Leg.queueReport
  split
  · rename_i room
    rw [Leg.push_room room]
    exact .inl (List.mem_append_right _ (List.mem_singleton_self _))
  · exact .inr (Leg.mem_heldItems.mpr (.inr (.inl ⟨rfl, .inr rfl⟩)))

theorem State.sends_of_carries {s : State} {g : LegId} {i : Item} (h : (s.leg g).carries s.role i) : s.sends g i :=
  State.sends_iff.mpr (.inl h)

/-! ### The end of an event -/

/-- A leg record without what the end of an event may move: traffic, and the open report set with the aggregate merit. -/
def Leg.lasting (l : Leg) : Leg := { l.apart with reportSet := emptySet, aggMerit := 0 }

theorem Leg.lasting_of_apart {l m : Leg} (h : m.apart = l.apart) : m.lasting = l.lasting := by rw [Leg.lasting, h]; rfl

/-- From w to t nothing moved but traffic, the report set, the responder, the port and the model's counter: what stands between
an operation of the engine and the end of its event. -/
structure State.Onward (w t : State) : Prop where
  role : t.role = w.role
  lanes : t.lanes = w.lanes
  cable : t.cable = w.cable
  lasting : ∀ k, (t.leg k).lasting = (w.leg k).lasting
  sends : ∀ g i, w.sends g i → t.sends g i
  fault : ∀ g, (w.leg g).state = .fault → (t.leg g).queue = (w.leg g).queue
  atEnd : w.isHub = false → ∀ g, (t.leg g).queue = (w.leg g).queue ∧ (t.leg g).reportHold = (w.leg g).reportHold

/-- A leg's field that the end of an event does not move is the same after it. -/
theorem State.Onward.field {w t : State} (h : w.Onward t) {α : Type} (f : Leg → α) (lasting : ∀ l : Leg, f l.lasting = f l)
    (g : LegId) : f (t.leg g) = f (w.leg g) := by
  rw [← lasting, h.lasting, lasting]

theorem State.Onward.refl (w : State) : w.Onward w :=
  ⟨rfl, rfl, rfl, fun _ => rfl, fun _ _ => id, fun _ _ => rfl, fun _ _ => ⟨rfl, rfl⟩⟩

theorem State.Onward.trans {s t u : State} (h : s.Onward t) (k : t.Onward u) : s.Onward u where
  role := k.role.trans h.role
  lanes := k.lanes.trans h.lanes
  cable := k.cable.trans h.cable
  lasting j := (k.lasting j).trans (h.lasting j)
  sends g i a := k.sends g i (h.sends g i a)
  fault g a := (k.fault g ((h.field Leg.state (fun _ => rfl) g).trans a)).trans (h.fault g a)
  atEnd a g := by
    obtain ⟨queue, held⟩ := k.atEnd (by rw [← a]; exact congrArg (· == Role.hubRole) h.role) g
    obtain ⟨queue', held'⟩ := h.atEnd a g
    exact ⟨queue.trans queue', held.trans held'⟩

/-- A step that keeps role, lanes, cable memory and transaction, and of the legs all but report set and aggregate merit. -/
theorem State.Onward.of_legs {w t : State} (role : t.role = w.role) (lanes : t.lanes = w.lanes) (cable : t.cable = w.cable)
    (tx : t.tx = w.tx) (leg : ∀ k, t.leg k = { w.leg k with reportSet := (t.leg k).reportSet, aggMerit := (t.leg k).aggMerit }) :
    w.Onward t := by
  refine ⟨role, lanes, cable, fun k => by rw [leg]; rfl, fun g i h => ?_, fun g _ => by rw [leg], fun _ g => by rw [leg]; exact ⟨rfl, rfl⟩⟩
  rw [State.sends_iff] at h ⊢
  rw [leg, role, tx]
  exact h

theorem State.Onward.of_eq {w t : State} (role : t.role = w.role) (lanes : t.lanes = w.lanes) (cable : t.cable = w.cable)
    (legs : t.legs = w.legs) (tx : t.tx = w.tx) : w.Onward t :=
  .of_legs role lanes cable tx fun k => by rw [show t.leg k = w.leg k from by simp [State.leg, legs]]

theorem State.onward_arbitrate (w : State) (ends : Bool) : w.Onward (w.arbitrate ends) where
  role := w.arbitrate_role ends
  lanes := w.arbitrate_lanes ends
  cable := w.arbitrate_cable ends
  lasting k := Leg.lasting_of_apart (w.arbitrate_apart ends k)
  sends _ _ h := State.arbitrate_sends h ends
  fault g h := by
    obtain ⟨p, -, e⟩ := State.arbitrate_idle (.inr h) ends
    rw [e]
  atEnd h g := by rw [State.arbitrate_end _ _ h]; exact ⟨rfl, rfl⟩

/-- Outside UP and DEGRADED a report set counts nothing: it sets the aggregate merit at most (R12, R93). -/
theorem State.joinSet_idle {w : State} {g : LegId} (idle : (w.leg g).state.inService = false) (c : LaneId) (rep : Report) :
    ∃ f : Leg → Leg, (∀ l, f l = { l with reportSet := (f l).reportSet, aggMerit := (f l).aggMerit })
      ∧ w.joinSet g c rep = w.modLeg g f := by
  have twice (f k : Leg → Leg) : (w.modLeg g f).modLeg g k = w.modLeg g (k ∘ f) := by
    simp [State.modLeg, State.leg]
  unfold State.joinSet
  dsimp only
  rw [twice]
  split
  · rw [if_neg]
    · exact ⟨_, fun _ => rfl, rfl⟩
    · rw [State.modLeg_leg_same]
      exact Bool.eq_false_iff.mp idle
  · exact ⟨_, fun _ => rfl, rfl⟩

theorem State.onward_joinSet {w : State} {g : LegId} (idle : (w.leg g).state.inService = false) (c : LaneId) (rep : Report) :
    w.Onward (w.joinSet g c rep) := by
  obtain ⟨f, same, e⟩ := State.joinSet_idle idle c rep
  rw [e]
  refine .of_legs rfl rfl rfl rfl fun k => ?_
  rw [State.modLeg_leg]
  split
  · rename_i h
    rw [h]
    exact same _
  · rfl

theorem State.Onward.lane {w t : State} (h : w.Onward t) (c : LaneId) : t.lane c = w.lane c := by simp [State.lane, h.lanes]

end Sys2Proof.Machine
end

