-- ==== Sys2Proof/Proofs/AttemptPhases.lean ====
section
/-! SUPPORT. What the phases of an attempt begin with (R32 to R36, R68 to R70, R80, R84): the entries to TRAIN, ADAPT and VERIFY,
and a failed attempt, meet the predicates the statements use. -/

open Sys2Proof Sys2Proof.Machine

namespace Sys2Proof.Machine

/-! ### Opening the searches (R68 to R71) -/

/-- A lane whose search has been opened with the receiver settings an opening request brings. -/
def Lane.opened (o : Option (Nat × Int)) (l : Lane) : Lane :=
  { l with search := some Search.fresh, peaking := (o.map Prod.fst).getD l.peaking, d1 := (o.map Prod.snd).getD l.d1 }

theorem State.openLane_lane (g : LegId) (s : State) (i : WinIx) (c : LaneId) :
    (State.openLane g s i).lane c
      = if c = s.winLane g i then (s.lane (s.winLane g i)).opened (s.opening g i).2 else s.lane c :=
  State.modLane_lane s (s.winLane g i) c (Lane.opened (s.opening g i).2)

theorem State.openLane_leg (g : LegId) (s : State) (i : WinIx) :
    (State.openLane g s i).leg g = (s.leg g).sendRequest s.role i (s.opening g i).1 :=
  State.modLeg_leg_same _ g _

/-- An opening request is read from the leg's attempt, resume and rate, the cable memory and the lane's far taps. -/
theorem State.opening_congr {s t : State} {g : LegId} (leg : (t.leg g).apart = (s.leg g).apart) (cable : t.cable = s.cable)
    (i : WinIx) (far : (t.lane (s.winLane g i)).farTaps = (s.lane (s.winLane g i)).farTaps) : t.opening g i = s.opening g i := by
  have field {α : Type} (f : Leg → α) (h : ∀ l : Leg, f l.apart = f l) : f (t.leg g) = f (s.leg g) := Leg.field_of_apart leg f h
  have lane : t.winLane g i = s.winLane g i := State.winLane_congr (field Leg.window fun _ => rfl) i
  unfold State.opening
  simp only [lane, far, cable, field Leg.attempt fun _ => rfl, field Leg.resume fun _ => rfl, field Leg.negRate fun _ => rfl]

/-- Opening lanes one after another: each gets its search and its request, in whatever order, and nothing else on its way is
lost (R68, R71). -/
theorem State.openLanes_spec (g : LegId) (is : List WinIx) : ∀ s : State, is.Nodup →
    (∀ i ∈ is, ((is.foldl (State.openLane g) s).lane (s.winLane g i) = (s.lane (s.winLane g i)).opened (s.opening g i).2)
        ∧ ((is.foldl (State.openLane g) s).leg g).carries s.role (requestItem s.role i (s.opening g i).1))
      ∧ (∀ c, (∀ i ∈ is, c ≠ s.winLane g i) → (is.foldl (State.openLane g) s).lane c = s.lane c)
      ∧ (∀ x, (s.leg g).carries s.role x → (∀ i ∈ is, ∀ q, x ≠ requestItem s.role i q) →
          ((is.foldl (State.openLane g) s).leg g).carries s.role x)
      ∧ ((is.foldl (State.openLane g) s).leg g).apart = (s.leg g).apart := by
  induction is with
  | nil => exact fun s _ => ⟨fun _ h => (nomatch h), fun _ _ => rfl, fun _ h _ => h, rfl⟩
  | cons i is ih =>
    intro s distinct
    obtain ⟨out, distinct'⟩ := List.nodup_cons.mp distinct
    have apart : ((State.openLane g s i).leg g).apart = (s.leg g).apart := by
      rw [State.openLane_leg]
      exact (Leg.sendRequest_requeued _ _ _ _).apart
    have window : ((State.openLane g s i).leg g).window = (s.leg g).window := Leg.field_of_apart apart Leg.window fun _ => rfl
    have winLane (j : WinIx) : (State.openLane g s i).winLane g j = s.winLane g j := State.winLane_congr window j
    have role : (State.openLane g s i).role = s.role := rfl
    have opening (j : WinIx) : (State.openLane g s i).opening g j = s.opening g j := by
      refine State.opening_congr apart rfl j ?_
      rw [State.openLane_lane]
      split
      · rename_i e; rw [e]; rfl
      · rfl
    obtain ⟨opened, untouched, carried, apart'⟩ := ih (State.openLane g s i) distinct'
    rw [List.foldl_cons]
    simp only [winLane, opening, role, State.openLane_lane] at opened untouched carried
    refine ⟨fun j hj => ?_, fun c hc => ?_, fun x hx other => ?_, apart'.trans apart⟩
    · rcases List.mem_cons.mp hj with rfl | later
      · have alone : ∀ k ∈ is, s.winLane g j ≠ s.winLane g k := fun k hk e => out (s.winLane_injective g e ▸ hk)
        refine ⟨(untouched _ alone).trans (if_pos rfl), carried _ ?_ fun k hk q e => out (requestItem_inj e ▸ hk)⟩
        rw [State.openLane_leg]
        exact Leg.sendRequest_carries _ _ _ _
      · obtain ⟨lane, sent⟩ := opened j later
        have ne : s.winLane g j ≠ s.winLane g i := fun e => out (s.winLane_injective g e ▸ later)
        rw [if_neg ne] at lane
        exact ⟨lane, sent⟩
    · exact (untouched c fun j hj => hc j (List.mem_cons_of_mem _ hj)).trans (if_neg (hc i List.mem_cons_self))
    · refine carried x ?_ fun j hj => other j (List.mem_cons_of_mem _ hj)
      rw [State.openLane_leg]
      exact Leg.sendRequest_carries_other hx (other i List.mem_cons_self) _

theorem State.winIndices_nodup (s : State) (g : LegId) : (s.winIndices g).Nodup := by
  unfold State.winIndices Window.indices
  split
  · exact List.Nodup.filter _ (by decide)
  · exact List.nodup_nil

/-- The opening request of attempt n (R69, R70): the far taps where the leg resumes, a learned entry that fits, or a preset. -/
theorem State.opening_spec (s : State) (g : LegId) (i : WinIx) {n : Nat} (attempt : (s.leg g).attempt = some n) (pos : 1 ≤ n) :
    let c := s.winLane g i
    let e := s.cable.learned[c]
    let loss := s.cable.loss[c]
    let resumes := n = 1 ∧ (s.leg g).resume ∧ (s.lane c).farTaps ≠ none
    let learned := n = 1 ∧ e.valid ∧ (s.leg g).negRate.map (fun r => byteOf r.code) = some e.rate
      ∧ s.cable.learnedSerial = s.cable.serial
    (resumes → ∀ u, (s.lane c).farTaps = some u → s.opening g i = (.load u.pre u.post, none))
      ∧ (¬resumes → learned → s.opening g i = (.load e.pre e.post, some (e.peaking, e.d1)))
      ∧ (¬resumes → ¬learned → s.opening g i
          = (.preset (Fin.ofNat 8 (if n ≤ 2 then loss.val else if n = 3 then min (loss.val + 1) 7 else loss.val - 1)),
             some (7, 0))) := by
  have self (k : Fin 8) : Fin.ofNat 8 k.val = k := by simp
  unfold State.opening
  simp only [attempt, Option.getD_some]
  match n, pos with
  | 1, _ =>
    cases hr : (s.leg g).resume with
    | false =>
      refine ⟨fun h => (nomatch h.2.1), fun _ fits => if_pos fits.2, fun _ unfit => ?_⟩
      refine (if_neg fun fits => unfit ⟨rfl, fits⟩).trans ?_
      rw [if_pos (by omega), self]
    | true =>
      cases hf : (s.lane (s.winLane g i)).farTaps with
      | some t => exact ⟨fun _ u hu => by cases hu; rfl, fun no => absurd ⟨rfl, rfl, nofun⟩ no, fun no => absurd ⟨rfl, rfl, nofun⟩ no⟩
      | none =>
        refine ⟨fun h => absurd rfl h.2.2, fun _ fits => if_pos fits.2, fun _ unfit => ?_⟩
        refine (if_neg fun fits => unfit ⟨rfl, fits⟩).trans ?_
        rw [if_pos (by omega), self]
  | 2, _ =>
    exact ⟨fun h => (nomatch h.1), fun _ fits => (nomatch fits.1), fun _ _ =>
      congrArg (fun k => (TapRequest.preset k, some ((7 : Nat), (0 : Int)))) (self _).symm⟩
  | 3, _ => exact ⟨fun h => (nomatch h.1), fun _ fits => (nomatch fits.1), fun _ _ => rfl⟩
  | n + 4, _ =>
    refine ⟨fun h => absurd h.1 (by omega), fun _ fits => absurd fits.1 (by omega), fun _ _ => ?_⟩
    change (TapRequest.preset (Fin.ofNat 8 (s.cable.loss[s.winLane g i].val - 1)), some ((7 : Nat), (0 : Int))) = _
    rw [if_neg (by omega), if_neg (by omega)]

theorem State.startSearch_lane (s : State) (g : LegId) (c : LaneId) :
    (s.startSearch g).lane c = ((s.winIndices g).foldl (State.openLane g) s).lane c := by
  unfold State.startSearch
  rw [State.modLeg_lane]

theorem State.startSearch_leg (s : State) (g : LegId) :
    (s.startSearch g).leg g = { ((s.winIndices g).foldl (State.openLane g) s).leg g with
      resume := if (((s.winIndices g).foldl (State.openLane g) s).leg g).attempt = some 1 then false
        else (((s.winIndices g).foldl (State.openLane g) s).leg g).resume } := by
  unfold State.startSearch
  rw [State.modLeg_leg_same]

/-! ### Entry to TRAIN (R32) -/

/-- The state in which an entry to TRAIN starts its searches: entered and flushed, with PHASE(TRAIN) queued. -/
def State.beforeSearch (s : State) (g : LegId) (cause : LegCause) (n : Nat) : State :=
  (((s.enter g .train cause (some n)).modLeg g (fun l => { l with errCount := 0 })).flush g).queuePhase g .train n

theorem State.enterTrain_eq (s : State) (g : LegId) (cause : LegCause) (n : Nat) :
    s.enterTrain g cause n = ((s.beforeSearch g cause n).startSearch g).startDeadline g 250000 := rfl

theorem State.enterTrain_lane (s : State) (g : LegId) (cause : LegCause) (n : Nat) (c : LaneId) :
    (s.enterTrain g cause n).lane c
      = (((s.beforeSearch g cause n).winIndices g).foldl (State.openLane g) (s.beforeSearch g cause n)).lane c := by
  rw [State.enterTrain_eq, State.startDeadline, State.modLeg_lane, State.startSearch_lane]

/-- Resume and the deadline are no traffic: what the searches' opening put on its way is on its way after the entry. -/
theorem State.enterTrain_carries (s : State) (g : LegId) (cause : LegCause) (n : Nat) {role : Role} {x : Item}
    (h : ((((s.beforeSearch g cause n).winIndices g).foldl (State.openLane g) (s.beforeSearch g cause n)).leg g).carries role x) :
    ((s.enterTrain g cause n).leg g).carries role x := by
  rw [State.enterTrain_eq, State.startDeadline, State.modLeg_leg_same, State.startSearch_leg]
  generalize (((s.beforeSearch g cause n).winIndices g).foldl (State.openLane g) (s.beforeSearch g cause n)).leg g = l at h ⊢
  exact h

theorem State.beforeSearch_leg (s : State) (g : LegId) (cause : LegCause) (n : Nat) :
    (s.beforeSearch g cause n).leg g
      = ({ (s.leg g).entered s.role .train (some n) s.time with errCount := 0 } : Leg).flushed.queuePhase .train n
          ((s.leg g).negRate.getD .l) := by
  unfold State.beforeSearch State.queuePhase
  rw [State.modLeg_leg_same, State.flush_leg, if_pos rfl, State.modLeg_leg_same, State.enter_leg, if_pos rfl]
  rfl

theorem State.beforeSearch_apart (s : State) (g : LegId) (cause : LegCause) (n : Nat) :
    ((s.beforeSearch g cause n).leg g).apart
      = ({ (s.leg g).entered s.role .train (some n) s.time with errCount := 0 } : Leg).apart := by
  rw [State.beforeSearch_leg, (Leg.queuePhase_requeued ..).apart, (Leg.flushed_requeued _).apart]

theorem State.beforeSearch_lane (s : State) (g : LegId) (cause : LegCause) (n : Nat) (c : LaneId) :
    (s.beforeSearch g cause n).lane c = if (s.winLanes g).contains c then (s.lane c).entered .train else s.lane c := by
  unfold State.beforeSearch
  rw [State.queuePhase_lane, State.flush_lane, State.modLeg_lane, State.enter_lane]

theorem State.beforeSearch_cable (s : State) (g : LegId) (cause : LegCause) (n : Nat) :
    (s.beforeSearch g cause n).cable = s.cable := by
  unfold State.beforeSearch
  rw [State.queuePhase_cable, State.flush_cable]
  rfl

theorem State.beforeSearch_role (s : State) (g : LegId) (cause : LegCause) (n : Nat) :
    (s.beforeSearch g cause n).role = s.role := by
  unfold State.beforeSearch
  rw [State.queuePhase_role, State.flush_role]
  rfl

/-- The leg's record after the entry, traffic apart: the entry's, with resume used up by an attempt 1 and the deadline running. -/
theorem State.enterTrain_apart (s : State) (g : LegId) (cause : LegCause) (n : Nat) :
    ((s.enterTrain g cause n).leg g).apart
      = ({ (s.leg g).entered s.role .train (some n) s.time with
            errCount := 0, resume := if n = 1 then false else (s.leg g).resume, deadline := some (s.time + 250000) } : Leg).apart := by
  have spec := (State.openLanes_spec g _ (s.beforeSearch g cause n)
    (State.winIndices_nodup (s.beforeSearch g cause n) g)).2.2.2.trans (s.beforeSearch_apart g cause n)
  have time : ((s.beforeSearch g cause n).startSearch g).time = s.time :=
    (State.acts_startSearch _ g).time.trans (by
      unfold State.beforeSearch; rw [State.queuePhase_time, State.flush_time]; rfl)
  rw [State.enterTrain_eq, State.startDeadline, State.modLeg_leg_same, State.after, time, State.startSearch_leg]
  generalize ((s.beforeSearch g cause n).winIndices g).foldl (State.openLane g) (s.beforeSearch g cause n) = x at spec ⊢
  change ({ (x.leg g).apart with
    resume := if (x.leg g).apart.attempt = some 1 then false else (x.leg g).apart.resume
    deadline := some (s.time + BitVec.ofNat 32 250000) } : Leg) = _
  rw [spec]
  simp [Leg.apart, Leg.entered]

/-- A window lane after the entry: its search open with the settings of its opening request (R68 to R70). -/
theorem State.enterTrain_opens (s : State) (g : LegId) (cause : LegCause) (n : Nat) {i : WinIx} (hi : s.hasIndex g i) :
    (s.enterTrain g cause n).lane (s.winLane g i)
        = ((s.lane (s.winLane g i)).entered .train).opened ((s.beforeSearch g cause n).opening g i).2
      ∧ ((s.enterTrain g cause n).leg g).carries s.role (requestItem s.role i ((s.beforeSearch g cause n).opening g i).1) := by
  have window : ((s.beforeSearch g cause n).leg g).window = (s.leg g).window :=
    Leg.field_of_apart (s.beforeSearch_apart g cause n) Leg.window fun _ => rfl
  obtain ⟨lane, sent⟩ := (State.openLanes_spec g _ (s.beforeSearch g cause n)
    (State.winIndices_nodup (s.beforeSearch g cause n) g)).1 i (by rwa [State.mem_winIndices, State.hasIndex_congr window])
  rw [State.winLane_congr window, State.beforeSearch_lane, if_pos (List.contains_iff_mem.mpr (State.winLane_mem hi))] at lane
  rw [State.beforeSearch_role] at sent
  rw [State.enterTrain_lane]
  exact ⟨lane, s.enterTrain_carries g cause n sent⟩

/-- PHASE(TRAIN) is on its way after the entry at a HUB: the requests that follow it leave it in the queue (R32). -/
theorem State.enterTrain_tells (s : State) (g : LegId) (cause : LegCause) (n : Nat) (hub : s.role = .hubRole) :
    ((s.enterTrain g cause n).leg g).carries .hubRole (.phase .train n ((s.leg g).negRate.getD .l)) := by
  have carried := (State.openLanes_spec g _ (s.beforeSearch g cause n)
    (State.winIndices_nodup (s.beforeSearch g cause n) g)).2.2.1 (.phase .train n ((s.leg g).negRate.getD .l))
  rw [State.beforeSearch_role, hub, State.beforeSearch_leg] at carried
  exact s.enterTrain_carries g cause n (carried (Leg.queuePhase_carries ..) fun i _ q => nofun)

/-- The opening request of a window lane, read from the state before the entry. -/
theorem State.beforeSearch_opening (s : State) (g : LegId) (cause : LegCause) {n : Nat} (pos : 1 ≤ n) (i : WinIx) :
    let o := (s.beforeSearch g cause n).opening g i
    let c := s.winLane g i
    let e := s.cable.learned[c]
    let loss := s.cable.loss[c]
    let resumes := n = 1 ∧ (s.leg g).resume ∧ (s.lane c).farTaps ≠ none
    let learned := n = 1 ∧ e.valid ∧ (s.leg g).negRate.map (fun r => byteOf r.code) = some e.rate
      ∧ s.cable.learnedSerial = s.cable.serial
    (resumes → ∀ u, (s.lane c).farTaps = some u → o = (.load u.pre u.post, none))
      ∧ (¬resumes → learned → o = (.load e.pre e.post, some (e.peaking, e.d1)))
      ∧ (¬resumes → ¬learned → o
          = (.preset (Fin.ofNat 8 (if n ≤ 2 then loss.val else if n = 3 then min (loss.val + 1) 7 else loss.val - 1)),
             some (7, 0))) := by
  have field {α : Type} (f : Leg → α) (h : ∀ l : Leg, f l.apart = f l) :=
    Leg.field_of_apart (s.beforeSearch_apart g cause n) f h
  have window : ((s.beforeSearch g cause n).leg g).window = (s.leg g).window := field Leg.window fun _ => rfl
  have resume : ((s.beforeSearch g cause n).leg g).resume = (s.leg g).resume := field Leg.resume fun _ => rfl
  have rate : ((s.beforeSearch g cause n).leg g).negRate = (s.leg g).negRate := field Leg.negRate fun _ => rfl
  have far : ((s.beforeSearch g cause n).lane (s.winLane g i)).farTaps = (s.lane (s.winLane g i)).farTaps := by
    rw [State.beforeSearch_lane]
    split <;> rfl
  have spec := (s.beforeSearch g cause n).opening_spec g i (field Leg.attempt fun _ => rfl) pos
  simp only [State.winLane_congr window i, resume, rate, far, State.beforeSearch_cable] at spec
  exact spec

/-- The entry to TRAIN begins attempt n of the leg (R32, R68 to R70). -/
theorem State.enterTrain_begins (s : State) (g : LegId) (cause : LegCause) {n : Nat} (pos : 1 ≤ n) :
    s.BeginsTrain (s.enterTrain g cause n) g n (s.leg g).negRate := by
  have apart := s.enterTrain_apart g cause n
  have field {α : Type} (f : Leg → α) (h : ∀ l : Leg, f l.apart = f l) := Leg.field_of_apart apart f h
  have role : (s.enterTrain g cause n).role = s.role := (s.acts_enterTrain g cause n).role
  refine ⟨field Leg.state fun _ => rfl, field Leg.attempt fun _ => rfl, field Leg.errCount fun _ => rfl,
    field Leg.negRate fun _ => rfl, fun i hi => ?_, field Leg.resume fun _ => rfl, fun hub =>
    ⟨field Leg.deadline fun _ => rfl, State.sends_of_carries ?_⟩⟩
  · obtain ⟨lane, sent⟩ := s.enterTrain_opens g cause n hi
    obtain ⟨resumed, learned, preset⟩ := s.beforeSearch_opening g cause pos i
    have out : (s.enterTrain g cause n).sends g (requestItem s.role i ((s.beforeSearch g cause n).opening g i).1) :=
      State.sends_of_carries (role ▸ sent)
    unfold State.OpensLane
    dsimp only
    rw [lane]
    refine ⟨rfl, fun r u hu => ?_, fun no l => ?_, fun no unfit => ?_⟩
    · rw [resumed r u hu] at out ⊢
      exact ⟨out, rfl, rfl⟩
    · rw [learned no l] at out ⊢
      exact ⟨out, rfl, rfl⟩
    · rw [preset no unfit] at out ⊢
      exact ⟨out, rfl, rfl⟩
  · have hub' : s.role = .hubRole := by simpa [State.isHub] using hub
    rw [role, hub']
    exact s.enterTrain_tells g cause n hub'

end Sys2Proof.Machine
end

