-- ==== Sys2Proof/Proofs/PhaseEntries.lean ====
section
/-! SUPPORT. The entries to ADAPT, VERIFY and UP and a failed attempt (R33 to R36), related to the state a command found: what
the command did before the entry (`State.AsBefore`) and after it (`State.Onward`) does not touch what they say. -/

open Sys2Proof Sys2Proof.Machine

namespace Sys2Proof.Machine

/-! ### Entry to ADAPT (R33, R80) -/

/-- The state whose lanes an entry to ADAPT starts to adapt. -/
def State.beforeAdapt (s : State) (g : LegId) : State :=
  ((s.enter g .adapt .trained (s.leg g).attempt).queuePhase g .adapt ((s.leg g).attempt.getD 0)).startDeadline g 20000

theorem State.beforeAdapt_lane (s : State) (g : LegId) (c : LaneId) :
    (s.beforeAdapt g).lane c = if (s.winLanes g).contains c then (s.lane c).entered .adapt else s.lane c := by
  rw [State.beforeAdapt, State.startDeadline, State.modLeg_lane, State.queuePhase_lane, State.enter_lane]

theorem State.beforeAdapt_peaking (s : State) (g : LegId) (c : LaneId) :
    ((s.beforeAdapt g).lane c).peaking = (s.lane c).peaking := by
  rw [State.beforeAdapt_lane]
  split <;> rfl

theorem State.beforeAdapt_leg (s : State) (g : LegId) :
    (s.beforeAdapt g).leg g
      = { ((s.leg g).entered s.role .adapt (s.leg g).attempt s.time).queuePhase .adapt ((s.leg g).attempt.getD 0)
            (s.leg g).phaseRate with deadline := some (s.time + 20000) } := by
  rw [State.beforeAdapt, State.startDeadline, State.modLeg_leg_same, State.queuePhase, State.modLeg_leg_same,
    State.enter_leg, if_pos rfl]
  rfl

theorem State.beforeAdapt_window (s : State) (g : LegId) : ((s.beforeAdapt g).leg g).window = (s.leg g).window := by
  rw [State.beforeAdapt_leg, ((Leg.queuePhase_requeued _ _ _ _).window :)]
  rfl

theorem State.enterAdapt_eq (s : State) (g : LegId) : s.enterAdapt g = (s.beforeAdapt g).startAdapt g := rfl

theorem State.enterAdapt_leg (s : State) (g : LegId) :
    (s.enterAdapt g).leg g = { (s.beforeAdapt g).leg g with
      adapt := some (vec8 (fun i => AdaptLane.start (s.lane (s.winLane g i)).peaking)) } := by
  rw [State.enterAdapt_eq, State.startAdapt, State.modWindow_leg, State.modLeg_leg_same]
  simp only [State.winLane_congr (s.beforeAdapt_window g), State.beforeAdapt_peaking]

theorem State.enterAdapt_peaking (s : State) (g : LegId) {c : LaneId} (hc : c ∈ s.winLanes g) :
    ((s.enterAdapt g).lane c).peaking = (peakingCodes (s.lane c).peaking).headD (s.lane c).peaking := by
  have mem : c ∈ ((s.beforeAdapt g).modLeg g (fun l => { l with
      adapt := some (vec8 (fun i => AdaptLane.start ((s.beforeAdapt g).lane ((s.beforeAdapt g).winLane g i)).peaking)) })).winLanes
        g := by
    rw [State.winLanes_congr (s := s.beforeAdapt g) (by rw [State.modLeg_leg_same]), State.winLanes_congr (s.beforeAdapt_window g)]
    exact hc
  rw [State.enterAdapt_eq, State.startAdapt, State.modWindow_lane, if_pos (List.contains_iff_mem.mpr mem), State.modLeg_lane]
  dsimp only
  rw [State.beforeAdapt_peaking]

theorem State.enterAdapt_begins {s : State} {g : LegId} {n : Nat} (attempt : (s.leg g).attempt = some n) :
    s.BeginsAdapt (s.enterAdapt g) g n := by
  have apart : ((s.enterAdapt g).leg g).apart = ({ (s.leg g).entered s.role .adapt (some n) s.time with
      deadline := some (s.time + 20000)
      adapt := some (vec8 (fun i => AdaptLane.start (s.lane (s.winLane g i)).peaking)) } : Leg).apart := by
    rw [State.enterAdapt_leg, State.beforeAdapt_leg, attempt, (Leg.queuePhase_requeued _ _ _ _).same]
    rfl
  have field {α : Type} (f : Leg → α) (h : ∀ l : Leg, f l.apart = f l) := Leg.field_of_apart apart f h
  refine ⟨field Leg.state fun _ => rfl, field Leg.attempt fun _ => rfl, ⟨_, field Leg.adapt fun _ => rfl, fun i hi low => ?_⟩,
    fun hub => ⟨field Leg.deadline fun _ => rfl, State.sends_of_carries ?_⟩⟩
  · rw [vec8_get, State.enterAdapt_peaking s g (State.winLane_mem hi), peakingCodes_head low, AdaptLane.start, peakingCodes_eq low]
    exact ⟨rfl, rfl⟩
  · have role : (s.enterAdapt g).role = .hubRole := by
      rw [(s.acts_enterAdapt g).role]; simpa [State.isHub] using hub
    rw [role, State.enterAdapt_leg, State.beforeAdapt_leg, attempt]
    exact (Leg.carries_congr rfl).mpr (Leg.queuePhase_carries ..)

/-! ### Entry to VERIFY (R34, R84) -/

theorem State.enterVerify_leg (s : State) (g : LegId) :
    (s.enterVerify g).leg g
      = { ((s.leg g).entered s.role .verify (s.leg g).attempt s.time).queuePhase .verify ((s.leg g).attempt.getD 0)
            (s.leg g).phaseRate with
          deadline := some (s.time + 40000), verify := some (Vector.replicate 8 ⟨false, 0, 0⟩) } := by
  rw [State.enterVerify, State.startVerify, State.modLeg_leg_same, State.startDeadline, State.modLeg_leg_same,
    State.queuePhase, State.modLeg_leg_same, State.enter_leg, if_pos rfl]
  rfl

theorem State.enterVerify_lane (s : State) (g : LegId) (c : LaneId) :
    (s.enterVerify g).lane c = if (s.winLanes g).contains c then (s.lane c).entered .verify else s.lane c := by
  rw [State.enterVerify, State.startVerify, State.modLeg_lane, State.startDeadline, State.modLeg_lane, State.queuePhase_lane,
    State.enter_lane]

theorem State.enterVerify_begins {s : State} {g : LegId} {n : Nat} (attempt : (s.leg g).attempt = some n) :
    s.BeginsVerify (s.enterVerify g) g n := by
  have apart : ((s.enterVerify g).leg g).apart = ({ (s.leg g).entered s.role .verify (some n) s.time with
      deadline := some (s.time + 40000), verify := some (Vector.replicate 8 ⟨false, 0, 0⟩) } : Leg).apart := by
    rw [State.enterVerify_leg, attempt, (Leg.queuePhase_requeued _ _ _ _).same]
    rfl
  have field {α : Type} (f : Leg → α) (h : ∀ l : Leg, f l.apart = f l) := Leg.field_of_apart apart f h
  refine ⟨field Leg.state fun _ => rfl, field Leg.attempt fun _ => rfl, ⟨_, field Leg.verify fun _ => rfl, fun i _ => by simp⟩,
    fun hub => ⟨field Leg.deadline fun _ => rfl, State.sends_of_carries ?_⟩⟩
  have role : (s.enterVerify g).role = .hubRole := by
    rw [(s.acts_enterVerify g).role]; simpa [State.isHub] using hub
  rw [role, State.enterVerify_leg, attempt]
  exact (Leg.carries_congr rfl).mpr (Leg.queuePhase_carries ..)

/-! ### Entry to UP (R35, R87, R168) -/

theorem Cable.claimed_learned (k : Cable) (c : LaneId) :
    k.claimed.learned[c] = if k.learnedSerial = k.serial then k.learned[c] else { k.learned[c] with valid := false } := by
  unfold Cable.claimed
  split
  · rfl
  · exact vec8_get _ c

theorem Cable.claimed_serial (k : Cable) : k.claimed.learnedSerial = k.serial := by
  unfold Cable.claimed
  split
  · assumption
  · rfl

theorem State.handOver_cable (s : State) (g : LegId) :
    (s.handOver g).cable = { s.cable with
      learned := vec8 (fun c => if (s.winLanes g).contains c then s.learnedFor g c else s.cable.claimed.learned[c])
      learnedSerial := s.cable.serial } := by
  simp only [State.handOver]
  rw [Cable.claimed_same, Cable.claimed_serial]

/-- Handing over the learned entries of lanes that stand as before the entry, by the leg's rate (R87, R168). -/
theorem State.handOver_handsOver {s u : State} {g : LegId} {r : Rate} (cable : u.cable = s.cable)
    (window : (u.leg g).window = (s.leg g).window) (rate : (u.leg g).phaseRate = r)
    (lane : ∀ c, (u.lane c).farTaps = (s.lane c).farTaps ∧ (u.lane c).peaking = (s.lane c).peaking ∧ (u.lane c).d1 = (s.lane c).d1) :
    s.HandsOver (u.handOver g) g r := by
  have learned (c : LaneId) : (u.handOver g).cable.learned[c]
      = if c ∈ s.winLanes g then u.learnedFor g c else s.cable.claimed.learned[c] := by
    rw [State.handOver_cable, vec8_get, State.winLanes_congr window, cable]
    simp only [List.contains_iff_mem]
  refine ⟨?_, fun c hc => ?_, fun c hc => ?_⟩
  · rw [State.handOver_cable, cable]
  · obtain ⟨far, peaking, d1⟩ := lane c
    rw [learned, if_pos hc, State.learnedFor, far, peaking, d1, rate]
    exact ⟨rfl, rfl, rfl, rfl, fun u hu => by rw [hu]; exact ⟨rfl, rfl⟩⟩
  · rw [learned, if_neg hc, Cable.claimed_learned]

/-- The state in which an entry to UP hands the learned entries over. -/
def State.beforeHandOver (s : State) (g : LegId) : State :=
  (s.enter g .up .verified none).modLeg g (fun l => { l with upSince := some s.time })

theorem State.enterUp_eq (s : State) (g : LegId) : s.enterUp g = ((s.beforeHandOver g).handOver g).queuePhase g .run 0 := rfl

theorem State.beforeHandOver_leg (s : State) (g : LegId) :
    (s.beforeHandOver g).leg g = { (s.leg g).entered s.role .up none s.time with upSince := some s.time } := by
  rw [State.beforeHandOver, State.modLeg_leg_same, State.enter_leg, if_pos rfl]

theorem State.enterUp_leg (s : State) (g : LegId) :
    (s.enterUp g).leg g = ({ (s.leg g).entered s.role .up none s.time with upSince := some s.time } : Leg).queuePhase .run 0
      (s.leg g).phaseRate := by
  rw [State.enterUp_eq, State.queuePhase, State.modLeg_leg_same, State.handOver_leg, State.beforeHandOver_leg]
  rfl

theorem State.enterUp_cameUp {s : State} {g : LegId} {r : Rate} (hub : s.isHub) (rate : (s.leg g).negRate = some r) :
    s.CameUp (s.enterUp g) g r := by
  have phaseRate : (s.leg g).phaseRate = r := by rw [Leg.phaseRate, rate]; rfl
  have apart : ((s.enterUp g).leg g).apart
      = ({ (s.leg g).entered s.role .up none s.time with upSince := some s.time } : Leg).apart := by
    rw [State.enterUp_leg, (Leg.queuePhase_requeued _ _ _ _).apart]
  have field {α : Type} (f : Leg → α) (h : ∀ l : Leg, f l.apart = f l) := Leg.field_of_apart apart f h
  refine ⟨field Leg.state fun _ => rfl, field Leg.attempt fun _ => rfl, field Leg.upSince fun _ => rfl,
    field Leg.retrains fun _ => rfl, ?_, State.sends_of_carries ?_⟩
  · have handed : s.HandsOver ((s.beforeHandOver g).handOver g) g r := by
      refine State.handOver_handsOver rfl ?_ ?_ fun c => ?_
      · rw [State.beforeHandOver_leg]; rfl
      · rw [State.beforeHandOver_leg]; exact phaseRate
      · rw [State.beforeHandOver, State.modLeg_lane, State.enter_lane]
        split <;> exact ⟨rfl, rfl, rfl⟩
    exact handed
  · have role : (s.enterUp g).role = .hubRole := by
      rw [(s.acts_enterUp g).role]; simpa [State.isHub] using hub
    rw [role, State.enterUp_leg, phaseRate]
    exact Leg.queuePhase_carries ..

/-! ### What a command does before the entry -/

/-- The command has changed nothing of leg g, from s to u, that an attempt reads: only the phase's own tallies and results and
the sideband's marks, and lanes. -/
structure State.AsBefore (s u : State) (g : LegId) : Prop where
  role : u.role = s.role
  time : u.time = s.time
  cable : u.cable = s.cable
  leg : u.leg g = { s.leg g with
    localTrained := (u.leg g).localTrained, localVerify := (u.leg g).localVerify, farVerify := (u.leg g).farVerify
    adapt := (u.leg g).adapt, verify := (u.leg g).verify, timeouts := (u.leg g).timeouts, sbLost := (u.leg g).sbLost
    probeWait := (u.leg g).probeWait }

theorem State.AsBefore.refl (s : State) (g : LegId) : s.AsBefore s g := ⟨rfl, rfl, rfl, rfl⟩

theorem State.AsBefore.trans {s t u : State} {g : LegId} (h : s.AsBefore t g) (k : t.AsBefore u g) : s.AsBefore u g where
  role := k.role.trans h.role
  time := k.time.trans h.time
  cable := k.cable.trans h.cable
  leg := by rw [k.leg, h.leg]

/-- Lanes may have changed. -/
theorem State.AsBefore.of_legs {s u : State} (g : LegId) (role : u.role = s.role) (time : u.time = s.time)
    (cable : u.cable = s.cable) (legs : u.legs = s.legs) : s.AsBefore u g :=
  ⟨role, time, cable, by rw [show u.leg g = s.leg g from by simp [State.leg, legs]]⟩

/-- Every lane's far taps and receiver settings stand as they stood. -/
def State.sameReceivers (s u : State) : Prop :=
  ∀ c, (u.lane c).farTaps = (s.lane c).farTaps ∧ (u.lane c).peaking = (s.lane c).peaking ∧ (u.lane c).d1 = (s.lane c).d1

namespace State.AsBefore

variable {s u t : State} {g : LegId} (b : s.AsBefore u g)
include b

theorem window : (u.leg g).window = (s.leg g).window := by rw [b.leg]

theorem attempt : (u.leg g).attempt = (s.leg g).attempt := by rw [b.leg]

theorem negRate : (u.leg g).negRate = (s.leg g).negRate := by rw [b.leg]

theorem resume : (u.leg g).resume = (s.leg g).resume := by rw [b.leg]

theorem retrains : (u.leg g).retrains = (s.leg g).retrains := by rw [b.leg]

theorem faultCount : (u.leg g).faultCount = (s.leg g).faultCount := by rw [b.leg]

theorem state : (u.leg g).state = (s.leg g).state := by rw [b.leg]

theorem standbyVerify : (u.leg g).standbyVerify = (s.leg g).standbyVerify := by rw [b.leg]

theorem phaseRate : (u.leg g).phaseRate = (s.leg g).phaseRate := by rw [Leg.phaseRate, b.negRate]; rfl

theorem isHub : u.isHub = s.isHub := by rw [State.isHub, b.role]; rfl

theorem winLane (i : WinIx) : u.winLane g i = s.winLane g i := State.winLane_congr b.window i

theorem winLanes : u.winLanes g = s.winLanes g := State.winLanes_congr b.window

theorem hasIndex (i : WinIx) : u.hasIndex g i = s.hasIndex g i := State.hasIndex_congr b.window i

theorem opensLane {n : Nat} {rate : Option Rate} {i : WinIx} (lanes : n = 1 → s.sameReceivers u)
    (h : u.OpensLane t g n rate i) : s.OpensLane t g n rate i := by
  unfold State.OpensLane at h ⊢
  dsimp only at h ⊢
  simp only [b.winLane, b.cable, b.resume, b.role] at h
  by_cases first : n = 1
  · obtain ⟨far, peaking, d1⟩ := lanes first (s.winLane g i)
    rw [far, peaking, d1] at h
    exact h
  · obtain ⟨opened, -, learned, preset⟩ := h
    exact ⟨opened, fun r => absurd r.1 first, fun _ l => absurd l.1 first, fun _ _ => preset (fun r => first r.1) fun l => first l.1⟩

theorem beginsTrain {n : Nat} {rate : Option Rate} (lanes : n = 1 → s.sameReceivers u) (h : u.BeginsTrain t g n rate) :
    s.BeginsTrain t g n rate := by
  obtain ⟨state, attempt, errCount, negRate, opens, resume, hub⟩ := h
  refine ⟨state, attempt, errCount, negRate, fun i hi => b.opensLane lanes (opens i (by rwa [b.hasIndex])), ?_, ?_⟩
  · rw [resume, b.resume]
  · rw [b.isHub, b.time] at hub
    exact hub

theorem beginsAdapt {n : Nat} (peaking : ∀ c, (u.lane c).peaking = (s.lane c).peaking) (h : u.BeginsAdapt t g n) :
    s.BeginsAdapt t g n := by
  unfold State.BeginsAdapt at h ⊢
  simp only [b.isHub, b.time, b.phaseRate, b.hasIndex, b.winLane, peaking] at h
  exact h

theorem beginsVerify {n : Nat} (h : u.BeginsVerify t g n) : s.BeginsVerify t g n := by
  unfold State.BeginsVerify at h ⊢
  simp only [b.isHub, b.time, b.phaseRate, b.hasIndex] at h
  exact h

theorem cameUp {r : Rate} (lanes : s.sameReceivers u) (h : u.CameUp t g r) : s.CameUp t g r := by
  obtain ⟨state, attempt, upSince, retrains, ⟨cable, inside, outside⟩, sent⟩ := h
  rw [b.winLanes] at inside outside
  rw [b.cable] at cable outside
  refine ⟨state, attempt, upSince.trans (congrArg some b.time), retrains.trans b.retrains, ⟨cable, fun c hc => ?_, outside⟩, sent⟩
  obtain ⟨far, peaking, d1⟩ := lanes c
  rw [← far, ← peaking, ← d1]
  exact inside c hc

end State.AsBefore

/-! ### A failed attempt (R36) -/

/-- Entry to FAULT from a state in which a leg works (R40). -/
theorem State.enterFault_leg {s : State} {g : LegId} (off : (s.leg g).state ≠ .off) (fault : (s.leg g).state ≠ .fault)
    (why : FaultReason) :
    (s.enterFault g why).leg g = ({ (s.leg g).entered s.role .fault none s.time with
      lastFault := why, faultCount := min 255 ((s.leg g).faultCount + 1) } : Leg).flushed := by
  unfold State.enterFault
  dsimp only
  rw [if_neg (not_or.mpr ⟨off, fault⟩), State.post_leg, State.flush_leg, if_pos rfl, State.modLeg_leg_same, State.enter_leg,
    if_pos rfl]
  rfl

/-- An attempt of a leg in TRAIN, ADAPT or VERIFY fails as R36 says, whatever the command did to the phase's own record. -/
theorem State.AsBefore.attemptFails {s u : State} {g : LegId} (b : s.AsBefore u g) (cause : LegCause) {n : Nat}
    (attempt : (s.leg g).attempt = some n) (awake : (s.leg g).state.attempting)
    (lanes : (s.leg g).standbyVerify ∨ n = 0 → s.sameReceivers u) : s.AttemptFailed (u.attemptFails g cause) g n := by
  have next : u.attemptFails g cause = if (s.leg g).standbyVerify then u.enterTrain g cause 1
      else if n < 4 then u.enterTrain g cause (n + 1) else u.enterFault g .trainFailed := by
    unfold State.attemptFails
    dsimp only
    rw [b.attempt, attempt, b.standbyVerify]
    rfl
  have retrained (m : Nat) : ((u.enterTrain g cause m).leg g).retrains = (s.leg g).retrains :=
    (Leg.field_of_apart (u.enterTrain_apart g cause m) Leg.retrains fun _ => rfl).trans b.retrains
  unfold State.AttemptFailed
  rw [next]
  by_cases standby : (s.leg g).standbyVerify
  · rw [if_pos (.inl standby), if_pos standby, if_pos standby]
    exact ⟨b.beginsTrain (fun _ => lanes (.inl standby)) (b.negRate ▸ u.enterTrain_begins g cause (Nat.le_refl 1)), retrained 1⟩
  · rw [if_neg standby]
    by_cases more : n < 4
    · rw [if_pos (.inr more), if_neg standby, if_pos more]
      exact ⟨b.beginsTrain (fun e => lanes (.inr (by omega))) (b.negRate ▸ u.enterTrain_begins g cause (Nat.le_add_left 1 n)),
        retrained _⟩
    · rw [if_neg (not_or.mpr ⟨standby, more⟩), if_neg more]
      have working : (u.leg g).state ≠ .off ∧ (u.leg g).state ≠ .fault := by
        rw [b.state]
        constructor <;> intro e <;> rw [e] at awake <;> cases awake
      rw [State.enterFault_leg working.1 working.2, ← b.faultCount]
      exact ⟨rfl, rfl, rfl, rfl, rfl⟩

end Sys2Proof.Machine
end

