-- ==== Sys2Proof/Proofs/SearchMoves.lean ====
section
/-! SUPPORT. What moving a lane's search does (R66, R71 to R79): one relation for the four things a search asks for
(`State.SearchDoes`), and what it means for each event of a search. -/

open Sys2Proof Sys2Proof.Machine

namespace Sys2Proof.Machine

/-! ### The end of the event -/

namespace State.Onward

variable {s w t : State} (k : w.Onward t)
include k

theorem state (g : LegId) : (t.leg g).state = (w.leg g).state := k.field Leg.state (fun _ => rfl) g

theorem opensLane {g : LegId} {n : Nat} {rate : Option Rate} {i : WinIx} (h : s.OpensLane w g n rate i) : s.OpensLane t g n rate i := by
  unfold State.OpensLane at h ⊢
  dsimp only at h ⊢
  rw [k.lane]
  obtain ⟨opened, resumed, learned, preset⟩ := h
  exact ⟨opened, fun r u hu => (resumed r u hu).imp_left (k.sends _ _), fun a b => (learned a b).imp_left (k.sends _ _),
    fun a b => (preset a b).imp_left (k.sends _ _)⟩

theorem beginsTrain {g : LegId} {n : Nat} {rate : Option Rate} (h : s.BeginsTrain w g n rate) : s.BeginsTrain t g n rate := by
  obtain ⟨state, attempt, errCount, negRate, opens, resume, hub⟩ := h
  exact ⟨(k.state g).trans state, (k.field Leg.attempt (fun _ => rfl) g).trans attempt,
    (k.field Leg.errCount (fun _ => rfl) g).trans errCount, (k.field Leg.negRate (fun _ => rfl) g).trans negRate,
    fun i hi => k.opensLane (opens i hi), (k.field Leg.resume (fun _ => rfl) g).trans resume,
    fun h => (hub h).imp ((k.field Leg.deadline (fun _ => rfl) g).trans ·) (k.sends _ _)⟩

theorem beginsAdapt {g : LegId} {n : Nat} (h : s.BeginsAdapt w g n) : s.BeginsAdapt t g n := by
  obtain ⟨state, attempt, ⟨v, adapt, tally⟩, hub⟩ := h
  refine ⟨(k.state g).trans state, (k.field Leg.attempt (fun _ => rfl) g).trans attempt,
    ⟨v, (k.field Leg.adapt (fun _ => rfl) g).trans adapt, fun i hi low => ?_⟩,
    fun h => (hub h).imp ((k.field Leg.deadline (fun _ => rfl) g).trans ·) (k.sends _ _)⟩
  rw [k.lane]
  exact tally i hi low

theorem beginsVerify {g : LegId} {n : Nat} (h : s.BeginsVerify w g n) : s.BeginsVerify t g n := by
  obtain ⟨state, attempt, ⟨v, verify, tally⟩, hub⟩ := h
  exact ⟨(k.state g).trans state, (k.field Leg.attempt (fun _ => rfl) g).trans attempt,
    ⟨v, (k.field Leg.verify (fun _ => rfl) g).trans verify, tally⟩,
    fun h => (hub h).imp ((k.field Leg.deadline (fun _ => rfl) g).trans ·) (k.sends _ _)⟩

theorem cameUp {g : LegId} {r : Rate} (h : s.CameUp w g r) : s.CameUp t g r := by
  obtain ⟨state, attempt, upSince, retrains, handed, sent⟩ := h
  refine ⟨(k.state g).trans state, (k.field Leg.attempt (fun _ => rfl) g).trans attempt,
    (k.field Leg.upSince (fun _ => rfl) g).trans upSince, (k.field Leg.retrains (fun _ => rfl) g).trans retrains, ?_,
    k.sends _ _ sent⟩
  unfold State.HandsOver
  rw [k.cable]
  exact handed

theorem attemptFailed {g : LegId} {n : Nat} (h : s.AttemptFailed w g n) : s.AttemptFailed t g n := by
  unfold State.AttemptFailed at h ⊢
  split
  · rename_i again
    rw [if_pos again] at h
    exact h.imp k.beginsTrain ((k.field Leg.retrains (fun _ => rfl) g).trans ·)
  · rename_i last
    rw [if_neg last] at h
    obtain ⟨state, why, count, attempt, queue⟩ := h
    exact ⟨(k.state g).trans state, (k.field Leg.lastFault (fun _ => rfl) g).trans why,
      (k.field Leg.faultCount (fun _ => rfl) g).trans count, (k.field Leg.attempt (fun _ => rfl) g).trans attempt,
      (k.fault g state).trans queue⟩

theorem searchIs {g : LegId} {i : WinIx} {r : Search} (h : s.SearchIs w g i r) : s.SearchIs t g i r :=
  ⟨(k.state g).trans h.1, by rw [k.lane]; exact h.2⟩

theorem searchEnds {g : LegId} {i : WinIx} {r : Search} {n : Nat} (role : w.role = s.role) (h : s.SearchEnds w g i r n) :
    s.SearchEnds t g i r n := by
  unfold State.SearchEnds at h ⊢
  split
  · rename_i failed
    rw [if_pos failed] at h
    exact k.attemptFailed h
  · rename_i lives
    rw [if_neg lives] at h
    split
    · rename_i adapts
      rw [if_pos adapts] at h
      exact k.beginsAdapt h
    · rename_i stays
      rw [if_neg stays] at h
      refine h.imp k.searchIs fun rest => ?_
      have marked := k.field Leg.localTrained (fun _ => rfl) g
      split
      · rename_i last
        rw [if_pos last] at rest
        exact rest.imp (fun h hub => marked.trans (h hub)) fun h e => k.sends _ _ (h e)
      · rename_i notLast
        rw [if_neg notLast] at rest
        refine rest.imp (marked.trans ·) fun h e => ?_
        obtain ⟨queue, held⟩ := k.atEnd (by rw [← e, State.isHub, role]; rfl) g
        exact (h e).imp (queue.trans ·) (held.trans ·)

end State.Onward

/-! ### The four things a search asks for -/

/-- From s to t leg g's lane i has done what its search asked for in attempt n: nothing, a request sent, the lane done, or the
lane failed (R71, R77, R78). -/
def State.SearchDoes (s t : State) (g : LegId) (i : WinIx) (n : Nat) (r : Search) : SearchOut → Prop
  | .quiet => s.SearchIs t g i r
  | .send q => s.SearchIs t g i r ∧ t.sends g (requestItem s.role i q)
  | .finished => s.SearchEnds t g i r n
  | .failed => s.isHub → s.AttemptFailed t g n

theorem State.SearchDoes.onward {s w t : State} {g : LegId} {i : WinIx} {n : Nat} {r : Search} {o : SearchOut}
    (h : s.SearchDoes w g i n r o) (role : w.role = s.role) (k : w.Onward t) : s.SearchDoes t g i n r o := by
  cases o with
  | quiet => exact k.searchIs h
  | send q => exact h.imp k.searchIs (k.sends _ _)
  | finished => exact k.searchEnds role h
  | failed => exact fun hub => k.attemptFailed (h hub)

/-! ### A step of a search -/

/-- What a command did from s to u before it moved a search of leg g leaves everything the search and its leg's attempt read. -/
structure State.BeforeSearch (s u : State) (g : LegId) : Prop extends s.AsBefore u g where
  search : ∀ c, (u.lane c).search = (s.lane c).search
  peaking : ∀ c, (u.lane c).peaking = (s.lane c).peaking
  marked : (u.leg g).localTrained = (s.leg g).localTrained

/-- The state in which window lane i holds the search record r. -/
def State.withSearch (u : State) (g : LegId) (i : WinIx) (r : Search) : State :=
  u.modLane (u.winLane g i) (fun l => { l with search := some r })

theorem State.withSearch_leg (u : State) (g k : LegId) (i : WinIx) (r : Search) : (u.withSearch g i r).leg k = u.leg k := rfl

theorem State.moveSearch_eq {u : State} {g : LegId} {i : WinIx} {r : Search} (h : (u.lane (u.winLane g i)).search = some r)
    (f : Search → Search × SearchOut) : u.moveSearch g i f = (u.withSearch g i (f r).1).searchOut g i (f r).2 := by
  unfold State.moveSearch
  rw [h]
  rfl

theorem State.moveSearch_none {u : State} {g : LegId} {i : WinIx} (h : (u.lane (u.winLane g i)).search = none)
    (f : Search → Search × SearchOut) : u.moveSearch g i f = (u, false) := by
  unfold State.moveSearch
  rw [h]

namespace State.BeforeSearch

variable {s u : State} {g : LegId} {i : WinIx} {r : Search} (b : s.BeforeSearch u g)
include b

theorem asBefore (r : Search) : s.AsBefore (u.withSearch g i r) g :=
  b.toAsBefore.trans (.of_legs g rfl rfl rfl rfl)

theorem search_moved (r : Search) : ((u.withSearch g i r).lane (s.winLane g i)).search = some r := by
  rw [← b.winLane, State.withSearch, State.modLane_lane_same]

theorem search_other (r : Search) {c : LaneId} (h : c ≠ s.winLane g i) :
    ((u.withSearch g i r).lane c).search = (s.lane c).search := by
  rw [State.withSearch, State.modLane_lane_other _ _ (by rwa [b.winLane]), b.search]

theorem peaking_moved (r : Search) (c : LaneId) : ((u.withSearch g i r).lane c).peaking = (s.lane c).peaking := by
  rw [State.withSearch, State.modLane_lane, ← b.peaking]
  split
  · rename_i e
    rw [e]
  · rfl

/-- With its search done a lane adds to the trained lanes just where its best merit is above 0 (R79). -/
theorem allTrained (window : s.hasIndex g i) (done : r.done = true) :
    (u.withSearch g i r).allTrained g = true ↔ r.best ≠ 0 ∧ s.othersDone g (s.winLane g i) = true := by
  unfold State.allTrained State.othersDone
  rw [(b.asBefore r).winLanes, List.all_eq_true, List.all_eq_true]
  constructor
  · intro trained
    refine ⟨fun zero => ?_, fun c hc => ?_⟩
    · have own := trained _ (State.winLane_mem window)
      rw [b.search_moved] at own
      simp [zero] at own
    · by_cases e : c = s.winLane g i
      · simp [e]
      · rw [← b.search_other r e, trained c hc, Bool.or_true]
  · rintro ⟨merit, others⟩ c hc
    by_cases e : c = s.winLane g i
    · rw [e, b.search_moved]
      simp [done, Nat.pos_of_ne_zero merit]
    · rw [b.search_other r e]
      simpa [e] using others c hc

end State.BeforeSearch

/-- A lane fails its leg's attempt at a HUB (R79); an END stays as it is. -/
theorem State.laneFails_fails {s w : State} {g : LegId} {n : Nat} (b : s.AsBefore w g) (awake : (s.leg g).state.attempting)
    (hub : s.isHub = true) (ends : (s.leg g).attempt = some n ∧ 1 ≤ n ∧ (s.leg g).standbyVerify = false) :
    w.laneFails g = (w.attemptFails g .laneFailed, true) ∧ s.AttemptFailed (w.attemptFails g .laneFailed) g n := by
  obtain ⟨attempt, pos, fresh⟩ := ends
  refine ⟨if_pos (b.isHub.trans hub), b.attemptFails _ attempt awake fun h => ?_⟩
  rcases h with standby | zero
  · rw [fresh] at standby; cases standby
  · omega

theorem State.laneFails_end {w : State} {g : LegId} (h : w.isHub = false) : w.laneFails g = (w, false) :=
  if_neg (by simp [h])

/-- What a move of a search answers: what it asked for is done, and while the leg entered no state it stands in TRAIN. -/
def State.SearchMoved (s : State) (g : LegId) (i : WinIx) (n : Nat) (r : Search) (o : SearchOut) (t : State × Bool) : Prop :=
  s.SearchDoes t.1 g i n r o ∧ (t.2 = false → (t.1.leg g).state = .train)

/-- The last lane done at a HUB sets the local trained mark, and begins ADAPT where the far end is trained (R33, R79). -/
theorem State.AsBefore.lastDone_hub {s w : State} {g : LegId} (b : s.AsBefore w g) {n : Nat} (train : (s.leg g).state = .train)
    (attempt : (s.leg g).attempt = some n) (peaking : ∀ c, (w.lane c).peaking = (s.lane c).peaking) :
    let m := w.modLeg g (fun l => { l with localTrained := true })
    if (s.leg g).farTrained = true then (m.checkTrained g).2 = true ∧ s.BeginsAdapt (m.checkTrained g).1 g n
    else m.checkTrained g = (m, false) ∧ (m.leg g).state = .train := by
  intro m
  have marked : s.AsBefore m g := b.trans ⟨rfl, rfl, rfl, by rw [State.modLeg_leg_same]⟩
  have both : (m.leg g).localTrained = true ∧ (m.leg g).farTrained = (s.leg g).farTrained := by
    rw [State.modLeg_leg_same, b.leg]
    exact ⟨rfl, rfl⟩
  unfold State.checkTrained
  split
  · rename_i far
    rw [if_pos ⟨both.1, both.2.trans far⟩]
    exact ⟨rfl, marked.beginsAdapt peaking (State.enterAdapt_begins (marked.attempt.trans attempt))⟩
  · rename_i far
    rw [if_neg fun h => far (both.2.symm.trans h.2)]
    exact ⟨rfl, marked.state.trans train⟩

theorem State.role_of_isHub_false {s : State} (h : s.isHub = false) : s.role = .endRole := by
  unfold State.isHub at h
  cases e : s.role with
  | endRole => rfl
  | hubRole => simp [e] at h

/-- The last lane done at an END puts TRAIN_DONE on its way (R79). -/
theorem State.AsBefore.lastDone_end {s w : State} {g : LegId} (b : s.AsBefore w g) {n : Nat} (train : (s.leg g).state = .train)
    (attempt : (s.leg g).attempt = some n) (atEnd : s.isHub = false) :
    let t := w.modLeg g (fun l => l.queueReport (.trainDone (l.attempt.getD 0)))
    (t.leg g).state = .train ∧ t.sends g (.trainDone n) := by
  intro t
  have leg : t.leg g = (w.leg g).queueReport (.trainDone n) := by rw [State.modLeg_leg_same, b.attempt, attempt]; rfl
  have role : t.role = .endRole := (State.modLeg_role ..).trans (State.role_of_isHub_false (b.isHub.trans atEnd))
  refine ⟨?_, State.sends_of_carries ?_⟩
  · rw [leg, (Leg.queueReport_requeued _ _).state, b.state, train]
  · rw [leg, role]
    exact Leg.queueReport_carries _ _

/-- A lane whose search is done (R77, R79). -/
theorem State.BeforeSearch.laneDone {s u : State} {g : LegId} (b : s.BeforeSearch u g) {i : WinIx} {n : Nat} (r : Search)
    (train : (s.leg g).state = .train) (window : s.hasIndex g i) (attempt : (s.leg g).attempt = some n)
    (lives : s.isHub = true → 1 ≤ n ∧ (s.leg g).standbyVerify = false) (waits : r.waiting = none) (done : r.done = true) :
    s.SearchMoved g i n r .finished ((u.withSearch g i r).laneDone g (s.winLane g i)) := by
  have before := b.asBefore (i := i) r
  have trained := b.allTrained window done
  have stays : ((u.withSearch g i r).leg g).state = .train := before.state.trans train
  have stands : s.SearchIs (u.withSearch g i r) g i { r with waiting := none, done := true } := by
    rw [← waits, ← done]
    exact ⟨stays, b.search_moved r⟩
  have unmoved : ((u.withSearch g i r).leg g).localTrained = (s.leg g).localTrained
      ∧ (s.isHub = false → ((u.withSearch g i r).leg g).queue = (s.leg g).queue
        ∧ ((u.withSearch g i r).leg g).reportHold = (s.leg g).reportHold) :=
    ⟨b.marked, fun _ => by rw [State.withSearch_leg, b.leg]; exact ⟨rfl, rfl⟩⟩
  have failed : ((u.withSearch g i r).lane (s.winLane g i)).search.any (fun r => r.best == 0) = true ↔ r.best = 0 := by
    rw [b.search_moved]
    simp
  show s.SearchEnds _ g i r n ∧ _
  unfold State.laneDone State.SearchEnds
  by_cases zero : r.best = 0
  · rw [if_pos (failed.mpr zero)]
    cases hub : s.isHub with
    | true =>
      obtain ⟨e, fails⟩ := State.laneFails_fails before (by rw [train]; rfl) hub ⟨attempt, lives hub⟩
      rw [e, if_pos ⟨rfl, zero⟩]
      exact ⟨fails, nofun⟩
    | false =>
      rw [State.laneFails_end (before.isHub.trans hub), if_neg (by simp), if_neg (by simp), if_neg (by simp [zero])]
      exact ⟨⟨stands, hub ▸ unmoved⟩, fun _ => stays⟩
  rw [if_neg (failed.not.mpr zero), if_neg (fun h : s.isHub = true ∧ r.best = 0 => zero h.2)]
  by_cases others : s.othersDone g (s.winLane g i) = true
  · rw [if_pos (trained.mpr ⟨zero, others⟩), if_pos (show r.best ≠ 0 ∧ _ from ⟨zero, others⟩), before.isHub]
    cases hub : s.isHub with
    | true =>
      rw [if_pos rfl]
      have last := before.lastDone_hub train attempt (b.peaking_moved r)
      by_cases far : (s.leg g).farTrained = true
      · rw [if_pos ⟨rfl, others, far⟩]
        rw [if_pos far] at last
        exact ⟨last.2, fun h => absurd (last.1.symm.trans h) nofun⟩
      · rw [if_neg fun h => far h.2.2]
        rw [if_neg far] at last
        rw [last.1]
        exact ⟨⟨⟨last.2, stands.2⟩, fun _ => by rw [State.modLeg_leg_same], nofun⟩, fun _ => last.2⟩
    | false =>
      obtain ⟨stays', sent⟩ := before.lastDone_end train attempt hub
      rw [if_neg (by simp), if_neg (by simp)]
      exact ⟨⟨⟨stays', stands.2⟩, nofun, fun _ => sent⟩, fun _ => stays'⟩
  · rw [if_neg (fun h => others (trained.mp h).2), if_neg (fun h : _ ∧ _ ∧ _ => others h.2.1),
      if_neg (fun h : _ ∧ _ => others h.2)]
    exact ⟨⟨stands, unmoved⟩, fun _ => stays⟩

/-- A search of a leg in TRAIN moves by f, and what it asks for is done (R71 to R79). -/
theorem State.BeforeSearch.moveSearch {s u : State} {g : LegId} (b : s.BeforeSearch u g) {i : WinIx} {n : Nat} {r : Search}
    (f : Search → Search × SearchOut) (train : (s.leg g).state = .train) (window : s.hasIndex g i)
    (searches : (s.lane (s.winLane g i)).search = some r)
    (ends : (f r).2 = .finished ∨ (f r).2 = .failed → (s.leg g).attempt = some n
      ∧ (s.isHub = true → 1 ≤ n ∧ (s.leg g).standbyVerify = false))
    (closed : (f r).2 = .finished → (f r).1.waiting = none ∧ (f r).1.done = true) :
    s.SearchMoved g i n (f r).1 (f r).2 (u.moveSearch g i f) := by
  rw [State.moveSearch_eq (r := r) (by rw [b.search, b.winLane, searches])]
  generalize f r = q at ends closed
  obtain ⟨r', o⟩ := q
  dsimp only at ends closed ⊢
  have before := b.asBefore (i := i) r'
  have stays : ((u.withSearch g i r').leg g).state = .train := before.state.trans train
  cases o with
  | quiet => exact ⟨⟨stays, b.search_moved r'⟩, fun _ => stays⟩
  | send q =>
    have stays' : (((u.withSearch g i r').modLeg g (fun l => l.sendRequest (u.withSearch g i r').role i q)).leg g).state
        = .train := by
      rw [State.modLeg_leg_same, (Leg.sendRequest_requeued _ _ _ _).state]
      exact stays
    refine ⟨⟨⟨stays', b.search_moved r'⟩, State.sends_of_carries ?_⟩, fun _ => stays'⟩
    rw [State.searchOut, State.modLeg_leg_same, ← before.role]
    exact Leg.sendRequest_carries _ _ _ _
  | finished =>
    obtain ⟨attempt, lives⟩ := ends (.inl rfl)
    obtain ⟨waits, done⟩ := closed rfl
    rw [State.searchOut, before.winLane]
    exact b.laneDone r' train window attempt lives waits done
  | failed =>
    obtain ⟨attempt, lives⟩ := ends (.inr rfl)
    rw [State.searchOut]
    cases hub : s.isHub with
    | true =>
      obtain ⟨e, fails⟩ := State.laneFails_fails before (by rw [train]; rfl) hub ⟨attempt, lives hub⟩
      rw [e]
      exact ⟨fun _ => fails, nofun⟩
    | false =>
      rw [State.laneFails_end (before.isHub.trans hub)]
      exact ⟨fun h => absurd (h.symm.trans hub) nofun, fun _ => stays⟩

/-! ### What each event of a search leads to -/

namespace State.SearchDoes

variable {s t : State} {g : LegId} {i : WinIx} {n : Nat} {r : Search}

theorem steps (h : s.SearchDoes t g i n r.formStep.1 r.formStep.2) : s.SearchSteps t g i r := by
  unfold State.SearchSteps State.SearchSends
  cases tap : r.tap <;> cases dir : r.dir <;>
    simpa [State.SearchDoes, Search.formStep, tap, dir, stepOn, Dir.forward, stepUp] using h

theorem undoes (h : s.SearchDoes t g i n r.formUndo.1 r.formUndo.2) :
    s.SearchSends t g i r .undo (match r.dir with | .inc => .dec | .dec => .inc) := by
  unfold State.SearchSends
  cases tap : r.tap <;> cases dir : r.dir <;>
    simpa [State.SearchDoes, Search.formUndo, tap, dir, stepOn, Dir.back, stepUp] using h

theorem ends (h : s.SearchDoes t g i n r.finish.1 r.finish.2) : s.SearchEnds t g i r n := h

theorem turns (h : s.SearchDoes t g i n r.turn.1 r.turn.2) : s.SearchTurns t g i r n := by
  unfold Search.turn at h
  unfold State.SearchTurns
  split
  · rename_i fresh
    rw [if_pos fresh] at h
    exact h.steps
  · rename_i spent
    rw [if_neg spent] at h
    unfold Search.finishTap at h
    cases tap : r.tap with
    | post =>
      rw [tap] at h
      rw [if_pos rfl]
      exact h.steps
    | pre =>
      rw [tap] at h
      rw [if_neg nofun]
      exact h.ends

theorem takes {u : TapStatus} (h : s.SearchDoes t g i n (r.onAck u).1 (r.onAck u).2) : s.SearchTakes t g i r u n := by
  unfold Search.onAck at h
  unfold State.SearchTakes
  dsimp only
  cases request : r.request with
  | opening =>
    rw [request] at h
    rw [if_pos rfl]
    exact h
  | step =>
    rw [request] at h
    rw [if_neg nofun]
    dsimp only at h
    by_cases stop : (u.showsPinned || r.capped) = true
    · rw [if_pos stop] at h
      rw [if_pos (by simpa [Search.capped, TapStatus.showsPinned] using stop)]
      exact h.ends
    · rw [if_neg stop] at h
      rw [if_neg (by simpa [Search.capped, TapStatus.showsPinned] using stop)]
      by_cases moved : u.field r.tap = .updated
      · rw [if_pos moved] at h
        rw [if_pos ⟨rfl, by rw [← moved]; cases r.tap <;> rfl⟩]
        exact h
      · rw [if_neg moved] at h
        rw [if_neg fun k => moved (by rw [← k.2]; cases r.tap <;> rfl)]
        exact h.turns
  | undo =>
    rw [request] at h
    rw [if_neg nofun]
    dsimp only at h
    by_cases stop : (u.showsPinned || r.capped) = true
    · rw [if_pos stop] at h
      rw [if_pos (by simpa [Search.capped, TapStatus.showsPinned] using stop)]
      exact h.ends
    · rw [if_neg stop] at h
      rw [if_neg (by simpa [Search.capped, TapStatus.showsPinned] using stop), if_neg fun k => absurd k.1 nofun]
      exact h.turns

theorem misses (h : s.SearchDoes t g i n r.onFailure.1 r.onFailure.2) : s.SearchMisses t g i r n := by
  unfold Search.onFailure at h
  unfold State.SearchMisses
  cases request : r.request with
  | opening =>
    rw [request] at h
    rw [if_pos rfl]
    exact h
  | step | undo =>
    rw [request] at h
    rw [if_neg nofun]
    dsimp only at h
    by_cases capped : 32 ≤ r.steps
    · rw [if_pos (by simpa [Search.capped] using capped)] at h
      rw [if_pos capped]
      exact h.ends
    · rw [if_neg (by simpa [Search.capped] using capped)] at h
      rw [if_neg capped]
      exact h.turns

end State.SearchDoes

/-- A record that answers it is finished is closed (R77). -/
def Search.Closes (a : Search × SearchOut) : Prop := a.2 = .finished → a.1.waiting = none ∧ a.1.done = true

theorem Search.turn_closes (r : Search) : Search.Closes r.turn := by
  unfold Search.turn Search.finishTap
  split
  · nofun
  · split
    · nofun
    · exact fun _ => ⟨rfl, rfl⟩

theorem Search.onFailure_closes (r : Search) : Search.Closes r.onFailure := by
  unfold Search.onFailure
  split
  · nofun
  all_goals
    split
    · exact fun _ => ⟨rfl, rfl⟩
    · exact r.turn_closes

theorem Search.onAck_closes (r : Search) (u : TapStatus) : Search.Closes (r.onAck u) := by
  unfold Search.onAck
  split
  · nofun
  · split
    · exact fun _ => ⟨rfl, rfl⟩
    · split
      · nofun
      · exact r.turn_closes
  · split
    · exact fun _ => ⟨rfl, rfl⟩
    · exact r.turn_closes

theorem Search.onReport_closes (r : Search) (m : Nat) : Search.Closes (r.onReport m) := by
  unfold Search.onReport
  split
  · nofun
  · nofun
  · nofun
  · split
    · split
      · exact fun _ => ⟨rfl, rfl⟩
      · nofun
    · split <;> nofun
    · nofun

end Sys2Proof.Machine
end

