-- ==== Sys2Proof/Proofs/WindowReports.lean ====
section
/-! SUPPORT. A window report (R11): what it records, what it leaves alone whatever its leg does with it, and how the tap search
of a leg in TRAIN takes it (R73). -/

open Sys2Proof Sys2Proof.Machine

namespace Sys2Proof.Machine

/-! ### Recording (R11) -/

/-- The state in which a report is recorded in its lane, before its leg takes it. -/
def State.recorded (s : State) (c : LaneId) (rep : Report) : State :=
  s.modLane c (fun l => { l with report := some rep, merit := rep.merit })

theorem State.recorded_lane (s : State) (c k : LaneId) (rep : Report) :
    (s.recorded c rep).lane k = { s.lane k with
      report := if k = c then some rep else (s.lane k).report, merit := if k = c then rep.merit else (s.lane k).merit } := by
  rw [State.recorded, State.modLane_lane]
  split
  · rename_i e
    rw [e]
  · rfl

@[simp] theorem State.recorded_leg (s : State) (c : LaneId) (rep : Report) (k : LegId) : (s.recorded c rep).leg k = s.leg k := rfl

theorem State.recorded_asBefore (s : State) (c : LaneId) (rep : Report) (g : LegId) : s.AsBefore (s.recorded c rep) g :=
  .of_legs g rfl rfl rfl rfl

theorem State.recorded_sameReceivers (s : State) (c : LaneId) (rep : Report) : s.sameReceivers (s.recorded c rep) := by
  intro k
  rw [State.recorded_lane]
  exact ⟨rfl, rfl, rfl⟩

theorem State.recorded_beforeSearch (s : State) (c : LaneId) (rep : Report) (g : LegId) :
    s.BeforeSearch (s.recorded c rep) g :=
  ⟨s.recorded_asBefore c rep g, fun k => by rw [State.recorded_lane], fun k => by rw [State.recorded_lane], rfl⟩

theorem State.takeReport_eq (s : State) (g : LegId) (c : LaneId) (rep : Report) :
    s.takeReport g c rep = if ((s.recorded c rep).handReport g c rep).2 then ((s.recorded c rep).handReport g c rep).1
      else ((s.recorded c rep).handReport g c rep).1.joinSet g c rep := rfl

theorem exec_windowReport {s : State} {c : LaneId} {g : LegId} (owner : (s.lane c).owner = some g) (h : Fin 128)
    (e : Fin 65536) (r : BitVec 7) :
    exec (.windowReport c h e r) s = .next ((s.takeReport g c ⟨h, e, r, s.time⟩).arbitrate false) :=
  congrArg Host.Outcome.next (by rw [owner])

theorem State.takeReport_acts (s : State) (g : LegId) (c : LaneId) (rep : Report) :
    (s.recorded c rep).Acts g (s.takeReport g c rep) := by
  have handed := State.acts_handReport (s.recorded c rep) g c rep
  rw [State.takeReport_eq]
  exact .ite handed (handed.trans (State.acts_joinSet _ g c rep))

/-- What a report leaves alone, whatever its leg does with it: the other legs and every lane's taps. -/
theorem State.takeReport_frame (s : State) (g : LegId) (c : LaneId) (rep : Report) :
    s.othersKept ((s.takeReport g c rep).arbitrate false) g ∧ s.tapsKept ((s.takeReport g c rep).arbitrate false) := by
  have acts := s.takeReport_acts g c rep
  refine ⟨fun k other => ?_, fun k => ?_⟩
  · rw [State.arbitrate_apart, acts.others k other]
    rfl
  · have taps := acts.taps k
    rw [State.recorded_lane] at taps
    rw [State.arbitrate_lane]
    exact taps

theorem State.takeReport_records (s : State) (g : LegId) (c k : LaneId) (rep : Report) :
    (((s.takeReport g c rep).arbitrate false).lane k).report = (if k = c then some rep else (s.lane k).report)
      ∧ (((s.takeReport g c rep).arbitrate false).lane k).merit = if k = c then rep.merit else (s.lane k).merit := by
  obtain ⟨report, merit⟩ := (s.takeReport_acts g c rep).report k
  rw [State.recorded_lane] at report merit
  rw [State.arbitrate_lane]
  exact ⟨report, merit⟩

/-- Unless the leg comes up, a report keeps the setting. -/
theorem State.takeReport_settingKept {s : State} {g : LegId} {c : LaneId} {rep : Report}
    (cable : ((s.recorded c rep).handReport g c rep).1.cable = s.cable) :
    s.settingKept ((s.takeReport g c rep).arbitrate false) := by
  refine State.settingKept_trans (t := s.takeReport g c rep) ?_ (State.arbitrate_settingKept _ _)
  refine (s.takeReport_acts g c rep).settingKept ?_
  rw [State.takeReport_eq]
  split
  · exact cable
  · rw [State.joinSet_cable]
    exact cable

/-! Each state's consumer of a report of a window lane (R11 step 2). -/

section
variable {s : State} {g : LegId} {i : WinIx} (window : s.hasIndex g i) (rep : Report)
include window

theorem State.handReport_train (state : (s.leg g).state = .train) :
    s.handReport g (s.winLane g i) rep = s.reportTrain g i rep.merit := by
  simp only [State.handReport, State.indexOf_winLane window, state]

theorem State.handReport_adapt (state : (s.leg g).state = .adapt) :
    s.handReport g (s.winLane g i) rep = s.reportAdapt g i rep.merit rep.r.toInt := by
  simp only [State.handReport, State.indexOf_winLane window, state]

theorem State.handReport_verify (state : (s.leg g).state = .verify) :
    s.handReport g (s.winLane g i) rep = s.reportVerify g i (badWindow (s.leg g) rep) := by
  simp only [State.handReport, State.indexOf_winLane window, state]

theorem State.handReport_service (state : (s.leg g).state = .up ∨ (s.leg g).state = .degraded) :
    s.handReport g (s.winLane g i) rep
      = (s.modLane (s.winLane g i) (fun l => { l with d1 := updateD1 l.d1 rep.r.toInt 8 }), false) := by
  rcases state with state | state <;> simp only [State.handReport, State.indexOf_winLane window, state]

end

/-- A handling that leaves the leg out of service, or moves it to a new state, ends with what lies onward of it. -/
theorem State.takeReport_onward {s : State} {g : LegId} {c : LaneId} {rep : Report} {u : State × Bool}
    (handed : (s.recorded c rep).handReport g c rep = u) (idle : u.2 = false → (u.1.leg g).state.inService = false) :
    u.1.Onward ((s.takeReport g c rep).arbitrate false) := by
  rw [State.takeReport_eq, handed]
  cases entered : u.2 with
  | true => exact State.onward_arbitrate _ _
  | false => exact (State.onward_joinSet (idle entered) c rep).trans (State.onward_arbitrate _ _)

/-! ### In TRAIN (R73) -/

/-- A report in TRAIN moves its lane's search as `Search.onReport` says. -/
theorem exec_windowReport_train {s : State} {g : LegId} {i : WinIx} {k : Search} {n : Nat}
    (owner : (s.lane (s.winLane g i)).owner = some g) (window : s.hasIndex g i) (train : (s.leg g).state = .train)
    (searches : (s.lane (s.winLane g i)).search = some k) (h : Fin 128) (e : Fin 65536) (r : BitVec 7)
    (ends : (k.onReport (4 * h.val - min e.val 255)).2 = .finished ∨ (k.onReport (4 * h.val - min e.val 255)).2 = .failed →
      (s.leg g).attempt = some n ∧ (s.isHub = true → 1 ≤ n ∧ (s.leg g).standbyVerify = false)) :
    ∃ t, exec (.windowReport (s.winLane g i) h e r) s = .next t
      ∧ s.SearchDoes t g i n (k.onReport (4 * h.val - min e.val 255)).1 (k.onReport (4 * h.val - min e.val 255)).2
      ∧ s.othersKept t g ∧ s.tapsKept t ∧ s.settingKept t := by
  have before := s.recorded_beforeSearch (s.winLane g i) ⟨h, e, r, s.time⟩ g
  have handed : (s.recorded (s.winLane g i) ⟨h, e, r, s.time⟩).handReport g (s.winLane g i) ⟨h, e, r, s.time⟩
      = (s.recorded (s.winLane g i) ⟨h, e, r, s.time⟩).moveSearch g i (fun k => k.onReport (4 * h.val - min e.val 255)) := by
    have taken := State.handReport_train (s := s.recorded (s.winLane g i) ⟨h, e, r, s.time⟩) (g := g) (i := i)
      (before.hasIndex i ▸ window) ⟨h, e, r, s.time⟩ train
    rwa [before.winLane] at taken
  have moved := before.moveSearch (n := n) (fun k => k.onReport (4 * h.val - min e.val 255)) train window searches ends
    (k.onReport_closes _)
  refine ⟨_, exec_windowReport owner h e r, ?_, (s.takeReport_frame g _ _).1, (s.takeReport_frame g _ _).2,
    State.takeReport_settingKept (by rw [handed, State.moveSearch_cable]; rfl)⟩
  refine moved.1.onward ?_ (State.takeReport_onward handed fun stays => by rw [moved.2 stays]; rfl)
  exact (State.acts_moveSearch _ g i _ fun k ok => k.onReport_ok ok (Report.merit_le ⟨h, e, r, s.time⟩)).role.trans before.role

end Sys2Proof.Machine

/-- Settles O9: the branches of `Search.onReport`, each with what it asks for. -/
theorem windowReportRecorded : Obligations.WindowReportRecorded := by
  unfold Obligations.WindowReportRecorded
  refine ⟨fun s c h e r g owner => ?_, fun s c h e r none => congrArg Host.Outcome.next (by rw [none]),
    fun s g i h e r k owner window train searches idle => ?_, fun s g i h e r k owner window train searches discard => ?_,
    fun s g i h e r k owner window train searches measure opening unpinned => ?_,
    fun s g i h e r k n owner window train searches measure opening pinned attempt pos fresh => ?_,
    fun s g i h e r k owner window train searches measure step gain => ?_,
    fun s g i h e r k owner window train searches measure step loss => ?_⟩
  · obtain ⟨report, merit⟩ := s.takeReport_records g c c ⟨h, e, r, s.time⟩
    rw [if_pos rfl] at report merit
    have value : (⟨h, e, r, s.time⟩ : Report).merit = 4 * h.val - min e.val 255 := rfl
    refine ⟨_, exec_windowReport owner h e r, report, ?_, merit ▸ Report.merit_le _, fun k ne => ?_, (s.takeReport_frame g c _).2⟩
    · rw [merit, value]
      omega
    · have other := s.takeReport_records g c k ⟨h, e, r, s.time⟩
      rwa [if_neg ne, if_neg ne] at other
  · have on : k.onReport (4 * h.val - min e.val 255) = (k, .quiet) := by
      unfold Search.onReport
      rcases idle with waits | waits <;> rw [waits]
    have ran := exec_windowReport_train (n := 0) owner window train searches h e r (by rw [on]; simp)
    rwa [on] at ran
  · have on : k.onReport (4 * h.val - min e.val 255) = ({ k with waiting := some .measure }, .quiet) := by
      unfold Search.onReport
      rw [discard]
    have ran := exec_windowReport_train (n := 0) owner window train searches h e r (by rw [on]; simp)
    rwa [on] at ran
  · have on : k.onReport (4 * h.val - min e.val 255)
        = Search.formStep { k with best := 4 * h.val - min e.val 255, tap := .post, dir := .inc, gained := false } := by
      simp [Search.onReport, measure, opening, unpinned]
    obtain ⟨t, run, does, frame⟩ := exec_windowReport_train (n := 0) owner window train searches h e r
      (by rw [on]; simp [Search.formStep])
    rw [on] at does
    exact ⟨t, run, does.steps, frame⟩
  · have on : k.onReport (4 * h.val - min e.val 255) = Search.finish { k with best := 4 * h.val - min e.val 255 } := by
      simp [Search.onReport, measure, opening, pinned]
    obtain ⟨t, run, does, frame⟩ := exec_windowReport_train owner window train searches h e r fun _ => ⟨attempt, fun _ => ⟨pos, fresh⟩⟩
    rw [on] at does
    exact ⟨t, run, does.ends, frame⟩
  · have on : k.onReport (4 * h.val - min e.val 255)
        = Search.formStep { k with best := 4 * h.val - min e.val 255, gained := true } := by
      simp [Search.onReport, measure, step, gain]
    obtain ⟨t, run, does, frame⟩ := exec_windowReport_train (n := 0) owner window train searches h e r
      (by rw [on]; simp [Search.formStep])
    rw [on] at does
    exact ⟨t, run, does.steps, frame⟩
  · have on : k.onReport (4 * h.val - min e.val 255) = k.formUndo := by
      simp [Search.onReport, measure, step, Nat.not_lt.mpr loss]
    obtain ⟨t, run, does, frame⟩ := exec_windowReport_train (n := 0) owner window train searches h e r
      (by rw [on]; simp [Search.formUndo])
    rw [on] at does
    exact ⟨t, run, does.undoes, frame⟩
end

