-- ==== Sys2Proof/Proofs/AdaptReports.lean ====
section
/-! SUPPORT. A window report in ADAPT (R80 to R83): the choice of peaking among the measured codes, and what each report does to
its lane's tally and receiver settings. -/

open Sys2Proof Sys2Proof.Machine

namespace Sys2Proof.Machine

/-! ### The choice of peaking (R81) -/

theorem AdaptLane.highest_eq (a : AdaptLane) : a.highest = a.measured.foldr max ⊥ := List.foldl_eq_foldr ..

theorem AdaptLane.le_highest {a : AdaptLane} {m : Nat} (h : m ∈ a.measured) : m ≤ a.highest := by
  rw [a.highest_eq]
  exact List.le_max_of_le h le_rfl

theorem AdaptLane.highest_mem {a : AdaptLane} (h : a.measured ≠ []) : a.highest ∈ a.measured := by
  rw [a.highest_eq]
  exact List.maximum_mem (List.foldr_max_of_ne_nil h).symm

/-- No candidate was heard at all (R81). -/
theorem AdaptLane.highest_zero (a : AdaptLane) : (a.highest == 0) = a.measured.all (fun x => x == 0) := by
  rw [Bool.eq_iff_iff, beq_iff_eq, List.all_eq_true]
  constructor
  · intro zero m hm
    have := AdaptLane.le_highest hm
    simp; omega
  · intro zero
    by_cases none : a.measured = []
    · rw [AdaptLane.highest, none]; rfl
    · simpa using zero _ (AdaptLane.highest_mem none)

/-- The codes that share the highest merit, in the order they were tried. -/
def AdaptLane.tied (a : AdaptLane) : List Nat :=
  ((a.candidates.zip a.measured).filter (fun x => x.2 == a.highest)).map Prod.fst

theorem AdaptLane.choice_eq (a : AdaptLane) :
    a.choice = if a.tied.contains a.entry then a.entry else a.tied.headD a.entry := rfl

theorem AdaptLane.mem_tied {a : AdaptLane} {p : Nat} : p ∈ a.tied ↔ (p, a.highest) ∈ a.candidates.zip a.measured := by
  simp [AdaptLane.tied]

theorem AdaptLane.tied_ascending {a : AdaptLane} (entry : a.entry ≤ 15) (codes : a.candidates = peakingCodes a.entry)
    (all : a.measured.length = a.candidates.length) : a.tied.Pairwise (· < ·) := by
  have tried : (a.candidates.zip a.measured).map Prod.fst = peakingCodes a.entry := by
    rw [List.map_fst_zip (le_of_eq all.symm), codes]
  refine List.Pairwise.sublist (List.filter_sublist.map Prod.fst) ?_
  rw [tried]
  exact peakingCodes_ascending entry

theorem AdaptLane.tied_ne_nil {a : AdaptLane} (entry : a.entry ≤ 15) (codes : a.candidates = peakingCodes a.entry)
    (all : a.measured.length = a.candidates.length) : a.tied ≠ [] := by
  have some : 0 < a.measured.length := by rw [all, codes]; exact peakingCodes_ne_nil entry
  obtain ⟨k, hk, e⟩ := List.mem_iff_getElem.mp (AdaptLane.highest_mem (List.ne_nil_of_length_pos some))
  have tried : a.candidates[k]'(all ▸ hk) ∈ a.tied := by
    rw [AdaptLane.mem_tied, ← e]
    exact List.mem_iff_getElem.mpr ⟨k, by simp only [List.length_zip]; omega, List.getElem_zip⟩
  exact List.ne_nil_of_mem tried

/-- With every candidate measured the choice is the one R81 names. -/
theorem AdaptLane.choice_best {a : AdaptLane} (entry : a.entry ≤ 15) (codes : a.candidates = peakingCodes a.entry)
    (all : a.measured.length = a.candidates.length) : bestCode a.candidates a.measured a.entry a.choice := by
  have below {y : Nat × Nat} (h : y ∈ a.candidates.zip a.measured) : y.2 ≤ a.highest := AdaptLane.le_highest (List.of_mem_zip h).2
  have tie {y : Nat × Nat} (h : y ∈ a.candidates.zip a.measured) (e : y.2 = a.highest) : y.1 ∈ a.tied :=
    AdaptLane.mem_tied.mpr (by rwa [← e])
  rw [AdaptLane.choice_eq]
  split
  · rename_i holds
    exact ⟨_, AdaptLane.mem_tied.mp (List.contains_iff_mem.mp holds), rfl,
      fun y h => ⟨below h, fun _ => ⟨fun _ => rfl, .inl rfl⟩⟩⟩
  · rename_i holds
    have ascending := AdaptLane.tied_ascending entry codes all
    cases e : a.tied with
    | nil => exact absurd e (AdaptLane.tied_ne_nil entry codes all)
    | cons p ps =>
      refine ⟨(p, a.highest), AdaptLane.mem_tied.mp (by rw [e]; exact List.mem_cons_self), rfl,
        fun y h => ⟨below h, fun same => ⟨fun k => ?_, .inr ?_⟩⟩⟩
      · exact absurd (List.contains_iff_mem.mpr (k ▸ tie h same)) holds
      · have later := tie h same
        rw [e] at later ascending
        rcases List.mem_cons.mp later with first | rest
        · exact first.ge
        · exact (List.rel_of_pairwise_cons ascending rest).le

/-! ### What a report does to the tally (R81, R82) -/

namespace AdaptLane

variable {a : AdaptLane} (m : Nat)

theorem onReport_complete (stage : a.stage = .complete) : a.onReport m = (a, .quiet) := by
  unfold onReport
  rw [stage]

theorem onReport_passes (stage : a.stage ≠ .complete) (waits : a.waiting ≠ .measure) :
    a.onReport m = ({ a with waiting := .measure }, .quiet) := by
  unfold onReport
  cases h : a.stage <;> cases k : a.waiting <;> first | exact absurd h stage | exact absurd k waits | rfl

theorem onReport_next (stage : a.stage = .peaking) (waits : a.waiting = .measure) {p : Nat}
    (next : a.candidates[a.measured.length + 1]? = some p) :
    a.onReport m = ({ a with measured := a.measured ++ [m], waiting := .discard }, .setPeaking p) := by
  unfold onReport
  rw [stage, waits]
  simp [next]

/-- The tally whose last candidate has been measured with merit m. -/
def lastMeasured (a : AdaptLane) (m : Nat) : AdaptLane := { a with measured := a.measured ++ [m], waiting := .discard }

theorem onReport_last (stage : a.stage = .peaking) (waits : a.waiting = .measure)
    (last : a.measured.length + 1 = a.candidates.length) :
    a.onReport m = ({ a.lastMeasured m with stage := .feedback, failed := (a.measured ++ [m]).all (fun x => x == 0) },
      .chosen (a.lastMeasured m).choice ((a.measured ++ [m]).all (fun x => x == 0))) := by
  have zero : ((a.lastMeasured m).highest == 0) = (a.measured ++ [m]).all (fun x => x == 0) := highest_zero _
  rw [← zero]
  unfold onReport
  rw [stage, waits]
  simp [last, lastMeasured, stage]

theorem onReport_feedback (stage : a.stage = .feedback) (waits : a.waiting = .measure) :
    a.onReport m = ({ a with stage := .complete }, .feedback) := by
  unfold onReport
  rw [stage, waits]

end AdaptLane

/-! ### What a report does to its leg (R81 to R83) -/

/-- Leg g's tally with lane i's part replaced. -/
def State.tallied (s : State) (g : LegId) (v : Vector AdaptLane 8) : State := s.modLeg g (fun l => { l with adapt := some v })

theorem State.tallied_asBefore (s : State) (g : LegId) (v : Vector AdaptLane 8) : s.AsBefore (s.tallied g v) g :=
  ⟨rfl, rfl, rfl, by rw [State.tallied, State.modLeg_leg_same]⟩

@[simp] theorem State.tallied_lane (s : State) (g : LegId) (v : Vector AdaptLane 8) (c : LaneId) :
    (s.tallied g v).lane c = s.lane c := rfl

theorem State.tallied_adapt (s : State) (g : LegId) (v : Vector AdaptLane 8) : ((s.tallied g v).leg g).adapt = some v := by
  rw [State.tallied, State.modLeg_leg_same]

/-! A report in ADAPT moves its lane's tally, and then does what the tally asks for. -/

section
variable {s : State} {g : LegId} {v : Vector AdaptLane 8} (tally : (s.leg g).adapt = some v) (i : WinIx) {m : Nat} {a : AdaptLane}
  (r : Int)
include tally

theorem State.reportAdapt_quiet (on : v[i].onReport m = (a, .quiet)) :
    s.reportAdapt g i m r = (s.tallied g (v.set i.val a i.isLt), false) := by
  simp only [State.reportAdapt, tally, on, State.tallied]

theorem State.reportAdapt_next {p : Nat} (on : v[i].onReport m = (a, .setPeaking p)) : s.reportAdapt g i m r
      = ((s.tallied g (v.set i.val a i.isLt)).modLane (s.winLane g i) (fun l => { l with peaking := p }), false) := by
  simp only [State.reportAdapt, tally, on, State.tallied]

theorem State.reportAdapt_last {p : Nat} {failed : Bool} (on : v[i].onReport m = (a, .chosen p failed)) : s.reportAdapt g i m r
      = if failed then ((s.tallied g (v.set i.val a i.isLt)).modLane (s.winLane g i) (fun l => { l with peaking := p })).laneFails g
        else ((s.tallied g (v.set i.val a i.isLt)).modLane (s.winLane g i) (fun l => { l with peaking := p }), false) := by
  simp only [State.reportAdapt, tally, on, State.tallied]

/-- The state in which lane i has taken its measured report of FEEDBACK. -/
def State.fedBack (s : State) (g : LegId) (i : WinIx) (v : Vector AdaptLane 8) (r : Int) : State :=
  (s.tallied g v).modLane (s.winLane g i) (fun l => { l with d1 := updateD1 l.d1 r 4 })

theorem State.reportAdapt_feedback (on : v[i].onReport m = (a, .feedback)) : s.reportAdapt g i m r
      = if s.isHub && (s.fedBack g i (v.set i.val a i.isLt) r).allAdapted g
        then ((s.fedBack g i (v.set i.val a i.isLt) r).enterVerify g, true)
        else (s.fedBack g i (v.set i.val a i.isLt) r, false) := by
  simp only [State.reportAdapt, tally, on, State.fedBack, State.tallied]
  rfl

end

theorem State.fedBack_allAdapted {s : State} {g : LegId} {i : WinIx} (v : Vector AdaptLane 8)
    (a : AdaptLane) (stage : a.stage = .complete) (r : Int) :
    (s.fedBack g i (v.set i.val a i.isLt) r).allAdapted g = true ↔ ∀ j ∈ s.winIndices g, j ≠ i → v[j].stage = .complete := by
  have before : s.AsBefore (s.fedBack g i (v.set i.val a i.isLt) r) g :=
    (s.tallied_asBefore g _).trans (.of_legs g rfl rfl rfl rfl)
  have tally : ((s.fedBack g i (v.set i.val a i.isLt) r).leg g).adapt = some (v.set i.val a i.isLt) := s.tallied_adapt g _
  unfold State.allAdapted
  rw [tally, Option.any_some, List.all_eq_true, State.winIndices_congr before.window]
  refine forall₂_congr fun j _ => ?_
  by_cases e : j = i
  · simp [e, stage]
  · have ne : i.val ≠ j.val := fun k => e (Fin.ext k.symm)
    simp [e, ne]

theorem State.reportAdapt_cable (s : State) (g : LegId) (i : WinIx) (m : Nat) (r : Int) :
    (s.reportAdapt g i m r).1.cable = s.cable := by
  unfold State.reportAdapt
  split
  · rfl
  · dsimp only
    split
    · rfl
    · rfl
    · split
      · rw [State.laneFails_cable]; rfl
      · rfl
    · split <;> rfl

/-- A report in ADAPT: the command runs to a state onward of what the report did. -/
theorem exec_windowReport_adapt {s : State} {g : LegId} {i : WinIx} (owner : (s.lane (s.winLane g i)).owner = some g)
    (window : s.hasIndex g i) (state : (s.leg g).state = .adapt) (h : Fin 128) (e : Fin 65536) (r : BitVec 7) {u : State × Bool}
    (reported : (s.recorded (s.winLane g i) ⟨h, e, r, s.time⟩).reportAdapt g i (4 * h.val - min e.val 255) r.toInt = u)
    (stays : u.2 = false → (u.1.leg g).state = .adapt) :
    ∃ t, exec (.windowReport (s.winLane g i) h e r) s = .next t ∧ u.1.Onward t ∧ s.othersKept t g ∧ s.tapsKept t
      ∧ s.settingKept t := by
  have before := s.recorded_asBefore (s.winLane g i) ⟨h, e, r, s.time⟩ g
  have handed : (s.recorded (s.winLane g i) ⟨h, e, r, s.time⟩).handReport g (s.winLane g i) ⟨h, e, r, s.time⟩ = u := by
    have taken := State.handReport_adapt (s := s.recorded (s.winLane g i) ⟨h, e, r, s.time⟩) (g := g) (i := i)
      (before.hasIndex i ▸ window) ⟨h, e, r, s.time⟩ state
    rw [before.winLane] at taken
    exact taken.trans reported
  refine ⟨_, exec_windowReport owner h e r, State.takeReport_onward handed fun k => by rw [stays k]; rfl,
    (s.takeReport_frame g _ _).1, (s.takeReport_frame g _ _).2, State.takeReport_settingKept ?_⟩
  rw [handed, ← reported, State.reportAdapt_cable]
  rfl

end Sys2Proof.Machine
end

