-- ==== Sys2Proof/Proofs/HealthTally.lean ====
section
/-! SUPPORT. Report sets and the error counter in service (R12, R93 to R100): what a report that joins its leg's set does, by
whether the set is complete and where the counter stands. -/

open Sys2Proof Sys2Proof.Machine

namespace Sys2Proof.Machine

theorem State.modLeg_modLeg (s : State) (g : LegId) (f k : Leg → Leg) : (s.modLeg g f).modLeg g k = s.modLeg g (k ∘ f) := by
  simp [State.modLeg, State.leg]

/-! ### The lowest merit (R12) -/

theorem foldl_min_merit (rs : List Report) (n : Nat) :
    (∀ r ∈ rs, rs.foldl (fun n r => min n r.merit) n ≤ r.merit)
      ∧ (rs.foldl (fun n r => min n r.merit) n = n ∨ ∃ r ∈ rs, rs.foldl (fun n r => min n r.merit) n = r.merit) := by
  induction rs generalizing n with
  | nil => exact ⟨fun r h => absurd h List.not_mem_nil, .inl rfl⟩
  | cons a rs ih =>
    obtain ⟨below, value⟩ := ih (min n a.merit)
    have start := foldl_min_merit_le rs (min n a.merit)
    rw [List.foldl_cons]
    refine ⟨fun r h => ?_, ?_⟩
    · rcases List.mem_cons.mp h with rfl | later
      · exact start.trans (Nat.min_le_right _ _)
      · exact below r later
    · rcases value with same | ⟨r, hr, e⟩
      · rcases Nat.le_total n a.merit with le | le
        · exact .inl (same.trans (Nat.min_eq_left le))
        · exact .inr ⟨a, List.mem_cons_self, same.trans (Nat.min_eq_right le)⟩
      · exact .inr ⟨r, List.mem_cons_of_mem _ hr, e⟩

theorem lowestMerit_le_of_mem {rs : List Report} {r : Report} (h : r ∈ rs) : lowestMerit rs ≤ r.merit :=
  (foldl_min_merit rs 508).1 r h

theorem lowestMerit_mem {rs : List Report} (h : rs ≠ []) : ∃ r ∈ rs, lowestMerit rs = r.merit := by
  rcases (foldl_min_merit rs 508).2 with top | found
  · obtain ⟨r, hr⟩ := List.exists_mem_of_ne_nil rs h
    refine ⟨r, hr, le_antisymm (lowestMerit_le_of_mem hr) ?_⟩
    rw [show lowestMerit rs = 508 from top]
    exact r.merit_le
  · exact found

/-! ### A report joins the set (R12) -/

/-- The state in which leg g's set has been counted with an aggregate merit and emptied. -/
def State.emptied (s : State) (g : LegId) (merit : Nat) : State :=
  s.modLeg g (fun l => { l with aggMerit := merit, reportSet := emptySet })

theorem State.emptied_leg (s : State) (g : LegId) (merit : Nat) :
    (s.emptied g merit).leg g = { s.leg g with aggMerit := merit, reportSet := emptySet } := by
  rw [State.emptied, State.modLeg_leg_same]

/-- The state in which a report has joined leg g's set. -/
def State.joined (s : State) (g : LegId) (c : LaneId) (rep : Report) : State :=
  s.modLeg g (fun l => { l with reportSet := l.reportSet.set c.val (some rep) c.isLt })

theorem State.joined_leg (s : State) (g : LegId) (c : LaneId) (rep : Report) :
    (s.joined g c rep).leg g = { s.leg g with reportSet := (s.leg g).reportSet.set c.val (some rep) c.isLt } := by
  rw [State.joined, State.modLeg_leg_same]

theorem State.joined_entry (s : State) (g : LegId) (c : LaneId) (rep : Report) (j : LaneId) :
    ((s.joined g c rep).leg g).reportSet[j] = if j = c then some rep else (s.leg g).reportSet[j] := by
  rw [State.joined_leg]
  by_cases e : j = c
  · simp [e]
  · have ne : c.val ≠ j.val := fun k => e (Fin.ext k.symm)
    simp [e, ne]

theorem State.joined_entries (s : State) (g : LegId) (c : LaneId) (rep : Report) :
    (s.joined g c rep).setEntries g = (s.winLanes g).map (fun j => if j = c then some rep else (s.leg g).reportSet[j]) := by
  unfold State.setEntries
  rw [State.winLanes_congr (s := s) (by rw [State.joined_leg])]
  exact List.map_congr_left fun j _ => s.joined_entry g c rep j

/-- A report joins its leg's set; the complete set is counted in service, and emptied. -/
theorem State.joinSet_eq (s : State) (g : LegId) (c : LaneId) (rep : Report) :
    let reports := ((s.joined g c rep).setEntries g).filterMap id
    s.joinSet g c rep =
      if (s.joined g c rep).setEntries g ≠ [] ∧ ((s.joined g c rep).setEntries g).all Option.isSome then
        if (s.leg g).state.inService then (s.emptied g (lowestMerit reports)).countHealth g (reports.any (badWindow (s.leg g)))
        else s.emptied g (lowestMerit reports)
      else s.joined g c rep := by
  intro reports
  have emptied (n : Nat) : (s.joined g c rep).modLeg g (fun l => { l with aggMerit := n, reportSet := emptySet }) = s.emptied g n :=
    s.modLeg_modLeg g _ _
  have state : ((s.emptied g (lowestMerit reports)).leg g).state = (s.leg g).state := by rw [State.emptied_leg]
  have bad : badWindow ((s.joined g c rep).leg g) = badWindow (s.leg g) := by rw [State.joined_leg]; rfl
  unfold State.joinSet
  dsimp only
  rw [show s.modLeg g (fun l => { l with reportSet := l.reportSet.set c.val (some rep) c.isLt }) = s.joined g c rep from rfl,
    emptied, state, bad]

theorem State.joinSet_cases (s : State) (g : LegId) (c : LaneId) (rep : Report) :
    s.joinSet g c rep = s.joined g c rep ∨ (∃ merit, s.joinSet g c rep = s.emptied g merit)
      ∨ ∃ merit isBad, s.joinSet g c rep = (s.emptied g merit).countHealth g isBad := by
  rw [State.joinSet_eq]
  split
  · split
    · exact .inr (.inr ⟨_, _, rfl⟩)
    · exact .inr (.inl ⟨_, rfl⟩)
  · exact .inl rfl

/-- While another window lane has no entry nothing is counted (R12). -/
theorem State.joinSet_waits {s : State} {g : LegId} {c : LaneId} {j : LaneId} (hj : j ∈ s.winLanes g) (other : j ≠ c)
    (empty : (s.leg g).reportSet[j] = none) (rep : Report) : s.joinSet g c rep = s.joined g c rep := by
  have unfilled : ¬((s.joined g c rep).setEntries g ≠ [] ∧ ((s.joined g c rep).setEntries g).all Option.isSome = true) := by
    rintro ⟨-, full⟩
    rw [State.joined_entries, List.all_eq_true] at full
    have := full _ (List.mem_map_of_mem hj)
    rw [if_neg other, empty] at this
    cases this
  rw [State.joinSet_eq, if_neg unfilled]

/-- A report that completes its leg's set in service: the lowest merit, an empty set, and the set counted (R12, R93). -/
theorem State.joinSet_counts {s : State} {g : LegId} {c : LaneId} {rep : Report} {es : LaneId → Report} (hc : c ∈ s.winLanes g)
    (own : es c = rep) (full : ∀ j ∈ s.winLanes g, j ≠ c → (s.leg g).reportSet[j] = some (es j))
    (service : (s.leg g).state = .up ∨ (s.leg g).state = .degraded) :
    s.joinSet g c rep = (s.emptied g (lowestMerit ((s.winLanes g).map es))).countHealth g
      (((s.winLanes g).map es).any (badWindow (s.leg g))) := by
  have entries : (s.joined g c rep).setEntries g = ((s.winLanes g).map es).map some := by
    rw [State.joined_entries, List.map_map]
    refine List.map_congr_left fun j hj => ?_
    split
    · rename_i e
      rw [e, Function.comp_apply, own]
    · rename_i ne
      exact full j hj ne
  have complete : (s.joined g c rep).setEntries g ≠ [] ∧ ((s.joined g c rep).setEntries g).all Option.isSome = true := by
    rw [entries]
    exact ⟨List.ne_nil_of_mem (List.mem_map_of_mem (List.mem_map_of_mem hc)), by simp⟩
  have reports : ((s.joined g c rep).setEntries g).filterMap id = (s.winLanes g).map es := by
    rw [entries, List.filterMap_map]
    exact List.filterMap_some
  have inService : (s.leg g).state.inService = true := by
    rcases service with state | state <;> rw [state] <;> rfl
  rw [State.joinSet_eq, if_pos complete, if_pos inService, reports]

/-! ### The counter below its top (R94, R96) -/

/-- The state in which leg g's counter stands at n. -/
def State.counterAt (s : State) (g : LegId) (n : Nat) : State := s.modLeg g (fun l => { l with errCount := n })

theorem State.counterAt_leg (s : State) (g : LegId) (n : Nat) : (s.counterAt g n).leg g = { s.leg g with errCount := n } := by
  rw [State.counterAt, State.modLeg_leg_same]

theorem State.countHealth_below {s : State} {g : LegId} {isBad : Bool} {n : Nat}
    (h : countSet (s.leg g).errCount isBad = some n) : s.countHealth g isBad = (s.counterAt g n).checkHealth g := by
  unfold State.countHealth
  rw [h]
  rfl

theorem State.checkHealth_sameReceivers (s : State) (g : LegId) : s.sameReceivers (s.checkHealth g) := by
  have entered (new : LegState) : s.sameReceivers (s.enter g new .health none) := by
    intro c
    rw [State.enter_lane]
    split <;> exact ⟨rfl, rfl, rfl⟩
  unfold State.checkHealth
  dsimp only
  split
  · exact entered .degraded
  · split
    · exact entered .up
    · exact fun c => ⟨rfl, rfl, rfl⟩

/-- The state the counter's value puts a leg in UP or DEGRADED in (R96). -/
def healthState (state : LegState) (n : Nat) : LegState :=
  if state = .up ∧ 128 ≤ n then .degraded else if state = .degraded ∧ n ≤ 95 then .up else state

/-- The check of the counter moves the leg's state, and leaves the counter, the aggregate merit and an empty set (R96). -/
theorem State.checkHealth_leg (s : State) (g : LegId) (empty : (s.leg g).reportSet = emptySet) :
    ((s.checkHealth g).leg g).state = healthState (s.leg g).state (s.leg g).errCount
      ∧ ((s.checkHealth g).leg g).errCount = (s.leg g).errCount ∧ ((s.checkHealth g).leg g).aggMerit = (s.leg g).aggMerit
      ∧ ((s.checkHealth g).leg g).reportSet = emptySet := by
  unfold State.checkHealth healthState
  dsimp only
  split
  · rw [State.post_leg, State.enter_leg, if_pos rfl]
    exact ⟨rfl, rfl, rfl, rfl⟩
  · split
    · rw [State.enter_leg, if_pos rfl]
      exact ⟨rfl, rfl, rfl, rfl⟩
    · exact ⟨rfl, rfl, rfl, empty⟩

theorem countSet_below {n : Nat} (below : n < 248) (isBad : Bool) :
    countSet n isBad = some (if isBad then n + 8 else n - 1) := by
  cases isBad <;> simp [countSet, below]

/-- Below the top of the counter no report moves a receiver through its leg's set. -/
theorem State.joinSet_sameReceivers {s : State} {g : LegId} (below : (s.leg g).errCount < 248) (c : LaneId) (rep : Report) :
    s.sameReceivers (s.joinSet g c rep) := by
  rcases s.joinSet_cases g c rep with e | ⟨merit, e⟩ | ⟨merit, isBad, e⟩
  · rw [e]
    exact fun k => ⟨rfl, rfl, rfl⟩
  · rw [e]
    exact fun k => ⟨rfl, rfl, rfl⟩
  · rw [e, State.countHealth_below (countSet_below (by rw [State.emptied_leg]; exact below) isBad)]
    exact State.checkHealth_sameReceivers _ g

/-! ### A report in service -/

/-- The state in which a report in service has been recorded and has moved its lane's d1 (R102). -/
def State.tracked (s : State) (c : LaneId) (rep : Report) : State :=
  (s.recorded c rep).modLane c (fun l => { l with d1 := updateD1 l.d1 rep.r.toInt 8 })

theorem State.takeReport_service {s : State} {g : LegId} {c : LaneId} (window : c ∈ s.winLanes g)
    (service : (s.leg g).state = .up ∨ (s.leg g).state = .degraded) (rep : Report) :
    s.takeReport g c rep = (s.tracked c rep).joinSet g c rep
      ∧ ((s.recorded c rep).handReport g c rep).1.cable = s.cable := by
  obtain ⟨i, hi, rfl⟩ := State.mem_winLanes.mp window
  have handed : (s.recorded (s.winLane g i) rep).handReport g (s.winLane g i) rep = (s.tracked (s.winLane g i) rep, false) :=
    State.handReport_service (s := s.recorded (s.winLane g i) rep) (g := g) (i := i) hi rep service
  rw [State.takeReport_eq, handed]
  exact ⟨if_neg nofun, rfl⟩

/-- A report in service: the command runs to the state its leg's set leads to. -/
theorem exec_windowReport_service {s : State} {g : LegId} {c : LaneId} (owner : (s.lane c).owner = some g)
    (window : c ∈ s.winLanes g) (service : (s.leg g).state = .up ∨ (s.leg g).state = .degraded) (h : Fin 128) (e : Fin 65536)
    (r : BitVec 7) :
    ∃ t, exec (.windowReport c h e r) s = .next t
      ∧ t = ((s.tracked c ⟨h, e, r, s.time⟩).joinSet g c ⟨h, e, r, s.time⟩).arbitrate false
      ∧ s.othersKept t g ∧ s.tapsKept t ∧ s.settingKept t := by
  obtain ⟨taken, cable⟩ := State.takeReport_service window service ⟨h, e, r, s.time⟩
  exact ⟨_, exec_windowReport owner h e r, by rw [taken], (s.takeReport_frame g _ _).1, (s.takeReport_frame g _ _).2,
    State.takeReport_settingKept cable⟩

/-! ### A complete set -/

theorem any_badWindow {l : Leg} {cs : List LaneId} {es : LaneId → Report} :
    (cs.map es).any (badWindow l) = true ↔ ∃ j ∈ cs, l.errThreshold < (es j).e.val ∨ (es j).h.val < l.eyeFloor := by
  simp [badWindow]

theorem emptySet_get (j : LaneId) : emptySet[j] = none := by simp [emptySet]

/-- From s to w leg g's complete set has been emptied, with the aggregate merit it gave. -/
structure State.SetCounted (s w : State) (g : LegId) (merit : Nat) : Prop where
  role : w.role = s.role
  time : w.time = s.time
  leg : w.leg g = { s.leg g with aggMerit := merit, reportSet := emptySet }

/-- A report that completes its leg's set in service: the set is counted, and the counter moves. -/
theorem exec_windowReport_completes {s : State} {g : LegId} {c : LaneId} (owner : (s.lane c).owner = some g)
    (window : c ∈ s.winLanes g) (service : (s.leg g).state = .up ∨ (s.leg g).state = .degraded) {h : Fin 128} {e : Fin 65536}
    {r : BitVec 7} {es : LaneId → Report} (own : es c = ⟨h, e, r, s.time⟩)
    (full : ∀ j ∈ s.winLanes g, j ≠ c → (s.leg g).reportSet[j] = some (es j)) :
    ∃ w t, exec (.windowReport c h e r) s = .next t ∧ s.SetCounted w g (lowestMerit ((s.winLanes g).map es))
      ∧ t = (w.countHealth g (((s.winLanes g).map es).any (badWindow (s.leg g)))).arbitrate false
      ∧ s.othersKept t g ∧ s.tapsKept t ∧ s.settingKept t := by
  obtain ⟨t, run, rest, frame⟩ := exec_windowReport_service owner window service h e r
  refine ⟨(s.tracked c ⟨h, e, r, s.time⟩).emptied g (lowestMerit ((s.winLanes g).map es)), t, run,
    ⟨rfl, rfl, State.emptied_leg (s.tracked c ⟨h, e, r, s.time⟩) g _⟩, rest.trans ?_, frame⟩
  exact congrArg (State.arbitrate · false) (State.joinSet_counts (s := s.tracked c ⟨h, e, r, s.time⟩) window own full service)

/-- The aggregate merit is the lowest merit of the entries (R12). -/
theorem lowestMerit_spec {s : State} {g : LegId} {c : LaneId} (window : c ∈ s.winLanes g) (es : LaneId → Report) :
    (∀ j ∈ s.winLanes g, lowestMerit ((s.winLanes g).map es) ≤ 4 * (es j).h.val - min (es j).e.val 255)
      ∧ ∃ j ∈ s.winLanes g, lowestMerit ((s.winLanes g).map es) = 4 * (es j).h.val - min (es j).e.val 255 := by
  refine ⟨fun j hj => lowestMerit_le_of_mem (List.mem_map_of_mem hj), ?_⟩
  obtain ⟨r, hr, e⟩ := lowestMerit_mem (List.ne_nil_of_mem (List.mem_map_of_mem (f := es) window))
  obtain ⟨j, hj, rfl⟩ := List.mem_map.mp hr
  exact ⟨j, hj, e⟩

end Sys2Proof.Machine
end

