-- ==== Sys2Proof/Proofs/ReceiverSettings.lean ====
section
/-! SUPPORT. Window reports that move receiver settings: tracking in service (R102) and adaptation (R80 to R83). -/

open Sys2Proof Sys2Proof.Machine

namespace Sys2Proof.Machine

/-- Tracking moves d1 of the reported lane alone (R102). -/
theorem State.tracked_receivers (s : State) (c k : LaneId) (rep : Report) :
    ((s.tracked c rep).lane k).peaking = (s.lane k).peaking
      ∧ ((s.tracked c rep).lane k).d1 = if k = c then updateD1 (s.lane c).d1 rep.r.toInt 8 else (s.lane k).d1 := by
  rw [State.tracked, State.modLane_lane]
  split
  · rename_i e
    rw [State.recorded_lane, e]
    exact ⟨rfl, rfl⟩
  · rw [State.recorded_lane]
    exact ⟨rfl, rfl⟩

/-- The measured report of FEEDBACK moves d1 of its lane alone (R82). -/
theorem State.fedBack_receivers (s : State) (g : LegId) (i : WinIx) (v : Vector AdaptLane 8) (r : Int) (c : LaneId) :
    ((s.fedBack g i v r).lane c).peaking = (s.lane c).peaking
      ∧ ((s.fedBack g i v r).lane c).d1 = if c = s.winLane g i then updateD1 (s.lane c).d1 r 4 else (s.lane c).d1 := by
  rw [State.fedBack, State.modLane_lane]
  split
  · rename_i own
    rw [own]
    exact ⟨rfl, rfl⟩
  · exact ⟨rfl, rfl⟩

theorem State.mem_winLanes_of_indexOf {s : State} {g : LegId} {w : Window} {c : LaneId} (window : (s.leg g).window = some w)
    (h : w.indexOf c ≠ none) : c ∈ s.winLanes g := by
  rw [State.winLanes_of_window window]
  by_contra out
  exact h (Window.indexOf_eq_none.mpr out)

section
variable {s : State} {g : LegId} {i : WinIx} (owner : (s.lane (s.winLane g i)).owner = some g) (window : s.hasIndex g i)
  (state : (s.leg g).state = .adapt) (h : Fin 128) (e : Fin 65536) (r : BitVec 7)
include owner window state

/-- A report whose tally asks for nothing moves the tally alone. -/
theorem exec_windowReport_adapt_quiet {v : Vector AdaptLane 8} (tally : (s.leg g).adapt = some v) {a : AdaptLane}
    (on : v[i].onReport (4 * h.val - min e.val 255) = (a, .quiet)) :
    ∃ t, exec (.windowReport (s.winLane g i) h e r) s = .next t ∧ (t.leg g).state = .adapt
      ∧ (t.leg g).adapt = some (v.set i.val a i.isLt)
      ∧ (∀ c, (t.lane c).peaking = (s.lane c).peaking ∧ (t.lane c).d1 = (s.lane c).d1)
      ∧ s.othersKept t g ∧ s.tapsKept t ∧ s.settingKept t := by
  have before := (s.recorded_asBefore (s.winLane g i) ⟨h, e, r, s.time⟩ g).trans
    (State.tallied_asBefore _ g (v.set i.val a i.isLt))
  obtain ⟨t, run, onward, frame⟩ := exec_windowReport_adapt owner window state h e r
    (State.reportAdapt_quiet (s := s.recorded (s.winLane g i) ⟨h, e, r, s.time⟩) tally i r.toInt on)
    fun _ => before.state.trans state
  refine ⟨t, run, (onward.state g).trans (before.state.trans state),
    (onward.field Leg.adapt (fun _ => rfl) g).trans (State.tallied_adapt _ g _), fun c => ?_, frame⟩
  rw [onward.lane, State.tallied_lane, State.recorded_lane]
  exact ⟨rfl, rfl⟩

/-- A report that moves the tally and a receiver setting of its own lane, and leaves the leg in ADAPT. -/
theorem exec_windowReport_adapt_sets {v : Vector AdaptLane 8} {f : Lane → Lane} {p : Nat} {d : Int}
    (reported : (s.recorded (s.winLane g i) ⟨h, e, r, s.time⟩).reportAdapt g i (4 * h.val - min e.val 255) r.toInt
      = (((s.recorded (s.winLane g i) ⟨h, e, r, s.time⟩).tallied g v).modLane (s.winLane g i) f, false))
    (sets : ∀ l : Lane, l.peaking = (s.lane (s.winLane g i)).peaking → l.d1 = (s.lane (s.winLane g i)).d1 →
      (f l).peaking = p ∧ (f l).d1 = d) :
    ∃ t, exec (.windowReport (s.winLane g i) h e r) s = .next t ∧ (t.leg g).state = .adapt ∧ (t.leg g).adapt = some v
      ∧ ((t.lane (s.winLane g i)).peaking = p ∧ (t.lane (s.winLane g i)).d1 = d)
      ∧ (∀ c, c ≠ s.winLane g i → (t.lane c).peaking = (s.lane c).peaking ∧ (t.lane c).d1 = (s.lane c).d1)
      ∧ s.othersKept t g ∧ s.tapsKept t ∧ s.settingKept t := by
  have before := (s.recorded_asBefore (s.winLane g i) ⟨h, e, r, s.time⟩ g).trans (State.tallied_asBefore _ g v)
  obtain ⟨t, run, onward, frame⟩ := exec_windowReport_adapt owner window state h e r reported
    fun _ => before.state.trans state
  refine ⟨t, run, (onward.state g).trans (before.state.trans state),
    (onward.field Leg.adapt (fun _ => rfl) g).trans (State.tallied_adapt _ g _), ?_, fun c other => ?_, frame⟩
  · rw [onward.lane, State.modLane_lane_same, State.tallied_lane]
    obtain ⟨-, peaking, d1⟩ := s.recorded_sameReceivers (s.winLane g i) ⟨h, e, r, s.time⟩ (s.winLane g i)
    exact sets _ peaking d1
  · rw [onward.lane, State.modLane_lane_other _ _ other, State.tallied_lane, State.recorded_lane]
    exact ⟨rfl, rfl⟩

/-- The last candidate of a lane that heard nothing at all fails a HUB's attempt (R36, R81). -/
theorem exec_windowReport_adapt_fails {v : Vector AdaptLane 8} (tally : (s.leg g).adapt = some v) {a : AdaptLane} {p n : Nat}
    (on : v[i].onReport (4 * h.val - min e.val 255) = (a, .chosen p true)) (hub : s.isHub = true)
    (attempt : (s.leg g).attempt = some n ∧ 1 ≤ n ∧ (s.leg g).standbyVerify = false) :
    ∃ t, exec (.windowReport (s.winLane g i) h e r) s = .next t ∧ s.AttemptFailed t g n
      ∧ s.othersKept t g ∧ s.tapsKept t ∧ s.settingKept t := by
  have before : s.AsBefore (((s.recorded (s.winLane g i) ⟨h, e, r, s.time⟩).tallied g (v.set i.val a i.isLt)).modLane
      (s.winLane g i) (fun l => { l with peaking := p })) g :=
    ((s.recorded_asBefore _ _ g).trans (State.tallied_asBefore _ g _)).trans (.of_legs g rfl rfl rfl rfl)
  obtain ⟨failed, fails⟩ := State.laneFails_fails before (by rw [state]; rfl) hub attempt
  have reported := State.reportAdapt_last (s := s.recorded (s.winLane g i) ⟨h, e, r, s.time⟩) tally i r.toInt on
  rw [if_pos rfl] at reported
  obtain ⟨t, run, onward, frame⟩ := exec_windowReport_adapt owner window state h e r (reported.trans failed) nofun
  exact ⟨t, run, onward.attemptFailed fails, frame⟩

/-- The last lane of a HUB leg to complete begins VERIFY (R34, R83). -/
theorem exec_windowReport_adapt_completes {v : Vector AdaptLane 8} (tally : (s.leg g).adapt = some v) {n : Nat}
    (stage : v[i].stage = .feedback) (waits : v[i].waiting = .measure) (hub : s.isHub = true)
    (others : ∀ j ∈ s.winIndices g, j ≠ i → v[j].stage = .complete) (attempt : (s.leg g).attempt = some n) :
    ∃ t, exec (.windowReport (s.winLane g i) h e r) s = .next t ∧ s.BeginsVerify t g n
      ∧ (t.lane (s.winLane g i)).d1 = updateD1 (s.lane (s.winLane g i)).d1 r.toInt 4
      ∧ (t.lane (s.winLane g i)).peaking = (s.lane (s.winLane g i)).peaking
      ∧ (∀ c, c ≠ s.winLane g i → (t.lane c).peaking = (s.lane c).peaking ∧ (t.lane c).d1 = (s.lane c).d1)
      ∧ s.othersKept t g ∧ s.tapsKept t ∧ s.settingKept t := by
  have reported := State.reportAdapt_feedback (s := s.recorded (s.winLane g i) ⟨h, e, r, s.time⟩) tally i r.toInt
    (v[i].onReport_feedback (4 * h.val - min e.val 255) stage waits)
  have all := (State.fedBack_allAdapted (s := s.recorded (s.winLane g i) ⟨h, e, r, s.time⟩) (i := i) v
    { v[i] with stage := .complete } rfl r.toInt).mpr others
  rw [all, Bool.and_true, if_pos (show (s.recorded _ _).isHub = true from hub)] at reported
  generalize hw : (s.recorded (s.winLane g i) ⟨h, e, r, s.time⟩).fedBack g i (v.set i.val { v[i] with stage := .complete } i.isLt)
    r.toInt = w at reported
  have before : s.AsBefore w g := hw ▸
    ((s.recorded_asBefore _ _ g).trans (State.tallied_asBefore _ g _)).trans (.of_legs g rfl rfl rfl rfl)
  have lane (c : LaneId) : (w.lane c).peaking = (s.lane c).peaking
      ∧ (w.lane c).d1 = if c = s.winLane g i then updateD1 (s.lane c).d1 r.toInt 4 else (s.lane c).d1 := by
    have fed := State.fedBack_receivers (s.recorded (s.winLane g i) ⟨h, e, r, s.time⟩) g i
      (v.set i.val { v[i] with stage := .complete } i.isLt) r.toInt c
    rwa [hw, State.recorded_lane] at fed
  obtain ⟨t, run, onward, frame⟩ := exec_windowReport_adapt owner window state h e r reported nofun
  have after (c : LaneId) : (t.lane c).peaking = (s.lane c).peaking
      ∧ (t.lane c).d1 = if c = s.winLane g i then updateD1 (s.lane c).d1 r.toInt 4 else (s.lane c).d1 := by
    rw [onward.lane, State.enterVerify_lane, ← (lane c).1, ← (lane c).2]
    split <;> exact ⟨rfl, rfl⟩
  refine ⟨t, run, onward.beginsVerify (before.beginsVerify (State.enterVerify_begins (before.attempt.trans attempt))),
    (after _).2.trans (if_pos rfl), (after _).1, fun c other => ⟨(after c).1, (after c).2.trans (if_neg other)⟩, frame⟩

end

end Sys2Proof.Machine

/-- Settles O10: tracking through a report set that moves no receiver, and the outcomes of `AdaptLane.onReport`. -/
theorem trackingMovesFeedbackTap : Obligations.TrackingMovesFeedbackTap := by
  unfold Obligations.TrackingMovesFeedbackTap
  refine ⟨fun s c h e r g w owner window index service below => ?_,
    fun s g i h e r v owner window state tally passes => ?_,
    fun s g i h e r v p owner window state tally stage waits next => ?_,
    fun s g i h e r v owner window state tally stage waits ok last heard => ?_,
    fun s g i h e r v n owner window state tally stage waits ok last hub silent attempt pos fresh => ?_,
    fun s g i h e r v owner window state tally stage waits more => ?_,
    fun s g i h e r v n owner window state tally stage waits hub others attempt =>
      exec_windowReport_adapt_completes owner window state h e r tally stage waits hub others attempt⟩
  · obtain ⟨t, run, rfl, -, taps, setting⟩ := exec_windowReport_service owner
      (State.mem_winLanes_of_indexOf window index) service h e r
    have same := State.joinSet_sameReceivers (s := s.tracked c ⟨h, e, r, s.time⟩) (g := g) below c ⟨h, e, r, s.time⟩
    have receivers (k : LaneId) := s.tracked_receivers c k ⟨h, e, r, s.time⟩
    refine ⟨_, run, ?_, ?_, fun k other => ?_, taps, setting⟩
    · rw [State.arbitrate_lane, (same c).2.2, (receivers c).2, if_pos rfl]
      rfl
    · rw [State.arbitrate_lane, (same c).2.1, (receivers c).1]
    · rw [State.arbitrate_lane, (same k).2.1, (same k).2.2, (receivers k).1, (receivers k).2, if_neg other]
      exact ⟨rfl, rfl⟩
  · by_cases complete : v[i].stage = .complete
    · have result := exec_windowReport_adapt_quiet owner window state h e r tally (v[i].onReport_complete _ complete)
      rw [if_pos complete]
      simpa using result
    · rw [if_neg complete]
      exact exec_windowReport_adapt_quiet owner window state h e r tally
        (v[i].onReport_passes _ complete (passes.resolve_left complete))
  · obtain ⟨t, run, adapt, moved, ⟨peaking, d1⟩, rest⟩ := exec_windowReport_adapt_sets owner window state h e r
      (State.reportAdapt_next (s := s.recorded (s.winLane g i) ⟨h, e, r, s.time⟩) tally i r.toInt (v[i].onReport_next _ stage waits next))
      fun l _ d1 => ⟨rfl, d1⟩
    exact ⟨t, run, adapt, moved, peaking, d1, rest⟩
  · obtain ⟨entry, codes, -⟩ := ok
    have best := AdaptLane.choice_best (a := v[i].lastMeasured (4 * h.val - min e.val 255)) entry codes
      (List.length_append.trans last)
    have reported := State.reportAdapt_last (s := s.recorded (s.winLane g i) ⟨h, e, r, s.time⟩) tally i r.toInt
      (v[i].onReport_last (4 * h.val - min e.val 255) stage waits last)
    have stays : ∀ u : State, u.isHub = s.isHub → (if (v[i].measured ++ [4 * h.val - min e.val 255]).all (fun x => x == 0)
        then u.laneFails g else (u, false)) = (u, false) := by
      intro u role
      rcases heard with atEnd | loud
      · rw [State.laneFails_end (role.trans atEnd), ite_self]
      · obtain ⟨x, hx, ne⟩ := List.any_eq_true.mp loud
        refine if_neg fun silent => ?_
        simp only [bne_iff_ne] at ne
        exact ne (beq_iff_eq.mp (List.all_eq_true.mp silent x hx))
    replace reported := reported.trans (stays _ rfl)
    obtain ⟨t, run, adapt, moved, ⟨peaking, d1⟩, rest⟩ := exec_windowReport_adapt_sets owner window state h e r reported
      fun l _ d1 => ⟨rfl, d1⟩
    exact ⟨t, run, adapt, moved, peaking ▸ best, d1, rest⟩
  · have on := v[i].onReport_last (4 * h.val - min e.val 255) stage waits last
    rw [silent] at on
    exact exec_windowReport_adapt_fails owner window state h e r tally on hub ⟨attempt, pos, fresh⟩
  · have reported := State.reportAdapt_feedback (s := s.recorded (s.winLane g i) ⟨h, e, r, s.time⟩) tally i r.toInt
      (v[i].onReport_feedback (4 * h.val - min e.val 255) stage waits)
    have stays : ¬((s.recorded (s.winLane g i) ⟨h, e, r, s.time⟩).isHub && ((s.recorded (s.winLane g i) ⟨h, e, r, s.time⟩).fedBack g i
        (v.set i.val { v[i] with stage := .complete } i.isLt) r.toInt).allAdapted g) = true := by
      rw [Bool.and_eq_true, State.fedBack_allAdapted _ _ rfl]
      rintro ⟨hub, all⟩
      rcases more with atEnd | ⟨j, hj, other, unfinished⟩
      · exact absurd (hub.symm.trans atEnd) nofun
      · exact unfinished (all j hj other)
    rw [if_neg stays] at reported
    obtain ⟨t, run, adapt, moved, ⟨peaking, d1⟩, rest⟩ := exec_windowReport_adapt_sets owner window state h e r reported
      fun l peaking d1 => ⟨peaking, congrArg (updateD1 · r.toInt 4) d1⟩
    exact ⟨t, run, adapt, moved, d1, peaking, rest⟩
end

