-- ==== Sys2Proof/Proofs/CounterTop.lean ====
section
/-! SUPPORT. The top of the error counter (R94, R98 to R100). -/

open Sys2Proof Sys2Proof.Machine

namespace Sys2Proof.Machine

theorem State.countHealth_top {s : State} {g : LegId} (top : 248 ≤ (s.leg g).errCount) : s.countHealth g true = s.counterTop g := by
  unfold State.countHealth countSet
  rw [if_pos rfl, if_neg (Nat.not_lt.mpr top)]

theorem State.counterTop_retrain {s : State} {g : LegId} (hub : s.isHub) :
    s.counterTop g = (s.counterAt g 0).retrain g := if_pos hub

/-- The state from which a retrain enters TRAIN. -/
def State.retrained (s : State) (g : LegId) : State := s.modLeg g (fun l => { l with retrains := l.retrains + 1 })

theorem State.retrained_leg (s : State) (g : LegId) :
    (s.retrained g).leg g = { s.leg g with retrains := (s.leg g).retrains + 1 } := by
  rw [State.retrained, State.modLeg_leg_same]

theorem State.retrain_again {s : State} {g : LegId} (more : (s.leg g).retrains < 3) :
    s.retrain g = (s.retrained g).enterTrain g .retrain 1 := if_pos more

theorem State.retrain_last {s : State} {g : LegId} (last : 3 ≤ (s.leg g).retrains) : s.retrain g = s.enterFault g .errorLimit :=
  if_neg (Nat.not_lt.mpr last)

theorem State.counterTop_end {s : State} {g : LegId} (atEnd : s.isHub = false) :
    s.counterTop g = (s.counterAt g 0).modLeg g Leg.queueRetrain := if_neg (by
  show ¬s.isHub = true
  rw [atEnd]
  exact nofun)

theorem Leg.queueRetrain_waits (l : Leg) : Item.retrainRequest ∈ l.queueRetrain.queue ∨ l.queueRetrain.healthHold = true := by
  unfold Leg.queueRetrain
  split
  · rename_i h
    rcases Bool.or_eq_true_iff.mp h with queued | held
    · exact .inl (List.contains_iff_mem.mp queued)
    · exact .inr held
  · split
    · rename_i room
      rw [Leg.push_room room]
      exact .inl (List.mem_append_right _ (List.mem_singleton_self _))
    · exact .inr rfl

/-- At a HUB below three retrains the top of the counter begins a retrain (R37, R98). -/
theorem State.counterTop_again {w : State} {g : LegId} (hub : w.isHub = true) (more : (w.leg g).retrains < 3) :
    ((w.counterTop g).leg g).apart = ({ (w.leg g).entered w.role .train (some 1) w.time with
      errCount := 0, retrains := (w.leg g).retrains + 1, resume := false, deadline := some (w.time + 250000) } : Leg).apart := by
  rw [State.counterTop_retrain hub, State.retrain_again (by rw [State.counterAt_leg]; exact more), State.enterTrain_apart,
    State.retrained_leg, State.counterAt_leg]
  rfl

/-- At a HUB with three retrains the top of the counter is a fault (R37, R40). -/
theorem State.counterTop_last {w : State} {g : LegId} (hub : w.isHub = true) (last : 3 ≤ (w.leg g).retrains)
    (service : (w.leg g).state = .up ∨ (w.leg g).state = .degraded) :
    ((w.counterTop g).leg g).apart = ({ (w.leg g).entered w.role .fault none w.time with
      errCount := 0, lastFault := .errorLimit, faultCount := min 255 ((w.leg g).faultCount + 1) } : Leg).flushed.apart := by
  have awake : ((w.counterAt g 0).leg g).state ≠ .off ∧ ((w.counterAt g 0).leg g).state ≠ .fault := by
    rw [State.counterAt_leg]
    rcases service with state | state <;> rw [state] <;> exact ⟨nofun, nofun⟩
  rw [State.counterTop_retrain hub, State.retrain_last (by rw [State.counterAt_leg]; exact last),
    State.enterFault_leg awake.1 awake.2, State.counterAt_leg]
  rfl

/-- At an END the top of the counter asks for a retrain (R99, R100). -/
theorem State.counterTop_asks {w : State} {g : LegId} (atEnd : w.isHub = false) :
    ((w.counterTop g).leg g).apart = ({ w.leg g with errCount := 0 } : Leg).apart
      ∧ (Item.retrainRequest ∈ ((w.counterTop g).leg g).queue ∨ ((w.counterTop g).leg g).healthHold = true) := by
  rw [State.counterTop_end atEnd, State.modLeg_leg_same, ← State.counterAt_leg]
  exact ⟨(Leg.queueRetrain_requeued _).apart, Leg.queueRetrain_waits _⟩

end Sys2Proof.Machine

/-- Settles O12: a bad set at the top of the counter, by role and retrain count. -/
theorem counterTopRetrains : Obligations.CounterTopRetrains := by
  unfold Obligations.CounterTopRetrains
  intro s c h e r g es owner window service own full bad top
  obtain ⟨w, t, run, ⟨role, time, leg⟩, rfl, others, -, -⟩ := exec_windowReport_completes owner window service own full
  rw [any_badWindow.mpr bad, State.countHealth_top (by rw [leg]; exact top)] at run others
  have hub : w.isHub = s.isHub := congrArg (· == Role.hubRole) role
  have emptied {set : Vector (Option Report) 8} (h : set = emptySet) (j : LaneId) : set[j] = none := by rw [h, emptySet_get]
  refine ⟨_, run, ?_⟩
  cases isHub : s.isHub with
  | false =>
    have asks := State.counterTop_asks (g := g) (hub.trans isHub)
    rw [State.arbitrate_end _ _ ((State.acts_counterTop w g).isHub.trans (hub.trans isHub))] at others ⊢
    rw [leg] at asks
    have field {α : Type} (f : Leg → α) (h : ∀ l : Leg, f l.apart = f l) := Leg.field_of_apart asks.1 f h
    exact ⟨field Leg.errCount fun _ => rfl, nofun, nofun, fun _ => ⟨field Leg.state fun _ => rfl, asks.2⟩, others,
      emptied (field Leg.reportSet fun _ => rfl)⟩
  | true =>
    by_cases more : (s.leg g).retrains < 3
    · have again := (State.arbitrate_apart _ false g).trans (State.counterTop_again (hub.trans isHub) (by rw [leg]; exact more))
      rw [leg, time] at again
      have field {α : Type} (f : Leg → α) (h : ∀ l : Leg, f l.apart = f l) := Leg.field_of_apart again f h
      exact ⟨field Leg.errCount fun _ => rfl, fun _ _ => ⟨field Leg.state fun _ => rfl, field Leg.attempt fun _ => rfl,
        field Leg.retrains fun _ => rfl, field Leg.deadline fun _ => rfl⟩, fun _ last => absurd more (Nat.not_lt.mpr last),
        nofun, others, emptied (field Leg.reportSet fun _ => rfl)⟩
    · have last := (State.arbitrate_apart _ false g).trans
        (State.counterTop_last (hub.trans isHub) (by rw [leg]; exact Nat.not_lt.mp more) (by rw [leg]; exact service))
      rw [leg] at last
      have field {α : Type} (f : Leg → α) (h : ∀ l : Leg, f l.apart = f l) := Leg.field_of_apart last f h
      exact ⟨field Leg.errCount fun _ => rfl, fun _ again => absurd again more,
        fun _ _ => ⟨field Leg.state fun _ => rfl, field Leg.lastFault fun _ => rfl, field Leg.retrains fun _ => rfl⟩, nofun,
        others, emptied (field Leg.reportSet fun _ => rfl)⟩
end

