-- ==== Sys2Proof/Proofs/VerifyReports.lean ====
section
/-! SUPPORT. A window report in VERIFY (R84, R85), and what the VERIFY result leads to (R35, R36). -/

open Sys2Proof Sys2Proof.Machine

namespace Sys2Proof.Machine

/-! ### One lane's tally (R84) -/

namespace VerifyLane

variable {v : VerifyLane} (isBad : Bool)

theorem onReport_first (first : v.passedOver = false) : v.onReport isBad = { v with passedOver := true } := if_pos first

theorem onReport_full (later : v.passedOver = true) (full : 16 ≤ v.counted) : v.onReport isBad = v := by
  unfold onReport
  rw [if_neg (by simp [later]), if_neg (Nat.not_lt.mpr full)]

theorem onReport_counts (later : v.passedOver = true) (more : v.counted < 16) :
    v.onReport isBad = { v with counted := v.counted + 1, bad := v.bad + isBad.toNat } := by
  unfold onReport
  rw [if_neg (by simp [later]), if_pos more]

end VerifyLane

theorem badWindow_toNat (l : Leg) (h : Fin 128) (e : Fin 65536) (r : BitVec 7) (now : Time) :
    (badWindow l ⟨h, e, r, now⟩).toNat = if l.errThreshold < e.val ∨ h.val < l.eyeFloor then 1 else 0 := by
  unfold badWindow
  by_cases errs : l.errThreshold < e.val <;> by_cases eye : h.val < l.eyeFloor <;> simp [errs, eye]

/-! ### The leg's tally (R84, R85) -/

/-- The state in which leg g's VERIFY tally stands at v. -/
def State.judged (s : State) (g : LegId) (v : Vector VerifyLane 8) : State := s.modLeg g (fun l => { l with verify := some v })

theorem State.judged_leg (s : State) (g : LegId) (v : Vector VerifyLane 8) :
    (s.judged g v).leg g = { s.leg g with verify := some v } := by
  rw [State.judged, State.modLeg_leg_same]

theorem State.judged_asBefore (s : State) (g : LegId) (v : Vector VerifyLane 8) : s.AsBefore (s.judged g v) g :=
  ⟨rfl, rfl, rfl, by rw [State.judged_leg]⟩

theorem State.judged_allCounted {s : State} {g : LegId} {v : Vector VerifyLane 8} :
    (s.judged g v).allCounted g = true ↔ ∀ j ∈ s.winIndices g, v[j].counted = 16 := by
  unfold State.allCounted
  rw [State.judged_leg, Option.any_some, List.all_eq_true, State.winIndices_congr (s := s) (by rw [State.judged_leg])]
  simp only [beq_iff_eq]

theorem State.judged_verifyPasses {s : State} {g : LegId} {v : Vector VerifyLane 8} :
    (s.judged g v).verifyPasses g = true ↔ ∀ j ∈ s.winIndices g, v[j].bad ≤ 1 := by
  unfold State.verifyPasses
  rw [State.judged_leg, Option.any_some, List.all_eq_true, State.winIndices_congr (s := s) (by rw [State.judged_leg])]
  simp only [decide_eq_true_eq]

theorem State.judged_worstBad {s : State} {g : LegId} {v : Vector VerifyLane 8} :
    (s.judged g v).worstBad g = ((s.winIndices g).map (fun j => v[j].bad)).foldl max 0 := by
  unfold State.worstBad
  rw [State.judged_leg, State.winIndices_congr (s := s) (by rw [State.judged_leg]), List.foldl_map]

/-- The state in which a HUB keeps its own VERIFY result. -/
def State.resolved (s : State) (g : LegId) (ok : Bool) : State := s.modLeg g (fun l => { l with localVerify := some ok })

theorem State.resolved_leg (s : State) (g : LegId) (ok : Bool) :
    (s.resolved g ok).leg g = { s.leg g with localVerify := some ok } := by
  rw [State.resolved, State.modLeg_leg_same]

section
variable {s : State} {g : LegId} {i : WinIx} {v u : Vector VerifyLane 8} {isBad : Bool} (tally : (s.leg g).verify = some v)
  (moved : u = v.set i.val (v[i].onReport isBad) i.isLt)
include tally moved

/-- A report that does not end the tally. -/
theorem State.reportVerify_counts (more : ¬((v[i].onReport isBad).counted = 16 ∧ v[i].counted ≠ 16
    ∧ ∀ j ∈ s.winIndices g, u[j].counted = 16)) : s.reportVerify g i isBad = (s.judged g u, false) := by
  rw [← State.judged_allCounted, moved] at more
  unfold State.reportVerify
  rw [tally, moved]
  exact if_neg more

/-- The sixteenth report of the last lane. -/
theorem State.reportVerify_last (last : (v[i].onReport isBad).counted = 16 ∧ v[i].counted ≠ 16
    ∧ ∀ j ∈ s.winIndices g, u[j].counted = 16) : s.reportVerify g i isBad =
      if s.isHub then ((s.judged g u).resolved g ((s.judged g u).verifyPasses g)).decideVerify g
      else ((s.judged g u).modLeg g (fun l => l.queueReport
        (.verifyResult (l.attempt.getD 0) ((s.judged g u).verifyPasses g && !l.adaptFailed) ((s.judged g u).worstBad g))), false) := by
  rw [← State.judged_allCounted, moved] at last
  unfold State.reportVerify
  rw [tally, moved]
  exact if_pos last

end

/-- A report in VERIFY: the command runs to a state onward of what the report did. -/
theorem exec_windowReport_verify {s : State} {g : LegId} {i : WinIx} (owner : (s.lane (s.winLane g i)).owner = some g)
    (window : s.hasIndex g i) (state : (s.leg g).state = .verify) (h : Fin 128) (e : Fin 65536) (r : BitVec 7) {u : State × Bool}
    (reported : (s.recorded (s.winLane g i) ⟨h, e, r, s.time⟩).reportVerify g i (badWindow (s.leg g) ⟨h, e, r, s.time⟩) = u)
    (stays : u.2 = false → (u.1.leg g).state = .verify) :
    ∃ t, exec (.windowReport (s.winLane g i) h e r) s = .next t ∧ u.1.Onward t ∧ s.othersKept t g ∧ s.tapsKept t
      ∧ (u.1.cable = s.cable → s.settingKept t) := by
  have before := s.recorded_asBefore (s.winLane g i) ⟨h, e, r, s.time⟩ g
  have handed : (s.recorded (s.winLane g i) ⟨h, e, r, s.time⟩).handReport g (s.winLane g i) ⟨h, e, r, s.time⟩ = u := by
    have taken := State.handReport_verify (s := s.recorded (s.winLane g i) ⟨h, e, r, s.time⟩) (g := g) (i := i)
      (before.hasIndex i ▸ window) ⟨h, e, r, s.time⟩ state
    rw [before.winLane] at taken
    exact taken.trans reported
  exact ⟨_, exec_windowReport owner h e r, State.takeReport_onward handed fun k => by rw [stays k]; rfl,
    (s.takeReport_frame g _ _).1, (s.takeReport_frame g _ _).2,
    fun cable => State.takeReport_settingKept (by rw [handed, cable])⟩

section
variable {s : State} {g : LegId} {i : WinIx} (owner : (s.lane (s.winLane g i)).owner = some g) (window : s.hasIndex g i)
  (state : (s.leg g).state = .verify) {h : Fin 128} {e : Fin 65536} (r : BitVec 7) {v u : Vector VerifyLane 8}
  (tally : (s.leg g).verify = some v)
include owner window state tally

/-- A report that does not end the tally moves the tally alone. -/
theorem exec_windowReport_verify_counts
    (moved : u = v.set i.val (v[i].onReport (badWindow (s.leg g) ⟨h, e, r, s.time⟩)) i.isLt)
    (more : ¬((v[i].onReport (badWindow (s.leg g) ⟨h, e, r, s.time⟩)).counted = 16 ∧ v[i].counted ≠ 16
      ∧ ∀ j ∈ s.winIndices g, u[j].counted = 16)) :
    ∃ t, exec (.windowReport (s.winLane g i) h e r) s = .next t ∧ (t.leg g).state = .verify ∧ (t.leg g).verify = some u
      ∧ (t.leg g).localVerify = (s.leg g).localVerify ∧ (t.leg g).farVerify = (s.leg g).farVerify
      ∧ s.othersKept t g ∧ s.tapsKept t ∧ s.settingKept t := by
  have leg := State.judged_leg (s.recorded (s.winLane g i) ⟨h, e, r, s.time⟩) g u
  rw [State.recorded_leg] at leg
  obtain ⟨t, run, onward, others, taps, setting⟩ := exec_windowReport_verify owner window state h e r
    (State.reportVerify_counts (s := s.recorded (s.winLane g i) ⟨h, e, r, s.time⟩) tally moved more) fun _ => by rw [leg, state]
  refine ⟨t, run, (onward.state g).trans (by rw [leg, state]), (onward.field Leg.verify (fun _ => rfl) g).trans (by rw [leg]),
    (onward.field Leg.localVerify (fun _ => rfl) g).trans (by rw [leg]),
    (onward.field Leg.farVerify (fun _ => rfl) g).trans (by rw [leg]), others, taps, setting rfl⟩

/-- The report that ends the tally: a HUB keeps the result, and decides once the far result is there; an END reports (R35, R85). -/
theorem exec_windowReport_verify_last {ok : Bool} {rate : Rate} {n : Nat}
    (moved : u = v.set i.val (v[i].onReport (badWindow (s.leg g) ⟨h, e, r, s.time⟩)) i.isLt)
    (last : (v[i].onReport (badWindow (s.leg g) ⟨h, e, r, s.time⟩)).counted = 16 ∧ v[i].counted ≠ 16
      ∧ ∀ j ∈ s.winIndices g, u[j].counted = 16)
    (passes : ok = true ↔ ∀ j ∈ s.winIndices g, u[j].bad ≤ 1) (negRate : (s.leg g).negRate = some rate)
    (attempt : (s.leg g).attempt = some n) :
    ∃ t, exec (.windowReport (s.winLane g i) h e r) s = .next t
      ∧ (s.isHub = true → (s.leg g).farVerify = none →
          (t.leg g).state = .verify ∧ (t.leg g).verify = some u ∧ (t.leg g).localVerify = some ok)
      ∧ (s.isHub = true → ∀ b, (s.leg g).farVerify = some b → if ok && b then s.CameUp t g rate else s.AttemptFailed t g n)
      ∧ (s.isHub = false → (t.leg g).state = .verify ∧ (t.leg g).verify = some u
          ∧ t.sends g (.verifyResult n (ok && !(s.leg g).adaptFailed) (((s.winIndices g).map (fun j => u[j].bad)).foldl max 0)))
      ∧ s.othersKept t g ∧ s.tapsKept t := by
  generalize hw : (s.recorded (s.winLane g i) ⟨h, e, r, s.time⟩).judged g u = w
  have leg : w.leg g = { s.leg g with verify := some u } := by rw [← hw, State.judged_leg, State.recorded_leg]
  have before : s.AsBefore w g := hw ▸ (s.recorded_asBefore _ _ g).trans (State.judged_asBefore _ g u)
  have lanes : s.sameReceivers w := hw ▸ s.recorded_sameReceivers _ _
  have result : w.verifyPasses g = ok := by
    rw [Bool.eq_iff_iff, passes, ← hw]
    exact State.judged_verifyPasses
  have worst : w.worstBad g = ((s.winIndices g).map (fun j => u[j].bad)).foldl max 0 := hw ▸ State.judged_worstBad
  have reported := State.reportVerify_last (s := s.recorded (s.winLane g i) ⟨h, e, r, s.time⟩) tally moved last
  rw [hw, result, worst] at reported
  cases isHub : s.isHub with
  | true =>
    rw [if_pos (show (s.recorded _ _).isHub = true from isHub)] at reported
    have resolved := w.resolved_leg g ok
    have before' : s.AsBefore (w.resolved g ok) g := before.trans ⟨rfl, rfl, rfl, by rw [resolved]⟩
    have far : ((w.resolved g ok).leg g).farVerify = (s.leg g).farVerify := by rw [resolved, leg]
    have near : ((w.resolved g ok).leg g).localVerify = some ok := by rw [resolved]
    cases farResult : (s.leg g).farVerify with
    | none =>
      have waits : (w.resolved g ok).decideVerify g = (w.resolved g ok, false) := by
        unfold State.decideVerify
        rw [far, near, farResult]
      rw [waits] at reported
      obtain ⟨t, run, onward, others, taps, -⟩ := exec_windowReport_verify owner window state h e r reported
        fun _ => before'.state.trans state
      refine ⟨t, run, fun _ _ => ⟨(onward.state g).trans (before'.state.trans state), ?_,
        (onward.field Leg.localVerify (fun _ => rfl) g).trans near⟩, fun _ b far => (nomatch far), nofun, others, taps⟩
      exact (onward.field Leg.verify (fun _ => rfl) g).trans (by rw [resolved, leg])
    | some b =>
      have decides : (w.resolved g ok).decideVerify g = (if ok && b then (w.resolved g ok).enterUp g
          else (w.resolved g ok).attemptFails g .verifyFailed, true) := by
        unfold State.decideVerify
        rw [far, near, farResult]
      rw [decides] at reported
      obtain ⟨t, run, onward, others, taps, -⟩ := exec_windowReport_verify owner window state h e r reported nofun
      refine ⟨t, run, fun _ none => (nomatch none), fun _ b' far => ?_, nofun, others, taps⟩
      cases far
      by_cases both : (ok && b) = true
      · rw [if_pos both] at onward ⊢
        exact onward.cameUp (before'.cameUp lanes
          (State.enterUp_cameUp (before'.isHub.trans isHub) (before'.negRate.trans negRate)))
      · rw [if_neg both] at onward ⊢
        exact onward.attemptFailed (before'.attemptFails .verifyFailed attempt (by rw [state]; rfl) fun _ => lanes)
  | false =>
    rw [if_neg (show ¬(s.recorded _ _).isHub = true by rw [show (s.recorded _ _).isHub = false from isHub]; exact nofun)] at reported
    generalize hz : w.modLeg g (fun l => l.queueReport (.verifyResult (l.attempt.getD 0) (ok && !l.adaptFailed)
      (((s.winIndices g).map (fun j => u[j].bad)).foldl max 0))) = z at reported
    have queued : z.leg g = (w.leg g).queueReport (.verifyResult n (ok && !(s.leg g).adaptFailed)
        (((s.winIndices g).map (fun j => u[j].bad)).foldl max 0)) := by
      rw [← hz, State.modLeg_leg_same, before.attempt, attempt, leg]
      rfl
    have requeued := Leg.queueReport_requeued (w.leg g) (.verifyResult n (ok && !(s.leg g).adaptFailed)
      (((s.winIndices g).map (fun j => u[j].bad)).foldl max 0))
    rw [← queued] at requeued
    obtain ⟨t, run, onward, others, taps, -⟩ := exec_windowReport_verify owner window state h e r reported
      fun _ => requeued.state.trans (before.state.trans state)
    refine ⟨t, run, nofun, nofun, fun _ => ⟨(onward.state g).trans (requeued.state.trans (before.state.trans state)), ?_,
      onward.sends _ _ (State.sends_of_carries ?_)⟩, others, taps⟩
    · rw [onward.field Leg.verify (fun _ => rfl) g, requeued.same, leg]
    · have role : z.role = .endRole := by
        rw [← hz, State.modLeg_role, before.role]
        exact State.role_of_isHub_false isHub
      rw [queued, role]
      exact Leg.queueReport_carries _ _

end

/-! ### A counted set below the top (R94, R96) -/

/-- A complete set below the top of the counter moves counter and state, and leaves its aggregate merit and an empty set. -/
theorem State.SetCounted.below {s w : State} {g : LegId} {merit n : Nat} (counted : s.SetCounted w g merit) {isBad : Bool}
    (below : countSet (s.leg g).errCount isBad = some n) {t : State} (ends : t = (w.countHealth g isBad).arbitrate false) :
    (t.leg g).errCount = n ∧ (t.leg g).aggMerit = merit ∧ (∀ j : LaneId, (t.leg g).reportSet[j] = none)
      ∧ (t.leg g).state = healthState (s.leg g).state n := by
  rw [State.countHealth_below (by rw [counted.leg]; exact below)] at ends
  have leg : (w.counterAt g n).leg g = { s.leg g with aggMerit := merit, reportSet := emptySet, errCount := n } := by
    rw [State.counterAt_leg, counted.leg]
  obtain ⟨state, count, agg, set⟩ := (w.counterAt g n).checkHealth_leg g (by rw [leg])
  rw [leg] at state count agg
  rw [ends, State.arbitrate_field Leg.errCount (fun _ => rfl), State.arbitrate_field Leg.aggMerit (fun _ => rfl),
    State.arbitrate_field Leg.reportSet (fun _ => rfl), State.arbitrate_state, set]
  exact ⟨count, agg, emptySet_get, state⟩

end Sys2Proof.Machine

/-- Settles O11: sets below the top of the counter and open sets in service, and the VERIFY tally with its last report. -/
theorem healthCountsASet : Obligations.HealthCountsASet := by
  unfold Obligations.HealthCountsASet
  refine ⟨fun s c h e r g es owner window service own full bad below => ?_,
    fun s c h e r g es owner window service own full good => ?_,
    fun s c h e r g owner window service waits => ?_,
    fun s g i h e r v owner window state tally passed => ?_,
    fun s g i h e r v owner window state tally later more unfilled => ?_,
    fun s g i h e r v u ok rate n owner window state tally later counted others moved passes negRate attempt => ?_⟩
  · obtain ⟨w, t, run, set, ends, others, -, setting⟩ := exec_windowReport_completes owner window service own full
    rw [any_badWindow.mpr bad] at ends
    obtain ⟨count, agg, empty, state⟩ := set.below (countSet_below below true) ends
    obtain ⟨least, attained⟩ := lowestMerit_spec window es
    rw [← agg] at least attained
    exact ⟨t, run, count, least, attained, empty, state, others, setting⟩
  · obtain ⟨w, t, run, set, ends, others, -, setting⟩ := exec_windowReport_completes owner window service own full
    have clean : ((s.winLanes g).map es).any (badWindow (s.leg g)) = false := by
      rw [Bool.eq_false_iff, Ne, any_badWindow]
      rintro ⟨j, hj, bad⟩
      obtain ⟨errs, eye⟩ := good j hj
      omega
    rw [clean] at ends
    obtain ⟨count, agg, empty, state⟩ := set.below (n := (s.leg g).errCount - 1) rfl ends
    obtain ⟨least, attained⟩ := lowestMerit_spec window es
    rw [← agg] at least attained
    exact ⟨t, run, count, least, attained, empty, state, others, setting⟩
  · obtain ⟨j, hj, other, none⟩ := waits
    obtain ⟨t, run, rest, others, -, setting⟩ := exec_windowReport_service owner window service h e r
    rw [State.joinSet_waits (s := s.tracked c ⟨h, e, r, s.time⟩) hj other none] at rest
    have leg := State.joined_leg (s.tracked c ⟨h, e, r, s.time⟩) g c ⟨h, e, r, s.time⟩
    have entry := State.joined_entry (s.tracked c ⟨h, e, r, s.time⟩) g c ⟨h, e, r, s.time⟩
    have field {α : Type} (f : Leg → α) (apart : ∀ l : Leg, f l.apart = f l) := rest ▸ State.arbitrate_field f apart
      ((s.tracked c ⟨h, e, r, s.time⟩).joined g c ⟨h, e, r, s.time⟩) false g
    have set := field Leg.reportSet fun _ => rfl
    refine ⟨t, run, ?_, fun k ne => ?_, (field Leg.errCount fun _ => rfl).trans (by rw [leg]; rfl),
      (field Leg.aggMerit fun _ => rfl).trans (by rw [leg]; rfl), (field Leg.state fun _ => rfl).trans (by rw [leg]; rfl),
      others, setting⟩
    · rw [set, entry, if_pos rfl]
    · rw [set, entry, if_neg ne]
      rfl
  · have result (u : Vector VerifyLane 8) (moved : u = v.set i.val (v[i].onReport (badWindow (s.leg g) ⟨h, e, r, s.time⟩)) i.isLt)
        (same : (v[i].onReport (badWindow (s.leg g) ⟨h, e, r, s.time⟩)).counted = v[i].counted) :=
      exec_windowReport_verify_counts owner window state r tally moved fun last => last.2.1 (same.symm.trans last.1)
    by_cases later : v[i].passedOver = true
    · have full := v[i].onReport_full (badWindow (s.leg g) ⟨h, e, r, s.time⟩) later
        (passed.resolve_left (by rw [later]; exact nofun))
      rw [if_pos later]
      exact result v (by rw [full]; simp) (by rw [full])
    · have first := v[i].onReport_first (badWindow (s.leg g) ⟨h, e, r, s.time⟩) (Bool.eq_false_iff.mpr later)
      rw [if_neg later]
      exact result _ (by rw [first]) (by rw [first])
  · have counts := v[i].onReport_counts (badWindow (s.leg g) ⟨h, e, r, s.time⟩) later more
    rw [badWindow_toNat] at counts
    refine exec_windowReport_verify_counts owner window state r tally (by rw [counts]) fun last => ?_
    obtain ⟨sixteen, -, all⟩ := last
    rcases unfilled with few | ⟨j, hj, other, notAll⟩
    · rw [counts] at sixteen
      have sixteen : v[i].counted + 1 = 16 := sixteen
      omega
    · have ne : i.val ≠ j.val := fun k => other (Fin.ext k.symm)
      have := all j hj
      rw [Fin.getElem_fin, Vector.getElem_set_ne _ _ ne] at this
      exact notAll this
  · have counts := v[i].onReport_counts (badWindow (s.leg g) ⟨h, e, r, s.time⟩) later (by omega)
    rw [badWindow_toNat] at counts
    refine exec_windowReport_verify_last owner window state r tally (by rw [counts, moved]) ⟨by rw [counts, counted], by omega,
      fun j hj => ?_⟩ passes negRate attempt
    rw [moved]
    by_cases e : j = i
    · simp only [e, Fin.getElem_fin, Vector.getElem_set_self]
      exact congrArg (· + 1) counted
    · have ne : i.val ≠ j.val := fun k => e (Fin.ext k.symm)
      rw [Fin.getElem_fin, Vector.getElem_set_ne _ _ ne]
      exact others j hj e
end

