-- ==== Sys2Proof/Proofs/TapStatuses.lean ====
section
/-! SUPPORT. TAP_STATUS read from its bytes (R58, R59, R197), the far taps it sets (R17), and the result a search takes
(R67, R72 to R78). -/

open Sys2Proof Sys2Proof.Machine

namespace Sys2Proof.Machine

/-! ### Reading a TAP_STATUS (R58) -/

theorem byteOf_toNat {n : Nat} (h : n < 256) : (byteOf n).toNat = n := by
  rw [byteOf, BitVec.toNat_ofNat, Nat.mod_eq_of_lt h]

theorem TapStat.ofCode_byteOf (p : TapStat) : TapStat.ofCode (byteOf p.code).toNat = some p := by
  cases p <;> rfl

theorem TapStat.ofCode_beyond {n : Nat} (h : 5 < n) : TapStat.ofCode n = none := by
  unfold TapStat.ofCode
  split <;> first | omega | rfl

theorem parseTapStatus_bytes {u : TapStatus} (lawful : u.taps.lawful) : parseTapStatus u.index u.bytes = some u := by
  obtain ⟨i, p, q, ⟨pre, main, post⟩⟩ := u
  obtain ⟨hpre, hpost, hmain, -⟩ := Taps.lawful_iff.mp lawful
  have index : (byteOf i.val).toNat = i.val := byteOf_toNat (by omega)
  have taps : (byteOf pre).toNat = pre ∧ (byteOf main).toNat = main ∧ (byteOf post).toNat = post := by
    dsimp only at hpre hpost hmain
    exact ⟨byteOf_toNat (by omega), byteOf_toNat (by omega), byteOf_toNat (by omega)⟩
  obtain ⟨e, e', e''⟩ := taps
  simp only [parseTapStatus, TapStatus.bytes, Taps.bytes, natAt, List.cons_append, List.nil_append, List.getD_cons_zero,
    List.getD_cons_succ, TapStat.ofCode_byteOf, index, e, e', e'']
  exact if_pos ⟨trivial, lawful⟩

/-- A status for another index, a status code above 5 or taps that break the law of R47 are no TAP_STATUS. -/
theorem parseTapStatus_none {i : WinIx} {d : List Byte} (h : natAt d 0 ≠ i.val ∨ 5 < natAt d 1 ∨ 5 < natAt d 2 ∨ 12 < natAt d 3
    ∨ 18 < natAt d 5 ∨ natAt d 4 ≠ 48 - natAt d 3 - natAt d 5 ∨ natAt d 4 < 24) : parseTapStatus i d = none := by
  unfold parseTapStatus
  cases pre : TapStat.ofCode (natAt d 1) with
  | none => rfl
  | some p =>
    cases post : TapStat.ofCode (natAt d 2) with
    | none => rfl
    | some q =>
      refine if_neg fun ⟨index, lawful⟩ => ?_
      obtain ⟨hpre, hpost, hmain, floor⟩ := Taps.lawful_iff.mp lawful
      dsimp only at hpre hpost hmain floor
      rcases h with h | h | h | h
      · exact h index
      · rw [TapStat.ofCode_beyond h] at pre; cases pre
      · rw [TapStat.ofCode_beyond h] at post; cases post
      · omega

/-! ### Far taps (R17) -/

theorem State.setFarTaps_lane {s : State} {g : LegId} {u : TapStatus} (window : s.hasIndex g u.index) (c : LaneId) :
    (s.setFarTaps g u).lane c = if c = s.winLane g u.index then { s.lane c with farTaps := some u.taps } else s.lane c := by
  unfold State.setFarTaps
  rw [if_pos window, State.modLane_lane]
  split
  · rename_i e
    rw [e]
  · rfl

theorem State.setFarTaps_rest (s : State) (g : LegId) (u : TapStatus) :
    s.setFarTaps g u = { s with lanes := (s.setFarTaps g u).lanes } := by
  unfold State.setFarTaps
  split <;> rfl

theorem State.setFarTaps_legs (s : State) (g : LegId) (u : TapStatus) : (s.setFarTaps g u).legs = s.legs := by
  rw [State.setFarTaps_rest]

theorem State.setFarTaps_kept {s : State} {g : LegId} {u : TapStatus} (window : s.hasIndex g u.index) (c : LaneId) :
    ((s.setFarTaps g u).lane c).search = (s.lane c).search ∧ ((s.setFarTaps g u).lane c).peaking = (s.lane c).peaking
      ∧ ((s.setFarTaps g u).lane c).taps = (s.lane c).taps ∧ ((s.setFarTaps g u).lane c).pinned = (s.lane c).pinned
      ∧ ((s.setFarTaps g u).lane c).settleUntil = (s.lane c).settleUntil := by
  rw [State.setFarTaps_lane window]
  split <;> exact ⟨rfl, rfl, rfl, rfl, rfl⟩

theorem State.BeforeSearch.setFarTaps {s w : State} {g : LegId} (b : s.BeforeSearch w g) {u : TapStatus}
    (window : w.hasIndex g u.index) : s.BeforeSearch (w.setFarTaps g u) g where
  toAsBefore := by
    refine b.toAsBefore.trans (.of_legs g ?_ ?_ ?_ (w.setFarTaps_legs g u)) <;> rw [State.setFarTaps_rest]
  search c := (State.setFarTaps_kept window c).1.trans (b.search c)
  peaking c := (State.setFarTaps_kept window c).2.1.trans (b.peaking c)
  marked := (congrArg Leg.localTrained (by simp [State.leg, State.setFarTaps_legs])).trans b.marked

/-! ### The result a search takes (R67, R72 to R78) -/

theorem Search.onResult_closes (r : Search) (unknown : Bool) (res : ReqResult) : Search.Closes (r.onResult unknown res) := by
  unfold Search.onResult
  split
  · exact r.onAck_closes _
  · exact r.onFailure_closes
  · exact r.onFailure_closes
  · nofun
  · nofun
  · split
    · nofun
    · exact r.onFailure_closes

/-- A result reaches the search that waits for it, and what the search asks for is done. -/
theorem State.BeforeSearch.takeResult {s u : State} {g : LegId} (b : s.BeforeSearch u g) {i : WinIx} {n : Nat} {k : Search}
    (train : (s.leg g).state = .train) (window : s.hasIndex g i) (searches : (s.lane (s.winLane g i)).search = some k)
    (waits : k.waiting = some .status) (attempt : (s.leg g).attempt = some n)
    (lives : s.isHub = true → 1 ≤ n ∧ (s.leg g).standbyVerify = false) (res : ReqResult) :
    s.SearchDoes (u.takeResult g i res) g i n (k.onResult (Config.unknownItemFailsLane u.free) res).1
      (k.onResult (Config.unknownItemFailsLane u.free) res).2 := by
  have waiting : (u.lane (u.winLane g i)).search.any (fun r => r.waiting == some .status) = true := by
    rw [b.search, b.winLane, searches]
    simp [waits]
  have moved := b.moveSearch (n := n) (fun r => r.onResult (Config.unknownItemFailsLane u.free) res) train window searches
    (fun _ => ⟨attempt, lives⟩) (k.onResult_closes _ res)
  unfold State.takeResult
  rw [if_pos waiting]
  refine moved.1.onward ?_ (.of_eq rfl rfl rfl rfl rfl)
  exact (State.acts_moveSearch _ g i _ fun r ok => Search.onResult_ok ok _ _).role.trans b.role

/-- At an END no move of a search moves the leg's state (R79). -/
theorem State.moveSearch_state_end {u : State} (atEnd : u.isHub = false) (g : LegId) (i : WinIx) (f : Search → Search × SearchOut)
    (k : LegId) : ((u.moveSearch g i f).1.leg k).state = (u.leg k).state := by
  have queued (w : State) (q : Leg → Leg) (same : ∀ l, (q l).state = l.state) : ((w.modLeg g q).leg k).state = (w.leg k).state := by
    rw [State.modLeg_leg]
    split
    · rename_i e
      rw [e, same]
    · rfl
  have done (w : State) (hw : w.isHub = false) (c : LaneId) : ((w.laneDone g c).1.leg k).state = (w.leg k).state := by
    unfold State.laneDone
    rw [State.laneFails_end hw]
    split
    · rfl
    · split
      · rw [if_neg (by simp [hw])]
        exact queued w _ fun l => (Leg.queueReport_requeued l _).state
      · rfl
  cases searches : (u.lane (u.winLane g i)).search with
  | none => rw [State.moveSearch_none searches]
  | some r =>
    rw [State.moveSearch_eq searches, ← State.withSearch_leg u g k i (f r).1]
    generalize hw : u.withSearch g i (f r).1 = w
    have wEnd : w.isHub = false := by rw [← hw]; exact atEnd
    cases (f r).2 with
    | quiet => rfl
    | send q => exact queued w _ fun l => (Leg.sendRequest_requeued l _ _ _).state
    | finished => exact done w wEnd _
    | failed =>
      unfold State.searchOut
      rw [State.laneFails_end wEnd]

theorem State.takeResult_state_end {u : State} (atEnd : u.isHub = false) (g : LegId) (i : WinIx) (res : ReqResult) (k : LegId) :
    ((u.takeResult g i res).leg k).state = (u.leg k).state := by
  unfold State.takeResult
  split
  · exact State.moveSearch_state_end atEnd g i _ k
  · rfl

theorem State.takeResult_cable (u : State) (g : LegId) (i : WinIx) (res : ReqResult) : (u.takeResult g i res).cable = u.cable := by
  unfold State.takeResult
  split
  · exact State.moveSearch_cable ..
  · rfl

end Sys2Proof.Machine
end

