-- ==== Sys2Proof/Proofs/StatusAtEnd.lean ====
section
/-! SUPPORT. A STORE TAP_STATUS at an END (R58). -/

open Sys2Proof Sys2Proof.Machine

namespace Sys2Proof.Machine

theorem exec_storeTapStatus {s : State} {f : CommandBody} (takes : s.takesCommand 3 6 f) (length : f.data.length = 6) :
    exec (.storeTapStatus 0 f) s = .next (s.heard.takeStoreStatus 3 6 f) :=
  congrArg Host.Outcome.next ((State.takeCommand_fresh takes (by decide)).trans (s.heard.checkCommand_storeStatus length))

section
variable {s : State} {f : CommandBody} (awake : (s.leg 0).state ≠ .listen ∧ (s.leg 0).state ≠ .fault)
include awake

theorem State.takeStoreStatus_badLane (none : s.hasIndex 0 f.lane = false) :
    s.takeStoreStatus 3 6 f = s.refuse 3 6 f .badLane := by
  unfold State.takeStoreStatus
  rw [if_neg (not_or.mpr awake), if_pos none]

theorem State.takeStoreStatus_badValue (has : s.hasIndex 0 f.lane) (bad : parseTapStatus f.lane f.data = none) :
    s.takeStoreStatus 3 6 f = s.refuse 3 6 f .badValue := by
  unfold State.takeStoreStatus
  rw [if_neg (not_or.mpr awake), if_neg (by simp [has]), bad]

theorem State.takeStoreStatus_good (has : s.hasIndex 0 f.lane) {u : TapStatus} (parsed : parseTapStatus f.lane f.data = some u) :
    s.takeStoreStatus 3 6 f = State.ack (if (s.leg 0).state = .train ∧ s.awaitsStatus (s.winLane 0 f.lane) then
      (s.setFarTaps 0 u).takeResult 0 f.lane (.ack u) else s.setFarTaps 0 u) 3 6 f [] := by
  unfold State.takeStoreStatus
  rw [if_neg (not_or.mpr awake), if_neg (by simp [has]), parsed]

end

theorem State.heard_beforeSearch (s : State) : s.BeforeSearch s.heard 0 where
  role := s.heard_settingKept.1
  time := s.heard_time
  cable := s.heard_settingKept.2.2.2.1
  leg := by rw [State.heard_leg_zero]
  search c := by rw [State.heard_lane]
  peaking c := by rw [State.heard_lane]
  marked := by rw [State.heard_leg_zero]

/-- What a taken TAP_STATUS leaves of an END, whether or not a search takes it (R17, R58). -/
theorem State.statusTaken_frame {s : State} (atEnd : s.isHub = false) {u : TapStatus} (window : s.hasIndex 0 u.index) (t : State)
    (taken : t = (s.heard.setFarTaps 0 u).takeResult 0 u.index (.ack u) ∨ t = s.heard.setFarTaps 0 u) :
    (∀ c, (t.lane c).farTaps = if c = s.winLane 0 u.index then some u.taps else (s.lane c).farTaps)
      ∧ (t.leg 0).state = (s.leg 0).state
      ∧ (∀ c, (t.lane c).taps = (s.lane c).taps ∧ (t.lane c).settleUntil = (s.lane c).settleUntil)
      ∧ (∀ k, k ≠ 0 → t.leg k = s.leg k) ∧ s.settingKept t := by
  have rest := s.heard.setFarTaps_rest 0 u
  have leg (k : LegId) : (s.heard.setFarTaps 0 u).leg k = s.heard.leg k := by rw [rest]; rfl
  have setting : s.settingKept (s.heard.setFarTaps 0 u) := by
    refine State.settingKept_trans s.heard_settingKept ?_
    rw [rest]
    exact ⟨rfl, rfl, rfl, rfl, rfl⟩
  have told : s.heard.hasIndex 0 u.index = true := by rwa [State.heard_hasIndex]
  have lane (c : LaneId) := State.setFarTaps_lane told c
  simp only [State.heard_winLane, State.heard_lane] at lane
  have set : (∀ c, ((s.heard.setFarTaps 0 u).lane c).farTaps = if c = s.winLane 0 u.index then some u.taps else (s.lane c).farTaps)
      ∧ ∀ c, ((s.heard.setFarTaps 0 u).lane c).taps = (s.lane c).taps
        ∧ ((s.heard.setFarTaps 0 u).lane c).settleUntil = (s.lane c).settleUntil := by
    refine ⟨fun c => ?_, fun c => ?_⟩ <;> rw [lane] <;> split
    · rfl
    · rfl
    · exact ⟨rfl, rfl⟩
    · exact ⟨rfl, rfl⟩
  rcases taken with e | e
  · have acts := State.acts_takeResult (s.heard.setFarTaps 0 u) 0 u.index (.ack u)
    have still := State.takeResult_state_end (u := s.heard.setFarTaps 0 u) (by rw [rest]; exact s.heard_isHub.trans atEnd) 0 u.index
      (.ack u) 0
    have cable := State.takeResult_cable (s.heard.setFarTaps 0 u) 0 u.index (.ack u)
    rw [← e] at acts still cable
    refine ⟨fun c => ?_, ?_, fun c => ?_, fun k ne => ?_, State.settingKept_trans setting (acts.settingKept cable)⟩
    · obtain ⟨-, -, -, far⟩ := acts.taps c
      exact far.trans (set.1 c)
    · rw [still, leg, State.heard_state]
    · obtain ⟨taps, -, settle, -⟩ := acts.taps c
      exact ⟨taps.trans (set.2 c).1, settle.trans (set.2 c).2⟩
    · rw [acts.others k ne, leg, State.heard_leg_other s ne]
  · rw [e]
    exact ⟨set.1, by rw [leg, State.heard_state], set.2, fun k ne => by rw [leg, State.heard_leg_other s ne], setting⟩

end Sys2Proof.Machine

/-- Settles O33: a fresh STORE TAP_STATUS comes to `takeStoreStatus`, and the search that waits takes it as its result. -/
theorem endTakesTapStatus : Obligations.EndTakesTapStatus := by
  unfold Obligations.EndTakesTapStatus
  refine ⟨fun s f p q u takes awake has lawful data => ?_, fun s f takes length awake none => ?_,
    fun s f takes length awake has bad => ?_,
    fun s f u k n takes awake has lawful index data train attempt searches waits drained => ?_,
    fun s f u takes awake has lawful index data idle => ?_⟩
  · have parsed : parseTapStatus f.lane f.data = some ⟨f.lane, p, q, u⟩ := by
      rw [data]
      exact parseTapStatus_bytes (u := ⟨f.lane, p, q, u⟩) lawful
    have good := State.takeStoreStatus_good (s := s.heard) (by simpa using awake) (by simpa using has) parsed
    obtain ⟨far, state, taps, others, setting⟩ := State.statusTaken_frame takes.1 (u := ⟨f.lane, p, q, u⟩) has
      (if (s.heard.leg 0).state = .train ∧ s.heard.awaitsStatus (s.heard.winLane 0 f.lane) then
        (s.heard.setFarTaps 0 ⟨f.lane, p, q, u⟩).takeResult 0 f.lane (.ack ⟨f.lane, p, q, u⟩)
        else s.heard.setFarTaps 0 ⟨f.lane, p, q, u⟩) (ite_eq_or_eq ..)
    exact ⟨_, (exec_storeTapStatus takes (by rw [data]; rfl)).trans (congrArg _ good), (far _).trans (if_pos rfl),
      fun c ne => (far c).trans (if_neg ne), rfl, state, taps, others, setting⟩
  · obtain ⟨lanes, sent, -, state, -⟩ := s.heard_refuse 3 6 f .badLane
    exact ⟨_, (exec_storeTapStatus takes length).trans (congrArg _ (State.takeStoreStatus_badLane (by simpa using awake)
      (by simpa using none))), sent, lanes, state⟩
  · obtain ⟨lanes, sent, -, state, -⟩ := s.heard_refuse 3 6 f .badValue
    exact ⟨_, (exec_storeTapStatus takes length).trans (congrArg _ (State.takeStoreStatus_badValue (by simpa using awake)
      (by simpa using has) (parseTapStatus_none bad))), sent, lanes, state⟩
  · have parsed : parseTapStatus f.lane f.data = some u := by
      rw [data, ← index]
      exact parseTapStatus_bytes lawful
    have good := State.takeStoreStatus_good (s := s.heard) (by simpa using awake) (by simpa using has) parsed
    have awaits : s.heard.awaitsStatus (s.heard.winLane 0 f.lane) = true := by
      unfold State.awaitsStatus
      rw [State.heard_winLane, State.heard_lane, searches]
      simp [waits, drained]
    rw [if_pos ⟨s.heard_state.trans train, awaits⟩] at good
    have before := s.heard_beforeSearch.setFarTaps (u := u) (by rw [State.heard_hasIndex, index]; exact has)
    have does := before.takeResult train has searches waits attempt (fun hub => absurd (hub.symm.trans takes.1) nofun) (.ack u)
    obtain ⟨far, -⟩ := State.statusTaken_frame takes.1 (u := u) (index.symm ▸ has)
      ((s.heard.setFarTaps 0 u).takeResult 0 u.index (.ack u)) (.inl rfl)
    rw [index] at far
    have role := (State.acts_takeResult (s.heard.setFarTaps 0 u) 0 f.lane (.ack u)).role.trans before.role
    generalize (s.heard.setFarTaps 0 u).takeResult 0 f.lane (.ack u) = w at good does far role
    exact ⟨_, (exec_storeTapStatus takes (by rw [data]; rfl)).trans (congrArg _ good),
      (does.onward role (.of_eq rfl rfl rfl rfl rfl)).takes, (far _).trans (if_pos rfl), rfl⟩
  · have parsed : parseTapStatus f.lane f.data = some u := by
      rw [data, ← index]
      exact parseTapStatus_bytes lawful
    have good := State.takeStoreStatus_good (s := s.heard) (by simpa using awake) (by simpa using has) parsed
    have unmoved : ¬((s.heard.leg 0).state = .train ∧ s.heard.awaitsStatus (s.heard.winLane 0 f.lane) = true) := by
      rintro ⟨train, awaits⟩
      rw [State.heard_state] at train
      have all := idle.resolve_left (by simp [train])
      unfold State.awaitsStatus at awaits
      rw [State.heard_winLane, State.heard_lane] at awaits
      cases searches : (s.lane (s.winLane 0 f.lane)).search with
      | none => rw [searches] at awaits; cases awaits
      | some k =>
        rw [searches] at all awaits
        simp at all awaits
        simp [awaits] at all
    rw [if_neg unmoved] at good
    refine ⟨_, (exec_storeTapStatus takes (by rw [data]; rfl)).trans (congrArg _ good), fun c => ?_, ?_⟩
    · exact (State.setFarTaps_kept (by rw [State.heard_hasIndex, index]; exact has) c).1.trans (by rw [State.heard_lane])
    · refine Eq.trans ?_ s.heard_queue
      exact congrArg Leg.queue (by simp [State.leg, State.ack, State.answer, State.setFarTaps_legs])
end

