-- ==== Sys2Proof/Proofs/ExchangeResults.lean ====
section
/-! SUPPORT. How a HUB's EXCHANGE ends (R59, R128, R132, R133): the state in which its result is handed to the training engine,
and what the search does with it. -/

open Sys2Proof Sys2Proof.Machine

namespace Sys2Proof.Machine

/-! ### The state in which the result is handed on -/

/-- From s to w the transaction of leg g has ended, and nothing else has moved but its timeouts, its lost mark and notices. -/
structure State.TxEnded (s w : State) (g : LegId) : Prop extends s.AsBefore w g where
  lanes : w.lanes = s.lanes
  others : ∀ k, k ≠ g → w.leg k = s.leg k
  marked : (w.leg g).localTrained = (s.leg g).localTrained

theorem State.TxEnded.lane {s w : State} {g : LegId} (h : s.TxEnded w g) (c : LaneId) : w.lane c = s.lane c := by
  simp [State.lane, h.lanes]

theorem State.TxEnded.beforeSearch {s w : State} {g : LegId} (h : s.TxEnded w g) : s.BeforeSearch w g :=
  ⟨h.toAsBefore, fun c => by rw [h.lane], fun c => by rw [h.lane], h.marked⟩

/-- The state in which a good reply's result is handed on (R128). -/
def State.replied (s : State) (g : LegId) : State :=
  { (s.modLeg g (fun l => { l with timeouts := 0 })).restoreSideband g with tx := none }

theorem State.replied_leg (s : State) (g k : LegId) :
    (s.replied g).leg k = if k = g then { s.leg g with timeouts := 0, sbLost := false } else s.leg k := by
  have e := (s.modLeg g (fun l => { l with timeouts := 0 })).restoreSideband_leg g k
  rw [State.modLeg_leg_same] at e
  refine Eq.trans e ?_
  split
  · rfl
  · rename_i ne
    exact State.modLeg_leg_other _ _ ne

theorem State.replied_ended (s : State) (g : LegId) : s.TxEnded (s.replied g) g where
  role := by unfold State.replied; rw [State.restoreSideband_rest]; rfl
  time := by unfold State.replied; rw [State.restoreSideband_rest]; rfl
  cable := by unfold State.replied; rw [State.restoreSideband_rest]; rfl
  leg := by rw [State.replied_leg, if_pos rfl]
  lanes := State.restoreSideband_lanes _ _
  others k ne := by rw [State.replied_leg, if_neg ne]
  marked := by rw [State.replied_leg, if_pos rfl]

/-- The state in which an expired transaction's result is handed on (R132). -/
def State.expired (s : State) (x : Transaction) : State := { s.post .deferExpired (some x.leg) x.expiryData with tx := none }

theorem State.expired_ended (s : State) (x : Transaction) (g : LegId) : s.TxEnded (s.expired x) g :=
  ⟨⟨rfl, rfl, rfl, rfl⟩, rfl, fun _ _ => rfl, rfl⟩

/-! ### An EXCHANGE ends (R59, R133) -/

theorem State.takeResponse_good {s : State} {g : LegId} {x : Transaction} {low : BitVec 2} {f : ResponseBody}
    (reply : s.getsReply g x low f) : s.takeResponse g low 0 f = s.goodReply x low f := by
  obtain ⟨hub, tx, leg, waits, crc, good⟩ := reply
  unfold State.takeResponse
  rw [tx]
  exact (if_pos ⟨hub, leg, waits, crc⟩).trans (if_pos good)

section
variable {s : State} {g : LegId} {x : Transaction} {f : ResponseBody} {ix : WinIx} {q : TapRequest}
  (work : x.work = .item (.exchange ix q))
include work

theorem State.endTx_exchange (w : State) (r : TxResult) (stands : r ≠ .lost) :
    w.endTx x r = (State.exchangeEnds { w with tx := none } x ix r).arbitrate (x.endsGrant r) := by
  unfold State.endTx State.handOn
  rw [work]
  dsimp only
  rw [if_neg fun lost => stands lost.1]

theorem exec_sidebandAck_exchange (reply : s.getsReply g x 1 f) : exec (.sidebandAck g f) s
    = .next (((s.replied g).exchangeEnds x ix (.ack f.item f.more f.data)).arbitrate (x.endsGrant (.ack f.item f.more f.data))) := by
  refine congrArg Host.Outcome.next ((State.takeResponse_good reply).trans ?_)
  rw [State.goodReply, if_pos rfl, State.endTx_exchange work _ (.ack f.item f.more f.data) nofun, reply.2.2.1]
  rfl

theorem exec_sidebandRefuse_exchange (reply : s.getsReply g x 3 f) {why : RefuseReason}
    (reason : RefuseReason.ofCode f.reason.toNat = some why) : exec (.sidebandRefuse g f) s
      = .next (((s.replied g).exchangeEnds x ix (.refuse why)).arbitrate (x.endsGrant (.refuse why))) := by
  refine congrArg Host.Outcome.next ((State.takeResponse_good reply).trans ?_)
  rw [State.goodReply, if_neg (by decide), if_neg (by decide), reason, Option.getD_some,
    State.endTx_exchange work _ (.refuse why) nofun, reply.2.2.1]
  rfl

theorem exec_transactionExpiry_exchange (tx : s.tx = some x) : exec .transactionExpiry s
    = .next (((s.expired x).exchangeEnds x ix .expired).arbitrate (x.endsGrant .expired)) := by
  have taken : exec .transactionExpiry s = .next (s.expireTx x) := congrArg Host.Outcome.next (by rw [tx])
  rw [taken, State.expireTx, State.endTx_exchange work _ .expired nofun]
  rfl

/-- A good ACK of an EXCHANGE carries a TAP_STATUS for its own index (R128). -/
theorem parseTapStatus_of_replyGood (reply : s.getsReply g x 1 f) :
    ∃ u, parseTapStatus ix f.data = some u ∧ u.taps = ⟨natAt f.data 3, natAt f.data 4, natAt f.data 5⟩ := by
  obtain ⟨-, -, -, -, -, good⟩ := reply
  have some : (parseTapStatus ix f.data).isSome = true := by
    unfold replyGood ackGood at good
    rw [work, if_pos rfl] at good
    exact (Bool.and_eq_true_iff.mp (Bool.and_eq_true_iff.mp good).2).2
  obtain ⟨u, parsed⟩ := Option.isSome_iff_exists.mp some
  refine ⟨u, parsed, ?_⟩
  unfold parseTapStatus at parsed
  split at parsed
  · dsimp only at parsed
    split at parsed
    · cases parsed; rfl
    · cases parsed
  · cases parsed

end

theorem State.exchangeEnds_ack (w : State) (x : Transaction) {ix : WinIx} {d : List Byte} {u : TapStatus}
    (parsed : parseTapStatus ix d = some u) (item : Byte) (more : Bool) : w.exchangeEnds x ix (.ack item more d)
      = if x.live then (w.setFarTaps x.leg u).takeResult x.leg ix (.ack u) else w.setFarTaps x.leg u := by
  have result : TxResult.forEngine ix (.ack item more d) = .ack u := by rw [TxResult.forEngine, parsed]; rfl
  simp only [State.exchangeEnds, result]

theorem State.exchangeEnds_refuse (w : State) {x : Transaction} (live : x.live = true) (ix : WinIx) (why : RefuseReason) :
    w.exchangeEnds x ix (.refuse why) = w.takeResult x.leg ix (.refuse why) := by
  simp only [State.exchangeEnds, TxResult.forEngine, live, if_true]

theorem State.exchangeEnds_expired (w : State) {x : Transaction} (live : x.live = true) (ix : WinIx) :
    w.exchangeEnds x ix .expired = w.takeResult x.leg ix .failure := by
  simp only [State.exchangeEnds, TxResult.forEngine, live, if_true]

theorem State.takeResult_unwaited {u : State} {g : LegId} {i : WinIx}
    (idle : (u.lane (u.winLane g i)).search.map Search.waiting ≠ some (some .status)) (res : ReqResult) :
    u.takeResult g i res = u := by
  refine if_neg fun waits => idle ?_
  cases searches : (u.lane (u.winLane g i)).search with
  | none => rw [searches] at waits; cases waits
  | some k =>
    rw [searches] at waits
    simpa using waits

/-! ### What the search does with it -/

namespace State.TxEnded

variable {s w : State} {g : LegId} (ended : s.TxEnded w g) {ix : WinIx}
include ended

/-- What an ACK's TAP_STATUS leaves of a HUB, whether or not a search takes it (R17). -/
theorem told {u : TapStatus} (index : u.index = ix) (window : s.hasIndex g ix) {t : State}
    (taken : t = (w.setFarTaps g u).takeResult g ix (.ack u) ∨ t = w.setFarTaps g u) (ends : Bool) :
    (∀ c, ((t.arbitrate ends).lane c).farTaps = if c = s.winLane g ix then some u.taps else (s.lane c).farTaps)
      ∧ (∀ c, ((t.arbitrate ends).lane c).taps = (s.lane c).taps ∧ ((t.arbitrate ends).lane c).pinned = (s.lane c).pinned
        ∧ ((t.arbitrate ends).lane c).settleUntil = (s.lane c).settleUntil)
      ∧ s.othersKept (t.arbitrate ends) g := by
  have has : w.hasIndex g u.index = true := by rw [index, ended.hasIndex]; exact window
  have lane (c : LaneId) := State.setFarTaps_lane has c
  simp only [index, ended.winLane, ended.lane] at lane
  have leg (k : LegId) : (w.setFarTaps g u).leg k = w.leg k := by simp [State.leg, State.setFarTaps_legs]
  have acts : (w.setFarTaps g u).LegFrame g t := by
    rcases taken with e | e
    · exact e ▸ (State.acts_takeResult _ g ix _).toLegFrame
    · exact e ▸ .refl _ g
  refine ⟨fun c => ?_, fun c => ?_, fun k ne => ?_⟩
  · obtain ⟨-, -, -, far⟩ := acts.taps c
    rw [State.arbitrate_lane, far, lane]
    split <;> rfl
  · obtain ⟨taps, pinned, settle, -⟩ := acts.taps c
    rw [State.arbitrate_lane, taps, pinned, settle, lane]
    split <;> exact ⟨rfl, rfl, rfl⟩
  · rw [State.arbitrate_apart, acts.others k ne, leg, ended.others k ne]

/-- A refusal or failure that reaches the search that waits for it (R72, R76 to R78). -/
theorem fails {k : Search} {n : Nat} (window : s.hasIndex g ix) (train : (s.leg g).state = .train)
    (searches : (s.lane (s.winLane g ix)).search = some k) (waits : k.waiting = some .status)
    (attempt : (s.leg g).attempt = some n) (pos : 1 ≤ n) (fresh : (s.leg g).standbyVerify = false) (res : ReqResult) (ends : Bool) :
    s.SearchDoes ((w.takeResult g ix res).arbitrate ends) g ix n (k.onResult (Config.unknownItemFailsLane w.free) res).1
        (k.onResult (Config.unknownItemFailsLane w.free) res).2
      ∧ s.tapsKept ((w.takeResult g ix res).arbitrate ends) ∧ s.othersKept ((w.takeResult g ix res).arbitrate ends) g := by
  have acts := State.acts_takeResult w g ix res
  refine ⟨(ended.beforeSearch.takeResult train window searches waits attempt (fun _ => ⟨pos, fresh⟩) res).onward
    (acts.role.trans ended.role) (State.onward_arbitrate _ _), fun c => ?_, fun j ne => ?_⟩
  · rw [State.arbitrate_lane, ← ended.lane]
    exact acts.taps c
  · rw [State.arbitrate_apart, acts.others j ne, ended.others j ne]

end State.TxEnded

end Sys2Proof.Machine

/-- Settles O22: the ACK with its TAP_STATUS, and the refusals and the expiry that fail the request. -/
theorem exchangeAckSetsFarTaps : Obligations.ExchangeAckSetsFarTaps := by
  unfold Obligations.ExchangeAckSetsFarTaps
  refine ⟨fun s g x f ix q reply work window => ?_,
    fun s g x f ix q k u n reply work window live train searches waits parsed attempt pos fresh => ?_,
    fun s g x f ix q reply work window stale => ?_,
    fun s g x f ix q k n reply work window live train searches waits reason attempt pos fresh => ?_,
    fun s g x f ix q k n reply work window live train searches waits reason attempt pos fresh => ?_,
    fun s g x ix q k n hub tx leg work window live train searches waits attempt pos fresh => ?_⟩
  · obtain ⟨u, parsed, taps⟩ := parseTapStatus_of_replyGood work reply
    have ran := exec_sidebandAck_exchange work reply
    rw [State.exchangeEnds_ack _ _ parsed, reply.2.2.1] at ran
    obtain ⟨far, near, others⟩ := (s.replied_ended g).told (parseTapStatus_lawful parsed).2 window (ite_eq_or_eq (x.live = true) _ _)
      (x.endsGrant (.ack f.item f.more f.data))
    exact ⟨_, ran, by rw [far, if_pos rfl, taps], fun c ne => by rw [far, if_neg ne], near, others⟩
  · have ran := exec_sidebandAck_exchange work reply
    rw [State.exchangeEnds_ack _ _ parsed, reply.2.2.1, if_pos live] at ran
    have index := (parseTapStatus_lawful parsed).2
    have before := (s.replied_ended g).beforeSearch.setFarTaps (u := u)
      (by rw [index, (s.replied_ended g).hasIndex]; exact window)
    have does := before.takeResult train window searches waits attempt (fun _ => ⟨pos, fresh⟩) (.ack u)
    obtain ⟨-, -, others⟩ := (s.replied_ended g).told index window (t := ((s.replied g).setFarTaps g u).takeResult g ix (.ack u))
      (.inl rfl) (x.endsGrant (.ack f.item f.more f.data))
    have role := (State.acts_takeResult ((s.replied g).setFarTaps g u) g ix (.ack u)).role.trans before.role
    generalize ((s.replied g).setFarTaps g u).takeResult g ix (.ack u) = w at ran does others role
    exact ⟨_, ran, (does.onward role (State.onward_arbitrate _ _)).takes, others⟩
  · obtain ⟨u, parsed, -⟩ := parseTapStatus_of_replyGood work reply
    have ran := exec_sidebandAck_exchange work reply
    have index := (parseTapStatus_lawful parsed).2
    have before := (s.replied_ended g).beforeSearch.setFarTaps (u := u)
      (by rw [index, (s.replied_ended g).hasIndex]; exact window)
    have unmoved : (if x.live then ((s.replied g).setFarTaps g u).takeResult g ix (.ack u) else (s.replied g).setFarTaps g u)
        = (s.replied g).setFarTaps g u := by
      rcases stale with orphan | idle
      · rw [orphan]; rfl
      · rw [State.takeResult_unwaited (by rw [before.search, before.winLane]; exact idle), ite_self]
    rw [State.exchangeEnds_ack _ _ parsed, reply.2.2.1, unmoved] at ran
    obtain ⟨-, -, others⟩ := (s.replied_ended g).told index window (t := (s.replied g).setFarTaps g u) (.inr rfl)
      (x.endsGrant (.ack f.item f.more f.data))
    refine ⟨_, ran, fun c => ?_, ?_, others⟩
    · rw [State.arbitrate_lane, before.search]
    · rw [State.arbitrate_state, before.state]
  · have ended := s.replied_ended g
    rcases reason with lane | value
    · have ran := exec_sidebandRefuse_exchange work reply (why := .badLane) (by rw [lane]; rfl)
      rw [State.exchangeEnds_refuse _ live, reply.2.2.1] at ran
      obtain ⟨does, taps, others⟩ := ended.fails window train searches waits attempt pos fresh (.refuse .badLane) (x.endsGrant _)
      exact ⟨_, ran, does reply.1, taps, others⟩
    · have ran := exec_sidebandRefuse_exchange work reply (why := .badValue) (by rw [value]; rfl)
      rw [State.exchangeEnds_refuse _ live, reply.2.2.1] at ran
      obtain ⟨does, taps, others⟩ := ended.fails window train searches waits attempt pos fresh (.refuse .badValue) (x.endsGrant _)
      exact ⟨_, ran, does reply.1, taps, others⟩
  · have ran := exec_sidebandRefuse_exchange work reply (why := .wrongState) (by rw [reason]; rfl)
    rw [State.exchangeEnds_refuse _ live, reply.2.2.1] at ran
    obtain ⟨does, taps, others⟩ := (s.replied_ended g).fails window train searches waits attempt pos fresh (.refuse .wrongState)
      (x.endsGrant _)
    exact ⟨_, ran, State.SearchDoes.misses does, taps, others⟩
  · have ran := exec_transactionExpiry_exchange work tx
    rw [State.exchangeEnds_expired _ live, leg] at ran
    obtain ⟨does, taps, others⟩ := (s.expired_ended x g).fails window train searches waits attempt pos fresh .failure (x.endsGrant _)
    exact ⟨_, ran, State.SearchDoes.misses does, taps, others⟩
end

