-- ==== Sys2Proof/Proofs/PostedNotices.lean ====
section
/-! SUPPORT. A posting is shown by the queue, and goes on being shown while there is room for what is posted after it (R187,
R188): what a statement that starts from an empty queue needs. -/

open Sys2Proof Sys2Proof.Machine

namespace Sys2Proof.Machine

namespace NoticeQueue

/-- The queue holds a record of the kind and the leg with these data. -/
def shows (q : NoticeQueue) (k : NoticeKind) (g : Option LegId) (data : List Byte) : Prop :=
  ∃ n ∈ q.records, n.kind = k ∧ n.leg = g ∧ n.data = data

variable {q : NoticeQueue} {k j : NoticeKind} {g o : Option LegId} {data d : List Byte} {now : Time} {n : Nat}

theorem length_post (h : q.records.length ≤ n) : (q.post k g data now).records.length ≤ n + 1 := by
  rcases (q.post_cases k g data now).2.2.2 with ⟨-, e, -⟩ | ⟨-, -, e, -⟩ | ⟨-, full, -, e, -⟩ | ⟨-, -, -, e, -⟩ <;>
    simp only [e, List.length_map, insertNotice_length, List.length_dropLast] <;> omega

/-- A posting finds its record: the one it merges into, or the one it inserts. -/
theorem shows_post (room : q.records.length < 16) : (q.post k g data now).shows k g data := by
  rcases (q.post_cases k g data now).2.2.2 with ⟨found, e, -⟩ | ⟨-, -, e, -⟩ | ⟨-, full, -⟩ | ⟨-, full, -⟩
  · obtain ⟨m, hm, same⟩ := List.any_eq_true.mp found
    have names := same
    simp only [Notice.matches, Bool.and_eq_true, beq_iff_eq] at names
    refine ⟨m.merged data now, ?_, names.1, names.2, rfl⟩
    rw [e]
    exact List.mem_map.mpr ⟨m, hm, if_pos same⟩
  · exact ⟨_, by rw [e]; exact mem_insertNotice.mpr (.inl rfl), rfl, rfl, rfl⟩
  · omega
  · omega

/-- A posting of another kind, or for another leg, leaves a record as it is. -/
theorem shows.post (h : q.shows k g data) (room : q.records.length < 16) (other : j ≠ k ∨ o ≠ g) :
    (q.post j o d now).shows k g data := by
  obtain ⟨m, hm, hk, hg, hd⟩ := h
  have spared : m.matches j o = false := by
    subst hk hg
    rcases other with ne | ne <;> simp [Notice.matches, ne.symm]
  rcases (q.post_cases j o d now).2.2.2 with ⟨-, e, -⟩ | ⟨-, -, e, -⟩ | ⟨-, full, -⟩ | ⟨-, full, -⟩
  · refine ⟨m, ?_, hk, hg, hd⟩
    rw [e]
    exact List.mem_map.mpr ⟨m, hm, by rw [spared]; rfl⟩
  · exact ⟨m, by rw [e]; exact mem_insertNotice.mpr (.inr hm), hk, hg, hd⟩
  · omega
  · omega

/-- Two postings of different kinds in turn: both are shown, and so is a record of a third kind from before. -/
theorem shows_pair {later : Time} (few : q.records.length ≤ 14) (ne : k ≠ j) :
    ((q.post k g data now).post j o d later).shows k g data ∧ ((q.post k g data now).post j o d later).shows j o d
      ∧ ∀ m p c, q.shows m p c → k ≠ m → j ≠ m → ((q.post k g data now).post j o d later).shows m p c := by
  have room : (q.post k g data now).records.length ≤ 15 := length_post few
  exact ⟨(shows_post (by omega)).post (by omega) (.inl ne.symm), shows_post (by omega),
    fun m p c h first second => (h.post (by omega) (.inl first)).post (by omega) (.inl second)⟩

/-- No record is of the kind. -/
def lacks (q : NoticeQueue) (k : NoticeKind) : Prop := ∀ n ∈ q.records, n.kind ≠ k

theorem lacks.post (h : q.lacks k) (other : j ≠ k) : (q.post j o d now).lacks k := by
  have inserted {ns : List Notice} (sub : ∀ m ∈ ns, m ∈ q.records) :
      ∀ m ∈ insertNotice ⟨j, o, q.levels[j.ix], 1, now, d⟩ ns, m.kind ≠ k := fun m hm => by
    rcases mem_insertNotice.mp hm with rfl | old
    · exact other
    · exact h m (sub m old)
  intro m hm
  rcases (q.post_cases j o d now).2.2.2 with ⟨-, e, -⟩ | ⟨-, -, e, -⟩ | ⟨-, -, -, e, -⟩ | ⟨-, -, -, e, -⟩ <;> rw [e] at hm
  · obtain ⟨p, hp, rfl⟩ := List.mem_map.mp hm
    split
    · exact h p hp
    · exact h p hp
  · exact inserted (fun _ => id) m hm
  · exact inserted (fun _ => List.mem_of_mem_dropLast) m hm
  · exact h m hm

end NoticeQueue

end Sys2Proof.Machine
end

