-- ==== Sys2Proof/Proofs/ListenEntries.lean ====
section
/-! SUPPORT. The entries to LISTEN, PROBE and FAULT (R28, R40, R45): the leg's record, the lanes, the transaction, the port and
the notices after each, and which of its three ends an entry to LISTEN comes to. -/

open Sys2Proof Sys2Proof.Machine

namespace Sys2Proof.Machine

/-- Lanes outside the leg's window stand where they stood, from s over t to u. -/
theorem State.outsideKept.trans {s t u : State} {g : LegId} (h : s.outsideKept t g) (window : t.winLanes g = s.winLanes g)
    (k : t.outsideKept u g) : s.outsideKept u g :=
  fun c hc => (k c (window ▸ hc)).trans (h c hc)

theorem State.enter_outsideKept (s : State) (g : LegId) (new : LegState) (cause : LegCause) (a : Option Nat) :
    s.outsideKept (s.enter g new cause a) g := fun c hc => by
  rw [State.enter_lane, if_neg (by simpa using hc)]

/-! ### Entry to PROBE (R28) -/

theorem State.enterProbe_leg (s : State) (g : LegId) :
    (s.enterProbe g).leg g = ((s.leg g).entered s.role .probe none s.time).push (.probe (s.ident g)) := by
  unfold State.enterProbe
  rw [State.modLeg_leg_same, State.enter_leg, if_pos rfl]

theorem State.enterProbe_lane (s : State) (g : LegId) (c : LaneId) :
    (s.enterProbe g).lane c = (s.enter g .probe .farPresent none).lane c := rfl

/-- The part but for its legs and lanes after an entry to PROBE. -/
theorem State.enterProbe_rest (s : State) (g : LegId) :
    (s.enterProbe g).role = s.role ∧ (s.enterProbe g).tx = s.tx.map (orphaned g) ∧ (s.enterProbe g).port = s.port
      ∧ (s.enterProbe g).grant = s.grant
      ∧ (s.enterProbe g).notices = s.notices.post .legState (some g) [byteOf (s.leg g).state.code, 2, 5, 0] s.time :=
  ⟨rfl, rfl, rfl, rfl, rfl⟩

/-! ### Entry to LISTEN, before the checks (R28, R45) -/

/-- An entry to LISTEN up to the HUB's check of R28 and the END's of R45. -/
def State.listened (s : State) (g : LegId) (cause : LegCause) (holdoff phase : Bool) : State :=
  let t := (s.enter g .listen cause none).flush g
  let t := t.modLeg g (fun l => { l with retrains := 0, holdoff := if holdoff then some (s.after 100000) else none })
  if phase then t.queueListen g else t

theorem State.enterListen_eq (s : State) (g : LegId) (cause : LegCause) (holdoff phase : Bool) :
    s.enterListen g cause holdoff phase = ((s.listened g cause holdoff phase).checkListen g).checkProbeWait g := rfl

/-- A leg's record after an entry to LISTEN, before the checks: flushed, with PHASE(LISTEN) alone in the queue or nothing. -/
def Leg.listening (l : Leg) (role : Role) (now : Time) (holdoff phase : Bool) : Leg :=
  { (l.entered role .listen none now).flushed with
    retrains := 0
    holdoff := if holdoff then some (now + 100000) else none
    queue := if phase then [.phase .listen 0 .l] else [] }

theorem State.listened_leg (s : State) (g : LegId) (cause : LegCause) (holdoff phase : Bool) :
    (s.listened g cause holdoff phase).leg g = (s.leg g).listening s.role s.time holdoff phase := by
  unfold State.listened
  cases phase <;>
    simp only [Bool.false_eq_true, if_true, if_false, State.queueListen, State.modLeg_leg_same, State.flush_leg, State.enter_leg] <;>
    rfl

theorem State.acts_listened (s : State) (g : LegId) (cause : LegCause) (holdoff phase : Bool) :
    s.Acts g (s.listened g cause holdoff phase) := by
  have told : s.Acts g (((s.enter g .listen cause none).flush g).modLeg g (fun l =>
      { l with retrains := 0, holdoff := if holdoff then some (s.after 100000) else none })) :=
    .after (State.acts_retrains _ g 0 (Nat.zero_le 3) _) (.after (State.acts_flush _ g) (s.acts_enter g _ _ _))
  exact .ite (told.trans (State.acts_queueListen _ g)) told

theorem State.listened_lane (s : State) (g : LegId) (cause : LegCause) (holdoff phase : Bool) (c : LaneId) :
    (s.listened g cause holdoff phase).lane c = (s.enter g .listen cause none).lane c := by
  unfold State.listened
  cases phase <;> simp [State.queueListen]

theorem State.listened_tx (s : State) (g : LegId) (cause : LegCause) (holdoff phase : Bool) :
    (s.listened g cause holdoff phase).tx = s.tx.map (orphaned g) := by
  unfold State.listened
  cases phase <;> simp [State.queueListen]

theorem State.listened_notices (s : State) (g : LegId) (cause : LegCause) (holdoff phase : Bool) :
    (s.listened g cause holdoff phase).notices
      = s.notices.post .legState (some g) [byteOf (s.leg g).state.code, 1, byteOf cause.code, 0] s.time := by
  unfold State.listened
  cases phase <;> simp [State.queueListen, State.enter_notices, LegState.code, byteOf]

theorem State.listened_port {s : State} (h : s.port.slot.any (fun q => q.kind == farReadKind) = false) (g : LegId)
    (cause : LegCause) (holdoff phase : Bool) : (s.listened g cause holdoff phase).port = s.port := by
  have flushed := State.flush_port (s := s.enter g .listen cause none) h g
  unfold State.listened
  cases phase <;> exact flushed

theorem State.listened_resp (s : State) (g : LegId) (cause : LegCause) (holdoff phase : Bool) :
    (s.listened g cause holdoff phase).resp
      = if s.isHub then s.resp else (s.resp.entered (s.leg g).state .listen s.time).withoutBeat := by
  have flushed : ((s.enter g .listen cause none).flush g).resp
      = if s.isHub then s.resp else (s.resp.entered (s.leg g).state .listen s.time).withoutBeat := by
    rw [State.flush_resp, State.enter_resp, show (s.enter g .listen cause none).isHub = s.isHub from rfl]
    split <;> rfl
  unfold State.listened
  cases phase <;> exact flushed

/-- Scanning goes on in LISTEN, so the lanes are seen as they were (R13). -/
theorem State.listened_allPresent (s : State) (g : LegId) (cause : LegCause) (holdoff phase : Bool) :
    (s.listened g cause holdoff phase).allPresent g = s.allPresent g := by
  have presence (c : LaneId) : ((s.listened g cause holdoff phase).lane c).presence = (s.lane c).presence := by
    rw [State.listened_lane]
    exact (s.enter_presenceKept g rfl cause none c).1
  unfold State.allPresent
  simp only [presence, (s.acts_listened g cause holdoff phase).window, (s.acts_listened g cause holdoff phase).winLanes]

/-! ### The ends of an entry to LISTEN (R28, R45) -/

section
variable {s : State} {g : LegId}

theorem State.checkListen_probes (hub : s.isHub) (listen : (s.leg g).state = .listen) (ended : (s.leg g).holdoff = none)
    (present : s.allPresent g) : s.checkListen g = s.enterProbe g := if_pos ⟨hub, listen, ended, present⟩

theorem State.checkListen_stays (h : s.isHub = false ∨ (s.leg g).holdoff ≠ none ∨ s.allPresent g = false) :
    s.checkListen g = s := by
  refine if_neg fun k => ?_
  obtain ⟨hub, -, ended, present⟩ := k
  rcases h with h | h | h
  · rw [h] at hub; cases hub
  · exact h ended
  · rw [h] at present; cases present

theorem State.checkProbeWait_stays (h : s.isHub ∨ s.allPresent g = false) : s.checkProbeWait g = s := by
  refine if_neg fun k => ?_
  obtain ⟨atEnd, -, present⟩ := k
  rcases h with h | h
  · rw [h] at atEnd; cases atEnd
  · rw [h] at present; cases present

theorem State.checkProbeWait_waits (atEnd : s.isHub = false) (listen : (s.leg g).state = .listen) (present : s.allPresent g) :
    s.checkProbeWait g = s.modLeg g (fun l => { l with probeWait := some (s.after 500000) }) :=
  if_pos ⟨atEnd, listen, present⟩

variable (cause : LegCause) (holdoff phase : Bool)

theorem State.listened_isHub : (s.listened g cause holdoff phase).isHub = s.isHub := (s.acts_listened g cause holdoff phase).isHub

theorem State.listened_state : ((s.listened g cause holdoff phase).leg g).state = .listen := by rw [State.listened_leg]; rfl

theorem State.listened_holdoff :
    ((s.listened g cause holdoff phase).leg g).holdoff = if holdoff then some (s.time + 100000) else none := by
  rw [State.listened_leg]; rfl

/-- The entry ends there: a HUB waits for its holdoff or a lane, an END for a lane. -/
theorem State.enterListen_stays (h : (s.isHub ∧ holdoff) ∨ s.allPresent g = false) :
    s.enterListen g cause holdoff phase = s.listened g cause holdoff phase := by
  rw [State.enterListen_eq, State.checkListen_stays, State.checkProbeWait_stays]
  · rw [State.listened_isHub, State.listened_allPresent]
    exact h.imp And.left id
  · rw [State.listened_holdoff, State.listened_allPresent]
    rcases h with ⟨-, on⟩ | absent
    · exact .inr (.inl (by rw [if_pos on]; exact Option.some_ne_none _))
    · exact .inr (.inr absent)

/-- A HUB that sees every lane and runs no holdoff goes on to PROBE (R28). -/
theorem State.enterListen_probes (hub : s.isHub) (present : s.allPresent g) :
    s.enterListen g cause false phase = (s.listened g cause false phase).enterProbe g := by
  have hub' := (State.listened_isHub (s := s) (g := g) cause false phase).trans hub
  rw [State.enterListen_eq, State.checkListen_probes hub' (State.listened_state cause false phase)
    (State.listened_holdoff cause false phase) (by rw [State.listened_allPresent]; exact present)]
  exact State.checkProbeWait_stays (.inl hub')

/-- An END that sees every lane waits for a PROBE (R45). -/
theorem State.enterListen_waits (atEnd : s.isHub = false) (present : s.allPresent g) :
    s.enterListen g cause holdoff phase
      = (s.listened g cause holdoff phase).modLeg g (fun l => { l with probeWait := some (s.after 500000) }) := by
  have atEnd' := (State.listened_isHub (s := s) (g := g) cause holdoff phase).trans atEnd
  have time : (s.listened g cause holdoff phase).time = s.time := (s.acts_listened g cause holdoff phase).time
  have seen : (s.listened g cause holdoff phase).allPresent g := by rw [State.listened_allPresent]; exact present
  rw [State.enterListen_eq, State.checkListen_stays (.inl atEnd'),
    State.checkProbeWait_waits atEnd' (State.listened_state cause holdoff phase) seen]
  simp only [State.after, time]

/-- An entry to LISTEN comes to one of three ends. -/
theorem State.enterListen_cases :
    s.enterListen g cause holdoff phase = s.listened g cause holdoff phase
      ∨ (s.isHub ∧ holdoff = false ∧ s.enterListen g cause holdoff phase = (s.listened g cause holdoff phase).enterProbe g)
      ∨ (s.isHub = false ∧ s.enterListen g cause holdoff phase
          = (s.listened g cause holdoff phase).modLeg g (fun l => { l with probeWait := some (s.after 500000) })) := by
  cases present : s.allPresent g with
  | false => exact .inl (State.enterListen_stays cause holdoff phase (.inr present))
  | true =>
    cases hub : s.isHub with
    | false => exact .inr (.inr ⟨rfl, State.enterListen_waits cause holdoff phase hub present⟩)
    | true =>
      cases holdoff with
      | true => exact .inl (State.enterListen_stays cause true phase (.inl ⟨hub, rfl⟩))
      | false => exact .inr (.inl ⟨rfl, rfl, State.enterListen_probes cause phase hub present⟩)

theorem State.enterListen_outsideKept : s.outsideKept (s.enterListen g cause holdoff phase) g := by
  have stays : s.outsideKept (s.listened g cause holdoff phase) g := fun c hc => by
    rw [State.listened_lane]
    exact s.enter_outsideKept g .listen cause none c hc
  rcases State.enterListen_cases (s := s) (g := g) cause holdoff phase with e | ⟨-, -, e⟩ | ⟨-, e⟩ <;> rw [e]
  · exact stays
  · exact stays.trans (s.acts_listened g cause holdoff phase).winLanes (State.enter_outsideKept _ g .probe .farPresent none)
  · exact stays

end

/-! ### Entry to FAULT (R40) -/

section
variable {s : State} {g : LegId} (off : (s.leg g).state ≠ .off) (fault : (s.leg g).state ≠ .fault) (why : FaultReason)
include off fault

theorem State.enterFault_eq : s.enterFault g why
    = (((s.enter g .fault .faultEntry none).modLeg g (fun l =>
        { l with lastFault := why, faultCount := min 255 (l.faultCount + 1) })).flush g).post .legFault (some g)
          [byteOf why.code, byteOf (min 255 ((s.leg g).faultCount + 1)), byteOf (s.leg g).state.code] := by
  unfold State.enterFault
  dsimp only
  rw [if_neg (not_or.mpr ⟨off, fault⟩), State.flush_leg, if_pos rfl, State.modLeg_leg_same, State.enter_leg, if_pos rfl]
  rfl

theorem State.enterFault_tx : (s.enterFault g why).tx = s.tx.map (orphaned g) := by
  rw [State.enterFault_eq off fault]; simp

theorem State.enterFault_notices : (s.enterFault g why).notices
    = (s.notices.post .legState (some g) [byteOf (s.leg g).state.code, 10, 24, 0] s.time).post .legFault (some g)
        [byteOf why.code, byteOf (min 255 ((s.leg g).faultCount + 1)), byteOf (s.leg g).state.code] s.time := by
  rw [State.enterFault_eq off fault]
  simp [State.enter_notices, LegState.code, LegCause.code, byteOf]

end

theorem State.enterFault_outsideKept (s : State) (g : LegId) (why : FaultReason) : s.outsideKept (s.enterFault g why) g := by
  by_cases idle : (s.leg g).state = .off ∨ (s.leg g).state = .fault
  · rw [show s.enterFault g why = s from if_pos idle]
    exact fun _ _ => rfl
  · obtain ⟨off, fault⟩ := not_or.mp idle
    rw [State.enterFault_eq off fault]
    intro c hc
    rw [State.post_lane, State.flush_lane, State.modLeg_lane]
    exact s.enter_outsideKept g .fault .faultEntry none c hc

end Sys2Proof.Machine
end

