-- ==== Sys2Proof/Proofs/LegLifetimes.lean ====
section
/-! SUPPORT. The lifetimes of leg fields and timers (R21, R24, R45, R136) under the operations of the leg controller: an entry
establishes them, an update that keeps a leg's state and starts nothing keeps them (`Leg.NoLonger`), and the updates that do start
something come right after an entry to a state that allows it. -/

open Sys2Proof Sys2Proof.Machine

namespace Sys2Proof.Machine

/-! ### One leg's record -/

/-- The fields of a leg whose lifetimes the leg's state and role decide outright. -/
def Leg.lives (l : Leg) :
    LegState × Option Nat × Option Rate × Option Ident × Option Time × Bool :=
  (l.state, l.attempt, l.negRate, l.farId, l.upSince, l.keepalive.isSome)

/-- Nothing in m lives that does not live in l: the state and the fields tied to it are the same, and a flag or timer of m is
set or running only where it is in l. -/
structure Leg.NoLonger (l m : Leg) : Prop where
  lives : m.lives = l.lives
  lost : m.sbLost = true → l.sbLost = true
  deadline : m.deadline.isSome → l.deadline.isSome
  holdoff : m.holdoff.isSome → l.holdoff.isSome
  probeWait : m.probeWait.isSome → l.probeWait.isSome

theorem Leg.NoLonger.refl (l : Leg) : l.NoLonger l := ⟨rfl, id, id, id, id⟩

theorem Leg.NoLonger.of_apart {l m : Leg} (h : m.apart = l.apart) : l.NoLonger m := by
  have field {α : Type} (f : Leg → α) (apart : ∀ l : Leg, f l.apart = f l) : f m = f l := Leg.field_of_apart h f apart
  refine ⟨field Leg.lives fun _ => rfl, ?_, ?_, ?_, ?_⟩
  · rw [field Leg.sbLost fun _ => rfl]; exact id
  · rw [field Leg.deadline fun _ => rfl]; exact id
  · rw [field Leg.holdoff fun _ => rfl]; exact id
  · rw [field Leg.probeWait fun _ => rfl]; exact id

theorem Leg.Requeued.noLonger {l m : Leg} (h : l.Requeued m) : l.NoLonger m := .of_apart h.apart

namespace Leg.LifetimesOk

variable {role : Role} {l m : Leg}

theorem noLonger (ok : l.LifetimesOk role) (h : l.NoLonger m) : m.LifetimesOk role := by
  obtain ⟨attempt, quiet, deadline, holdoff, probeWait, keepalive⟩ := ok
  have lives := h.lives
  simp only [Leg.lives, Prod.mk.injEq] at lives
  obtain ⟨state, attempt', negRate, farId, upSince, alive⟩ := lives
  unfold Leg.LifetimesOk
  rw [state, attempt', negRate, farId, upSince, alive]
  refine ⟨attempt, fun q => ?_, fun k => deadline (h.deadline k), fun k => holdoff (h.holdoff k),
    fun k => probeWait (h.probeWait k), keepalive⟩
  obtain ⟨rate, far, up, lost⟩ := quiet q
  exact ⟨rate, far, up, Bool.eq_false_iff.mpr fun k => Bool.eq_false_iff.mp lost (h.lost k)⟩

/-- An entry with a lawful attempt establishes the lifetimes, on those of before for the keepalive timer (R21, R22, R136). -/
theorem entered (ok : l.LifetimesOk role) {new : LegState} {a : Option Nat} (now : Time)
    (attempt : ∀ n, a = some n → new.attempting ∧ 1 ≤ n ∧ n ≤ 4) : (l.entered role new a now).LifetimesOk role := by
  obtain ⟨-, -, -, -, -, keepalive⟩ := ok
  refine ⟨attempt, fun quiet => ?_, fun k => (nomatch k), fun k => (nomatch k), fun k => (nomatch k), ?_⟩
  · replace quiet : new.quiet = true := quiet
    simp [Leg.entered, quiet]
  · simp only [Leg.entered]
    by_cases runs : role = .hubRole ∧ new.keepsAlive = true
    · by_cases ran : l.state.keepsAlive = true
      · simpa [runs, ran] using keepalive.mpr ⟨runs.1, ran⟩
      · simp [runs, ran]
    · simp [runs]

/-- Outside OFF, LISTEN and FAULT the rate, the identity, up since and the sideband flag may be anything (R21). -/
theorem setAwake (ok : l.LifetimesOk role) (awake : l.state.quiet = false) (rate : Option Rate) (far : Option Ident)
    (up : Option Time) (lost : Bool) :
    ({ l with negRate := rate, farId := far, upSince := up, sbLost := lost } : Leg).LifetimesOk role := by
  obtain ⟨attempt, -, rest⟩ := ok
  refine ⟨attempt, fun quiet => ?_, rest⟩
  rw [show l.state.quiet = true from quiet] at awake
  cases awake

/-- An attempt may run a deadline (R24). -/
theorem setDeadline (ok : l.LifetimesOk role) (state : l.state.attempting) (due : Option Time) :
    ({ l with deadline := due } : Leg).LifetimesOk role := by
  obtain ⟨attempt, quiet, -, rest⟩ := ok
  exact ⟨attempt, quiet, fun _ => state, rest⟩

/-- LISTEN may run a holdoff and a probe wait (R24, R45). -/
theorem setWaits (ok : l.LifetimesOk role) (listen : l.state = .listen) (holdoff probeWait : Option Time) :
    ({ l with holdoff := holdoff, probeWait := probeWait } : Leg).LifetimesOk role := by
  obtain ⟨attempt, quiet, deadline, -, -, keepalive⟩ := ok
  exact ⟨attempt, quiet, deadline, fun _ => listen, fun _ => listen, keepalive⟩

/-- A leg's own attempt number goes from phase to phase of an attempt (R33, R34). -/
theorem attempt_goesOn (ok : l.LifetimesOk role) {new : LegState} (state : new.attempting) (n : Nat) (h : l.attempt = some n) :
    new.attempting ∧ 1 ≤ n ∧ n ≤ 4 := ⟨state, (ok.1 n h).2⟩

end Leg.LifetimesOk

/-! ### Ways to compose -/

/-- The step from s to t keeps the lifetimes of every leg. -/
def State.Lasts (s t : State) : Prop := s.LifetimesOk → t.LifetimesOk

namespace State.Lasts

variable {s t u : State} {g : LegId}

theorem refl (s : State) : s.Lasts s := id

theorem trans (h : s.Lasts t) (k : t.Lasts u) : s.Lasts u := k ∘ h

/-- `State.Lasts.trans` with the last operation first. -/
theorem after (k : t.Lasts u) (h : s.Lasts t) : s.Lasts u := h.trans k

theorem ite {p : Prop} [Decidable p] (h : s.Lasts t) (k : s.Lasts u) : s.Lasts (if p then t else u) := by
  split
  · exact h
  · exact k

theorem of_noLonger (role : t.role = s.role) (legs : ∀ k, (s.leg k).NoLonger (t.leg k)) : s.Lasts t :=
  fun ok k => role ▸ (ok k).noLonger (legs k)

/-- An operation that leaves role and legs alone. -/
theorem of_eq (role : t.role = s.role) (legs : t.legs = s.legs) : s.Lasts t :=
  .of_noLonger role fun k => by rw [show t.leg k = s.leg k from by simp [State.leg, legs]]; exact .refl _

/-- An operation of leg g's controller, with what it does to its own leg's lifetimes. -/
theorem of_frame (frame : s.LegFrame g t) (own : (s.leg g).LifetimesOk s.role → (t.leg g).LifetimesOk s.role) : s.Lasts t := by
  intro ok k
  rw [frame.role]
  by_cases h : k = g
  · rw [h]; exact own (ok g)
  · rw [frame.others k h]; exact ok k

end State.Lasts

theorem State.lasts_modLeg {s : State} {g : LegId} {f : Leg → Leg}
    (own : (s.leg g).LifetimesOk s.role → (f (s.leg g)).LifetimesOk s.role) : s.Lasts (s.modLeg g f) := by
  intro ok k
  rw [State.modLeg_leg]
  split
  · exact own (ok g)
  · exact ok k

/-- A leg's record changes, and nothing lives longer. -/
theorem State.lasts_setLeg (s : State) (g : LegId) (f : Leg → Leg) (h : ∀ l : Leg, l.NoLonger (f l)) : s.Lasts (s.modLeg g f) :=
  State.lasts_modLeg fun ok => ok.noLonger (h _)

theorem State.lasts_requeue (s : State) (g : LegId) (f : Leg → Leg) (h : ∀ l : Leg, l.Requeued (f l)) : s.Lasts (s.modLeg g f) :=
  s.lasts_setLeg g f fun l => (h l).noLonger

theorem State.lasts_modLane (s : State) (c : LaneId) (f : Lane → Lane) : s.Lasts (s.modLane c f) := .of_eq rfl rfl

theorem State.lasts_post (s : State) (k : NoticeKind) (o : Option LegId) (data : List Byte) : s.Lasts (s.post k o data) :=
  .of_eq rfl rfl

theorem State.lasts_reply (s : State) (st : Status) (payload : List Byte) : s.Lasts (s.reply st payload) := .of_eq rfl rfl

theorem State.lasts_setTx (s : State) (x : Option Transaction) : s.Lasts { s with tx := x } := .of_eq rfl rfl

theorem State.lasts_setResp (s : State) (r : Responder) : s.Lasts { s with resp := r } := .of_eq rfl rfl

theorem State.lasts_farReadDone (s : State) (st : Status) (payload : List Byte) : s.Lasts (s.farReadDone st payload) := by
  rcases s.farReadDone_cases st payload with e | e <;> rw [e]
  · exact .refl s
  · exact s.lasts_reply st payload

theorem State.lasts_arbitrate (s : State) (ends : Bool) : s.Lasts (s.arbitrate ends) :=
  .of_noLonger (s.arbitrate_role ends) fun k => .of_apart (s.arbitrate_apart ends k)

/-! ### Entries (R22, R28 to R40) -/

theorem State.lasts_enter {s : State} {g : LegId} {new : LegState} (cause : LegCause) {a : Option Nat}
    (attempt : (s.leg g).LifetimesOk s.role → ∀ n, a = some n → new.attempting ∧ 1 ≤ n ∧ n ≤ 4) :
    s.Lasts (s.enter g new cause a) :=
  .of_frame (s.enter_legFrame g new cause a) fun ok => by
    rw [State.enter_leg, if_pos rfl]
    exact ok.entered s.time (attempt ok)

/-- An entry that carries no attempt number. -/
theorem State.lasts_enterIdle (s : State) (g : LegId) (new : LegState) (cause : LegCause) : s.Lasts (s.enter g new cause none) :=
  State.lasts_enter cause fun _ _ h => nomatch h

theorem State.lasts_queuePhase (s : State) (g : LegId) (st : PhaseState) (n : Nat) : s.Lasts (s.queuePhase g st n) :=
  s.lasts_requeue g _ fun l => l.queuePhase_requeued st n _

theorem State.lasts_enterProbe (s : State) (g : LegId) : s.Lasts (s.enterProbe g) :=
  .after (State.lasts_requeue _ g (fun l => l.push (.probe (s.ident g))) fun l => l.push_requeued _) (s.lasts_enterIdle g _ _)

theorem State.lasts_checkListen (s : State) (g : LegId) : s.Lasts (s.checkListen g) := .ite (s.lasts_enterProbe g) (.refl s)

theorem State.lasts_checkProbeWait (s : State) (g : LegId) : s.Lasts (s.checkProbeWait g) := by
  unfold State.checkProbeWait
  split
  · rename_i h
    exact State.lasts_modLeg fun ok => ok.setWaits h.2.1 _ _
  · exact .refl s

theorem State.lasts_listened (s : State) (g : LegId) (cause : LegCause) (holdoff phase : Bool) :
    s.Lasts (s.listened g cause holdoff phase) :=
  .of_frame (s.acts_listened g cause holdoff phase).toLegFrame fun ok => by
    rw [State.listened_leg]
    have entered := ok.entered (new := .listen) (a := none) s.time fun _ h => (nomatch h)
    exact (entered.setWaits rfl (if holdoff then some (s.time + 100000) else none) none).noLonger ⟨rfl, id, id, id, id⟩

theorem State.lasts_enterListen (s : State) (g : LegId) (cause : LegCause) (holdoff phase : Bool) :
    s.Lasts (s.enterListen g cause holdoff phase) :=
  .after (State.lasts_checkProbeWait _ g) (.after (State.lasts_checkListen _ g) (s.lasts_listened g cause holdoff phase))

theorem State.lasts_enterFault (s : State) (g : LegId) (why : FaultReason) : s.Lasts (s.enterFault g why) := by
  by_cases idle : (s.leg g).state = .off ∨ (s.leg g).state = .fault
  · rw [show s.enterFault g why = s from if_pos idle]
    exact .refl s
  · obtain ⟨off, fault⟩ := not_or.mp idle
    refine .of_frame (s.acts_enterFault g why).toLegFrame fun ok => ?_
    rw [State.enterFault_leg off fault]
    exact (ok.entered (new := .fault) (a := none) s.time fun _ h => (nomatch h)).noLonger ⟨rfl, id, id, id, id⟩

theorem State.lasts_enterTrain (s : State) (g : LegId) (cause : LegCause) {n : Nat} (pos : 1 ≤ n) (last : n ≤ 4) :
    s.Lasts (s.enterTrain g cause n) :=
  .of_frame (s.acts_enterTrain g cause n).toLegFrame fun ok => by
    have entered := ok.entered (new := .train) (a := some n) s.time fun _ h => by cases h; exact ⟨rfl, pos, last⟩
    have begun := (entered.setDeadline rfl (some (s.time + 250000))).noLonger
      (m := { (s.leg g).entered s.role .train (some n) s.time with
        errCount := 0, resume := if n = 1 then false else (s.leg g).resume, deadline := some (s.time + 250000) })
      ⟨rfl, id, id, id, id⟩
    exact begun.noLonger (.of_apart (s.enterTrain_apart g cause n))

theorem State.lasts_enterAdapt (s : State) (g : LegId) : s.Lasts (s.enterAdapt g) :=
  .of_frame (s.acts_enterAdapt g).toLegFrame fun ok => by
    rw [State.enterAdapt_leg, State.beforeAdapt_leg]
    have entered := ok.entered (new := .adapt) s.time (ok.attempt_goesOn rfl)
    have told := entered.noLonger (Leg.queuePhase_requeued _ .adapt ((s.leg g).attempt.getD 0) (s.leg g).phaseRate).noLonger
    exact (told.setDeadline (by rw [(Leg.queuePhase_requeued _ _ _ _).state]; rfl) (some (s.time + 20000))).noLonger
      ⟨rfl, id, id, id, id⟩

theorem State.lasts_enterVerify (s : State) (g : LegId) : s.Lasts (s.enterVerify g) :=
  .of_frame (s.acts_enterVerify g).toLegFrame fun ok => by
    rw [State.enterVerify_leg]
    have entered := ok.entered (new := .verify) s.time (ok.attempt_goesOn rfl)
    have told := entered.noLonger (Leg.queuePhase_requeued _ .verify ((s.leg g).attempt.getD 0) (s.leg g).phaseRate).noLonger
    exact (told.setDeadline (by rw [(Leg.queuePhase_requeued _ _ _ _).state]; rfl) (some (s.time + 40000))).noLonger
      ⟨rfl, id, id, id, id⟩

theorem State.lasts_enterUp (s : State) (g : LegId) : s.Lasts (s.enterUp g) :=
  .of_frame (s.acts_enterUp g).toLegFrame fun ok => by
    rw [State.enterUp_leg]
    have entered := ok.entered (new := .up) (a := none) s.time fun _ h => (nomatch h)
    exact (entered.setAwake rfl _ _ (some s.time) _).noLonger (Leg.queuePhase_requeued _ .run 0 _).noLonger

theorem State.lasts_attemptFails (s : State) (g : LegId) (cause : LegCause) : s.Lasts (s.attemptFails g cause) := by
  unfold State.attemptFails
  dsimp only
  split
  · exact s.lasts_enterTrain g cause (by decide) (by decide)
  · split
    · rename_i more
      exact s.lasts_enterTrain g cause (Nat.le_add_left 1 _) more
    · exact s.lasts_enterFault g _

theorem State.lasts_retrain (s : State) (g : LegId) : s.Lasts (s.retrain g) :=
  .ite (.after (State.lasts_enterTrain _ g _ (by decide) (by decide)) (s.lasts_setLeg g _ fun _ => ⟨rfl, id, id, id, id⟩))
    (s.lasts_enterFault g _)

theorem State.lasts_decideVerify (s : State) (g : LegId) : s.Lasts (s.decideVerify g).1 := by
  unfold State.decideVerify
  split
  · exact .ite (s.lasts_enterUp g) (s.lasts_attemptFails g _)
  · exact .refl s

theorem State.lasts_checkTrained (s : State) (g : LegId) : s.Lasts (s.checkTrained g).1 := by
  unfold State.checkTrained
  split
  · exact s.lasts_enterAdapt g
  · exact .refl s

/-! ### The training engine's results (R66 to R85) -/

theorem State.lasts_laneFails (s : State) (g : LegId) : s.Lasts (s.laneFails g).1 := by
  unfold State.laneFails
  split
  · exact s.lasts_attemptFails g _
  · exact .refl s

theorem State.lasts_laneDone (s : State) (g : LegId) (c : LaneId) : s.Lasts (s.laneDone g c).1 := by
  unfold State.laneDone
  split
  · exact s.lasts_laneFails g
  · split
    · split
      · exact .after (State.lasts_checkTrained _ g) (s.lasts_setLeg g _ fun _ => ⟨rfl, id, id, id, id⟩)
      · exact s.lasts_requeue g _ fun l => l.queueReport_requeued _
    · exact .refl s

theorem State.lasts_searchOut (s : State) (g : LegId) (i : WinIx) (o : SearchOut) : s.Lasts (s.searchOut g i o).1 := by
  cases o with
  | quiet => exact .refl s
  | send q => exact s.lasts_requeue g _ fun l => l.sendRequest_requeued _ _ _
  | finished => exact s.lasts_laneDone g _
  | failed => exact s.lasts_laneFails g

theorem State.lasts_moveSearch (s : State) (g : LegId) (i : WinIx) (f : Search → Search × SearchOut) :
    s.Lasts (s.moveSearch g i f).1 := by
  unfold State.moveSearch
  split
  · exact .refl s
  · exact .after (State.lasts_searchOut _ g i _) (s.lasts_modLane _ _)

theorem State.lasts_takeResult (s : State) (g : LegId) (i : WinIx) (res : ReqResult) : s.Lasts (s.takeResult g i res) :=
  .ite (.trans (t := (s.moveSearch g i _).1) (s.lasts_moveSearch g i _) (.of_eq rfl rfl)) (.refl s)

theorem State.lasts_reportAdapt (s : State) (g : LegId) (i : WinIx) (m : Nat) (r : Int) : s.Lasts (s.reportAdapt g i m r).1 := by
  unfold State.reportAdapt
  split
  · exact .refl s
  · rename_i v _
    have moved : s.Lasts (s.modLeg g (fun l => { l with adapt := some (v.set i.val (v[i].onReport m).1 i.isLt) })) :=
      s.lasts_setLeg g _ fun _ => ⟨rfl, id, id, id, id⟩
    have measured (f : Lane → Lane) := moved.trans (State.lasts_modLane _ (s.winLane g i) f)
    dsimp only
    split
    · exact moved
    · exact measured _
    · split
      · exact (measured _).trans (State.lasts_laneFails _ g)
      · exact measured _
    · split
      · exact (measured _).trans (State.lasts_enterVerify _ g)
      · exact measured _

theorem State.lasts_reportVerify (s : State) (g : LegId) (i : WinIx) (bad : Bool) : s.Lasts (s.reportVerify g i bad).1 := by
  unfold State.reportVerify
  split
  · exact .refl s
  · rename_i v _
    have moved : s.Lasts (s.modLeg g (fun l => { l with verify := some (v.set i.val (v[i].onReport bad) i.isLt) })) :=
      s.lasts_setLeg g _ fun _ => ⟨rfl, id, id, id, id⟩
    dsimp only
    split
    · split
      · exact .after (State.lasts_decideVerify _ g) (.after (State.lasts_setLeg _ g _ fun _ => ⟨rfl, id, id, id, id⟩) moved)
      · exact moved.trans (State.lasts_requeue _ g _ fun l => l.queueReport_requeued _)
    · exact moved

theorem State.lasts_handReport (s : State) (g : LegId) (c : LaneId) (rep : Report) : s.Lasts (s.handReport g c rep).1 := by
  unfold State.handReport
  split
  · exact .refl s
  · split
    · exact s.lasts_moveSearch g _ _
    · exact s.lasts_reportAdapt g _ _ _
    · exact s.lasts_reportVerify g _ _
    · exact s.lasts_modLane c _
    · exact s.lasts_modLane c _
    · exact .refl s

/-! ### Link health (R93 to R101) -/

theorem State.lasts_checkHealth (s : State) (g : LegId) : s.Lasts (s.checkHealth g) :=
  .ite (.after (State.lasts_post _ _ _ _) (s.lasts_enterIdle g _ _)) (.ite (s.lasts_enterIdle g _ _) (.refl s))

theorem State.lasts_countHealth (s : State) (g : LegId) (bad : Bool) : s.Lasts (s.countHealth g bad) := by
  have counted (n : Nat) : s.Lasts (s.modLeg g (fun l => { l with errCount := n })) :=
    s.lasts_setLeg g _ fun _ => ⟨rfl, id, id, id, id⟩
  unfold State.countHealth State.counterTop
  split
  · exact (counted _).trans (State.lasts_checkHealth _ g)
  · exact .ite ((counted 0).trans (State.lasts_retrain _ g))
      ((counted 0).trans (State.lasts_requeue _ g _ Leg.queueRetrain_requeued))

theorem State.lasts_joinSet (s : State) (g : LegId) (c : LaneId) (rep : Report) : s.Lasts (s.joinSet g c rep) := by
  have emptied (merit : Nat) : s.Lasts (s.emptied g merit) := s.lasts_setLeg g _ fun _ => ⟨rfl, id, id, id, id⟩
  rcases s.joinSet_cases g c rep with e | ⟨merit, e⟩ | ⟨merit, isBad, e⟩ <;> rw [e]
  · exact s.lasts_setLeg g _ fun _ => ⟨rfl, id, id, id, id⟩
  · exact emptied merit
  · exact (emptied merit).trans (State.lasts_countHealth _ g isBad)

theorem State.lasts_takeReport (s : State) (g : LegId) (c : LaneId) (rep : Report) : s.Lasts (s.takeReport g c rep) := by
  have handed := (s.lasts_modLane c (fun l => { l with report := some rep, merit := rep.merit })).trans
    (State.lasts_handReport _ g c rep)
  exact .ite handed (handed.trans (State.lasts_joinSet _ g c rep))

/-! ### Presence (R13 to R15, R28, R38, R44, R45, R117) -/

theorem State.lasts_wakeEvent (s : State) (g : LegId) (c : LaneId) : s.Lasts (s.wakeEvent g c) := by
  have woken : s.Lasts ((s.modLeg g (fun l => { l with wakePending := true })).post .wake (some g)
      [byteOf c.val, boolByte (s.leg g).autoWake]) :=
    .after (State.lasts_post _ _ _ _) (s.lasts_setLeg g _ fun _ => ⟨rfl, id, id, id, id⟩)
  exact .ite (woken.trans (State.lasts_enterListen _ g _ _ _)) woken

theorem State.lasts_lanePresent (s : State) (g : LegId) (c : LaneId) : s.Lasts (s.lanePresent g c) := by
  unfold State.lanePresent
  split
  · exact .after (State.lasts_checkProbeWait _ g) (s.lasts_checkListen g)
  · exact s.lasts_wakeEvent g c
  · exact .refl s

theorem State.lasts_hubSignalLoss (s : State) (g : LegId) : s.Lasts (s.hubSignalLoss g) := by
  unfold State.hubSignalLoss
  split
  case h_8 => exact .refl s
  all_goals exact s.lasts_enterListen g _ _ _

theorem State.lasts_endSignalLoss (s : State) (g : LegId) : s.Lasts (s.endSignalLoss g) := by
  unfold State.endSignalLoss
  split
  · exact .refl s
  · exact .refl s
  · exact .refl s
  · exact s.lasts_setLeg g _ fun _ => ⟨rfl, id, id, id, fun k => nomatch k⟩
  · exact s.lasts_enterListen g _ _ _

theorem State.lasts_takeReading (s : State) (g : LegId) (c : LaneId) (signal : Bool) : s.Lasts (s.takeReading g c signal) := by
  have change (t : State) (p : Presence) : t.Lasts (t.presenceChange g c p) := by
    cases p with
    | present => exact t.lasts_lanePresent g c
    | absent => exact .ite (t.lasts_hubSignalLoss g) (t.lasts_endSignalLoss g)
  exact .ite (s.lasts_modLane c _) (.ite (s.lasts_modLane c _) (.after (change _ _) (s.lasts_modLane c _)))

/-! ### Probing, sideband loss and refusals (R29, R30, R39, R40, R44) -/

theorem State.lasts_probeAck (s : State) (g : LegId) (d : Ident) : s.Lasts (s.probeAck g d) := by
  unfold State.probeAck
  split
  · exact .refl s
  · rename_i h
    have probe : (s.leg g).state = .probe := Decidable.not_not.mp h
    refine .ite (s.lasts_enterFault g _) (.ite (s.lasts_enterFault g _) ?_)
    split
    · exact s.lasts_enterFault g _
    · rename_i cap _
      have told : s.Lasts (s.modLeg g (fun l => { l with farId := some d, negRate := some (l.rateCap.lower cap) })) :=
        State.lasts_modLeg fun ok => ok.setAwake (by rw [probe]; rfl) _ _ _ _
      refine .after (State.lasts_enterTrain _ g _ (by decide) (by decide)) ?_
      exact .ite told (told.trans (State.lasts_post _ _ _ _))

theorem State.lasts_listenLost (s : State) (g : LegId) (cause : LegCause) (holdoff phase : Bool) :
    s.Lasts ((s.enterListen g cause holdoff phase).post .sidebandLost (some g) []) :=
  (s.lasts_enterListen g cause holdoff phase).trans (State.lasts_post _ _ _ _)

theorem State.lasts_probeFailed (s : State) (g : LegId) : s.Lasts (s.probeFailed g) :=
  .ite (.refl s) (s.lasts_listenLost g _ _ _)

/-- The sideband lost flag is set in a state that may hold it (R21, R39). -/
theorem State.lasts_markLost {s : State} {g : LegId} {st : LegState} (state : (s.leg g).state = st) (awake : st.quiet = false) :
    s.Lasts ((s.modLeg g (fun l => { l with sbLost := true })).post .sidebandLost (some g) []) :=
  .after (State.lasts_post _ _ _ _) (State.lasts_modLeg fun ok => ok.setAwake (by rw [state]; exact awake) _ _ _ true)

theorem State.lasts_sidebandLost (s : State) (g : LegId) : s.Lasts (s.sidebandLost g) := by
  unfold State.sidebandLost
  split
  · exact s.lasts_listenLost g _ _ _
  · exact s.lasts_listenLost g _ _ _
  · exact s.lasts_listenLost g _ _ _
  · exact State.lasts_markLost ‹_› rfl
  · exact State.lasts_markLost ‹_› rfl
  · exact State.lasts_markLost ‹_› rfl
  · exact State.lasts_markLost ‹_› rfl
  · exact s.lasts_probeFailed g
  · exact s.lasts_post _ _ _
  · exact .refl s
  · exact .refl s

theorem State.lasts_hubSilent (s : State) (g : LegId) : s.Lasts (s.hubSilent g) := by
  unfold State.hubSilent
  split
  · exact s.lasts_listenLost g _ _ _
  · exact s.lasts_listenLost g _ _ _
  · exact s.lasts_listenLost g _ _ _
  · exact s.lasts_listenLost g _ _ _
  · exact State.lasts_markLost ‹_› rfl
  · exact State.lasts_markLost ‹_› rfl
  · exact State.lasts_markLost ‹_› rfl
  · exact State.lasts_markLost ‹_› rfl
  · exact .refl s
  · exact .refl s
  · exact .refl s

theorem State.lasts_restoreSideband (s : State) (g : LegId) : s.Lasts (s.restoreSideband g) :=
  .ite (.after (State.lasts_post _ _ _ _) (s.lasts_setLeg g _ fun _ => ⟨rfl, fun k => (nomatch k), id, id, id⟩)) (.refl s)

/-! ### Power requests and drained items at a HUB (R108 to R116, R159) -/

theorem State.lasts_standbyVerify (s : State) (g : LegId) (cause : LegCause) : s.Lasts (s.standbyVerify g cause) :=
  .of_frame (s.acts_standbyVerify g cause).toLegFrame fun ok => by
    have entered := ok.entered (new := .verify) (a := some 4) s.time fun _ h => by cases h; exact ⟨rfl, by decide, by decide⟩
    let m : Leg := { (s.leg g).entered s.role .verify (some 4) s.time with standbyVerify := true }
    have told := Leg.queuePhase_requeued m .verify 4 m.phaseRate
    have record : (s.standbyVerify g cause).leg g
        = { m.queuePhase .verify 4 m.phaseRate with
            deadline := some (s.time + 40000), verify := some (Vector.replicate 8 ⟨false, 0, 0⟩) } := by
      unfold State.standbyVerify State.startVerify State.startDeadline State.queuePhase
      simp only [State.modLeg_leg_same, State.enter_leg, if_pos]
      rfl
    rw [record]
    have verifying := (entered.noLonger (m := m) ⟨rfl, id, id, id, id⟩).noLonger told.noLonger
    exact (verifying.setDeadline (by rw [told.state]; rfl) (some (s.time + 40000))).noLonger ⟨rfl, id, id, id, id⟩

theorem State.lasts_powerTaken (s : State) (g : LegId) (p : Power) (cause : LegCause) : s.Lasts (s.powerTaken g p cause) := by
  unfold State.powerTaken
  cases p with
  | standby => exact (s.lasts_enterIdle g _ _).trans (State.lasts_queuePhase _ g _ _)
  | sleep =>
    have entered := s.lasts_enterIdle g .sleep cause
    exact .ite entered (.after (State.lasts_queuePhase _ g _ _)
      (entered.trans (State.lasts_setLeg _ g _ fun _ => ⟨rfl, id, id, id, id⟩)))
  | active =>
    dsimp only
    split
    · exact s.lasts_standbyVerify g cause
    · exact s.lasts_enterListen g _ _ _
    · exact .refl s

theorem State.lasts_drainedPower (s : State) (g : LegId) (code : Byte) : s.Lasts (s.drainedPower g code) := by
  unfold State.drainedPower
  split
  · exact .after (State.lasts_post _ _ _ _) (.ite (s.lasts_powerTaken g _ _) (.refl s))
  · exact s.lasts_post _ _ _

theorem State.lasts_applyTaps (s : State) (g : LegId) (i : WinIx) (q : TapRequest) : s.Lasts (s.applyTaps g i q) := by
  rw [State.applyTaps_rest]
  exact .of_eq rfl rfl

theorem State.lasts_drained (s : State) (g : LegId) (item : Byte) (d : List Byte) : s.Lasts (s.drained g item d) := by
  have marked (f : Leg → Leg) (h : ∀ l : Leg, l.NoLonger (f l)) := s.lasts_setLeg g f h
  unfold State.drained
  refine .ite (.refl s) ?_
  split
  · unfold State.drainedTap
    split
    · split
      · exact .ite (.after (State.lasts_requeue _ g _ fun l => l.queueStatus_requeued _) (s.lasts_applyTaps g _ _)) (.refl s)
      · exact .refl s
    · exact .refl s
  · exact .ite (.after (State.lasts_checkTrained _ g) (marked _ fun _ => ⟨rfl, id, id, id, id⟩)) (.refl s)
  · exact .ite (.after (State.lasts_decideVerify _ g) (marked _ fun _ => ⟨rfl, id, id, id, id⟩)) (.refl s)
  · exact .ite (s.lasts_retrain g) (.refl s)
  · exact s.lasts_drainedPower g _
  · exact .refl s

/-! ### Following at an END (R41 to R45, R68, R115) -/

/-- An END takes a PHASE's rate in the state it entered, which may hold one (R21, R43). -/
theorem State.lasts_enterWithRate {s : State} {g : LegId} {new : LegState} {a : Option Nat} (awake : new.quiet = false)
    (attempt : ∀ n, a = some n → new.attempting ∧ 1 ≤ n ∧ n ≤ 4) (r : Rate) :
    s.Lasts ((s.enter g new .phase a).takeRate g r) := by
  refine (State.lasts_enter .phase fun _ => attempt).trans (State.lasts_modLeg fun ok => ok.setAwake ?_ _ _ _ _)
  rw [State.enter_leg, if_pos rfl]
  exact awake

theorem State.lasts_follow {s : State} {g : LegId} {new : LegState} {a : Option Nat} (awake : new.quiet = false)
    (attempt : ∀ n, a = some n → new.attempting ∧ 1 ≤ n ∧ n ≤ 4) (r : Rate) : s.Lasts (s.follow g new a r) :=
  .after (State.lasts_requeue _ g _ fun l => l.withdrawn_requeued _) (State.lasts_enterWithRate awake attempt r)

theorem State.follow_state (s : State) (g : LegId) (new : LegState) (a : Option Nat) (r : Rate) :
    ((s.follow g new a r).leg g).state = new := by
  unfold State.follow State.takeRate
  rw [State.modLeg_leg_same, (Leg.withdrawn_requeued _ _).state, State.modLeg_leg_same, State.enter_leg, if_pos rfl]
  rfl

theorem State.lasts_startSearch (s : State) (g : LegId) : s.Lasts (s.startSearch g) := by
  refine .after (State.lasts_setLeg _ g _ fun _ => ⟨rfl, id, id, id, id⟩) ?_
  refine List.foldlRecOn (s.winIndices g) _ (.refl s) fun t ht i _ => ht.trans ?_
  exact .after (State.lasts_requeue _ g _ fun l => l.sendRequest_requeued _ _ _) (t.lasts_modLane _ _)

theorem State.lasts_startAdapt (s : State) (g : LegId) : s.Lasts (s.startAdapt g) :=
  .of_noLonger rfl fun k => by
    unfold State.startAdapt
    rw [State.modWindow_leg, State.modLeg_leg]
    split
    · rename_i e
      rw [e]; exact ⟨rfl, id, id, id, id⟩
    · exact .refl _

theorem State.lasts_startVerify (s : State) (g : LegId) : s.Lasts (s.startVerify g) :=
  s.lasts_setLeg g _ fun _ => ⟨rfl, id, id, id, id⟩

theorem State.lasts_cutShortAdapt (s : State) (g : LegId) : s.Lasts (s.cutShortAdapt g) := by
  unfold State.cutShortAdapt
  split
  · exact .refl s
  · exact .after (State.lasts_setLeg _ g _ fun _ => ⟨rfl, id, id, id, id⟩) (.of_eq rfl rfl)

theorem State.lasts_handOver (s : State) (g : LegId) : s.Lasts (s.handOver g) := .of_eq rfl rfl

theorem State.lasts_followTrain (s : State) (g : LegId) {n : Nat} (pos : 1 ≤ n) (last : n ≤ 4) (r : Rate) :
    s.Lasts (s.followTrain g n r) := by
  have followed : s.Lasts (s.follow g .train (some n) r) := State.lasts_follow rfl (fun _ e => by cases e; exact ⟨rfl, pos, last⟩) r
  exact .after (State.lasts_startSearch _ g) (followed.trans (State.lasts_setLeg _ g _ fun _ => ⟨rfl, id, id, id, id⟩))

theorem State.lasts_followRun (s : State) (g : LegId) (r : Rate) : s.Lasts (s.followRun g r) := by
  have up := State.lasts_follow (s := s) (g := g) (new := .up) (a := none) rfl (fun _ h => (nomatch h)) r
  unfold State.followRun
  refine .ite (.after (State.lasts_handOver _ g) (up.trans (State.lasts_modLeg fun ok => ?_))) up
  exact ok.setAwake (by rw [State.follow_state]; rfl) _ _ _ _

theorem State.lasts_takePhase (s : State) (g : LegId) {st : PhaseState} {n : Nat} (attempt : phaseAttemptOk st n) (r : Rate) :
    s.Lasts (s.takePhase g st n r) := by
  have phase {new : LegState} (attempting : new.attempting) (ok : (1 ≤ n && n ≤ 4) = true) :
      ∀ k, some n = some k → new.attempting ∧ 1 ≤ k ∧ k ≤ 4 := fun k e => by
    cases e
    simp only [Bool.and_eq_true, decide_eq_true_eq] at ok
    exact ⟨attempting, ok⟩
  cases st with
  | listen => exact s.lasts_enterListen g _ _ _
  | train =>
    have ok := phase (new := .train) rfl attempt n rfl
    exact s.lasts_followTrain g ok.2.1 ok.2.2 r
  | adapt =>
    have followed : s.Lasts (s.follow g .adapt (some n) r) := State.lasts_follow rfl (phase rfl attempt) r
    exact followed.trans (State.lasts_startAdapt _ g)
  | verify =>
    have followed := (s.lasts_cutShortAdapt g).trans
      (State.lasts_follow (g := g) (new := .verify) (a := some n) rfl (phase rfl attempt) r)
    exact followed.trans (State.lasts_startVerify _ g)
  | run => exact s.lasts_followRun g r
  | standby => exact State.lasts_enterWithRate (new := .standby) (a := none) rfl (fun _ h => (nomatch h)) r
  | sleep =>
    have entered : s.Lasts ((s.enter g .sleep .phase none).takeRate g r) :=
      State.lasts_enterWithRate (new := .sleep) (a := none) rfl (fun _ h => (nomatch h)) r
    exact entered.trans (State.lasts_setLeg _ g _ fun _ => ⟨rfl, id, id, id, id⟩)

/-! ### Stopping and resetting a leg (R18, R26, R27) -/

theorem State.lasts_stopLeg (s : State) (g : LegId) (cause : LegCause) : s.Lasts (s.stopLeg g cause) :=
  .of_frame (s.acts_stopLeg g cause).toLegFrame fun ok => by
    rw [State.stopLeg_leg]
    exact (ok.entered (new := .off) (a := none) s.time fun _ h => (nomatch h)).noLonger ⟨rfl, id, id, id, id⟩

theorem State.lasts_resetLeg (s : State) (g : LegId) : s.Lasts (s.resetLeg g) :=
  .after (State.lasts_setLeg _ g _ fun _ => ⟨rfl, id, id, id, id⟩)
    (.after (t := s.stopLeg g .legReset) (.of_eq rfl rfl) (s.lasts_stopLeg g _))

end Sys2Proof.Machine
end

