-- ==== Sys2Proof/Proofs/StepLasts.lean ====
section
/-! SUPPORT. Every command keeps the lifetimes of leg fields and timers (`State.Lasts`): the sideband at both ends, the cable memory
unit and the management port on top of the leg controller's operations, and the dispatch over all commands. -/

open Sys2Proof Sys2Proof.Machine

namespace Sys2Proof.Machine

/-! ### The HUB's sideband (R126 to R133, R143) -/

theorem State.lasts_takeFarStatus (s : State) (g : LegId) (d : List Byte) : s.Lasts (s.takeFarStatus g d) :=
  s.lasts_setLeg g _ fun _ => ⟨rfl, id, id, id, id⟩

theorem State.lasts_setFarTaps (s : State) (g : LegId) (t : TapStatus) : s.Lasts (s.setFarTaps g t) := by
  rw [State.setFarTaps_rest]
  exact .of_eq rfl rfl

theorem State.lasts_exchangeEnds (s : State) (x : Transaction) (i : WinIx) (r : TxResult) : s.Lasts (s.exchangeEnds x i r) := by
  have told : s.Lasts (match r.forEngine i with
      | .ack st => s.setFarTaps x.leg st
      | _ => s) := by
    split
    · exact s.lasts_setFarTaps x.leg _
    · exact .refl s
  exact .ite (told.trans (State.lasts_takeResult _ x.leg i _)) told

theorem State.lasts_farFetchEnds (s : State) (x : Transaction) (k : FetchKind) (r : TxResult) : s.Lasts (s.farFetchEnds x k r) := by
  cases r with
  | ack item more d => exact .after (State.lasts_farReadDone _ _ _) (.ite (s.lasts_takeFarStatus _ _) (.refl s))
  | refuse why => exact s.lasts_farReadDone _ _
  | lost => exact s.lasts_farReadDone _ _
  | expired => exact s.lasts_farReadDone _ _

theorem State.lasts_probeEnds (s : State) (x : Transaction) (r : TxResult) : s.Lasts (s.probeEnds x r) := by
  cases r with
  | ack item more d => exact s.lasts_probeAck _ _
  | refuse why => exact .ite (.refl s) (s.lasts_enterListen _ _ _ _)
  | lost => exact s.lasts_probeFailed _
  | expired => exact s.lasts_probeFailed _

theorem State.lasts_drainEnds (s : State) (x : Transaction) (r : TxResult) : s.Lasts (s.drainEnds x r) := by
  cases r with
  | ack item more d => exact .after (State.lasts_drained _ _ _ _) (s.lasts_setLeg x.leg _ fun _ => ⟨rfl, id, id, id, id⟩)
  | refuse why => exact .refl s
  | lost => exact .refl s
  | expired => exact .refl s

theorem State.lasts_handOn (s : State) (x : Transaction) (r : TxResult) : s.Lasts (s.handOn x r) := by
  unfold State.handOn
  split
  · exact s.lasts_drainEnds x r
  · split
    · exact s.lasts_probeEnds x r
    · split
      · exact .ite (.refl s) (s.lasts_enterFault _ _)
      · exact .refl s
    · exact s.lasts_exchangeEnds x _ r
    · split
      · exact s.lasts_takeFarStatus _ _
      · exact .refl s
    · exact s.lasts_farFetchEnds x _ r
    · exact .refl s

theorem State.lasts_endTx (s : State) (x : Transaction) (r : TxResult) : s.Lasts (s.endTx x r) := by
  have handed : s.Lasts (State.handOn { s with tx := none } x r) := .after (State.lasts_handOn _ x r) (s.lasts_setTx none)
  unfold State.endTx
  exact .after (State.lasts_arbitrate _ _) (.ite (handed.trans (State.lasts_sidebandLost _ _)) handed)

theorem State.lasts_timeouts (s : State) (g : LegId) (n : Nat) : s.Lasts (s.modLeg g (fun l => { l with timeouts := n })) :=
  s.lasts_setLeg g _ fun _ => ⟨rfl, id, id, id, id⟩

theorem State.lasts_timeout (s : State) (x : Transaction) : s.Lasts (s.timeout x) :=
  .ite (.after (State.lasts_setTx _ _) (s.lasts_timeouts x.leg _)) (.after (State.lasts_endTx _ _ _) (s.lasts_timeouts x.leg 0))

theorem State.lasts_goodReply (s : State) (x : Transaction) (low : BitVec 2) (f : ResponseBody) : s.Lasts (s.goodReply x low f) := by
  have restored := (s.lasts_timeouts x.leg 0).trans (State.lasts_restoreSideband _ x.leg)
  exact .ite (restored.trans (State.lasts_endTx _ _ _))
    (.ite (restored.trans (State.lasts_setTx _ _)) (restored.trans (State.lasts_endTx _ _ _)))

theorem State.lasts_takeResponse (s : State) (g : LegId) (low mid : BitVec 2) (f : ResponseBody) :
    s.Lasts (s.takeResponse g low mid f) := by
  unfold State.takeResponse
  split
  · exact .refl s
  · exact .ite (.ite (s.lasts_goodReply _ _ _) (s.lasts_timeout _)) (.refl s)

theorem State.lasts_expireTx (s : State) (x : Transaction) : s.Lasts (s.expireTx x) :=
  (s.lasts_post _ _ _).trans (State.lasts_endTx _ _ _)

theorem State.lasts_takeBeacon (s : State) (g : LegId) (level : Fin 4) : s.Lasts (s.takeBeacon g level) :=
  .ite (.after (State.lasts_arbitrate _ _) (s.lasts_setLeg g _ fun _ => ⟨rfl, id, id, id, id⟩)) (.refl s)

/-! ### The END's responder (R138 to R144) -/

theorem State.lasts_answer (s : State) (kind : BitVec 3) (item : Byte) (f : CommandBody) (frame : List Byte) :
    s.Lasts (s.answer kind item f frame) := .of_eq rfl rfl

theorem State.lasts_send (s : State) (frame : List Byte) : s.Lasts (s.send frame) := .of_eq rfl rfl

/-- A frame heard restarts a probe wait that runs, and starts none (R45). -/
theorem State.lasts_heard (s : State) : s.Lasts s.heard := by
  have waits : s.Lasts (State.modLeg { s with resp := { s.resp with silence := some (s.after 20000) } } 0
      (fun l => { l with probeWait := l.probeWait.map (fun _ => s.after 500000) })) :=
    .after (State.lasts_setLeg _ 0 _ fun l => ⟨rfl, id, id, id, by simp⟩) (s.lasts_setResp _)
  exact waits.trans (State.lasts_restoreSideband _ 0)

theorem State.lasts_takeProbe (s : State) (kind : BitVec 3) (item : Byte) (f : CommandBody) : s.Lasts (s.takeProbe kind item f) := by
  have entered : s.Lasts ((s.enter 0 .probe .probeAnswered none).modLeg 0 (fun l => { l with farId := some (parseIdent f.data) })) :=
    (s.lasts_enterIdle 0 _ _).trans (State.lasts_modLeg fun ok =>
      ok.setAwake (by rw [State.enter_leg, if_pos rfl]; rfl) _ _ _ _)
  exact .ite (.after (State.lasts_answer _ _ _ _ _) (.ite entered (entered.trans (State.lasts_post _ _ _ _))))
    (s.lasts_answer _ _ _ _)

theorem State.lasts_takeFetch (s : State) (kind : BitVec 3) (item : Byte) (f : CommandBody) : s.Lasts (s.takeFetch kind item f) := by
  unfold State.takeFetch
  split
  · exact s.lasts_answer _ _ _ _
  · exact s.lasts_answer _ _ _ _
  · exact .ite (s.lasts_answer _ _ _ _) (s.lasts_answer _ _ _ _)
  · exact s.lasts_answer _ _ _ _

theorem State.lasts_takeStorePhase (s : State) (kind : BitVec 3) (item : Byte) (f : CommandBody) :
    s.Lasts (s.takeStorePhase kind item f) := by
  have taken {st : PhaseState} {n : Nat} (attempt : phaseAttemptOk st n) (r : Rate) :
      s.Lasts ((s.takePhase 0 st n r).ack kind item f []) :=
    (s.lasts_takePhase 0 attempt r).trans (State.lasts_answer _ _ _ _ _)
  unfold State.takeStorePhase
  refine .ite (s.lasts_answer _ _ _ _) ?_
  split
  · exact s.lasts_answer _ _ _ _
  · exact taken rfl _
  · split
    · exact s.lasts_answer _ _ _ _
    · split
      · rename_i ok
        exact taken ok.1 _
      · exact s.lasts_answer _ _ _ _

theorem State.lasts_takeStoreStatus (s : State) (kind : BitVec 3) (item : Byte) (f : CommandBody) :
    s.Lasts (s.takeStoreStatus kind item f) := by
  unfold State.takeStoreStatus
  refine .ite (s.lasts_answer _ _ _ _) (.ite (s.lasts_answer _ _ _ _) ?_)
  split
  · exact s.lasts_answer _ _ _ _
  · have told := s.lasts_setFarTaps 0 ‹TapStatus›
    exact .after (State.lasts_answer _ _ _ _ _) (.ite (told.trans (State.lasts_takeResult _ 0 _ _)) told)

theorem State.lasts_takeExchange (s : State) (kind : BitVec 3) (item : Byte) (f : CommandBody) :
    s.Lasts (s.takeExchange kind item f) := by
  unfold State.takeExchange
  refine .ite (s.lasts_answer _ _ _ _) (.ite (s.lasts_answer _ _ _ _) ?_)
  split
  · exact s.lasts_answer _ _ _ _
  · exact .ite (s.lasts_answer _ _ _ _) (.ite (s.lasts_send _) ((s.lasts_applyTaps 0 _ _).trans (State.lasts_answer _ _ _ _ _)))

theorem State.lasts_checkCommand (s : State) (kind : BitVec 3) (item : Byte) (f : CommandBody) :
    s.Lasts (s.checkCommand kind item f) := by
  unfold State.checkCommand
  refine .ite (s.lasts_answer _ _ _ _) (.ite (s.lasts_answer _ _ _ _) (.ite (s.lasts_answer _ _ _ _) ?_))
  split
  · exact s.lasts_takeProbe _ _ _
  · exact s.lasts_takeFetch _ _ _
  · exact s.lasts_takeStorePhase _ _ _
  · exact s.lasts_takeStoreStatus _ _ _
  · exact s.lasts_takeExchange _ _ _

theorem State.lasts_noteDrained (s : State) (i : Item) : s.Lasts (s.noteDrained i) := by
  unfold State.noteDrained
  split
  · exact s.lasts_modLane _ _
  · exact .refl s

theorem State.lasts_takeDrain (s : State) (f : CommandBody) : s.Lasts (s.takeDrain f) := by
  unfold State.takeDrain
  refine .ite (s.lasts_send _) ?_
  split
  · exact .of_eq rfl rfl
  · exact .after (State.lasts_send _ _) (.after (State.lasts_setResp _ _) (.after (State.lasts_noteDrained _ _)
      (s.lasts_requeue 0 _ fun l => l.popped_requeued _)))

theorem State.lasts_takeCommand (s : State) (pair : LegId) (kind : BitVec 3) (item : Byte) (f : CommandBody) :
    s.Lasts (s.takeCommand pair kind item f) := by
  unfold State.takeCommand
  refine .ite (.refl s) (.ite (.after (State.lasts_arbitrate _ _) (s.lasts_enterFault pair _)) (.ite (.refl s)
    (.ite (s.lasts_heard.trans (State.lasts_takeDrain _ _)) ?_)))
  refine s.lasts_heard.trans ?_
  split
  · exact .ite (State.lasts_send _ _) (State.lasts_checkCommand _ _ _ _)
  · exact State.lasts_checkCommand _ _ _ _

/-! ### The cable memory unit (R161 to R172) -/

theorem State.lasts_setCable (s : State) (k : Cable) : s.Lasts { s with cable := k } := .of_eq rfl rfl

theorem State.lasts_enterReady (s : State) : s.Lasts s.enterReady := by
  unfold State.enterReady
  refine .after (State.lasts_arbitrate _ _) ?_
  refine List.foldlRecOn allLegs _ (.of_eq rfl rfl) fun t ht g _ => ht.trans ?_
  exact .ite (t.lasts_enterListen g _ _ _) (.refl t)

theorem State.lasts_takeHeader (s : State) (bs : List Byte) : s.Lasts (s.takeHeader bs) := by
  unfold State.takeHeader
  split
  · exact .refl s
  · exact .ite (.after (State.lasts_enterReady _) (s.lasts_setCable _)) (.ite (s.lasts_setCable _) (s.lasts_setCable _))

theorem State.lasts_installWindow (s : State) (g : LegId) (w : Window) : s.Lasts (s.installWindow g w) :=
  .of_noLonger rfl fun k => by
    rw [State.installWindow_leg]
    split
    · rename_i e
      rw [e]; exact ⟨rfl, id, id, id, id⟩
    · exact .refl _

theorem installDefault_lasts (ds : List LegDefault) (r : State × Bool) (g : LegId) : r.1.Lasts (installDefault ds r g).1 := by
  unfold installDefault
  split
  · rename_i d _ _
    have set : r.1.Lasts (r.1.modLeg g (fun l => { l with rateCap := d.cap, autoStart := d.autoStart, autoWake := d.autoWake })) :=
      State.lasts_setLeg _ g _ fun _ => ⟨rfl, id, id, id, id⟩
    dsimp only
    split
    · exact set
    · exact set.trans (State.lasts_installWindow _ g _)
  · exact .refl r.1

theorem State.lasts_takeThresholds (s : State) : s.Lasts s.takeThresholds :=
  .of_noLonger rfl fun k => by
    unfold State.takeThresholds
    rw [State.mapLegs_leg]
    split
    · exact ⟨rfl, id, id, id, id⟩
    · exact .refl _

theorem State.lasts_applyRecords (s : State) (r : Accepted × Bool) : s.Lasts (s.applyRecords r) := by
  have installed : s.Lasts (allLegs.foldl (installDefault (r.1.defaults.getD []))
      ({ s with cable := s.cable.withRecords r.1 }, r.2)).1 :=
    List.foldlRecOn (motive := fun x : State × Bool => s.Lasts x.1) allLegs _ (s.lasts_setCable _)
      fun x hx g _ => hx.trans (installDefault_lasts _ x g)
  exact .after (State.lasts_setCable _ _) (installed.trans (State.lasts_takeThresholds _))

theorem State.lasts_takeImage (s : State) (bs : List Byte) : s.Lasts (s.takeImage bs) := by
  unfold State.takeImage
  split
  · exact .ite (s.lasts_setCable _) (s.lasts_applyRecords _)
  · exact .refl s

theorem State.lasts_takeLearned (s : State) (bytes : List Byte) : s.Lasts (s.takeLearned bytes) :=
  .ite (.refl s) (.after (State.lasts_enterReady _) (s.lasts_setCable _))

theorem State.lasts_endCommit (s : State) (status : LearnedStatus) (data : List Byte) : s.Lasts (s.endCommit status data) :=
  .of_eq rfl rfl

theorem State.lasts_pageSent (s : State) : s.Lasts s.pageSent := by
  unfold State.pageSent
  split
  · exact .ite (s.lasts_setCable _) (.refl s)
  · exact .refl s

theorem State.lasts_pollAcked (s : State) : s.Lasts s.pollAcked := by
  unfold State.pollAcked
  split
  · exact .ite (.refl s) (.ite (s.lasts_setCable _) (s.lasts_endCommit _ _))
  · exact .refl s

theorem State.lasts_pollExpired (s : State) : s.Lasts s.pollExpired := by
  unfold State.pollExpired
  split
  · exact .ite (.refl s) (s.lasts_endCommit _ _)
  · exact .refl s

theorem State.lasts_pageNacked (s : State) : s.Lasts s.pageNacked := by
  unfold State.pageNacked
  split
  · exact .ite (s.lasts_endCommit _ _) (.refl s)
  · exact .refl s

/-! ### The management port (R174 to R191) -/

/-- A request keeps the lifetimes where its kind's own act does. -/
theorem State.lasts_takeRequest (s : State) (kind : Byte) (q : RequestBody) (act : State → List Byte → State)
    (h : ∀ t : State, t.Lasts (act t q.payload)) : s.Lasts (s.takeRequest kind q act) := by
  rcases s.takeRequest_cases kind q act with ⟨-, e⟩ | ⟨-, e⟩ <;> rw [e]
  · exact .of_eq rfl rfl
  · exact .trans (t := (s.collect false).occupy kind q.tag) (.of_eq rfl rfl) (h _)

theorem State.lasts_ofLength {s t : State} (n : Nat) (p : List Byte) (h : s.Lasts t) : s.Lasts (s.ofLength n p t) :=
  .ite h (s.lasts_reply _ _)

theorem State.lasts_forLeg {s : State} (n : Nat) (p : List Byte) {act : LegId → State} (h : ∀ g, s.Lasts (act g)) :
    s.Lasts (s.forLeg n p act) := by
  rcases s.forLeg_cases n p act with ⟨g, -, -, -, e⟩ | e <;> rw [e]
  · exact h g
  · exact s.lasts_reply _ _

theorem State.lasts_forLane {s : State} (n : Nat) (p : List Byte) {act : LaneId → State} (h : ∀ c, s.Lasts (act c)) :
    s.Lasts (s.forLane n p act) := by
  rcases s.forLane_cases n p act with ⟨c, -, -, e⟩ | e <;> rw [e]
  · exact h c
  · exact s.lasts_reply _ _

theorem State.lasts_doReadLeg (s : State) (p : List Byte) : s.Lasts (s.doReadLeg p) := by
  refine State.lasts_forLeg 2 p fun g => ?_
  split
  · exact s.lasts_reply _ _
  · exact .after (State.lasts_setLeg _ g _ fun _ => ⟨rfl, id, id, id, id⟩) (s.lasts_reply _ _)

theorem State.lasts_configure (s : State) (g : LegId) (k : LegConfig) : s.Lasts (s.configure g k) :=
  .after (State.lasts_setLeg _ g _ fun _ => ⟨rfl, id, id, id, id⟩) (s.lasts_installWindow g _)

theorem State.lasts_doConfigureLeg (s : State) (p : List Byte) : s.Lasts (s.doConfigureLeg p) := by
  refine State.lasts_forLeg 12 p fun g => .ite (s.lasts_reply _ _) ?_
  split
  · exact s.lasts_reply _ _
  · exact .ite (s.lasts_reply _ _) ((s.lasts_configure g _).trans (State.lasts_reply _ _ _))

theorem State.lasts_doStartLeg (s : State) (p : List Byte) : s.Lasts (s.doStartLeg p) :=
  State.lasts_forLeg 1 p fun g =>
    .ite (.after (State.lasts_arbitrate _ _) (.after (State.lasts_reply _ _ _) (s.lasts_enterListen g _ _ _))) (s.lasts_reply _ _)

theorem State.lasts_doStopLeg (s : State) (p : List Byte) : s.Lasts (s.doStopLeg p) := by
  refine State.lasts_forLeg 1 p fun g => ?_
  split
  · exact s.lasts_reply _ _
  · exact s.lasts_reply _ _
  · exact .after (State.lasts_arbitrate _ _) (.after (State.lasts_reply _ _ _) (s.lasts_stopLeg g _))

theorem State.lasts_doResetLeg (s : State) (p : List Byte) : s.Lasts (s.doResetLeg p) :=
  State.lasts_forLeg 1 p fun g => .after (State.lasts_arbitrate _ _) (.after (State.lasts_reply _ _ _) (s.lasts_resetLeg g))

theorem State.lasts_queuePower (s : State) (g : LegId) (w : Power) : s.Lasts (s.queuePower g w) :=
  .ite (.after (State.lasts_reply _ _ _) (s.lasts_requeue g _ fun l => l.push_requeued _)) (s.lasts_reply _ _)

theorem State.lasts_endPower (s : State) (g : LegId) (w : Power) : s.Lasts (s.endPower g w) := by
  unfold State.endPower
  split
  · exact s.lasts_queuePower g _
  · exact .after (State.lasts_reply _ _ _) (.after (State.lasts_requeue _ g _ fun l => l.push_requeued _)
      (s.lasts_enterListen g _ _ _))
  · exact s.lasts_reply _ _
  · exact s.lasts_reply _ _
  · exact s.lasts_reply _ _
  · exact s.lasts_reply _ _
  · exact s.lasts_queuePower g _

theorem State.lasts_doSetLegPower (s : State) (p : List Byte) : s.Lasts (s.doSetLegPower p) := by
  refine State.lasts_forLeg 2 p fun g => ?_
  split
  · exact s.lasts_reply _ _
  · refine .ite (.ite ?_ (s.lasts_reply _ _)) (s.lasts_endPower g _)
    exact .after (State.lasts_arbitrate _ _) (.after (State.lasts_reply _ _ _) (s.lasts_powerTaken g _ _))

theorem State.lasts_doPinTaps (s : State) (p : List Byte) : s.Lasts (s.doPinTaps p) :=
  State.lasts_forLane 3 p fun _ => .ite (.of_eq rfl rfl) (s.lasts_reply _ _)

theorem State.lasts_doUnpinTaps (s : State) (p : List Byte) : s.Lasts (s.doUnpinTaps p) :=
  State.lasts_forLane 1 p fun _ => .of_eq rfl rfl

theorem State.lasts_doCommitPresets (s : State) (p : List Byte) : s.Lasts (s.doCommitPresets p) := by
  refine State.lasts_ofLength 0 p ?_
  split
  · exact .after (State.lasts_reply _ _ _) (s.lasts_setCable _)
  · exact s.lasts_reply _ _

theorem State.lasts_doForgetPresets (s : State) (p : List Byte) : s.Lasts (s.doForgetPresets p) :=
  State.lasts_ofLength 0 p (.after (State.lasts_reply _ _ _) (s.lasts_setCable _))

theorem State.lasts_queueFarRead (s : State) (g : LegId) (k : FetchKind) (lane : Nat) : s.Lasts (s.queueFarRead g k lane) := by
  unfold State.queueFarRead
  refine .ite (s.lasts_reply _ _) ?_
  split
  · exact s.lasts_reply _ _
  · exact .ite (.after (State.lasts_arbitrate _ _) (s.lasts_requeue g _ fun l => l.push_requeued _)) (s.lasts_reply _ _)

theorem State.lasts_doFarRead (s : State) (p : List Byte) : s.Lasts (s.doFarRead p) := by
  refine .ite (s.lasts_reply _ _) (State.lasts_forLeg 3 p fun g => ?_)
  split
  · exact s.lasts_reply _ _
  · exact .ite (s.lasts_reply _ _) (s.lasts_queueFarRead g _ _)

theorem State.lasts_doReadNotices (s : State) (p : List Byte) : s.Lasts (s.doReadNotices p) :=
  State.lasts_ofLength 0 p (.of_eq rfl rfl)

theorem State.lasts_doSetNoticeLevels (s : State) (p : List Byte) : s.Lasts (s.doSetNoticeLevels p) :=
  State.lasts_ofLength 12 p (.ite (.of_eq rfl rfl) (s.lasts_reply _ _))

theorem State.lasts_replyGone (s : State) : s.Lasts s.replyGone := by
  unfold State.replyGone
  split
  · exact .refl s
  · exact .ite (fun _ => State.afterReset_lifetimesOk _ _ _) (.of_eq rfl rfl)

/-! ### Every command -/

theorem State.lasts_windowReport (s : State) (c : LaneId) (rep : Report) :
    s.Lasts (match (s.lane c).owner with | some g => (s.takeReport g c rep).arbitrate false | none => s) := by
  split
  · exact (s.lasts_takeReport _ c rep).trans (State.lasts_arbitrate _ _)
  · exact .refl s

theorem State.lasts_scanReading (s : State) (c : LaneId) (level : Fin 64) :
    s.Lasts (match (s.lane c).owner with
      | some g => if s.scanned c then (s.takeReading g c ((s.leg g).presThreshold ≤ level.val)).arbitrate false else s
      | none => s) := by
  split
  · exact .ite ((s.lasts_takeReading _ c _).trans (State.lasts_arbitrate _ _)) (.refl s)
  · exact .refl s

theorem State.lasts_holdoff (s : State) (g : LegId) :
    s.Lasts (((s.modLeg g (fun l => { l with holdoff := none })).checkListen g).arbitrate false) :=
  .after (State.lasts_arbitrate _ _) (.after (State.lasts_checkListen _ g)
    (s.lasts_setLeg g (fun l => { l with holdoff := none }) fun _ => ⟨rfl, id, id, fun k => (nomatch k), id⟩))

/-- The keepalive timer runs on, and the item waits in the queue (R136). -/
theorem Leg.keptAlive_noLonger (l : Leg) : l.NoLonger l.keptAlive := by
  have moved : l.NoLonger { l with keepalive := l.keepalive.map (fun due => due + 5000#32) } :=
    ⟨by simp [Leg.lives], id, id, id, id⟩
  unfold Leg.keptAlive
  dsimp only
  split
  · exact moved
  · obtain ⟨lives, lost, deadline, holdoff, probeWait⟩ := (Leg.push_requeued
      { l with keepalive := l.keepalive.map (fun due => due + 5000#32) } .keepalive).noLonger
    exact ⟨lives.trans moved.lives, lost, deadline, holdoff, probeWait⟩

/-- A change of the transaction in flight keeps the lifetimes. -/
theorem State.lasts_onTx (s : State) (f : Transaction → State) (h : ∀ x, s.Lasts (f x)) :
    s.Lasts (match s.tx with | some x => f x | none => s) := by
  split
  · exact h _
  · exact .refl s

/-- Every command keeps the lifetimes of leg fields and timers. -/
theorem exec_lasts {i : Instr} {s t : State} (h : exec i s = .next t) : s.Lasts t := by
  cases i <;> (injection h with h; subst h)
  case deviceReset strap => exact fun _ => State.afterReset_lifetimesOk _ _ _
  case settlingEnd => exact .ite (s.lasts_setCable _) (.refl s)
  case factoryHeaderRead bytes => exact s.lasts_takeHeader bytes
  case factoryImageRead bytes => exact s.lasts_takeImage bytes
  case learnedBlockRead bytes => exact s.lasts_takeLearned bytes
  case windowReport c h e r => exact s.lasts_windowReport c _
  case scanReading c level => exact s.lasts_scanReading c level
  case settleExpiry c => exact s.lasts_modLane c _
  case probeHoldoffExpiry g => exact .ite (s.lasts_holdoff g) (.refl s)
  case attemptDeadlineExpiry g => exact .ite (.after (State.lasts_arbitrate _ _) (s.lasts_attemptFails g _)) (.refl s)
  case probeWaitExpiry => exact .ite (s.lasts_enterFault 0 _) (.refl s)
  case hubSilenceExpiry => exact .ite (.after (State.lasts_hubSilent _ 0) (s.lasts_setResp _)) (.refl s)
  case keepaliveTimerExpiry g =>
    exact .ite (.after (State.lasts_arbitrate _ _) (s.lasts_setLeg g _ fun l => l.keptAlive_noLonger)) (.refl s)
  case commandFrameSent g seq => exact s.lasts_onTx _ fun x => .ite (s.lasts_setTx _) (.refl s)
  case sidebandAck g f => exact s.lasts_takeResponse g _ _ f
  case sidebandDefer g f => exact s.lasts_takeResponse g _ _ f
  case sidebandRefuse g f => exact s.lasts_takeResponse g _ _ f
  case replyFailingChecks g low mid f => exact s.lasts_takeResponse g low mid f
  case replyTimeout => exact s.lasts_onTx _ fun x => .ite (s.lasts_timeout x) (.refl s)
  case backoffEnd => exact s.lasts_onTx _ fun x => .ite (s.lasts_setTx _) (.refl s)
  case transactionExpiry => exact s.lasts_onTx _ fun x => s.lasts_expireTx x
  case beaconReceived g level crc => exact .ite (s.lasts_takeBeacon g level) (.refl s)
  case beaconSilence g => exact s.lasts_takeBeacon g 0
  case hubCommandFrame pair kind item f => exact s.lasts_takeCommand pair kind item f
  case probeCommand pair f => exact s.lasts_takeCommand pair 1 1 f
  case fetchCommand pair item f => exact s.lasts_takeCommand pair 2 _ f
  case storePhase pair f => exact s.lasts_takeCommand pair 3 4 f
  case storeTapStatus pair f => exact s.lasts_takeCommand pair 3 6 f
  case exchangeTapRequest pair f => exact s.lasts_takeCommand pair 4 5 f
  case drainCommand pair item f => exact s.lasts_takeCommand pair 5 item f
  case unknownCommandOrItem pair kind item f => exact s.lasts_takeCommand pair kind item f
  case requestFrameGap => exact .of_eq rfl rfl
  case requestFrameStart b => exact .ite (.of_eq rfl rfl) (.refl s)
  case requestFrameDiscarded why => exact .ite (.of_eq rfl rfl) (.refl s)
  case replySent => exact s.lasts_replyGone
  case identify q => exact s.lasts_takeRequest 0x01 q _ fun t => State.lasts_ofLength 0 _ (t.lasts_reply _ _)
  case readLeg q => exact s.lasts_takeRequest 0x02 q _ fun t => t.lasts_doReadLeg _
  case readLane q => exact s.lasts_takeRequest 0x03 q _ fun t => State.lasts_forLane 1 _ fun _ => t.lasts_reply _ _
  case configureLeg q => exact s.lasts_takeRequest 0x04 q _ fun t => t.lasts_doConfigureLeg _
  case startLeg q => exact s.lasts_takeRequest 0x05 q _ fun t => t.lasts_doStartLeg _
  case stopLeg q => exact s.lasts_takeRequest 0x06 q _ fun t => t.lasts_doStopLeg _
  case resetLeg q => exact s.lasts_takeRequest 0x07 q _ fun t => t.lasts_doResetLeg _
  case setLegPower q => exact s.lasts_takeRequest 0x08 q _ fun t => t.lasts_doSetLegPower _
  case pinTaps q => exact s.lasts_takeRequest 0x09 q _ fun t => t.lasts_doPinTaps _
  case unpinTaps q => exact s.lasts_takeRequest 0x0A q _ fun t => t.lasts_doUnpinTaps _
  case readPresets q => exact s.lasts_takeRequest 0x0B q _ fun t => State.lasts_ofLength 0 _ (t.lasts_reply _ _)
  case commitPresets q => exact s.lasts_takeRequest 0x0C q _ fun t => t.lasts_doCommitPresets _
  case forgetPresets q => exact s.lasts_takeRequest 0x0D q _ fun t => t.lasts_doForgetPresets _
  case farRead q => exact s.lasts_takeRequest farReadKind q _ fun t => t.lasts_doFarRead _
  case readNotices q => exact s.lasts_takeRequest 0x0F q _ fun t => t.lasts_doReadNotices _
  case setNoticeLevels q => exact s.lasts_takeRequest 0x10 q _ fun t => t.lasts_doSetNoticeLevels _
  case resetDevice q => exact s.lasts_takeRequest 0x11 q _ fun t => State.lasts_ofLength 0 _ (.of_eq rfl rfl)
  case unknownRequestKind kind q => exact .ite (.refl s) (s.lasts_takeRequest kind q _ fun t => t.lasts_reply _ _)
  case pageSent => exact s.lasts_pageSent
  case pollAcknowledged => exact s.lasts_pollAcked
  case pollLimitExpiry => exact s.lasts_pollExpired
  case pageWriteNack => exact s.lasts_pageNacked

end Sys2Proof.Machine

/-- Settles O57: each command keeps the lifetimes, and the idle step and the taking of a command touch no leg. -/
theorem stepKeepsLifetimes : Obligations.StepKeepsLifetimes := by
  unfold Obligations.StepKeepsLifetimes
  intro s t ok h
  cases e : s.pending with
  | nil =>
    rw [step_of_pending_nil e] at h
    injection h with h
    have idle : s.Lasts t := h ▸ .of_eq rfl rfl
    exact idle ok
  | cons c rest =>
    rw [step_of_pending_cons e] at h
    have taken : s.Lasts { s with pending := rest } := .of_eq rfl rfl
    exact exec_lasts h (taken ok)
end

