-- ==== Sys2Proof/Proofs/LegSpares.lean ====
section
/-! SUPPORT. What a command of one leg leaves alone, in the words of the statements: the other legs, the lanes outside the window,
the transmitters and the setting; and the leg after an entry to FAULT, once the arbiter has come to its choice. -/

open Sys2Proof Sys2Proof.Machine

namespace Sys2Proof.Machine

/-- The step from s to t is leg g's own: nothing but its record, its lanes' receivers and the traffic has moved. -/
structure State.Spares (s : State) (g : LegId) (t : State) : Prop where
  window : (t.leg g).window = (s.leg g).window
  others : s.othersKept t g
  outside : s.outsideKept t g
  taps : s.tapsKept t
  setting : s.settingKept t

namespace State.Spares

variable {s t u : State} {g : LegId}

theorem refl (s : State) (g : LegId) : s.Spares g s :=
  ⟨rfl, fun _ _ => rfl, fun _ _ => rfl, fun _ => ⟨rfl, rfl, rfl, rfl⟩, rfl, rfl, rfl, rfl, rfl⟩

theorem trans (h : s.Spares g t) (k : t.Spares g u) : s.Spares g u where
  window := k.window.trans h.window
  others := fun j hj => (k.others j hj).trans (h.others j hj)
  outside := h.outside.trans (by unfold State.winLanes; rw [h.window]) k.outside
  taps := fun c => by
    obtain ⟨t1, t2, t3, t4⟩ := h.taps c
    obtain ⟨u1, u2, u3, u4⟩ := k.taps c
    exact ⟨u1.trans t1, u2.trans t2, u3.trans t3, u4.trans t4⟩
  setting := State.settingKept_trans h.setting k.setting

theorem of_frame (h : s.LegFrame g t) (cable : t.cable = s.cable) (outside : s.outsideKept t g) : s.Spares g t :=
  ⟨h.window, h.othersKept, outside, h.taps, h.settingKept cable⟩

/-- An operation that touches neither legs nor lanes, and keeps the setting. -/
theorem of_traffic (legs : t.legs = s.legs) (lanes : t.lanes = s.lanes) (setting : s.settingKept t) : s.Spares g t where
  window := by unfold State.leg; rw [legs]
  others := fun k _ => by unfold State.leg; rw [legs]
  outside := fun c _ => by unfold State.lane; rw [lanes]
  taps := fun c => by unfold State.lane; rw [lanes]; exact ⟨rfl, rfl, rfl, rfl⟩
  setting := setting

theorem arbitrated (h : s.Spares g t) (ends : Bool) : s.Spares g (t.arbitrate ends) where
  window := (t.arbitrate_window ends g).trans h.window
  others := fun k hk => (t.arbitrate_apart ends k).trans (h.others k hk)
  outside := fun c hc => (t.arbitrate_lane ends c).trans (h.outside c hc)
  taps := fun c => by rw [t.arbitrate_lane ends c]; exact h.taps c
  setting := State.settingKept_trans h.setting (t.arbitrate_settingKept ends)

end State.Spares

theorem State.spares_modLeg (s : State) (g : LegId) (f : Leg → Leg) (window : (f (s.leg g)).window = (s.leg g).window) :
    s.Spares g (s.modLeg g f) where
  window := by rw [State.modLeg_leg_same]; exact window
  others := fun k hk => by rw [State.modLeg_leg_other s f hk]
  outside := fun _ _ => rfl
  taps := fun _ => ⟨rfl, rfl, rfl, rfl⟩
  setting := ⟨rfl, rfl, rfl, rfl, rfl⟩

theorem State.spares_post (s : State) (g : LegId) (k : NoticeKind) (o : Option LegId) (data : List Byte) :
    s.Spares g (s.post k o data) := .of_traffic rfl rfl ⟨rfl, rfl, rfl, rfl, rfl⟩

theorem State.spares_enterFault (s : State) (g : LegId) (why : FaultReason) : s.Spares g (s.enterFault g why) :=
  .of_frame (s.acts_enterFault g why).toLegFrame (s.enterFault_cable g why) (s.enterFault_outsideKept g why)

theorem State.spares_enterListen (s : State) (g : LegId) (cause : LegCause) (holdoff phase : Bool) :
    s.Spares g (s.enterListen g cause holdoff phase) :=
  .of_frame (s.acts_enterListen g cause holdoff phase).toLegFrame (s.enterListen_cable g cause holdoff phase)
    (State.enterListen_outsideKept cause holdoff phase)

/-! ### A leg in FAULT (R40) -/

/-- A leg's record after an entry to FAULT. -/
def Leg.faulted (l : Leg) (role : Role) (now : Time) (why : FaultReason) : Leg :=
  ({ l.entered role .fault none now with lastFault := why, faultCount := min 255 (l.faultCount + 1) } : Leg).flushed

/-- The arbiter finds nothing to send for a leg in FAULT, so only its pass-over count may move. -/
theorem State.enterFault_arbitrated {s : State} {g : LegId} (off : (s.leg g).state ≠ .off) (fault : (s.leg g).state ≠ .fault)
    (why : FaultReason) (ends : Bool) :
    ∃ p, ((s.enterFault g why).arbitrate ends).leg g = { (s.leg g).faulted s.role s.time why with passOver := p } := by
  have record : (s.enterFault g why).leg g = (s.leg g).faulted s.role s.time why := State.enterFault_leg off fault why
  obtain ⟨p, -, e⟩ := State.arbitrate_idle (s := s.enterFault g why) (g := g) (.inr (by rw [record]; rfl)) ends
  exact ⟨p, by rw [e, record]⟩

/-! ### An END's entry to LISTEN (R44, R45) -/

/-- Only the probe wait depends on what the END sees. -/
theorem State.enterListen_leg_end {s : State} {g : LegId} (atEnd : s.isHub = false) (cause : LegCause) (holdoff phase : Bool) :
    ∃ wait, (s.enterListen g cause holdoff phase).leg g
      = { (s.leg g).listening s.role s.time holdoff phase with probeWait := wait } := by
  rcases State.enterListen_cases (s := s) (g := g) cause holdoff phase with e | ⟨hub, -⟩ | ⟨-, e⟩
  · exact ⟨none, by rw [e, State.listened_leg]; rfl⟩
  · rw [atEnd] at hub; cases hub
  · exact ⟨some (s.after 500000), by rw [e, State.modLeg_leg_same, State.listened_leg]⟩

theorem State.enterListen_resp_end {s : State} {g : LegId} (atEnd : s.isHub = false) (cause : LegCause) (holdoff phase : Bool) :
    (s.enterListen g cause holdoff phase).resp = (s.resp.entered (s.leg g).state .listen s.time).withoutBeat := by
  have listened := s.listened_resp g cause holdoff phase
  rw [atEnd] at listened
  rcases State.enterListen_cases (s := s) (g := g) cause holdoff phase with e | ⟨hub, -⟩ | ⟨-, e⟩
  · rw [e]; exact listened
  · rw [atEnd] at hub; cases hub
  · rw [e]; exact listened

end Sys2Proof.Machine
end

