-- ==== Sys2Proof/Proofs/FaultsAndSilence.lean ====
section
/-! SUPPORT. A command frame at a HUB (R31), and the two watches of an END: the probe wait (R45) and hub silence (R44). -/

open Sys2Proof Sys2Proof.Machine

namespace Sys2Proof.Machine

theorem exec_hubCommandFrame {s : State} {kind : BitVec 3} {item : Byte} {f : CommandBody} (hub : s.isHub)
    (crc : commandCrcOk kind item f) (g : LegId) :
    exec (.hubCommandFrame g kind item f) s = .next ((s.enterFault g .roleConflict).arbitrate false) := by
  have taken : s.takeCommand g kind item f = s.hubHearsCommand g := by
    unfold State.takeCommand
    rw [if_neg (by rw [crc]; decide), if_pos hub]
  exact congrArg _ taken

theorem exec_hubCommandFrame_badCrc {s : State} {kind : BitVec 3} {item : Byte} {f : CommandBody}
    (crc : commandCrcOk kind item f = false) (g : LegId) : exec (.hubCommandFrame g kind item f) s = .next s :=
  congrArg Host.Outcome.next (if_pos crc)

theorem exec_probeWaitExpiry {s : State} (atEnd : s.isHub = false) (runs : (s.leg 0).probeWait ≠ none) :
    exec .probeWaitExpiry s = .next (s.enterFault 0 .roleConflict) :=
  congrArg Host.Outcome.next (if_pos ⟨atEnd, Option.isSome_iff_ne_none.mpr runs⟩)

/-- The hub-silence watch has expired and stays stopped. -/
def State.unwatched (s : State) : State := { s with resp := { s.resp with silence := none } }

theorem exec_hubSilenceExpiry {s : State} (atEnd : s.isHub = false) (runs : s.resp.silence ≠ none) :
    exec .hubSilenceExpiry s = .next (s.unwatched.hubSilent 0) :=
  congrArg Host.Outcome.next (if_pos ⟨atEnd, Option.isSome_iff_ne_none.mpr runs⟩)

theorem State.hubSilent_listens {s : State} {g : LegId} (state : (s.leg g).state = .probe ∨ (s.leg g).state.attempting) :
    s.hubSilent g = (s.enterListen g .hubSilence false false).post .sidebandLost (some g) [] := by
  unfold State.hubSilent
  cases e : (s.leg g).state <;> simp [e, LegState.attempting] at state ⊢

theorem State.hubSilent_marks {s : State} {g : LegId}
    (state : (s.leg g).state.inService ∨ (s.leg g).state = .standby ∨ (s.leg g).state = .sleep) :
    s.hubSilent g = (s.modLeg g (fun l => { l with sbLost := true })).post .sidebandLost (some g) [] := by
  unfold State.hubSilent
  cases e : (s.leg g).state <;> simp [e, LegState.inService] at state ⊢

theorem State.hubSilent_quiet {s : State} {g : LegId} (quiet : (s.leg g).state.quiet) : s.hubSilent g = s := by
  unfold State.hubSilent
  cases e : (s.leg g).state <;> simp [e, LegState.quiet] at quiet ⊢

end Sys2Proof.Machine

/-- Settles O27: a HUB's answer to a command frame is an entry to FAULT and the arbiter's choice, which a leg in FAULT has no part
in. -/
theorem commandAtHubFaults : Obligations.CommandAtHubFaults := by
  unfold Obligations.CommandAtHubFaults
  refine ⟨fun s g kind item f hub crc ⟨off, fault⟩ => ⟨_, exec_hubCommandFrame hub crc g, ?_⟩,
    fun s g kind item f crc => exec_hubCommandFrame_badCrc crc g⟩
  obtain ⟨p, leg⟩ := State.enterFault_arbitrated off fault .roleConflict false
  have spares := (s.spares_enterFault g .roleConflict).arbitrated false
  rw [leg]
  exact ⟨rfl, rfl, rfl, rfl, spares.others, spares.outside, spares.taps, spares.setting⟩

/-- Settles O16: the probe wait's end is an entry to FAULT, and the hub-silence table is read off by the leg's state. -/
theorem endWatchesExpire : Obligations.EndWatchesExpire := by
  unfold Obligations.EndWatchesExpire
  refine ⟨?_, ?_, ?_, ?_⟩
  · intro s atEnd listen runs
    refine ⟨_, exec_probeWaitExpiry atEnd runs, ?_⟩
    have off : (s.leg 0).state ≠ .off := by rw [listen]; decide
    have fault : (s.leg 0).state ≠ .fault := by rw [listen]; decide
    have spares := s.spares_enterFault 0 .roleConflict
    have others := (s.acts_enterFault 0 .roleConflict).others
    have posted (empty : s.notices.records = []) : (s.enterFault 0 .roleConflict).notices.shows .legFault (some 0)
        [1, byteOf (min 255 ((s.leg 0).faultCount + 1)), 1] := by
      have two := NoticeQueue.length_post (q := s.notices) (k := .legState) (g := some 0)
        (data := [byteOf (s.leg 0).state.code, 10, 24, 0]) (now := s.time) (n := 0) (by rw [empty]; exact le_rfl)
      rw [State.enterFault_notices off fault, listen]
      rw [listen] at two
      exact NoticeQueue.shows_post (by omega)
    rw [State.enterFault_leg off fault]
    exact ⟨rfl, rfl, rfl, rfl, rfl, rfl, posted, others, spares.outside, spares.taps, spares.setting⟩
  · intro s atEnd runs state
    refine ⟨_, exec_hubSilenceExpiry atEnd runs, ?_⟩
    rw [State.hubSilent_listens (s := s.unwatched) state]
    have atEnd' : s.unwatched.isHub = false := atEnd
    obtain ⟨wait, leg⟩ := State.enterListen_leg_end (g := 0) atEnd' .hubSilence false false
    have resp := State.enterListen_resp_end (g := 0) atEnd' .hubSilence false false
    have frame := s.unwatched.acts_listenLost 0 .hubSilence false false
    have spares := (s.unwatched.spares_enterListen 0 .hubSilence false false).trans
      (State.spares_post _ 0 .sidebandLost (some 0) [])
    have off : (s.unwatched.leg 0).state ≠ .off := by
      rcases state with e | e
      · rw [show s.unwatched.leg 0 = s.leg 0 from rfl, e]; decide
      · intro k; rw [show (s.leg 0).state = .off from k] at e; cases e
    have silence : ((s.unwatched.resp.entered (s.unwatched.leg 0).state .listen s.unwatched.time).withoutBeat).silence = none :=
      if_neg off
    refine ⟨?_, ?_, ?_, ?_, ?_, ?_, frame.others, spares.taps, spares.setting⟩ <;>
      simp only [State.post_leg, State.post_resp, leg, resp, silence] <;> rfl
  · intro s atEnd runs state
    refine ⟨_, exec_hubSilenceExpiry atEnd runs, ?_⟩
    rw [State.hubSilent_marks (s := s.unwatched) state]
    have others (k : LegId) (hk : k ≠ 0) : (s.unwatched.modLeg 0 (fun l => { l with sbLost := true })).leg k = s.leg k :=
      State.modLeg_leg_other s.unwatched _ hk
    refine ⟨?_, rfl, rfl, rfl, others, rfl, rfl, rfl, rfl, rfl⟩
    rw [State.post_leg, State.modLeg_leg_same]
    rfl
  · intro s atEnd runs quiet
    rw [exec_hubSilenceExpiry atEnd runs, State.hubSilent_quiet (s := s.unwatched) quiet]
    rfl
end

