-- ==== Sys2Proof/Proofs/ProbesAtEnd.lean ====
section
/-! SUPPORT. A PROBE at an END (R42): the answer in LISTEN, with the notices it posts, and the refusal elsewhere. -/

open Sys2Proof Sys2Proof.Machine

namespace Sys2Proof.Machine

/-! ### Notices from an empty queue -/

theorem NoticeQueue.lacks_of_empty {q : NoticeQueue} (empty : q.records = []) (k : NoticeKind) : q.lacks k := by
  intro n hn
  rw [empty] at hn
  cases hn

theorem State.restoreSideband_notices (s : State) (g : LegId) :
    (s.restoreSideband g).notices = s.notices
      ∨ (s.restoreSideband g).notices = s.notices.post .sidebandRestored (some g) [] s.time := by
  unfold State.restoreSideband
  split
  · exact .inr rfl
  · exact .inl rfl

/-- A sideband restored posts at most one record, of its own kind. -/
theorem State.restoreSideband_few {s : State} (empty : s.notices.records = []) (g : LegId) :
    (s.restoreSideband g).notices.records.length ≤ 1
      ∧ ∀ k, k ≠ .sidebandRestored → (s.restoreSideband g).notices.lacks k := by
  have none := NoticeQueue.lacks_of_empty empty
  rcases s.restoreSideband_notices g with e | e <;> rw [e]
  · exact ⟨by rw [empty]; exact Nat.zero_le 1, fun k _ => none k⟩
  · exact ⟨NoticeQueue.length_post (by rw [empty]; exact le_rfl), fun k ne => (none k).post ne.symm⟩

theorem State.heard_few {s : State} (empty : s.notices.records = []) :
    s.heard.notices.records.length ≤ 1 ∧ ∀ k, k ≠ .sidebandRestored → s.heard.notices.lacks k :=
  State.restoreSideband_few (s := State.modLeg { s with resp := { s.resp with silence := some (s.after 20000) } } 0
    (fun l => { l with probeWait := l.probeWait.map (fun _ => s.after 500000) })) empty 0

/-! ### A frame heard -/

theorem State.spares_heard (s : State) : s.Spares 0 s.heard where
  window := s.heard_window
  others := fun k hk => by rw [s.heard_leg_other hk]
  outside := fun c _ => s.heard_lane c
  taps := fun c => by rw [s.heard_lane c]; exact ⟨rfl, rfl, rfl, rfl⟩
  setting := s.heard_settingKept

theorem State.heard_ident (s : State) : s.heard.ident 0 = s.ident 0 := by
  obtain ⟨role, -, -, cable, -⟩ := s.heard_settingKept
  unfold State.ident
  rw [s.heard_leg_zero, role, cable]

theorem State.spares_answer (s : State) (g : LegId) (kind : BitVec 3) (item : Byte) (f : CommandBody) (frame : List Byte) :
    s.Spares g (s.answer kind item f frame) := .of_traffic rfl rfl ⟨rfl, rfl, rfl, rfl, rfl⟩

/-! ### The answer (R42) -/

theorem State.checkCommand_probe (s : State) {f : CommandBody} (length : f.data.length = 12) :
    s.checkCommand 1 1 f = s.takeProbe 1 1 f := by
  simp [State.checkCommand, carries, commandLength, length]

theorem exec_probeCommand {s : State} {f : CommandBody} (takes : s.takesCommand 1 1 f) (length : f.data.length = 12) :
    exec (.probeCommand 0 f) s = .next (s.heard.takeProbe 1 1 f) :=
  congrArg Host.Outcome.next ((State.takeCommand_fresh takes (by decide)).trans (s.heard.checkCommand_probe length))

/-- The END's entry to PROBE with the far identity received. -/
def State.probed (s : State) (d : Ident) : State :=
  (s.enter 0 .probe .probeAnswered none).modLeg 0 (fun l => { l with farId := some d })

/-- The state in which the answer is given: SERIAL_MISMATCH is posted where the cable serials differ (R42). -/
def State.compared (s : State) (d : Ident) : State :=
  if d.serial = s.cable.serial then s.probed d else (s.probed d).post .serialMismatch (some 0) []

theorem State.takeProbe_listen {s : State} (listen : (s.leg 0).state = .listen) (f : CommandBody) :
    s.takeProbe 1 1 f = (s.compared (parseIdent f.data)).ack 1 1 f (s.ident 0).bytes := if_pos listen

theorem State.takeProbe_refused {s : State} (elsewhere : (s.leg 0).state ≠ .listen) (f : CommandBody) :
    s.takeProbe 1 1 f = s.refuse 1 1 f .wrongState := if_neg elsewhere

theorem State.spares_enter (s : State) (g : LegId) (new : LegState) (cause : LegCause) (a : Option Nat) :
    s.Spares g (s.enter g new cause a) :=
  .of_frame (s.enter_legFrame g new cause a) rfl (s.enter_outsideKept g new cause a)

variable {s : State} {d : Ident}

theorem State.spares_compared : s.Spares 0 (s.compared d) := by
  have entered : s.Spares 0 (s.probed d) := (s.spares_enter 0 _ _ _).trans (State.spares_modLeg _ 0 _ rfl)
  unfold State.compared
  split
  · exact entered
  · exact entered.trans (State.spares_post _ 0 _ _ _)

theorem State.compared_leg (k : LegId) : (s.compared d).leg k
    = if k = 0 then { (s.leg 0).entered s.role .probe none s.time with farId := some d } else s.leg k := by
  have probed : (s.probed d).leg k
      = if k = 0 then { (s.leg 0).entered s.role .probe none s.time with farId := some d } else s.leg k := by
    unfold State.probed
    rw [State.modLeg_leg, State.enter_leg, State.enter_leg, if_pos rfl]
    split <;> rfl
  unfold State.compared
  split
  · exact probed
  · exact probed

theorem State.compared_resp (atEnd : s.isHub = false) : (s.compared d).resp = s.resp.entered (s.leg 0).state .probe s.time := by
  have probed : (s.probed d).resp = s.resp.entered (s.leg 0).state .probe s.time := by
    unfold State.probed
    rw [State.modLeg_resp, State.enter_resp, if_neg (by rw [atEnd]; decide)]
  unfold State.compared
  split
  · exact probed
  · exact probed

/-- The notices of the entry, from a queue with room that holds no SERIAL_MISMATCH. -/
theorem State.compared_posts (listen : (s.leg 0).state = .listen) (few : s.notices.records.length ≤ 1)
    (clear : s.notices.lacks .serialMismatch) :
    (s.compared d).notices.shows .legState (some 0) [1, 2, 6, 0]
      ∧ (d.serial ≠ s.cable.serial → (s.compared d).notices.shows .serialMismatch (some 0) [])
      ∧ (d.serial = s.cable.serial → (s.compared d).notices.lacks .serialMismatch) := by
  have entered : (s.probed d).notices = s.notices.post .legState (some 0) [1, 2, 6, 0] s.time := by
    unfold State.probed
    rw [State.modLeg_notices, State.enter_notices, listen]
    rfl
  have told : (s.probed d).notices.shows .legState (some 0) [1, 2, 6, 0] := by
    rw [entered]; exact NoticeQueue.shows_post (by omega)
  have room : (s.probed d).notices.records.length ≤ 2 := by rw [entered]; exact NoticeQueue.length_post few
  unfold State.compared
  split
  · rename_i same
    exact ⟨told, fun ne => absurd same ne, fun _ => by rw [entered]; exact clear.post (by decide)⟩
  · rename_i ne
    exact ⟨told.post (by omega) (.inl (by decide)), fun _ => NoticeQueue.shows_post (by omega), fun same => absurd same ne⟩

end Sys2Proof.Machine

/-- Settles O30: in LISTEN the PROBE is compared and answered, elsewhere it is refused. -/
theorem endAnswersProbe : Obligations.EndAnswersProbe := by
  unfold Obligations.EndAnswersProbe
  refine ⟨?_, ?_, ?_⟩
  · intro s f takes length listen
    have listen' : (s.heard.leg 0).state = .listen := s.heard_state.trans listen
    refine ⟨_, (exec_probeCommand takes length).trans (congrArg _ (State.takeProbe_listen listen' f)), ?_⟩
    rw [s.heard_ident]
    have atEnd : s.heard.isHub = false := s.heard_isHub.trans takes.1
    have spares := (s.spares_heard.trans (State.spares_compared (d := parseIdent f.data))).trans
      (State.spares_answer _ 0 1 1 f (responseFrame ackKind f.seq false 1 0 (s.ident 0).bytes))
    have leg := State.compared_leg (s := s.heard) (d := parseIdent f.data)
    have silence : ((s.heard.compared (parseIdent f.data)).ack 1 1 f (s.ident 0).bytes).resp.silence = some (s.time + 20000) := by
      show (s.heard.compared (parseIdent f.data)).resp.silence = _
      rw [State.compared_resp atEnd, listen', s.heard_rest]
      rfl
    refine ⟨?_, ?_, ?_, rfl, rfl, silence, ?_, spares.taps, spares.setting, fun empty => ?_⟩
    · exact (congrArg Leg.state (leg 0)).trans rfl
    · exact (congrArg Leg.farId (leg 0)).trans rfl
    · exact (congrArg Leg.enteredAt (leg 0)).trans s.heard_time
    · exact fun k hk => (leg k).trans ((if_neg hk).trans (s.heard_leg_other hk))
    · obtain ⟨few, clear⟩ := State.heard_few empty
      obtain ⟨told, mismatch, match'⟩ := State.compared_posts (d := parseIdent f.data) listen' few (clear _ (by decide))
      have cable : s.heard.cable = s.cable := s.heard_settingKept.2.2.2.1
      rw [cable] at mismatch match'
      refine ⟨told, fun ne => ?_, match'⟩
      obtain ⟨n, hn, kind, leg, -⟩ := mismatch ne
      exact ⟨n, hn, kind, leg⟩
  · intro s f takes length elsewhere
    have elsewhere' : (s.heard.leg 0).state ≠ .listen := fun h => elsewhere (s.heard_state.symm.trans h)
    refine ⟨_, (exec_probeCommand takes length).trans (congrArg _ (State.takeProbe_refused elsewhere' f)), ?_⟩
    obtain ⟨lanes, sent, held, -, -, setting⟩ := s.heard_refuse 1 1 f .wrongState
    exact ⟨s.heard_leg_zero, sent, held, fun k hk => s.heard_leg_other hk, lanes, setting⟩
  · intro s f atEnd off
    refine congrArg Host.Outcome.next ?_
    unfold State.takeCommand
    rw [atEnd]
    split
    · rfl
    · exact (if_neg Bool.false_ne_true).trans (if_pos (.inr off))
end

