-- ==== Sys2Proof/Proofs/ArbiterQuiet.lean ====
section
/-! SUPPORT. Two facts about the arbiter's choice: it starts no PHASE of a leg that has none queued, and told to end a grant it
ends the one that is held (R154, R155, R158). -/

open Sys2Proof Sys2Proof.Machine

namespace Sys2Proof.Machine

/-! ### A leg with nothing queued -/

/-- The transaction carries a PHASE. -/
def Work.bearsPhase : Work → Bool
  | .item i => i.isPhase
  | .drain => false

/-- Leg g has nothing in its queue or its overflow hold, and no PHASE of it is in flight. -/
structure State.Unqueued (s : State) (g : LegId) : Prop where
  queue : (s.leg g).queue = []
  overflow : (s.leg g).overflow = none
  tx : ∀ x, s.tx = some x → x.leg = g → x.work.bearsPhase = false

theorem State.Unqueued.noPhase {s : State} {g : LegId} (h : s.Unqueued g) : s.noPhase g := by
  unfold State.noPhase
  rw [h.queue, h.overflow]
  cases e : s.tx with
  | none => rfl
  | some x =>
    by_cases mine : x.leg = g
    · have bears := h.tx x e mine
      cases work : x.work with
      | item i =>
        rw [work] at bears
        have plain : i.isPhase = false := bears
        simp [work, plain]
      | drain => simp [work]
    · simp [mine]

/-- With nothing queued the engine can start but a DRAIN beat for the leg. -/
theorem State.startNext_drains {s t : State} {g : LegId} (h : s.startNext g = some t) (empty : (s.leg g).queue = []) :
    t = (s.beginTx g .drain).countTx := by
  unfold State.startNext at h
  rw [empty] at h
  dsimp only [List.head?_nil] at h
  split at h
  · exact (Option.some.inj h).symm
  · cases h

theorem State.Unqueued.startNext {s t : State} {g k : LegId} (h : s.Unqueued g) (starts : s.startNext k = some t) : t.Unqueued g := by
  by_cases e : k = g
  · subst e
    have drains := State.startNext_drains starts h.queue
    have leg : t.leg k = (s.beginTx k .drain).leg k := by rw [drains, State.countTx_leg]
    rw [State.beginTx_leg, if_pos rfl] at leg
    refine ⟨by rw [leg]; exact h.queue, by rw [leg]; exact h.overflow, fun x hx _ => ?_⟩
    have work : x.work = .drain := by
      obtain ⟨y, tx, -, carries, -⟩ := s.beginTx_tx k .drain
      rw [drains, State.countTx_tx, tx] at hx
      cases hx; exact carries
    rw [work]
    rfl
  · have leg := State.startNext_leg_other starts (Ne.symm e)
    exact ⟨by rw [leg]; exact h.queue, by rw [leg]; exact h.overflow,
      fun x hx mine => absurd ((State.startNext_tx_leg starts x hx).symm.trans mine) e⟩

theorem State.Unqueued.arbitrate {s : State} {g : LegId} (h : s.Unqueued g) (ends : Bool) : (s.arbitrate ends).Unqueued g := by
  refine State.arbitrate_induct (P := fun t => t.Unqueued g) h (fun r => ?_) (fun t x k => ⟨k.queue, k.overflow, k.tx⟩)
    (fun t k u hu _ _ _ starts => hu.startNext starts) ends
  have leg := s.endGrant_leg r g
  exact ⟨by rw [leg]; exact h.queue, by rw [leg]; exact h.overflow, h.tx⟩

/-! ### The end of a grant -/

theorem State.startNext_passOver {s t : State} {k : LegId} (h : s.startNext k = some t) (g : LegId) :
    (t.leg g).passOver = (s.leg g).passOver := by
  have begun (w : Work) : ((s.beginTx k w).leg g).passOver = (s.leg g).passOver := by
    rw [State.beginTx_leg]
    split
    · rename_i e
      rw [e]
    · rfl
  unfold State.startNext at h
  split at h
  · rename_i i _
    cases h
    rw [State.countTx_leg, State.modLeg_leg]
    split
    · rename_i e
      have own := begun (.item i)
      rw [e] at own ⊢
      exact (congrArg Leg.passOver (Leg.popped_requeued _ _).same).trans own
    · exact begun _
  · split at h
    · cases h
      exact begun .drain
    · cases h

theorem State.choose_passOver (s : State) (g : LegId) : (s.choose.leg g).passOver = (s.leg g).passOver := by
  unfold State.choose
  split
  · rfl
  · rename_i k _
    cases e : State.startNext { s with grant := some ⟨k, 0, 8⟩ } k with
    | none => rfl
    | some t => exact State.startNext_passOver e g

/-- Told to end the grant, the free engine of a HUB does so, and what stands afterwards is new. -/
theorem State.arbitrate_grantEnded {s w : State} (hub : w.isHub) (free : w.tx = none) (grant : w.grant = s.grant) :
    s.grantEnded (w.arbitrate true) := by
  unfold State.arbitrate
  rw [if_neg (by simp [hub, free]), grant]
  cases e : s.grant with
  | none =>
    refine ⟨fun r h => ?_, State.choose_grant (grant.trans e)⟩
    rw [e] at h
    cases h
  | some r =>
    refine ⟨fun q h => ?_, State.choose_grant rfl⟩
    rw [e] at h
    cases h
    have same : (w.extended r).leg = r.leg := by unfold State.extended; split <;> rfl
    dsimp only
    rw [if_pos (.inl rfl), State.choose_passOver, State.endGrant_leg, same]
    simp [Leg.passedOver]

end Sys2Proof.Machine
end

