-- ==== Sys2Proof/Proofs/HubReplies.lean ====
section
/-! SUPPORT. How a HUB's transaction ends by a good reply, by the third timeout and by expiry: the state in which its result is
handed on, and what a result that nobody takes comes to (R128 to R133). -/

open Sys2Proof Sys2Proof.Machine

namespace Sys2Proof.Machine

theorem State.endTx_standing (w : State) (x : Transaction) {r : TxResult} (stands : r ≠ .lost) :
    w.endTx x r = (State.handOn { w with tx := none } x r).arbitrate (x.endsGrant r) := by
  unfold State.endTx
  dsimp only
  rw [if_neg fun lost => stands lost.1]

section
variable {s : State} {g : LegId} {x : Transaction} {f : ResponseBody}

theorem exec_sidebandAck (reply : s.getsReply g x 1 f) : exec (.sidebandAck g f) s
    = .next (((s.replied g).handOn x (.ack f.item f.more f.data)).arbitrate (x.endsGrant (.ack f.item f.more f.data))) := by
  refine congrArg Host.Outcome.next ((State.takeResponse_good reply).trans ?_)
  rw [State.goodReply, if_pos rfl, State.endTx_standing (r := .ack f.item f.more f.data) _ x nofun, reply.2.2.1]
  rfl

/-- The reason a REFUSE is taken for. -/
def refusedFor (f : ResponseBody) : RefuseReason := (RefuseReason.ofCode f.reason.toNat).getD .badValue

theorem exec_sidebandRefuse (reply : s.getsReply g x 3 f) : exec (.sidebandRefuse g f) s
    = .next (((s.replied g).handOn x (.refuse (refusedFor f))).arbitrate (x.endsGrant (.refuse (refusedFor f)))) := by
  refine congrArg Host.Outcome.next ((State.takeResponse_good reply).trans ?_)
  rw [State.goodReply, if_neg (by decide), if_neg (by decide)]
  refine (State.endTx_standing (r := .refuse (refusedFor f)) _ x nofun).trans ?_
  rw [reply.2.2.1]
  rfl

theorem exec_transactionExpiry (tx : s.tx = some x) : exec .transactionExpiry s
    = .next (((s.expired x).handOn x .expired).arbitrate (x.endsGrant .expired)) := by
  have taken : exec .transactionExpiry s = .next (s.expireTx x) := congrArg Host.Outcome.next (by rw [tx])
  rw [taken, State.expireTx, State.endTx_standing (r := .expired) _ x nofun]
  rfl

end

/-! ### The state in which the result is handed on -/

/-- The setting stands too. -/
theorem State.spares_replied (s : State) (g : LegId) : s.Spares g (s.replied g) := by
  have ended := s.replied_ended g
  refine ⟨by rw [State.replied_leg, if_pos rfl], fun k hk => by rw [ended.others k hk], fun c _ => ended.lane c,
    fun c => by rw [ended.lane c]; exact ⟨rfl, rfl, rfl, rfl⟩, ended.role, ?_, ended.time, ended.cable, ?_⟩ <;>
    rw [State.replied, State.restoreSideband_rest] <;> rfl

theorem State.replied_traffic (s : State) (g : LegId) : (s.replied g).grant = s.grant ∧ (s.replied g).port = s.port := by
  unfold State.replied
  rw [State.restoreSideband_rest]
  exact ⟨rfl, rfl⟩

theorem State.replied_apart (s : State) (g : LegId) :
    ((s.replied g).leg g).apart = { (s.leg g).apart with timeouts := 0, sbLost := false } := by
  rw [State.replied_leg, if_pos rfl]
  rfl

theorem State.replied_few {s : State} (empty : s.notices.records = []) (g : LegId) :
    (s.replied g).notices.records.length ≤ 1 ∧ ∀ k, k ≠ .sidebandRestored → (s.replied g).notices.lacks k :=
  State.restoreSideband_few (s := s.modLeg g (fun l => { l with timeouts := 0 })) empty g

/-- A result that its originator takes no notice of: the good reply is all there was. -/
theorem State.replied_discarded (s : State) (g : LegId) (ends : Bool) :
    (((s.replied g).arbitrate ends).leg g).apart = { (s.leg g).apart with timeouts := 0, sbLost := false }
      ∧ s.othersKept ((s.replied g).arbitrate ends) g ∧ ((s.replied g).arbitrate ends).lanes = s.lanes
      ∧ s.settingKept ((s.replied g).arbitrate ends) ∧ ((s.replied g).arbitrate ends).port = s.port := by
  have spares := (s.spares_replied g).arbitrated ends
  exact ⟨((s.replied g).arbitrate_apart ends g).trans (s.replied_apart g), spares.others,
    ((s.replied g).arbitrate_lanes ends).trans (s.replied_ended g).lanes, spares.setting,
    ((s.replied g).arbitrate_port ends).trans (s.replied_traffic g).2⟩

/-! ### A PHASE refused (R40, R137) -/

section
variable {w : State} {x : Transaction} {why : RefuseReason}

theorem State.handOn_phase {st : PhaseState} {a : Nat} {r : Rate} (work : x.work = .item (.phase st a r)) :
    w.handOn x (.refuse why) = w.phaseRefused x.leg st := by
  unfold State.handOn
  rw [work]

theorem State.handOn_discarded (work : x.work = .item .keepalive ∨ x.work = .drain ∨ ∃ u, x.work = .item (.storeStatus u)) :
    w.handOn x (.refuse why) = w := by
  unfold State.handOn
  rcases work with e | e | ⟨u, e⟩ <;> rw [e]
  rfl

theorem State.phaseRefused_spared {g : LegId} {st : PhaseState} (h : st = .listen ∨ (w.leg g).state = .listen) :
    w.phaseRefused g st = w := if_pos h

theorem State.phaseRefused_faults {g : LegId} {st : PhaseState} (named : st ≠ .listen) (state : (w.leg g).state ≠ .listen) :
    w.phaseRefused g st = w.enterFault g .farRefused := if_neg (not_or.mpr ⟨named, state⟩)

end

end Sys2Proof.Machine

/-- Settles O24: the REFUSE is handed on from the state a good reply leaves, where only a PHASE's is taken up. -/
theorem phaseRefusalFaults : Obligations.PhaseRefusalFaults := by
  unfold Obligations.PhaseRefusalFaults
  have leg {s : State} {g : LegId} {x : Transaction} {f : ResponseBody} (reply : s.getsReply g x 3 f) : x.leg = g := reply.2.2.1
  refine ⟨?_, ?_, ?_, ?_⟩
  · intro s g x f st a r reply work named ⟨off, listen, fault⟩
    refine ⟨_, exec_sidebandRefuse reply, ?_⟩
    have state : ((s.replied g).leg g).state = (s.leg g).state := (s.replied_ended g).toAsBefore.state
    rw [State.handOn_phase work, leg reply, State.phaseRefused_faults named (by rw [state]; exact listen)]
    obtain ⟨p, record⟩ := State.enterFault_arbitrated (by rw [state]; exact off) (by rw [state]; exact fault) .farRefused
      (x.endsGrant (.refuse (refusedFor f)))
    have spares := ((s.spares_replied g).trans ((s.replied g).spares_enterFault g .farRefused)).arbitrated
      (x.endsGrant (.refuse (refusedFor f)))
    rw [record]
    refine ⟨rfl, rfl, ?_, rfl, rfl, spares.others, spares.outside, spares.taps, spares.setting⟩
    exact congrArg (fun n => min 255 (n + 1)) (s.replied_ended g).toAsBefore.faultCount
  · intro s g x f st a r reply work spared
    refine ⟨_, exec_sidebandRefuse reply, ?_⟩
    have state : ((s.replied g).leg g).state = (s.leg g).state := (s.replied_ended g).toAsBefore.state
    rw [State.handOn_phase work, leg reply, State.phaseRefused_spared (by rw [state]; exact spared)]
    obtain ⟨apart, others, lanes, setting, -⟩ := s.replied_discarded g (x.endsGrant (.refuse (refusedFor f)))
    exact ⟨apart, others, lanes, setting⟩
  · intro s g x f reply work
    refine ⟨_, exec_sidebandRefuse reply, ?_⟩
    rw [State.handOn_discarded (work.imp id .inl)]
    obtain ⟨apart, others, lanes, setting, port⟩ := s.replied_discarded g (x.endsGrant (.refuse (refusedFor f)))
    refine ⟨apart, others, lanes, setting, port, fun drain => ?_⟩
    have ends : x.endsGrant (.refuse (refusedFor f)) = true := by unfold Transaction.endsGrant; rw [drain]; rfl
    rw [ends]
    exact State.arbitrate_grantEnded ((s.replied_ended g).toAsBefore.isHub.trans reply.1) rfl (s.replied_traffic g).1
  · intro s g x f u reply work
    refine ⟨_, exec_sidebandRefuse reply, ?_⟩
    rw [State.handOn_discarded (.inr (.inr ⟨u, work⟩))]
    exact s.replied_discarded g (x.endsGrant (.refuse (refusedFor f)))
end

