-- ==== Sys2Proof/Proofs/TrainEntries.lean ====
section
/-! SUPPORT. What an entry to TRAIN posts and leaves alone, and from which earlier state it may be described: one that has the
leg's window and resume flag, the lanes, the role, the time and the cable (R32, R68, R70). -/

open Sys2Proof Sys2Proof.Machine

namespace Sys2Proof.Machine

theorem State.startSearch_notices (s : State) (g : LegId) : (s.startSearch g).notices = s.notices :=
  List.foldlRecOn (motive := fun t : State => t.notices = s.notices) (s.winIndices g) (State.openLane g) rfl fun _ h _ _ => h

theorem State.enterTrain_notices (s : State) (g : LegId) (cause : LegCause) (n : Nat) :
    (s.enterTrain g cause n).notices
      = s.notices.post .legState (some g) [byteOf (s.leg g).state.code, 3, byteOf cause.code, byteOf n] s.time := by
  rw [State.enterTrain_eq, State.startDeadline_notices, State.startSearch_notices]
  unfold State.beforeSearch
  rw [State.queuePhase_notices, State.flush_notices, State.modLeg_notices, State.enter_notices]
  rfl

/-- A search opens on lanes of the window alone. -/
theorem State.startSearch_outsideKept (s : State) (g : LegId) : s.outsideKept (s.startSearch g) g := fun c hc => by
  obtain ⟨-, kept, -⟩ := State.openLanes_spec g (s.winIndices g) s (s.winIndices_nodup g)
  rw [State.startSearch_lane]
  exact kept c fun i hi e => hc (e ▸ State.winLane_mem (State.mem_winIndices.mp hi))

theorem State.enterTrain_outsideKept (s : State) (g : LegId) (cause : LegCause) (n : Nat) :
    s.outsideKept (s.enterTrain g cause n) g := by
  have window : ((s.beforeSearch g cause n).leg g).window = (s.leg g).window :=
    Leg.field_of_apart (s.beforeSearch_apart g cause n) Leg.window fun _ => rfl
  have before : s.outsideKept (s.beforeSearch g cause n) g := fun c hc => by
    rw [State.beforeSearch_lane, if_neg (by simpa using hc)]
  have searched := before.trans (State.winLanes_congr window) ((s.beforeSearch g cause n).startSearch_outsideKept g)
  intro c hc
  rw [State.enterTrain_eq, State.startDeadline_lane]
  exact searched c hc

theorem State.spares_enterTrain (s : State) (g : LegId) (cause : LegCause) (n : Nat) : s.Spares g (s.enterTrain g cause n) :=
  .of_frame (s.acts_enterTrain g cause n).toLegFrame (s.enterTrain_cable g cause n) (s.enterTrain_outsideKept g cause n)

/-- The start of an attempt read from a state that differs in fields of the leg an attempt does not read. -/
theorem State.BeginsTrain.of_same {s u t : State} {g : LegId} {n : Nat} {rate : Option Rate} (role : u.role = s.role)
    (time : u.time = s.time) (cable : u.cable = s.cable) (window : (u.leg g).window = (s.leg g).window)
    (resume : (u.leg g).resume = (s.leg g).resume) (lanes : s.sameReceivers u) (h : u.BeginsTrain t g n rate) :
    s.BeginsTrain t g n rate := by
  unfold State.BeginsTrain State.OpensLane at h ⊢
  dsimp only at h ⊢
  simp only [State.isHub, role, time, cable, resume, (lanes _).1, (lanes _).2.1, (lanes _).2.2, State.winLane_congr window, State.hasIndex_congr window] at h
  exact h

end Sys2Proof.Machine
end

