-- ==== Sys2Proof/Proofs/ProbeResults.lean ====
section
/-! SUPPORT. How a HUB's PROBE ends (R29, R30, R130): the checks of its ACK in order, and the returns to LISTEN. -/

open Sys2Proof Sys2Proof.Machine

namespace Sys2Proof.Machine

/-! ### A return to LISTEN at a HUB (R28, R30) -/

/-- A record that an entry to LISTEN left: what the statements read of it, after the arbiter's choice. -/
structure Leg.Relistens (l m : Leg) (now : Time) (holdoff : Bool) : Prop where
  state : m.state = .listen
  enteredAt : m.enteredAt = now
  holdoff : m.holdoff = if holdoff then some (now + 100000) else none
  retrains : m.retrains = 0
  negRate : m.negRate = none
  farId : m.farId = none
  attempt : m.attempt = none
  sbLost : m.sbLost = false
  errCount : m.errCount = l.errCount
  timeouts : m.timeouts = l.timeouts

theorem Leg.relistens_of_apart {l m : Leg} {role : Role} {now : Time} {holdoff phase : Bool}
    (h : m.apart = (l.listening role now holdoff phase).apart) : l.Relistens m now holdoff := by
  have field {α : Type} (f : Leg → α) (apart : ∀ l : Leg, f l.apart = f l) := Leg.field_of_apart h f apart
  exact ⟨field Leg.state fun _ => rfl, field Leg.enteredAt fun _ => rfl, field Leg.holdoff fun _ => rfl,
    field Leg.retrains fun _ => rfl, field Leg.negRate fun _ => rfl, field Leg.farId fun _ => rfl, field Leg.attempt fun _ => rfl,
    field Leg.sbLost fun _ => rfl, field Leg.errCount fun _ => rfl, field Leg.timeouts fun _ => rfl⟩

section
variable {w : State} {g : LegId} (hub : w.isHub) (cause : LegCause) (phase : Bool)
include hub

/-- With the holdoff running a HUB stays in LISTEN. -/
theorem State.enterListen_holds : w.enterListen g cause true phase = w.listened g cause true phase :=
  State.enterListen_stays cause true phase (.inl ⟨hub, rfl⟩)

theorem State.enterListen_relistens {u : State} (legs : u.legs = (w.enterListen g cause true phase).legs) (ends : Bool) :
    (w.leg g).Relistens ((u.arbitrate ends).leg g) w.time true := by
  refine Leg.relistens_of_apart (role := w.role) (phase := phase) ((u.arbitrate_apart ends g).trans (congrArg Leg.apart ?_))
  rw [State.leg, legs, State.enterListen_holds hub]
  exact w.listened_leg g cause true phase

/-- PHASE(LISTEN) waits in the queue where the causing rule says so. -/
theorem State.enterListen_tells {u : State} (legs : u.legs = (w.enterListen g cause true true).legs) (ends : Bool) :
    (u.arbitrate ends).sends g (.phase .listen 0 .l) := by
  refine State.arbitrate_sends (State.sends_of_carries (.inl ?_)) ends
  rw [State.leg, legs, State.enterListen_holds hub]
  have leg := w.listened_leg g cause true true
  rw [State.leg] at leg
  rw [leg]
  exact List.mem_singleton_self _

/-- Nothing waits where it does not. -/
theorem State.enterListen_quiet {u : State} (legs : u.legs = (w.enterListen g cause true false).legs) (free : u.tx = none)
    (ends : Bool) : (u.arbitrate ends).noPhase g := by
  have leg : u.leg g = (w.leg g).listening w.role w.time true false := by
    rw [State.leg, legs, State.enterListen_holds hub]
    exact w.listened_leg g cause true false
  have unqueued : u.Unqueued g := ⟨by rw [leg]; rfl, by rw [leg]; rfl, fun x hx => by rw [free] at hx; cases hx⟩
  exact (unqueued.arbitrate ends).noPhase

theorem State.enterListen_hub_notices : (w.enterListen g cause true phase).notices
    = w.notices.post .legState (some g) [byteOf (w.leg g).state.code, 1, byteOf cause.code, 0] w.time := by
  rw [State.enterListen_holds hub, State.listened_notices]

theorem State.enterListen_free (free : w.tx = none) : (w.enterListen g cause true phase).tx = none := by
  rw [State.enterListen_holds hub, State.listened_tx, free]
  rfl

end

/-! ### The results (R29, R30, R133) -/

section
variable {w : State} {x : Transaction} {id : Ident} (work : x.work = .item (.probe id))
include work

theorem State.handOn_probe (r : TxResult) : w.handOn x r = w.probeEnds x r := by
  unfold State.handOn
  rw [work]

/-- The failure of the PROBE of a leg in PROBE is its loss too. -/
theorem State.endTx_probe_lost (state : (w.leg x.leg).state = .probe) : w.endTx x .lost
    = (State.probeFailed { w with tx := none } x.leg).arbitrate true := by
  unfold State.endTx
  rw [State.handOn_probe work]
  dsimp only
  rw [if_neg fun h => h.2 ⟨by rw [work]; rfl, state⟩]
  rfl

end

theorem State.probeFailed_eq {w : State} {g : LegId} (state : (w.leg g).state = .probe) :
    w.probeFailed g = (w.enterListen g .probeFailed true false).post .sidebandLost (some g) [] := if_neg (not_not.mpr state)

theorem State.probeRefused_eq {w : State} {g : LegId} (state : (w.leg g).state = .probe) (why : RefuseReason) :
    w.probeRefused g why = w.enterListen g .probeRefused true (why == .wrongState) := if_neg (not_not.mpr state)

theorem refusedFor_wrongState {f : ResponseBody} : refusedFor f = .wrongState ↔ f.reason = 2 := by
  have byte : f.reason = 2 ↔ f.reason.toNat = 2 := by rw [← BitVec.toNat_inj]; rfl
  rw [byte]
  unfold refusedFor
  constructor
  · intro h
    unfold RefuseReason.ofCode at h
    split at h
    case h_2 => assumption
    all_goals cases h
  · intro h
    rw [h]
    rfl

/-! ### The checks of the ACK (R29) -/

section
variable {w : State} {g : LegId} {d : Ident} (state : (w.leg g).state = .probe)
include state

theorem State.probeAck_role (role : d.role ≠ 1) : w.probeAck g d = w.enterFault g .roleConflict := by
  rw [State.probeAck, if_neg (not_not.mpr state), if_pos role]

theorem State.probeAck_width (role : d.role = 1) (width : some d.width.toNat ≠ (w.leg g).window.map Window.w) :
    w.probeAck g d = w.enterFault g .widthMismatch := by
  rw [State.probeAck, if_neg (not_not.mpr state), if_neg (not_not.mpr role), if_pos width]

theorem State.probeAck_rate (role : d.role = 1) (width : some d.width.toNat = (w.leg g).window.map Window.w)
    (rate : Rate.ofCode d.rateCap.toNat = none) : w.probeAck g d = w.enterFault g .rateMismatch := by
  rw [State.probeAck, if_neg (not_not.mpr state), if_neg (not_not.mpr role), if_neg (not_not.mpr width), rate]

/-- The state in which training begins: the far identity and the negotiated rate are set, and SERIAL_MISMATCH is posted where
the cable serials differ. -/
def State.agreed (w : State) (g : LegId) (d : Ident) (cap : Rate) : State :=
  let u := w.modLeg g (fun l => { l with farId := some d, negRate := some (l.rateCap.lower cap) })
  if d.serial = w.cable.serial then u else u.post .serialMismatch (some g) []

theorem State.probeAck_trains (role : d.role = 1) (width : some d.width.toNat = (w.leg g).window.map Window.w) {cap : Rate}
    (rate : Rate.ofCode d.rateCap.toNat = some cap) : w.probeAck g d = (w.agreed g d cap).enterTrain g .probeAccepted 1 := by
  rw [State.probeAck, if_neg (not_not.mpr state), if_neg (not_not.mpr role), if_neg (not_not.mpr width), rate]
  rfl

end

section
variable (w : State) (g : LegId) (d : Ident) (cap : Rate)

theorem State.agreed_leg :
    (w.agreed g d cap).leg g = { w.leg g with farId := some d, negRate := some ((w.leg g).rateCap.lower cap) } := by
  have own : (w.modLeg g (fun l => { l with farId := some d, negRate := some (l.rateCap.lower cap) })).leg g
      = { w.leg g with farId := some d, negRate := some ((w.leg g).rateCap.lower cap) } := State.modLeg_leg_same ..
  unfold State.agreed
  dsimp only
  split
  · exact own
  · exact own

theorem State.spares_agreed : w.Spares g (w.agreed g d cap) := by
  have told := w.spares_modLeg g (fun l => { l with farId := some d, negRate := some (l.rateCap.lower cap) }) rfl
  unfold State.agreed
  dsimp only
  split
  · exact told
  · exact told.trans (State.spares_post _ g _ _ _)

theorem State.agreed_lanes : (w.agreed g d cap).lanes = w.lanes := by
  unfold State.agreed
  dsimp only
  split <;> rfl

theorem State.agreed_notices : (w.agreed g d cap).notices
    = if d.serial = w.cable.serial then w.notices else w.notices.post .serialMismatch (some g) [] w.time := by
  unfold State.agreed
  dsimp only
  split
  · rfl
  · rfl

end

/-- Training begins with the identity received and the lower of the two rate caps (R29, R32). -/
theorem State.agreed_begins (w : State) (g : LegId) (d : Ident) (cap : Rate) :
    let t := (w.agreed g d cap).enterTrain g .probeAccepted 1
    w.BeginsTrain t g 1 (some ((w.leg g).rateCap.lower cap)) ∧ (t.leg g).farId = some d
      ∧ (t.leg g).negRate = some ((w.leg g).rateCap.lower cap) := by
  intro t
  have leg := w.agreed_leg g d cap
  obtain ⟨role, -, time, cable, -⟩ := (w.spares_agreed g d cap).setting
  have begins := State.enterTrain_begins (s := w.agreed g d cap) (g := g) .probeAccepted (n := 1) le_rfl
  have rate : ((w.agreed g d cap).leg g).negRate = some ((w.leg g).rateCap.lower cap) := by rw [leg]
  rw [rate] at begins
  have lane (c : LaneId) : (w.agreed g d cap).lane c = w.lane c := by rw [State.lane, w.agreed_lanes g d cap, State.lane]
  have begun : w.BeginsTrain t g 1 (some ((w.leg g).rateCap.lower cap)) :=
    .of_same role time cable (by rw [leg]) (by rw [leg]) (fun c => by rw [lane]; exact ⟨rfl, rfl, rfl⟩) begins
  refine ⟨begun, ?_, begun.2.2.2.1⟩
  refine (Leg.field_of_apart ((w.agreed g d cap).enterTrain_apart g .probeAccepted 1) Leg.farId fun _ => rfl).trans ?_
  rw [leg]
  rfl

theorem Rate.code_lower (a b : Rate) : (a.lower b).code = min a.code b.code := by
  unfold Rate.lower
  split <;> omega

/-- SERIAL_MISMATCH is posted on the way to TRAIN exactly where the serials differ. -/
theorem State.agreed_posts {w : State} (g : LegId) (d : Ident) (cap : Rate) (few : w.notices.records.length ≤ 1)
    (clear : w.notices.lacks .serialMismatch) :
    let t := (w.agreed g d cap).enterTrain g .probeAccepted 1
    (d.serial ≠ w.cable.serial → t.notices.shows .serialMismatch (some g) [])
      ∧ (d.serial = w.cable.serial → t.notices.lacks .serialMismatch) := by
  intro t
  have posted : t.notices = _ := (w.agreed g d cap).enterTrain_notices g .probeAccepted 1
  rw [posted, w.agreed_notices g d cap]
  split
  · rename_i same
    exact ⟨fun ne => absurd same ne, fun _ => clear.post (by decide)⟩
  · rename_i ne
    have room : (w.notices.post .serialMismatch (some g) [] w.time).records.length ≤ 2 := NoticeQueue.length_post few
    have told : (w.notices.post .serialMismatch (some g) [] w.time).shows .serialMismatch (some g) [] :=
      NoticeQueue.shows_post (by omega)
    exact ⟨fun _ => told.post (by omega) (.inl (by decide)), fun same => absurd same ne⟩

/-! ### The ends of a PROBE as commands -/

section
variable {s : State} {g : LegId} {x : Transaction} {f : ResponseBody} {id : Ident} (work : x.work = .item (.probe id))
include work

theorem exec_sidebandAck_probe (reply : s.getsReply g x 1 f) : exec (.sidebandAck g f) s
    = .next (((s.replied g).probeAck g (parseIdent f.data)).arbitrate false) := by
  have acked := exec_sidebandAck reply
  have grant : x.endsGrant (.ack f.item f.more f.data) = false := by unfold Transaction.endsGrant; rw [work]; rfl
  rw [State.handOn_probe work, grant] at acked
  rw [acked, ← reply.2.2.1]
  rfl

theorem exec_sidebandRefuse_probe (reply : s.getsReply g x 3 f) : exec (.sidebandRefuse g f) s
    = .next (((s.replied g).probeRefused g (refusedFor f)).arbitrate false) := by
  have refused := exec_sidebandRefuse reply
  have grant : x.endsGrant (.refuse (refusedFor f)) = false := by unfold Transaction.endsGrant; rw [work]; rfl
  rw [State.handOn_probe work, grant] at refused
  rw [refused, ← reply.2.2.1]
  rfl

theorem exec_transactionExpiry_probe (tx : s.tx = some x) (leg : x.leg = g) : exec .transactionExpiry s
    = .next (((s.expired x).probeFailed g).arbitrate false) := by
  have expired := exec_transactionExpiry tx
  have grant : x.endsGrant .expired = false := by unfold Transaction.endsGrant; rw [work]; rfl
  rw [State.handOn_probe work, grant] at expired
  rw [expired, ← leg]
  rfl

/-- The state in which the third timeout in a row is handed on as a loss (R130). -/
def State.timedOut (s : State) (g : LegId) : State := { s.modLeg g (fun l => { l with timeouts := 0 }) with tx := none }

theorem exec_replyTimeout_probe (tx : s.tx = some x) (waits : x.phase = .waiting) (third : 2 ≤ (s.leg x.leg).timeouts)
    (leg : x.leg = g) (state : (s.leg g).state = .probe) : exec .replyTimeout s
      = .next (((s.timedOut g).probeFailed g).arbitrate true) := by
  have timedOut : exec .replyTimeout s = .next (s.timeout x) := by
    refine congrArg Host.Outcome.next ?_
    rw [tx]
    exact if_pos waits
  rw [timedOut, State.timeout, if_neg (by omega), State.endTx_probe_lost work, leg]
  · rfl
  · rw [State.modLeg_leg_same, leg]; exact state

end

/-- A check of the ACK that fails is an entry to FAULT. -/
theorem State.replied_faults {s : State} {g : LegId} (state : (s.leg g).state = .probe) (why : FaultReason) :
    ((((s.replied g).enterFault g why).arbitrate false).leg g).state = .fault
      ∧ ((((s.replied g).enterFault g why).arbitrate false).leg g).lastFault = why
      ∧ s.Spares g (((s.replied g).enterFault g why).arbitrate false) := by
  have state' : ((s.replied g).leg g).state = .probe := (s.replied_ended g).toAsBefore.state.trans state
  obtain ⟨p, record⟩ := State.enterFault_arbitrated (by rw [state']; decide) (by rw [state']; decide) why false
  rw [record]
  exact ⟨rfl, rfl, ((s.spares_replied g).trans ((s.replied g).spares_enterFault g why)).arbitrated false⟩

/-- An ACK that passes every check begins training. -/
theorem State.replied_trains (s : State) (g : LegId) (d : Ident) (cap : Rate) :
    let t := (((s.replied g).agreed g d cap).enterTrain g .probeAccepted 1).arbitrate false
    s.BeginsTrain t g 1 (t.leg g).negRate ∧ (t.leg g).farId = some d
      ∧ (t.leg g).negRate.map Rate.code = some (min (s.leg g).rateCap.code cap.code) ∧ s.Spares g t
      ∧ (s.notices.records = [] → (d.serial ≠ s.cable.serial → t.notices.shows .serialMismatch (some g) [])
          ∧ (d.serial = s.cable.serial → t.notices.lacks .serialMismatch)) := by
  intro t
  have ended := s.replied_ended g
  obtain ⟨begins, farId, negRate⟩ := (s.replied g).agreed_begins g d cap
  have onward : State.Onward _ t := State.onward_arbitrate _ false
  have begun := onward.beginsTrain (ended.toAsBefore.beginsTrain (fun _ c => by rw [ended.lane c]; exact ⟨rfl, rfl, rfl⟩) begins)
  have rate := (onward.field Leg.negRate (fun _ => rfl) g).trans negRate
  have rateCap : ((s.replied g).leg g).rateCap = (s.leg g).rateCap := by rw [State.replied_leg, if_pos rfl]
  refine ⟨by rw [rate]; exact begun, (onward.field Leg.farId (fun _ => rfl) g).trans farId, ?_, ?_, fun empty => ?_⟩
  · rw [rate, rateCap, ← Rate.code_lower]
    rfl
  · exact (((s.spares_replied g).trans ((s.replied g).spares_agreed g d cap)).trans
      (State.spares_enterTrain _ g .probeAccepted 1)).arbitrated false
  · obtain ⟨few, clear⟩ := State.replied_few empty g
    have posts := State.agreed_posts g d cap few (clear _ (by decide))
    rw [ended.cable] at posts
    rw [State.arbitrate_notices]
    exact posts

/-- The failure of a PROBE is a return to LISTEN with nothing queued and the loss posted (R30). -/
theorem State.probeFailed_listens {u : State} {g : LegId} (hub : u.isHub) (free : u.tx = none) (state : (u.leg g).state = .probe)
    (ends : Bool) :
    let t := (u.probeFailed g).arbitrate ends
    (u.leg g).Relistens (t.leg g) u.time true ∧ t.noPhase g ∧ u.Spares g t
      ∧ t.notices = (u.notices.post .legState (some g) [2, 1, 9, 0] u.time).post .sidebandLost (some g) [] u.time := by
  intro t
  have result : t = ((u.enterListen g .probeFailed true false).post .sidebandLost (some g) []).arbitrate ends := by
    rw [← State.probeFailed_eq state]
  rw [result]
  refine ⟨State.enterListen_relistens hub .probeFailed false (State.post_legs _ _ _ _) ends,
    State.enterListen_quiet hub .probeFailed (State.post_legs _ _ _ _) ?_ ends,
    ((u.spares_enterListen g .probeFailed true false).trans (State.spares_post _ g _ _ _)).arbitrated ends, ?_⟩
  · rw [State.post_tx]
    exact State.enterListen_free hub .probeFailed false free
  · rw [State.arbitrate_notices, State.post_notices, State.enterListen_hub_notices hub, state,
      (u.acts_enterListen g .probeFailed true false).time]
    rfl

end Sys2Proof.Machine

/-- Settles O21: the ACK is checked from the state a good reply leaves; a refusal and both failures are a return to LISTEN. -/
theorem probeAckIsChecked : Obligations.ProbeAckIsChecked := by
  unfold Obligations.ProbeAckIsChecked
  refine ⟨?_, ?_, ?_, ?_, ?_, ?_⟩
  · intro s g x f w id reply work state window
    refine ⟨_, exec_sidebandAck_probe work reply, ?_⟩
    have state' : ((s.replied g).leg g).state = .probe := (s.replied_ended g).toAsBefore.state.trans state
    have window' : ((s.replied g).leg g).window.map Window.w = some w.w := by
      rw [(s.replied_ended g).toAsBefore.window, window]; rfl
    set d := parseIdent f.data with hd
    have isEnd : d.role = 1 ↔ natAt f.data 0 = 1 := by rw [← BitVec.toNat_inj]; exact Iff.rfl
    have isWide : some d.width.toNat = ((s.replied g).leg g).window.map Window.w ↔ natAt f.data 2 = w.w := by
      rw [window', Option.some_inj]; exact Iff.rfl
    by_cases role : d.role = 1
    case neg =>
      have other := fun h => role (isEnd.mpr h)
      obtain ⟨fault, why, spares⟩ := State.replied_faults state .roleConflict
      rw [State.probeAck_role state' role]
      exact ⟨fun _ => ⟨fault, why⟩, fun h => absurd h other, fun h => absurd h other, fun h => absurd h other, spares.others,
        spares.outside, spares.taps, spares.setting, fun _ h => absurd h other⟩
    by_cases width : some d.width.toNat = ((s.replied g).leg g).window.map Window.w
    case neg =>
      have other := fun h => width (isWide.mpr h)
      obtain ⟨fault, why, spares⟩ := State.replied_faults state .widthMismatch
      rw [State.probeAck_width state' role width]
      exact ⟨fun h => absurd (isEnd.mp role) h, fun _ _ => ⟨fault, why⟩, fun _ h => absurd h other, fun _ h => absurd h other,
        spares.others, spares.outside, spares.taps, spares.setting, fun _ _ h => absurd h other⟩
    cases rate : Rate.ofCode d.rateCap.toNat with
    | none =>
      have high : ¬ natAt f.data 3 ≤ 2 := fun low => by
        change Rate.ofCode (natAt f.data 3) = none at rate
        interval_cases natAt f.data 3 <;> cases rate
      obtain ⟨fault, why, spares⟩ := State.replied_faults state .rateMismatch
      rw [State.probeAck_rate state' role width rate]
      exact ⟨fun h => absurd (isEnd.mp role) h, fun _ h => absurd (isWide.mp width) h, fun _ _ _ => ⟨fault, why⟩,
        fun _ _ h => absurd h high, spares.others, spares.outside, spares.taps, spares.setting, fun _ _ _ h => absurd h high⟩
    | some cap =>
      have code : cap.code = natAt f.data 3 := Rate.code_of_ofCode rate
      have low : ¬ 2 < natAt f.data 3 := fun high => by
        have none : Rate.ofCode d.rateCap.toNat = none := Rate.ofCode_beyond high
        rw [rate] at none; cases none
      obtain ⟨begins, farId, negRate, spares, posts⟩ := s.replied_trains g d cap
      rw [State.probeAck_trains state' role width rate]
      refine ⟨fun h => absurd (isEnd.mp role) h, fun _ h => absurd (isWide.mp width) h, fun _ _ h => absurd h low,
        fun _ _ _ => ⟨begins, farId, by rw [← code]; exact negRate⟩, spares.others, spares.outside, spares.taps, spares.setting,
        fun empty _ _ _ => ⟨fun ne => ?_, (posts empty).2⟩⟩
      obtain ⟨n, hn, kind, owner, -⟩ := (posts empty).1 ne
      exact ⟨n, hn, kind, owner⟩
  · intro s g x f id reply work state
    refine ⟨_, exec_sidebandRefuse_probe work reply, ?_⟩
    have ended := s.replied_ended g
    have hub : (s.replied g).isHub := ended.toAsBefore.isHub.trans reply.1
    have state' : ((s.replied g).leg g).state = .probe := ended.toAsBefore.state.trans state
    rw [State.probeRefused_eq state']
    have relistens := State.enterListen_relistens hub (g := g) .probeRefused (refusedFor f == .wrongState) rfl false
    have spares := ((s.spares_replied g).trans ((s.replied g).spares_enterListen g .probeRefused true
      (refusedFor f == .wrongState))).arbitrated false
    refine ⟨relistens.state, relistens.enteredAt.trans ended.time, ?_, relistens.retrains, relistens.farId, relistens.sbLost, ?_,
      fun empty => ?_, fun reason => ?_, fun reason => ?_, spares.others, spares.outside, spares.taps, spares.setting⟩
    · rw [relistens.holdoff, ended.time]; rfl
    · rw [relistens.timeouts, State.replied_leg, if_pos rfl]
    · rw [State.arbitrate_notices, State.enterListen_hub_notices hub, state']
      exact NoticeQueue.shows_post (Nat.lt_of_le_of_lt (State.replied_few empty g).1 (by decide))
    · rw [refusedFor_wrongState.mpr reason]
      exact State.enterListen_tells hub .probeRefused rfl _
    · rw [beq_eq_false_iff_ne.mpr fun h => reason (refusedFor_wrongState.mp h)]
      exact State.enterListen_quiet hub .probeRefused rfl (State.enterListen_free hub .probeRefused false rfl) _
  · intro s g x id hub tx waits third leg work state
    refine ⟨_, exec_replyTimeout_probe work tx waits third leg state, ?_⟩
    have record : (s.timedOut g).leg g = { s.leg g with timeouts := 0 } := s.modLeg_leg_same g (fun l => { l with timeouts := 0 })
    have state' : ((s.timedOut g).leg g).state = .probe := by rw [record]; exact state
    obtain ⟨relistens, noPhase, failed, notices⟩ := State.probeFailed_listens (u := s.timedOut g) hub rfl state' true
    have before : s.Spares g (s.timedOut g) := (s.spares_modLeg g (fun l => { l with timeouts := 0 }) rfl).trans
      (.of_traffic rfl rfl ⟨rfl, rfl, rfl, rfl, rfl⟩)
    have spares := before.trans failed
    have posted (empty : s.notices.records = []) := NoticeQueue.shows_pair (q := s.notices) (k := .legState) (g := some g)
      (data := [2, 1, 9, 0]) (now := s.time) (j := .sidebandLost) (o := some g) (d := []) (later := s.time)
      (by rw [empty]; decide) (by decide)
    refine ⟨relistens.state, relistens.enteredAt, relistens.holdoff, relistens.retrains, relistens.farId, relistens.sbLost, ?_,
      fun empty => ?_, noPhase, fun empty => ?_, spares.others, spares.outside, spares.taps, spares.setting⟩
    · rw [relistens.timeouts, record]
    · rw [notices]
      exact (posted empty).1
    · rw [notices]
      obtain ⟨-, ⟨n, hn, kind, owner, -⟩, -⟩ := posted empty
      exact ⟨n, hn, kind, owner⟩
  · intro s g x id hub tx leg work state
    refine ⟨_, exec_transactionExpiry_probe work tx leg, ?_⟩
    obtain ⟨relistens, noPhase, failed, notices⟩ := State.probeFailed_listens (u := s.expired x) (g := g) hub rfl state false
    have before : s.Spares g (s.expired x) := .of_traffic rfl rfl ⟨rfl, rfl, rfl, rfl, rfl⟩
    have spares := before.trans failed
    have data : x.expiryData = [1, 1, byteOf x.work.laneField.val] := by unfold Transaction.expiryData; rw [work]; rfl
    have told : (s.expired x).notices = s.notices.post .deferExpired (some g) [1, 1, byteOf x.work.laneField.val] s.time := by
      rw [← data, ← leg]; rfl
    rw [told] at notices
    have posted (empty : s.notices.records = []) := NoticeQueue.shows_pair
      (q := s.notices.post .deferExpired (some g) [1, 1, byteOf x.work.laneField.val] s.time) (k := .legState) (g := some g)
      (data := [2, 1, 9, 0]) (now := s.time) (j := .sidebandLost) (o := some g) (d := []) (later := s.time)
      (NoticeQueue.length_post (by rw [empty]; decide)) (by decide)
    refine ⟨relistens.state, relistens.enteredAt, relistens.holdoff, relistens.retrains, relistens.farId, relistens.sbLost,
      relistens.timeouts, fun empty => ?_, noPhase, fun empty => ⟨?_, ?_⟩, spares.others, spares.outside, spares.taps,
      spares.setting⟩ <;> rw [notices]
    · exact (posted empty).1
    · obtain ⟨-, ⟨n, hn, kind, owner, -⟩, -⟩ := posted empty
      exact ⟨n, hn, kind, owner⟩
    · exact (posted empty).2.2 _ _ _ (NoticeQueue.shows_post (by rw [empty]; decide)) (by decide) (by decide)
  · intro s g x f id reply work elsewhere
    refine ⟨_, exec_sidebandAck_probe work reply, ?_⟩
    have state : ((s.replied g).leg g).state ≠ .probe := by rw [(s.replied_ended g).toAsBefore.state]; exact elsewhere
    rw [show (s.replied g).probeAck g (parseIdent f.data) = s.replied g from if_pos state]
    obtain ⟨apart, others, lanes, setting, -⟩ := s.replied_discarded g false
    exact ⟨apart, lanes, others, setting⟩
  · intro s g x f id reply work elsewhere
    refine ⟨_, exec_sidebandRefuse_probe work reply, ?_⟩
    have state : ((s.replied g).leg g).state ≠ .probe := by rw [(s.replied_ended g).toAsBefore.state]; exact elsewhere
    rw [show (s.replied g).probeRefused g (refusedFor f) = s.replied g from if_pos state]
    obtain ⟨apart, others, lanes, setting, -⟩ := s.replied_discarded g false
    exact ⟨apart, lanes, others, setting⟩
end

