-- ==== Sys2Proof/Proofs/HubTimers.lean ====
section
/-! SUPPORT. The timers of a HUB's leg: the probe holdoff (R28) and the attempt deadline (R24, R36). -/

open Sys2Proof Sys2Proof.Machine

namespace Sys2Proof.Machine

/-! ### The probe holdoff -/

/-- The probe holdoff has expired and stays stopped. -/
def State.unheld (s : State) (g : LegId) : State := s.modLeg g (fun l => { l with holdoff := none })

section
variable {s : State} {g : LegId}

theorem State.unheld_leg : (s.unheld g).leg g = { s.leg g with holdoff := none } :=
  s.modLeg_leg_same g (fun l => { l with holdoff := none })

theorem State.unheld_allPresent : (s.unheld g).allPresent g = s.allPresent g := by
  have window : ((s.unheld g).leg g).window = (s.leg g).window := by rw [State.unheld_leg]
  unfold State.allPresent
  rw [window, State.winLanes_congr window]
  rfl

theorem State.unheld_ident : (s.unheld g).ident g = s.ident g := by
  unfold State.ident
  rw [State.unheld_leg]
  rfl

theorem State.spares_unheld : s.Spares g (s.unheld g) := s.spares_modLeg g (fun l => { l with holdoff := none }) rfl

theorem exec_probeHoldoffExpiry (runs : (s.leg g).holdoff ≠ none) :
    exec (.probeHoldoffExpiry g) s = .next (((s.unheld g).checkListen g).arbitrate false) :=
  congrArg Host.Outcome.next (if_pos (Option.isSome_iff_ne_none.mpr runs))

end

/-! ### Entry to PROBE -/

theorem State.spares_enterProbe (s : State) (g : LegId) : s.Spares g (s.enterProbe g) := by
  refine .of_frame (s.acts_enterProbe g).toLegFrame rfl fun c hc => ?_
  rw [State.enterProbe_lane]
  exact s.enter_outsideKept g .probe .farPresent none c hc

/-- The fields the arbiter leaves alone, after an entry to PROBE. -/
theorem State.enterProbe_field {α : Type} (f : Leg → α) (apart : ∀ l : Leg, f l.apart = f l) (s : State) (g : LegId) (ends : Bool) :
    f (((s.enterProbe g).arbitrate ends).leg g) = f ((s.leg g).entered s.role .probe none s.time) := by
  rw [State.arbitrate_field f apart, State.enterProbe_leg]
  exact Leg.field_of_apart (Leg.push_requeued _ _).apart f apart

/-- The PROBE with the own IDENT is on its way where the queue has a place (R28, R148). -/
theorem State.enterProbe_tells {s : State} {g : LegId} (room : (s.leg g).queue.length < 4) (ends : Bool) :
    ((s.enterProbe g).arbitrate ends).sends g (.probe (s.ident g)) := by
  refine State.arbitrate_sends (State.sends_of_carries (.inl ?_)) ends
  have place : ((s.leg g).entered s.role .probe none s.time).hasRoom := decide_eq_true room
  rw [State.enterProbe_leg, Leg.push_room place]
  exact List.mem_append_right _ (List.mem_singleton_self _)

/-! ### The attempt deadline -/

section
variable {s : State} {g : LegId} (cause : LegCause)

theorem exec_attemptDeadlineExpiry (hub : s.isHub) (runs : (s.leg g).deadline ≠ none) :
    exec (.attemptDeadlineExpiry g) s = .next ((s.attemptFails g .deadline).arbitrate false) :=
  congrArg Host.Outcome.next (if_pos ⟨hub, Option.isSome_iff_ne_none.mpr runs⟩)

/-- An attempt that fails short of the fourth, or a standby verify, goes on with a new attempt. -/
theorem State.attemptFails_trains {n : Nat} (attempt : (s.leg g).attempt = some n) (more : (s.leg g).standbyVerify ∨ n < 4) :
    s.attemptFails g cause = s.enterTrain g cause (if (s.leg g).standbyVerify then 1 else n + 1) := by
  unfold State.attemptFails
  dsimp only
  cases standby : (s.leg g).standbyVerify with
  | true => rfl
  | false =>
    rw [standby] at more
    have below : n < 4 := more.resolve_left Bool.false_ne_true
    rw [attempt]
    exact if_pos below

theorem State.attemptFails_faults {n : Nat} (attempt : (s.leg g).attempt = some n) (standby : (s.leg g).standbyVerify = false)
    (last : 4 ≤ n) : s.attemptFails g cause = s.enterFault g .trainFailed := by
  unfold State.attemptFails
  dsimp only
  rw [standby, attempt]
  exact if_neg (Nat.not_le_of_lt (Nat.lt_succ_of_le last))

end

end Sys2Proof.Machine

/-- Settles O15: the holdoff's end is the check of R28, the deadline's a failed attempt. -/
theorem hubTimersMoveTheLeg : Obligations.HubTimersMoveTheLeg := by
  unfold Obligations.HubTimersMoveTheLeg
  refine ⟨?_, ?_, ?_, ?_⟩
  · intro s g hub listen runs present
    refine ⟨_, exec_probeHoldoffExpiry runs, ?_⟩
    have record : (s.unheld g).leg g = { s.leg g with holdoff := none } := State.unheld_leg
    rw [State.checkListen_probes (s := s.unheld g) hub (by rw [record]; exact listen) (by rw [record])
      (State.unheld_allPresent.trans present)]
    obtain ⟨-, -, port, -, notices⟩ := (s.unheld g).enterProbe_rest g
    have spares := (State.spares_unheld.trans ((s.unheld g).spares_enterProbe g)).arbitrated false
    refine ⟨State.enterProbe_field Leg.state (fun _ => rfl) _ g false, State.enterProbe_field Leg.holdoff (fun _ => rfl) _ g false,
      State.enterProbe_field Leg.enteredAt (fun _ => rfl) _ g false, State.enterProbe_field Leg.attempt (fun _ => rfl) _ g false,
      fun empty => ?_, spares.others, spares.outside, spares.setting, ?_, fun room => ?_⟩
    · rw [State.arbitrate_notices, notices, record, listen]
      exact NoticeQueue.shows_post (by rw [show (s.unheld g).notices = s.notices from rfl, empty]; decide)
    · rw [State.arbitrate_port, port]
      rfl
    · rw [← State.unheld_ident]
      exact State.enterProbe_tells (by rw [record]; exact room) false
  · intro s g listen runs absent
    refine ⟨_, exec_probeHoldoffExpiry runs, ?_⟩
    have spares := (State.spares_unheld (s := s) (g := g)).arbitrated false
    rw [State.checkListen_stays (s := s.unheld g) (.inr (.inr (State.unheld_allPresent.trans absent)))]
    refine ⟨?_, spares.others, State.arbitrate_lanes _ _, State.arbitrate_notices _ _, spares.setting⟩
    rw [State.arbitrate_apart, State.unheld_leg]
    rfl
  · intro s g n hub runs attempting attempt more
    refine ⟨_, exec_attemptDeadlineExpiry hub runs, ?_⟩
    have failed := (s.attemptFails g .deadline).onward_arbitrate false |>.attemptFailed
      ((State.AsBefore.refl s g).attemptFails .deadline attempt attempting fun _ _ => ⟨rfl, rfl, rfl⟩)
    unfold State.AttemptFailed at failed
    rw [if_pos more] at failed
    obtain ⟨begins, retrains⟩ := failed
    rw [State.attemptFails_trains .deadline attempt more] at begins retrains ⊢
    have spares := (s.spares_enterTrain g .deadline (if (s.leg g).standbyVerify then 1 else n + 1)).arbitrated false
    have standby := (State.arbitrate_field Leg.standbyVerify (fun _ => rfl) (s.enterTrain g .deadline
      (if (s.leg g).standbyVerify then 1 else n + 1)) false g).trans
      (Leg.field_of_apart (s.enterTrain_apart g .deadline _) Leg.standbyVerify fun _ => rfl)
    obtain ⟨state, number, errCount, -, -, -, tells⟩ := id begins
    exact ⟨state, number, errCount, (tells hub).1, standby, retrains, spares.others, spares.outside, spares.taps, spares.setting,
      begins⟩
  · intro s g n hub runs attempting attempt standby last
    refine ⟨_, exec_attemptDeadlineExpiry hub runs, ?_⟩
    have off : (s.leg g).state ≠ .off := fun h => by rw [h] at attempting; cases attempting
    have fault : (s.leg g).state ≠ .fault := fun h => by rw [h] at attempting; cases attempting
    obtain ⟨p, record⟩ := State.enterFault_arbitrated off fault .trainFailed false
    have spares := (s.spares_enterFault g .trainFailed).arbitrated false
    rw [State.attemptFails_faults .deadline attempt standby last, record]
    exact ⟨rfl, rfl, rfl, rfl, rfl, rfl, rfl, spares.others, spares.outside, spares.taps, spares.setting⟩
end

