-- ==== Sys2Proof/Proofs/PresenceChanges.lean ====
section
/-! SUPPORT. A lane that flips (R14) and what the leg controller makes of it: signal loss (R38, R44), a wake event (R117), and
the entry to LISTEN that either may be, in each of its three ends (R28, R45). -/

open Sys2Proof Sys2Proof.Machine

namespace Sys2Proof.Machine

/-! ### The flip (R14) -/

/-- A lane's presence has flipped. -/
def State.seenAs (s : State) (c : LaneId) (p : Presence) : State := s.modLane c (fun l => { l with presence := p, debounce := 0 })

section
variable {s : State} {c : LaneId} {g : LegId} {level : Fin 64} (owner : (s.lane c).owner = some g)
  (scans : (s.leg g).state ≠ .off ∧ (s.leg g).state ≠ .fault) (top : 3 ≤ (s.lane c).debounce)
include owner scans top

theorem exec_scanReading_absent (was : (s.lane c).presence = .present) (weak : level.val < (s.leg g).presThreshold) :
    exec (.scanReading c level) s = .next (((s.seenAs c .absent).presenceChange g c .absent).arbitrate false) := by
  rw [exec_scanReading_scanned owner scans, decide_eq_false (Nat.not_le_of_lt weak), State.takeReading_flips (by simp [was]) top]
  rfl

theorem exec_scanReading_present (was : (s.lane c).presence = .absent) (strong : (s.leg g).presThreshold ≤ level.val) :
    exec (.scanReading c level) s = .next (((s.seenAs c .present).presenceChange g c .present).arbitrate false) := by
  rw [exec_scanReading_scanned owner scans, decide_eq_true strong, State.takeReading_flips (by simp [was]) top]
  rfl

end

theorem State.allPresent_congr {s t : State} {g : LegId} (window : (t.leg g).window = (s.leg g).window)
    (presence : ∀ c, (t.lane c).presence = (s.lane c).presence) : t.allPresent g = s.allPresent g := by
  unfold State.allPresent
  simp only [window, State.winLanes_congr window, presence]

section
variable {s : State} {g : LegId} {c : LaneId} (window : c ∈ s.winLanes g)
include window

theorem State.spares_seenAs (p : Presence) : s.Spares g (s.seenAs c p) where
  window := rfl
  others := fun _ _ => rfl
  outside := fun d hd => State.modLane_lane_other _ _ fun (e : d = c) => hd (e ▸ window)
  taps := fun d => by
    rw [State.seenAs, State.modLane_lane]
    split
    · rename_i e; rw [e]; exact ⟨rfl, rfl, rfl, rfl⟩
    · exact ⟨rfl, rfl, rfl, rfl⟩
  setting := ⟨rfl, rfl, rfl, rfl, rfl⟩

theorem State.seenAs_absent : (s.seenAs c .absent).allPresent g = false := by
  refine Bool.and_eq_false_iff.mpr (.inr (List.all_eq_false.mpr ⟨c, window, ?_⟩))
  rw [State.seenAs, State.modLane_lane_same]
  exact Bool.false_ne_true

/-- With lane c seen, every window lane is PRESENT where every other one is. -/
theorem State.seenAs_present :
    (s.seenAs c .present).allPresent g ↔ ∀ j ∈ s.winLanes g, j ≠ c → (s.lane j).presence = .present := by
  have installed : (s.leg g).window.isSome := by
    by_contra none
    simp [State.winLanes, Option.not_isSome_iff_eq_none.mp none] at window
  unfold State.allPresent
  rw [show (s.seenAs c .present).leg g = s.leg g from rfl, installed, Bool.true_and, List.all_eq_true]
  refine forall₂_congr fun j _ => ?_
  rw [beq_iff_eq, State.seenAs, State.modLane_lane]
  by_cases e : j = c
  · simp [e]
  · simp [e]

end

/-! ### Signal loss (R38, R44) -/

section
variable {u : State} {g : LegId}

/-- The states in which a lane gone ABSENT returns the leg to LISTEN. -/
def LegState.losesSignal (st : LegState) : Prop := st.receives ∨ st = .standby ∨ st = .probe

theorem LegState.losesSignal.awake {st : LegState} (h : st.losesSignal) : st ≠ .off ∧ st ≠ .fault := by
  rcases h with h | h | h
  · constructor <;> (intro e; rw [e] at h; cases h)
  · rw [h]; decide
  · rw [h]; decide

theorem State.hubSignalLoss_listens (loses : (u.leg g).state.losesSignal) : u.hubSignalLoss g
    = u.enterListen g .signalLoss true (!((u.leg g).sbLost || decide ((u.leg g).state = .probe))) := by
  unfold State.hubSignalLoss LegState.losesSignal at *
  cases state : (u.leg g).state <;> simp [state, LegState.receives] at loses ⊢

theorem State.endSignalLoss_listens (loses : (u.leg g).state.losesSignal) : u.endSignalLoss g
    = u.enterListen g .signalLoss false false := by
  unfold State.endSignalLoss LegState.losesSignal at *
  cases state : (u.leg g).state <;> simp [state, LegState.receives] at loses ⊢

/-- Signal loss is an entry to LISTEN that ends there: the lane is missing. -/
theorem State.absent_listens (loses : (u.leg g).state.losesSignal) (absent : u.allPresent g = false) (c : LaneId) :
    u.presenceChange g c .absent
      = u.listened g .signalLoss u.isHub (u.isHub && !((u.leg g).sbLost || decide ((u.leg g).state = .probe))) := by
  unfold State.presenceChange
  cases hub : u.isHub with
  | true =>
    rw [if_pos rfl, State.hubSignalLoss_listens loses]
    exact State.enterListen_stays _ _ _ (.inr absent)
  | false =>
    rw [if_neg Bool.false_ne_true, State.endSignalLoss_listens loses]
    exact State.enterListen_stays _ _ _ (.inr absent)

/-- In LISTEN and SLEEP nothing follows but, at an END in LISTEN, the end of the probe wait (R45). -/
theorem State.absent_recorded (state : (u.leg g).state = .listen ∨ (u.leg g).state = .sleep) (c : LaneId) :
    u.presenceChange g c .absent = if u.isHub = false ∧ (u.leg g).state = .listen then
      u.modLeg g (fun l => { l with probeWait := none }) else u := by
  unfold State.presenceChange State.hubSignalLoss State.endSignalLoss
  rcases state with e | e <;> rw [e] <;> cases u.isHub <;> rfl

end

/-! ### The leg after an entry to LISTEN, whatever its end -/

section
variable {v : State} {g : LegId} (cause : LegCause) (phase : Bool)

/-- A field that neither the entry to PROBE nor the probe wait moves is that of the entry to LISTEN. -/
theorem State.enterListen_field {α : Type} (f : Leg → α) (apart : ∀ l : Leg, f l.apart = f l)
    (probed : f (((v.leg g).listening v.role v.time false phase).entered v.role .probe none v.time)
      = f ((v.leg g).listening v.role v.time false phase))
    (waited : ∀ w, f { (v.leg g).listening v.role v.time false phase with probeWait := w }
      = f ((v.leg g).listening v.role v.time false phase)) :
    f ((v.enterListen g cause false phase).leg g) = f ((v.leg g).listening v.role v.time false phase) := by
  rcases State.enterListen_cases (s := v) (g := g) cause false phase with e | ⟨-, -, e⟩ | ⟨-, e⟩ <;> rw [e]
  · rw [State.listened_leg]
  · rw [State.enterProbe_leg, Leg.field_of_apart (Leg.push_requeued _ _).apart f apart, State.listened_leg,
      (v.acts_listened g cause false phase).role, (v.acts_listened g cause false phase).time]
    exact probed
  · rw [State.modLeg_leg_same, State.listened_leg]
    exact waited _

/-- The entry posts LEG_STATE records alone. -/
theorem State.enterListen_shows {k : NoticeKind} {o : Option LegId} {data : List Byte} (shown : v.notices.shows k o data)
    (other : .legState ≠ k) (few : v.notices.records.length ≤ 13) : (v.enterListen g cause false phase).notices.shows k o data := by
  have once : (v.listened g cause false phase).notices.shows k o data := by
    rw [State.listened_notices]
    exact shown.post (by omega) (.inl other)
  have room : (v.listened g cause false phase).notices.records.length ≤ 14 := by
    rw [State.listened_notices]
    exact NoticeQueue.length_post few
  rcases State.enterListen_cases (s := v) (g := g) cause false phase with e | ⟨-, -, e⟩ | ⟨-, e⟩ <;> rw [e]
  · exact once
  · obtain ⟨-, -, -, -, notices⟩ := (v.listened g cause false phase).enterProbe_rest g
    rw [notices]
    exact once.post (by omega) (.inl other)
  · exact once

theorem State.listened_ident (holdoff : Bool) : (v.listened g cause holdoff phase).ident g = v.ident g := by
  have acts := v.acts_listened g cause holdoff phase
  unfold State.ident
  rw [acts.role, (v.acts_listened g cause holdoff phase).window, State.listened_leg, State.listened]
  cases phase <;> simp [State.queueListen, Leg.listening, Leg.entered, Leg.flushed]

/-- Where the entry ends (R28): a HUB that sees every lane goes on to PROBE. -/
theorem State.enterListen_state :
    ((v.enterListen g cause false phase).leg g).state = if v.isHub ∧ v.allPresent g then .probe else .listen := by
  cases present : v.allPresent g with
  | false =>
    rw [State.enterListen_stays cause false phase (.inr present), State.listened_state, if_neg (by simp)]
  | true =>
    cases hub : v.isHub with
    | false => rw [State.enterListen_waits cause false phase hub present, State.modLeg_leg_same, State.listened_leg]; rfl
    | true =>
      rw [State.enterListen_probes cause phase hub present, State.enterProbe_leg, (Leg.push_requeued _ _).state]
      rfl

/-- An END's queue is empty then, and its probe wait runs where it sees every lane (R45). -/
theorem State.enterListen_end (atEnd : v.isHub = false) (ends : Bool) :
    (((v.enterListen g cause false false).arbitrate ends).leg g).queue = []
      ∧ (((v.enterListen g cause false false).arbitrate ends).leg g).probeWait
          = if v.allPresent g then some (v.time + 500000) else none := by
  rw [State.arbitrate_end _ _ (by rw [State.isHub, (v.acts_enterListen g cause false false).role]; exact atEnd)]
  cases present : v.allPresent g with
  | false =>
    rw [State.enterListen_stays cause false false (.inr present), State.listened_leg]
    exact ⟨rfl, rfl⟩
  | true =>
    rw [State.enterListen_waits cause false false atEnd present, State.modLeg_leg_same, State.listened_leg]
    exact ⟨rfl, rfl⟩

/-- A transaction in flight goes on being in flight. -/
theorem State.enterListen_busy (busy : v.tx.isSome) : (v.enterListen g cause false phase).tx.isSome := by
  have listened : (v.listened g cause false phase).tx.isSome := by rw [State.listened_tx, Option.isSome_map]; exact busy
  rcases State.enterListen_cases (s := v) (g := g) cause false phase with e | ⟨-, -, e⟩ | ⟨-, e⟩ <;> rw [e]
  · exact listened
  · rw [((v.listened g cause false phase).enterProbe_rest g).2.1, Option.isSome_map]
    exact listened
  · exact listened

/-- At a HUB the queue holds PHASE(LISTEN) where it is told, and the PROBE where every lane is PRESENT. -/
theorem State.enterListen_queue_hub (hub : v.isHub) :
    ((v.enterListen g cause false phase).leg g).queue
      = (if phase then [.phase .listen 0 .l] else []) ++ (if v.allPresent g then [.probe (v.ident g)] else []) := by
  have queue : ((v.listened g cause false phase).leg g).queue = if phase then [.phase .listen 0 .l] else [] := by
    rw [State.listened_leg]; rfl
  cases present : v.allPresent g with
  | false =>
    rw [State.enterListen_stays cause false phase (.inr present), queue, if_neg Bool.false_ne_true, List.append_nil]
  | true =>
    have place : (((v.listened g cause false phase).leg g).entered (v.listened g cause false phase).role .probe none
        (v.listened g cause false phase).time).hasRoom := by
      refine decide_eq_true ?_
      show ((v.listened g cause false phase).leg g).queue.length < 4
      rw [queue]
      cases phase <;> decide
    rw [State.enterListen_probes cause phase hub present, State.enterProbe_leg, Leg.push_room place, State.listened_ident,
      if_pos rfl]
    exact congrArg (· ++ _) queue

end

/-! ### A wake event (R117) -/

/-- A lane of a sleeping leg has gone PRESENT: wake pending, and WAKE posted. -/
def State.woken (s : State) (g : LegId) (c : LaneId) : State :=
  (s.modLeg g (fun l => { l with wakePending := true })).post .wake (some g) [byteOf c.val, boolByte (s.leg g).autoWake]

theorem State.woken_leg (s : State) (g : LegId) (c : LaneId) : (s.woken g c).leg g = { s.leg g with wakePending := true } :=
  s.modLeg_leg_same g (fun l => { l with wakePending := true })

theorem State.spares_woken (s : State) (g : LegId) (c : LaneId) : s.Spares g (s.woken g c) :=
  (s.spares_modLeg g (fun l => { l with wakePending := true }) rfl).trans (State.spares_post _ g _ _ _)

theorem State.present_wakes {s : State} {g : LegId} (sleep : (s.leg g).state = .sleep) (c : LaneId) :
    s.presenceChange g c .present = if (s.leg g).autoWake then
      (s.woken g c).enterListen g .wake false (s.isHub && (s.leg g).farId.isSome) else s.woken g c := by
  unfold State.presenceChange State.lanePresent
  rw [sleep]
  rfl

/-- The leg that signal loss leaves, with the arbiter's choice made (R38, R44). -/
theorem State.absent_relistens {u : State} {g : LegId} (loses : (u.leg g).state.losesSignal) (absent : u.allPresent g = false)
    (c : LaneId) : (u.leg g).Relistens (((u.presenceChange g c .absent).arbitrate false).leg g) u.time u.isHub := by
  rw [State.absent_listens loses absent c]
  refine Leg.relistens_of_apart (role := u.role) (phase := u.isHub && !((u.leg g).sbLost || decide ((u.leg g).state = .probe))) ?_
  rw [State.arbitrate_apart, State.listened_leg]

theorem State.absent_spares {u : State} {g : LegId} (loses : (u.leg g).state.losesSignal) (absent : u.allPresent g = false)
    (c : LaneId) : u.Spares g (u.presenceChange g c .absent) := by
  rw [State.absent_listens loses absent c, ← State.enterListen_stays _ _ _ (.inr absent)]
  exact u.spares_enterListen g _ _ _

/-- A lane gone ABSENT in LISTEN or SLEEP moves nothing else but an END's probe wait. -/
theorem State.recorded_absent {s : State} {g : LegId} {c : LaneId} : ∃ w,
    (if (s.seenAs c .absent).isHub = false ∧ ((s.seenAs c .absent).leg g).state = .listen then
        (s.seenAs c .absent).modLeg g (fun l => { l with probeWait := none }) else s.seenAs c .absent) = w
      ∧ w.lanes = (s.seenAs c .absent).lanes ∧ w.notices = s.notices ∧ s.settingKept w ∧ (∀ k, k ≠ g → w.leg k = s.leg k)
      ∧ w.leg g = { s.leg g with
          probeWait := if s.isHub = false ∧ (s.leg g).state = .listen then none else (s.leg g).probeWait } := by
  by_cases ends : s.isHub = false ∧ (s.leg g).state = .listen
  · refine ⟨_, if_pos ends, rfl, rfl, ⟨rfl, rfl, rfl, rfl, rfl⟩, fun k hk => State.modLeg_leg_other _ _ hk, ?_⟩
    rw [if_pos ends, State.modLeg_leg_same]
    rfl
  · refine ⟨_, if_neg ends, rfl, rfl, ⟨rfl, rfl, rfl, rfl, rfl⟩, fun _ _ => rfl, ?_⟩
    rw [if_neg ends]
    rfl

/-- What waits for a HUB's leg after signal loss: PHASE(LISTEN), unless the leg was in PROBE or the sideband lost (R38). -/
theorem State.absent_tells {u : State} {g : LegId} (hub : u.isHub) (loses : (u.leg g).state.losesSignal)
    (absent : u.allPresent g = false) (c : LaneId) :
    let t := (u.presenceChange g c .absent).arbitrate false
    (u.tx.isSome → (t.leg g).queue = if (u.leg g).sbLost ∨ (u.leg g).state = .probe then [] else [.phase .listen 0 .l])
      ∧ (u.tx = none → ((u.leg g).sbLost ∨ (u.leg g).state = .probe) → t.noPhase g)
      ∧ ((u.leg g).sbLost = false → (u.leg g).state ≠ .probe → t.sends g (.phase .listen 0 .l)) := by
  intro t
  set L := u.presenceChange g c .absent with hL
  have leg : L.leg g
      = (u.leg g).listening u.role u.time true (!((u.leg g).sbLost || decide ((u.leg g).state = .probe))) := by
    rw [hL, State.absent_listens loses absent c, State.listened_leg, hub, Bool.true_and]
  have tx : L.tx = u.tx.map (orphaned g) := by rw [hL, State.absent_listens loses absent c, State.listened_tx]
  refine ⟨fun busy => ?_, fun free silent => ?_, fun heard state => ?_⟩
  · obtain ⟨x, hx⟩ := Option.isSome_iff_exists.mp busy
    have stays : t = L := State.arbitrate_busy L false (orphaned g x) (by rw [tx, hx]; rfl)
    rw [stays, leg]
    by_cases silent : (u.leg g).sbLost ∨ (u.leg g).state = .probe
    · rw [if_pos silent]
      rcases silent with e | e <;> simp [Leg.listening, e]
    · rw [if_neg silent]
      obtain ⟨lost, probe⟩ := not_or.mp silent
      simp [Leg.listening, lost, probe]
  · have queue : (L.leg g).queue = [] := by
      rw [leg]
      rcases silent with e | e <;> simp [Leg.listening, e]
    have overflow : (L.leg g).overflow = none := by rw [leg]; rfl
    have unqueued : L.Unqueued g := ⟨queue, overflow, fun x hx => by rw [tx, free] at hx; cases hx⟩
    exact (unqueued.arbitrate false).noPhase
  · refine State.arbitrate_sends (State.sends_of_carries (.inl ?_)) false
    rw [leg]
    simp [Leg.listening, heard, state]

end Sys2Proof.Machine

/-- Settles O14: a flip to ABSENT is an entry to LISTEN, or is only recorded; one to PRESENT of a sleeping leg is a wake event. -/
theorem signalLossReturnsToListen : Obligations.SignalLossReturnsToListen := by
  unfold Obligations.SignalLossReturnsToListen
  refine ⟨?_, ?_, ?_⟩
  · intro s c g level owner loses was top weak window _
    replace loses : (s.leg g).state.losesSignal := loses
    refine ⟨_, exec_scanReading_absent owner loses.awake top was weak, ?_⟩
    set u := s.seenAs c .absent with hu
    have absent : u.allPresent g = false := State.seenAs_absent window
    have relistens := State.absent_relistens (u := u) loses absent c
    have listens := State.absent_listens (u := u) loses absent c
    have spares := ((State.spares_seenAs window .absent).trans (State.absent_spares (u := u) loses absent c)).arbitrated false
    refine ⟨relistens.state, relistens.enteredAt, relistens.retrains, relistens.negRate, relistens.farId, relistens.attempt,
      relistens.errCount, fun hub => ?_, fun hub => (State.absent_tells (u := u) hub loses absent c).1, fun atEnd => ⟨?_, ?_⟩,
      spares.others, fun hub => (State.absent_tells (u := u) hub loses absent c).2.1,
      fun hub => (State.absent_tells (u := u) hub loses absent c).2.2, fun empty => ?_⟩
    · rw [relistens.holdoff, show u.isHub = true from hub]
      rfl
    · rw [State.arbitrate_end _ _ (by rw [State.isHub, (u.acts_presenceChange g c .absent).role]; exact atEnd), listens,
        State.listened_leg, show u.isHub = false from atEnd]
      rfl
    · rw [relistens.holdoff, show u.isHub = false from atEnd]
      rfl
    · rw [State.arbitrate_notices, listens, State.listened_notices]
      exact NoticeQueue.shows_post (by rw [show u.notices = s.notices from rfl, empty]; decide)
  · intro s c g level owner sleep was top strong window _
    have scans : (s.leg g).state ≠ .off ∧ (s.leg g).state ≠ .fault := by rw [sleep]; decide
    refine ⟨_, exec_scanReading_present owner scans top was strong, ?_⟩
    set u := s.seenAs c .present with hu
    have leg : (u.woken g c).leg g = { s.leg g with wakePending := true } := u.woken_leg g c
    have spared := (State.spares_seenAs window .present).trans (u.spares_woken g c)
    have shown (empty : s.notices.records = []) :
        (u.woken g c).notices.shows .wake (some g) [byteOf c.val, boolByte (s.leg g).autoWake] :=
      NoticeQueue.shows_post (by rw [show (u.modLeg g _).notices = s.notices from rfl, empty]; decide)
    have few (empty : s.notices.records = []) : (u.woken g c).notices.records.length ≤ 1 :=
      NoticeQueue.length_post (by rw [show (u.modLeg g _).notices = s.notices from rfl, empty]; decide)
    rw [State.present_wakes (s := u) sleep c]
    cases auto : (s.leg g).autoWake with
    | false =>
      rw [show (u.leg g).autoWake = false from auto, if_neg Bool.false_ne_true]
      have spares := spared.arbitrated false
      have apart : (((u.woken g c).arbitrate false).leg g).apart = { (s.leg g).apart with wakePending := true } := by
        rw [State.arbitrate_apart, leg]; rfl
      have own {α : Type} (f : Leg → α) (h : ∀ l : Leg, f l.apart = f l) :=
        (State.arbitrate_field f h (u.woken g c) false g).trans (congrArg f leg)
      refine ⟨own Leg.wakePending fun _ => rfl, own Leg.resume fun _ => rfl, fun empty => ?_, fun _ => apart,
        fun h => (nomatch h), spares.others, spares.taps, spares.setting⟩
      rw [State.arbitrate_notices, ← auto]
      exact shown empty
    | true =>
      rw [show (u.leg g).autoWake = true from auto, if_pos rfl]
      set v := u.woken g c with hv
      set phase := u.isHub && (u.leg g).farId.isSome with hphase
      have hub : v.isHub = s.isHub := rfl
      have every : v.allPresent g = true ↔ ∀ j ∈ s.winLanes g, j ≠ c → (s.lane j).presence = .present := by
        rw [State.allPresent_congr (s := u) (t := v) (g := g) (by rw [leg]; rfl) fun _ => rfl]
        exact State.seenAs_present window
      have spares := (spared.trans (v.spares_enterListen g .wake false phase)).arbitrated false
      have wakePending : (v.leg g).wakePending = true := by rw [leg]
      have resume : (v.leg g).resume = (s.leg g).resume := by rw [leg]
      have own {α : Type} (f : Leg → α) (h : ∀ l : Leg, f l.apart = f l) (probed) (waited) :=
        (State.arbitrate_field f h _ false g).trans (State.enterListen_field (v := v) (g := g) .wake phase f h probed waited)
      refine ⟨(own Leg.wakePending (fun _ => rfl) rfl fun _ => rfl).trans wakePending,
        (own Leg.resume (fun _ => rfl) rfl fun _ => rfl).trans resume, fun empty => ?_,
        fun h => (nomatch h), fun _ => ⟨?_, own Leg.enteredAt (fun _ => rfl) rfl fun _ => rfl,
          own Leg.retrains (fun _ => rfl) rfl fun _ => rfl, own Leg.holdoff (fun _ => rfl) rfl fun _ => rfl,
          own Leg.negRate (fun _ => rfl) rfl fun _ => rfl, own Leg.farId (fun _ => rfl) rfl fun _ => rfl,
          fun isHub busy => ?_, fun atEnd => ?_⟩, spares.others, spares.taps, spares.setting⟩
      · rw [State.arbitrate_notices, ← auto]
        exact State.enterListen_shows .wake phase (shown empty) (by decide) (by have := few empty; omega)
      · rw [State.arbitrate_state, State.enterListen_state]
        simp only [hub, every]
      · obtain ⟨x, hx⟩ := Option.isSome_iff_exists.mp (State.enterListen_busy (v := v) (g := g) .wake phase busy)
        have ident : v.ident g = s.ident g := by
          unfold State.ident
          rw [leg]
          rfl
        rw [State.arbitrate_busy _ _ x hx, State.enterListen_queue_hub (v := v) .wake phase isHub, ident, hphase,
          show u.isHub = true from isHub, Bool.true_and]
        simp only [every]
        rfl
      · rw [hphase, show u.isHub = false from atEnd, Bool.false_and]
        obtain ⟨queue, wait⟩ := State.enterListen_end (v := v) (g := g) .wake atEnd false
        refine ⟨queue, ?_⟩
        rw [wait]
        simp only [every]
        rfl
  · intro s c g level owner state was top weak _
    have scans : (s.leg g).state ≠ .off ∧ (s.leg g).state ≠ .fault := by rcases state with e | e <;> rw [e] <;> decide
    refine ⟨_, exec_scanReading_absent owner scans top was weak, ?_⟩
    rw [State.absent_recorded (u := s.seenAs c .absent) state c]
    obtain ⟨w, hw, lanes, notices, setting, others, leg⟩ := State.recorded_absent (s := s) (g := g) (c := c)
    rw [hw]
    have lane (k : LaneId) : (w.arbitrate false).lane k = (s.seenAs c .absent).lane k := by
      rw [State.arbitrate_lane, State.lane, lanes]
      rfl
    refine ⟨(lane c).trans (State.modLane_lane_same ..), fun k hk => (lane k).trans (State.modLane_lane_other _ _ hk), ?_,
      (w.arbitrate_notices false).trans notices, fun k hk => ?_, State.settingKept_trans setting (w.arbitrate_settingKept false)⟩
    · rw [State.arbitrate_apart, leg]
      rfl
    · rw [State.arbitrate_apart, others k hk]
end

