-- ==== Sys2Proof/Proofs/StartsAndStops.lean ====
section
/-! SUPPORT. START_LEG and STOP_LEG (R25, R26): what the request comes to in each state, and the part after a stop. -/

open Sys2Proof Sys2Proof.Machine

namespace Sys2Proof.Machine

/-! ### The requests -/

section
variable {s : State} (takes : s.takesRequests) {g : LegId} (has : s.hasLeg g) (tag : Byte)
include takes has

theorem exec_startLeg : exec (.startLeg ⟨tag, [byteOf g.val]⟩) s = .next
    (if (s.leg g).state = .off ∧ (s.leg g).window.isSome then
      (((s.taken 0x05 tag).enterListen g .hostStart false false).reply .ok []).arbitrate false
     else (s.taken 0x05 tag).wrongState g) := by
  refine congrArg Host.Outcome.next ((State.takeRequest_taken takes _ _ _).trans ?_)
  unfold State.doStartLeg
  rw [State.forLeg_eq (n := 1) rfl (natAt_byteOf_cons g.val (by omega) []) (show (s.taken 0x05 tag).hasLeg g from has)]
  rfl

theorem exec_stopLeg : exec (.stopLeg ⟨tag, [byteOf g.val]⟩) s = .next
    (match (s.leg g).state with
     | .off => (s.taken 0x06 tag).reply .ok []
     | .fault => (s.taken 0x06 tag).wrongState g
     | _ => (((s.taken 0x06 tag).stopLeg g .hostStop).reply .ok []).arbitrate (s.grantHeldBy g)) := by
  refine congrArg Host.Outcome.next ((State.takeRequest_taken takes _ _ _).trans ?_)
  unfold State.doStopLeg
  rw [State.forLeg_eq (n := 1) rfl (natAt_byteOf_cons g.val (by omega) []) (show (s.taken 0x06 tag).hasLeg g from has)]
  rfl

/-- A running leg is stopped. -/
theorem exec_stopLeg_running (off : (s.leg g).state ≠ .off) (fault : (s.leg g).state ≠ .fault) :
    exec (.stopLeg ⟨tag, [byteOf g.val]⟩) s = .next
      ((((s.taken 0x06 tag).stopLeg g .hostStop).reply .ok []).arbitrate (s.grantHeldBy g)) := by
  rw [exec_stopLeg takes has]
  split
  · rename_i e; exact absurd e off
  · rename_i e; exact absurd e fault
  · rfl

end

theorem State.spares_taken (s : State) (g : LegId) (kind tag : Byte) : s.Spares g (s.taken kind tag) :=
  .of_traffic rfl rfl ⟨rfl, rfl, rfl, rfl, rfl⟩

theorem State.spares_reply (s : State) (g : LegId) (st : Status) (payload : List Byte) : s.Spares g (s.reply st payload) :=
  .of_traffic rfl rfl ⟨rfl, rfl, rfl, rfl, rfl⟩

/-- The fields of configuration and the sticky ones (R19). -/
def Leg.config (l : Leg) :=
  (l.window, l.rateCap, l.errThreshold, l.eyeFloor, l.presThreshold, l.autoWake, l.autoStart, l.lastFault, l.faultCount,
    l.wakePending)

theorem Leg.configKept_iff {l m : Leg} : l.configKept m ↔ m.config = l.config := by
  simp only [Leg.configKept, Leg.config, Prod.mk.injEq]

/-! ### Starting (R25, R28) -/

/-- Where no FAR_READ is in progress an entry to LISTEN answers none. -/
theorem State.enterListen_port {v : State} (h : v.port.slot.any (fun q => q.kind == farReadKind) = false) (g : LegId)
    (cause : LegCause) (phase : Bool) : (v.enterListen g cause false phase).port = v.port := by
  have listened := State.listened_port h g cause false phase
  rcases State.enterListen_cases (s := v) (g := g) cause false phase with e | ⟨-, -, e⟩ | ⟨-, e⟩ <;> rw [e]
  · exact listened
  · exact listened
  · exact listened

/-! ### Stopping (R26) -/

/-- A leg's record after a stop. -/
def Leg.stopped (l : Leg) (role : Role) (now : Time) : Leg :=
  { (l.entered role .off none now).flushed with timeouts := 0, passOver := 0, drainDone := false }

theorem State.stopLeg_lane (s : State) (g : LegId) (cause : LegCause) (c : LaneId) :
    (s.stopLeg g cause).lane c = (s.enter g .off cause none).lane c := by
  unfold State.stopLeg
  rw [State.modLeg_lane, State.lane, State.abandon_lanes, State.flush_lanes]
  rfl

theorem State.spares_stopLeg (s : State) (g : LegId) (cause : LegCause) : s.Spares g (s.stopLeg g cause) := by
  refine .of_frame (s.acts_stopLeg g cause).toLegFrame ?_ fun c hc => ?_
  · unfold State.stopLeg
    rw [State.modLeg_cable, State.abandon_cable, State.flush_cable]
    rfl
  · rw [State.stopLeg_lane]
    exact s.enter_outsideKept g .off cause none c hc

/-- What a stop does to the part but for legs and lanes: the transaction of the leg is dropped, LEG_STATE posted, an END's holds
emptied and its watch stopped (R134, R139, R142, R144). -/
theorem State.stopLeg_rest {s : State} (h : s.port.slot.any (fun q => q.kind == farReadKind) = false) (g : LegId) (cause : LegCause) :
    (s.stopLeg g cause).port = s.port ∧ (s.stopLeg g cause).grant = s.grant
      ∧ (s.stopLeg g cause).tx = (s.tx.map (orphaned g)).filter (fun x => x.leg ≠ g)
      ∧ (s.stopLeg g cause).notices
          = s.notices.post .legState (some g) [byteOf (s.leg g).state.code, 0, byteOf cause.code, 0] s.time
      ∧ (s.stopLeg g cause).resp = if s.isHub then s.resp else (s.resp.entered (s.leg g).state .off s.time).withoutBeat := by
  have flushed := State.flush_port (s := s.enter g .off cause none) h g
  have port : (s.stopLeg g cause).port = s.port :=
    (State.abandon_port (s := (s.enter g .off cause none).flush g) (by rw [flushed]; exact h) g).trans flushed
  refine ⟨port, ?_, ?_, ?_, ?_⟩ <;> unfold State.stopLeg
  · simp
  · simp
  · simp [State.enter_notices, LegState.code, byteOf]
  · simp only [State.modLeg_resp, State.abandon_resp, State.flush_resp, State.enter_resp, State.isHub, State.enter_role]
    by_cases hub : (s.role == Role.hubRole) = true <;> simp [hub]

/-! ### The part after the request, under the request's own state `u` -/

section
variable (u : State) (g : LegId) (b : Bool)

/-- A field that neither the choice of work, nor the entry to PROBE, nor the probe wait moves is that of the entry to LISTEN. -/
theorem State.start_field {α : Type} (f : Leg → α) (apart : ∀ l : Leg, f l.apart = f l)
    (probed : f (((u.leg g).listening u.role u.time false false).entered u.role .probe none u.time)
      = f ((u.leg g).listening u.role u.time false false))
    (waited : ∀ w, f { (u.leg g).listening u.role u.time false false with probeWait := w }
      = f ((u.leg g).listening u.role u.time false false)) :
    f ((((u.enterListen g .hostStart false false).reply .ok []).arbitrate b).leg g)
      = f ((u.leg g).listening u.role u.time false false) := by
  rw [State.arbitrate_field f apart, State.reply_leg]
  exact State.enterListen_field .hostStart false f apart probed waited

theorem State.start_config : (u.leg g).configKept ((((u.enterListen g .hostStart false false).reply .ok []).arbitrate b).leg g) :=
  Leg.configKept_iff.mpr (u.start_field g b Leg.config (fun _ => rfl) rfl fun _ => rfl)

/-- A HUB that already sees every lane PRESENT sends the PROBE (R28). -/
theorem State.start_probes (hub : u.isHub) (every : u.allPresent g = true) :
    (((u.enterListen g .hostStart false false).reply .ok []).arbitrate b).sends g (.probe (u.ident g)) := by
  refine State.arbitrate_sends (State.sends_of_carries (.inl ?_)) b
  rw [State.reply_leg, State.enterListen_queue_hub .hostStart false hub, every]
  exact List.mem_singleton_self _

/-- The stopped leg is OFF with nothing to send, so the choice that follows does not move its record. -/
theorem State.stop_leg : (((u.stopLeg g .hostStop).reply .ok []).arbitrate b).leg g = (u.leg g).stopped u.role u.time := by
  have record : ((u.stopLeg g .hostStop).reply .ok []).leg g = (u.leg g).stopped u.role u.time := by
    rw [State.reply_leg, State.stopLeg_leg]
    rfl
  exact (State.arbitrate_off (by rw [record]; rfl) (by rw [record]; rfl) b).trans record

theorem State.stop_config : (u.leg g).configKept ((((u.stopLeg g .hostStop).reply .ok []).arbitrate b).leg g) :=
  Leg.configKept_iff.mpr ((congrArg Leg.config (u.stop_leg g b)).trans rfl)

end

end Sys2Proof.Machine

/-- Settles O42: START_LEG is an entry to LISTEN by `State.enterListen_state`, and the stopped leg's record is `Leg.stopped`, which the
choice that follows does not move. -/
theorem startAndStopMoveTheLeg : Obligations.StartAndStopMoveTheLeg := by
  unfold Obligations.StartAndStopMoveTheLeg
  refine ⟨?_, ?_, ?_, ?_, ?_⟩
  · intro s g tag takes has off window
    refine ⟨_, (exec_startLeg takes has tag).trans (congrArg _ (if_pos ⟨off, Option.isSome_iff_ne_none.mpr window⟩)), ?_⟩
    have own {α : Type} (f : Leg → α) := (s.taken 0x05 tag).start_field g false f
    have spares := (((s.spares_taken g 0x05 tag).trans ((s.taken 0x05 tag).spares_enterListen g .hostStart false false)).trans
      (State.spares_reply _ g .ok [])).arbitrated false
    have present : (s.taken 0x05 tag).allPresent g = s.allPresent g := State.allPresent_congr rfl fun _ => rfl
    refine ⟨?_, own Leg.enteredAt (fun _ => rfl) rfl fun _ => rfl, own Leg.holdoff (fun _ => rfl) rfl fun _ => rfl,
      own Leg.retrains (fun _ => rfl) rfl fun _ => rfl, (s.taken 0x05 tag).start_config g false, ?_, spares.others, spares.outside,
      spares.taps, spares.setting, fun hub every => (s.taken 0x05 tag).start_probes g false hub (present.trans every)⟩
    · rw [State.arbitrate_state, State.reply_leg, State.enterListen_state, present]
      rfl
    · rw [State.arbitrate_port, State.reply_port, State.enterListen_port rfl]
      rfl
  · intro s g tag takes has refused
    rw [exec_startLeg takes has, if_neg fun h => refused.elim (absurd h.1) fun none => by rw [none] at h; cases h.2]
    rfl
  · intro s g tag takes has off fault
    refine ⟨_, exec_stopLeg_running takes has tag off fault, ?_⟩
    obtain ⟨port, grant, tx, notices, resp⟩ := State.stopLeg_rest (s := s.taken 0x06 tag) rfl g .hostStop
    have leg : _ = (s.leg g).stopped s.role s.time := (s.taken 0x06 tag).stop_leg g (s.grantHeldBy g)
    have free : ∀ x, (((s.taken 0x06 tag).stopLeg g .hostStop).reply .ok []).tx = some x → x.leg ≠ g := fun x hx => by
      rw [State.reply_tx, tx] at hx
      simpa using (Option.filter_eq_some_iff.mp hx).2
    have idle : ((((s.taken 0x06 tag).stopLeg g .hostStop).reply .ok []).leg g).state = .off := by
      rw [State.reply_leg, State.stopLeg_leg]
      rfl
    have own {α : Type} (f : Leg → α) := congrArg f leg
    have spares := (((s.spares_taken g 0x06 tag).trans ((s.taken 0x06 tag).spares_stopLeg g .hostStop)).trans
      (State.spares_reply _ g .ok [])).arbitrated (s.grantHeldBy g)
    refine ⟨own Leg.state, own Leg.queue, own Leg.overflow, own Leg.farId, own Leg.negRate, own Leg.attempt, own Leg.resume,
      own Leg.sbLost, own Leg.timeouts, own Leg.errCount, own Leg.retrains, own Leg.aggMerit, (s.taken 0x06 tag).stop_config g _,
      fun _ => State.arbitrate_tx_idle (.inl idle) free _, ?_, spares.others, spares.outside, spares.taps, spares.setting,
      own Leg.overflow, own Leg.reportHold,
      own Leg.healthHold, fun i => ?_, own Leg.passOver, own Leg.drainDone, ?_, own Leg.deadline, own Leg.holdoff, own Leg.probeWait,
      own Leg.adapt, own Leg.verify, own Leg.seq, own Leg.beat, own Leg.beatTaken, fun hub x hx mine r hr held => ?_,
      fun atEnd => ?_, own Leg.beacon, own Leg.farStatus, fun empty => ?_⟩
    · rw [State.arbitrate_port, State.reply_port, port]
      rfl
    · rw [leg]
      simp [Leg.stopped, Leg.flushed, Leg.entered, emptyStatusHold, emptyLaneHold, emptySet]
    · rw [leg]
      simp [Leg.stopped, Leg.flushed, Leg.entered, LegState.keepsAlive]
    · have free : (((s.taken 0x06 tag).stopLeg g .hostStop).reply .ok []).tx = none := by
        rw [State.reply_tx, tx, State.taken_tx, hx]
        simp [orphaned, mine]
      have ends : s.grantHeldBy g = true := by simp [State.grantHeldBy, hr, held]
      rw [ends]
      refine State.arbitrate_grantEnded ?_ free grant
      rw [State.isHub, State.reply_role, ((s.taken 0x06 tag).acts_stopLeg g .hostStop).role]
      exact hub
    · rw [State.arbitrate_resp, State.reply_resp, resp, State.taken_isHub, atEnd]
      exact ⟨rfl, rfl, rfl, rfl⟩
    · rw [State.arbitrate_notices, State.reply_notices, notices]
      exact ⟨_, NoticeQueue.mem_post_nil empty _ _ _ _, rfl, rfl, rfl⟩
  · intro s g tag takes has off
    rw [exec_stopLeg takes has, off]
    rfl
  · intro s g tag takes has fault
    rw [exec_stopLeg takes has, fault]
    refine congrArg Host.Outcome.next ?_
    rw [State.wrongState, State.taken_leg, fault]
    rfl
end

