-- ==== Sys2Proof/Proofs/PhaseChecks.lean ====
section
/-! SUPPORT. The checks of a PHASE at an END (R43): which PHASE is refused and why, and which is taken. -/

open Sys2Proof Sys2Proof.Machine

namespace Sys2Proof.Machine

theorem State.checkCommand_storePhase (s : State) {f : CommandBody} (length : f.data.length = 3) :
    s.checkCommand 3 4 f = s.takeStorePhase 3 4 f := by
  simp [State.checkCommand, carries, commandLength, length]

theorem exec_storePhase {s : State} {f : CommandBody} (takes : s.takesCommand 3 4 f) (length : f.data.length = 3) :
    exec (.storePhase 0 f) s = .next (s.heard.takeStorePhase 3 4 f) :=
  congrArg Host.Outcome.next ((State.takeCommand_fresh takes (by decide)).trans (s.heard.checkCommand_storePhase length))

theorem PhaseState.ofCode_code (st : PhaseState) : PhaseState.ofCode st.code = some st := by cases st <;> rfl

theorem PhaseState.code_of_ofCode {n : Nat} {st : PhaseState} (h : PhaseState.ofCode n = some st) : n = st.code := by
  unfold PhaseState.ofCode at h
  split at h <;> cases h <;> rfl

theorem PhaseState.code_lt (st : PhaseState) : st.code < 256 := by cases st <;> decide

theorem Rate.ofCode_code (r : Rate) : Rate.ofCode r.code = some r := by cases r <;> rfl

theorem Rate.code_lt (r : Rate) : r.code < 256 := by cases r <;> decide

/-- TRAIN, ADAPT and VERIFY are entered with an attempt of 1 to 4. -/
theorem phaseAttemptOk_iff {st : PhaseState} {n : Nat} :
    phaseAttemptOk st n = true ↔ (st = .train ∨ st = .adapt ∨ st = .verify → 1 ≤ n ∧ n ≤ 4) := by
  cases st <;> simp [phaseAttemptOk]

section
variable {s : State} {f : CommandBody}

theorem State.takeStorePhase_quiet (quiet : (s.leg 0).state = .listen ∨ (s.leg 0).state = .fault) :
    s.takeStorePhase 3 4 f = s.refuse 3 4 f .wrongState := if_pos quiet

variable (awake : (s.leg 0).state ≠ .listen ∧ (s.leg 0).state ≠ .fault)
include awake

theorem State.takeStorePhase_listen (named : natAt f.data 0 = 1) :
    s.takeStorePhase 3 4 f = (s.takePhase 0 .listen 0 .l).ack 3 4 f [] := by
  unfold State.takeStorePhase
  rw [if_neg (not_or.mpr awake), named]
  rfl

/-- A PHASE naming a state other than LISTEN is taken where its rate and attempt pass, and refused elsewhere. -/
theorem State.takeStorePhase_named {st : PhaseState} (ne : st ≠ .listen) (named : PhaseState.ofCode (natAt f.data 0) = some st) :
    s.takeStorePhase 3 4 f = match Rate.ofCode (natAt f.data 2) with
      | none => s.refuse 3 4 f .badValue
      | some r =>
        if phaseAttemptOk st (natAt f.data 1) ∧ r.code ≤ (s.leg 0).rateCap.code then
          (s.takePhase 0 st (natAt f.data 1) r).ack 3 4 f []
        else s.refuse 3 4 f .badValue := by
  unfold State.takeStorePhase
  rw [if_neg (not_or.mpr awake), named]
  cases st with
  | listen => exact absurd rfl ne
  | train | adapt | verify | run | standby | sleep => rfl

theorem State.takeStorePhase_taken {st : PhaseState} {a : Byte} {r : Rate} (ne : st ≠ .listen)
    (data : f.data = [byteOf st.code, a, byteOf r.code])
    (attempt : st = .train ∨ st = .adapt ∨ st = .verify → 1 ≤ a.toNat ∧ a.toNat ≤ 4)
    (cap : r.code ≤ (s.leg 0).rateCap.code) : s.takeStorePhase 3 4 f = (s.takePhase 0 st a.toNat r).ack 3 4 f [] := by
  have named : natAt f.data 0 = st.code := by rw [data]; exact byteOf_toNat st.code_lt
  have tries : natAt f.data 1 = a.toNat := by rw [data]; rfl
  have rate : natAt f.data 2 = r.code := by rw [data]; exact byteOf_toNat r.code_lt
  rw [State.takeStorePhase_named awake ne (by rw [named, st.ofCode_code]), rate, tries, r.ofCode_code]
  exact if_pos ⟨phaseAttemptOk_iff.mpr attempt, cap⟩

theorem State.takeStorePhase_badValue (ne : natAt f.data 0 ≠ 1)
    (bad : PhaseState.ofCode (natAt f.data 0) = none ∨ 2 < natAt f.data 2 ∨ (s.leg 0).rateCap.code < natAt f.data 2
      ∨ (natAt f.data 0 ∈ [3, 4, 5] ∧ (natAt f.data 1 < 1 ∨ 4 < natAt f.data 1))) :
    s.takeStorePhase 3 4 f = s.refuse 3 4 f .badValue := by
  cases named : PhaseState.ofCode (natAt f.data 0) with
  | none =>
    unfold State.takeStorePhase
    rw [if_neg (not_or.mpr awake), named]
  | some st =>
    have code := PhaseState.code_of_ofCode named
    rw [State.takeStorePhase_named awake (fun e => ne (by rw [code, e]; rfl)) named]
    split
    · rfl
    · rename_i r rate
      have rated := Rate.code_of_ofCode rate
      refine if_neg fun ok => ?_
      rcases bad with none | beyond | above | ⟨trains, out⟩
      · rw [named] at none; cases none
      · rw [Rate.ofCode_beyond beyond] at rate; cases rate
      · omega
      · have tries := phaseAttemptOk_iff.mp ok.1 (by rw [code] at trains; cases st <;> simp [PhaseState.code] at trains ⊢)
        omega

end

end Sys2Proof.Machine
end

