-- ==== Sys2Proof/Proofs/PhasesFollowed.lean ====
section
/-! SUPPORT. An END's entries by PHASE (R43, R68): what each leaves in the leg's record, which items it withdraws, and what it
leaves alone. -/

open Sys2Proof Sys2Proof.Machine

namespace Sys2Proof.Machine

/-! ### Training items withdrawn (R68) -/

/-- No training item of an END waits to be drained. -/
structure Leg.Untrained (l : Leg) : Prop where
  report : l.reportHold = none
  lanes : l.laneHold = emptyLaneHold
  queue : ∀ i ∈ l.queue, i.ofTraining = false

theorem Leg.firstLaneHeld_none {l : Leg} {role : Role} (empty : l.laneHold = emptyLaneHold) : l.firstLaneHeld role = none := by
  simp [Leg.firstLaneHeld, empty, emptyLaneHold]

/-- What an END's holds then give up is the health hold's request. -/
theorem Leg.Untrained.nextHeld {l m : Leg} {i : Item} (h : l.Untrained) (held : l.nextHeld .endRole = some (i, m)) :
    i = .retrainRequest ∧ m = { l with healthHold := false, reportHold := none } := by
  unfold Leg.nextHeld at held
  rw [h.report, Leg.firstLaneHeld_none h.lanes] at held
  dsimp only at held
  split at held
  · cases held; exact ⟨rfl, rfl⟩
  · cases held

theorem Leg.Untrained.queued {l : Leg} (h : l.Untrained) {i : Item} (other : i.ofTraining = false) :
    Leg.Untrained { l with queue := l.queue ++ [i] } where
  report := h.report
  lanes := h.lanes
  queue := fun j hj => by
    rcases List.mem_append.mp hj with old | new
    · exact h.queue j old
    · rw [List.mem_singleton.mp new]; exact other

theorem Leg.Untrained.fillHolds (n : Nat) : ∀ {l : Leg}, l.Untrained → (Leg.fillHolds .endRole n l).Untrained := by
  induction n with
  | zero => exact fun h => h
  | succ n ih =>
    intro l h
    unfold Leg.fillHolds
    split
    · split
      · rename_i i m held
        obtain ⟨rfl, rfl⟩ := h.nextHeld held
        exact ih (Leg.Untrained.queued (l := { l with healthHold := false, reportHold := none }) ⟨rfl, h.lanes, h.queue⟩ rfl)
      · exact h
    · exact h

theorem Leg.withdrawn_untrained (l : Leg) : (l.withdrawn .endRole).Untrained :=
  Leg.Untrained.fillHolds 4 ⟨rfl, rfl, fun i hi => by simpa using (List.mem_filter.mp hi).2⟩

/-! ### The entry (R43) -/

/-- The record a PHASE gives a leg, but for its queue and holds. -/
def Leg.phased (l : Leg) (role : Role) (new : LegState) (a : Option Nat) (r : Rate) (now : Time) : Leg :=
  { l.entered role new a now with negRate := some r }

section
variable (s : State) (g : LegId) (new : LegState) (a : Option Nat) (r : Rate)

theorem State.follow_leg : (s.follow g new a r).leg g = ((s.leg g).phased s.role new a r s.time).withdrawn s.role := by
  rw [State.follow, State.modLeg_leg_same, State.takeRate, State.modLeg_leg_same, State.enter_leg, if_pos rfl]
  rfl

theorem State.follow_apart : ((s.follow g new a r).leg g).apart = ((s.leg g).phased s.role new a r s.time).apart := by
  rw [State.follow_leg, (Leg.withdrawn_requeued _ _).same]
  rfl

theorem State.follow_untrained (atEnd : s.isHub = false) : ((s.follow g new a r).leg g).Untrained := by
  rw [State.follow_leg, State.role_of_isHub_false atEnd]
  exact Leg.withdrawn_untrained _

theorem State.follow_window : ((s.follow g new a r).leg g).window = (s.leg g).window := (s.acts_follow g new a r).window

theorem State.follow_lane (c : LaneId) :
    (s.follow g new a r).lane c = if (s.winLanes g).contains c then (s.lane c).entered new else s.lane c :=
  s.enter_lane g new .phase a c

theorem State.follow_cable : (s.follow g new a r).cable = s.cable := rfl

theorem State.follow_sameReceivers : s.sameReceivers (s.follow g new a r) := fun c => by
  rw [State.follow_lane]
  split <;> exact ⟨rfl, rfl, rfl⟩

theorem State.follow_outsideKept : s.outsideKept (s.follow g new a r) g := s.enter_outsideKept g new .phase a

end

/-! ### TRAIN (R68 to R70) -/

theorem State.startSearch_apart (s : State) (g : LegId) : ((s.startSearch g).leg g).apart
    = ({ s.leg g with resume := if (s.leg g).attempt = some 1 then false else (s.leg g).resume } : Leg).apart := by
  obtain ⟨-, -, -, apart⟩ := State.openLanes_spec g (s.winIndices g) s (s.winIndices_nodup g)
  have attempt := Leg.field_of_apart apart Leg.attempt fun _ => rfl
  have resume := Leg.field_of_apart apart Leg.resume fun _ => rfl
  rw [State.startSearch_leg, attempt, resume]
  exact congrArg (fun l : Leg => { l with resume := if (s.leg g).attempt = some 1 then false else (s.leg g).resume }) apart

/-- A search opened for attempt n opens each window lane as R69 and R70 say. -/
theorem State.startSearch_opens {w : State} {g : LegId} {n : Nat} (attempt : (w.leg g).attempt = some n) (pos : 1 ≤ n) {i : WinIx}
    (hi : w.hasIndex g i) : w.OpensLane (w.startSearch g) g n (w.leg g).negRate i := by
  obtain ⟨opened, -⟩ := State.openLanes_spec g (w.winIndices g) w (w.winIndices_nodup g)
  obtain ⟨lane, carried⟩ := opened i (State.mem_winIndices.mpr hi)
  obtain ⟨resumed, learned, preset⟩ := w.opening_spec g i attempt pos
  have out : (w.startSearch g).sends g (requestItem w.role i (w.opening g i).1) := by
    refine State.sends_of_carries ?_
    rw [(w.acts_startSearch g).role, State.startSearch_leg]
    exact (Leg.carries_congr rfl).mpr carried
  unfold State.OpensLane
  dsimp only
  rw [State.startSearch_lane, lane]
  refine ⟨rfl, fun r u hu => ?_, fun no l => ?_, fun no unfit => ?_⟩
  · rw [resumed r u hu] at out ⊢
    exact ⟨out, rfl, rfl⟩
  · rw [learned no l] at out ⊢
    exact ⟨out, rfl, rfl⟩
  · rw [preset no unfit] at out ⊢
    exact ⟨out, rfl, rfl⟩

/-- The state in which an END opens its search. -/
def State.beforeOpening (s : State) (g : LegId) (n : Nat) (r : Rate) : State :=
  (s.follow g .train (some n) r).modLeg g (fun l =>
    { l with errCount := 0, retrains := if (s.leg g).state.inService then min 3 (l.retrains + 1) else l.retrains })

theorem State.followTrain_eq (s : State) (g : LegId) (n : Nat) (r : Rate) :
    s.followTrain g n r = (s.beforeOpening g n r).startSearch g := rfl

section
variable (s : State) (g : LegId) (n : Nat) (r : Rate)

theorem State.beforeOpening_apart : ((s.beforeOpening g n r).leg g).apart
    = ({ (s.leg g).phased s.role .train (some n) r s.time with
          errCount := 0
          retrains := if (s.leg g).state.inService then min 3 ((s.leg g).retrains + 1) else (s.leg g).retrains } : Leg).apart := by
  have retrains : ((s.follow g .train (some n) r).leg g).retrains = (s.leg g).retrains :=
    Leg.field_of_apart (s.follow_apart g .train (some n) r) Leg.retrains fun _ => rfl
  unfold State.beforeOpening
  rw [State.modLeg_leg_same, retrains]
  exact congrArg (fun l : Leg => { l with
    errCount := 0
    retrains := if (s.leg g).state.inService then min 3 ((s.leg g).retrains + 1) else (s.leg g).retrains })
    (s.follow_apart g .train (some n) r)

theorem State.followTrain_apart : ((s.followTrain g n r).leg g).apart
    = ({ (s.leg g).phased s.role .train (some n) r s.time with
          errCount := 0
          retrains := if (s.leg g).state.inService then min 3 ((s.leg g).retrains + 1) else (s.leg g).retrains
          resume := if n = 1 then false else (s.leg g).resume } : Leg).apart := by
  have before := s.beforeOpening_apart g n r
  have attempt : ((s.beforeOpening g n r).leg g).attempt = some n := Leg.field_of_apart before Leg.attempt fun _ => rfl
  have resume : ((s.beforeOpening g n r).leg g).resume = (s.leg g).resume := Leg.field_of_apart before Leg.resume fun _ => rfl
  rw [State.followTrain_eq, State.startSearch_apart, attempt, resume]
  simp only [Option.some.injEq]
  exact congrArg (fun l : Leg => { l with resume := if n = 1 then false else (s.leg g).resume }) before

variable {s n}

/-- The END begins its attempt as the PHASE says (R68). -/
theorem State.followTrain_begins (atEnd : s.isHub = false) (pos : 1 ≤ n) : s.BeginsTrain (s.followTrain g n r) g n (some r) := by
  have field {α : Type} (f : Leg → α) (h : ∀ l : Leg, f l.apart = f l) := Leg.field_of_apart (s.followTrain_apart g n r) f h
  have before {α : Type} (f : Leg → α) (h : ∀ l : Leg, f l.apart = f l) := Leg.field_of_apart (s.beforeOpening_apart g n r) f h
  have window : ((s.beforeOpening g n r).leg g).window = (s.leg g).window := before Leg.window fun _ => rfl
  refine State.BeginsTrain.of_same (u := s.beforeOpening g n r) rfl rfl rfl window (before Leg.resume fun _ => rfl)
    (s.follow_sameReceivers g .train (some n) r) ⟨field Leg.state fun _ => rfl, field Leg.attempt fun _ => rfl,
      field Leg.errCount fun _ => rfl, field Leg.negRate fun _ => rfl, fun i hi => ?_, ?_, fun hub => ?_⟩
  · have opens := State.startSearch_opens (before Leg.attempt fun _ => rfl) pos hi
    rwa [show ((s.beforeOpening g n r).leg g).negRate = some r from before Leg.negRate fun _ => rfl] at opens
  · exact (field Leg.resume fun _ => rfl).trans (by rw [show _ = (s.leg g).resume from before Leg.resume fun _ => rfl])
  · rw [show (s.beforeOpening g n r).isHub = false from atEnd] at hub
    cases hub

end

/-! ### ADAPT (R80) -/

section
variable (s : State) (g : LegId) (n : Nat) (r : Rate)

theorem State.startAdapt_leg (w : State) : (w.startAdapt g).leg g = { w.leg g with
    adapt := some (vec8 (fun i => AdaptLane.start (w.lane (w.winLane g i)).peaking)) } := by
  rw [State.startAdapt, State.modWindow_leg, State.modLeg_leg_same]

theorem State.startAdapt_lane (w : State) (c : LaneId) : (w.startAdapt g).lane c
    = if (w.winLanes g).contains c then { w.lane c with peaking := (peakingCodes (w.lane c).peaking).headD (w.lane c).peaking }
      else w.lane c := by
  rw [State.startAdapt, State.modWindow_lane, State.modLeg_lane, State.winLanes_congr (s := w) (by rw [State.modLeg_leg_same])]

variable {s}

/-- The END starts its tally as the PHASE says. -/
theorem State.followAdapt_begins (atEnd : s.isHub = false) :
    s.BeginsAdapt ((s.follow g .adapt (some n) r).startAdapt g) g n := by
  have field {α : Type} (f : Leg → α) (h : ∀ l : Leg, f l.apart = f l) := Leg.field_of_apart (s.follow_apart g .adapt (some n) r) f h
  have peaking (c : LaneId) : ((s.follow g .adapt (some n) r).lane c).peaking = (s.lane c).peaking :=
    (s.follow_sameReceivers g .adapt (some n) r c).2.1
  have window := s.follow_window g .adapt (some n) r
  unfold State.BeginsAdapt
  rw [State.startAdapt_leg]
  refine ⟨field Leg.state fun _ => rfl, field Leg.attempt fun _ => rfl, ⟨_, rfl, fun i hi low => ?_⟩, fun hub => ?_⟩
  · rw [vec8_get, State.startAdapt_lane, State.winLanes_congr window,
      if_pos (List.contains_iff_mem.mpr (State.winLane_mem hi)), State.winLane_congr window]
    dsimp only
    rw [peaking, peakingCodes_head low, AdaptLane.start, peakingCodes_eq low]
    exact ⟨rfl, rfl⟩
  · rw [atEnd] at hub
    cases hub

end

/-! ### VERIFY (R84) -/

/-- The END starts its tally as the PHASE says. -/
theorem State.followVerify_begins {s : State} (g : LegId) (n : Nat) (r : Rate) (atEnd : s.isHub = false) :
    s.BeginsVerify (s.followVerify g n r) g n := by
  have field {α : Type} (f : Leg → α) (h : ∀ l : Leg, f l.apart = f l) :=
    Leg.field_of_apart ((s.cutShortAdapt g).follow_apart g .verify (some n) r) f h
  unfold State.BeginsVerify
  rw [State.followVerify, State.startVerify, State.modLeg_leg_same]
  refine ⟨field Leg.state fun _ => rfl, field Leg.attempt fun _ => rfl, ⟨_, rfl, fun i _ => by simp⟩, fun hub => ?_⟩
  rw [atEnd] at hub
  cases hub

theorem State.followVerify_sameReceivers (s : State) (g : LegId) (n : Nat) (r : Rate) :
    (s.cutShortAdapt g).sameReceivers (s.followVerify g n r) :=
  (s.cutShortAdapt g).follow_sameReceivers g .verify (some n) r

/-! ### UP (R87, R168) -/

section
variable {s : State} (g : LegId) (r : Rate)

/-- From VERIFY the END comes up and hands its learned entries over. -/
theorem State.followRun_verified (verify : (s.leg g).state = .verify) :
    ((s.followRun g r).leg g).upSince = some s.time ∧ s.HandsOver (s.followRun g r) g r := by
  have eq : s.followRun g r
      = ((s.follow g .up none r).modLeg g (fun l => { l with upSince := some s.time })).handOver g := if_pos verify
  have rate : ((s.follow g .up none r).leg g).negRate = some r := Leg.field_of_apart (s.follow_apart g .up none r) Leg.negRate fun _ => rfl
  rw [eq]
  refine ⟨by rw [State.handOver_leg, State.modLeg_leg_same], State.handOver_handsOver rfl ?_ ?_ (s.follow_sameReceivers g .up none r)⟩
  · rw [State.modLeg_leg_same]
    exact s.follow_window g .up none r
  · rw [State.modLeg_leg_same, Leg.phaseRate, rate]
    rfl

theorem State.followRun_quiet (verify : (s.leg g).state ≠ .verify) : s.followRun g r = s.follow g .up none r := if_neg verify

theorem State.followRun_apart : ((s.followRun g r).leg g).apart = ({ (s.leg g).phased s.role .up none r s.time with
    upSince := if (s.leg g).state = .verify then some s.time else (s.leg g).upSince } : Leg).apart := by
  by_cases verify : (s.leg g).state = .verify
  · have eq : s.followRun g r
        = ((s.follow g .up none r).modLeg g (fun l => { l with upSince := some s.time })).handOver g := if_pos verify
    rw [eq, State.handOver_leg, State.modLeg_leg_same, if_pos verify]
    exact congrArg (fun l : Leg => { l with upSince := some s.time }) (s.follow_apart g .up none r)
  · rw [State.followRun_quiet g r verify, if_neg verify]
    exact s.follow_apart g .up none r

end

/-! ### Every PHASE but PHASE(LISTEN) -/

section
variable {s : State} (g : LegId) {st : PhaseState} (ne : st ≠ .listen) (n : Nat) (r : Rate)
include ne

/-- The leg enters the named state, with the item's rate and, for the first three, its attempt. -/
theorem State.takePhase_named : ((s.takePhase g st n r).leg g).state = st.legState
    ∧ ((s.takePhase g st n r).leg g).negRate = some r
    ∧ ((s.takePhase g st n r).leg g).attempt = if st = .train ∨ st = .adapt ∨ st = .verify then some n else none := by
  have by_apart {m : Leg} {new : LegState} {a : Option Nat} {l : Leg} (h : m.apart = l.apart) (state : l.state = new)
      (rate : l.negRate = some r) (attempt : l.attempt = a) : m.state = new ∧ m.negRate = some r ∧ m.attempt = a :=
    ⟨(Leg.field_of_apart h Leg.state fun _ => rfl).trans state, (Leg.field_of_apart h Leg.negRate fun _ => rfl).trans rate,
      (Leg.field_of_apart h Leg.attempt fun _ => rfl).trans attempt⟩
  cases st with
  | listen => exact absurd rfl ne
  | train => exact by_apart (s.followTrain_apart g n r) rfl rfl rfl
  | adapt =>
    have record := by_apart (s.follow_apart g .adapt (some n) r) rfl rfl rfl
    rw [State.takePhase, State.startAdapt_leg]
    exact record
  | verify =>
    have record := by_apart ((s.cutShortAdapt g).follow_apart g .verify (some n) r) rfl rfl rfl
    rw [State.takePhase, State.followVerify, State.startVerify, State.modLeg_leg_same]
    exact record
  | run => exact by_apart (s.followRun_apart g r) rfl rfl rfl
  | standby =>
    rw [State.takePhase, State.takeRate, State.modLeg_leg_same, State.enter_leg, if_pos rfl]
    exact ⟨rfl, rfl, rfl⟩
  | sleep =>
    rw [State.takePhase, State.modLeg_leg_same, State.takeRate, State.modLeg_leg_same, State.enter_leg, if_pos rfl]
    exact ⟨rfl, rfl, rfl⟩

end

/-- Training items of before are gone in ADAPT, VERIFY and RUN. -/
theorem State.takePhase_untrained {s : State} (atEnd : s.isHub = false) (g : LegId) {st : PhaseState}
    (names : st = .adapt ∨ st = .verify ∨ st = .run) (n : Nat) (r : Rate) : ((s.takePhase g st n r).leg g).Untrained := by
  have same {l m : Leg} (h : l.Untrained) (held : m.reportHold = l.reportHold ∧ m.laneHold = l.laneHold ∧ m.queue = l.queue) :
      m.Untrained := ⟨held.1.trans h.report, held.2.1.trans h.lanes, by rw [held.2.2]; exact h.queue⟩
  rcases names with rfl | rfl | rfl
  · refine same (s.follow_untrained g .adapt (some n) r atEnd) ?_
    rw [State.takePhase, State.startAdapt_leg]
    exact ⟨rfl, rfl, rfl⟩
  · refine same ((s.cutShortAdapt g).follow_untrained g .verify (some n) r ?_) ?_
    · rw [State.isHub, (s.cutShortAdapt_frame g).1.role]; exact atEnd
    · rw [State.takePhase, State.followVerify, State.startVerify, State.modLeg_leg_same]
      exact ⟨rfl, rfl, rfl⟩
  · refine same (s.follow_untrained g .up none r atEnd) ?_
    rw [State.takePhase, State.followRun]
    split
    · rw [State.handOver_leg, State.modLeg_leg_same]
      exact ⟨rfl, rfl, rfl⟩
    · exact ⟨rfl, rfl, rfl⟩

end Sys2Proof.Machine
end

