-- ==== Sys2Proof/Proofs/AdaptCutShort.lean ====
section
/-! SUPPORT. PHASE(VERIFY) during an END's ADAPT (R83): the choice among the codes measured so far, and the mark of a failed
adapt; and the lanes outside the window through every entry by PHASE. -/

open Sys2Proof Sys2Proof.Machine

namespace Sys2Proof.Machine

/-! ### The choice among the codes measured so far (R81, R83) -/

theorem map_fst_zip_sublist {α β : Type} : ∀ (l : List α) (m : List β), ((l.zip m).map Prod.fst).Sublist l
  | [], m => by simp
  | a :: l, [] => by simp
  | a :: l, b :: m => by simpa using map_fst_zip_sublist l m

namespace AdaptLane

variable {a : AdaptLane}

theorem tied_ascending_so_far (entry : a.entry ≤ 15) (codes : a.candidates = peakingCodes a.entry) : a.tied.Pairwise (· < ·) := by
  refine List.Pairwise.sublist ((List.filter_sublist.map Prod.fst).trans (map_fst_zip_sublist _ _)) ?_
  rw [codes]
  exact peakingCodes_ascending entry

theorem tied_ne_nil_so_far (few : a.measured.length ≤ a.candidates.length) (some : a.measured ≠ []) : a.tied ≠ [] := by
  obtain ⟨k, hk, e⟩ := List.mem_iff_getElem.mp (AdaptLane.highest_mem some)
  have tried : a.candidates[k] ∈ a.tied := by
    rw [AdaptLane.mem_tied, ← e]
    exact List.mem_iff_getElem.mpr ⟨k, by simp only [List.length_zip]; omega, List.getElem_zip⟩
  exact List.ne_nil_of_mem tried

/-- The choice is a tied code, the entry where that is tied and else the lowest. -/
theorem choice_tied (ascending : a.tied.Pairwise (· < ·)) (some : a.tied ≠ []) :
    a.choice ∈ a.tied ∧ ∀ q ∈ a.tied, (q = a.entry → a.choice = a.entry) ∧ (a.choice = a.entry ∨ a.choice ≤ q) := by
  rw [AdaptLane.choice_eq]
  by_cases holds : a.entry ∈ a.tied
  · rw [if_pos (List.contains_iff_mem.mpr holds)]
    exact ⟨holds, fun _ _ => ⟨fun _ => rfl, .inl rfl⟩⟩
  · rw [if_neg (by rwa [List.contains_iff_mem])]
    obtain ⟨p, ps, tied⟩ := List.exists_cons_of_ne_nil some
    rw [tied] at holds ascending ⊢
    refine ⟨List.mem_cons_self, fun q hq => ⟨fun k => absurd (k ▸ hq) holds, .inr ?_⟩⟩
    rcases List.mem_cons.mp hq with head | later
    · exact head.ge
    · exact (List.rel_of_pairwise_cons ascending later).le

/-- The choice among the codes measured so far is the one R81 names. -/
theorem choice_best_so_far (ok : a.Ok) (stage : a.stage = .peaking) (some : a.measured ≠ []) :
    bestCode a.candidates a.measured a.entry a.choice := by
  obtain ⟨entry, codes, peaking⟩ := ok
  obtain ⟨chosen, first⟩ :=
    choice_tied (tied_ascending_so_far entry codes) (tied_ne_nil_so_far (peaking stage).1.le some)
  refine ⟨(a.choice, a.highest), AdaptLane.mem_tied.mp chosen, rfl, fun y hy =>
    ⟨AdaptLane.le_highest (List.of_mem_zip hy).2, fun same => first y.1 (AdaptLane.mem_tied.mpr ?_)⟩⟩
  rwa [← show y.2 = a.highest from same]

/-! ### A lane cut short (R83) -/

theorem cutShort_measured (stage : a.stage = .peaking) (some : a.measured ≠ []) (p : Nat) :
    a.cutShort p = ({ a with failed := a.measured.all (fun m => m == 0) }, a.choice) := by
  unfold cutShort
  rw [stage, ← AdaptLane.highest_zero]
  exact if_neg some

theorem cutShort_unmeasured (stage : a.stage = .peaking) (none : a.measured = []) (p : Nat) : a.cutShort p = (a, a.entry) := by
  unfold cutShort
  rw [stage]
  exact if_pos none

theorem cutShort_past (stage : a.stage ≠ .peaking) (p : Nat) : a.cutShort p = (a, p) := by
  unfold cutShort
  cases e : a.stage with
  | peaking => exact absurd e stage
  | feedback | complete => rfl

theorem cutShort_failed (ok : a.Ok) (p : Nat) : (a.cutShort p).1.failed = true
    ↔ a.failed = true ∨ (a.stage = .peaking ∧ a.measured ≠ [] ∧ a.measured.all (fun m => m == 0)) := by
  obtain ⟨-, -, peaking⟩ := ok
  by_cases stage : a.stage = .peaking
  · by_cases none : a.measured = []
    · rw [cutShort_unmeasured stage none]
      simp [none]
    · rw [cutShort_measured stage none]
      simp [stage, none, (peaking stage).2]
  · rw [cutShort_past stage]
    simp [stage]

/-- The peaking a lane is left with. -/
theorem cutShort_peaking (ok : a.Ok) (p : Nat) : if a.stage = .peaking ∧ a.measured ≠ [] then
      bestCode a.candidates a.measured a.entry (a.cutShort p).2
    else (a.cutShort p).2 = if a.stage = .peaking then a.entry else p := by
  by_cases stage : a.stage = .peaking
  · by_cases none : a.measured = []
    · rw [cutShort_unmeasured stage none, if_neg fun h => h.2 none, if_pos stage]
    · rw [cutShort_measured stage none, if_pos ⟨stage, none⟩]
      exact choice_best_so_far ok stage none
  · rw [cutShort_past stage, if_neg fun h => stage h.1, if_neg stage]

end AdaptLane

/-! ### A leg cut short (R83) -/

section
variable {s : State} {g : LegId}

theorem State.cutShortAdapt_idle (none : (s.leg g).adapt = none) : s.cutShortAdapt g = s := by
  unfold State.cutShortAdapt
  rw [none]

variable {v : Vector AdaptLane 8} (tally : (s.leg g).adapt = some v)
include tally

theorem State.cutShortAdapt_leg : (s.cutShortAdapt g).leg g = { s.leg g with
    adapt := some (vec8 (fun i => if s.hasIndex g i then (v[i].cutShort 0).1 else v[i])) } := by
  unfold State.cutShortAdapt
  rw [tally]
  exact State.modLeg_leg_same ..

theorem State.cutShortAdapt_inside {c : LaneId} {i : WinIx} (index : (s.leg g).window.bind (fun w => w.indexOf c) = some i) :
    (s.cutShortAdapt g).lane c = { s.lane c with peaking := (v[i].cutShort (s.lane c).peaking).2 } := by
  unfold State.cutShortAdapt
  rw [tally]
  dsimp only
  rw [State.modLeg_lane, State.mapLanes_lane, index]

theorem State.cutShortAdapt_outside {c : LaneId} (index : (s.leg g).window.bind (fun w => w.indexOf c) = none) :
    (s.cutShortAdapt g).lane c = s.lane c := by
  unfold State.cutShortAdapt
  rw [tally]
  dsimp only
  rw [State.modLeg_lane, State.mapLanes_lane, index]

theorem State.cutShortAdapt_d1 (c : LaneId) : ((s.cutShortAdapt g).lane c).d1 = (s.lane c).d1 := by
  cases index : (s.leg g).window.bind (fun w => w.indexOf c) with
  | none => rw [State.cutShortAdapt_outside tally index]
  | some i => rw [State.cutShortAdapt_inside tally index]

/-- A lane of the tally has failed after the cut exactly where it had before, or where all it measured is 0. -/
theorem State.cutShortAdapt_hasFailed (ok : ∀ i : WinIx, v[i].Ok) : ((s.cutShortAdapt g).leg g).adaptHasFailed = true
    ↔ (∃ i : WinIx, v[i].failed = true)
      ∨ ∃ i ∈ s.winIndices g, v[i].stage = .peaking ∧ v[i].measured ≠ [] ∧ v[i].measured.all (fun m => m == 0) := by
  have marked (i : WinIx) : (if s.hasIndex g i then (v[i].cutShort 0).1 else v[i]).failed = true ↔ v[i].failed = true
      ∨ (i ∈ s.winIndices g ∧ v[i].stage = .peaking ∧ v[i].measured ≠ [] ∧ v[i].measured.all (fun m => m == 0)) := by
    rw [State.mem_winIndices]
    by_cases hi : s.hasIndex g i
    · rw [if_pos hi, AdaptLane.cutShort_failed (ok i)]
      simp only [hi, true_and]
    · rw [if_neg hi]
      simp only [hi, Bool.false_eq_true, false_and, or_false]
  unfold Leg.adaptHasFailed
  rw [State.cutShortAdapt_leg tally, Option.any_some, Vector.any_toList, Vector.any_iff_exists, ← exists_or]
  constructor
  · rintro ⟨i, hi, failed⟩
    refine ⟨⟨i, hi⟩, (marked ⟨i, hi⟩).mp ?_⟩
    rwa [← vec8_get (fun i => if s.hasIndex g i then (v[i].cutShort 0).1 else v[i])]
  · rintro ⟨i, failed⟩
    refine ⟨i.val, i.isLt, ?_⟩
    have := vec8_get (fun i => if s.hasIndex g i then (v[i].cutShort 0).1 else v[i]) i
    exact (congrArg AdaptLane.failed this).trans ((marked i).mpr failed)

end

theorem State.cutShortAdapt_outsideKept (s : State) (g : LegId) : s.outsideKept (s.cutShortAdapt g) g := fun c hc => by
  cases tally : (s.leg g).adapt with
  | none => rw [State.cutShortAdapt_idle tally]
  | some v =>
    refine State.cutShortAdapt_outside tally (Option.eq_none_iff_forall_ne_some.mpr fun i index => hc ?_)
    obtain ⟨w, window, found⟩ := Option.bind_eq_some_iff.mp index
    exact State.mem_winLanes_of_indexOf window (by rw [found]; simp)

/-- The adaptation of the leg is marked failed on the way to VERIFY exactly where a lane of it has failed (R83, R85). -/
theorem State.followVerify_adaptFailed {s : State} {g : LegId} {v : Vector AdaptLane 8} (tally : (s.leg g).adapt = some v)
    (atEnd : s.isHub = false) (n : Nat) (r : Rate) : ((s.followVerify g n r).leg g).adaptFailed = true
      ↔ (s.leg g).adaptFailed = true ∨ ((s.cutShortAdapt g).leg g).adaptHasFailed = true := by
  have role : (s.cutShortAdapt g).role = .endRole :=
    (s.cutShortAdapt_frame g).1.role.trans (State.role_of_isHub_false atEnd)
  have kept : ((s.cutShortAdapt g).leg g).adaptFailed = (s.leg g).adaptFailed := by rw [State.cutShortAdapt_leg tally]
  have marked := Leg.field_of_apart ((s.cutShortAdapt g).follow_apart g .verify (some n) r) Leg.adaptFailed fun _ => rfl
  rw [State.followVerify, State.startVerify, State.modLeg_leg_same, ← kept, ← Bool.or_eq_true]
  dsimp only
  rw [marked, role]
  exact Iff.rfl

/-! ### Lanes outside the window -/

/-- An entry by PHASE moves lanes of the window alone. -/
theorem State.takePhase_outsideKept (s : State) (g : LegId) {st : PhaseState} (ne : st ≠ .listen) (n : Nat) (r : Rate) :
    s.outsideKept (s.takePhase g st n r) g := by
  cases st with
  | listen => exact absurd rfl ne
  | train =>
    have before : s.outsideKept (s.beforeOpening g n r) g := s.follow_outsideKept g .train (some n) r
    have window : ((s.beforeOpening g n r).leg g).window = (s.leg g).window :=
      Leg.field_of_apart (s.beforeOpening_apart g n r) Leg.window fun _ => rfl
    exact before.trans (State.winLanes_congr window) ((s.beforeOpening g n r).startSearch_outsideKept g)
  | adapt =>
    intro c hc
    rw [State.takePhase, State.startAdapt_lane, State.winLanes_congr (s.follow_window g .adapt (some n) r),
      if_neg (by simpa using hc)]
    exact s.follow_outsideKept g .adapt (some n) r c hc
  | verify =>
    exact (s.cutShortAdapt_outsideKept g).trans (State.winLanes_congr (s.cutShortAdapt_frame g).1.window)
      ((s.cutShortAdapt g).follow_outsideKept g .verify (some n) r)
  | run =>
    intro c hc
    have lane : (s.followRun g r).lane c = (s.follow g .up none r).lane c := by
      unfold State.followRun
      split <;> rfl
    exact lane.trans (s.follow_outsideKept g .up none r c hc)
  | standby => exact s.enter_outsideKept g .standby .phase none
  | sleep => exact s.enter_outsideKept g .sleep .phase none

end Sys2Proof.Machine
end

