-- ==== Sys2Proof/Proofs/PhasesAtEnd.lean ====
section
/-! SUPPORT. A PHASE frame at an END (R43): each clause of the statement, from the frame to the answer. -/

open Sys2Proof Sys2Proof.Machine

namespace Sys2Proof.Machine

/-! ### Through the frame heard and the answer -/

theorem State.heard_sameReceivers (s : State) : s.sameReceivers s.heard := fun c => by
  rw [s.heard_lane]
  exact ⟨rfl, rfl, rfl⟩

theorem State.heard_tapsKept {s x : State} (h : s.heard.tapsKept x) : s.tapsKept x := fun c => by
  have taps := h c
  rwa [s.heard_lane] at taps

theorem State.HandsOver.of_cable {s x t : State} {g : LegId} {r : Rate} (h : s.HandsOver x g r) (cable : t.cable = x.cable) :
    s.HandsOver t g r := by
  unfold State.HandsOver at h ⊢
  rwa [cable]

theorem State.AsBefore.handsOver {s u t : State} {g : LegId} {r : Rate} (b : s.AsBefore u g) (lanes : s.sameReceivers u)
    (h : u.HandsOver t g r) : s.HandsOver t g r := by
  unfold State.HandsOver at h ⊢
  simp only [b.cable, b.winLanes, (lanes _).1, (lanes _).2.1, (lanes _).2.2] at h
  exact h

/-- The state t is x with the ACK of a PHASE sent and held. -/
structure State.Acked (x : State) (f : CommandBody) (t : State) : Prop where
  leg : ∀ k, t.leg k = x.leg k
  lane : ∀ c, t.lane c = x.lane c
  cable : t.cable = x.cable
  onward : x.Onward t
  sent : t.resp.lastSent = some (responseFrame 1 f.seq false 4 0 [])
  held : t.resp.held = some ⟨f.seq, 3, 4, f.lane, f.data, responseFrame 1 f.seq false 4 0 []⟩

theorem State.ack_acked (x : State) (f : CommandBody) : x.Acked f (x.ack 3 4 f []) :=
  ⟨fun _ => rfl, fun _ => rfl, rfl, .of_eq rfl rfl rfl rfl rfl, rfl, rfl⟩

theorem State.Acked.tapsKept {s x t : State} {f : CommandBody} (h : x.Acked f t) (taps : s.tapsKept x) : s.tapsKept t := fun c => by
  rw [h.lane]
  exact taps c

section
variable {s : State} {f : CommandBody} (takes : s.takesCommand 3 4 f)
include takes

/-! ### Refusals -/

/-- A refused PHASE is answered and moves nothing. -/
theorem exec_storePhase_refused (length : f.data.length = 3) {why : RefuseReason}
    (refused : s.heard.takeStorePhase 3 4 f = s.heard.refuse 3 4 f why) : ∃ t, exec (.storePhase 0 f) s = .next t
      ∧ (t.leg 0).state = (s.leg 0).state ∧ t.resp.lastSent = some (responseFrame 3 f.seq false 4 why.code [])
      ∧ t.lanes = s.lanes := by
  obtain ⟨lanes, sent, -, state, -⟩ := s.heard_refuse 3 4 f why
  exact ⟨_, (exec_storePhase takes length).trans (congrArg _ refused), state, sent, lanes⟩

variable (awake : (s.leg 0).state ≠ .listen ∧ (s.leg 0).state ≠ .fault)
include awake

/-! ### A PHASE taken -/

theorem exec_storePhase_taken {st : PhaseState} {a : Byte} {r : Rate} (ne : st ≠ .listen)
    (data : f.data = [byteOf st.code, a, byteOf r.code])
    (attempt : st = .train ∨ st = .adapt ∨ st = .verify → 1 ≤ a.toNat ∧ a.toNat ≤ 4) (cap : r.code ≤ (s.leg 0).rateCap.code) :
    ∃ t, exec (.storePhase 0 f) s = .next t ∧ (s.heard.takePhase 0 st a.toNat r).Acked f t := by
  refine ⟨_, (exec_storePhase takes (by rw [data]; rfl)).trans
    (congrArg _ (State.takeStorePhase_taken (by rwa [s.heard_state]) ne data attempt ?_)), State.ack_acked _ f⟩
  rw [s.heard_leg_zero]
  exact cap

/-- PHASE(LISTEN) (R43, R44). -/
theorem exec_storePhase_listen (length : f.data.length = 3) (named : natAt f.data 0 = 1) : ∃ t, exec (.storePhase 0 f) s = .next t
    ∧ (t.leg 0).state = .listen ∧ (t.leg 0).queue = [] ∧ (t.leg 0).retrains = 0 ∧ (t.leg 0).farId = none
    ∧ (t.leg 0).negRate = none ∧ t.resp.lastSent = some (responseFrame 1 f.seq false 4 0 []) ∧ s.tapsKept t := by
  have acked := (s.heard.takePhase 0 .listen 0 .l).ack_acked f
  refine ⟨_, (exec_storePhase takes length).trans
    (congrArg _ (State.takeStorePhase_listen (by rwa [s.heard_state]) named)), ?_⟩
  obtain ⟨wait, leg⟩ := State.enterListen_leg_end (g := 0) (s.heard_isHub.trans takes.1) .phase false false
  have taps := (s.spares_heard.trans (s.heard.spares_enterListen 0 .phase false false)).taps
  rw [acked.leg, State.takePhase, leg]
  exact ⟨rfl, rfl, rfl, rfl, rfl, acked.sent, acked.tapsKept taps⟩

end

/-! ### What a PHASE taken comes to -/

section
variable {s : State} (atEnd : s.isHub = false)
include atEnd

theorem State.heard_train {n : Nat} (r : Rate) (pos : 1 ≤ n) : s.BeginsTrain (s.heard.followTrain 0 n r) 0 n (some r)
    ∧ ((s.heard.followTrain 0 n r).leg 0).retrains
        = if (s.leg 0).state.inService then min 3 ((s.leg 0).retrains + 1) else (s.leg 0).retrains := by
  have before := s.heard_beforeSearch.toAsBefore
  refine ⟨before.beginsTrain (fun _ => s.heard_sameReceivers) (State.followTrain_begins 0 r (s.heard_isHub.trans atEnd) pos), ?_⟩
  refine (Leg.field_of_apart (s.heard.followTrain_apart 0 n r) Leg.retrains fun _ => rfl).trans ?_
  rw [s.heard_state, before.retrains]

theorem State.heard_adapt (n : Nat) (r : Rate) : s.BeginsAdapt (s.heard.takePhase 0 .adapt n r) 0 n :=
  s.heard_beforeSearch.toAsBefore.beginsAdapt (fun c => (s.heard_sameReceivers c).2.1)
    (State.followAdapt_begins 0 n r (s.heard_isHub.trans atEnd))

theorem State.heard_verify (n : Nat) (r : Rate) : s.BeginsVerify (s.heard.followVerify 0 n r) 0 n :=
  s.heard_beforeSearch.toAsBefore.beginsVerify (State.followVerify_begins 0 n r (s.heard_isHub.trans atEnd))

end

section
variable {s : State} (r : Rate)

theorem State.heard_run_verified (verify : (s.leg 0).state = .verify) :
    ((s.heard.followRun 0 r).leg 0).upSince = some s.time ∧ s.HandsOver (s.heard.followRun 0 r) 0 r := by
  obtain ⟨up, hands⟩ := State.followRun_verified (s := s.heard) 0 r (s.heard_state.trans verify)
  exact ⟨up.trans (congrArg some s.heard_time), s.heard_beforeSearch.toAsBefore.handsOver s.heard_sameReceivers hands⟩

theorem State.heard_run_other (other : (s.leg 0).state ≠ .verify) :
    ((s.heard.followRun 0 r).leg 0).upSince = (s.leg 0).upSince ∧ (s.heard.followRun 0 r).cable = s.cable := by
  have other' : (s.heard.leg 0).state ≠ .verify := by rwa [s.heard_state]
  constructor
  · refine (Leg.field_of_apart (s.heard.followRun_apart 0 r) Leg.upSince fun _ => rfl).trans ((if_neg other').trans ?_)
    rw [s.heard_leg_zero]
  · rw [State.followRun_quiet 0 r other', State.follow_cable]
    exact s.heard_beforeSearch.cable

theorem State.heard_sleep (n : Nat) : ((s.heard.takePhase 0 .sleep n r).leg 0).resume = true := by
  rw [State.takePhase, State.modLeg_leg_same]

end

/-- Cut short on the way to VERIFY, each window lane has the best code measured, and a failed lane marks the adapt (R83). -/
theorem State.heard_cutShort {s : State} (atEnd : s.isHub = false) {v : Vector AdaptLane 8} (tally : (s.leg 0).adapt = some v)
    (ok : ∀ i : WinIx, v[i].Ok) (n : Nat) (r : Rate) :
    (∀ i ∈ s.winIndices 0, if v[i].stage = .peaking ∧ v[i].measured ≠ [] then
        bestCode v[i].candidates v[i].measured v[i].entry ((s.heard.followVerify 0 n r).lane (s.winLane 0 i)).peaking
      else ((s.heard.followVerify 0 n r).lane (s.winLane 0 i)).peaking
        = if v[i].stage = .peaking then v[i].entry else (s.lane (s.winLane 0 i)).peaking)
      ∧ (((s.heard.followVerify 0 n r).leg 0).adaptFailed = true ↔ (s.leg 0).adaptFailed = true
          ∨ (∃ i : WinIx, v[i].failed = true)
          ∨ ∃ i ∈ s.winIndices 0, v[i].stage = .peaking ∧ v[i].measured ≠ [] ∧ v[i].measured.all (fun m => m == 0))
      ∧ ∀ c, ((s.heard.followVerify 0 n r).lane c).d1 = (s.lane c).d1 := by
  have tally' : (s.heard.leg 0).adapt = some v := by rw [s.heard_leg_zero]; exact tally
  have indices : s.heard.winIndices 0 = s.winIndices 0 := State.winIndices_congr s.heard_window
  have marks : (s.heard.leg 0).adaptFailed = (s.leg 0).adaptFailed := by rw [s.heard_leg_zero]
  have receivers := s.heard.followVerify_sameReceivers 0 n r
  refine ⟨fun i hi => ?_, ?_, fun c => ?_⟩
  · have cut := State.cutShortAdapt_inside tally' (State.indexOf_winLane (by rw [s.heard_hasIndex]; exact State.mem_winIndices.mp hi))
    rw [s.heard_winLane, s.heard_lane] at cut
    have peaking : ((s.heard.followVerify 0 n r).lane (s.winLane 0 i)).peaking
        = (v[i].cutShort (s.lane (s.winLane 0 i)).peaking).2 := (receivers _).2.1.trans (congrArg Lane.peaking cut)
    rw [peaking]
    exact AdaptLane.cutShort_peaking (ok i) _
  · rw [State.followVerify_adaptFailed tally' (s.heard_isHub.trans atEnd), State.cutShortAdapt_hasFailed tally' ok, marks, indices]
  · rw [(receivers c).2.2, State.cutShortAdapt_d1 tally', s.heard_lane]

end Sys2Proof.Machine

/-- Settles O32: a PHASE that passes the checks is followed as `State.takePhase` says and acknowledged; any other is refused. -/
theorem endFollowsPhase : Obligations.EndFollowsPhase := by
  unfold Obligations.EndFollowsPhase
  refine ⟨?_, fun s f takes awake length named => exec_storePhase_listen takes awake length named, ?_, ?_, ?_⟩
  · intro s f st a r takes awake ne data attempt cap
    obtain ⟨t, run, acked⟩ := exec_storePhase_taken takes awake ne data attempt cap
    have atEnd : s.isHub = false := takes.1
    have acts := s.heard.acts_takePhase 0 st a.toNat r
    obtain ⟨state, rate, tries⟩ := State.takePhase_named (s := s.heard) 0 ne a.toNat r
    have inside : s.outsideKept (s.heard.takePhase 0 st a.toNat r) 0 :=
      s.spares_heard.outside.trans (State.winLanes_congr s.heard_window) (s.heard.takePhase_outsideKept 0 ne a.toNat r)
    refine ⟨t, run, ?_⟩
    simp only [acked.leg, acked.cable]
    refine ⟨state, rate, tries, fun train => ?_, fun adapt => ?_, fun verify => ?_, fun run verify => ?_, fun run other => ?_,
      fun names => ?_, fun sleep => ?_, acked.sent, acked.held, fun k hk => (acts.others k hk).trans (s.heard_leg_other hk),
      fun c hc => (acked.lane c).trans (inside c hc), acked.tapsKept (State.heard_tapsKept acts.taps)⟩
    · subst train
      obtain ⟨begins, retrains⟩ := State.heard_train atEnd r (attempt (.inl rfl)).1
      exact ⟨acked.onward.beginsTrain begins, retrains⟩
    · subst adapt
      exact acked.onward.beginsAdapt (State.heard_adapt atEnd _ r)
    · subst verify
      exact acked.onward.beginsVerify (State.heard_verify atEnd _ r)
    · subst run
      obtain ⟨up, hands⟩ := State.heard_run_verified r verify
      exact ⟨up, hands.of_cable acked.cable⟩
    · subst run
      exact State.heard_run_other r other
    · obtain ⟨report, lanes, queue⟩ := State.takePhase_untrained (s.heard_isHub.trans atEnd) 0 names a.toNat r
      refine ⟨report, fun i => ?_, queue⟩
      simp [lanes, emptyLaneHold]
    · subst sleep
      exact State.heard_sleep r _
  · intro s f takes length quiet
    exact exec_storePhase_refused takes length (State.takeStorePhase_quiet (by rwa [s.heard_state]))
  · intro s f takes length awake ne bad
    refine exec_storePhase_refused takes length (State.takeStorePhase_badValue (by rwa [s.heard_state]) ne ?_)
    rwa [s.heard_leg_zero]
  · intro s f a r v takes state tally ok data low high cap
    have awake : (s.leg 0).state ≠ .listen ∧ (s.leg 0).state ≠ .fault := by rw [state]; decide
    obtain ⟨t, run, acked⟩ := exec_storePhase_taken (st := .verify) takes awake nofun data (fun _ => ⟨low, high⟩) cap
    obtain ⟨peaking, failed, d1⟩ := State.heard_cutShort takes.1 tally ok a.toNat r
    refine ⟨t, run, ?_⟩
    simp only [acked.leg, acked.lane]
    exact ⟨peaking, failed, d1, acked.onward.beginsVerify (State.heard_verify takes.1 _ r),
      acked.tapsKept (State.heard_tapsKept (s.heard.acts_takePhase 0 .verify a.toNat r).taps)⟩
end

