-- ==== Sys2Proof/Proofs/TapRequests.lean ====
section
/-! SUPPORT. What a tap request does to a lane by its form (R49 to R53), and the round trip of its bytes (R48, R196). -/

open Sys2Proof Sys2Proof.Machine

namespace Sys2Proof.Machine

/-! ### A request at a lane that is pinned, and at one that is not (R53, R54) -/

section
variable {s : State} {g : LegId} {i : WinIx}

theorem State.tapOutcome_pinned (pinned : (s.lane (s.winLane g i)).pinned = true) (q : TapRequest) :
    s.tapOutcome g i q = ⟨i, .pinned, .pinned, (s.lane (s.winLane g i)).taps⟩ := by
  simp only [State.tapOutcome, applyRequest, if_pos pinned]

theorem State.tapOutcome_load (free : (s.lane (s.winLane g i)).pinned = false) {a b : Nat} {t : Taps} {p q : TapStat}
    (load : applyLoad (s.lane (s.winLane g i)).taps a b = (t, p, q)) :
    s.tapOutcome g i (.load a b) = ⟨i, p, q, t⟩ := by
  have request : applyRequest s.cable.presets false (s.lane (s.winLane g i)).taps (.load a b) = (t, p, q) := load
  simp only [State.tapOutcome, free, request]

variable {q : TapRequest} {p r : TapStat} {t : Taps}

/-- A request that updates no field changes nothing, so it starts no settle. -/
theorem State.applyTaps_unwritten (outcome : s.tapOutcome g i q = ⟨i, p, r, t⟩) (pre : p ≠ .updated) (post : r ≠ .updated) :
    s.applyTaps g i q = s :=
  if_neg (by simp [TapStatus.wrote, outcome, pre, post])

theorem State.applyTaps_written (outcome : s.tapOutcome g i q = ⟨i, .updated, r, t⟩) :
    s.applyTaps g i q = s.writeTaps (s.winLane g i) t := by
  have wrote : (s.tapOutcome g i q).wrote = true := by simp [TapStatus.wrote, outcome]
  rw [State.applyTaps, if_pos wrote, outcome]

end

/-! ### The three results of a LOAD (R51) -/

theorem applyLoad_beyond (t : Taps) {a b : Nat} (beyond : 12 < a ∨ 18 < b) :
    applyLoad t a b = (t, if 12 < a then .atMax else .hold, if 18 < b then .atMax else .hold) := if_pos beyond

theorem applyLoad_belowFloor (t : Taps) {a b : Nat} (pre : a ≤ 12) (post : b ≤ 18) (sum : 24 < a + b) :
    applyLoad t a b = (t, .mainFloor, .mainFloor) := by
  have within : ¬(12 < a ∨ 18 < b) := by omega
  have floor : ¬loadable a b := fun l => by
    have := (loadable_iff.mp l).2.2
    omega
  rw [applyLoad, if_neg within, if_neg floor]

theorem applyLoad_loadable (t : Taps) {a b : Nat} (ok : loadable a b) : applyLoad t a b = (tapsOf a b, .updated, .updated) := by
  obtain ⟨pre, post, -⟩ := loadable_iff.mp ok
  have within : ¬(12 < a ∨ 18 < b) := by omega
  rw [applyLoad, if_neg within, if_pos ok]

/-! ### The two fields of a STEP (R49, R50) -/

/-- The candidates of a STEP leave main below 24 (R50). -/
abbrev Taps.breaksFloor (t : Taps) (p q : StepCode) : Prop := 48 < (judgeField t.pre 12 p).1 + (judgeField t.post 18 q).1 + 24

/-- One field of a STEP, given whether the candidates leave main too low: its value and its status. -/
def stepField (low : Prop) [Decidable low] (cur limit : Nat) (c : StepCode) : Nat × TapStat :=
  if low then revertField cur c (judgeField cur limit c) else judgeField cur limit c

/-- Both fields of a STEP obey the one rule, and main follows from them. -/
theorem applyStep_fields (t : Taps) (p q : StepCode) :
    applyStep t p q
      = (tapsOf (stepField (t.breaksFloor p q) t.pre 12 p).1 (stepField (t.breaksFloor p q) t.post 18 q).1,
        (stepField (t.breaksFloor p q) t.pre 12 p).2, (stepField (t.breaksFloor p q) t.post 18 q).2) := rfl

theorem judgeField_inc {cur limit : Nat} (below : cur < limit) : judgeField cur limit .inc = (cur + 1, .updated) := if_pos below

section
variable (low : Prop) [Decidable low] (cur limit : Nat)

theorem stepField_hold : stepField low cur limit .hold = (cur, .hold) := ite_self _

/-- The floor check never reverts a DEC. -/
theorem stepField_dec : stepField low cur limit .dec = (cur - 1, if cur = 0 then .atMin else .updated) := by
  have judged : stepField low cur limit .dec = judgeField cur limit .dec := ite_self _
  rw [judged]
  cases cur <;> rfl

theorem stepField_inc_atMax : stepField low limit limit .inc = (limit, .atMax) := by
  have judged : judgeField limit limit .inc = (limit, .atMax) := if_neg (lt_irrefl limit)
  rw [stepField, judged]
  exact ite_self _

variable {cur limit}

/-- A field below its maximum rises, or the floor check reverts it. -/
theorem stepField_inc (below : cur < limit) :
    stepField low cur limit .inc = if low then (cur, .mainFloor) else (cur + 1, .updated) := by
  rw [stepField, judgeField_inc below]
  rfl

theorem stepField_inc_reverts_iff (below : cur < limit) :
    (stepField low cur limit .inc).2 = .mainFloor ∧ (stepField low cur limit .inc).1 = cur ↔ low := by
  rw [stepField_inc low below]
  split <;> simp [*]

theorem stepField_inc_rises_iff (below : cur < limit) :
    (stepField low cur limit .inc).2 = .updated ∧ (stepField low cur limit .inc).1 = cur + 1 ↔ ¬low := by
  rw [stepField_inc low below]
  split <;> simp [*]

end

/-- What a STEP does to one field, by its code; `raised` is the sum the floor check weighs where the code is INC. -/
theorem stepField_law {low : Prop} [Decidable low] {cur limit raised : Nat} {c : StepCode}
    (weighed : c = .inc → cur < limit → (low ↔ 48 < raised)) :
    (c = .hold → (stepField low cur limit c).1 = cur ∧ (stepField low cur limit c).2 = .hold)
      ∧ (c = .dec → (stepField low cur limit c).1 = cur - 1
        ∧ (stepField low cur limit c).2 = if cur = 0 then .atMin else .updated)
      ∧ (c = .inc → cur = limit → (stepField low cur limit c).1 = limit ∧ (stepField low cur limit c).2 = .atMax)
      ∧ (c = .inc → cur < limit →
        ((stepField low cur limit c).2 = .mainFloor ∧ (stepField low cur limit c).1 = cur ↔ 48 < raised)
          ∧ ((stepField low cur limit c).2 = .updated ∧ (stepField low cur limit c).1 = cur + 1 ↔ raised ≤ 48)) := by
  refine ⟨?_, ?_, ?_, ?_⟩
  · rintro rfl
    simp only [stepField_hold, and_self]
  · rintro rfl
    simp only [stepField_dec, and_self]
  · rintro rfl rfl
    simp only [stepField_inc_atMax, and_self]
  · rintro rfl below
    rw [← not_lt, ← weighed rfl below]
    exact ⟨stepField_inc_reverts_iff low below, stepField_inc_rises_iff low below⟩

theorem Taps.breaksFloor_of_inc_pre (t : Taps) (p q : StepCode) (inc : p = .inc) (below : t.pre < 12) :
    t.breaksFloor p q ↔ 48 < (t.pre + 1) + (judgeField t.post 18 q).1 + 24 := by
  rw [Taps.breaksFloor, inc, judgeField_inc below]

theorem Taps.breaksFloor_of_inc_post (t : Taps) (p q : StepCode) (inc : q = .inc) (below : t.post < 18) :
    t.breaksFloor p q ↔ 48 < (judgeField t.pre 12 p).1 + (t.post + 1) + 24 := by
  rw [Taps.breaksFloor, inc, judgeField_inc below]

/-! ### The bytes of a tap request (R48, R196) -/

theorem StepCode.ofCode_byteOf (p : StepCode) : StepCode.ofCode (byteOf p.code).toNat = some p := by
  cases p <;> rfl

theorem parseTapRequest_bytes (i : WinIx) {q : TapRequest} (bytes : ∀ a b, q = .load a b → a < 256 ∧ b < 256) :
    parseTapRequest (tapRequestBytes i q) = some q := by
  cases q with
  | step a b =>
    change (StepCode.ofCode (byteOf a.code).toNat).bind
      (fun p => (StepCode.ofCode (byteOf b.code).toNat).map (TapRequest.step p)) = _
    rw [StepCode.ofCode_byteOf, StepCode.ofCode_byteOf]
    rfl
  | preset n =>
    have number : natAt (tapRequestBytes i (.preset n)) 2 = n.val := byteOf_toNat (by omega)
    change (if h : natAt (tapRequestBytes i (.preset n)) 2 < 8 then some (TapRequest.preset ⟨_, h⟩) else none) = _
    simp only [number, n.isLt, dif_pos]
  | load a b =>
    obtain ⟨pre, post⟩ := bytes a b rfl
    change some (TapRequest.load (byteOf a).toNat (byteOf b).toNat) = _
    rw [byteOf_toNat pre, byteOf_toNat post]

theorem natAt_tapRequestBytes_index (i : WinIx) (q : TapRequest) : natAt (tapRequestBytes i q) 0 = i.val := by
  have index : (byteOf i.val).toNat = i.val := byteOf_toNat (by omega)
  cases q <;> exact index

theorem tapRequestBytes_length (i : WinIx) (q : TapRequest) : (tapRequestBytes i q).length = 4 := by
  cases q <;> rfl

end Sys2Proof.Machine

/-- Settles O51, by the three results of `applyLoad`: values out of range, main below its floor, or values that may be written. -/
theorem loadWritesBothOrNeither : Obligations.LoadWritesBothOrNeither := by
  unfold Obligations.LoadWritesBothOrNeither
  intro s g i a b free
  refine ⟨fun beyond => ?_, fun pre post sum => ?_, fun pre post sum => ?_⟩
  · have outcome := State.tapOutcome_load free (applyLoad_beyond _ beyond)
    rw [outcome]
    exact ⟨State.applyTaps_unwritten outcome (by split <;> nofun) (by split <;> nofun), rfl, rfl, rfl⟩
  · have outcome := State.tapOutcome_load free (applyLoad_belowFloor _ pre post sum)
    rw [outcome]
    exact ⟨State.applyTaps_unwritten outcome nofun nofun, rfl, rfl, rfl⟩
  · have outcome := State.tapOutcome_load free (applyLoad_loadable _ (loadable_iff.mpr ⟨pre, post, sum⟩))
    rw [State.applyTaps_written outcome, State.writeTaps_lane, if_pos rfl]
    exact ⟨rfl, rfl, outcome⟩

/-- Settles O52: `stepField` says for one field what a STEP does, and `applyStep_fields` that both fields follow it. -/
theorem stepKeepsTheTapLaw : Obligations.StepKeepsTheTapLaw := by
  unfold Obligations.StepKeepsTheTapLaw
  refine ⟨fun u p q lawful => ?_, fun s g i q pinned => ?_⟩
  · obtain ⟨preHold, preDec, preMax, preInc⟩ := stepField_law (u.breaksFloor_of_inc_pre p q)
    obtain ⟨postHold, postDec, postMax, postInc⟩ := stepField_law (u.breaksFloor_of_inc_post p q)
    rw [applyStep_fields]
    exact ⟨applyStep_fields u p q ▸ applyStep_lawful lawful p q, preHold, preDec, preMax, preInc,
      postHold, postDec, postMax, postInc⟩
  · have outcome := State.tapOutcome_pinned pinned q
    exact ⟨State.applyTaps_unwritten outcome nofun nofun, outcome⟩

/-- Settles O54: a tap request by its three forms, a TAP_STATUS by the range its taps' law gives each byte. -/
theorem tapItemsRoundTrip : Obligations.TapItemsRoundTrip := by
  unfold Obligations.TapItemsRoundTrip
  exact ⟨fun i q bytes => ⟨parseTapRequest_bytes i bytes, natAt_tapRequestBytes_index i q, tapRequestBytes_length i q⟩,
    fun u lawful => ⟨parseTapStatus_bytes lawful, rfl⟩⟩
end

