-- ==== Sys2Proof/Proofs/PhaseSilence.lean ====
section
/-! SUPPORT. A HUB's leg with no PHASE on its way (`State.noPhase`): the arbiter's choice brings none up, since the queue is filled
from the overflow hold, which is empty, or with a status or a tap request (R147, R150). -/

open Sys2Proof Sys2Proof.Machine

namespace Sys2Proof.Machine

/-- No PHASE waits in the queue, and nothing in the overflow hold (R147). -/
structure Leg.Phaseless (l : Leg) : Prop where
  queue : ∀ i ∈ l.queue, i.isPhase = false
  overflow : l.overflow = none

theorem State.noPhase_iff {s : State} {g : LegId} :
    s.noPhase g ↔ (s.leg g).Phaseless ∧ ∀ x, s.tx = some x → x.leg = g → x.work.bearsPhase = false := by
  have phaseless : (s.leg g).Phaseless ↔ (s.leg g).queue.any Item.isPhase = false ∧ (s.leg g).overflow.isNone := by
    rw [List.any_eq_false, Option.isNone_iff_eq_none]
    exact ⟨fun h => ⟨fun i hi => by simp [h.queue i hi], h.overflow⟩, fun h => ⟨fun i hi => by simpa using h.1 i hi, h.2⟩⟩
  have flight : (∀ x, s.tx = some x → x.leg = g → x.work.bearsPhase = false)
      ↔ s.tx.any (fun x => x.leg == g && x.work.bearsPhase) = false := by
    cases s.tx <;> simp
  rw [phaseless, flight]
  change (!_ && _ && !_) = true ↔ _
  rw [Bool.and_eq_true, Bool.and_eq_true, Bool.not_eq_true', Bool.not_eq_true']
  exact Iff.rfl

/-! ### The queue as places are freed (R150) -/

theorem Leg.nextHeld_phaseless {l m : Leg} {i : Item} (h : l.nextHeld .hubRole = some (i, m)) (overflow : l.overflow = none) :
    i.isPhase = false ∧ m.overflow = none := by
  unfold Leg.nextHeld at h
  rw [overflow] at h
  rcases Option.or_eq_some_iff.mp h with status | ⟨-, request⟩
  · obtain ⟨j, -, held⟩ := List.exists_of_findSome?_eq_some status
    obtain ⟨u, -, e⟩ := Option.map_eq_some_iff.mp held
    cases e
    exact ⟨rfl, overflow⟩
  · obtain ⟨j, -, held⟩ := List.exists_of_findSome?_eq_some request
    obtain ⟨q, -, e⟩ := Option.map_eq_some_iff.mp held
    cases e
    exact ⟨rfl, overflow⟩

theorem Leg.Phaseless.fillHolds {l : Leg} (h : l.Phaseless) (n : Nat) : (Leg.fillHolds .hubRole n l).Phaseless := by
  induction n generalizing l with
  | zero => exact h
  | succ n ih =>
    unfold Leg.fillHolds
    split
    · split
      · rename_i i m next
        obtain ⟨plain, overflow⟩ := Leg.nextHeld_phaseless next h.overflow
        refine ih ⟨fun j hj => ?_, overflow⟩
        rcases List.mem_append.mp hj with queued | entered
        · rw [Leg.nextHeld_same next] at queued
          exact h.queue j queued
        · rw [List.mem_singleton.mp entered]
          exact plain
      · exact h
    · exact h

theorem Leg.Phaseless.popped {l : Leg} (h : l.Phaseless) : (l.popped .hubRole).Phaseless :=
  Leg.Phaseless.fillHolds (l := { l with queue := l.queue.tail }) ⟨fun i hi => h.queue i (List.mem_of_mem_tail hi), h.overflow⟩ 4

/-! ### The choice (R155, R156) -/

theorem State.noPhase_startNext {s t : State} {g k : LegId} (hub : s.role = .hubRole) (h : s.noPhase g)
    (starts : s.startNext k = some t) : t.noPhase g := by
  obtain ⟨own, -⟩ := State.noPhase_iff.mp h
  rw [State.noPhase_iff]
  by_cases e : k = g
  · subst e
    have begun (w : Work) : ((s.beginTx k w).leg k).Phaseless := by
      rw [State.beginTx_leg, if_pos rfl]
      exact ⟨own.queue, own.overflow⟩
    unfold State.startNext at starts
    split at starts
    · rename_i i head
      cases starts
      rw [State.countTx_leg, State.modLeg_leg_same, hub]
      refine ⟨(begun (.item i)).popped, fun x hx _ => ?_⟩
      cases hx
      exact own.queue i (List.mem_of_head? head)
    · split at starts
      · cases starts
        exact ⟨begun .drain, fun x hx _ => by cases hx; rfl⟩
      · cases starts
  · rw [State.startNext_leg_other starts (Ne.symm e)]
    exact ⟨own, fun x hx mine => absurd ((State.startNext_tx_leg starts x hx).symm.trans mine) e⟩

theorem State.noPhase_arbitrate {s : State} {g : LegId} (hub : s.isHub) (h : s.noPhase g) (ends : Bool) :
    (s.arbitrate ends).noPhase g := by
  have role : s.role = .hubRole := by simpa [State.isHub] using hub
  refine (State.arbitrate_induct (P := fun t => t.role = .hubRole ∧ t.noPhase g) ⟨role, h⟩ (fun r => ⟨role, ?_⟩)
    (fun _ _ k => k) (fun t k u held _ _ _ starts => ⟨?_, State.noPhase_startNext held.1 held.2 starts⟩) ends).2
  · obtain ⟨own, flight⟩ := State.noPhase_iff.mp h
    refine State.noPhase_iff.mpr ⟨?_, flight⟩
    rw [State.endGrant_leg]
    exact ⟨own.queue, own.overflow⟩
  · rw [(State.startNext_trafficOnly starts).1]
    exact held.1

/-- An entry to a state forgets the search of the leg's transaction, not what it carries (R67). -/
theorem State.noPhase_orphaned {s t : State} {g : LegId} (h : s.noPhase g) (tx : t.tx = s.tx.map (orphaned g))
    (own : (t.leg g).Phaseless) : t.noPhase g := by
  refine State.noPhase_iff.mpr ⟨own, fun x hx mine => ?_⟩
  rw [tx] at hx
  obtain ⟨y, hy, rfl⟩ := Option.map_eq_some_iff.mp hx
  have leg : (orphaned g y).leg = y.leg := by unfold orphaned; split <;> rfl
  have work : (orphaned g y).work = y.work := by unfold orphaned; split <;> rfl
  rw [work]
  exact (State.noPhase_iff.mp h).2 y hy (leg.symm.trans mine)

theorem State.enter_noPhase {s : State} {g : LegId} (h : s.noPhase g) (new : LegState) (cause : LegCause) (a : Option Nat) :
    (s.enter g new cause a).noPhase g := by
  obtain ⟨own, -⟩ := State.noPhase_iff.mp h
  refine State.noPhase_orphaned h rfl ?_
  rw [State.enter_leg, if_pos rfl]
  exact ⟨own.queue, own.overflow⟩

/-- An entry to LISTEN without PHASE(LISTEN) leaves the PROBE alone in the queue, or nothing (R28). -/
theorem State.enterListen_noPhase {s : State} {g : LegId} (h : s.noPhase g) (cause : LegCause) (holdoff : Bool) :
    (s.enterListen g cause holdoff false).noPhase g := by
  have listened : (s.listened g cause holdoff false).noPhase g := by
    refine State.noPhase_orphaned h (s.listened_tx g cause holdoff false) ?_
    rw [State.listened_leg]
    exact ⟨fun _ hi => (nomatch hi), rfl⟩
  obtain ⟨own, flight⟩ := State.noPhase_iff.mp listened
  rcases State.enterListen_cases (s := s) (g := g) cause holdoff false with e | ⟨-, -, e⟩ | ⟨-, e⟩ <;> rw [e]
  · exact listened
  · refine State.noPhase_orphaned listened ((s.listened g cause holdoff false).enterProbe_rest g).2.1 ?_
    have place : (((s.listened g cause holdoff false).leg g).entered (s.listened g cause holdoff false).role .probe none
        (s.listened g cause holdoff false).time).hasRoom := by
      rw [State.listened_leg]; rfl
    rw [State.enterProbe_leg, Leg.push_room place]
    refine ⟨fun i hi => ?_, own.overflow⟩
    rcases List.mem_append.mp hi with queued | pushed
    · exact own.queue i queued
    · rw [List.mem_singleton.mp pushed]
      rfl
  · refine State.noPhase_iff.mpr ⟨?_, flight⟩
    rw [State.modLeg_leg_same]
    exact ⟨own.queue, own.overflow⟩

end Sys2Proof.Machine
end

