-- ==== Sys2Proof/Proofs/PowerAtHub.lean ====
section
/-! SUPPORT. SET_LEG_POWER (R108): the request by its role and code, what each accepted request does to the leg at a HUB (R109 to
R112), and the part after the reply and the arbiter's choice. -/

open Sys2Proof Sys2Proof.Machine

namespace Sys2Proof.Machine

/-! ### The request (R108, R114) -/

theorem Power.ofCode_byteOf (p : Power) : Power.ofCode (byteOf p.code).toNat = some p := by cases p <;> rfl

theorem Power.ofCode_beyond {n : Nat} (h : 2 < n) : Power.ofCode n = none := by
  unfold Power.ofCode
  split
  · omega
  · omega
  · omega
  · rfl

theorem State.hasLeg_of_isHub {s : State} (hub : s.isHub) (g : LegId) : s.hasLeg g := Bool.or_eq_true_iff.mpr (.inl hub)

/-- The part after a request a HUB has accepted: its effect, the reply, and the arbiter's choice. -/
def State.powered (s : State) (g : LegId) (tag : Byte) (p : Power) : State :=
  (((s.taken 0x08 tag).powerTaken g p .powerLocal).reply .ok []).arbitrate false

section
variable {s : State} (takes : s.takesRequests) {g : LegId} (tag : Byte) {n : Byte}
include takes

theorem exec_setLegPower (has : s.hasLeg g) {p : Power} (named : Power.ofCode n.toNat = some p) :
    exec (.setLegPower ⟨tag, [byteOf g.val, n]⟩) s = .next
      (if s.isHub then (s.taken 0x08 tag).hubPower g p else (s.taken 0x08 tag).endPower g p) := by
  refine congrArg Host.Outcome.next ((State.takeRequest_taken takes _ _ _).trans ?_)
  unfold State.doSetLegPower
  rw [State.forLeg_eq (n := 2) rfl (natAt_byteOf_cons g.val (by omega) [n]) (show (s.taken 0x08 tag).hasLeg g from has),
    show natAt [byteOf g.val, n] 1 = n.toNat from rfl, named]
  rfl

theorem exec_setLegPower_beyond (has : s.hasLeg g) (beyond : 2 < n.toNat) :
    exec (.setLegPower ⟨tag, [byteOf g.val, n]⟩) s = .next { s with port := s.port.answered 0x08 tag .badArgument [] } := by
  refine congrArg Host.Outcome.next ((State.takeRequest_taken takes _ _ _).trans ?_)
  unfold State.doSetLegPower
  rw [State.forLeg_eq (n := 2) rfl (natAt_byteOf_cons g.val (by omega) [n]) (show (s.taken 0x08 tag).hasLeg g from has),
    show natAt [byteOf g.val, n] 1 = n.toNat from rfl, Power.ofCode_beyond beyond]
  rfl

variable (hub : s.isHub) {p : Power} (named : Power.ofCode n.toNat = some p)
include hub named

theorem exec_setLegPower_accepted (accepted : powerAccepted p (s.leg g).state = true) :
    exec (.setLegPower ⟨tag, [byteOf g.val, n]⟩) s = .next (s.powered g tag p) := by
  rw [exec_setLegPower takes tag (State.hasLeg_of_isHub hub g) named, if_pos hub]
  exact congrArg Host.Outcome.next (if_pos accepted)

theorem exec_setLegPower_refused (refused : powerAccepted p (s.leg g).state = false) :
    exec (.setLegPower ⟨tag, [byteOf g.val, n]⟩) s
      = .next { s with port := s.port.answered 0x08 tag .wrongState [byteOf (s.leg g).state.code] } := by
  rw [exec_setLegPower takes tag (State.hasLeg_of_isHub hub g) named, if_pos hub]
  exact congrArg Host.Outcome.next (if_neg (Bool.eq_false_iff.mp refused))

end

/-! ### The table of R108 -/

theorem powerAccepted_standby (st : LegState) : powerAccepted .standby st = st.inService := by cases st <;> rfl

theorem powerAccepted_sleep (st : LegState) :
    powerAccepted .sleep st = (st.inService || st == .standby || st == .listen) := by cases st <;> rfl

theorem powerAccepted_eq_false {p : Power} {st : LegState} (active : p ≠ .active) (idle : st.inService = false)
    (sleep : p = .sleep → st ≠ .standby ∧ st ≠ .listen) : powerAccepted p st = false := by
  cases p with
  | active => exact absurd rfl active
  | standby => rw [powerAccepted_standby, idle]
  | sleep =>
    obtain ⟨standby, listen⟩ := sleep rfl
    simp [powerAccepted_sleep, idle, standby, listen]

/-! ### What an accepted request does (R109 to R112) -/

section
variable (v : State) (g : LegId) (cause : LegCause)

theorem State.spares_standbyVerify : v.Spares g (v.standbyVerify g cause) := by
  refine .of_frame (v.acts_standbyVerify g cause).toLegFrame rfl fun c hc => ?_
  exact v.enter_outsideKept g .verify cause (some 4) c hc

theorem State.spares_powerTaken (p : Power) : v.Spares g (v.powerTaken g p cause) := by
  cases p with
  | standby =>
    exact .of_frame (v.acts_powerTaken g .standby cause).toLegFrame rfl (v.enter_outsideKept g .standby cause none)
  | sleep =>
    have slept := v.enter_outsideKept g .sleep cause none
    refine .of_frame (v.acts_powerTaken g .sleep cause).toLegFrame ?_ ?_ <;> unfold State.powerTaken <;> dsimp only <;> split
    · rfl
    · rfl
    · exact slept
    · exact slept
  | active =>
    unfold State.powerTaken
    dsimp only
    split
    · exact v.spares_standbyVerify g cause
    · exact v.spares_enterListen g cause false _
    · exact .refl v g

/-- Where no FAR_READ is in progress a power request answers none. -/
theorem State.powerTaken_port {v : State} (free : v.port.slot.any (fun q => q.kind == farReadKind) = false) (p : Power) :
    (v.powerTaken g p cause).port = v.port := by
  cases p with
  | standby => rfl
  | sleep =>
    unfold State.powerTaken
    dsimp only
    split <;> rfl
  | active =>
    unfold State.powerTaken
    dsimp only
    split
    · rfl
    · exact State.enterListen_port free g cause _
    · rfl

/-! ### The leg after it -/

/-- A PHASE that a HUB queues is on its way (R149). -/
theorem State.queuePhase_sends {v : State} (hub : v.isHub) (g : LegId) (st : PhaseState) (n : Nat) :
    (v.queuePhase g st n).sends g (.phase st n (v.leg g).phaseRate) := by
  have role : v.role = .hubRole := by simpa [State.isHub] using hub
  refine State.sends_of_carries ?_
  rw [State.queuePhase_role, role, State.queuePhase, State.modLeg_leg_same]
  exact Leg.queuePhase_carries ..

theorem State.queuePhase_apart (st : PhaseState) (n : Nat) : ((v.queuePhase g st n).leg g).apart = (v.leg g).apart := by
  rw [State.queuePhase, State.modLeg_leg_same, (Leg.queuePhase_requeued ..).apart]

/-- STANDBY (R109). -/
theorem State.powerTaken_standby_apart :
    ((v.powerTaken g .standby cause).leg g).apart = ((v.leg g).entered v.role .standby none v.time).apart := by
  refine (State.queuePhase_apart _ g .standby 0).trans ?_
  rw [State.enter_leg, if_pos rfl]

theorem State.powerTaken_standby_sends (hub : v.isHub) :
    (v.powerTaken g .standby cause).sends g (.phase .standby 0 (v.leg g).phaseRate) := by
  have sends := State.queuePhase_sends (v := v.enter g .standby cause none) hub g .standby 0
  rw [State.enter_leg, if_pos rfl] at sends
  exact sends

/-- SLEEP from LISTEN: the END, in LISTEN itself, is not told (R110). -/
theorem State.powerTaken_sleep_listen {v : State} {g : LegId} (listen : (v.leg g).state = .listen) :
    v.powerTaken g .sleep cause = v.enter g .sleep cause none := if_pos listen

/-- SLEEP from a state that may resume (R110). -/
theorem State.powerTaken_sleep_resumes {v : State} {g : LegId} (awake : (v.leg g).state ≠ .listen) :
    v.powerTaken g .sleep cause
      = ((v.enter g .sleep cause none).modLeg g (fun l => { l with resume := true })).queuePhase g .sleep 0 := if_neg awake

theorem State.powerTaken_sleep_apart :
    ((v.powerTaken g .sleep cause).leg g).apart = ({ (v.leg g).entered v.role .sleep none v.time with
      resume := (v.leg g).resume || (v.leg g).state != .listen } : Leg).apart := by
  by_cases listen : (v.leg g).state = .listen
  · rw [State.powerTaken_sleep_listen cause listen, State.enter_leg, if_pos rfl, listen]
    simp [Leg.entered]
  · rw [State.powerTaken_sleep_resumes cause listen, State.queuePhase_apart, State.modLeg_leg_same, State.enter_leg, if_pos rfl,
      bne_iff_ne.mpr listen, Bool.or_true]

theorem State.powerTaken_sleep_sends {v : State} {g : LegId} (hub : v.isHub) (awake : (v.leg g).state ≠ .listen) :
    (v.powerTaken g .sleep cause).sends g (.phase .sleep 0 (v.leg g).phaseRate) := by
  rw [State.powerTaken_sleep_resumes cause awake]
  have sends := State.queuePhase_sends (v := (v.enter g .sleep cause none).modLeg g (fun l => { l with resume := true })) hub g .sleep 0
  rw [State.modLeg_leg_same, State.enter_leg, if_pos rfl] at sends
  exact sends

theorem State.standbyVerify_leg : (v.standbyVerify g cause).leg g
    = { ({ (v.leg g).entered v.role .verify (some 4) v.time with standbyVerify := true } : Leg).queuePhase .verify 4
          (v.leg g).phaseRate with
        deadline := some (v.time + 40000), verify := some (Vector.replicate 8 ⟨false, 0, 0⟩) } := by
  rw [State.standbyVerify, State.startVerify, State.modLeg_leg_same, State.startDeadline, State.modLeg_leg_same,
    State.queuePhase, State.modLeg_leg_same, State.modLeg_leg_same, State.enter_leg, if_pos rfl]
  rfl

theorem State.standbyVerify_apart : ((v.standbyVerify g cause).leg g).apart
    = ({ (v.leg g).entered v.role .verify (some 4) v.time with
          standbyVerify := true, deadline := some (v.time + 40000)
          verify := some (Vector.replicate 8 ⟨false, 0, 0⟩) } : Leg).apart := by
  rw [State.standbyVerify_leg, (Leg.queuePhase_requeued _ _ _ _).same]
  rfl

/-- ACTIVE in STANDBY is a VERIFY of attempt 4 (R84, R111). -/
theorem State.standbyVerify_begins : v.BeginsVerify (v.standbyVerify g cause) g 4 := by
  have field {α : Type} (f : Leg → α) (apart : ∀ l : Leg, f l.apart = f l) :=
    Leg.field_of_apart (v.standbyVerify_apart g cause) f apart
  refine ⟨field Leg.state fun _ => rfl, field Leg.attempt fun _ => rfl, ⟨_, field Leg.verify fun _ => rfl, fun i _ => by simp⟩,
    fun hub => ⟨field Leg.deadline fun _ => rfl, State.sends_of_carries ?_⟩⟩
  have role : (v.standbyVerify g cause).role = .hubRole := by
    rw [(v.acts_standbyVerify g cause).role]; simpa [State.isHub] using hub
  rw [role, State.standbyVerify_leg]
  exact (Leg.carries_congr rfl).mpr (Leg.queuePhase_carries ..)

end

section
variable {v : State} {g : LegId} (cause : LegCause)

theorem State.powerTaken_active_standby (standby : (v.leg g).state = .standby) :
    v.powerTaken g .active cause = v.standbyVerify g cause := by
  unfold State.powerTaken
  rw [standby]

/-- ACTIVE in SLEEP (R112). -/
theorem State.powerTaken_active_sleep (sleep : (v.leg g).state = .sleep) :
    v.powerTaken g .active cause = v.enterListen g cause false (v.leg g).farId.isSome := by
  unfold State.powerTaken
  rw [sleep]

theorem State.powerTaken_active_elsewhere (standby : (v.leg g).state ≠ .standby) (sleep : (v.leg g).state ≠ .sleep) :
    v.powerTaken g .active cause = v := by
  unfold State.powerTaken
  dsimp only
  split
  · rename_i e; exact absurd e standby
  · rename_i e; exact absurd e sleep
  · rfl

end

/-! ### The reply and the choice -/

section
variable (s : State) (g : LegId) (tag : Byte) (p : Power)

theorem State.spares_powered : s.Spares g (s.powered g tag p) :=
  (((s.spares_taken g 0x08 tag).trans (State.spares_powerTaken _ g .powerLocal p)).trans (State.spares_reply _ g .ok [])).arbitrated
    false

theorem State.powered_port : (s.powered g tag p).port = s.port.answered 0x08 tag .ok [] := by
  rw [State.powered, State.arbitrate_port, State.reply_port, State.powerTaken_port g .powerLocal rfl]
  rfl

theorem State.onward_powered : ((s.taken 0x08 tag).powerTaken g p .powerLocal).Onward (s.powered g tag p) :=
  State.Onward.trans (t := ((s.taken 0x08 tag).powerTaken g p .powerLocal).reply .ok []) (.of_eq rfl rfl rfl rfl rfl)
    (State.onward_arbitrate _ false)

/-- A field that neither the effect's traffic nor the choice moves is that of the effect. -/
theorem State.powered_field {α : Type} (f : Leg → α) (apart : ∀ l : Leg, f l.apart = f l) :
    f ((s.powered g tag p).leg g) = f (((s.taken 0x08 tag).powerTaken g p .powerLocal).leg g) :=
  State.arbitrate_field f apart _ false g

theorem State.powered_field_of_apart {m : Leg}
    (h : (((s.taken 0x08 tag).powerTaken g p .powerLocal).leg g).apart = m.apart) {α : Type} (f : Leg → α)
    (apart : ∀ l : Leg, f l.apart = f l) : f ((s.powered g tag p).leg g) = f m :=
  (s.powered_field g tag p f apart).trans (Leg.field_of_apart h f apart)

theorem State.powered_noPhase {s : State} (hub : s.isHub) (quiet : ((s.taken 0x08 tag).powerTaken g p .powerLocal).noPhase g) :
    (s.powered g tag p).noPhase g := by
  refine State.noPhase_arbitrate (s := ((s.taken 0x08 tag).powerTaken g p .powerLocal).reply .ok []) ?_ quiet false
  rw [State.isHub, State.reply_role, (State.acts_powerTaken _ g p .powerLocal).role]
  exact hub

end

end Sys2Proof.Machine

/-- Settles O44: each row of R108 is `State.powered` with the effect of its request, or is refused with the port alone moved. -/
theorem hubDecidesPowerRequests : Obligations.HubDecidesPowerRequests := by
  unfold Obligations.HubDecidesPowerRequests
  refine ⟨?_, ?_, ?_, ?_, ?_, ?_, ?_⟩
  · intro s g tag takes hub up
    refine ⟨_, exec_setLegPower_accepted takes tag hub rfl ((powerAccepted_standby _).trans up), ?_⟩
    have own {α : Type} (f : Leg → α) :=
      s.powered_field_of_apart g tag .standby (State.powerTaken_standby_apart _ g .powerLocal) f
    have spares := s.spares_powered g tag .standby
    refine ⟨own Leg.state fun _ => rfl, own Leg.resume fun _ => rfl, own Leg.errCount fun _ => rfl, own Leg.negRate fun _ => rfl,
      s.powered_port g tag .standby, spares.others, spares.outside, spares.taps, spares.setting, fun rt rate => ?_⟩
    have sends := State.powerTaken_standby_sends (s.taken 0x08 tag) g .powerLocal hub
    rw [State.taken_leg, Leg.phaseRate, rate] at sends
    exact (s.onward_powered g tag .standby).sends _ _ sends
  · intro s g tag takes hub state
    refine ⟨_, exec_setLegPower_accepted takes tag hub (p := .sleep) rfl (by simpa [powerAccepted_sleep, or_assoc] using state), ?_⟩
    have own {α : Type} (f : Leg → α) :=
      s.powered_field_of_apart g tag .sleep (State.powerTaken_sleep_apart _ g .powerLocal) f
    have spares := s.spares_powered g tag .sleep
    refine ⟨own Leg.state fun _ => rfl, own Leg.resume fun _ => rfl, own Leg.errCount fun _ => rfl, own Leg.holdoff fun _ => rfl,
      s.powered_port g tag .sleep, spares.others, spares.outside, spares.taps, spares.setting, fun rt rate awake => ?_,
      fun listen quiet => State.powered_noPhase g tag .sleep hub ?_⟩
    · have sends := State.powerTaken_sleep_sends (v := s.taken 0x08 tag) .powerLocal hub awake
      rw [State.taken_leg, Leg.phaseRate, rate] at sends
      exact (s.onward_powered g tag .sleep).sends _ _ sends
    · rw [State.powerTaken_sleep_listen (v := s.taken 0x08 tag) .powerLocal listen]
      exact State.enter_noPhase (s := s.taken 0x08 tag) quiet .sleep .powerLocal none
  · intro s g tag takes hub standby
    refine ⟨_, exec_setLegPower_accepted takes tag hub (p := .active) rfl rfl, ?_⟩
    have effect := State.powerTaken_active_standby (v := s.taken 0x08 tag) .powerLocal standby
    have verifying := (s.taken 0x08 tag).standbyVerify_apart g .powerLocal
    rw [← effect] at verifying
    have own {α : Type} (f : Leg → α) := s.powered_field_of_apart g tag .active verifying f
    have spares := s.spares_powered g tag .active
    have onward := s.onward_powered g tag .active
    rw [effect] at onward
    exact ⟨own Leg.state fun _ => rfl, own Leg.attempt fun _ => rfl, own Leg.standbyVerify fun _ => rfl,
      own Leg.deadline fun _ => rfl, own Leg.retrains fun _ => rfl, own Leg.resume fun _ => rfl, s.powered_port g tag .active,
      spares.others, spares.taps, spares.setting, onward.beginsVerify ((s.taken 0x08 tag).standbyVerify_begins g .powerLocal)⟩
  · intro s g tag takes hub sleep
    refine ⟨_, exec_setLegPower_accepted takes tag hub (p := .active) rfl rfl, ?_⟩
    have effect := State.powerTaken_active_sleep (v := s.taken 0x08 tag) .powerLocal sleep
    have own {α : Type} (f : Leg → α) (apart : ∀ l : Leg, f l.apart = f l) (probed) (waited) :=
      (s.powered_field g tag .active f apart).trans ((congrArg (fun t : State => f (t.leg g)) effect).trans
        (State.enterListen_field (v := s.taken 0x08 tag) (g := g) .powerLocal _ f apart probed waited))
    have spares := s.spares_powered g tag .active
    have onward := s.onward_powered g tag .active
    have present : (s.taken 0x08 tag).allPresent g = s.allPresent g := State.allPresent_congr rfl fun _ => rfl
    have queue := State.enterListen_queue_hub (v := s.taken 0x08 tag) (g := g) .powerLocal (s.leg g).farId.isSome hub
    rw [effect] at onward
    refine ⟨?_, own Leg.retrains (fun _ => rfl) rfl fun _ => rfl, own Leg.resume (fun _ => rfl) rfl fun _ => rfl,
      own Leg.negRate (fun _ => rfl) rfl fun _ => rfl, own Leg.holdoff (fun _ => rfl) rfl fun _ => rfl,
      own Leg.wakePending (fun _ => rfl) rfl fun _ => rfl, s.powered_port g tag .active, spares.others, spares.taps, spares.setting,
      fun known => onward.sends _ _ (State.sends_of_carries (.inl ?_)),
      fun unknown quiet => State.powered_noPhase g tag .active hub ?_,
      fun every => onward.sends _ _ (State.sends_of_carries (.inl ?_))⟩
    · rw [onward.state, State.enterListen_state, present]
      simp [hub]
    · rw [State.taken_leg, queue, Option.isSome_iff_ne_none.mpr known]
      exact List.mem_append_left _ (List.mem_singleton_self _)
    · rw [effect, State.taken_leg, unknown]
      exact State.enterListen_noPhase (s := s.taken 0x08 tag) quiet .powerLocal false
    · rw [State.taken_leg, queue, present.trans every]
      exact List.mem_append_right _ (List.mem_singleton_self _)
  · intro s g tag takes hub standby sleep
    refine ⟨_, exec_setLegPower_accepted takes tag hub (p := .active) rfl rfl, ?_⟩
    rw [State.powered, State.powerTaken_active_elsewhere (v := s.taken 0x08 tag) .powerLocal standby sleep]
    exact (((s.taken 0x08 tag).reply .ok []).arbitrate_trafficOnly false).symm
  · intro s g tag p takes hub active idle sleep
    exact exec_setLegPower_refused takes tag hub p.ofCode_byteOf (powerAccepted_eq_false active idle sleep)
  · intro s g tag n takes has beyond
    exact exec_setLegPower_beyond takes tag has beyond
end

