-- ==== Sys2Proof/Proofs/PowerAtEnd.lean ====
section
/-! SUPPORT. SET_LEG_POWER at an END (the table of R114): refused, queued for the HUB or answered BUSY, a wake from SLEEP, or
nothing to do. -/

open Sys2Proof Sys2Proof.Machine

namespace Sys2Proof.Machine

/-! ### The table of R114 -/

section
variable {v : State} {g : LegId} {p : Power}

theorem State.endPower_refuses (active : p ≠ .active) (quiet : (v.leg g).state.quiet) : v.endPower g p = v.wrongState g := by
  unfold State.endPower
  cases p with
  | active => exact absurd rfl active
  | standby | sleep => cases state : (v.leg g).state <;> simp [state, LegState.quiet] at quiet ⊢

/-- The requests an END hands on to its HUB. -/
def Power.carried (p : Power) (st : LegState) : Prop := (p ≠ .active ∧ st.quiet = false) ∨ (p = .active ∧ st = .standby)

theorem State.endPower_carries (carried : p.carried (v.leg g).state) : v.endPower g p = v.queuePower g p := by
  unfold State.endPower
  rcases carried with ⟨active, awake⟩ | ⟨rfl, standby⟩
  · cases p with
    | active => exact absurd rfl active
    | standby | sleep => cases state : (v.leg g).state <;> simp [state, LegState.quiet] at awake ⊢
  · rw [standby]

theorem State.endPower_wakes (sleep : (v.leg g).state = .sleep) : v.endPower g .active
    = ((v.enterListen g .powerLocal false false).modLeg g (fun l => l.push (.powerRequest .active))).reply .ok [] := by
  unfold State.endPower
  rw [sleep]

theorem State.endPower_rests (standby : (v.leg g).state ≠ .standby) (sleep : (v.leg g).state ≠ .sleep) :
    v.endPower g .active = v.reply .ok [] := by
  unfold State.endPower
  cases state : (v.leg g).state with
  | standby => exact absurd state standby
  | sleep => exact absurd state sleep
  | off | listen | probe | train | adapt | verify | up | degraded | fault => rfl

end

/-! ### The request -/

section
variable {s : State} (takes : s.takesRequests) (atEnd : s.isHub = false) (tag : Byte)
include takes atEnd

theorem exec_setLegPower_end {n : Byte} {p : Power} (named : Power.ofCode n.toNat = some p) :
    exec (.setLegPower ⟨tag, [0, n]⟩) s = .next ((s.taken 0x08 tag).endPower 0 p) := by
  have has : s.hasLeg 0 := Bool.or_eq_true_iff.mpr (.inr rfl)
  refine (exec_setLegPower takes tag has named).trans (congrArg _ (if_neg ?_))
  rw [atEnd]
  exact Bool.false_ne_true

theorem exec_setLegPower_carried {p : Power} (carried : p.carried (s.leg 0).state) :
    exec (.setLegPower ⟨tag, [0, byteOf p.code]⟩) s = .next ((s.taken 0x08 tag).queuePower 0 p) := by
  rw [exec_setLegPower_end takes atEnd tag p.ofCode_byteOf, State.endPower_carries (v := s.taken 0x08 tag) carried]

end

/-! ### The wake from SLEEP -/

/-- The END's leg after it has woken itself: in LISTEN, with the POWER_REQUEST alone in the queue. -/
theorem State.endPower_woken_leg {v : State} (atEnd : v.isHub = false) : ∃ wait,
    ((v.enterListen 0 .powerLocal false false).modLeg 0 (fun l => l.push (.powerRequest .active))).leg 0
      = { (v.leg 0).listening v.role v.time false false with probeWait := wait, queue := [.powerRequest .active] } := by
  obtain ⟨wait, leg⟩ := State.enterListen_leg_end (g := 0) atEnd .powerLocal false false
  refine ⟨wait, ?_⟩
  rw [State.modLeg_leg_same, leg]
  exact Leg.push_room rfl _

end Sys2Proof.Machine

/-- Settles O45: the table of R114 by its four outcomes, and the queue by whether it has room. -/
theorem endCarriesPowerRequests : Obligations.EndCarriesPowerRequests := by
  unfold Obligations.EndCarriesPowerRequests
  refine ⟨?_, ?_, ?_, ?_, ?_⟩
  · intro s tag p takes atEnd active quiet
    rw [exec_setLegPower_end takes atEnd tag p.ofCode_byteOf, State.endPower_refuses (v := s.taken 0x08 tag) active quiet]
    rfl
  · intro s tag p takes atEnd carried room
    have place : ((s.taken 0x08 tag).leg 0).hasRoom := decide_eq_true room
    refine ⟨_, exec_setLegPower_carried takes atEnd tag carried, ?_⟩
    rw [State.queuePower, if_pos place]
    refine ⟨?_, fun k other => State.modLeg_leg_other _ _ other, rfl⟩
    rw [State.reply_leg, State.modLeg_leg_same, Leg.push_room place]
    rfl
  · intro s tag p takes atEnd carried full
    have crowded : ¬((s.taken 0x08 tag).leg 0).hasRoom := fun room => Nat.not_lt_of_le full (of_decide_eq_true room)
    rw [exec_setLegPower_carried takes atEnd tag carried, State.queuePower, if_neg crowded]
    rfl
  · intro s tag takes atEnd sleep
    refine ⟨_, exec_setLegPower_end takes atEnd tag (p := .active) rfl, ?_⟩
    have acts := (((s.taken 0x08 tag).acts_enterListen 0 .powerLocal false false).trans
      (State.acts_requeue _ 0 _ fun l => l.push_requeued (.powerRequest .active))).trans (State.acts_reply _ 0 .ok [])
    obtain ⟨wait, leg⟩ := State.endPower_woken_leg (v := s.taken 0x08 tag) atEnd
    rw [State.endPower_wakes (v := s.taken 0x08 tag) sleep, State.reply_leg, leg]
    refine ⟨rfl, rfl, rfl, rfl, ?_, acts.others, acts.taps⟩
    rw [State.reply_port, State.modLeg_port, State.enterListen_port rfl]
    rfl
  · intro s tag takes atEnd standby sleep
    rw [exec_setLegPower_end takes atEnd tag (p := .active) rfl, State.endPower_rests (v := s.taken 0x08 tag) standby sleep]
    rfl
end

