-- ==== Sys2Proof/Proofs/KeepalivesAndBeacons.lean ====
section
/-! SUPPORT. One leg record moves and the arbiter chooses: the shape of a keepalive expiry (R136) and of a beacon (R125). -/

open Sys2Proof Sys2Proof.Machine

namespace Sys2Proof.Machine

theorem trafficOnly_eq {s t u : State} (moved : t = { s with legs := t.legs }) (h : t.trafficOnly u) :
    u = { s with legs := u.legs, tx := u.tx, grant := u.grant } := by
  have e := h.1
  rw [moved] at e
  exact e

/-- A change of one leg record followed by the arbiter's choice. -/
theorem modLeg_arbitrate (s : State) (g : LegId) (f : Leg → Leg) :
    (((s.modLeg g f).arbitrate false).leg g).apart = (f (s.leg g)).apart
      ∧ s.othersKept ((s.modLeg g f).arbitrate false) g
      ∧ (s.modLeg g f).arbitrate false = { s with legs := ((s.modLeg g f).arbitrate false).legs,
                                                  tx := ((s.modLeg g f).arbitrate false).tx,
                                                  grant := ((s.modLeg g f).arbitrate false).grant } := by
  refine ⟨?_, fun k hk => ?_, trafficOnly_eq (t := s.modLeg g f) rfl (State.arbitrate_trafficOnly _ _)⟩
  · rw [State.arbitrate_apart, State.modLeg_leg_same]
  · rw [State.arbitrate_apart, State.modLeg_leg_other _ _ hk]

/-! ### The keepalive timer (R136) -/

theorem Leg.keptAlive_eq (l : Leg) {due : Time} (running : l.keepalive = some due) :
    l.keptAlive = { l with keepalive := some (due + 5000),
                           queue := if l.queue.length < 4 ∧ Item.keepalive ∉ l.queue then l.queue ++ [.keepalive]
                                    else l.queue } := by
  unfold Leg.keptAlive
  by_cases waits : Item.keepalive ∈ l.queue
  · simp [running, waits]
  · by_cases room : l.queue.length < 4 <;> simp [running, waits, room, Leg.push, Leg.hasRoom]

theorem exec_keepaliveTimerExpiry (s : State) (g : LegId) : exec (.keepaliveTimerExpiry g) s
    = .next (if (s.leg g).keepalive.isSome then (s.modLeg g Leg.keptAlive).arbitrate false else s) := rfl

theorem exec_keepaliveTimerExpiry_running {s : State} {g : LegId} {due : Time} (running : (s.leg g).keepalive = some due) :
    exec (.keepaliveTimerExpiry g) s = .next ((s.modLeg g Leg.keptAlive).arbitrate false) := by
  rw [exec_keepaliveTimerExpiry, if_pos (by rw [running]; rfl)]

/-! ### Beacons and silence (R125) -/

theorem takeBeacon_watched {s : State} {g : LegId} (watched : s.watchesBeacon g) (level : Fin 4) :
    s.takeBeacon g level = (s.modLeg g (fun l => { l with beacon := level, drainDone := false })).arbitrate false :=
  if_pos watched

theorem takeBeacon_unwatched {s : State} {g : LegId} (unwatched : s.watchesBeacon g = false) (level : Fin 4) :
    s.takeBeacon g level = s :=
  if_neg (by simp [unwatched])

theorem exec_beaconReceived (s : State) (g : LegId) (level : Fin 4) (crc : Byte) : exec (.beaconReceived g level crc) s
    = .next (if crc8 [byteOf (0x20 + level.val)] = crc then s.takeBeacon g level else s) := rfl

theorem exec_beaconSilence (s : State) (g : LegId) : exec (.beaconSilence g) s = .next (s.takeBeacon g 0) := rfl

end Sys2Proof.Machine

/-- Settles O17: the record that the expiry leaves, with the engine busy as it is and with the engine free but for what the
arbiter moves. -/
theorem keepaliveIsQueued : Obligations.KeepaliveIsQueued := by
  unfold Obligations.KeepaliveIsQueued
  refine ⟨fun s g due running busy => ?_, fun s g due running => ?_, fun s g stopped => ?_⟩
  · obtain ⟨x, tx⟩ := Option.ne_none_iff_exists'.mp busy
    refine ⟨_, exec_keepaliveTimerExpiry_running running, ?_⟩
    rw [State.arbitrate_busy (s.modLeg g Leg.keptAlive) false x tx]
    refine ⟨?_, fun k hk => State.modLeg_leg_other s _ hk, rfl⟩
    rw [State.modLeg_leg_same, Leg.keptAlive_eq _ running]
  · refine ⟨_, exec_keepaliveTimerExpiry_running running, ?_⟩
    obtain ⟨own, others, rest⟩ := modLeg_arbitrate s g Leg.keptAlive
    refine ⟨?_, others, rest⟩
    rw [own, Leg.keptAlive_eq _ running]
    rfl
  · rw [exec_keepaliveTimerExpiry, if_neg (by simp [stopped])]

/-- Settles O26: a watched beacon or silence moves the level and the mark and comes to the arbiter's choice. -/
theorem beaconSetsTheLevel : Obligations.BeaconSetsTheLevel := by
  unfold Obligations.BeaconSetsTheLevel
  refine ⟨fun s g level crc watched good => ?_, fun s g watched => ?_, fun s g level crc bad => ?_, fun s g unwatched => ?_⟩
  · refine ⟨_, by rw [exec_beaconReceived, if_pos good.symm, takeBeacon_watched watched], modLeg_arbitrate s g _⟩
  · exact ⟨_, by rw [exec_beaconSilence, takeBeacon_watched watched], modLeg_arbitrate s g _⟩
  · rw [exec_beaconReceived]
    rcases bad with unwatched | wrong
    · rw [takeBeacon_unwatched unwatched, ite_self]
    · rw [if_neg (Ne.symm wrong)]
  · rw [exec_beaconSilence, takeBeacon_unwatched unwatched]

end

