-- ==== Sys2Proof/Proofs/FarStatuses.lean ====
section
/-! SUPPORT. The far status: what a STATUS in an ACK says (R137, R197), and the ACK of a keepalive that records it (R136). -/

open Sys2Proof Sys2Proof.Machine

namespace Sys2Proof.Machine

theorem LegState.code_of_ofCode {n : Nat} {st : LegState} (h : LegState.ofCode n = some st) : st.code = n := by
  unfold LegState.ofCode at h
  split at h <;> cases h <;> rfl

/-- The record holds the fields of the STATUS in the data, taken now. -/
def FarStatus.Reads (u : FarStatus) (now : Time) (d : List Byte) : Prop :=
  u.state.code = natAt d 0 ∧ u.attention = natAt d 1 ∧ u.errCount = natAt d 2 ∧ boolByte u.lost = d.getD 3 0 ∧ u.time = now

theorem parseFarStatus_reads {now : Time} {d : List Byte} {u : FarStatus} (h : parseFarStatus now d = some u) :
    u.Reads now d := by
  unfold parseFarStatus at h
  split at h
  · rename_i st lost state bit
    split at h
    · cases h
      exact ⟨LegState.code_of_ofCode state, rfl, rfl, boolByte_of_boolOf bit, rfl⟩
    · cases h
  · cases h

/-- Whether the data are a STATUS does not depend on the time they are taken. -/
theorem parseFarStatus_isSome (now since : Time) (d : List Byte) :
    (parseFarStatus now d).isSome = (parseFarStatus since d).isSome := by
  unfold parseFarStatus
  split
  · split <;> rfl
  · rfl

theorem exists_farStatus {since : Time} {d : List Byte} (good : (parseFarStatus since d).isSome) (now : Time) :
    ∃ u, parseFarStatus now d = some u ∧ u.Reads now d := by
  rw [parseFarStatus_isSome since now] at good
  obtain ⟨u, parsed⟩ := Option.isSome_iff_exists.mp good
  exact ⟨u, parsed, parseFarStatus_reads parsed⟩

section
variable {s : State} {g : LegId} {x : Transaction} {f : ResponseBody}

theorem State.spares_takeFarStatus (w : State) (g : LegId) (d : List Byte) : w.Spares g (w.takeFarStatus g d) :=
  State.spares_modLeg w g (fun l => { l with farStatus := parseFarStatus w.time d }) rfl

/-- What R128 asks of the data of an ACK has been checked. -/
theorem ackGood_of_getsReply (reply : s.getsReply g x 1 f) : ackGood x f.item f.data = true := by
  obtain ⟨-, -, -, -, -, good⟩ := reply
  unfold replyGood at good
  rw [if_pos rfl] at good
  exact (Bool.and_eq_true_iff.mp good).2

theorem keepalive_reads (reply : s.getsReply g x 1 f) (work : x.work = .item .keepalive) :
    (parseFarStatus 0 f.data).isSome = true := by
  have good := ackGood_of_getsReply reply
  unfold ackGood at good
  rw [work] at good
  exact (Bool.and_eq_true_iff.mp good).2

theorem handOn_keepalive (w : State) (work : x.work = .item .keepalive) (item : Byte) (more : Bool) (d : List Byte) :
    w.handOn x (.ack item more d) = w.takeFarStatus x.leg d := by
  unfold State.handOn
  rw [work]

end

end Sys2Proof.Machine

/-- Settles O20: the ACK is handed on from the state a good reply leaves, and sets one field of the leg. -/
theorem keepaliveAckSetsFarStatus : Obligations.KeepaliveAckSetsFarStatus := by
  unfold Obligations.KeepaliveAckSetsFarStatus
  intro s g x f reply work
  refine ⟨_, exec_sidebandAck reply, ?_⟩
  rw [handOn_keepalive _ work, reply.2.2.1]
  generalize x.endsGrant (.ack f.item f.more f.data) = ends
  obtain ⟨u, parsed, reads⟩ := exists_farStatus (keepalive_reads reply work) s.time
  have own : (((s.replied g).takeFarStatus g f.data).leg g)
      = { s.leg g with timeouts := 0, sbLost := false, farStatus := some u } := by
    rw [State.takeFarStatus, State.modLeg_leg_same, State.replied_leg, if_pos rfl, (s.replied_ended g).time, parsed]
  have apart := (((s.replied g).takeFarStatus g f.data).arbitrate_apart ends g).trans (congrArg Leg.apart own)
  have told := Leg.field_of_apart apart Leg.farStatus fun _ => rfl
  have after := ((s.spares_replied g).trans ((s.replied g).spares_takeFarStatus g f.data)).arbitrated ends
  refine ⟨⟨u, told, reads⟩, apart.trans (by rw [told]; rfl), after.others, ?_, after.setting, ?_⟩
  · exact (State.arbitrate_lanes _ ends).trans (s.replied_ended g).lanes
  · exact (State.arbitrate_port _ ends).trans (s.replied_traffic g).2

end

