-- ==== Sys2Proof/Proofs/EngineFrames.lean ====
section
/-! SUPPORT. The command frame of a transaction by R196, and the moves of the engine between SENDING, WAITING and BACKOFF
(R126, R129, R131). -/

open Sys2Proof Sys2Proof.Machine

namespace Sys2Proof.Machine

/-! ### The layout of a command frame (R196) -/

/-- Every field of the bytes of R196 can be read back where the length fits its byte. -/
theorem readsAsCommand_commandBytes (kind : BitVec 3) (item : Byte) (seq : Bool) (ignored : BitVec 3) (lane : WinIx)
    (beat : Fin 16) {data : List Byte} (short : data.length < 256) :
    readsAsCommand (commandBytes kind item seq ignored lane beat data
        ++ [crc8 (commandBytes kind item seq ignored lane beat data)])
      kind.toNat item.toNat seq (some lane) (some beat) data := by
  have a := Bool.toNat_le (ignored.getLsbD 0)
  have b := Bool.toNat_le (ignored.getLsbD 1)
  have c := Bool.toNat_le (ignored.getLsbD 2)
  have d := Bool.toNat_le seq
  have k := kind.isLt
  have first : natAt (commandBytes kind item seq ignored lane beat data
      ++ [crc8 (commandBytes kind item seq ignored lane beat data)]) 0
      = kind.toNat + 8 * (ignored.getLsbD 0).toNat + 16 + 64 * (ignored.getLsbD 1).toNat + 128 * seq.toNat :=
    byteOf_toNat (by omega)
  have third : natAt (commandBytes kind item seq ignored lane beat data
      ++ [crc8 (commandBytes kind item seq ignored lane beat data)]) 2
      = lane.val + 8 * (ignored.getLsbD 2).toNat + 16 * beat.val := byteOf_toNat (by omega)
  refine ⟨?_, by omega, by omega, by omega, rfl, ?_, ?_, byteOf_toNat short, ?_, ?_⟩
  · simp [commandBytes]
  · rintro _ ⟨⟩; omega
  · rintro _ ⟨⟩; omega
  · simp [commandBytes]
  · rw [List.dropLast_concat]

/-- A field that a reader is not told may hold anything. -/
theorem readsAsCommand.untold {bs : List Byte} {kind item : Nat} {seq : Bool} {lane : WinIx} {beat : Fin 16} {data : List Byte}
    (h : readsAsCommand bs kind item seq (some lane) (some beat) data) {l : Option WinIx} {b : Option (Fin 16)}
    (named : ∀ i, l = some i → i = lane) (numbered : ∀ n, b = some n → n = beat) : readsAsCommand bs kind item seq l b data := by
  obtain ⟨length, k, mark, bit, i, ix, number, rest⟩ := h
  exact ⟨length, k, mark, bit, i, fun j e => named j e ▸ ix lane rfl, fun n e => numbered n e ▸ number beat rfl, rest⟩

theorem Work.data_length (w : Work) : w.data.length < 256 := by
  cases w with
  | drain => decide
  | item i => cases i <;> simp [Work.data, Item.data, Ident.bytes, TapStatus.bytes, Taps.bytes, tapRequestBytes_length]

/-- The frame of a transaction, read by the codes and the data of its work (R126). -/
theorem Transaction.frame_reads {x : Transaction} {w : Work} (work : x.work = w) {l : Option WinIx} {b : Option (Fin 16)}
    (named : ∀ i, l = some i → i = w.laneField) (numbered : ∀ n, b = some n → n = x.beatField) :
    readsAsCommand x.frame w.command.toNat w.itemCode.toNat x.seq l b w.data := by
  subst work
  exact (readsAsCommand_commandBytes _ _ _ _ _ _ x.work.data_length).untold named numbered

/-! ### The engine's moves -/

section
variable {s : State} {x : Transaction}

theorem exec_commandFrameSent (s : State) (g : LegId) (b : Bool) : exec (.commandFrameSent g b) s = .next
    (match s.tx with
     | some t =>
       if t.leg = g ∧ t.seq = b ∧ t.phase = .sending then
         { s with tx := some { t with phase := .waiting, replyTimer := some (s.after 200) } }
       else s
     | none => s) := rfl

theorem exec_commandFrameSent_sending (tx : s.tx = some x) (sending : x.phase = .sending) :
    exec (.commandFrameSent x.leg x.seq) s
      = .next { s with tx := some { x with phase := .waiting, replyTimer := some (s.time + 200) } } := by
  rw [exec_commandFrameSent, tx]
  exact congrArg _ (if_pos ⟨rfl, rfl, sending⟩)

theorem exec_commandFrameSent_free (free : s.tx = none) (g : LegId) (b : Bool) : exec (.commandFrameSent g b) s = .next s := by
  rw [exec_commandFrameSent, free]

theorem exec_backoffEnd (tx : s.tx = some x) (backoff : x.phase = .backoff) :
    exec .backoffEnd s = .next { s with tx := some { x with phase := .sending, backoff := none } } := by
  refine congrArg Host.Outcome.next ?_
  rw [tx]
  exact if_pos backoff

theorem exec_sidebandDefer {g : LegId} {f : ResponseBody} (reply : s.getsReply g x 2 f) : exec (.sidebandDefer g f) s
    = .next (((s.modLeg g (fun l => { l with timeouts := 0 })).restoreSideband g).backOff x) := by
  refine congrArg Host.Outcome.next ((State.takeResponse_good reply).trans ?_)
  rw [State.goodReply, if_neg (by decide), if_pos rfl, reply.2.2.1]

end

end Sys2Proof.Machine

/-- Settles O18: each item's frame is the layout of R196 read back, and each move is the branch of its row. -/
theorem engineSendsAndWaits : Obligations.EngineSendsAndWaits := by
  unfold Obligations.EngineSendsAndWaits
  have itsLane {i : WinIx} : ∀ j, some i = some j → j = i := fun j e => (Option.some.inj e).symm
  refine ⟨fun x => ⟨fun d work => ?_, fun ix work => ?_, fun ix work => ?_, fun ix work => ?_, fun work => ?_,
      fun st a r work => ?_, fun u work => ?_, fun ix p q work => ?_, fun ix n work => ?_, fun ix a b work => ?_, fun work => ?_,
      rfl, rfl, rfl, rfl⟩,
    fun s x => exec_commandFrameSent_sending, fun s x => exec_backoffEnd, fun s g x f reply => ?_,
    fun s g b free => exec_commandFrameSent_free free g b⟩
  · exact Transaction.frame_reads work nofun nofun
  · exact Transaction.frame_reads work nofun nofun
  · exact Transaction.frame_reads work nofun nofun
  · exact Transaction.frame_reads work itsLane nofun
  · exact Transaction.frame_reads work nofun nofun
  · exact Transaction.frame_reads work nofun nofun
  · exact Transaction.frame_reads work itsLane nofun
  · exact Transaction.frame_reads work itsLane nofun
  · exact Transaction.frame_reads work itsLane nofun
  · exact Transaction.frame_reads work itsLane nofun
  · have beat : x.beatField = x.beat := by rw [Transaction.beatField, work]
    exact Transaction.frame_reads work nofun fun n e => (Option.some.inj e).symm.trans beat.symm
  · have rest := (s.modLeg g (fun l => { l with timeouts := 0 })).restoreSideband_rest g
    have leg := fun k => (s.modLeg g (fun l => { l with timeouts := 0 })).restoreSideband_leg g k
    refine ⟨_, exec_sidebandDefer reply, ?_, (leg g).trans ?_, fun k hk => (leg k).trans ?_, ?_⟩
    · rw [State.backOff, State.after, rest]; rfl
    · rw [if_pos rfl, State.modLeg_leg_same]
    · rw [if_neg hk, State.modLeg_leg_other _ _ hk]
    · rw [State.backOff, rest]; rfl

end

