-- ==== Sys2Proof/Proofs/CommandAnswers.lean ====
section
/-! SUPPORT. What an END answers before an item's rule is asked, a repeat (R139) or one of the checks of R140, and a FETCH
(R141). -/

open Sys2Proof Sys2Proof.Machine

namespace Sys2Proof.Machine

/-! ### Every command row comes to one operation -/

theorem exec_of_commandOf {i : Instr} {pair : LegId} {kind : BitVec 3} {item : Byte} {f : CommandBody}
    (h : commandOf i = some (pair, kind, item, f)) (s : State) : exec i s = .next (s.takeCommand pair kind item f) := by
  unfold commandOf at h
  split at h <;> cases h <;> rfl

theorem State.takeCommand_repeat {s : State} {kind : BitVec 3} {item : Byte} {f : CommandBody} {hd : HeldResponse}
    (notDrain : kind ≠ 5) (atEnd : s.isHub = false) (awake : (s.leg 0).state ≠ .off) (crc : commandCrcOk kind item f)
    (held : s.resp.held = some hd) (again : hd.repeats kind item f) :
    s.takeCommand 0 kind item f = s.heard.send hd.frame := by
  unfold State.takeCommand
  rw [if_neg (by simp [crc]), if_neg (by simp [atEnd]), if_neg (by simp [awake]), if_neg notDrain, State.heard_held, held]
  exact if_pos again

/-! ### The checks of R140 -/

section
variable {s : State} {kind : BitVec 3} {item : Byte} {f : CommandBody}

theorem State.checkCommand_unknown (h : kind = 0 ∨ 5 ≤ kind.toNat) : s.checkCommand kind item f = s.refuse kind item f .badValue :=
  if_pos h

theorem State.checkCommand_uncarried (known : kind ≠ 0 ∧ kind.toNat < 5) (h : carries kind item = false) :
    s.checkCommand kind item f = s.refuse kind item f .unknownItem := by
  unfold State.checkCommand
  rw [if_neg (not_or.mpr ⟨known.1, by omega⟩), if_pos h]

theorem State.checkCommand_badLength (known : kind ≠ 0 ∧ kind.toNat < 5) (h : carries kind item)
    (length : f.data.length ≠ commandLength kind item) : s.checkCommand kind item f = s.refuse kind item f .badValue := by
  unfold State.checkCommand
  rw [if_neg (not_or.mpr ⟨known.1, by omega⟩), if_neg (by simp [h]), if_pos length]

/-- The table of R123 as the statements give it. -/
theorem carries_of_carriedLength {len : Nat} (h : carriedLength kind item = some len) :
    (kind ≠ 0 ∧ kind.toNat < 5) ∧ carries kind item ∧ commandLength kind item = len := by
  have known {n : Nat} (e : kind.toNat = n) (pos : 0 < n) (lt : n < 5) : kind ≠ 0 ∧ kind.toNat < 5 :=
    ⟨by rintro rfl; simp at e; omega, by omega⟩
  unfold carriedLength at h
  split at h <;> cases h <;> rename_i k i <;>
    exact ⟨known k (by decide) (by decide), by simp only [carries, k, i], by simp only [commandLength, k, i]⟩

/-- The table of R123 by its pairs. -/
theorem carries_pairs (h : carries kind item) : (kind = 1 ∧ item = 1) ∨ (kind = 2 ∧ item = 1) ∨ (kind = 2 ∧ item = 2)
    ∨ (kind = 2 ∧ item = 3) ∨ (kind = 3 ∧ item = 4) ∨ (kind = 3 ∧ item = 6) ∨ (kind = 4 ∧ item = 5) := by
  have pair {k : BitVec 3} {i : Byte} (hk : kind.toNat = k.toNat) (hi : item.toNat = i.toNat) : kind = k ∧ item = i :=
    ⟨BitVec.eq_of_toNat_eq hk, BitVec.eq_of_toNat_eq hi⟩
  unfold carries at h
  split at h
  case h_1 k i => exact .inl (pair k i)
  case h_2 k i => exact .inr (.inl (pair k i))
  case h_3 k i => exact .inr (.inr (.inl (pair k i)))
  case h_4 k i => exact .inr (.inr (.inr (.inl (pair k i))))
  case h_5 k i => exact .inr (.inr (.inr (.inr (.inl (pair k i)))))
  case h_6 k i => exact .inr (.inr (.inr (.inr (.inr (.inl (pair k i))))))
  case h_7 k i => exact .inr (.inr (.inr (.inr (.inr (.inr (pair k i))))))
  case h_8 => cases h

theorem not_carries (h : (kind = 1 ∧ item ≠ 1) ∨ (kind = 2 ∧ item ≠ 1 ∧ item ≠ 2 ∧ item ≠ 3)
    ∨ (kind = 3 ∧ item ≠ 4 ∧ item ≠ 6) ∨ (kind = 4 ∧ item ≠ 5)) : carries kind item = false := by
  refine eq_false_of_ne_true fun carry => ?_
  rcases carries_pairs carry with ⟨rfl, rfl⟩ | ⟨rfl, rfl⟩ | ⟨rfl, rfl⟩ | ⟨rfl, rfl⟩ | ⟨rfl, rfl⟩ | ⟨rfl, rfl⟩
      | ⟨rfl, rfl⟩ <;>
    revert h <;> decide

/-- What a fresh command answered with a REFUSE leaves of an END. -/
theorem State.refused_of_fresh (takes : s.takesCommand kind item f) (notDrain : kind ≠ 5) {why : RefuseReason}
    (refused : s.heard.checkCommand kind item f = s.heard.refuse kind item f why) {i : Instr}
    (row : commandOf i = some (0, kind, item, f)) :
    ∃ t, exec i s = .next t
      ∧ t.resp.lastSent = some (responseFrame 3 f.seq false item why.code [])
      ∧ t.resp.held = some ⟨f.seq, kind, item, f.lane, f.data, responseFrame 3 f.seq false item why.code []⟩
      ∧ t.resp.silence = some (s.time + 20000)
      ∧ t.leg 0 = { s.leg 0 with sbLost := false, probeWait := (t.leg 0).probeWait } ∧ t.lanes = s.lanes
      ∧ s.settingKept t := by
  refine ⟨_, (exec_of_commandOf row s).trans (congrArg _ ((State.takeCommand_fresh takes notDrain).trans refused)), ?_⟩
  obtain ⟨lanes, sent, held, -, -, setting⟩ := s.heard_refuse kind item f why
  refine ⟨sent, held, ?_, ?_, lanes, setting⟩
  · show s.heard.resp.silence = _
    rw [s.heard_rest]
    rfl
  · show s.heard.leg 0 = { s.leg 0 with sbLost := false, probeWait := (s.heard.leg 0).probeWait }
    rw [s.heard_leg_zero]

end

/-! ### A FETCH (R141) -/

theorem State.checkCommand_fetch (s : State) (k : FetchKind) {f : CommandBody} (length : f.data = []) :
    s.checkCommand 2 (fetchCode k) f = s.takeFetch 2 (fetchCode k) f := by
  cases k <;> simp [State.checkCommand, carries, commandLength, fetchCode, length]

theorem exec_fetchCommand {s : State} {k : FetchKind} {f : CommandBody} (takes : s.takesCommand 2 (fetchCode k) f)
    (length : f.data = []) : exec (.fetchCommand 0 k f) s = .next (s.heard.takeFetch 2 (fetchCode k) f) :=
  congrArg Host.Outcome.next ((State.takeCommand_fresh takes (by decide)).trans (s.heard.checkCommand_fetch k length))

theorem State.heard_statusData (s : State) : s.heard.statusData
    = [byteOf (s.leg 0).state.code, byteOf (s.leg 0).attention, byteOf (s.leg 0).errCount, 0] := by
  unfold State.statusData
  rw [s.heard_leg_zero]
  rfl

end Sys2Proof.Machine

/-- Settles O36: the repeat is answered after step 3 of R138 and before any check. -/
theorem endAnswersRepeatsFromItsHold : Obligations.EndAnswersRepeatsFromItsHold := by
  unfold Obligations.EndAnswersRepeatsFromItsHold
  intro s i kind item f hd row notDrain atEnd awake crc held again
  refine ⟨_, (exec_of_commandOf row s).trans (congrArg _ (State.takeCommand_repeat notDrain atEnd awake crc held again)),
    s.heard_lanes, s.heard_queue, s.heard_state, s.heard_held, rfl, ?_⟩
  show s.heard.resp.silence = _
  rw [s.heard_rest]
  rfl

/-- Settles O37: each clause is one check of R140. -/
theorem endRefusesUnknownCommands : Obligations.EndRefusesUnknownCommands := by
  unfold Obligations.EndRefusesUnknownCommands
  refine ⟨fun s kind item f takes unknown => ?_, fun s kind item f takes other => ?_,
    fun s kind item f i len row takes carried length => ?_⟩
  · refine State.refused_of_fresh takes (why := .badValue) ?_ (State.checkCommand_unknown ?_) rfl
    · rcases unknown with rfl | rfl | rfl <;> decide
    · exact unknown.imp_right fun late => by rcases late with rfl | rfl <;> decide
  · have known : kind ≠ 0 ∧ kind.toNat < 5 := by
      rcases other with ⟨rfl, -⟩ | ⟨rfl, -⟩ | ⟨rfl, -⟩ | ⟨rfl, -⟩ <;> decide
    exact State.refused_of_fresh takes (why := .unknownItem) (by rintro rfl; exact absurd known.2 (by decide))
      (State.checkCommand_uncarried known (not_carries other)) rfl
  · obtain ⟨known, carry, same⟩ := carries_of_carriedLength carried
    exact State.refused_of_fresh takes (why := .badValue) (by rintro rfl; exact absurd known.2 (by decide))
      (State.checkCommand_badLength known carry (by rw [same]; exact length)) row

/-- Settles O31: the ACK carries what the record said before the frame, but for the lost flag that hearing it clears. -/
theorem endAnswersFetch : Obligations.EndAnswersFetch := by
  unfold Obligations.EndAnswersFetch
  refine ⟨fun s f takes length => ?_, fun s f takes length => ?_, fun s f takes length => ?_⟩
  · refine ⟨_, exec_fetchCommand (k := .ident) takes length, ?_, s.heard_state, ?_, s.heard_lanes, s.heard_settingKept⟩
    · show some (responseFrame 1 f.seq false 1 0 (s.heard.ident 0).bytes) = _
      rw [s.heard_ident]
    · show (s.heard.leg 0).farId = _
      rw [s.heard_leg_zero]
  · refine ⟨_, exec_fetchCommand (k := .status) takes length, ?_, s.heard_state, s.heard_lanes, s.heard_settingKept⟩
    show some (responseFrame 1 f.seq false 2 0 s.heard.statusData) = _
    rw [s.heard_statusData]
  · have answer : s.heard.takeFetch 2 (fetchCode .laneInfo) f
        = if s.hasIndex 0 f.lane then s.heard.ack 2 3 f (s.lane (s.winLane 0 f.lane)).info else s.heard.refuse 2 3 f .badLane := by
      rw [← s.heard_hasIndex, ← s.heard_winLane, ← s.heard_lane]
      rfl
    refine ⟨_, (exec_fetchCommand (k := .laneInfo) takes length).trans (congrArg _ answer), ?_⟩
    split
    · exact ⟨rfl, s.heard_state, s.heard_lanes, s.heard_settingKept⟩
    · exact ⟨rfl, s.heard_state, s.heard_lanes, s.heard_settingKept⟩

end

