-- ==== Sys2Proof/Proofs/HeldItems.lean ====
section
/-! SUPPORT. Which held items enter the places a drained or started head item frees, and in which order (R150). -/

open Sys2Proof Sys2Proof.Machine

namespace Sys2Proof.Machine

/-! ### The items of a hold with a place for each window index -/

section
variable {α β : Type} (v : Vector (Option α) 8) (f : WinIx → α → Item) (whole : Vector (Option α) 8 → β)

/-- The held items of these indices, in their order. -/
def heldIn (ks : List WinIx) (v : Vector (Option α) 8) : List Item := ks.filterMap (fun i => v[i].map (f i))

theorem heldIn_set {ks : List WinIx} {k : WinIx} (other : k ∉ ks) : heldIn f ks (v.set k.val none k.isLt) = heldIn f ks v :=
  List.filterMap_congr fun i hi => by
    have ne : k.val ≠ i.val := fun e => other (Fin.ext e ▸ hi)
    simp [ne]

theorem heldIn_none {ks : List WinIx}
    (h : ks.findSome? (fun i => v[i].map (fun q => (f i q, whole (v.set i.val none i.isLt)))) = none) : heldIn f ks v = [] := by
  rw [List.findSome?_eq_none_iff] at h
  exact List.filterMap_eq_nil_iff.mpr fun i hi => Option.map_eq_none_iff.mpr (Option.map_eq_none_iff.mp (h i hi))

/-- The first held item is taken out, and the others stay in their order. -/
theorem heldIn_some {ks : List WinIx} (nodup : ks.Nodup) {x : Item} {b : β}
    (h : ks.findSome? (fun i => v[i].map (fun q => (f i q, whole (v.set i.val none i.isLt)))) = some (x, b)) :
    ∃ n ∈ ks, b = whole (v.set n.val none n.isLt) ∧ heldIn f ks v = x :: heldIn f ks (v.set n.val none n.isLt) := by
  induction ks with
  | nil => cases h
  | cons k ks ih =>
    obtain ⟨fresh, nodup⟩ := List.nodup_cons.mp nodup
    cases here : v[k] with
    | some q =>
      simp only [List.findSome?_cons, here, Option.map_some] at h
      cases h
      refine ⟨k, List.mem_cons_self, rfl, ?_⟩
      have gone : heldIn f (k :: ks) (v.set k.val none k.isLt) = heldIn f ks v :=
        (List.filterMap_cons_none (by simp)).trans (heldIn_set v f fresh)
      rw [gone]
      exact List.filterMap_cons_some (by rw [here]; rfl)
    | none =>
      simp only [List.findSome?_cons, here, Option.map_none] at h
      obtain ⟨n, hn, e, held⟩ := ih nodup h
      have ne : n.val ≠ k.val := fun same => fresh (Fin.ext same ▸ hn)
      refine ⟨n, List.mem_cons_of_mem _ hn, e, ?_⟩
      have skip {u : Vector (Option α) 8} (none : u[k] = .none) : heldIn f (k :: ks) u = heldIn f ks u :=
        List.filterMap_cons_none (by rw [none]; rfl)
      rw [skip here, skip (by simpa [ne] using here), held]

end

theorem allLanes_nodup : allLanes.Nodup := by decide

/-! ### The next held item (R150) -/

/-- The held items of a leg by its holds. -/
theorem Leg.heldItems_eq (l : Leg) (role : Role) : l.heldItems role
    = (match role with
       | .hubRole => l.overflow.toList ++ heldIn (fun _ => Item.storeStatus) allLanes l.statusHold
       | .endRole => (if l.healthHold then [.retrainRequest] else []) ++ l.reportHold.toList)
      ++ heldIn (requestItem role) allLanes l.laneHold := by
  cases role <;> rfl

theorem Leg.laneHold_empty {l : Leg} {role : Role} (h : l.firstLaneHeld role = none) :
    heldIn (requestItem role) allLanes l.laneHold = [] :=
  heldIn_none l.laneHold (requestItem role) (fun v => ({ l with laneHold := v } : Leg)) h

theorem Leg.laneHold_taken {l m : Leg} {role : Role} {i : Item} (h : l.firstLaneHeld role = some (i, m)) :
    m = { l with laneHold := m.laneHold }
      ∧ heldIn (requestItem role) allLanes l.laneHold = i :: heldIn (requestItem role) allLanes m.laneHold := by
  obtain ⟨n, -, rfl, held⟩ := heldIn_some l.laneHold (requestItem role) (fun v => ({ l with laneHold := v } : Leg)) allLanes_nodup h
  exact ⟨rfl, held⟩

theorem Leg.statusHold_empty {l : Leg} (h : l.firstStatusHeld = none) :
    heldIn (fun _ => Item.storeStatus) allLanes l.statusHold = [] :=
  heldIn_none l.statusHold (fun _ => Item.storeStatus) (fun v => ({ l with statusHold := v } : Leg)) h

theorem Leg.statusHold_taken {l m : Leg} {i : Item} (h : l.firstStatusHeld = some (i, m)) :
    m = { l with statusHold := m.statusHold }
      ∧ heldIn (fun _ => Item.storeStatus) allLanes l.statusHold = i :: heldIn (fun _ => Item.storeStatus) allLanes m.statusHold := by
  obtain ⟨n, -, rfl, held⟩ :=
    heldIn_some l.statusHold (fun _ => Item.storeStatus) (fun v => ({ l with statusHold := v } : Leg)) allLanes_nodup h
  exact ⟨rfl, held⟩

/-- Where no held item is next there is none. -/
theorem Leg.nextHeld_none {l : Leg} {role : Role} (h : l.nextHeld role = none) : l.heldItems role = [] := by
  rw [Leg.heldItems_eq]
  unfold Leg.nextHeld at h
  cases role with
  | hubRole =>
    dsimp only at h
    split at h
    · cases h
    · rename_i overflow
      obtain ⟨status, lane⟩ := Option.or_eq_none_iff.mp h
      simp [overflow, Leg.statusHold_empty status, Leg.laneHold_empty lane]
  | endRole =>
    dsimp only at h
    split at h
    · cases h
    · rename_i health
      split at h
      · cases h
      · rename_i report
        simp [health, report, Leg.laneHold_empty h]

/-- The next held item is the first of them, and the others stay held in their order. -/
theorem Leg.nextHeld_some {l m : Leg} {role : Role} {i : Item} (h : l.nextHeld role = some (i, m)) :
    l.heldItems role = i :: m.heldItems role := by
  rw [Leg.heldItems_eq, Leg.heldItems_eq]
  unfold Leg.nextHeld at h
  cases role with
  | hubRole =>
    dsimp only at h
    split at h
    · rename_i overflow
      cases h
      simp [overflow]
    · rename_i overflow
      rcases Option.or_eq_some_iff.mp h with status | ⟨none, lane⟩
      · obtain ⟨same, held⟩ := Leg.statusHold_taken status
        rw [same]
        simp [overflow, held]
      · obtain ⟨same, held⟩ := Leg.laneHold_taken lane
        rw [same]
        simp [overflow, held, Leg.statusHold_empty none]
  | endRole =>
    dsimp only at h
    split at h
    · rename_i health
      cases h
      simp [health]
    · rename_i health
      split at h
      · rename_i report
        cases h
        simp [health, report]
      · rename_i report
        obtain ⟨same, held⟩ := Leg.laneHold_taken h
        rw [same]
        simp [health, report, held]

/-! ### The places filled (R150) -/

/-- Up to n places are filled, with the first held items in their order. -/
theorem Leg.fillHolds_held (role : Role) (n : Nat) (l : Leg) :
    (Leg.fillHolds role n l).queue = l.queue ++ (l.heldItems role).take (min n (4 - l.queue.length))
      ∧ (Leg.fillHolds role n l).heldItems role = (l.heldItems role).drop (min n (4 - l.queue.length)) := by
  induction n generalizing l with
  | zero => simp [Leg.fillHolds]
  | succ n ih =>
    unfold Leg.fillHolds
    by_cases room : l.queue.length < 4
    · rw [if_pos (by simpa [Leg.hasRoom] using room)]
      split
      · rename_i i m next
        have queue : m.queue = l.queue := by rw [Leg.nextHeld_same next]
        have held : ({ m with queue := m.queue ++ [i] } : Leg).heldItems role = m.heldItems role := rfl
        have places : min (n + 1) (4 - l.queue.length) = min n (4 - (l.queue.length + 1)) + 1 := by omega
        obtain ⟨filled, rest⟩ := ih { m with queue := m.queue ++ [i] }
        rw [filled, rest, held, queue, Leg.nextHeld_some next, places, List.length_append]
        simp
      · rename_i next
        simp [Leg.nextHeld_none next]
    · have none : 4 - l.queue.length = 0 := by omega
      rw [if_neg (by simpa [Leg.hasRoom] using room), none]
      simp

/-- The head item leaves, and held items enter the places that are then free. -/
theorem Leg.popped_held {l : Leg} {i : Item} {rest : List Item} (queue : l.queue = i :: rest) (role : Role) :
    (l.popped role).queue = rest ++ (l.heldItems role).take (4 - rest.length)
      ∧ (l.popped role).heldItems role = (l.heldItems role).drop (4 - rest.length) := by
  have popped : l.popped role = Leg.fillHolds role 4 { l with queue := rest } := by rw [Leg.popped, queue]; rfl
  have filled := Leg.fillHolds_held role 4 { l with queue := rest }
  rw [Nat.min_eq_right (Nat.sub_le 4 _)] at filled
  rw [popped]
  exact filled

end Sys2Proof.Machine

end

