-- ==== Sys2Proof/Proofs/DrainBeats.lean ====
section
/-! SUPPORT. A DRAIN beat at an END (R142) and the beacon it sends between transactions (R124). -/

open Sys2Proof Sys2Proof.Machine

namespace Sys2Proof.Machine

/-! ### The beacon (R124, R151) -/

theorem Item.level_le (i : Item) : i.level ≤ 3 := by
  unfold Item.level
  split <;> decide

/-- The highest of a start value and the levels of these items. -/
theorem foldl_level_max (is : List Item) (n : Nat) :
    n ≤ is.foldl (fun n i => max n i.level) n ∧ (∀ i ∈ is, i.level ≤ is.foldl (fun n i => max n i.level) n)
      ∧ (is.foldl (fun n i => max n i.level) n = n ∨ ∃ i ∈ is, i.level = is.foldl (fun n i => max n i.level) n) := by
  induction is generalizing n with
  | nil => simp
  | cons i is ih =>
    rw [List.foldl_cons]
    obtain ⟨start, above, value⟩ := ih (max n i.level)
    refine ⟨(Nat.le_max_left _ _).trans start, fun j hj => ?_, ?_⟩
    · rcases List.mem_cons.mp hj with rfl | later
      · exact (Nat.le_max_right _ _).trans start
      · exact above j later
    · rcases value with same | ⟨j, hj, e⟩
      · rcases Nat.le_total n i.level with le | le
        · exact .inr ⟨i, List.mem_cons_self, by rw [same, Nat.max_eq_right le]⟩
        · exact .inl (by rw [same, Nat.max_eq_left le])
      · exact .inr ⟨j, List.mem_cons_of_mem _ hj, e⟩

theorem Leg.attention_spec (l : Leg) : l.attention ≤ 3 ∧ (l.queue = [] → l.attention = 0)
    ∧ (∀ i ∈ l.queue, i.level ≤ l.attention) ∧ (l.queue ≠ [] → ∃ i ∈ l.queue, i.level = l.attention) := by
  obtain ⟨-, above, value⟩ := foldl_level_max l.queue 0
  change (∀ i ∈ l.queue, i.level ≤ l.attention) at above
  change l.attention = 0 ∨ ∃ i ∈ l.queue, i.level = l.attention at value
  refine ⟨?_, fun empty => ?_, above, fun some => ?_⟩
  · rcases value with e | ⟨i, -, e⟩
    · omega
    · exact e ▸ i.level_le
  · rw [Leg.attention, empty]; rfl
  · rcases value with e | h
    · obtain ⟨i, hi⟩ := List.exists_mem_of_ne_nil _ some
      have le := above i hi
      exact ⟨i, hi, by omega⟩
    · exact h

/-! ### A beat (R142) -/

theorem State.noteDrained_rest (s : State) (i : Item) : s.noteDrained i = { s with lanes := (s.noteDrained i).lanes } := by
  unfold State.noteDrained
  split <;> rfl

theorem State.noteDrained_tapsKept (s : State) (i : Item) : s.tapsKept (s.noteDrained i) := fun c => by
  unfold State.noteDrained
  split
  · rw [State.modLane_lane]
    split
    · rename_i e; rw [e]; exact ⟨rfl, rfl, rfl, rfl⟩
    · exact ⟨rfl, rfl, rfl, rfl⟩
  · exact ⟨rfl, rfl, rfl, rfl⟩

section
variable {s : State} {f : CommandBody}

theorem State.takeDrain_same (beat : s.resp.beatPrev = some f.beat) :
    s.takeDrain f = s.send (drainFrame f.seq s.resp.beatItem (!(s.leg 0).queue.isEmpty)) := if_pos beat

theorem State.takeDrain_empty (beat : s.resp.beatPrev ≠ some f.beat) (empty : (s.leg 0).queue = []) :
    s.takeDrain f = State.send { s with resp := { s.resp with beatPrev := some f.beat, beatItem := none } }
      (drainFrame f.seq none false) := by
  unfold State.takeDrain
  rw [if_neg beat, empty]

/-- The state from which the head item has gone to the beat hold. -/
def State.beaten (s : State) (i : Item) : State := (s.modLeg 0 (fun l => l.popped s.role)).noteDrained i

theorem State.beaten_leg (s : State) (i : Item) : (s.beaten i).leg 0 = (s.leg 0).popped s.role := by
  unfold State.beaten
  rw [State.noteDrained_rest]
  exact State.modLeg_leg_same s 0 (fun l => l.popped s.role)

theorem State.beaten_resp (s : State) (i : Item) : (s.beaten i).resp = s.resp := by
  unfold State.beaten
  rw [State.noteDrained_rest]
  rfl

theorem State.beaten_tapsKept (s : State) (i : Item) : s.tapsKept (s.beaten i) :=
  State.noteDrained_tapsKept (s.modLeg 0 (fun l => l.popped s.role)) i

theorem State.takeDrain_item (beat : s.resp.beatPrev ≠ some f.beat) {i : Item} {rest : List Item}
    (queue : (s.leg 0).queue = i :: rest) :
    s.takeDrain f = State.send { s.beaten i with resp := { s.resp with beatPrev := some f.beat, beatItem := some i } }
      (drainFrame f.seq (some i) (!rest.isEmpty)) := by
  unfold State.takeDrain
  rw [if_neg beat, queue, ← s.beaten_resp i]
  rfl

theorem exec_drainCommand (atEnd : s.isHub = false) (awake : (s.leg 0).state ≠ .off) (crc : commandCrcOk 5 0 f) :
    exec (.drainCommand 0 0 f) s = .next (s.heard.takeDrain f) := by
  refine congrArg Host.Outcome.next ?_
  unfold State.takeCommand
  rw [if_neg (ne_false_of_eq_true crc), if_neg (by simp [atEnd]), if_neg (by simp [awake])]
  exact if_pos rfl

theorem State.heard_beat (s : State) : s.heard.resp.beatPrev = s.resp.beatPrev ∧ s.heard.resp.beatItem = s.resp.beatItem := by
  rw [s.heard_rest]
  exact ⟨rfl, rfl⟩

end

end Sys2Proof.Machine

/-- Settles O35: the beacon by the attention level, and the three cases of a beat. -/
theorem endDrainsOneItemPerBeat : Obligations.EndDrainsOneItemPerBeat := by
  unfold Obligations.EndDrainsOneItemPerBeat
  refine ⟨fun s => ⟨fun silent => ?_, fun atEnd awake => ?_⟩, fun s f atEnd awake crc beat => ?_,
    fun s f i rest atEnd awake crc beat queue => ?_, fun s f atEnd awake crc beat empty => ?_⟩
  · exact if_pos (by simpa using silent)
  · obtain ⟨small, empty, above, value⟩ := (s.leg 0).attention_spec
    exact ⟨_, small, if_neg (by simp [atEnd, awake]), empty, above, value⟩
  all_goals obtain ⟨prev, item⟩ := s.heard_beat
  · refine ⟨_, (exec_drainCommand atEnd awake crc).trans (congrArg _ (State.takeDrain_same (prev.trans beat))),
      s.heard_queue, prev, item, s.heard_held, ?_, s.heard_lanes⟩
    rw [item, s.heard_queue]
    rfl
  · have queue' : (s.heard.leg 0).queue = i :: rest := s.heard_queue.trans queue
    refine ⟨_, (exec_drainCommand atEnd awake crc).trans (congrArg _ (State.takeDrain_item (prev ▸ beat) queue')),
      rfl, rfl, s.heard_held, rfl, ?_⟩
    have role : s.heard.role = .endRole := State.role_of_isHub_false (s.heard_isHub.trans atEnd)
    have held : (s.heard.leg 0).heldItems .endRole = (s.leg 0).heldItems .endRole := by rw [s.heard_leg_zero]; rfl
    obtain ⟨filled, left⟩ := Leg.popped_held queue' .endRole
    have leg : (s.heard.beaten i).leg 0 = (s.heard.leg 0).popped .endRole := by rw [State.beaten_leg, role]
    rw [held] at filled left
    refine ⟨(congrArg Leg.queue leg).trans filled, (congrArg (·.heldItems .endRole) leg).trans left, fun c => ?_, ?_⟩
    · rw [← s.heard_lane c]
      exact s.heard.beaten_tapsKept i c
    · exact (congrArg Leg.state leg).trans ((Leg.field_of_apart ((s.heard.leg 0).popped_apart _) Leg.state fun _ => rfl).trans
        s.heard_state)
  · exact ⟨_, (exec_drainCommand atEnd awake crc).trans (congrArg _ (State.takeDrain_empty (prev ▸ beat)
      (s.heard_queue.trans empty))), rfl, rfl, s.heard_held, rfl, s.heard_lanes, s.heard_queue.trans empty⟩

end

