-- ==== Sys2Proof/Proofs/FailedTransactions.lean ====
section
/-! SUPPORT. What the failure of a HUB's transaction, by expiry or by the third timeout, does at its originator where no search
and no PROBE waits for it: at most the reply of a FAR_READ (R132, R133, R146). -/

open Sys2Proof Sys2Proof.Machine

namespace Sys2Proof.Machine

/-- The transaction failed: it expired or the sideband is lost. -/
def TxResult.isFailure : TxResult → Bool
  | .lost => true
  | .expired => true
  | _ => false

theorem TxResult.isFailure_cases {r : TxResult} (failed : r.isFailure) : r = .lost ∨ r = .expired := by
  cases r with
  | lost => exact .inl rfl
  | expired => exact .inr rfl
  | ack item more d => cases failed
  | refuse why => cases failed

section
variable {w : State} {x : Transaction} {r : TxResult}

theorem State.exchangeEnds_failed (w : State) (failed : r.isFailure) (ix : WinIx) :
    w.exchangeEnds x ix r = if x.live then w.takeResult x.leg ix .failure else w := by
  rcases TxResult.isFailure_cases failed with rfl | rfl <;> rfl

theorem State.exchangeEnds_beside (failed : r.isFailure) {ix : WinIx} {q : TapRequest} (work : x.work = .item (.exchange ix q))
    (beside : w.besideSearch x) : w.exchangeEnds x ix r = w := by
  rw [State.exchangeEnds_failed w failed]
  split
  · rename_i live
    simp only [State.besideSearch, work, live, Bool.true_and, Bool.not_eq_true'] at beside
    exact if_neg (by rw [beside]; decide)
  · rfl

/-- The originator of a failed transaction takes no notice of it, but for a FAR_READ, which is answered. -/
theorem State.handOn_failed (failed : r.isFailure) (beside : w.besideSearch x)
    (elsewhere : ¬(x.work.isProbe ∧ (w.leg x.leg).state = .probe)) :
    w.handOn x r = w ∨ ∃ c, w.handOn x r = w.farReadFailed c 0 := by
  unfold State.handOn
  cases work : x.work with
  | drain => rcases TxResult.isFailure_cases failed with rfl | rfl <;> exact .inl rfl
  | item i =>
    cases i with
    | probe d =>
      have state : (w.leg x.leg).state ≠ .probe := fun h => elsewhere ⟨by rw [work]; rfl, h⟩
      rcases TxResult.isFailure_cases failed with rfl | rfl <;> exact .inl (if_pos state)
    | exchange ix q => exact .inl (State.exchangeEnds_beside failed work beside)
    | farFetch k ix =>
      rcases TxResult.isFailure_cases failed with rfl | rfl
      · exact .inr ⟨.lost, rfl⟩
      · exact .inr ⟨.expired, rfl⟩
    | _ => rcases TxResult.isFailure_cases failed with rfl | rfl <;> exact .inl rfl

theorem noFarRead {q : Option Slot} (idle : q.map Slot.kind ≠ some 0x0E) : q.any (fun q => q.kind == farReadKind) = false := by
  cases q with
  | none => rfl
  | some q => exact beq_eq_false_iff_ne.mpr fun e => idle (congrArg some e)

theorem State.handOn_failed_rest (failed : r.isFailure) (beside : w.besideSearch x)
    (elsewhere : ¬(x.work.isProbe ∧ (w.leg x.leg).state = .probe)) :
    w.handOn x r = { w with port := (w.handOn x r).port }
      ∧ (w.port.slot.map Slot.kind ≠ some 0x0E → (w.handOn x r).port = w.port) := by
  rcases State.handOn_failed failed beside elsewhere with e | ⟨c, e⟩ <;> rw [e]
  · exact ⟨rfl, fun _ => rfl⟩
  · exact ⟨State.farReadDone_rest _ _ _, fun idle => congrArg State.port (State.farReadDone_none (noFarRead idle) _ _)⟩

end

end Sys2Proof.Machine
end

