-- ==== Sys2Proof/Proofs/Grants.lean ====
section
/-! SUPPORT. The arbiter's choice in full: which leg it grants and what transaction it starts (R143, R150, R155 to R157), and that
after it a HUB's engine is FREE only while no leg has demand. -/

open Sys2Proof Sys2Proof.Machine

namespace Sys2Proof.Machine

/-! ### The transaction started (R126, R143, R150) -/

/-- What starting a transaction of leg k does: the transaction x, its figures in the leg, and the places the head item frees. -/
structure State.Starts (s t : State) (k : LegId) (x : Transaction) : Prop where
  tx : t.tx = some x
  leg : x.leg = k
  work : x.work = ((s.leg k).queue.head?.map Work.item).getD .drain
  phase : x.phase = .sending
  expiry : x.expiry = s.time + 2000
  seq : x.seq = !(s.leg k).seq
  beat : x.beat = if x.work = .drain ∧ (s.leg k).beatTaken then (s.leg k).beat + 1 else (s.leg k).beat
  numbered : (t.leg k).beat = x.beat
  taken : (t.leg k).beatTaken = if x.work = .drain then false else (s.leg k).beatTaken
  popped : ∀ i rest, (s.leg k).queue = i :: rest →
    (t.leg k).queue = rest ++ ((s.leg k).heldItems s.role).take (4 - rest.length)
      ∧ (t.leg k).heldItems s.role = ((s.leg k).heldItems s.role).drop (4 - rest.length)

theorem State.startNext_item {s : State} {k : LegId} {i : Item} (head : (s.leg k).queue.head? = some i) :
    s.startNext k = some ((s.beginTx k (.item i)).modLeg k (fun l => l.popped s.role)).countTx := by
  unfold State.startNext
  rw [head]

theorem State.startNext_drain {s : State} {k : LegId} (empty : (s.leg k).queue.head? = none)
    (signal : 0 < (s.leg k).beacon.val ∧ (s.leg k).drainDone = false) : s.startNext k = some (s.beginTx k .drain).countTx := by
  unfold State.startNext
  rw [empty]
  exact if_pos signal

theorem State.startNext_starts {s t : State} {k : LegId} (h : s.startNext k = some t) : ∃ x, s.Starts t k x := by
  have begun (w : Work) := (s.beginTx_leg k k w).trans (if_pos rfl)
  cases head : (s.leg k).queue.head? with
  | some i =>
    rw [State.startNext_item head] at h
    cases h
    have own : (((s.beginTx k (.item i)).modLeg k (fun l => l.popped s.role)).countTx).leg k
        = ((s.beginTx k (.item i)).leg k).popped s.role :=
      State.modLeg_leg_same (s.beginTx k (.item i)) k (fun l => l.popped s.role)
    have same := ((s.beginTx k (.item i)).leg k).popped_requeued s.role |>.same
    refine ⟨_, ⟨rfl, rfl, by rw [head]; rfl, rfl, rfl, rfl, rfl, ?_, ?_, fun j rest queue => ?_⟩⟩
    · rw [own, same, begun]
    · rw [own, same, begun]
    · have held : ((s.beginTx k (.item i)).leg k).heldItems s.role = (s.leg k).heldItems s.role := by rw [begun]; rfl
      have popped := Leg.popped_held (l := (s.beginTx k (.item i)).leg k) (by rw [begun]; exact queue) s.role
      rw [own, ← held]
      exact popped
  | none =>
    by_cases signal : 0 < (s.leg k).beacon.val ∧ (s.leg k).drainDone = false
    · rw [State.startNext_drain head signal] at h
      cases h
      refine ⟨_, ⟨rfl, rfl, by rw [head]; rfl, rfl, rfl, rfl, rfl, ?_, ?_, fun j rest queue => ?_⟩⟩
      · exact congrArg Leg.beat (begun .drain)
      · exact congrArg Leg.beatTaken (begun .drain)
      · rw [queue] at head; cases head
    · unfold State.startNext at h
      rw [head] at h
      dsimp only at h
      rw [if_neg signal] at h
      cases h

/-- With demand there is something to start (R153, R156). -/
theorem State.startNext_of_demand {s : State} {k : LegId} (demand : 0 < (s.leg k).demand) : ∃ t, s.startNext k = some t := by
  cases head : (s.leg k).queue.head? with
  | some i => exact ⟨_, State.startNext_item head⟩
  | none =>
    refine ⟨_, State.startNext_drain head ?_⟩
    obtain ⟨off, fault⟩ := Leg.demand_awake demand
    unfold Leg.demand at demand
    rw [if_neg (not_or.mpr ⟨off, fault⟩), head] at demand
    cases done : (s.leg k).drainDone with
    | true => simp [done] at demand
    | false =>
      refine ⟨?_, rfl⟩
      by_contra silent
      have none : (s.leg k).beacon.val = 0 := by omega
      simp [done, none] at demand

/-! ### The leg chosen (R155) -/

/-- The first of the legs of highest demand, from a leg already found. -/
theorem foldl_demand (d : LegId → Nat) (ks : List LegId) (sorted : ks.Pairwise (· < ·)) (b : Option LegId) :
    let r := ks.foldl (fun b g => if (b.map d).getD 0 < d g then some g else b) b
    (∀ k ∈ ks, d k ≤ (r.map d).getD 0) ∧ (b.map d).getD 0 ≤ (r.map d).getD 0
      ∧ (r = b ∨ ∃ g, r = some g ∧ (b.map d).getD 0 < d g ∧ ∀ k ∈ ks, k < g → d k < d g) := by
  induction ks generalizing b with
  | nil => simp
  | cons k ks ih =>
    obtain ⟨first, sorted⟩ := List.pairwise_cons.mp sorted
    rw [List.foldl_cons]
    by_cases more : (b.map d).getD 0 < d k
    · rw [if_pos more]
      obtain ⟨above, start, value⟩ := ih sorted (some k)
      refine ⟨fun j hj => ?_, more.le.trans start, .inr ?_⟩
      · rcases List.mem_cons.mp hj with rfl | later
        · exact start
        · exact above j later
      · rcases value with same | ⟨g, e, higher, low⟩
        · refine ⟨k, same, more, fun j hj below => ?_⟩
          rcases List.mem_cons.mp hj with rfl | later
          · exact absurd below (lt_irrefl _)
          · exact absurd (below.trans (first j later)) (lt_irrefl _)
        · refine ⟨g, e, more.trans higher, fun j hj below => ?_⟩
          rcases List.mem_cons.mp hj with rfl | later
          · exact higher
          · exact low j later below
    · rw [if_neg more]
      obtain ⟨above, start, value⟩ := ih sorted b
      refine ⟨fun j hj => ?_, start, value.imp id ?_⟩
      · rcases List.mem_cons.mp hj with rfl | later
        · exact (Nat.le_of_not_lt more).trans start
        · exact above j later
      · rintro ⟨g, e, higher, low⟩
        refine ⟨g, e, higher, fun j hj below => ?_⟩
        rcases List.mem_cons.mp hj with rfl | later
        · omega
        · exact low j later below

theorem State.bestLeg_none {s : State} (h : s.bestLeg = none) (k : LegId) : (s.leg k).demand = 0 := by
  obtain ⟨above, -, -⟩ := foldl_demand (fun k => (s.leg k).demand) allLegs (by decide) none
  change ∀ k ∈ allLegs, (s.leg k).demand ≤ (s.bestLeg.map (fun k => (s.leg k).demand)).getD 0 at above
  rw [h] at above
  exact Nat.le_zero.mp (above k (mem_allLegs k))

theorem State.bestLeg_some {s : State} {g : LegId} (h : s.bestLeg = some g) :
    (∀ k, (s.leg k).demand ≤ (s.leg g).demand) ∧ ∀ k, k < g → (s.leg k).demand < (s.leg g).demand := by
  obtain ⟨above, -, value⟩ := foldl_demand (fun k => (s.leg k).demand) allLegs (by decide) none
  change ∀ k ∈ allLegs, (s.leg k).demand ≤ (s.bestLeg.map (fun k => (s.leg k).demand)).getD 0 at above
  change s.bestLeg = none ∨ _ at value
  rw [h] at above value
  refine ⟨fun k => above k (mem_allLegs k), fun k below => ?_⟩
  rcases value with none | ⟨j, e, -, low⟩
  · cases none
  · have same : g = j := Option.some.inj (h.symm.trans e)
    subst same
    exact low k (mem_allLegs k) below

/-! ### The choice (R155) -/

theorem State.choose_idle {s : State} (none : s.bestLeg = none) : s.choose = s := by
  unfold State.choose
  rw [none]

theorem State.choose_starts {s : State} {g : LegId} (best : s.bestLeg = some g) :
    ∃ x, s.Starts s.choose g x ∧ s.choose.grant = some ⟨g, 1, 8⟩ := by
  obtain ⟨t, starts⟩ := State.startNext_of_demand (s := { s with grant := some ⟨g, 0, 8⟩ }) (State.bestLeg_demand best)
  have chosen : s.choose = t := by
    unfold State.choose
    rw [best]
    exact congrArg (·.getD s) starts
  obtain ⟨x, ⟨tx, leg, work, phase, expiry, seq, beat, numbered, taken, popped⟩⟩ := State.startNext_starts starts
  rw [chosen]
  exact ⟨x, ⟨tx, leg, work, phase, expiry, seq, beat, numbered, taken, popped⟩, State.startNext_grant starts⟩

theorem State.arbitrate_free {s : State} (hub : s.isHub) (free : s.tx = none) (grant : s.grant = none) (ends : Bool) :
    s.arbitrate ends = s.choose := by
  unfold State.arbitrate
  rw [if_neg (by simp [hub, free]), grant]

/-- The decision of R157 as the statements put it. -/
theorem State.extended_eq (s : State) (r : Grant) : s.extended r
    = { r with limit := if r.count = 7 ∧ (∀ k, k ≠ r.leg → (s.leg k).demand < (s.leg r.leg).demand) then 16 else r.limit } := by
  have reach : (allLegs.all (fun k => k == r.leg || (s.leg k).demand < (s.leg r.leg).demand) = true)
      ↔ ∀ k, k ≠ r.leg → (s.leg k).demand < (s.leg r.leg).demand := by
    simp only [List.all_eq_true, Bool.or_eq_true, beq_iff_eq, decide_eq_true_eq]
    exact ⟨fun h k ne => (h k (mem_allLegs k)).resolve_left ne, fun h k _ => or_iff_not_imp_left.mpr (h k)⟩
  unfold State.extended
  by_cases alone : r.count = 7 ∧ ∀ k, k ≠ r.leg → (s.leg k).demand < (s.leg r.leg).demand
  · rw [if_pos ⟨alone.1, reach.mpr alone.2⟩, if_pos alone]
  · rw [if_neg fun h => alone ⟨h.1, reach.mp h.2⟩, if_neg alone]

/-- Within a grant below its limit the head item goes next (R156). -/
theorem State.arbitrate_continues {s : State} (hub : s.isHub) (free : s.tx = none) {r : Grant} (grant : s.grant = some r)
    {i : Item} (head : (s.leg r.leg).queue.head? = some i) (off : (s.leg r.leg).state ≠ .off) (fault : (s.leg r.leg).state ≠ .fault)
    (more : r.count < r.limit) :
    s.arbitrate false = ((State.beginTx { s with grant := some (s.extended r) } r.leg (.item i)).modLeg r.leg
      (fun l => l.popped s.role)).countTx := by
  have same : (s.extended r).leg = r.leg ∧ (s.extended r).count = r.count := by
    unfold State.extended; split <;> exact ⟨rfl, rfl⟩
  have below : ¬(s.extended r).limit ≤ r.count := by
    rw [s.extended_eq r]
    dsimp only
    split <;> omega
  unfold State.arbitrate
  rw [if_neg (by simp [hub, free]), grant]
  dsimp only
  rw [same.1, same.2, if_neg (by simp [off, fault, Nat.lt_of_not_le below]),
    State.startNext_item (s := { s with grant := some (s.extended r) }) (k := r.leg) head]

/-! ### After the choice (R155, R156) -/

theorem State.engineServes_busy {t : State} {x : Transaction} (busy : t.tx = some x) : t.EngineServes :=
  fun _ free => by rw [busy] at free; cases free

theorem State.choose_serves (s : State) : s.choose.EngineServes := by
  cases best : s.bestLeg with
  | none =>
    rw [State.choose_idle best]
    exact fun _ _ => State.bestLeg_none best
  | some g =>
    obtain ⟨x, starts, -⟩ := State.choose_starts best
    exact State.engineServes_busy starts.tx

/-- Whatever came before it, the arbiter's choice leaves no demand unserved. -/
theorem State.arbitrate_serves (s : State) (ends : Bool) : (s.arbitrate ends).EngineServes := by
  unfold State.arbitrate
  split
  · rename_i idle
    rcases idle with atEnd | busy
    · exact fun hub => by rw [atEnd] at hub; cases hub
    · obtain ⟨x, tx⟩ := Option.isSome_iff_exists.mp busy
      exact State.engineServes_busy tx
  · split
    · exact s.choose_serves
    · dsimp only
      split
      · exact State.choose_serves _
      · split
        · rename_i t starts
          obtain ⟨x, started⟩ := State.startNext_starts starts
          exact State.engineServes_busy started.tx
        · exact State.choose_serves _

end Sys2Proof.Machine
end

