-- ==== Sys2Proof/Proofs/EngineServes.lean ====
section
/-! SUPPORT. Every step runs the arbiter's choice where it must (R155, R156): each command ends in the choice, leaves the engine
busy, moves no demand, or is an END's. -/

open Sys2Proof Sys2Proof.Machine

namespace Sys2Proof.Machine

/-! ### Ways to compose -/

/-- The step from s to t leaves no demand unserved where there was none. -/
def State.Serves (s t : State) : Prop := s.EngineServes → t.EngineServes

namespace State.Serves

variable {s t u : State}

theorem refl (s : State) : s.Serves s := id

theorem trans (h : s.Serves t) (k : t.Serves u) : s.Serves u := k ∘ h

/-- `State.Serves.trans` with the last operation first. -/
theorem after (k : t.Serves u) (h : s.Serves t) : s.Serves u := h.trans k

theorem ite {p : Prop} [Decidable p] (h : s.Serves t) (k : s.Serves u) : s.Serves (if p then t else u) := by
  split
  · exact h
  · exact k

theorem arbitrated (s w : State) (ends : Bool) : s.Serves (w.arbitrate ends) := fun _ => w.arbitrate_serves ends

theorem busy {x : Transaction} (h : t.tx = some x) : s.Serves t := fun _ => State.engineServes_busy h

theorem atEnd (h : t.isHub = false) : s.Serves t := fun _ hub => by rw [h] at hub; cases hub

/-- Nothing that the choice looks at has moved. -/
theorem rests (role : t.role = s.role) (tx : t.tx = s.tx) (demand : ∀ g, (t.leg g).demand = (s.leg g).demand) : s.Serves t :=
  fun serves hub free g => by
    rw [State.isHub, role] at hub
    rw [demand]
    exact serves hub (tx ▸ free) g

theorem of_eq (role : t.role = s.role) (tx : t.tx = s.tx) (legs : t.legs = s.legs) : s.Serves t :=
  rests role tx fun g => by rw [State.leg, legs, State.leg]

theorem modLeg (s : State) (g : LegId) (f : Leg → Leg) (demand : (f (s.leg g)).demand = (s.leg g).demand) :
    s.Serves (s.modLeg g f) :=
  rests rfl rfl fun k => by
    rw [State.modLeg_leg]
    split
    · rename_i e; rw [e]; exact demand
    · rfl

end State.Serves

/-! ### The cable memory unit (R161 to R172) -/

theorem State.serves_takeHeader (s : State) (bs : List Byte) : s.Serves (s.takeHeader bs) := by
  unfold State.takeHeader
  refine .ite (.refl s) (.ite (.arbitrated s _ false) (.ite (.of_eq rfl rfl rfl) (.of_eq rfl rfl rfl)))

theorem State.serves_installWindow (s : State) (g : LegId) (w : Window) : s.Serves (s.installWindow g w) :=
  .trans (t := s.mapLanes (Lane.underWindow g w (s.leg g).state.path)) (.of_eq rfl rfl rfl) (.modLeg _ g _ rfl)

theorem State.serves_installDefault (ds : List LegDefault) (r : State × Bool) (g : LegId) :
    r.1.Serves (installDefault ds r g).1 := by
  unfold installDefault
  split
  · dsimp only
    split
    · exact .modLeg r.1 g _ rfl
    · exact .after (State.serves_installWindow _ g _) (.modLeg r.1 g _ rfl)
  · exact .refl _

theorem State.serves_takeThresholds (s : State) : s.Serves s.takeThresholds :=
  .rests rfl rfl fun g => by
    unfold State.takeThresholds
    rw [State.mapLegs_leg]
    split <;> rfl

theorem State.serves_applyRecords (s : State) (r : Accepted × Bool) : s.Serves (s.applyRecords r) := by
  have installed : s.Serves (allLegs.foldl (installDefault (r.1.defaults.getD []))
      ({ s with cable := s.cable.withRecords r.1 }, r.2)).1 :=
    List.foldlRecOn (motive := fun p : State × Bool => s.Serves p.1) allLegs _ (.of_eq rfl rfl rfl)
      fun p h g _ => h.trans (State.serves_installDefault _ p g)
  exact (installed.trans (State.serves_takeThresholds _)).trans (.of_eq rfl rfl rfl)

theorem State.serves_takeImage (s : State) (bs : List Byte) : s.Serves (s.takeImage bs) := by
  unfold State.takeImage
  split
  · exact .ite (.of_eq rfl rfl rfl) (s.serves_applyRecords _)
  · exact .refl s

theorem State.serves_takeLearned (s : State) (bs : List Byte) : s.Serves (s.takeLearned bs) := by
  unfold State.takeLearned
  exact .ite (.refl s) (.arbitrated s _ false)

theorem State.serves_endCommit (s : State) (st : LearnedStatus) (d : List Byte) : s.Serves (s.endCommit st d) :=
  .of_eq rfl rfl rfl

theorem State.serves_pageSent (s : State) : s.Serves s.pageSent := by
  unfold State.pageSent
  split
  · exact .ite (.of_eq rfl rfl rfl) (.refl s)
  · exact .refl s

theorem State.serves_pollAcked (s : State) : s.Serves s.pollAcked := by
  unfold State.pollAcked
  split
  · exact .ite (.refl s) (.ite (.of_eq rfl rfl rfl) (s.serves_endCommit _ _))
  · exact .refl s

theorem State.serves_pollExpired (s : State) : s.Serves s.pollExpired := by
  unfold State.pollExpired
  split
  · exact .ite (.refl s) (s.serves_endCommit _ _)
  · exact .refl s

theorem State.serves_pageNacked (s : State) : s.Serves s.pageNacked := by
  unfold State.pageNacked
  split
  · exact .ite (s.serves_endCommit _ _) (.refl s)
  · exact .refl s

/-! ### Lanes and timers -/

theorem State.serves_windowReport (s : State) (c : LaneId) (rep : Report) : s.Serves
    (match (s.lane c).owner with | some g => (s.takeReport g c rep).arbitrate false | none => s) := by
  split
  · exact .arbitrated s _ false
  · exact .refl s

theorem State.serves_scanReading (s : State) (c : LaneId) (level : Fin 64) : s.Serves
    (match (s.lane c).owner with
     | some g => if s.scanned c then (s.takeReading g c ((s.leg g).presThreshold ≤ level.val)).arbitrate false else s
     | none => s) := by
  split
  · exact .ite (.arbitrated s _ false) (.refl s)
  · exact .refl s

theorem State.serves_hubSilence (s : State) : s.Serves
    (if s.isHub = false ∧ s.resp.silence.isSome then State.hubSilent { s with resp := { s.resp with silence := none } } 0 else s) := by
  split
  · rename_i h
    refine .atEnd ?_
    rw [State.isHub, (State.acts_hubSilent { s with resp := { s.resp with silence := none } } 0).role]
    exact h.1
  · exact .refl s

theorem State.serves_probeWait (s : State) : s.Serves
    (if s.isHub = false ∧ (s.leg 0).probeWait.isSome then s.enterFault 0 .roleConflict else s) := by
  split
  · rename_i h
    exact .atEnd (by rw [State.isHub, (s.acts_enterFault 0 .roleConflict).role]; exact h.1)
  · exact .refl s

/-! ### The HUB's sideband (R122 to R133) -/

theorem State.serves_onTx (s : State) (f : Transaction → State) (h : ∀ x, s.Serves (f x)) :
    s.Serves (match s.tx with | some x => f x | none => s) := by
  split
  · exact h _
  · exact .refl s

theorem State.serves_endTx (s w : State) (x : Transaction) (r : TxResult) : s.Serves (w.endTx x r) := .arbitrated s _ _

theorem State.serves_timeout (s : State) (x : Transaction) : s.Serves (s.timeout x) := by
  unfold State.timeout
  exact .ite (.busy rfl) (s.serves_endTx _ x .lost)

theorem State.serves_goodReply (s : State) (x : Transaction) (low : BitVec 2) (f : ResponseBody) :
    s.Serves (s.goodReply x low f) := by
  unfold State.goodReply
  exact .ite (s.serves_endTx _ x _) (.ite (.busy rfl) (s.serves_endTx _ x _))

theorem State.serves_takeResponse (s : State) (g : LegId) (low mid : BitVec 2) (f : ResponseBody) :
    s.Serves (s.takeResponse g low mid f) := by
  unfold State.takeResponse
  split
  · exact .refl s
  · exact .ite (.ite (s.serves_goodReply _ low f) (s.serves_timeout _)) (.refl s)

theorem State.serves_takeBeacon (s : State) (g : LegId) (level : Fin 4) : s.Serves (s.takeBeacon g level) := by
  unfold State.takeBeacon
  exact .ite (.arbitrated s _ false) (.refl s)

/-! ### The END's responder keeps the role (R138 to R144) -/

theorem State.noteDrained_role (s : State) (i : Item) : (s.noteDrained i).role = s.role := by rw [s.noteDrained_rest i]

theorem State.takeDrain_role (s : State) (f : CommandBody) : (s.takeDrain f).role = s.role := by
  unfold State.takeDrain
  split
  · rfl
  · split
    · rfl
    · exact State.noteDrained_role _ _

theorem State.takeProbe_role (s : State) (kind : BitVec 3) (item : Byte) (f : CommandBody) :
    (s.takeProbe kind item f).role = s.role := by
  unfold State.takeProbe
  split
  · dsimp only
    split <;> rfl
  · rfl

theorem State.takeFetch_role (s : State) (kind : BitVec 3) (item : Byte) (f : CommandBody) :
    (s.takeFetch kind item f).role = s.role := by
  unfold State.takeFetch
  split
  · rfl
  · rfl
  · split <;> rfl
  · rfl

theorem State.takeStorePhase_role (s : State) (kind : BitVec 3) (item : Byte) (f : CommandBody) :
    (s.takeStorePhase kind item f).role = s.role := by
  have taken (st : PhaseState) (n : Nat) (r : Rate) : ((s.takePhase 0 st n r).ack kind item f []).role = s.role :=
    (s.acts_takePhase 0 st n r).role
  unfold State.takeStorePhase
  split
  · rfl
  · split
    · rfl
    · exact taken _ _ _
    · split
      · rfl
      · split
        · exact taken _ _ _
        · rfl

theorem State.takeStoreStatus_role (s : State) (kind : BitVec 3) (item : Byte) (f : CommandBody) :
    (s.takeStoreStatus kind item f).role = s.role := by
  have told (u : TapStatus) : (s.setFarTaps 0 u).role = s.role := by rw [State.setFarTaps_rest]
  unfold State.takeStoreStatus
  split
  · rfl
  · split
    · rfl
    · split
      · rfl
      · dsimp only
        split
        · exact (State.acts_takeResult _ 0 _ _).role.trans (told _)
        · exact told _

theorem State.takeExchange_role (s : State) (kind : BitVec 3) (item : Byte) (f : CommandBody) :
    (s.takeExchange kind item f).role = s.role := by
  have applied (q : TapRequest) : (s.applyTaps 0 f.lane q).role = s.role := by rw [State.applyTaps_rest]
  unfold State.takeExchange
  split
  · rfl
  · split
    · rfl
    · split
      · rfl
      · split
        · rfl
        · split
          · rfl
          · exact applied _

theorem State.checkCommand_role (s : State) (kind : BitVec 3) (item : Byte) (f : CommandBody) :
    (s.checkCommand kind item f).role = s.role := by
  unfold State.checkCommand
  split
  · rfl
  · split
    · rfl
    · split
      · rfl
      · split
        · exact s.takeProbe_role _ _ _
        · exact s.takeFetch_role _ _ _
        · exact s.takeStorePhase_role _ _ _
        · exact s.takeStoreStatus_role _ _ _
        · exact s.takeExchange_role _ _ _

theorem State.serves_takeCommand (s : State) (pair : LegId) (kind : BitVec 3) (item : Byte) (f : CommandBody) :
    s.Serves (s.takeCommand pair kind item f) := by
  have role : s.heard.role = s.role := s.heard_settingKept.1
  have heard {t : State} (atEnd : s.isHub = false) (kept : t.role = s.heard.role) : s.Serves t :=
    .atEnd (by rw [State.isHub, kept, role]; exact atEnd)
  unfold State.takeCommand
  refine .ite (.refl s) ?_
  split
  · exact .arbitrated s _ false
  · rename_i hub
    have atEnd : s.isHub = false := eq_false_of_ne_true hub
    refine .ite (.refl s) (.ite (heard atEnd (State.takeDrain_role _ _)) ?_)
    split
    · exact .ite (heard atEnd rfl) (heard atEnd (State.checkCommand_role _ _ _ _))
    · exact heard atEnd (State.checkCommand_role _ _ _ _)

/-! ### The management port (R174 to R184) -/

theorem State.serves_reply (s : State) (st : Status) (p : List Byte) : s.Serves (s.reply st p) := .of_eq rfl rfl rfl

theorem State.serves_takeRequest (s : State) (kind : Byte) (q : RequestBody) (act : State → List Byte → State)
    (h : ∀ t p, State.Serves t (act t p)) : s.Serves (s.takeRequest kind q act) := by
  rcases s.takeRequest_cases kind q act with ⟨-, e⟩ | ⟨-, e⟩ <;> rw [e]
  · exact .of_eq rfl rfl rfl
  · exact .trans (t := (s.collect false).occupy kind q.tag) (.of_eq rfl rfl rfl) (h _ _)

theorem State.serves_ofLength {s t : State} (n : Nat) (p : List Byte) (h : s.Serves t) : s.Serves (s.ofLength n p t) :=
  .ite h (s.serves_reply _ _)

theorem State.serves_forLeg {s : State} (n : Nat) (p : List Byte) {act : LegId → State} (h : ∀ g, s.Serves (act g)) :
    s.Serves (s.forLeg n p act) := by
  rcases s.forLeg_cases n p act with ⟨g, -, -, -, e⟩ | e <;> rw [e]
  · exact h g
  · exact s.serves_reply _ _

theorem State.serves_forLane {s : State} (n : Nat) (p : List Byte) {act : LaneId → State} (h : ∀ c, s.Serves (act c)) :
    s.Serves (s.forLane n p act) := by
  rcases s.forLane_cases n p act with ⟨c, -, -, e⟩ | e <;> rw [e]
  · exact h c
  · exact s.serves_reply _ _

theorem State.serves_doReadLeg (s : State) (p : List Byte) : s.Serves (s.doReadLeg p) := by
  refine State.serves_forLeg 2 p fun g => ?_
  split
  · exact s.serves_reply _ _
  · exact .trans (s.serves_reply _ _) (.modLeg _ g _ rfl)

theorem State.serves_doConfigureLeg (s : State) (p : List Byte) : s.Serves (s.doConfigureLeg p) := by
  refine State.serves_forLeg 12 p fun g => .ite (s.serves_reply _ _) ?_
  split
  · exact s.serves_reply _ _
  · exact .ite (s.serves_reply _ _)
      (.trans (.trans (s.serves_installWindow g _) (.modLeg _ g _ rfl)) (State.serves_reply _ _ _))

theorem State.serves_doStartLeg (s : State) (p : List Byte) : s.Serves (s.doStartLeg p) :=
  State.serves_forLeg 1 p fun _ => .ite (.arbitrated s _ false) (s.serves_reply _ _)

theorem State.serves_doStopLeg (s : State) (p : List Byte) : s.Serves (s.doStopLeg p) := by
  refine State.serves_forLeg 1 p fun g => ?_
  split
  · exact s.serves_reply _ _
  · exact s.serves_reply _ _
  · exact .arbitrated s _ _

theorem State.serves_doResetLeg (s : State) (p : List Byte) : s.Serves (s.doResetLeg p) :=
  State.serves_forLeg 1 p fun _ => .arbitrated s _ _

theorem State.queuePower_role (s : State) (g : LegId) (w : Power) : (s.queuePower g w).role = s.role := by
  unfold State.queuePower
  split <;> rfl

theorem State.endPower_role (s : State) (g : LegId) (w : Power) : (s.endPower g w).role = s.role := by
  unfold State.endPower
  split
  · exact s.queuePower_role g _
  · rw [State.reply_role, State.modLeg_role]
    exact (s.acts_enterListen g _ _ _).role
  · rfl
  · rfl
  · rfl
  · rfl
  · exact s.queuePower_role g _

theorem State.serves_doSetLegPower (s : State) (p : List Byte) : s.Serves (s.doSetLegPower p) := by
  refine State.serves_forLeg 2 p fun g => ?_
  split
  · exact s.serves_reply _ _
  · split
    · exact .ite (.arbitrated s _ false) (s.serves_reply _ _)
    · rename_i hub
      exact .atEnd (by rw [State.isHub, State.endPower_role]; exact eq_false_of_ne_true hub)

theorem State.serves_doPinTaps (s : State) (p : List Byte) : s.Serves (s.doPinTaps p) :=
  State.serves_forLane 3 p fun _ => .ite (.of_eq rfl rfl rfl) (s.serves_reply _ _)

theorem State.serves_doUnpinTaps (s : State) (p : List Byte) : s.Serves (s.doUnpinTaps p) :=
  State.serves_forLane 1 p fun _ => .of_eq rfl rfl rfl

theorem State.serves_doCommitPresets (s : State) (p : List Byte) : s.Serves (s.doCommitPresets p) := by
  refine State.serves_ofLength 0 p ?_
  split
  · exact .of_eq rfl rfl rfl
  · exact s.serves_reply _ _

theorem State.serves_queueFarRead (s : State) (g : LegId) (k : FetchKind) (lane : Nat) : s.Serves (s.queueFarRead g k lane) := by
  unfold State.queueFarRead
  refine .ite (s.serves_reply _ _) ?_
  split
  · exact s.serves_reply _ _
  · exact .ite (.arbitrated s _ false) (s.serves_reply _ _)

theorem State.serves_doFarRead (s : State) (p : List Byte) : s.Serves (s.doFarRead p) := by
  refine .ite (s.serves_reply _ _) (State.serves_forLeg 3 p fun g => ?_)
  split
  · exact s.serves_reply _ _
  · exact .ite (s.serves_reply _ _) (s.serves_queueFarRead g _ _)

theorem State.serves_doSetNoticeLevels (s : State) (p : List Byte) : s.Serves (s.doSetNoticeLevels p) :=
  State.serves_ofLength 12 p (.ite (.of_eq rfl rfl rfl) (s.serves_reply _ _))

theorem State.serves_replyGone (s : State) : s.Serves s.replyGone := by
  unfold State.replyGone
  split
  · exact .refl s
  · exact .ite (fun _ => State.afterReset_engineServes _ _ _) (.of_eq rfl rfl rfl)

/-! ### Every command -/

theorem exec_serves {i : Instr} {s t : State} (h : exec i s = .next t) : s.Serves t := by
  cases i <;> (injection h with h; subst h)
  case deviceReset strap => exact fun _ => State.afterReset_engineServes _ _ _
  case settlingEnd => exact .ite (.of_eq rfl rfl rfl) (.refl s)
  case factoryHeaderRead bytes => exact s.serves_takeHeader bytes
  case factoryImageRead bytes => exact s.serves_takeImage bytes
  case learnedBlockRead bytes => exact s.serves_takeLearned bytes
  case windowReport c h e r => exact s.serves_windowReport c _
  case scanReading c level => exact s.serves_scanReading c level
  case settleExpiry c => exact .of_eq rfl rfl rfl
  case probeHoldoffExpiry g => exact .ite (.arbitrated s _ false) (.refl s)
  case attemptDeadlineExpiry g => exact .ite (.arbitrated s _ false) (.refl s)
  case probeWaitExpiry => exact s.serves_probeWait
  case hubSilenceExpiry => exact s.serves_hubSilence
  case keepaliveTimerExpiry g => exact .ite (.arbitrated s _ false) (.refl s)
  case commandFrameSent g seq => exact s.serves_onTx _ fun _ => .ite (.busy rfl) (.refl s)
  case sidebandAck g f => exact s.serves_takeResponse g _ _ f
  case sidebandDefer g f => exact s.serves_takeResponse g _ _ f
  case sidebandRefuse g f => exact s.serves_takeResponse g _ _ f
  case replyFailingChecks g low mid f => exact s.serves_takeResponse g low mid f
  case replyTimeout => exact s.serves_onTx _ fun x => .ite (s.serves_timeout x) (.refl s)
  case backoffEnd => exact s.serves_onTx _ fun _ => .ite (.busy rfl) (.refl s)
  case transactionExpiry => exact s.serves_onTx _ fun x => s.serves_endTx _ x .expired
  case beaconReceived g level crc => exact .ite (s.serves_takeBeacon g level) (.refl s)
  case beaconSilence g => exact s.serves_takeBeacon g 0
  case hubCommandFrame pair kind item f => exact s.serves_takeCommand pair kind item f
  case probeCommand pair f => exact s.serves_takeCommand pair 1 1 f
  case fetchCommand pair item f => exact s.serves_takeCommand pair 2 _ f
  case storePhase pair f => exact s.serves_takeCommand pair 3 4 f
  case storeTapStatus pair f => exact s.serves_takeCommand pair 3 6 f
  case exchangeTapRequest pair f => exact s.serves_takeCommand pair 4 5 f
  case drainCommand pair item f => exact s.serves_takeCommand pair 5 item f
  case unknownCommandOrItem pair kind item f => exact s.serves_takeCommand pair kind item f
  case requestFrameGap => exact .of_eq rfl rfl rfl
  case requestFrameStart b => exact .ite (.of_eq rfl rfl rfl) (.refl s)
  case requestFrameDiscarded why => exact .ite (.of_eq rfl rfl rfl) (.refl s)
  case replySent => exact s.serves_replyGone
  case identify q => exact s.serves_takeRequest 0x01 q _ fun t _ => State.serves_ofLength 0 _ (t.serves_reply _ _)
  case readLeg q => exact s.serves_takeRequest 0x02 q _ fun t _ => t.serves_doReadLeg _
  case readLane q => exact s.serves_takeRequest 0x03 q _ fun t _ => State.serves_forLane 1 _ fun _ => t.serves_reply _ _
  case configureLeg q => exact s.serves_takeRequest 0x04 q _ fun t _ => t.serves_doConfigureLeg _
  case startLeg q => exact s.serves_takeRequest 0x05 q _ fun t _ => t.serves_doStartLeg _
  case stopLeg q => exact s.serves_takeRequest 0x06 q _ fun t _ => t.serves_doStopLeg _
  case resetLeg q => exact s.serves_takeRequest 0x07 q _ fun t _ => t.serves_doResetLeg _
  case setLegPower q => exact s.serves_takeRequest 0x08 q _ fun t _ => t.serves_doSetLegPower _
  case pinTaps q => exact s.serves_takeRequest 0x09 q _ fun t _ => t.serves_doPinTaps _
  case unpinTaps q => exact s.serves_takeRequest 0x0A q _ fun t _ => t.serves_doUnpinTaps _
  case readPresets q => exact s.serves_takeRequest 0x0B q _ fun t _ => State.serves_ofLength 0 _ (t.serves_reply _ _)
  case commitPresets q => exact s.serves_takeRequest 0x0C q _ fun t _ => t.serves_doCommitPresets _
  case forgetPresets q => exact s.serves_takeRequest 0x0D q _ fun t _ => State.serves_ofLength 0 _ (.of_eq rfl rfl rfl)
  case farRead q => exact s.serves_takeRequest farReadKind q _ fun t _ => t.serves_doFarRead _
  case readNotices q => exact s.serves_takeRequest 0x0F q _ fun t _ => State.serves_ofLength 0 _ (.of_eq rfl rfl rfl)
  case setNoticeLevels q => exact s.serves_takeRequest 0x10 q _ fun t _ => t.serves_doSetNoticeLevels _
  case resetDevice q => exact s.serves_takeRequest 0x11 q _ fun t _ => State.serves_ofLength 0 _ (.of_eq rfl rfl rfl)
  case unknownRequestKind kind q => exact .ite (.refl s) (s.serves_takeRequest kind q _ fun t _ => t.serves_reply _ _)
  case pageSent => exact s.serves_pageSent
  case pollAcknowledged => exact s.serves_pollAcked
  case pollLimitExpiry => exact s.serves_pollExpired
  case pageWriteNack => exact s.serves_pageNacked

/-- Every step, the idle one too. -/
theorem step_serves {s t : State} (h : step s = .next t) : s.Serves t := by
  cases e : s.pending with
  | nil =>
    rw [step_of_pending_nil e] at h
    injection h with h
    exact h ▸ .of_eq rfl rfl rfl
  | cons c rest =>
    rw [step_of_pending_cons e] at h
    exact .trans (t := { s with pending := rest }) (.of_eq rfl rfl rfl) (exec_serves h)

end Sys2Proof.Machine

/-- Settles O29: the choice from a free engine, the next of a grant, the step lemma, and the legs in OFF or FAULT. -/
theorem grantGoesToHighestDemand : Obligations.GrantGoesToHighestDemand := by
  unfold Obligations.GrantGoesToHighestDemand
  refine ⟨fun s hub free grant => ?_, fun s r i hub free grant head off fault more => ?_, fun s t serves ran => step_serves ran serves,
    fun s ends x hub free tx => ?_⟩
  · rw [State.arbitrate_free hub free grant]
    refine ⟨fun none => State.choose_idle ?_, fun ⟨g, demand⟩ => ?_⟩
    · cases best : s.bestLeg with
      | none => rfl
      | some g => exact absurd (none g) (State.bestLeg_demand best).ne'
    · cases best : s.bestLeg with
      | none => exact absurd (State.bestLeg_none best g) demand.ne'
      | some k =>
        obtain ⟨x, starts, granted⟩ := State.choose_starts best
        obtain ⟨highest, first⟩ := State.bestLeg_some best
        have role : s.role = .hubRole := by simpa [State.isHub] using hub
        have leg := starts.leg
        subst leg
        have popped := starts.popped
        rw [role] at popped
        refine ⟨x, starts.tx, granted, starts.phase, starts.expiry, starts.seq, highest, first, ?_, fun drain => ?_, fun item => ?_,
          popped⟩
        · rw [starts.work]
          cases (s.leg x.leg).queue.head? <;> rfl
        · refine ⟨?_, starts.numbered, ?_⟩
          · rw [starts.beat]; simp [drain]
          · rw [starts.taken, if_pos drain]
        · refine ⟨?_, ?_⟩
          · rw [starts.numbered, starts.beat, if_neg fun h => item h.1]
          · rw [starts.taken, if_neg item]
  · rw [State.arbitrate_continues hub free grant head off fault more, s.extended_eq r]
    exact ⟨_, rfl, rfl, rfl, rfl⟩
  · by_contra idle
    have idle' : (s.leg x.leg).state = .off ∨ (s.leg x.leg).state = .fault := by
      simpa only [not_and_or, not_not] using idle
    exact State.arbitrate_tx_idle idle' (fun y hy => by rw [free] at hy; cases hy) ends x tx rfl

end

