-- ==== Sys2Proof/Proofs/Expiries.lean ====
section
/-! SUPPORT. The expiry of a HUB's transaction (R132, R133): what the engine comes to where nothing is queued or signalled, and
the beat number that a failed DRAIN keeps (R143). -/

open Sys2Proof Sys2Proof.Machine

namespace Sys2Proof.Machine

/-! ### An engine with nothing to do -/

/-- No leg has anything queued or signalled. -/
def State.Quiet (s : State) : Prop := ∀ k, (s.leg k).queue = [] ∧ (s.leg k).beacon = 0

theorem Leg.demand_quiet {l : Leg} (queue : l.queue = []) (beacon : l.beacon = 0) : l.demand = 0 := by
  simp [Leg.demand, queue, beacon]

theorem State.Quiet.bestLeg {s : State} (quiet : s.Quiet) : s.bestLeg = none := by
  cases best : s.bestLeg with
  | none => rfl
  | some g => exact absurd (Leg.demand_quiet (quiet g).1 (quiet g).2) (State.bestLeg_demand best).ne'

theorem State.Quiet.startNext {s : State} (quiet : s.Quiet) (g : LegId) : s.startNext g = none := by
  unfold State.startNext
  rw [(quiet g).1]
  exact if_neg (by simp [(quiet g).2])

theorem State.Quiet.endGrant {s : State} (quiet : s.Quiet) (r : Grant) : (s.endGrant r).Quiet := fun k => by
  rw [State.endGrant_leg]
  exact quiet k

/-- The free engine of a HUB ends its grant and starts nothing. -/
theorem State.Quiet.arbitrate {s : State} (quiet : s.Quiet) (hub : s.isHub) (free : s.tx = none) (ends : Bool) :
    (s.arbitrate ends).tx = none ∧ (s.arbitrate ends).grant = none := by
  have ended (r : Grant) : (s.endGrant r).choose = s.endGrant r := State.choose_idle (quiet.endGrant r).bestLeg
  unfold State.arbitrate
  rw [if_neg (by simp [hub, free])]
  cases grant : s.grant with
  | none =>
    dsimp only
    rw [State.choose_idle quiet.bestLeg]
    exact ⟨free, grant⟩
  | some r =>
    have next : State.startNext { s with grant := some (s.extended r) } (s.extended r).leg = none :=
      State.Quiet.startNext (s := { s with grant := some (s.extended r) }) quiet _
    dsimp only
    rw [next, ended]
    split <;> exact ⟨free, rfl⟩

/-! ### The beat number (R143) -/

/-- While no beat has been taken, a leg's beat number stands. -/
theorem State.arbitrate_beat {s : State} {g : LegId} (untaken : (s.leg g).beatTaken = false) (ends : Bool) :
    ((s.arbitrate ends).leg g).beat = (s.leg g).beat ∧ ((s.arbitrate ends).leg g).beatTaken = false := by
  refine State.arbitrate_induct (P := fun t => (t.leg g).beat = (s.leg g).beat ∧ (t.leg g).beatTaken = false)
    ⟨rfl, untaken⟩ (fun r => ?_) (fun t x h => h) (fun t k u h _ _ _ next => ?_) ends
  · rw [State.endGrant_leg]
    exact ⟨rfl, untaken⟩
  · obtain ⟨beat, taken⟩ := h
    by_cases e : g = k
    · subst e
      obtain ⟨x, starts⟩ := State.startNext_starts next
      refine ⟨?_, ?_⟩
      · rw [starts.numbered, starts.beat, if_neg (by simp [taken]), beat]
      · rw [starts.taken, taken, ite_self]
    · rw [State.startNext_leg_other next e]
      exact ⟨beat, taken⟩

/-! ### The expired transaction -/

theorem handOn_drain_failed {r : TxResult} (failed : r.isFailure) {x : Transaction} (work : x.work = .drain) (w : State) :
    w.handOn x r = w := by
  unfold State.handOn
  rw [work]
  rcases TxResult.isFailure_cases failed with rfl | rfl <;> rfl

theorem endsGrant_drain {x : Transaction} (work : x.work = .drain) : x.endsGrant .expired = true := by
  unfold Transaction.endsGrant
  rw [work]
  rfl

end Sys2Proof.Machine

/-- Settles O25: the expiry is posted, its originator is answered at most, and the choice point follows. -/
theorem expiryEndsTheTransaction : Obligations.ExpiryEndsTheTransaction := by
  unfold Obligations.ExpiryEndsTheTransaction
  have data {x : Transaction} {w : Work} (work : x.work = w) :
      x.expiryData = [byteOf w.command.toNat, w.itemCode, byteOf w.laneField.val] := by rw [← work]; rfl
  refine ⟨fun x => ⟨fun work => ?_, fun work => ?_, fun d work => ?_, fun st a r work => ?_, fun u work => ?_,
      fun ix q work => ?_, fun k ix work => ?_⟩, fun s x hub tx beside elsewhere => ?_, fun s x hub tx work untaken => ?_,
    fun s free => ?_⟩
  · rw [data work, work]; rfl
  · rw [data work, work]; rfl
  · rw [data work, work]; rfl
  · rw [data work, work]; rfl
  · rw [data work]; rfl
  · rw [data work]; rfl
  · rw [data work, work]; cases k <;> rfl
  · refine ⟨_, exec_transactionExpiry tx, ?_⟩
    obtain ⟨rest, port⟩ := State.handOn_failed_rest (w := s.expired x) (x := x) (r := .expired) rfl beside elsewhere
    generalize x.endsGrant .expired = ends
    have leg (k : LegId) : ((s.expired x).handOn x .expired).leg k = s.leg k := by rw [rest]; rfl
    refine ⟨?_, fun k => ?_, ?_, fun idle => ?_, ?_, fun quiet => ?_⟩
    · rw [State.arbitrate_notices, rest]; rfl
    · rw [State.arbitrate_apart, leg]
    · rw [State.arbitrate_lanes, rest]; rfl
    · rw [State.arbitrate_port]; exact port idle
    · exact State.settingKept_trans (by rw [rest]; exact ⟨rfl, rfl, rfl, rfl, rfl⟩) (State.arbitrate_settingKept _ _)
    · refine State.Quiet.arbitrate (fun k => by rw [leg]; exact quiet k) ?_ ?_ ends
      · rw [rest]; exact hub
      · rw [rest]; rfl
  · refine ⟨_, exec_transactionExpiry tx, ?_⟩
    rw [handOn_drain_failed rfl work, endsGrant_drain work]
    have kept := State.arbitrate_beat (s := s.expired x) (g := x.leg) untaken true
    exact ⟨kept.1, kept.2, State.arbitrate_grantEnded (w := s.expired x) hub rfl rfl, State.arbitrate_apart _ _,
      State.arbitrate_port _ _, State.settingKept_trans (t := s.expired x) ⟨rfl, rfl, rfl, rfl, rfl⟩
        (State.arbitrate_settingKept _ _)⟩
  · refine congrArg Host.Outcome.next ?_
    rw [free]

end

