-- ==== Sys2Proof/Proofs/EngineAside.lean ====
section
/-! SUPPORT. What the leg controller and the training engine leave of a HUB's sideband while no transaction is in flight: the free
engine, the grant, the timeouts and the DRAIN marks stand, and the reply line only grows (R127, R146, R152). -/

open Sys2Proof Sys2Proof.Machine

namespace Sys2Proof.Machine

/-- What the engine alone moves of a leg's record: its timeouts and the marks of its DRAIN beats (R129, R143, R153). -/
def Leg.engineMarks (l : Leg) : Nat × Bool × Bool := (l.timeouts, l.beatTaken, l.drainDone)

/-- From s to t the engine stays free, the grant and leg g's timeouts and marks stand, and replies are only added. -/
structure State.EngineAside (s t : State) (g : LegId) : Prop where
  free : s.tx = none → t.tx = none
  grant : t.grant = s.grant
  marks : (t.leg g).engineMarks = (s.leg g).engineMarks
  slot : t.port.slot = s.port.slot
  line : s.port.line <+: t.port.line

namespace State.EngineAside

variable {s t u : State} {g : LegId}

theorem refl (s : State) (g : LegId) : s.EngineAside s g := ⟨id, rfl, rfl, rfl, ⟨[], List.append_nil _⟩⟩

theorem trans (h : s.EngineAside t g) (k : t.EngineAside u g) : s.EngineAside u g :=
  ⟨k.free ∘ h.free, k.grant.trans h.grant, k.marks.trans h.marks, k.slot.trans h.slot, h.line.trans k.line⟩

/-- `State.EngineAside.trans` with the last operation first. -/
theorem after (k : t.EngineAside u g) (h : s.EngineAside t g) : s.EngineAside u g := h.trans k

theorem ite {p : Prop} [Decidable p] (h : s.EngineAside t g) (k : s.EngineAside u g) :
    s.EngineAside (if p then t else u) g := by
  split
  · exact h
  · exact k

theorem of_eq (tx : t.tx = s.tx) (grant : t.grant = s.grant) (legs : t.legs = s.legs) (port : t.port = s.port) :
    s.EngineAside t g :=
  ⟨fun free => tx.trans free, grant, by rw [State.leg, legs, State.leg], by rw [port], by rw [port]⟩

/-- What follows an operation touches neither the legs nor the engine nor the port. -/
theorem then_eq (h : s.EngineAside t g) (tx : u.tx = t.tx) (grant : u.grant = t.grant) (legs : u.legs = t.legs)
    (port : u.port = t.port) : s.EngineAside u g := h.trans (.of_eq tx grant legs port)

theorem posted (h : s.EngineAside t g) (k : NoticeKind) (o : Option LegId) (d : List Byte) : s.EngineAside (t.post k o d) g :=
  h.then_eq rfl rfl rfl rfl

theorem modLeg (s : State) (g : LegId) {f : Leg → Leg} (marks : ∀ l : Leg, (f l).engineMarks = l.engineMarks) :
    s.EngineAside (s.modLeg g f) g := ⟨id, rfl, by rw [State.modLeg_leg_same, marks], rfl, ⟨[], List.append_nil _⟩⟩

theorem requeue (s : State) (g : LegId) {f : Leg → Leg} (h : ∀ l : Leg, l.Requeued (f l)) : s.EngineAside (s.modLeg g f) g :=
  modLeg s g fun l => by rw [(h l).same]; rfl

theorem timeouts (h : s.EngineAside t g) : (t.leg g).timeouts = (s.leg g).timeouts := congrArg Prod.fst h.marks

theorem beatTaken (h : s.EngineAside t g) : (t.leg g).beatTaken = (s.leg g).beatTaken := congrArg (fun m => m.2.1) h.marks

theorem drainDone (h : s.EngineAside t g) : (t.leg g).drainDone = (s.leg g).drainDone := congrArg (fun m => m.2.2) h.marks

end State.EngineAside

/-! ### Replies, flushes and entries -/

section
variable (s : State) (g : LegId)

theorem State.aside_farReadDone (st : Status) (p : List Byte) : s.EngineAside (s.farReadDone st p) g := by
  rcases s.farReadDone_cases st p with e | e <;> rw [e]
  · exact .refl s g
  · rcases s.port.answer_cases st p false with ⟨-, port⟩ | ⟨q, -, port⟩
    · exact .of_eq rfl rfl rfl port
    · refine ⟨id, rfl, rfl, ?_, ?_⟩
      · show (s.port.answer st p false).slot = _
        rw [port]
      · show s.port.line <+: (s.port.answer st p false).line
        rw [port]
        exact ⟨_, rfl⟩

theorem State.aside_flush : s.EngineAside (s.flush g) g := by
  have emptied : s.EngineAside (if s.isHub then s.modLeg g Leg.flushed
      else { s.modLeg g Leg.flushed with resp := (s.modLeg g Leg.flushed).resp.withoutBeat }) g :=
    .ite (.modLeg s g fun _ => rfl) ((EngineAside.modLeg s g (f := Leg.flushed) fun _ => rfl).then_eq rfl rfl rfl rfl)
  unfold State.flush
  exact .ite (emptied.trans (State.aside_farReadDone _ g _ _)) emptied

theorem State.aside_enter (new : LegState) (cause : LegCause) (a : Option Nat) : s.EngineAside (s.enter g new cause a) g where
  free := fun free => by rw [State.enter_tx, free]; rfl
  grant := rfl
  marks := by rw [State.enter_leg, if_pos rfl]; rfl
  slot := rfl
  line := ⟨[], List.append_nil _⟩

theorem State.aside_queuePhase (st : PhaseState) (n : Nat) : s.EngineAside (s.queuePhase g st n) g :=
  .requeue s g fun l => l.queuePhase_requeued _ _ _

theorem State.aside_startDeadline (us : Nat) : s.EngineAside (s.startDeadline g us) g := .modLeg s g fun _ => rfl

theorem State.aside_listened (cause : LegCause) (holdoff phase : Bool) :
    s.EngineAside (s.listened g cause holdoff phase) g := by
  have flushed := (s.aside_enter g .listen cause none).trans (State.aside_flush _ g)
  have cleared := flushed.trans (.modLeg _ g (f := fun l =>
    { l with retrains := 0, holdoff := if holdoff then some (s.after 100000) else none }) fun _ => rfl)
  unfold State.listened
  exact .ite (cleared.trans (.requeue _ g fun l => l.queuePhase_requeued _ _ _)) cleared

theorem State.aside_enterProbe : s.EngineAside (s.enterProbe g) g := by
  unfold State.enterProbe
  exact .after (.requeue _ g fun l => l.push_requeued _) (s.aside_enter g .probe .farPresent none)

theorem State.aside_enterListen (cause : LegCause) (holdoff phase : Bool) :
    s.EngineAside (s.enterListen g cause holdoff phase) g := by
  have listened := s.aside_listened g cause holdoff phase
  rcases State.enterListen_cases (s := s) (g := g) cause holdoff phase with e | ⟨-, -, e⟩ | ⟨-, e⟩ <;> rw [e]
  · exact listened
  · exact listened.trans (State.aside_enterProbe _ g)
  · exact listened.trans (.modLeg _ g fun _ => rfl)

theorem State.aside_enterFault (why : FaultReason) : s.EngineAside (s.enterFault g why) g := by
  by_cases idle : (s.leg g).state = .off ∨ (s.leg g).state = .fault
  · rw [show s.enterFault g why = s from if_pos idle]
    exact .refl s g
  · obtain ⟨off, fault⟩ := not_or.mp idle
    have entered := (s.aside_enter g .fault .faultEntry none).trans (.modLeg _ g (f := fun l =>
      { l with lastFault := why, faultCount := min 255 (l.faultCount + 1) }) fun _ => rfl)
    rw [State.enterFault_eq off fault]
    exact (entered.trans (State.aside_flush _ g)).posted _ _ _

/-! ### The phases of an attempt -/

theorem State.aside_openLane (i : WinIx) : s.EngineAside (s.openLane g i) g := by
  unfold State.openLane
  exact .after (.requeue _ g fun l => l.sendRequest_requeued _ _ _) (.of_eq rfl rfl rfl rfl)

theorem State.aside_startSearch : s.EngineAside (s.startSearch g) g := by
  have opened : s.EngineAside ((s.winIndices g).foldl (State.openLane g) s) g :=
    List.foldlRecOn (motive := fun t : State => s.EngineAside t g) _ _ (.refl s g)
      fun t h i _ => h.trans (State.aside_openLane t g i)
  unfold State.startSearch
  exact opened.trans (.modLeg _ g fun _ => rfl)

theorem State.aside_enterTrain (cause : LegCause) (n : Nat) : s.EngineAside (s.enterTrain g cause n) g :=
  ((((((s.aside_enter g .train cause (some n)).trans (.modLeg _ g (f := fun l => { l with errCount := 0 }) fun _ => rfl)).trans
    (State.aside_flush _ g)).trans (State.aside_queuePhase _ g .train n)).trans (State.aside_startSearch _ g)).trans
    (State.aside_startDeadline _ g 250000))

theorem State.aside_startAdapt : s.EngineAside (s.startAdapt g) g :=
  (EngineAside.modLeg s g (f := fun l =>
    { l with adapt := some (vec8 (fun i => AdaptLane.start (s.lane (s.winLane g i)).peaking)) }) fun _ => rfl).then_eq
      rfl rfl rfl rfl

theorem State.aside_enterAdapt : s.EngineAside (s.enterAdapt g) g :=
  (((s.aside_enter g .adapt .trained (s.leg g).attempt).trans (State.aside_queuePhase _ g .adapt _)).trans
    (State.aside_startDeadline _ g 20000)).trans (State.aside_startAdapt _ g)

theorem State.aside_attemptFails (cause : LegCause) : s.EngineAside (s.attemptFails g cause) g :=
  .ite (s.aside_enterTrain g cause 1) (.ite (s.aside_enterTrain g cause _) (s.aside_enterFault g _))

theorem State.aside_checkTrained : s.EngineAside (s.checkTrained g).1 g := by
  unfold State.checkTrained
  split
  · exact s.aside_enterAdapt g
  · exact .refl s g

/-! ### The training engine's results (R71, R77 to R79) -/

theorem State.aside_laneFails : s.EngineAside (s.laneFails g).1 g := by
  unfold State.laneFails
  split
  · exact s.aside_attemptFails g _
  · exact .refl s g

theorem State.aside_laneDone (c : LaneId) : s.EngineAside (s.laneDone g c).1 g := by
  unfold State.laneDone
  split
  · exact s.aside_laneFails g
  · split
    · split
      · exact .after (State.aside_checkTrained _ g) (.modLeg s g fun _ => rfl)
      · exact .requeue s g fun l => l.queueReport_requeued _
    · exact .refl s g

theorem State.aside_searchOut (i : WinIx) (o : SearchOut) : s.EngineAside (s.searchOut g i o).1 g := by
  cases o with
  | quiet => exact .refl s g
  | send q => exact .requeue s g fun l => l.sendRequest_requeued _ _ _
  | finished => exact s.aside_laneDone g _
  | failed => exact s.aside_laneFails g

theorem State.aside_moveSearch (i : WinIx) (f : Search → Search × SearchOut) : s.EngineAside (s.moveSearch g i f).1 g := by
  unfold State.moveSearch
  split
  · exact .refl s g
  · rename_i r _
    exact .trans (t := s.withSearch g i (f r).1) (.of_eq rfl rfl rfl rfl) (State.aside_searchOut _ g i _)

theorem State.aside_takeResult (i : WinIx) (res : ReqResult) : s.EngineAside (s.takeResult g i res) g :=
  .ite ((s.aside_moveSearch g i _).then_eq rfl rfl rfl rfl) (.refl s g)

/-! ### A declared loss (R39) -/

theorem State.aside_listenLost (cause : LegCause) :
    s.EngineAside ((s.enterListen g cause true false).post .sidebandLost (some g) []) g :=
  (s.aside_enterListen g cause true false).posted _ _ _

theorem State.aside_markLost : s.EngineAside ((s.modLeg g (fun l => { l with sbLost := true })).post .sidebandLost (some g) []) g :=
  (EngineAside.modLeg s g (f := fun l => { l with sbLost := true }) fun _ => rfl).posted _ _ _

theorem State.aside_probeFailed : s.EngineAside (s.probeFailed g) g := .ite (.refl s g) (s.aside_listenLost g _)

theorem State.aside_sidebandLost : s.EngineAside (s.sidebandLost g) g := by
  unfold State.sidebandLost
  split
  · exact s.aside_listenLost g _
  · exact s.aside_listenLost g _
  · exact s.aside_listenLost g _
  · exact s.aside_markLost g
  · exact s.aside_markLost g
  · exact s.aside_markLost g
  · exact s.aside_markLost g
  · exact s.aside_probeFailed g
  · exact .of_eq rfl rfl rfl rfl
  · exact .refl s g
  · exact .refl s g

end

end Sys2Proof.Machine
end

