-- ==== Sys2Proof/Proofs/LostSidebands.lean ====
section
/-! SUPPORT. Timeouts of a HUB's transaction (R129) and the third in a row, with the declaration of loss that follows the failure's
own effect (R130, R39). -/

open Sys2Proof Sys2Proof.Machine

namespace Sys2Proof.Machine

/-! ### What is left alone -/

/-- From s to t leg g alone has acted: its record, its lanes' receivers, notices and replies are all that moved. -/
structure State.LegAlone (s t : State) (g : LegId) : Prop extends s.LegFrame g t, s.EngineAside t g where
  memory : t.cable = s.cable

theorem State.LegAlone.trans {s t u : State} {g : LegId} (h : s.LegAlone t g) (k : t.LegAlone u g) : s.LegAlone u g :=
  ⟨h.toLegFrame.trans k.toLegFrame, h.toEngineAside.trans k.toEngineAside, k.memory.trans h.memory⟩

theorem State.LegAlone.refl (s : State) (g : LegId) : s.LegAlone s g := ⟨.refl s g, .refl s g, rfl⟩

section
variable (w : State) (g : LegId)

theorem State.alone_farReadDone (st : Status) (p : List Byte) : w.LegAlone (w.farReadDone st p) g :=
  ⟨(w.acts_farReadDone g st p).toLegFrame, w.aside_farReadDone g st p, by rw [State.farReadDone_rest]⟩

theorem State.alone_takeResult (i : WinIx) (res : ReqResult) : w.LegAlone (w.takeResult g i res) g :=
  ⟨(w.acts_takeResult g i res).toLegFrame, w.aside_takeResult g i res, w.takeResult_cable g i res⟩

theorem State.listenLost_cable (cause : LegCause) :
    ((w.enterListen g cause true false).post .sidebandLost (some g) []).cable = w.cable := by
  rw [State.post_cable, State.enterListen_cable]

theorem State.probeFailed_cable : (w.probeFailed g).cable = w.cable := by
  unfold State.probeFailed
  split
  · rfl
  · exact w.listenLost_cable g _

theorem State.alone_probeFailed : w.LegAlone (w.probeFailed g) g :=
  ⟨(w.acts_probeFailed g).toLegFrame, w.aside_probeFailed g, w.probeFailed_cable g⟩

theorem State.sidebandLost_cable : (w.sidebandLost g).cable = w.cable := by
  unfold State.sidebandLost
  split
  case h_1 | h_2 | h_3 => exact w.listenLost_cable g _
  case h_8 => exact w.probeFailed_cable g
  all_goals rfl

theorem State.alone_sidebandLost : w.LegAlone (w.sidebandLost g) g :=
  ⟨(w.acts_sidebandLost g).toLegFrame, w.aside_sidebandLost g, w.sidebandLost_cable g⟩

/-- The failure's own effect at its originator. -/
theorem State.alone_handOn_lost (x : Transaction) : w.LegAlone (w.handOn x .lost) x.leg := by
  unfold State.handOn
  split
  · exact .refl w _
  · split
    · exact w.alone_probeFailed x.leg
    · exact .refl w _
    · rename_i ix _ _
      rw [State.exchangeEnds_failed w rfl]
      split
      · exact w.alone_takeResult x.leg ix _
      · exact .refl w _
    · exact .refl w _
    · exact w.alone_farReadDone x.leg _ _
    · exact .refl w _

end

/-! ### The commands (R129, R130) -/

/-- The third timeout of a transaction in a row: the failure's own effect and the declaration, which are one matter for the PROBE
of a leg in PROBE (R130). -/
def State.lostBy (w : State) (x : Transaction) : State :=
  if x.work.isProbe ∧ (w.leg x.leg).state = .probe then w.handOn x .lost else (w.handOn x .lost).sidebandLost x.leg

theorem State.alone_lostBy (w : State) (x : Transaction) : w.LegAlone (w.lostBy x) x.leg := by
  unfold State.lostBy
  split
  · exact w.alone_handOn_lost x
  · exact (w.alone_handOn_lost x).trans (State.alone_sidebandLost _ _)

section
variable {s : State} {x : Transaction}

theorem exec_replyTimeout (tx : s.tx = some x) (waits : x.phase = .waiting) : exec .replyTimeout s = .next (s.timeout x) := by
  refine congrArg Host.Outcome.next ?_
  rw [tx]
  exact if_pos waits

theorem exec_replyFailingChecks {low mid : BitVec 2} {f : ResponseBody} (hub : s.isHub) (tx : s.tx = some x)
    (waits : x.phase = .waiting) (crc : responseCrcOk low mid f) (bad : replyGood x low mid f = false) :
    exec (.replyFailingChecks x.leg low mid f) s = .next (s.timeout x) := by
  refine congrArg Host.Outcome.next ?_
  unfold State.takeResponse
  rw [tx]
  exact (if_pos ⟨hub, rfl, waits, crc⟩).trans (if_neg (by simp [bad]))

/-- Below the third timeout the same transaction goes out again. -/
theorem State.timeout_resends (few : (s.leg x.leg).timeouts < 2) :
    (s.timeout x).tx = some { x with phase := .sending, replyTimer := none }
      ∧ (s.timeout x).leg x.leg = { s.leg x.leg with timeouts := (s.leg x.leg).timeouts + 1 }
      ∧ (∀ k, k ≠ x.leg → (s.timeout x).leg k = s.leg k)
      ∧ s.timeout x = { s with legs := (s.timeout x).legs, tx := (s.timeout x).tx } := by
  have resent : s.timeout x = { s.modLeg x.leg (fun l => { l with timeouts := l.timeouts + 1 }) with
      tx := some { x with phase := .sending, replyTimer := none } } := if_pos (by omega)
  rw [resent]
  exact ⟨rfl, s.modLeg_leg_same x.leg (fun l => { l with timeouts := l.timeouts + 1 }),
    fun k hk => s.modLeg_leg_other (fun l => { l with timeouts := l.timeouts + 1 }) hk, rfl⟩

theorem exec_replyTimeout_third (tx : s.tx = some x) (waits : x.phase = .waiting) (third : 2 ≤ (s.leg x.leg).timeouts) :
    exec .replyTimeout s = .next (((s.timedOut x.leg).lostBy x).arbitrate true) := by
  rw [exec_replyTimeout tx waits, State.timeout, if_neg (by omega)]
  have lost : ((if TxResult.lost = TxResult.lost ∧ ¬(x.work.isProbe ∧ ((s.timedOut x.leg).leg x.leg).state = .probe) then
      ((s.timedOut x.leg).handOn x .lost).sidebandLost x.leg else (s.timedOut x.leg).handOn x .lost))
      = (s.timedOut x.leg).lostBy x := by
    unfold State.lostBy
    by_cases probing : x.work.isProbe ∧ ((s.timedOut x.leg).leg x.leg).state = .probe
    · rw [if_pos probing, if_neg fun h => h.2 probing]
    · rw [if_neg probing, if_pos ⟨rfl, probing⟩]
  rw [← lost]
  rfl

end

/-! ### The state in which the loss is handed on -/

section
variable {s : State} {g : LegId}

theorem State.timedOut_leg (s : State) (g : LegId) : (s.timedOut g).leg g = { s.leg g with timeouts := 0 } :=
  s.modLeg_leg_same g (fun l => { l with timeouts := 0 })

theorem State.timedOut_ended (s : State) (g : LegId) : s.TxEnded (s.timedOut g) g where
  role := rfl
  time := rfl
  cable := rfl
  leg := by rw [State.timedOut_leg]
  lanes := rfl
  others k ne := s.modLeg_leg_other (fun l => { l with timeouts := 0 }) ne
  marked := by rw [State.timedOut_leg]

theorem State.besideSearch_timedOut {x : Transaction} (beside : s.besideSearch x) : (s.timedOut g).besideSearch x := by
  have window : ((s.timedOut g).leg x.leg).window = (s.leg x.leg).window := by
    by_cases e : x.leg = g
    · rw [e, State.timedOut_leg]
    · rw [(s.timedOut_ended g).others _ e]
  unfold State.besideSearch at beside ⊢
  simp only [State.winLane_congr window, (s.timedOut_ended g).lane]
  exact beside

/-- What every third timeout leaves of the part, and the end of its grant (R154, R158). -/
theorem State.LegAlone.third {z : State} (h : (s.timedOut g).LegAlone z g) :
    ((z.arbitrate true).leg g).timeouts = 0 ∧ s.othersKept (z.arbitrate true) g ∧ s.tapsKept (z.arbitrate true)
      ∧ s.settingKept (z.arbitrate true) ∧ (s.isHub → s.grantEnded (z.arbitrate true)) := by
  refine ⟨?_, fun k hk => ?_, fun c => ?_, ?_, fun hub => ?_⟩
  · rw [State.arbitrate_field Leg.timeouts fun _ => rfl, h.timeouts, State.timedOut_leg]
  · rw [State.arbitrate_apart, h.others k hk, (s.timedOut_ended g).others k hk]
  · rw [State.arbitrate_lane]
    exact h.taps c
  · exact State.settingKept_trans (State.settingKept_trans (t := s.timedOut g) ⟨rfl, rfl, rfl, rfl, rfl⟩
      (h.toLegFrame.settingKept h.memory)) (z.arbitrate_settingKept true)
  · exact State.arbitrate_grantEnded (h.toLegFrame.isHub.trans hub) (h.free rfl) h.grant

end

/-! ### The declaration by the leg's state (R39) -/

section
variable {u : State} {g : LegId}

theorem State.sidebandLost_marks (h : (u.leg g).state.inService ∨ (u.leg g).state = .standby ∨ (u.leg g).state = .sleep) :
    u.sidebandLost g = (u.modLeg g (fun l => { l with sbLost := true })).post .sidebandLost (some g) [] := by
  unfold State.sidebandLost
  cases state : (u.leg g).state <;> simp [state, LegState.inService] at h ⊢

theorem State.sidebandLost_listens (h : (u.leg g).state.attempting) :
    u.sidebandLost g = (u.enterListen g .sidebandLoss true false).post .sidebandLost (some g) [] := by
  unfold State.sidebandLost
  cases state : (u.leg g).state <;> simp [state, LegState.attempting] at h ⊢

theorem State.sidebandLost_probe (h : (u.leg g).state = .probe) : u.sidebandLost g = u.probeFailed g := by
  unfold State.sidebandLost
  rw [h]

theorem State.sidebandLost_listen (h : (u.leg g).state = .listen) : u.sidebandLost g = u.post .sidebandLost (some g) [] := by
  unfold State.sidebandLost
  rw [h]

theorem State.sidebandLost_idle (h : (u.leg g).state = .off ∨ (u.leg g).state = .fault) : u.sidebandLost g = u := by
  unfold State.sidebandLost
  rcases h with e | e <;> rw [e]

/-- A loss that returns the leg to LISTEN: the holdoff runs, nothing is queued, and both notices are posted. -/
theorem State.lossListens (hub : u.isHub) (free : u.tx = none) (cause : LegCause) :
    let t := ((u.enterListen g cause true false).post .sidebandLost (some g) []).arbitrate true
    (u.leg g).Relistens (t.leg g) u.time true ∧ t.noPhase g
      ∧ (u.notices.records = [] → t.notices.shows .legState (some g) [byteOf (u.leg g).state.code, 1, byteOf cause.code, 0]
          ∧ ∃ n ∈ t.notices.records, n.kind = .sidebandLost ∧ n.leg = some g) := by
  intro t
  refine ⟨State.enterListen_relistens hub cause false (State.post_legs _ _ _ _) true,
    State.enterListen_quiet hub cause (State.post_legs _ _ _ _) ?_ true, fun empty => ?_⟩
  · rw [State.post_tx]
    exact State.enterListen_free hub cause false free
  · rw [State.arbitrate_notices, State.post_notices, State.enterListen_hub_notices hub]
    have pair := NoticeQueue.shows_pair (q := u.notices) (k := .legState) (g := some g)
      (data := [byteOf (u.leg g).state.code, 1, byteOf cause.code, 0]) (now := u.time) (j := .sidebandLost) (o := some g) (d := [])
      (later := (u.enterListen g cause true false).time) (by rw [empty]; decide) (by decide)
    obtain ⟨entered, ⟨n, mem, kind, leg, -⟩, -⟩ := pair
    exact ⟨entered, n, mem, kind, leg⟩

end

/-! ### The transaction that no search waits for -/

/-- In u the transaction is given up: the leg's timeouts start again, and at most a FAR_READ has been answered. -/
structure State.GivesUp (s : State) (g : LegId) (u : State) : Prop where
  leg : u.leg g = { s.leg g with timeouts := 0 }
  lanes : u.lanes = s.lanes
  notices : u.notices = s.notices
  time : u.time = s.time
  role : u.role = s.role
  free : u.tx = none

theorem State.givesUp_port (s : State) (g : LegId) (p : Port) : s.GivesUp g { s.timedOut g with port := p } :=
  ⟨s.timedOut_leg g, rfl, rfl, rfl, rfl, rfl⟩

theorem State.GivesUp.isHub {s u : State} {g : LegId} (h : s.GivesUp g u) (hub : s.isHub) : u.isHub := by
  simpa [State.isHub, h.role] using hub

theorem State.GivesUp.state {s u : State} {g : LegId} (h : s.GivesUp g u) : (u.leg g).state = (s.leg g).state := by rw [h.leg]

section
variable {s : State} {x : Transaction} (beside : s.besideSearch x)
include beside

/-- Where the loss is no PROBE's failure, nothing but a FAR_READ's reply precedes the declaration. -/
theorem State.lostBy_beside (elsewhere : (s.leg x.leg).state ≠ .probe) :
    ∃ u, s.GivesUp x.leg u ∧ (s.timedOut x.leg).lostBy x = u.sidebandLost x.leg := by
  have elsewhere' : ¬(x.work.isProbe ∧ ((s.timedOut x.leg).leg x.leg).state = .probe) := fun h =>
    elsewhere ((s.givesUp_port x.leg s.port).state.symm.trans h.2)
  obtain ⟨rest, -⟩ := State.handOn_failed_rest (r := .lost) rfl (State.besideSearch_timedOut (g := x.leg) beside) elsewhere'
  exact ⟨_, s.givesUp_port x.leg _, (if_neg elsewhere').trans (congrArg (State.sidebandLost · x.leg) rest)⟩

/-- In PROBE the loss is the failure of the PROBE, whichever transaction it came by (log 23). -/
theorem State.lostBy_probe (state : (s.leg x.leg).state = .probe) :
    ∃ u, s.GivesUp x.leg u ∧ (s.timedOut x.leg).lostBy x
      = (u.enterListen x.leg .probeFailed true false).post .sidebandLost (some x.leg) [] := by
  have probing {u : State} (h : s.GivesUp x.leg u) : (u.leg x.leg).state = .probe := h.state.trans state
  have given := s.givesUp_port x.leg s.port
  by_cases own : x.work.isProbe
  · obtain ⟨d, work⟩ : ∃ d, x.work = .item (.probe d) := by
      unfold Work.isProbe at own
      split at own
      · exact ⟨_, ‹_›⟩
      · cases own
    have lost : (s.timedOut x.leg).lostBy x = (s.timedOut x.leg).probeFailed x.leg :=
      (if_pos ⟨own, probing given⟩).trans (State.handOn_probe work .lost)
    exact ⟨_, given, lost.trans (State.probeFailed_eq (probing given))⟩
  · have elsewhere : ¬(x.work.isProbe ∧ ((s.timedOut x.leg).leg x.leg).state = .probe) := fun h => own h.1
    obtain ⟨rest, -⟩ := State.handOn_failed_rest (r := .lost) rfl (State.besideSearch_timedOut (g := x.leg) beside) elsewhere
    have given' := s.givesUp_port x.leg ((s.timedOut x.leg).handOn x .lost).port
    refine ⟨_, given', ?_⟩
    rw [← State.probeFailed_eq (probing given'), ← State.sidebandLost_probe (probing given'), ← rest]
    exact if_neg elsewhere

end

/-! ### The tap request that a search waits for (R76 to R78, R133) -/

section
variable {s v : State} {g : LegId} {ix : WinIx} {k : Search} {n : Nat}

/-- An ended search leaves the leg in TRAIN or ADAPT unless its lane failed the fourth attempt. -/
theorem State.SearchEnds.attempts {r : Search} (h : s.SearchEnds v g ix r n) (alive : n < 4 ∨ 0 < r.best) :
    (v.leg g).state.attempting := by
  unfold State.SearchEnds at h
  split at h
  · rename_i failed
    unfold State.AttemptFailed at h
    rw [if_pos (.inr (alive.resolve_right (by omega)))] at h
    rw [h.1.1]
    rfl
  · split at h
    · rw [h.1]; rfl
    · rw [h.1.1]; rfl

/-- A missed request leaves the leg in TRAIN or ADAPT, but for the last lane failure of attempt 4. -/
theorem State.SearchMisses.attempts (h : s.SearchMisses v g ix k n) (alive : n < 4 ∨ 0 < k.best ∨ k.request = .opening
    ∨ (k.steps < 32 ∧ (k.tap = .post ∨ (k.gained = false ∧ k.dir = .inc)))) : (v.leg g).state.attempting := by
  unfold State.SearchMisses at h
  split at h
  · rw [h.1]; rfl
  · rename_i later
    split at h
    · refine h.attempts ?_
      rcases alive with low | merit | opening | ⟨few, -⟩
      · exact .inl low
      · exact .inr merit
      · exact absurd opening later
      · omega
    · unfold State.SearchTurns at h
      split at h
      · rw [h.1.1]; rfl
      · rename_i turned
        split at h
        · rw [h.1.1]; rfl
        · rename_i pre
          refine h.attempts ?_
          rcases alive with low | merit | opening | ⟨-, post | still⟩
          · exact .inl low
          · exact .inr merit
          · exact absurd opening later
          · exact absurd post pre
          · exact absurd still turned

/-- The lane failure that ends an attempt (R77, R79). -/
theorem State.SearchMisses.fails (h : s.SearchMisses v g ix k n) (hub : s.isHub) (zero : k.best = 0) (later : k.request ≠ .opening)
    (ends : 32 ≤ k.steps ∨ (k.tap = .pre ∧ (k.gained ∨ k.dir = .dec))) : s.AttemptFailed v g n := by
  have ended (h : s.SearchEnds v g ix k n) : s.AttemptFailed v g n := by
    unfold State.SearchEnds at h
    rwa [if_pos ⟨hub, zero⟩] at h
  unfold State.SearchMisses at h
  rw [if_neg later] at h
  split at h
  · exact ended h
  · rename_i few
    obtain ⟨pre, turned⟩ := ends.resolve_left few
    unfold State.SearchTurns at h
    rw [if_neg (by rintro ⟨gained, inc⟩; simp [gained, inc] at turned), if_neg (by simp [pre])] at h
    exact ended h

variable {x : Transaction} {q : TapRequest} (leg : x.leg = g) (work : x.work = .item (.exchange ix q))
  (window : s.hasIndex g ix) (live : x.live) (train : (s.leg g).state = .train)
  (searches : (s.lane (s.winLane g ix)).search = some k) (waits : k.waiting = some .status)
  (attempt : (s.leg g).attempt = some n) (pos : 1 ≤ n) (fresh : (s.leg g).standbyVerify = false)
include leg work window live train searches waits attempt pos fresh

/-- The search misses its request before the loss is declared. -/
theorem State.lostBy_search : ∃ v, (s.timedOut g).lostBy x = v.sidebandLost g ∧ (s.timedOut g).LegAlone v g
    ∧ s.SearchMisses v g ix k n := by
  subst leg
  have ended := s.timedOut_ended x.leg
  refine ⟨(s.timedOut x.leg).takeResult x.leg ix .failure, ?_, State.alone_takeResult _ _ _ _,
    State.SearchDoes.misses (ended.beforeSearch.takeResult train window searches waits attempt (fun _ => ⟨pos, fresh⟩) .failure)⟩
  have handed : (s.timedOut x.leg).handOn x .lost = (s.timedOut x.leg).takeResult x.leg ix .failure := by
    unfold State.handOn
    rw [work]
    exact (State.exchangeEnds_failed _ rfl ix).trans (if_pos live)
  rw [← handed]
  exact if_neg fun h => by rw [work] at h; cases h.1

end

end Sys2Proof.Machine

/-- Settles O19: below the third timeout the resend is the whole of it; the third is the failure at its originator, the declaration
by the leg's state and the choice point. -/
theorem timeoutResendsThenLoses : Obligations.TimeoutResendsThenLoses := by
  unfold Obligations.TimeoutResendsThenLoses
  refine ⟨fun s x tx waits few => ⟨_, exec_replyTimeout tx waits, State.timeout_resends few⟩,
    fun s x low mid f hub tx waits few crc bad =>
      ⟨_, exec_replyFailingChecks hub tx waits crc bad, State.timeout_resends few⟩,
    fun s x tx waits beside third state => ⟨_, exec_replyTimeout_third tx waits third, ?_⟩,
    fun s x hub tx waits beside third state => ⟨_, exec_replyTimeout_third tx waits third, ?_⟩,
    fun s x hub tx waits third beside state => ⟨_, exec_replyTimeout_third tx waits third, ?_⟩,
    fun s x tx waits third beside state => ⟨_, exec_replyTimeout_third tx waits third, ?_⟩,
    fun s x tx waits third beside state => ⟨_, exec_replyTimeout_third tx waits third, ?_⟩,
    fun s g x ix q k n hub tx waits third leg work window live train searches waiting attempt pos fresh alive => ?_,
    fun s g x ix q k n hub tx waits third leg work window live train searches waiting attempt pos fresh four zero later ends => ?_⟩
  · obtain ⟨timeouts, others, -, setting, ended⟩ := ((s.timedOut x.leg).alone_lostBy x).third
    obtain ⟨u, given, lost⟩ := State.lostBy_beside beside fun h => by simp [h, LegState.inService] at state
    rw [lost, State.sidebandLost_marks (by rw [given.state]; exact state)] at timeouts others setting ended ⊢
    have marked := u.modLeg_leg_same x.leg (fun l => { l with sbLost := true })
    refine ⟨timeouts, ?_, ?_, ?_, others, ?_, setting, ended⟩
    · rw [State.arbitrate_field Leg.sbLost fun _ => rfl, State.post_leg, marked]
    · rw [State.arbitrate_state, State.post_leg, marked]
      exact given.state
    · rw [State.arbitrate_notices, State.post_notices, ← given.notices, ← given.time]; rfl
    · rw [State.arbitrate_lanes, ← given.lanes]; rfl
  · obtain ⟨timeouts, others, taps, setting, ended⟩ := ((s.timedOut x.leg).alone_lostBy x).third
    obtain ⟨u, given, lost⟩ := State.lostBy_beside beside fun h => by simp [h, LegState.attempting] at state
    rw [lost, State.sidebandLost_listens (by rw [given.state]; exact state)] at timeouts others taps setting ended ⊢
    obtain ⟨relistens, quiet, posted⟩ := State.lossListens (g := x.leg) (given.isHub hub) given.free .sidebandLoss
    rw [given.state, given.notices] at posted
    exact ⟨timeouts, relistens.sbLost, relistens.state, by rw [← given.time]; exact relistens.holdoff, relistens.retrains,
      relistens.farId, quiet, posted, others, taps, setting, ended hub⟩
  · obtain ⟨timeouts, others, taps, setting, ended⟩ := ((s.timedOut x.leg).alone_lostBy x).third
    obtain ⟨u, given, lost⟩ := State.lostBy_probe beside state
    rw [lost] at timeouts others taps setting ended ⊢
    obtain ⟨relistens, quiet, posted⟩ := State.lossListens (g := x.leg) (given.isHub hub) given.free .probeFailed
    rw [given.state, given.notices, state] at posted
    exact ⟨timeouts, relistens.sbLost, relistens.state, by rw [← given.time]; exact relistens.holdoff, relistens.retrains, quiet,
      posted, others, taps, setting, ended hub⟩
  · obtain ⟨-, others, -, setting, ended⟩ := ((s.timedOut x.leg).alone_lostBy x).third
    obtain ⟨u, given, lost⟩ := State.lostBy_beside beside fun h => by simp [h] at state
    rw [lost, State.sidebandLost_listen (given.state.trans state)] at others setting ended ⊢
    refine ⟨?_, ?_, others, ?_, setting, ended⟩
    · rw [State.arbitrate_apart, State.post_leg, given.leg]; rfl
    · rw [State.arbitrate_notices, State.post_notices, given.notices, given.time]
    · rw [State.arbitrate_lanes, State.post_lanes, given.lanes]
  · obtain ⟨-, others, -, setting, ended⟩ := ((s.timedOut x.leg).alone_lostBy x).third
    obtain ⟨u, given, lost⟩ := State.lostBy_beside beside fun h => by simp [h] at state
    rw [lost, State.sidebandLost_idle (by rw [given.state]; exact state)] at others setting ended ⊢
    refine ⟨?_, ?_, others, ?_, setting, ended⟩
    · rw [State.arbitrate_apart, given.leg]; rfl
    · rw [State.arbitrate_notices, given.notices]
    · rw [State.arbitrate_lanes, given.lanes]
  · subst leg
    refine ⟨_, exec_replyTimeout_third tx waits third, ?_⟩
    obtain ⟨timeouts, others, taps, setting, ended⟩ := ((s.timedOut x.leg).alone_lostBy x).third
    obtain ⟨v, lost, alone, misses⟩ := State.lostBy_search rfl work window live train searches waiting attempt pos fresh
    rw [lost, State.sidebandLost_listens (misses.attempts alive)] at timeouts others taps setting ended ⊢
    obtain ⟨relistens, quiet, -⟩ := State.lossListens (g := x.leg) (alone.isHub.trans hub) (alone.free rfl) .sidebandLoss
    have holdoff := relistens.holdoff
    rw [alone.time] at holdoff
    exact ⟨timeouts, relistens.sbLost, relistens.state, holdoff, quiet, others, taps, setting, ended hub⟩
  · subst leg
    refine ⟨_, exec_replyTimeout_third tx waits third, ?_⟩
    obtain ⟨timeouts, others, taps, setting, ended⟩ := ((s.timedOut x.leg).alone_lostBy x).third
    obtain ⟨v, lost, -, misses⟩ := State.lostBy_search rfl work window live train searches waiting attempt pos fresh
    have failed := misses.fails hub zero later ends
    have faulted : (v.leg x.leg).state = .fault := by
      unfold State.AttemptFailed at failed
      rw [if_neg (by simp [fresh]; omega)] at failed
      exact failed.1
    rw [lost, State.sidebandLost_idle (.inr faulted)] at timeouts others taps setting ended ⊢
    exact ⟨timeouts, (v.onward_arbitrate true).attemptFailed failed, others, taps, setting, ended hub⟩

end

