-- ==== Sys2Proof/Proofs/FarReads.lean ====
section
/-! SUPPORT. A FAR_READ (R145): the checks that queue its FETCH, and the reply that settles it (R146). -/

open Sys2Proof Sys2Proof.Machine

namespace Sys2Proof.Machine

/-! ### The request (R145) -/

section
variable {s : State} (takes : s.takesRequests) (tag : Byte)
include takes

theorem exec_farRead (p : List Byte) : exec (.farRead ⟨tag, p⟩) s = .next ((s.taken farReadKind tag).doFarRead p) :=
  congrArg Host.Outcome.next (State.takeRequest_taken takes _ _ _)

/-- A request by its three bytes that names a leg and an item. -/
theorem exec_farRead_named (hub : s.isHub) (g : LegId) {n lane : Byte} {k : FetchKind} (named : fetchOfCode n.toNat = some k)
    (lawful : k = .laneInfo → lane.toNat ≤ 7) : exec (.farRead ⟨tag, [byteOf g.val, n, lane]⟩) s
    = .next ((s.taken farReadKind tag).queueFarRead g k lane.toNat) := by
  rw [exec_farRead takes, State.doFarRead, if_neg (by simp [hub]),
    State.forLeg_eq (n := 3) rfl (natAt_byteOf_cons g.val (by omega) [n, lane])
      (State.hasLeg_of_isHub (s := s.taken farReadKind tag) hub g),
    show natAt [byteOf g.val, n, lane] 1 = n.toNat from rfl, named]
  exact congrArg Host.Outcome.next (if_neg fun h => absurd (lawful h.1) (Nat.not_le_of_lt h.2))

end

theorem fetchOfCode_fetchCode (k : FetchKind) : fetchOfCode (fetchCode k).toNat = some k := by
  cases k <;> rfl

/-- The codes of IDENT and STATUS, which name no lane. -/
theorem fetchOfCode_laneless {n : Byte} (h : n = 1 ∨ n = 2) : ∃ k, fetchOfCode n.toNat = some k ∧ k ≠ .laneInfo := by
  rcases h with rfl | rfl
  · exact ⟨.ident, rfl, nofun⟩
  · exact ⟨.status, rfl, nofun⟩

theorem State.farIndex_laneless (s : State) (g : LegId) {k : FetchKind} (laneless : k ≠ .laneInfo) (lane : Nat) :
    s.farIndex g k lane = some 0 := by
  cases k with
  | laneInfo => exact absurd rfl laneless
  | ident => rfl
  | status => rfl

section
variable {s : State} {g : LegId} {k : FetchKind} {lane : Nat}

theorem State.queueFarRead_refused (idle : (s.leg g).state = .off ∨ (s.leg g).state = .fault) :
    s.queueFarRead g k lane = s.wrongState g := if_pos idle

variable {i : WinIx} (index : s.farIndex g k lane = some i) (awake : ¬((s.leg g).state = .off ∨ (s.leg g).state = .fault))
include index awake

theorem State.queueFarRead_queued (room : (s.leg g).hasRoom) :
    s.queueFarRead g k lane = (s.modLeg g (fun l => l.push (.farFetch k i))).arbitrate false := by
  rw [State.queueFarRead, if_neg awake, index]
  exact if_pos room

theorem State.queueFarRead_busy (full : (s.leg g).hasRoom = false) : s.queueFarRead g k lane = s.reply .busy [] := by
  rw [State.queueFarRead, if_neg awake, index]
  exact if_neg (by simp [full])

end

/-! ### The reply (R146) -/

section
variable {w : State} {tag : Byte} (held : w.port.slot = some ⟨0x0E, tag⟩)
include held

/-- While a FAR_READ holds the slot, its reply joins the reply line. -/
theorem State.farReadDone_answers (st : Status) (p : List Byte) : w.farReadDone st p
    = { w with port := { w.port with line := w.port.line ++ [⟨0x0E, tag, st, p, true, false⟩] } } := by
  have answered : w.farReadDone st p = w.reply st p := if_pos (by rw [held]; rfl)
  rw [answered, State.reply]
  rcases w.port.answer_cases st p false with ⟨none, -⟩ | ⟨q, slot, port⟩
  · rw [held] at none; cases none
  · rw [held] at slot
    cases slot
    rw [port]

/-- The flush of the leg's queue settles the FETCH that waits in it. -/
theorem State.flush_answers {g : LegId} (waits : ∃ j ∈ (w.leg g).queue, j.isFarFetch) : (w.flush g).port
    = { w.port with line := w.port.line ++ [⟨0x0E, tag, .farFailed, [5, 0], true, false⟩] } := by
  have answers (t : State) (port : t.port = w.port) : (t.farReadFailed .flushed 0).port
      = { w.port with line := w.port.line ++ [⟨0x0E, tag, .farFailed, [5, 0], true, false⟩] } := by
    rw [State.farReadFailed, State.farReadDone_answers (by rw [port]; exact held), port]
    rfl
  unfold State.flush
  rw [if_pos (List.any_eq_true.mpr waits)]
  exact answers _ (by split <;> rfl)

theorem State.listened_answers {g : LegId} (waits : ∃ j ∈ (w.leg g).queue, j.isFarFetch) (cause : LegCause)
    (holdoff phase : Bool) : (w.listened g cause holdoff phase).port
      = { w.port with line := w.port.line ++ [⟨0x0E, tag, .farFailed, [5, 0], true, false⟩] } := by
  have queue : ((w.enter g .listen cause none).leg g).queue = (w.leg g).queue := by
    rw [State.enter_leg, if_pos rfl]
    rfl
  have flushed := State.flush_answers (w := w.enter g .listen cause none) (g := g) held (by rw [queue]; exact waits)
  cases phase <;> exact flushed

end

/-- Signal loss at a HUB is an entry to LISTEN with the holdoff running (R38). -/
theorem State.absent_holds {u : State} {g : LegId} (hub : u.isHub) (loses : (u.leg g).state.losesSignal) (c : LaneId) :
    u.presenceChange g c .absent
      = u.listened g .signalLoss true (!((u.leg g).sbLost || decide ((u.leg g).state = .probe))) := by
  unfold State.presenceChange
  rw [if_pos hub, State.hubSignalLoss_listens loses, State.enterListen_holds hub]

section
variable {w : State} {x : Transaction} {k : FetchKind} {i : WinIx} (work : x.work = .item (.farFetch k i))
include work

theorem State.handOn_farFetch (r : TxResult) : w.handOn x r = w.farFetchEnds x k r := by
  unfold State.handOn
  rw [work]

end

/-- The ACK of a far read moves one field at most, and that for a STATUS. -/
theorem State.farFetched (w : State) (g : LegId) (k : FetchKind) (d : List Byte) :
    let u := if k = .status then w.takeFarStatus g d else w
    u.port = w.port ∧ u.lanes = w.lanes ∧ (∀ j, j ≠ g → u.leg j = w.leg j)
      ∧ u.leg g = { w.leg g with farStatus := if k = .status then parseFarStatus w.time d else (w.leg g).farStatus } := by
  intro u
  by_cases status : k = .status
  · rw [show u = w.takeFarStatus g d from if_pos status, if_pos status]
    exact ⟨rfl, rfl, fun j hj => w.modLeg_leg_other _ hj, w.modLeg_leg_same g _⟩
  · rw [show u = w from if_neg status, if_neg status]
    exact ⟨rfl, rfl, fun j _ => rfl, rfl⟩

/-- A far read's ACK of STATUS has the fields of a STATUS. -/
theorem farFetch_reads {s : State} {g : LegId} {x : Transaction} {f : ResponseBody} {i : WinIx} (reply : s.getsReply g x 1 f)
    (work : x.work = .item (.farFetch .status i)) : (parseFarStatus 0 f.data).isSome = true := by
  have good := ackGood_of_getsReply reply
  unfold ackGood at good
  rw [work] at good
  exact (Bool.and_eq_true_iff.mp good).2

theorem RefuseReason.code_of_ofCode {n : Nat} {r : RefuseReason} (h : RefuseReason.ofCode n = some r) : r.code = n := by
  unfold RefuseReason.ofCode at h
  split at h <;> cases h <;> rfl

/-- A good REFUSE gives its reason. -/
theorem refusedFor_code {s : State} {g : LegId} {x : Transaction} {f : ResponseBody} (reply : s.getsReply g x 3 f) :
    byteOf (refusedFor f).code = f.reason := by
  obtain ⟨-, -, -, -, -, good⟩ := reply
  unfold replyGood at good
  rw [if_neg (by decide), if_pos rfl] at good
  obtain ⟨r, reads⟩ := Option.isSome_iff_exists.mp (Bool.and_eq_true_iff.mp good).2
  rw [refusedFor, reads, Option.getD_some, RefuseReason.code_of_ofCode reads]
  exact BitVec.ofNat_toNat 8 f.reason

end Sys2Proof.Machine

/-- Settles O47: the checks of the request by its bytes, and the reply by each fate of the FETCH. -/
theorem farReadIsQueued : Obligations.FarReadIsQueued := by
  unfold Obligations.FarReadIsQueued
  refine ⟨fun s g tag n lane k i takes hub off fault room code names => ?_, fun s g tag n lane takes hub idle laneless => ?_,
    fun s g tag n lane takes hub off fault full laneless => ?_, fun s tag p takes atEnd => ?_,
    fun s g x f tag k i reply work held => ⟨_, exec_sidebandAck reply, ?_⟩,
    fun s g x f tag k i reply work held => ⟨_, exec_sidebandRefuse reply, ?_⟩,
    fun s x tag k i tx work held => ⟨_, exec_transactionExpiry tx, ?_⟩,
    fun s x tag k i tx waits third work held => ⟨_, exec_replyTimeout_third tx waits third, ?_⟩,
    fun s c g level tag hub owner loses was top weak waits held => ?_⟩
  · have lawful : k = .laneInfo → lane.toNat ≤ 7 := fun e => names.elim (fun h => absurd e h.1) fun h => h.2.1
    have index : (s.taken farReadKind tag).farIndex g k lane.toNat = some i := by
      rcases names with ⟨laneless, rfl⟩ | ⟨rfl, -, index⟩
      · exact State.farIndex_laneless _ g laneless _
      · exact index
    have queued := State.queueFarRead_queued index (not_or.mpr ⟨off, fault⟩) (decide_eq_true room)
    refine ⟨_, (exec_farRead_named takes tag hub g (code ▸ fetchOfCode_fetchCode k) lawful).trans (congrArg _ queued), ?_⟩
    have pushed (l : Leg) : (l.push (.farFetch k i)).apart = l.apart := (l.push_requeued _).apart
    obtain ⟨own, others, rest⟩ := modLeg_arbitrate (s.taken farReadKind tag) g (fun l => l.push (.farFetch k i))
    have port : (((s.taken farReadKind tag).modLeg g (fun l => l.push (.farFetch k i))).arbitrate false).port
        = (s.taken farReadKind tag).port := State.arbitrate_port _ _
    refine ⟨port, fun busy => ?_, fun j => ?_, by rw [port]; exact rest⟩
    · obtain ⟨x, tx⟩ := Option.ne_none_iff_exists'.mp busy
      rw [State.arbitrate_busy ((s.taken farReadKind tag).modLeg g (fun l => l.push (.farFetch k i))) false x tx,
        State.modLeg_leg_same]
      exact congrArg Leg.queue (if_pos (decide_eq_true room))
    · by_cases e : j = g
      · rw [e, own, pushed]; rfl
      · exact others j e
  · obtain ⟨k, named, lane'⟩ := fetchOfCode_laneless laneless
    rw [exec_farRead_named takes tag hub g named fun e => absurd e lane',
      State.queueFarRead_refused (s := s.taken farReadKind tag) idle]
    rfl
  · obtain ⟨k, named, lane'⟩ := fetchOfCode_laneless laneless
    rw [exec_farRead_named takes tag hub g named fun e => absurd e lane',
      State.queueFarRead_busy (s := s.taken farReadKind tag) (State.farIndex_laneless _ g lane' _) (not_or.mpr ⟨off, fault⟩)
        (decide_eq_false (Nat.not_lt_of_le full))]
    rfl
  · rw [exec_farRead takes, State.doFarRead, if_pos (show (s.taken farReadKind tag).isHub = false from atEnd)]
    rfl
  · obtain ⟨port, lanes, others, own⟩ := (s.replied g).farFetched g k f.data
    rw [State.handOn_farFetch work, State.farFetchEnds, reply.2.2.1,
      State.farReadDone_answers (port.trans (s.replied_traffic g).2 ▸ held)]
    set u := if k = .status then (s.replied g).takeFarStatus g f.data else s.replied g
    generalize x.endsGrant (.ack f.item f.more f.data) = ends
    rw [State.replied_leg, if_pos rfl, (s.replied_ended g).time] at own
    have field {α : Type} (p : Leg → α) (apart : ∀ l : Leg, p l.apart = p l) (q : Port) :
        p ((State.arbitrate { u with port := q } ends).leg g) = p (u.leg g) := State.arbitrate_field p apart _ ends g
    have told (q : Port) : ((State.arbitrate { u with port := q } ends).leg g).farStatus
        = if k = .status then parseFarStatus s.time f.data else (s.leg g).farStatus := by
      rw [field Leg.farStatus fun _ => rfl, own]
    refine ⟨(State.arbitrate_port _ _).trans ?_, ?_, ?_, fun status => ?_, fun other => ?_, fun j hj => ?_,
      (State.arbitrate_lanes _ _).trans (lanes.trans (s.replied_ended g).lanes)⟩
    · rw [port, (s.replied_traffic g).2]
    · rw [field Leg.farId fun _ => rfl, own]
    · rw [field Leg.state fun _ => rfl, own]
    · subst status
      obtain ⟨r, parsed, reads⟩ := exists_farStatus (farFetch_reads reply work) s.time
      rw [told, if_pos rfl]
      exact ⟨r, parsed, reads⟩
    · rw [told, if_neg other]
    · rw [State.arbitrate_apart]
      exact congrArg Leg.apart ((others j hj).trans ((s.replied_ended g).others j hj))
  · rw [State.handOn_farFetch work, State.farFetchEnds, State.farReadFailed, refusedFor_code reply,
      State.farReadDone_answers ((s.replied_traffic g).2.symm ▸ held)]
    refine ⟨(State.arbitrate_port _ _).trans ?_, ?_, fun j hj => ?_, (State.arbitrate_lanes _ _).trans (s.replied_ended g).lanes⟩
    · rw [(s.replied_traffic g).2]; rfl
    · rw [State.arbitrate_state]
      show ((s.replied g).leg g).state = _
      rw [(s.replied_ended g).leg]
    · rw [State.arbitrate_apart]
      exact congrArg Leg.apart ((s.replied_ended g).others j hj)
  · rw [State.handOn_farFetch work, State.farFetchEnds, State.farReadFailed,
      State.farReadDone_answers (w := s.expired x) held]
    exact ⟨State.arbitrate_port _ _, fun j => State.arbitrate_apart _ _ j, State.arbitrate_lanes _ _⟩
  · have elsewhere : ¬(x.work.isProbe ∧ ((s.timedOut x.leg).leg x.leg).state = .probe) := fun h => by rw [work] at h; cases h.1
    obtain ⟨-, others, -⟩ := ((s.timedOut x.leg).alone_lostBy x).third
    have lost : (s.timedOut x.leg).lostBy x = ((s.timedOut x.leg).handOn x .lost).sidebandLost x.leg := if_neg elsewhere
    rw [State.handOn_farFetch work, State.farFetchEnds, State.farReadFailed,
      State.farReadDone_answers (w := s.timedOut x.leg) held] at lost
    rw [lost] at others ⊢
    have aside := State.aside_sidebandLost { s.timedOut x.leg with
      port := { s.port with line := s.port.line ++ [⟨0x0E, tag, .farFailed, [2, 0], true, false⟩] } } x.leg
    rw [State.arbitrate_port]
    exact ⟨aside.line, aside.slot, others⟩
  · replace loses : (s.leg g).state.losesSignal := loses
    refine ⟨_, exec_scanReading_absent owner loses.awake top was weak, ?_⟩
    rw [State.absent_holds (u := s.seenAs c .absent) hub loses]
    refine ⟨(State.arbitrate_port _ _).trans (State.listened_answers (w := s.seenAs c .absent) held waits _ _ _), fun j hj => ?_⟩
    rw [State.arbitrate_apart, (State.acts_listened _ g _ _ _).others j hj]
    rfl

end

