-- ==== Sys2Proof/Proofs/DrainAcks.lean ====
section
/-! SUPPORT. The ACK of a DRAIN (R143, R159): the state in which its item is applied, what reading a phase's beginning from that state
comes to, and the marks that outlast it. -/

open Sys2Proof Sys2Proof.Machine

namespace Sys2Proof.Machine

/-! ### The same ground (R32 to R36) -/

/-- What the beginning of a phase is said of in a leg's record. -/
def Leg.ground (l : Leg) : Option Window × Bool × Option Rate × Nat × Nat × Bool :=
  (l.window, l.resume, l.negRate, l.retrains, l.faultCount, l.standbyVerify)

/-- States s and u agree in what the beginning of a phase of leg g is said of. -/
structure State.SameGround (s u : State) (g : LegId) : Prop where
  role : u.role = s.role
  time : u.time = s.time
  cable : u.cable = s.cable
  leg : (u.leg g).ground = (s.leg g).ground
  lanes : s.sameReceivers u

namespace State.SameGround

variable {s u t : State} {g : LegId} {n : Nat} (h : s.SameGround u g)
include h

theorem fields : (u.leg g).window = (s.leg g).window ∧ (u.leg g).resume = (s.leg g).resume
    ∧ (u.leg g).negRate = (s.leg g).negRate ∧ (u.leg g).retrains = (s.leg g).retrains
    ∧ (u.leg g).faultCount = (s.leg g).faultCount ∧ (u.leg g).standbyVerify = (s.leg g).standbyVerify := by
  simpa only [Leg.ground, Prod.mk.injEq] using h.leg

theorem window : (u.leg g).window = (s.leg g).window := congrArg Prod.fst h.leg

theorem negRate : (u.leg g).negRate = (s.leg g).negRate := congrArg (fun p => p.2.2.1) h.leg

theorem modLeg {m : Leg → Leg} (ground : ∀ l : Leg, (m l).ground = l.ground) : s.SameGround (u.modLeg g m) g :=
  ⟨h.role, h.time, h.cable, by rw [State.modLeg_leg_same, ground, h.leg], h.lanes⟩

theorem isHub : u.isHub = s.isHub := by rw [State.isHub, h.role]; rfl

theorem phaseRate : (u.leg g).phaseRate = (s.leg g).phaseRate := by rw [Leg.phaseRate, h.negRate]; rfl

theorem beginsTrain {rate : Option Rate} (k : u.BeginsTrain t g n rate) : s.BeginsTrain t g n rate :=
  k.of_same h.role h.time h.cable h.window h.fields.2.1 h.lanes

theorem beginsAdapt (k : u.BeginsAdapt t g n) : s.BeginsAdapt t g n := by
  unfold State.BeginsAdapt at k ⊢
  simp only [h.isHub, h.time, h.phaseRate, State.hasIndex_congr h.window, State.winLane_congr h.window, (h.lanes _).2.1] at k
  exact k

theorem beginsVerify (k : u.BeginsVerify t g n) : s.BeginsVerify t g n := by
  unfold State.BeginsVerify at k ⊢
  simp only [h.isHub, h.time, h.phaseRate, State.hasIndex_congr h.window] at k
  exact k

theorem cameUp {r : Rate} (k : u.CameUp t g r) : s.CameUp t g r := by
  obtain ⟨-, -, -, retrains, -⟩ := h.fields
  unfold State.CameUp State.HandsOver at k ⊢
  simp only [h.time, h.cable, retrains, State.winLanes_congr h.window, (h.lanes _).1, (h.lanes _).2.1, (h.lanes _).2.2] at k
  exact k

theorem attemptFailed (k : u.AttemptFailed t g n) : s.AttemptFailed t g n := by
  obtain ⟨-, -, negRate, retrains, faultCount, standby⟩ := h.fields
  unfold State.AttemptFailed at k ⊢
  simp only [standby, negRate, retrains, faultCount] at k
  split
  · rename_i again
    rw [if_pos again] at k
    exact k.imp_left h.beginsTrain
  · rename_i last
    rwa [if_neg last] at k

end State.SameGround

/-! ### The beat is taken (R143, R153) -/

/-- The state in which a drained item is applied: the reply has been taken, and with it the beat. -/
def State.beatHeard (s : State) (g : LegId) (f : ResponseBody) : State :=
  (s.replied g).modLeg g (fun l => { l with beatTaken := true, drainDone := l.drainDone || f.item == 0 || !f.more })

/-- The part after the ACK of a DRAIN. -/
def State.drainsTo (s : State) (g : LegId) (f : ResponseBody) : State :=
  ((s.beatHeard g f).drained g f.item f.data).arbitrate (f.item == 0 || !f.more)

theorem exec_sidebandAck_drain {s : State} {g : LegId} {x : Transaction} {f : ResponseBody} (reply : s.getsReply g x 1 f)
    (work : x.work = .drain) : exec (.sidebandAck g f) s = .next (s.drainsTo g f) := by
  have handed : (s.replied g).handOn x (.ack f.item f.more f.data) = (s.beatHeard g f).drained g f.item f.data := by
    unfold State.handOn
    rw [work, ← reply.2.2.1]
    rfl
  have ends : x.endsGrant (.ack f.item f.more f.data) = (f.item == 0 || !f.more) := by
    unfold Transaction.endsGrant
    rw [work]
    rfl
  rw [exec_sidebandAck reply, handed, ends]
  rfl

section
variable (s : State) (g : LegId) (f : ResponseBody)

theorem State.beatHeard_leg : (s.beatHeard g f).leg g = { s.leg g with
    timeouts := 0, sbLost := false, beatTaken := true, drainDone := (s.leg g).drainDone || f.item == 0 || !f.more } := by
  rw [State.beatHeard, State.modLeg_leg_same, State.replied_leg, if_pos rfl]

theorem State.beatHeard_lanes : (s.beatHeard g f).lanes = s.lanes := (s.replied_ended g).lanes

theorem State.beatHeard_time : (s.beatHeard g f).time = s.time := (s.replied_ended g).time

theorem State.beatHeard_role : (s.beatHeard g f).role = s.role := (s.replied_ended g).role

theorem State.beatHeard_isHub : (s.beatHeard g f).isHub = s.isHub := by rw [State.isHub, State.beatHeard_role]; rfl

theorem State.beatHeard_cable : (s.beatHeard g f).cable = s.cable := (s.replied_ended g).cable

theorem State.beatHeard_notices : (s.beatHeard g f).notices = (s.replied g).notices := rfl

theorem State.beatHeard_tx : (s.beatHeard g f).tx = none := by
  show (s.replied g).tx = none
  unfold State.replied
  rfl

theorem State.beatHeard_lane (c : LaneId) : (s.beatHeard g f).lane c = s.lane c := by
  rw [State.lane, State.beatHeard_lanes]; rfl

theorem State.spares_beatHeard : s.Spares g (s.beatHeard g f) := (s.spares_replied g).trans (State.spares_modLeg _ g _ rfl)

theorem State.beatHeard_ground : s.SameGround (s.beatHeard g f) g where
  role := s.beatHeard_role g f
  time := s.beatHeard_time g f
  cable := s.beatHeard_cable g f
  leg := by rw [State.beatHeard_leg]; rfl
  lanes := fun c => by rw [State.beatHeard_lane]; exact ⟨rfl, rfl, rfl⟩

end

/-! ### What applying an item leaves alone -/

section
variable (s : State) (g : LegId)

theorem State.aside_enterUp : s.EngineAside (s.enterUp g) g := by
  unfold State.enterUp
  exact .after (State.aside_queuePhase _ g .run 0) (((s.aside_enter g .up .verified none).trans (.modLeg _ g (f := fun l =>
    { l with upSince := some s.time }) fun _ => rfl)).then_eq rfl rfl rfl rfl)

theorem State.aside_decideVerify : s.EngineAside (s.decideVerify g).1 g := by
  unfold State.decideVerify
  split
  · exact .ite (s.aside_enterUp g) (s.aside_attemptFails g _)
  · exact .refl s g

theorem State.aside_retrain : s.EngineAside (s.retrain g) g :=
  .ite (.after (State.aside_enterTrain _ g .retrain 1) (.modLeg s g fun _ => rfl)) (s.aside_enterFault g _)

theorem State.aside_standbyVerify (cause : LegCause) : s.EngineAside (s.standbyVerify g cause) g := by
  unfold State.standbyVerify
  exact .after (.modLeg _ g fun _ => rfl) (.after (State.aside_startDeadline _ g _) (.after (State.aside_queuePhase _ g .verify 4)
    (.after (.modLeg _ g fun _ => rfl) (s.aside_enter g .verify cause _))))

theorem State.aside_powerTaken (p : Power) (cause : LegCause) : s.EngineAside (s.powerTaken g p cause) g := by
  cases p with
  | standby => exact (s.aside_enter g .standby cause none).trans (State.aside_queuePhase _ g .standby 0)
  | sleep =>
    exact .ite (s.aside_enter g .sleep cause none) (.after (State.aside_queuePhase _ g .sleep 0)
      (.after (.modLeg _ g fun _ => rfl) (s.aside_enter g .sleep cause none)))
  | active =>
    unfold State.powerTaken
    dsimp only
    split
    · exact s.aside_standbyVerify g cause
    · exact s.aside_enterListen g cause _ _
    · exact .refl s g

theorem State.aside_drainedTap (d : List Byte) : s.EngineAside (s.drainedTap g d) g := by
  unfold State.drainedTap
  split
  · split
    · refine .ite (.after (.requeue _ g fun l => l.queueStatus_requeued _) ?_) (.refl s g)
      rw [State.applyTaps_rest]
      exact .of_eq rfl rfl rfl rfl
    · exact .refl s g
  · exact .refl s g

theorem State.aside_drainedPower (code : Byte) : s.EngineAside (s.drainedPower g code) g := by
  unfold State.drainedPower
  split
  · exact (EngineAside.ite (s.aside_powerTaken g _ _) (.refl s g)).posted _ _ _
  · exact .of_eq rfl rfl rfl rfl

theorem State.aside_drained (item : Byte) (d : List Byte) : s.EngineAside (s.drained g item d) g := by
  unfold State.drained
  refine .ite (.refl s g) ?_
  split
  · exact s.aside_drainedTap g d
  · exact .ite (.after (State.aside_checkTrained _ g) (.modLeg s g fun _ => rfl)) (.refl s g)
  · exact .ite (.after (State.aside_decideVerify _ g) (.modLeg s g fun _ => rfl)) (.refl s g)
  · exact .ite (s.aside_retrain g) (.refl s g)
  · exact s.aside_drainedPower g _
  · exact .refl s g

/-- The other legs, the pins and the role are left alone. -/
theorem State.drained_leaves (item : Byte) (d : List Byte) : (s.drained g item d).role = s.role
    ∧ (∀ k, k ≠ g → (s.drained g item d).leg k = s.leg k)
    ∧ ∀ c, ((s.drained g item d).lane c).pinned = (s.lane c).pinned := by
  have framed {t : State} (h : s.LegFrame g t) : t.role = s.role ∧ (∀ k, k ≠ g → t.leg k = s.leg k)
      ∧ ∀ c, (t.lane c).pinned = (s.lane c).pinned :=
    ⟨h.role, h.others, fun c => by obtain ⟨-, pinned, -⟩ := h.taps c; exact pinned⟩
  have stays := framed (.refl s g)
  have applied (i : WinIx) (q : TapRequest) (c : LaneId) : ((s.applyTaps g i q).lane c).pinned = (s.lane c).pinned := by
    rcases s.applyTaps_cases g i q with ⟨-, e⟩ | ⟨-, e⟩ <;> rw [e]
    rw [State.writeTaps, State.modLane_lane]
    split
    · rename_i same; rw [same]
    · rfl
  have tapped : (s.drainedTap g d).role = s.role ∧ (∀ k, k ≠ g → (s.drainedTap g d).leg k = s.leg k)
      ∧ ∀ c, ((s.drainedTap g d).lane c).pinned = (s.lane c).pinned := by
    unfold State.drainedTap
    split
    · split
      · dsimp only
        split
        · refine ⟨?_, fun k hk => ?_, fun c => applied _ _ c⟩
          · rw [State.applyTaps_rest]; rfl
          · rw [State.modLeg_leg_other _ _ hk, State.applyTaps_rest]; rfl
        · exact stays
      · exact stays
    · exact stays
  unfold State.drained
  split
  · exact stays
  · split
    · exact tapped
    · exact framed (s.acts_drainedTrainDone g _).toLegFrame
    · exact framed (s.acts_drainedVerify g _ _).toLegFrame
    · exact framed (s.acts_drainedRetrain g).toLegFrame
    · exact framed (s.acts_drainedPower g _).toLegFrame
    · exact stays

end

/-! ### No beat follows the last one (R153) -/

theorem State.startNext_takenBeat {s t : State} {k : LegId} (done : (s.leg k).drainDone = true) (h : s.startNext k = some t) :
    (t.leg k).beatTaken = (s.leg k).beatTaken := by
  cases head : (s.leg k).queue.head? with
  | some i =>
    obtain ⟨x, starts⟩ := State.startNext_starts h
    have work := starts.work
    rw [head] at work
    rw [starts.taken, if_neg]
    rw [work]
    exact nofun
  | none =>
    unfold State.startNext at h
    rw [head] at h
    simp [done] at h

/-- With the drain-done mark set no beat starts, so the one taken stays so. -/
theorem State.arbitrate_takenBeat {s : State} {g : LegId} (taken : (s.leg g).beatTaken = true)
    (done : (s.leg g).drainDone = true) (ends : Bool) : ((s.arbitrate ends).leg g).beatTaken = true := by
  refine (State.arbitrate_induct (P := fun t => (t.leg g).beatTaken = true ∧ (t.leg g).drainDone = true) ⟨taken, done⟩
    (fun r => ?_) (fun t x h => h) (fun t k u h _ _ _ next => ?_) ends).1
  · rw [State.endGrant_leg]
    exact ⟨taken, done⟩
  · obtain ⟨taken, done⟩ := h
    refine ⟨?_, (Leg.field_of_apart ((State.startNext_trafficOnly next).2 g) Leg.drainDone fun _ => rfl).trans done⟩
    by_cases e : g = k
    · subst e
      exact (State.startNext_takenBeat done next).trans taken
    · rw [State.startNext_leg_other next e]
      exact taken

/-! ### An item that is discarded -/

/-- From s to t the good ACK and its beat are all there was, but for notices and the choice point. -/
def State.BeatAlone (s : State) (g : LegId) (t : State) : Prop :=
  (t.leg g).apart = { (s.leg g).apart with timeouts := 0, sbLost := false, drainDone := (t.leg g).drainDone }
    ∧ (∀ k, (t.leg k).state = (s.leg k).state) ∧ t.lanes = s.lanes ∧ s.settingKept t

theorem State.drainsTo_alone {s : State} {g : LegId} {f : ResponseBody}
    (idle : (s.beatHeard g f).drained g f.item f.data
      = { s.beatHeard g f with notices := ((s.beatHeard g f).drained g f.item f.data).notices }) :
    s.BeatAlone g (s.drainsTo g f) := by
  have leg (k : LegId) : ((s.beatHeard g f).drained g f.item f.data).leg k = (s.beatHeard g f).leg k := by rw [idle]; rfl
  have apart : ((s.drainsTo g f).leg g).apart = ({ s.leg g with
      timeouts := 0, sbLost := false, beatTaken := true
      drainDone := (s.leg g).drainDone || f.item == 0 || !f.more } : Leg).apart := by
    rw [State.drainsTo, State.arbitrate_apart, leg, State.beatHeard_leg]
  refine ⟨?_, fun k => ?_, ?_, State.settingKept_trans (State.settingKept_trans (s.spares_beatHeard g f).setting ?_)
    (State.arbitrate_settingKept _ _)⟩
  · rw [Leg.field_of_apart apart Leg.drainDone fun _ => rfl]
    exact apart
  · rw [State.drainsTo, State.arbitrate_state, leg]
    by_cases own : k = g
    · rw [own, State.beatHeard_leg]
    · exact Leg.field_of_apart ((s.spares_beatHeard g f).others k own) Leg.state fun _ => rfl
  · rw [State.drainsTo, State.arbitrate_lanes, idle]
    exact s.beatHeard_lanes g f
  · rw [idle]
    exact ⟨rfl, rfl, rfl, rfl, rfl⟩

/-- In FAULT every item is discarded (R40). -/
theorem State.drainsTo_discarded {s : State} {g : LegId} {f : ResponseBody} (idle : ((s.beatHeard g f).leg g).state ≠ .fault →
    (s.beatHeard g f).drained g f.item f.data = s.beatHeard g f) : s.BeatAlone g (s.drainsTo g f) := by
  by_cases fault : ((s.beatHeard g f).leg g).state = .fault
  · exact State.drainsTo_alone (by rw [show (s.beatHeard g f).drained g f.item f.data = s.beatHeard g f from if_pos fault])
  · exact State.drainsTo_alone (by rw [idle fault])

end Sys2Proof.Machine
end

