-- ==== Sys2Proof/Proofs/DrainedItems.lean ====
section
/-! SUPPORT. The items drained from an END, one kind at a time (R60, R33, R35, R101, R116), each applied in the state that the ACK of
its beat leaves (`State.beatHeard`). -/

open Sys2Proof Sys2Proof.Machine

namespace Sys2Proof.Machine

/-! ### The item by its kind (R159) -/

section
variable {u : State} {g : LegId} {d : List Byte} (awake : (u.leg g).state ≠ .fault)
include awake

theorem State.drained_tapRequest : u.drained g 5 d = u.drainedTap g d := if_neg awake

theorem State.drained_trainDone : u.drained g 7 d = u.drainedTrainDone g (natAt d 0) := if_neg awake

theorem State.drained_verifyResult : u.drained g 8 d = u.drainedVerify g (natAt d 0) (natAt d 1 == 1) := if_neg awake

theorem State.drained_retrainRequest : u.drained g 9 d = u.drainedRetrain g := if_neg awake

theorem State.drained_powerRequest : u.drained g 10 d = u.drainedPower g (d.getD 0 0) := if_neg awake

end

section
variable {s w : State} {g : LegId} {f : ResponseBody}

theorem State.beatHeard_state (s : State) (g : LegId) (f : ResponseBody) :
    ((s.beatHeard g f).leg g).state = (s.leg g).state := by rw [State.beatHeard_leg]

theorem State.beatHeard_attempt (s : State) (g : LegId) (f : ResponseBody) :
    ((s.beatHeard g f).leg g).attempt = (s.leg g).attempt := by rw [State.beatHeard_leg]

theorem State.drainsTo_eq (applied : (s.beatHeard g f).drained g f.item f.data = w) :
    s.drainsTo g f = w.arbitrate (f.item == 0 || !f.more) := by rw [State.drainsTo, applied]

theorem State.drainsTo_onward (applied : (s.beatHeard g f).drained g f.item f.data = w) : w.Onward (s.drainsTo g f) := by
  rw [State.drainsTo_eq applied]
  exact w.onward_arbitrate _

theorem State.drainsTo_field (applied : (s.beatHeard g f).drained g f.item f.data = w) {α : Type} (p : Leg → α)
    (apart : ∀ l : Leg, p l.apart = p l) (k : LegId) : p ((s.drainsTo g f).leg k) = p (w.leg k) := by
  rw [State.drainsTo_eq applied]
  exact State.arbitrate_field p apart w _ k

/-- An item that leg g's controller applies. -/
theorem State.drainsTo_kept (applied : (s.beatHeard g f).drained g f.item f.data = w) (frame : (s.beatHeard g f).LegFrame g w) :
    s.tapsKept (s.drainsTo g f) ∧ s.othersKept (s.drainsTo g f) g ∧ (w.cable = (s.beatHeard g f).cable
      → s.settingKept (s.drainsTo g f)) := by
  have before := s.spares_beatHeard g f
  rw [State.drainsTo_eq applied]
  refine ⟨fun c => ?_, fun k hk => ?_, fun cable => ?_⟩
  · rw [State.arbitrate_lane]
    have kept := frame.taps c
    rw [State.beatHeard_lane] at kept
    exact kept
  · rw [State.arbitrate_apart, frame.others k hk]
    exact before.others k hk
  · exact State.settingKept_trans (State.settingKept_trans before.setting (frame.settingKept cable))
      (State.arbitrate_settingKept _ _)

end

/-! ### TAP_REQUEST (R60, R61) -/

theorem Leg.queueStatus_carries (l : Leg) (u : TapStatus) : (l.queueStatus u).carries .hubRole (.storeStatus u) := by
  unfold Leg.queueStatus
  split
  · rename_i room
    rw [Leg.push_room room]
    exact .inl (List.mem_append_right _ (List.mem_singleton_self _))
  · exact .inr (Leg.mem_heldItems.mpr (.inl ⟨rfl, .inr ⟨u.index, by simp⟩⟩))

theorem State.drainedTap_applies {u : State} {g : LegId} {d : List Byte} {q : TapRequest} {i : WinIx}
    (reads : parseTapRequest d = some q) (index : natAt d 0 = i.val) (window : u.hasIndex g i) (train : (u.leg g).state = .train) :
    u.drainedTap g d = (u.applyTaps g i q).modLeg g (fun l => l.queueStatus (u.tapOutcome g i q)) := by
  obtain ⟨n, lt⟩ := i
  subst index
  unfold State.drainedTap
  rw [reads]
  exact (dif_pos lt).trans (if_pos ⟨train, window⟩)

/-- What a request applied and answered by a TAP_STATUS in the queue moves. -/
theorem State.queuedStatus_moves (u : State) {g : LegId} {i : WinIx} {q : TapRequest} (o : TapStatus)
    (lawful : (u.lane (u.winLane g i)).taps.lawful) :
    let w := (u.applyTaps g i q).modLeg g (fun l => l.queueStatus o)
    w.role = u.role ∧ (∀ c, w.lane c = if c = u.winLane g i then { u.lane (u.winLane g i) with
        taps := (u.tapOutcome g i q).taps
        settleUntil := if (u.tapOutcome g i q).pre = .updated ∨ (u.tapOutcome g i q).post = .updated then some (u.after 300)
          else (u.lane (u.winLane g i)).settleUntil } else u.lane c)
      ∧ w.leg g = (u.leg g).queueStatus o ∧ (∀ k, k ≠ g → w.leg k = u.leg k) ∧ u.settingKept w := by
  intro w
  have legs (k : LegId) : (u.applyTaps g i q).leg k = u.leg k := by rw [State.applyTaps_rest]; rfl
  have kept : u.settingKept (u.applyTaps g i q) := by rw [State.applyTaps_rest]; exact ⟨rfl, rfl, rfl, rfl, rfl⟩
  refine ⟨kept.1, u.applyTaps_lane g i q lawful, ?_, fun k hk => ?_, kept⟩
  · rw [State.modLeg_leg_same, legs]
  · rw [State.modLeg_leg_other _ _ hk, legs]

theorem State.drainedTap_discards {u : State} {g : LegId} {d : List Byte}
    (h : (u.leg g).state ≠ .train ∨ parseTapRequest d = none ∨ ∀ i : WinIx, natAt d 0 = i.val → u.hasIndex g i = false) : u.drainedTap g d = u := by
  unfold State.drainedTap
  split
  · rename_i q reads
    split
    · rename_i lt
      refine if_neg fun ⟨train, window⟩ => ?_
      rcases h with other | none | outside
      · exact other train
      · rw [none] at reads; cases reads
      · rw [outside ⟨natAt d 0, lt⟩ rfl] at window; cases window
    · rfl
  · rfl

/-! ### TRAIN_DONE (R33) -/

/-- The state in which a HUB knows its far end trained. -/
def State.farMarked (u : State) (g : LegId) : State := u.modLeg g (fun l => { l with farTrained := true })

theorem State.farMarked_leg (u : State) (g : LegId) : (u.farMarked g).leg g = { u.leg g with farTrained := true } :=
  u.modLeg_leg_same g _

theorem State.drainedTrainDone_takes {u : State} {g : LegId} {n : Nat} (train : (u.leg g).state = .train)
    (attempt : (u.leg g).attempt = some n) : u.drainedTrainDone g n
      = if (u.leg g).localTrained then (u.farMarked g).enterAdapt g else u.farMarked g := by
  have marked := u.modLeg_leg_same g (fun l => { l with farTrained := true })
  unfold State.drainedTrainDone State.checkTrained
  rw [if_pos ⟨train, attempt⟩, marked]
  by_cases trained : (u.leg g).localTrained = true
  · rw [if_pos ⟨trained, rfl⟩, if_pos trained]
    rfl
  · rw [if_neg fun h => trained h.1, if_neg trained]
    rfl

theorem State.drainedTrainDone_discards {u : State} {g : LegId} {n : Nat}
    (h : (u.leg g).state ≠ .train ∨ (u.leg g).attempt ≠ some n) : u.drainedTrainDone g n = u := if_neg fun k => h.elim (absurd k.1) (absurd k.2)

/-! ### VERIFY_RESULT (R35) -/

/-- The state in which a HUB keeps the far VERIFY result. -/
def State.farResolved (u : State) (g : LegId) (pass : Bool) : State := u.modLeg g (fun l => { l with farVerify := some pass })

theorem State.farResolved_leg (u : State) (g : LegId) (pass : Bool) :
    (u.farResolved g pass).leg g = { u.leg g with farVerify := some pass } := u.modLeg_leg_same g _

theorem State.drainedVerify_takes {u : State} {g : LegId} {n : Nat} (verify : (u.leg g).state = .verify)
    (attempt : (u.leg g).attempt = some n) (pass : Bool) : u.drainedVerify g n pass = match (u.leg g).localVerify with
      | some b => if b && pass then (u.farResolved g pass).enterUp g else (u.farResolved g pass).attemptFails g .verifyFailed
      | none => u.farResolved g pass := by
  have marked := u.modLeg_leg_same g (fun l => { l with farVerify := some pass })
  unfold State.drainedVerify State.decideVerify
  rw [if_pos ⟨verify, attempt⟩, marked]
  cases (u.leg g).localVerify with
  | none => rfl
  | some b => rfl

theorem State.drainedVerify_discards {u : State} {g : LegId} {n : Nat}
    (h : (u.leg g).state ≠ .verify ∨ (u.leg g).attempt ≠ some n) (pass : Bool) : u.drainedVerify g n pass = u := if_neg fun k => h.elim (absurd k.1) (absurd k.2)

/-! ### POWER_REQUEST (R116) -/

/-- A power request posts two records at most. -/
theorem State.powerTaken_few {u : State} {g : LegId} {n : Nat} (few : u.notices.records.length ≤ n) (p : Power) (cause : LegCause) :
    (u.powerTaken g p cause).notices.records.length ≤ n + 2 := by
  have entered (new : LegState) (a : Option Nat) : (u.enter g new cause a).notices.records.length ≤ n + 2 :=
    Nat.le_succ_of_le (NoticeQueue.length_post few)
  cases p with
  | standby => exact entered .standby none
  | sleep =>
    unfold State.powerTaken
    dsimp only
    split
    · exact entered .sleep none
    · exact entered .sleep none
  | active =>
    unfold State.powerTaken
    dsimp only
    split
    · exact entered .verify (some 4)
    · rename_i sleep
      have listened : (u.listened g cause false (u.leg g).farId.isSome).notices.records.length ≤ n + 1 := by
        rw [State.listened_notices]
        exact NoticeQueue.length_post few
      rcases State.enterListen_cases (s := u) (g := g) cause false (u.leg g).farId.isSome with e | ⟨-, -, e⟩ | ⟨-, e⟩ <;>
        rw [e]
      · exact Nat.le_succ_of_le listened
      · obtain ⟨-, -, -, -, notices⟩ := (u.listened g cause false (u.leg g).farId.isSome).enterProbe_rest g
        rw [notices]
        exact NoticeQueue.length_post listened
      · exact Nat.le_succ_of_le listened
    · exact Nat.le_add_right_of_le few

theorem State.drainedPower_accepted {u : State} {g : LegId} {code : Byte} {p : Power} (named : Power.ofCode code.toNat = some p)
    (accepted : powerAccepted p (u.leg g).state = true) : u.drainedPower g code
      = (u.powerTaken g p .powerFar).post .farPower (some g) [code, 0, byteOf ((u.powerTaken g p .powerFar).leg g).state.code] := by
  unfold State.drainedPower State.powerRequest
  rw [named]
  simp only [accepted, if_true]

theorem State.drainedPower_refused {u : State} {g : LegId} {code : Byte} {p : Power} (named : Power.ofCode code.toNat = some p)
    (refused : powerAccepted p (u.leg g).state = false) : u.drainedPower g code
      = u.post .farPower (some g) [code, 1, byteOf (u.leg g).state.code] := by
  unfold State.drainedPower State.powerRequest
  rw [named]
  simp only [refused, Bool.false_eq_true, if_false]

theorem State.drainedPower_unknown {u : State} {g : LegId} {code : Byte} (beyond : 2 < code.toNat) : u.drainedPower g code
      = u.post .farPower (some g) [code, 1, byteOf (u.leg g).state.code] := by
  unfold State.drainedPower
  rw [Power.ofCode_beyond beyond]

/-- From s to t leg g's power request has been accepted, with v the state its effect leaves (R116). -/
structure State.FarPowered (s : State) (g : LegId) (code : Byte) (v t : State) : Prop where
  onward : v.Onward t
  apart : (t.leg g).apart = (v.leg g).apart
  spares : s.Spares g t
  posted : s.notices.records = [] → t.notices.shows .farPower (some g) [code, 0, byteOf (t.leg g).state.code]
  quiet : v.noPhase g → t.noPhase g

theorem State.FarPowered.of_applied {s v : State} {g : LegId} {f : ResponseBody} {code : Byte} (hub : v.isHub) (spares : s.Spares g v)
    (few : s.notices.records = [] → v.notices.records.length ≤ 3) (applied : (s.beatHeard g f).drained g f.item f.data
      = v.post .farPower (some g) [code, 0, byteOf (v.leg g).state.code]) : s.FarPowered g code v (s.drainsTo g f) := by
  rw [State.drainsTo_eq applied]
  set w := v.post .farPower (some g) [code, 0, byteOf (v.leg g).state.code] with post
  refine ⟨State.Onward.trans (t := w) (.of_eq rfl rfl rfl rfl rfl) (State.onward_arbitrate _ _), w.arbitrate_apart _ g,
    (spares.trans (v.spares_post g _ _ _)).arbitrated _, fun empty => ?_, fun quiet => State.noPhase_arbitrate (s := w) hub quiet _⟩
  rw [State.arbitrate_notices, State.arbitrate_state, post]
  exact NoticeQueue.shows_post (Nat.lt_of_le_of_lt (few empty) (by decide))

section
variable {s : State} {g : LegId} {f : ResponseBody} {code : Byte} (item : f.item = 10) (data : f.data = [code])
include item data

theorem State.drained_power (awake : (s.leg g).state ≠ .fault) :
    (s.beatHeard g f).drained g f.item f.data = (s.beatHeard g f).drainedPower g code := by
  rw [item, data]
  exact State.drained_powerRequest (by rw [State.beatHeard_state]; exact awake)

theorem State.drainsTo_powered (hub : s.isHub) {p : Power} (named : Power.ofCode code.toNat = some p)
    (awake : (s.leg g).state ≠ .fault) (accepted : powerAccepted p (s.leg g).state = true) :
    s.FarPowered g code ((s.beatHeard g f).powerTaken g p .powerFar) (s.drainsTo g f) := by
  have applied := (State.drained_power (s := s) (g := g) item data awake).trans
    (State.drainedPower_accepted named (by rw [State.beatHeard_state]; exact accepted))
  refine .of_applied ?_ ((s.spares_beatHeard g f).trans (State.spares_powerTaken _ g .powerFar p)) (fun empty => ?_) applied
  · rw [State.isHub, (State.acts_powerTaken _ g p .powerFar).role, State.beatHeard_role]
    exact hub
  · exact State.powerTaken_few (n := 1) (by rw [State.beatHeard_notices]; exact (State.replied_few empty g).1) p .powerFar

/-- A power request that moves no leg: refused, unknown, or ACTIVE with nothing to do. -/
theorem State.drained_powerIdle (idle : (code = 0 ∧ (s.leg g).state ≠ .standby ∧ (s.leg g).state ≠ .sleep)
      ∨ (code = 1 ∧ (s.leg g).state.inService = false)
      ∨ (code = 2 ∧ (s.leg g).state.inService = false ∧ (s.leg g).state ≠ .standby ∧ (s.leg g).state ≠ .listen)
      ∨ 2 < code.toNat) (awake : (s.leg g).state ≠ .fault) : (s.beatHeard g f).drained g f.item f.data = (s.beatHeard g f).post .farPower (some g)
      [code, if code = 0 then 0 else 1, byteOf (s.leg g).state.code] := by
  have state := s.beatHeard_state g f
  rw [State.drained_power item data awake]
  rcases idle with ⟨rfl, standby, sleep⟩ | ⟨rfl, outside⟩ | ⟨rfl, outside, standby, listen⟩ | beyond
  · rw [State.drainedPower_accepted (p := .active) rfl rfl,
      State.powerTaken_active_elsewhere .powerFar (by rw [state]; exact standby) (by rw [state]; exact sleep), state]
    rfl
  · rw [State.drainedPower_refused (p := .standby) rfl (powerAccepted_eq_false nofun (by rw [state]; exact outside) nofun), state]
    rfl
  · rw [State.drainedPower_refused (p := .sleep) rfl (powerAccepted_eq_false nofun (by rw [state]; exact outside)
      fun _ => by rw [state]; exact ⟨standby, listen⟩), state]
    rfl
  · rw [State.drainedPower_unknown beyond, state, if_neg]
    rintro rfl
    exact absurd beyond (by decide)

end

/-- At a HUB with a free engine an entry to LISTEN of which the END is not told leaves no PHASE on its way. -/
theorem State.enterListen_untold {u : State} {g : LegId} (hub : u.isHub) (free : u.tx = none) (cause : LegCause) :
    (u.enterListen g cause false false).noPhase g := by
  have idle := (u.aside_enterListen g cause false false).free free
  refine State.noPhase_iff.mpr ⟨⟨fun i hi => ?_, ?_⟩, fun x hx => by rw [idle] at hx; cases hx⟩
  · rw [State.enterListen_queue_hub cause false hub] at hi
    have probe : i = .probe (u.ident g) := by
      revert hi
      cases u.allPresent g <;> simp
    rw [probe]
    rfl
  · rcases State.enterListen_cases (s := u) (g := g) cause false false with e | ⟨-, -, e⟩ | ⟨-, e⟩ <;> rw [e]
    · rw [State.listened_leg]; rfl
    · rw [State.enterProbe_leg, State.listened_leg]
      unfold Leg.push
      split <;> rfl
    · rw [State.modLeg_leg_same, State.listened_leg]; rfl

/-! ### The part after the ACK, kind by kind -/

section
variable {s : State} {g : LegId} {f : ResponseBody}

/-- The ACK with no item, or with no more to come, is the last beat until the END signals again (R153, R158). -/
theorem State.drainsTo_last (hub : s.isHub) (last : f.item = 0 ∨ f.more = false) : ((s.drainsTo g f).leg g).beatTaken = true
    ∧ ((s.drainsTo g f).leg g).drainDone = true ∧ (∀ k, k ≠ g → ((s.drainsTo g f).leg k).state = (s.leg k).state)
    ∧ (∀ k, ((s.drainsTo g f).lane k).pinned = (s.lane k).pinned) ∧ s.grantEnded (s.drainsTo g f) := by
  have ends : (f.item == 0 || !f.more) = true := by
    rcases last with e | e <;> simp [e]
  have aside := (s.beatHeard g f).aside_drained g f.item f.data
  obtain ⟨role, others, pinned⟩ := (s.beatHeard g f).drained_leaves g f.item f.data
  have taken := aside.beatTaken
  have done := aside.drainDone
  rw [State.beatHeard_leg] at taken done
  rw [show ((s.leg g).drainDone || f.item == 0 || !f.more) = true by rw [Bool.or_assoc, ends, Bool.or_true]] at done
  have isHub : ((s.beatHeard g f).drained g f.item f.data).isHub := by
    rw [State.isHub, role, State.beatHeard_role]
    exact hub
  unfold State.drainsTo
  rw [ends]
  refine ⟨State.arbitrate_takenBeat taken done true, ?_, fun k hk => ?_, fun c => ?_,
    State.arbitrate_grantEnded isHub (aside.free (s.beatHeard_tx g f)) (aside.grant.trans (s.replied_traffic g).1)⟩
  · rw [State.arbitrate_field Leg.drainDone fun _ => rfl]
    exact done
  · rw [State.arbitrate_state, others k hk]
    exact Leg.field_of_apart ((s.spares_beatHeard g f).others k hk) Leg.state fun _ => rfl
  · rw [State.arbitrate_lane, pinned, State.beatHeard_lane]

theorem State.beatHeard_ident : (s.beatHeard g f).ident g = s.ident g := by
  unfold State.ident
  rw [State.beatHeard_role, State.beatHeard_cable, State.beatHeard_leg]

theorem State.beatHeard_noPhase (quiet : s.noPhase g) : (s.beatHeard g f).noPhase g := by
  obtain ⟨own, -⟩ := State.noPhase_iff.mp quiet
  refine State.noPhase_iff.mpr ⟨?_, fun x hx => by rw [State.beatHeard_tx] at hx; cases hx⟩
  rw [State.beatHeard_leg]
  exact ⟨own.queue, own.overflow⟩

theorem State.beatHeard_tapOutcome (i : WinIx) (q : TapRequest) : (s.beatHeard g f).tapOutcome g i q = s.tapOutcome g i q :=
  State.tapOutcome_congr (s.beatHeard_lanes g f) (s.beatHeard_cable g f) (s.beatHeard_ground g f).window i q

/-- A TAP_REQUEST in TRAIN moves the local taps of its lane, and its TAP_STATUS is on its way (R60). -/
theorem State.drainsTo_tapRequest (hub : s.isHub) (item : f.item = 5) {q : TapRequest} {i : WinIx}
    (reads : parseTapRequest f.data = some q) (index : natAt f.data 0 = i.val) (window : s.hasIndex g i)
    (train : (s.leg g).state = .train) (lawful : (s.lane (s.winLane g i)).taps.lawful) :
    ((s.drainsTo g f).lane (s.winLane g i)).taps = (s.tapOutcome g i q).taps
      ∧ (∀ c, c ≠ s.winLane g i → (s.drainsTo g f).lane c = s.lane c) ∧ ((s.drainsTo g f).leg g).state = .train
      ∧ s.othersKept (s.drainsTo g f) g ∧ s.settingKept (s.drainsTo g f)
      ∧ (s.drainsTo g f).sends g (.storeStatus (s.tapOutcome g i q)) := by
  have ground := s.beatHeard_ground g f
  have winLane : (s.beatHeard g f).winLane g i = s.winLane g i := State.winLane_congr ground.window i
  have state := (s.beatHeard_state g f).trans train
  have applied : (s.beatHeard g f).drained g f.item f.data
      = ((s.beatHeard g f).applyTaps g i q).modLeg g (fun l => l.queueStatus (s.tapOutcome g i q)) := by
    rw [item, State.drained_tapRequest (by rw [state]; decide), State.drainedTap_applies reads index
      ((State.hasIndex_congr ground.window i).trans window) state, State.beatHeard_tapOutcome]
  obtain ⟨role, lanes, own, others, setting⟩ := (s.beatHeard g f).queuedStatus_moves (i := i) (q := q) (s.tapOutcome g i q)
    (by rw [winLane, State.beatHeard_lane]; exact lawful)
  have onward := State.drainsTo_onward applied
  have before := s.spares_beatHeard g f
  refine ⟨?_, fun c hc => ?_, ?_, fun k hk => ?_, ?_, onward.sends _ _ (State.sends_of_carries ?_)⟩
  · rw [onward.lane, lanes, winLane, if_pos rfl, State.beatHeard_tapOutcome]
  · rw [onward.lane, lanes, winLane, if_neg hc, State.beatHeard_lane]
  · rw [onward.state, own, (Leg.queueStatus_requeued _ _).state, state]
  · rw [State.drainsTo_eq applied, State.arbitrate_apart, others k hk]
    exact before.others k hk
  · rw [State.drainsTo_eq applied]
    exact State.settingKept_trans (State.settingKept_trans before.setting setting) (State.arbitrate_settingKept _ _)
  · rw [role, own, State.beatHeard_role, show s.role = .hubRole by simpa [State.isHub] using hub]
    exact Leg.queueStatus_carries _ _

/-- A RETRAIN_REQUEST in service below three retrains (R37, R101). -/
theorem State.drainsTo_retrains (item : f.item = 9) (service : (s.leg g).state.inService) (more : (s.leg g).retrains < 3) :
    s.BeginsTrain (s.drainsTo g f) g 1 (s.leg g).negRate
      ∧ ((s.drainsTo g f).leg g).retrains = (s.leg g).retrains + 1 ∧ ((s.drainsTo g f).leg g).errCount = 0
      ∧ s.tapsKept (s.drainsTo g f) ∧ s.othersKept (s.drainsTo g f) g := by
  have leg := (s.beatHeard g f).retrained_leg g
  rw [State.beatHeard_leg] at leg
  have handed : (s.beatHeard g f).drained g f.item f.data = (s.beatHeard g f).retrain g := by
    rw [item, State.drained_retrainRequest (by rw [State.beatHeard_state]; intro h; rw [h] at service; cases service)]
    exact if_pos (by rw [State.beatHeard_state]; exact service)
  have applied := handed.trans (State.retrain_again (by rw [State.beatHeard_leg]; exact more))
  have apart := ((s.beatHeard g f).retrained g).enterTrain_apart g .retrain 1
  rw [leg] at apart
  have own {α : Type} (p : Leg → α) (h : ∀ l : Leg, p l.apart = p l) :=
    (State.drainsTo_field applied p h g).trans (Leg.field_of_apart apart p h)
  have begins := ((s.beatHeard g f).retrained g).enterTrain_begins g .retrain (Nat.le_refl 1)
  rw [show (((s.beatHeard g f).retrained g).leg g).negRate = (s.leg g).negRate by rw [leg]] at begins
  obtain ⟨taps, others, -⟩ := State.drainsTo_kept handed ((s.beatHeard g f).acts_retrain g).toLegFrame
  have same := begins.of_same (s := s) (u := (s.beatHeard g f).retrained g) (s.beatHeard_role g f) (s.beatHeard_time g f)
    (s.beatHeard_cable g f) (by rw [leg]) (by rw [leg]) (s.beatHeard_ground g f).lanes
  exact ⟨(State.drainsTo_onward applied).beginsTrain same, own Leg.retrains fun _ => rfl, own Leg.errCount fun _ => rfl, taps,
    others⟩

/-- The fourth retrain is a fault (R101). -/
theorem State.drainsTo_retrainFaults (item : f.item = 9) (service : (s.leg g).state.inService) (last : 3 ≤ (s.leg g).retrains) :
    ((s.drainsTo g f).leg g).state = .fault ∧ ((s.drainsTo g f).leg g).lastFault = .errorLimit
      ∧ ((s.drainsTo g f).leg g).retrains = (s.leg g).retrains ∧ s.tapsKept (s.drainsTo g f)
      ∧ s.othersKept (s.drainsTo g f) g := by
  have state := s.beatHeard_state g f
  have handed : (s.beatHeard g f).drained g f.item f.data = (s.beatHeard g f).retrain g := by
    rw [item, State.drained_retrainRequest (by rw [state]; intro h; rw [h] at service; cases service)]
    exact if_pos (by rw [state]; exact service)
  have applied := handed.trans (State.retrain_last (by rw [State.beatHeard_leg]; exact last))
  have off : ((s.beatHeard g f).leg g).state ≠ .off := by rw [state]; intro h; rw [h] at service; cases service
  have fault : ((s.beatHeard g f).leg g).state ≠ .fault := by rw [state]; intro h; rw [h] at service; cases service
  have own {α : Type} (p : Leg → α) (h : ∀ l : Leg, p l.apart = p l) :=
    (State.drainsTo_field applied p h g).trans (congrArg p (State.enterFault_leg off fault .errorLimit))
  obtain ⟨taps, others, -⟩ := State.drainsTo_kept handed ((s.beatHeard g f).acts_retrain g).toLegFrame
  refine ⟨own Leg.state fun _ => rfl, own Leg.lastFault fun _ => rfl, (own Leg.retrains fun _ => rfl).trans ?_, taps, others⟩
  rw [State.beatHeard_leg]
  rfl

/-- TRAIN_DONE with the leg's attempt, in TRAIN (R33). -/
theorem State.drainsTo_trainDone {n : Nat} (item : f.item = 7) (number : n = natAt f.data 0) (train : (s.leg g).state = .train)
    (attempt : (s.leg g).attempt = some n) :
    (if (s.leg g).localTrained then s.BeginsAdapt (s.drainsTo g f) g n
        else ((s.drainsTo g f).leg g).state = .train ∧ ((s.drainsTo g f).leg g).farTrained = true)
      ∧ s.tapsKept (s.drainsTo g f) ∧ s.othersKept (s.drainsTo g f) g ∧ s.settingKept (s.drainsTo g f) := by
  have state := (s.beatHeard_state g f).trans train
  have attempt' := (s.beatHeard_attempt g f).trans attempt
  have handed : (s.beatHeard g f).drained g f.item f.data = (s.beatHeard g f).drainedTrainDone g n := by
    rw [item, number]
    exact State.drained_trainDone (by rw [state]; decide)
  have applied := handed.trans (State.drainedTrainDone_takes state attempt')
  obtain ⟨taps, others, setting⟩ := State.drainsTo_kept handed ((s.beatHeard g f).acts_drainedTrainDone g n).toLegFrame
  refine ⟨?_, taps, others, setting ?_⟩
  · have marked := (s.beatHeard g f).farMarked_leg g
    have ground : s.SameGround ((s.beatHeard g f).farMarked g) g := (s.beatHeard_ground g f).modLeg fun _ => rfl
    rw [show ((s.beatHeard g f).leg g).localTrained = (s.leg g).localTrained by rw [State.beatHeard_leg]] at applied
    by_cases trained : (s.leg g).localTrained = true
    · rw [if_pos trained] at applied ⊢
      have begins := State.enterAdapt_begins (s := (s.beatHeard g f).farMarked g) (g := g) (by rw [marked]; exact attempt')
      exact (State.drainsTo_onward applied).beginsAdapt (ground.beginsAdapt begins)
    · rw [if_neg trained] at applied ⊢
      have own {α : Type} (p : Leg → α) (h : ∀ l : Leg, p l.apart = p l) :=
        (State.drainsTo_field applied p h g).trans (congrArg p marked)
      exact ⟨(own Leg.state fun _ => rfl).trans state, own Leg.farTrained fun _ => rfl⟩
  · unfold State.drainedTrainDone
    split
    · rw [State.checkTrained_cable]; rfl
    · rfl

/-- VERIFY_RESULT with the leg's attempt, in VERIFY (R35). -/
theorem State.drainsTo_verifyResult (hub : s.isHub) {n : Nat} {rt : Rate} (item : f.item = 8) (number : n = natAt f.data 0)
    (verify : (s.leg g).state = .verify) (attempt : (s.leg g).attempt = some n) (rate : (s.leg g).negRate = some rt) :
    ((s.leg g).localVerify = none → ((s.drainsTo g f).leg g).state = .verify
        ∧ ((s.drainsTo g f).leg g).farVerify = some (natAt f.data 1 == 1))
      ∧ (∀ b, (s.leg g).localVerify = some b →
          if b && natAt f.data 1 == 1 then s.CameUp (s.drainsTo g f) g rt else s.AttemptFailed (s.drainsTo g f) g n)
      ∧ s.tapsKept (s.drainsTo g f) ∧ s.othersKept (s.drainsTo g f) g := by
  have state := (s.beatHeard_state g f).trans verify
  have attempt' := (s.beatHeard_attempt g f).trans attempt
  generalize pass : (natAt f.data 1 == 1) = ok
  have handed : (s.beatHeard g f).drained g f.item f.data = (s.beatHeard g f).drainedVerify g n ok := by
    rw [item, number, ← pass]
    exact State.drained_verifyResult (by rw [state]; decide)
  have applied := handed.trans (State.drainedVerify_takes state attempt' ok)
  rw [show ((s.beatHeard g f).leg g).localVerify = (s.leg g).localVerify by rw [State.beatHeard_leg]] at applied
  have marked := (s.beatHeard g f).farResolved_leg g ok
  have ground : s.SameGround ((s.beatHeard g f).farResolved g ok) g := (s.beatHeard_ground g f).modLeg fun _ => rfl
  obtain ⟨taps, others, -⟩ := State.drainsTo_kept handed ((s.beatHeard g f).acts_drainedVerify g n ok).toLegFrame
  refine ⟨fun waits => ?_, fun b result => ?_, taps, others⟩
  · rw [waits] at applied
    have own {α : Type} (p : Leg → α) (h : ∀ l : Leg, p l.apart = p l) :=
      (State.drainsTo_field applied p h g).trans (congrArg p marked)
    exact ⟨(own Leg.state fun _ => rfl).trans state, own Leg.farVerify fun _ => rfl⟩
  · rw [result] at applied
    by_cases both : (b && ok) = true
    · rw [if_pos both]
      exact (State.drainsTo_onward (applied.trans (if_pos both))).cameUp (ground.cameUp
        (State.enterUp_cameUp (ground.isHub.trans hub) (ground.negRate.trans rate)))
    · rw [if_neg both]
      exact (State.drainsTo_onward (applied.trans (if_neg both))).attemptFailed (ground.attemptFailed
        ((State.AsBefore.refl _ g).attemptFails .verifyFailed (by rw [marked]; exact attempt') (by rw [marked, state]; rfl)
          fun _ _ => ⟨rfl, rfl, rfl⟩))

end

end Sys2Proof.Machine

/-- Settles O23: the item's own lemma gives the state it is applied in, and the choice point follows. -/
theorem drainedItemsAreApplied : Obligations.DrainedItemsAreApplied := by
  unfold Obligations.DrainedItemsAreApplied
  refine ⟨fun s g x f reply work last => ⟨_, exec_sidebandAck_drain reply work, State.drainsTo_last reply.1 last⟩,
    fun s g x f q i reply work item reads index window train lawful =>
      ⟨_, exec_sidebandAck_drain reply work, State.drainsTo_tapRequest reply.1 item reads index window train lawful⟩,
    fun s g x f reply work item service more =>
      ⟨_, exec_sidebandAck_drain reply work, State.drainsTo_retrains item service more⟩,
    fun s g x f reply work item data service => ⟨_, exec_sidebandAck_drain reply work, ?_⟩,
    fun s g x f reply work item other => ⟨_, exec_sidebandAck_drain reply work, State.drainsTo_discarded fun awake => ?_⟩,
    fun s g x f reply work item service last =>
      ⟨_, exec_sidebandAck_drain reply work, State.drainsTo_retrainFaults item service last⟩,
    fun s g x f reply work item outside => ⟨_, exec_sidebandAck_drain reply work, State.drainsTo_discarded fun awake => ?_⟩,
    fun s g x f n reply work item number train attempt =>
      ⟨_, exec_sidebandAck_drain reply work, State.drainsTo_trainDone item number train attempt⟩,
    fun s g x f reply work item other => ⟨_, exec_sidebandAck_drain reply work, State.drainsTo_discarded fun awake => ?_⟩,
    fun s g x f n rt reply work item number bit verify attempt rate =>
      ⟨_, exec_sidebandAck_drain reply work, State.drainsTo_verifyResult reply.1 item number verify attempt rate⟩,
    fun s g x f reply work item other => ⟨_, exec_sidebandAck_drain reply work, State.drainsTo_discarded fun awake => ?_⟩,
    fun s g x f reply work item data state => ⟨_, exec_sidebandAck_drain reply work, ?_⟩,
    fun s g x f reply work item data standby => ⟨_, exec_sidebandAck_drain reply work, ?_⟩,
    fun s g x f reply work item data sleep => ⟨_, exec_sidebandAck_drain reply work, ?_⟩,
    fun s g x f code reply work item data awake idle => ⟨_, exec_sidebandAck_drain reply work, ?_⟩,
    fun s g x f reply work fault => ⟨_, exec_sidebandAck_drain reply work,
      State.drainsTo_discarded fun awake => absurd ((s.beatHeard_state g f).trans fault) awake⟩⟩
  · have powered := State.drainsTo_powered item data reply.1 (p := .standby) rfl (fun h => by rw [h] at service; cases service)
      ((powerAccepted_standby _).trans service)
    have own {α : Type} (p : Leg → α) := Leg.field_of_apart
      (powered.apart.trans (State.powerTaken_standby_apart (s.beatHeard g f) g .powerFar)) p
    have sends := State.powerTaken_standby_sends (s.beatHeard g f) g .powerFar ((s.beatHeard_isHub g f).trans reply.1)
    rw [(s.beatHeard_ground g f).phaseRate] at sends
    rw [State.beatHeard_leg] at own
    exact ⟨own Leg.state fun _ => rfl, own Leg.resume fun _ => rfl, own Leg.errCount fun _ => rfl, powered.spares.taps,
      powered.spares.others, powered.posted, fun rt rate => powered.onward.sends _ _ (by rwa [Leg.phaseRate, rate] at sends)⟩
  · rw [item, State.drained_tapRequest awake]
    refine State.drainedTap_discards ?_
    rw [State.beatHeard_state]
    exact other.imp_right (Or.imp_right fun h i e => (State.hasIndex_congr (s.beatHeard_ground g f).window i).trans (h i e))
  · rw [item, State.drained_retrainRequest awake]
    refine if_neg ?_
    rw [State.beatHeard_state, outside]
    exact Bool.false_ne_true
  · rw [item, State.drained_trainDone awake]
    refine State.drainedTrainDone_discards ?_
    rw [State.beatHeard_state, State.beatHeard_attempt]
    exact other
  · rw [item, State.drained_verifyResult awake]
    refine State.drainedVerify_discards ?_ _
    rw [State.beatHeard_state, State.beatHeard_attempt]
    exact other
  · have awake : (s.leg g).state ≠ .fault := fun h => by simp [h, LegState.inService] at state
    have powered := State.drainsTo_powered item data reply.1 (p := .sleep) rfl awake
      (by simpa [powerAccepted_sleep, or_assoc] using state)
    have own {α : Type} (p : Leg → α) := Leg.field_of_apart
      (powered.apart.trans (State.powerTaken_sleep_apart (s.beatHeard g f) g .powerFar)) p
    rw [State.beatHeard_leg] at own
    refine ⟨own Leg.state fun _ => rfl, own Leg.resume fun _ => rfl, own Leg.errCount fun _ => rfl, powered.posted,
      powered.spares.taps, powered.spares.others, fun rt rate up => powered.onward.sends _ _ ?_,
      fun listen quiet => powered.quiet ?_⟩
    · have sends := State.powerTaken_sleep_sends (v := s.beatHeard g f) (g := g) .powerFar ((s.beatHeard_isHub g f).trans reply.1)
        (by rw [State.beatHeard_state]; exact up)
      rwa [(s.beatHeard_ground g f).phaseRate, Leg.phaseRate, rate] at sends
    · rw [State.powerTaken_sleep_listen (v := s.beatHeard g f) .powerFar ((s.beatHeard_state g f).trans listen)]
      exact State.enter_noPhase (State.beatHeard_noPhase quiet) .sleep .powerFar none
  · have effect := State.powerTaken_active_standby (v := s.beatHeard g f) .powerFar ((s.beatHeard_state g f).trans standby)
    have powered := State.drainsTo_powered item data reply.1 (p := .active) rfl (fun h => by rw [h] at standby; cases standby) rfl
    have verifying := (s.beatHeard g f).standbyVerify_apart g .powerFar
    rw [← effect] at verifying
    have onward := powered.onward
    rw [effect] at onward
    exact ⟨onward.beginsVerify ((s.beatHeard_ground g f).beginsVerify (State.standbyVerify_begins _ g .powerFar)),
      Leg.field_of_apart (powered.apart.trans verifying) Leg.standbyVerify fun _ => rfl, powered.posted, powered.spares.taps,
      powered.spares.others⟩
  · have effect := State.powerTaken_active_sleep (v := s.beatHeard g f) .powerFar ((s.beatHeard_state g f).trans sleep)
    have powered := State.drainsTo_powered item data reply.1 (p := .active) rfl (fun h => by rw [h] at sleep; cases sleep) rfl
    rw [effect, show ((s.beatHeard g f).leg g).farId = (s.leg g).farId by rw [State.beatHeard_leg]] at powered
    have isHub := (s.beatHeard_isHub g f).trans reply.1
    have own {α : Type} (p : Leg → α) (apart : ∀ l : Leg, p l.apart = p l) (probed) (waited) :=
      (Leg.field_of_apart powered.apart p apart).trans
        (State.enterListen_field (v := s.beatHeard g f) (g := g) .powerFar (s.leg g).farId.isSome p apart probed waited)
    have present : (s.beatHeard g f).allPresent g = s.allPresent g :=
      State.allPresent_congr (s.beatHeard_ground g f).window fun c => by rw [State.beatHeard_lane]
    have queue := State.enterListen_queue_hub (v := s.beatHeard g f) (g := g) .powerFar (s.leg g).farId.isSome isHub
    refine ⟨?_, ?_, own Leg.holdoff (fun _ => rfl) rfl fun _ => rfl, own Leg.retrains (fun _ => rfl) rfl fun _ => rfl,
      powered.posted, powered.spares.taps, powered.spares.others, fun known => powered.onward.sends _ _ (State.sends_of_carries (.inl ?_)),
      fun unknown => powered.quiet ?_, fun every => powered.onward.sends _ _ (State.sends_of_carries (.inl ?_))⟩
    · rw [powered.onward.state, State.enterListen_state, present, isHub]
      simp
    · rw [own Leg.resume (fun _ => rfl) rfl fun _ => rfl, State.beatHeard_leg]
      rfl
    · rw [queue, Option.isSome_iff_ne_none.mpr known]
      exact List.mem_append_left _ (List.mem_singleton_self _)
    · rw [unknown]
      exact State.enterListen_untold isHub (s.beatHeard_tx g f) .powerFar
    · rw [queue, present, every, State.beatHeard_ident]
      exact List.mem_append_right _ (List.mem_singleton_self _)
  · have applied := State.drained_powerIdle item data idle awake
    obtain ⟨apart, states, lanes, setting⟩ := State.drainsTo_alone (by rw [applied]; rfl)
    refine ⟨apart, fun empty => ?_, states, lanes, setting⟩
    rw [states g, State.drainsTo_eq applied, State.arbitrate_notices]
    exact NoticeQueue.shows_post (Nat.lt_of_le_of_lt (State.replied_few empty g).1 (by decide))

end

