-- ==== Sys2Proof/Proofs/Demands.lean ====
section
/-! SUPPORT. What the end of a grant does to the pass-over counts (R154), and the demand of a leg (R148, R153). -/

open Sys2Proof Sys2Proof.Machine

namespace Sys2Proof.Machine

theorem Leg.passedOver_eq (l : Leg) {held : Bool} {p : Prop} [Decidable p] (h : held = true ↔ p) :
    l.passedOver held = if p then 0 else if 0 < l.demand then min 12 (l.passOver + 1) else 0 :=
  if_congr h rfl rfl

theorem Leg.demand_asleep {l : Leg} (h : l.state = .off ∨ l.state = .fault) : l.demand = 0 := if_pos h

/-- The base demand of a leg outside OFF and FAULT: the head item's level or the beacon's, whichever is higher (R153). -/
def Leg.baseDemand (l : Leg) : Nat :=
  max ((l.queue.head?.map Item.level).getD 0) (if l.drainDone then 0 else l.beacon.val)

theorem Leg.demand_of_base {l : Leg} (off : l.state ≠ .off) (fault : l.state ≠ .fault) :
    l.demand = if l.baseDemand = 0 then 0 else l.baseDemand + agingBonus l.passOver :=
  if_neg (not_or.mpr ⟨off, fault⟩)

/-- The bonus of each span of pass-over counts (R154). -/
theorem agingBonus_spans (n : Nat) :
    agingBonus n = if n < 4 then 0 else if n < 8 then 1 else if n < 12 then 2 else n / 4 := by
  unfold agingBonus
  split
  · omega
  · split
    · omega
    · split <;> omega

end Sys2Proof.Machine

/-- Settles O28: the counts after the end of a grant, then the demand by its two cases, and R148's table read off. -/
theorem grantEndAgesWaitingLegs : Obligations.GrantEndAgesWaitingLegs := by
  unfold Obligations.GrantEndAgesWaitingLegs
  refine ⟨fun s r g => ⟨rfl, ?_, ?_⟩, fun l => ⟨Leg.demand_asleep, fun off fault base h => ⟨fun none => ?_, fun some => ?_⟩⟩,
    rfl, fun _ _ => ⟨rfl, rfl⟩, fun _ => rfl, fun _ _ => rfl, fun _ => rfl, fun _ _ _ => rfl, fun _ => rfl,
    fun _ _ _ => rfl, rfl, fun _ => rfl⟩
  · rw [State.endGrant_leg]
    exact Leg.passedOver_eq _ beq_iff_eq
  · rw [State.endGrant_leg]
  · change base = l.baseDemand at h
    rw [Leg.demand_of_base off fault, ← h, if_pos none]
  · change base = l.baseDemand at h
    rw [Leg.demand_of_base off fault, ← h, if_neg (Nat.pos_iff_ne_zero.mp some), agingBonus_spans]
end

