-- ==== Sys2Proof/Proofs/UnsentPhases.lean ====
section
/-! SUPPORT. The unsent PHASE items of a leg (R147, R149, R150): what queuing one leaves in the queue and the overflow hold, and
that no other move of the queue and its holds brings in a second one. -/

open Sys2Proof Sys2Proof.Machine

namespace Sys2Proof.Machine

/-! ### Queuing a PHASE (R149) -/

theorem replacePhase_cons (new i : Item) (q : List Item) :
    replacePhase new (i :: q) = (if i.isPhase then new else i) :: replacePhase new q := rfl

theorem replacePhase_phases {new : Item} (phase : new.isPhase) (q : List Item) :
    (replacePhase new q).filter Item.isPhase = List.replicate (q.filter Item.isPhase).length new := by
  induction q with
  | nil => rfl
  | cons i q ih =>
    rw [replacePhase_cons]
    cases h : i.isPhase with
    | true => simpa [h, phase, List.replicate_succ] using ih
    | false => simpa [h] using ih

theorem replacePhase_others {new : Item} (phase : new.isPhase) (q : List Item) :
    (replacePhase new q).filter (fun i => !i.isPhase) = q.filter (fun i => !i.isPhase) := by
  induction q with
  | nil => rfl
  | cons i q ih =>
    rw [replacePhase_cons]
    cases h : i.isPhase with
    | true => simpa [h, phase] using ih
    | false => simpa [h] using ih

/-- The new PHASE takes the place of the queued one, or none is queued and it goes to the overflow hold or to the tail. -/
theorem Leg.queuePhase_cases (l : Leg) (st : PhaseState) (a : Nat) (r : Rate) :
    (l.queue.any Item.isPhase ∧ l.queuePhase st a r = { l with queue := replacePhase (.phase st a r) l.queue })
      ∨ (l.queue.any Item.isPhase = false ∧ l.queuePhase st a r = { l with overflow := some (.phase st a r) })
      ∨ (l.queue.any Item.isPhase = false ∧ l.overflow = none
          ∧ l.queuePhase st a r = { l with queue := l.queue ++ [.phase st a r] }) := by
  unfold Leg.queuePhase
  dsimp only
  cases queued : l.queue.any Item.isPhase with
  | true => exact .inl ⟨rfl, rfl⟩
  | false =>
    cases held : l.overflow with
    | some i => exact .inr (.inl ⟨rfl, rfl⟩)
    | none =>
      cases room : l.hasRoom with
      | true => exact .inr (.inr ⟨rfl, rfl, rfl⟩)
      | false => exact .inr (.inl ⟨rfl, rfl⟩)

theorem filter_isPhase_eq_nil {q : List Item} (h : q.any Item.isPhase = false) : q.filter Item.isPhase = [] := by
  simpa [List.filter_eq_nil_iff] using h

/-- Where at most one PHASE is unsent, the new one is the only one afterwards, and the queue keeps its other items (R149). -/
theorem Leg.queuePhase_replaces {l : Leg} (one : (l.queue.filter Item.isPhase).length + l.overflow.toList.length ≤ 1)
    (st : PhaseState) (a : Nat) (r : Rate) :
    (l.queuePhase st a r).queue.filter Item.isPhase ++ (l.queuePhase st a r).overflow.toList = [.phase st a r]
      ∧ (l.queuePhase st a r).queue.filter (fun i => !i.isPhase) = l.queue.filter (fun i => !i.isPhase) := by
  rcases l.queuePhase_cases st a r with ⟨queued, e⟩ | ⟨none, e⟩ | ⟨none, empty, e⟩ <;> rw [e] <;> dsimp only
  · have some : 0 < (l.queue.filter Item.isPhase).length := by
      simpa [List.length_pos_iff, List.filter_eq_nil_iff] using queued
    have empty : l.overflow = .none := by
      have : l.overflow.toList.length = 0 := by omega
      simpa using this
    have single : (l.queue.filter Item.isPhase).length = 1 := by omega
    exact ⟨by rw [replacePhase_phases rfl, single, empty]; rfl, replacePhase_others rfl _⟩
  · rw [filter_isPhase_eq_nil none]
    exact ⟨rfl, rfl⟩
  · rw [List.filter_append, List.filter_append, filter_isPhase_eq_nil none, empty]
    exact ⟨rfl, List.append_nil _⟩

/-! ### What keeps one unsent PHASE at most -/

namespace Leg.OnePhase

variable {l m : Leg}

/-- The queue, the overflow hold and the report hold alone decide. -/
theorem congr (h : l.OnePhase) (queue : m.queue = l.queue) (overflow : m.overflow = l.overflow)
    (report : m.reportHold = l.reportHold) : m.OnePhase := by
  unfold Leg.OnePhase
  rw [queue, overflow, report]
  exact h

theorem fewer (h : l.OnePhase) {q : List Item} (sub : q.Sublist l.queue) : ({ l with queue := q } : Leg).OnePhase := by
  obtain ⟨overflow, report, one⟩ := h
  exact ⟨overflow, report, (Nat.add_le_add_right (sub.filter Item.isPhase).length_le _).trans one⟩

theorem appended (h : l.OnePhase) {i : Item} (other : i.isPhase = false) :
    ({ l with queue := l.queue ++ [i] } : Leg).OnePhase := by
  obtain ⟨overflow, report, one⟩ := h
  exact ⟨overflow, report, by simpa [List.filter_append, other] using one⟩

theorem withReport (h : l.OnePhase) {i : Option Item} (other : ∀ j, i = some j → j.isPhase = false) :
    ({ l with reportHold := i } : Leg).OnePhase := ⟨h.1, other, h.2.2⟩

theorem pushed (h : l.OnePhase) {i : Item} (other : i.isPhase = false) : (l.push i).OnePhase := by
  rcases l.push_cases i with ⟨-, e⟩ | ⟨-, e⟩ <;> rw [e]
  · exact h.appended other
  · exact h

theorem queuePhase (h : l.OnePhase) (st : PhaseState) (a : Nat) (r : Rate) : (l.queuePhase st a r).OnePhase := by
  obtain ⟨overflow, report, one⟩ := h
  have unsent := congrArg List.length (Leg.queuePhase_replaces one st a r).1
  rw [List.length_append] at unsent
  refine ⟨?_, ?_, unsent.le⟩ <;> rcases l.queuePhase_cases st a r with ⟨-, e⟩ | ⟨-, e⟩ | ⟨-, -, e⟩ <;> rw [e]
  · exact overflow
  · rintro i ⟨⟩; rfl
  · exact overflow
  · exact report
  · exact report
  · exact report

end Leg.OnePhase

theorem requestItem_isPhase (role : Role) (i : WinIx) (q : TapRequest) : (requestItem role i q).isPhase = false := by
  cases role <;> rfl

section
variable {l : Leg} (h : l.OnePhase)
include h

theorem Leg.sendRequest_onePhase (role : Role) (i : WinIx) (q : TapRequest) : (l.sendRequest role i q).OnePhase := by
  unfold Leg.sendRequest
  split
  · exact h.pushed (requestItem_isPhase role i q)
  · exact h

theorem Leg.queueStatus_onePhase (t : TapStatus) : (l.queueStatus t).OnePhase := by
  unfold Leg.queueStatus
  split
  · exact h.pushed rfl
  · exact h

theorem Leg.queueReport_onePhase {i : Item} (other : i.isPhase = false) : (l.queueReport i).OnePhase := by
  unfold Leg.queueReport
  split
  · exact h.pushed other
  · exact h.withReport fun j e => by cases e; exact other

theorem Leg.queueRetrain_onePhase : l.queueRetrain.OnePhase := by
  unfold Leg.queueRetrain
  split
  · exact h
  · split
    · exact h.pushed rfl
    · exact h

theorem Leg.keptAlive_onePhase : l.keptAlive.OnePhase := by
  unfold Leg.keptAlive
  dsimp only
  split
  · exact h
  · exact Leg.OnePhase.pushed (l := { l with keepalive := l.keepalive.map (fun due => due + 5000#32) }) h rfl

/-- A held PHASE moves from the overflow hold to the tail; every other held item is none (R150). -/
theorem Leg.nextHeld_onePhase {m : Leg} {role : Role} {i : Item} (next : l.nextHeld role = some (i, m)) :
    ({ m with queue := m.queue ++ [i] } : Leg).OnePhase := by
  have lane (next : l.firstLaneHeld role = some (i, m)) : ({ m with queue := m.queue ++ [i] } : Leg).OnePhase := by
    obtain ⟨j, -, e⟩ := List.exists_of_findSome?_eq_some next
    obtain ⟨q, -, e⟩ := Option.map_eq_some_iff.mp e
    cases e
    exact Leg.OnePhase.appended (l := { l with laneHold := l.laneHold.set j.val none j.isLt }) h (requestItem_isPhase role j q)
  have status (next : l.firstStatusHeld = some (i, m)) : ({ m with queue := m.queue ++ [i] } : Leg).OnePhase := by
    obtain ⟨j, -, e⟩ := List.exists_of_findSome?_eq_some next
    obtain ⟨t, -, e⟩ := Option.map_eq_some_iff.mp e
    cases e
    exact Leg.OnePhase.appended (l := { l with statusHold := l.statusHold.set j.val none j.isLt }) h rfl
  unfold Leg.nextHeld at next
  cases role with
  | hubRole =>
    dsimp only at next
    split at next
    · rename_i held
      cases next
      obtain ⟨overflow, report, one⟩ := h
      refine ⟨fun _ e => (nomatch e), report, ?_⟩
      have phase : [i].filter Item.isPhase = [i] := by simp [overflow i held]
      rw [held] at one
      rw [List.filter_append, List.length_append, phase]
      exact one
    · rcases Option.or_eq_some_iff.mp next with first | ⟨-, first⟩
      · exact status first
      · exact lane first
  | endRole =>
    dsimp only at next
    split at next
    · cases next
      exact Leg.OnePhase.appended (l := { l with healthHold := false }) h rfl
    · split at next
      · rename_i held
        cases next
        exact (h.withReport (i := none) fun _ e => nomatch e).appended (h.2.1 i held)
      · exact lane next

theorem Leg.fillHolds_onePhase (role : Role) (n : Nat) : (Leg.fillHolds role n l).OnePhase := by
  induction n generalizing l with
  | zero => exact h
  | succ n ih =>
    unfold Leg.fillHolds
    split
    · split
      · rename_i next
        exact ih (Leg.nextHeld_onePhase h next)
      · exact h
    · exact h

theorem Leg.popped_onePhase (role : Role) : (l.popped role).OnePhase :=
  Leg.fillHolds_onePhase (h.fewer (List.tail_sublist l.queue)) role 4

theorem Leg.withdrawn_onePhase (role : Role) : (l.withdrawn role).OnePhase := by
  have removed := h.fewer (List.filter_sublist (p := fun i => !i.ofTraining) (l := l.queue))
  have emptied := removed.withReport (i := none) fun _ e => nomatch e
  exact Leg.fillHolds_onePhase
    (l := { l with queue := l.queue.filter (fun i => !i.ofTraining), laneHold := emptyLaneHold, reportHold := none }) emptied role 4

end

theorem Leg.flushed_onePhase (l : Leg) : l.flushed.OnePhase :=
  ⟨fun _ e => (nomatch e), fun _ e => (nomatch e), Nat.zero_le 1⟩

end Sys2Proof.Machine
end

