-- ==== Sys2Proof/Proofs/LegOrders.lean ====
section
/-! SUPPORT. What keeps a grant within its limit and one unsent PHASE to a leg (R147, R152): a relation that composes
(`State.Orders`), the arbiter's choice, which alone moves the grant, and every operation of the leg controller and the training
engine, in the order of the definitions. -/

open Sys2Proof Sys2Proof.Machine

namespace Sys2Proof.Machine

/-! ### Ways to compose -/

/-- The step from s to t keeps the grant within its limit, and each leg's unsent PHASE items at one at most. -/
structure State.Orders (s t : State) : Prop where
  grant : s.GrantOk → t.GrantOk
  phase : ∀ k, (s.leg k).OnePhase → (t.leg k).OnePhase

namespace State.Orders

variable {s t u : State}

theorem refl (s : State) : s.Orders s := ⟨id, fun _ => id⟩

theorem trans (h : s.Orders t) (k : t.Orders u) : s.Orders u := ⟨k.grant ∘ h.grant, fun j => k.phase j ∘ h.phase j⟩

/-- `State.Orders.trans` with the last operation first. -/
theorem after (k : t.Orders u) (h : s.Orders t) : s.Orders u := h.trans k

theorem ite {p : Prop} [Decidable p] (h : s.Orders t) (k : s.Orders u) : s.Orders (if p then t else u) := by
  split
  · exact h
  · exact k

/-- An operation on anything but the grant and the legs. -/
theorem of_eq (grant : t.grant = s.grant) (legs : t.legs = s.legs) : s.Orders t :=
  ⟨fun h => by rwa [State.GrantOk, grant], fun k h => by rwa [State.leg, legs]⟩

/-- `State.Orders.of_eq` after another operation. -/
theorem then_eq (h : s.Orders t) (grant : u.grant = t.grant) (legs : u.legs = t.legs) : s.Orders u := h.trans (of_eq grant legs)

theorem modLeg (s : State) (g : LegId) {f : Leg → Leg} (h : ∀ l : Leg, l.OnePhase → (f l).OnePhase) : s.Orders (s.modLeg g f) :=
  ⟨id, fun k one => by
    rw [State.modLeg_leg]
    split
    · rename_i e; exact h _ (e ▸ one)
    · exact one⟩

/-- A change of leg fields that hold no items. -/
theorem fields (s : State) (g : LegId) (f : Leg → Leg)
    (same : ∀ l, (f l).queue = l.queue ∧ (f l).overflow = l.overflow ∧ (f l).reportHold = l.reportHold) : s.Orders (s.modLeg g f) :=
  modLeg s g fun l one => by
    obtain ⟨queue, overflow, report⟩ := same l
    exact one.congr queue overflow report

theorem pushed (s : State) (g : LegId) {i : Item} (other : i.isPhase = false) : s.Orders (s.modLeg g (fun l => l.push i)) :=
  modLeg s g fun _ one => one.pushed other

theorem reported (s : State) (g : LegId) (i : Leg → Item) (other : ∀ l, (i l).isPhase = false) :
    s.Orders (s.modLeg g (fun l => l.queueReport (i l))) := modLeg s g fun l one => Leg.queueReport_onePhase one (other l)

theorem requested (s : State) (g : LegId) (role : Role) (i : WinIx) (q : TapRequest) :
    s.Orders (s.modLeg g (fun l => l.sendRequest role i q)) := modLeg s g fun _ one => Leg.sendRequest_onePhase one role i q

theorem posted (h : s.Orders t) (k : NoticeKind) (o : Option LegId) (d : List Byte) : s.Orders (t.post k o d) :=
  h.then_eq rfl rfl

end State.Orders

/-! ### The arbiter (R152 to R158) -/

/-- A grant within the limits of R157. -/
def Grant.Within (r : Grant) : Prop := (r.limit = 8 ∨ r.limit = 16) ∧ r.count ≤ r.limit

/-- The decision of R157 only raises the limit. -/
theorem Grant.Within.extended {r : Grant} (h : r.Within) (s : State) : (s.extended r).Within := by
  obtain ⟨limit, count⟩ := h
  rw [State.extended_eq]
  unfold Grant.Within
  dsimp only
  split <;> omega

/-- A grant of the choice from no grant stands at its first transaction (R155). -/
theorem State.choose_grantOk {s : State} (none : s.grant = none) : s.choose.GrantOk := fun r h => by
  obtain ⟨count, limit⟩ := State.choose_grant none r h
  omega

theorem State.startNext_grantOk {s t : State} {k : LegId} {r : Grant} (held : s.grant = some r) (within : r.Within)
    (below : r.count < r.limit) (next : s.startNext k = some t) : t.GrantOk := fun q h => by
  rw [State.startNext_grant next, held] at h
  cases h
  exact ⟨within.1, below⟩

/-- The count rises only below the limit, and every other choice ends the grant (R156, R157). -/
theorem State.arbitrate_grantOk {s : State} (ok : s.GrantOk) (ends : Bool) : (s.arbitrate ends).GrantOk := by
  unfold State.arbitrate
  split
  · exact ok
  · split
    · rename_i none
      exact State.choose_grantOk none
    · rename_i r held
      dsimp only
      split
      · exact State.choose_grantOk rfl
      · rename_i goesOn
        split
        · rename_i t next
          have below : (s.extended r).count < (s.extended r).limit := by
            obtain ⟨-, -, -, more⟩ : _ ∧ _ ∧ _ ∧ ¬(s.extended r).limit ≤ (s.extended r).count := by simpa only [not_or] using goesOn
            exact Nat.lt_of_not_le more
          exact State.startNext_grantOk rfl (Grant.Within.extended (ok r held) s) below next
        · exact State.choose_grantOk rfl

/-- A transaction takes the head item, and held items take the places it frees (R150). -/
theorem State.startNext_onePhase {s t : State} {k g : LegId} (next : s.startNext k = some t) (one : (s.leg g).OnePhase) :
    (t.leg g).OnePhase := by
  have begun (w : Work) : ((s.beginTx k w).leg g).OnePhase :=
    (State.Orders.fields s k (fun l => { l with
      seq := !l.seq
      beat := if w = .drain ∧ (s.leg k).beatTaken then (s.leg k).beat + 1 else (s.leg k).beat
      beatTaken := if w = .drain then false else l.beatTaken }) fun _ => ⟨rfl, rfl, rfl⟩).phase g one
  cases head : (s.leg k).queue.head? with
  | some i =>
    rw [State.startNext_item head] at next
    cases next
    exact (State.Orders.modLeg (s.beginTx k (.item i)) k fun _ one => Leg.popped_onePhase one s.role).phase g (begun _)
  | none =>
    unfold State.startNext at next
    rw [head] at next
    dsimp only at next
    split at next
    · cases next
      exact begun .drain
    · cases next

theorem State.orders_arbitrate (s : State) (ends : Bool) : s.Orders (s.arbitrate ends) where
  grant := fun ok => State.arbitrate_grantOk ok ends
  phase := fun g one => State.arbitrate_induct (P := fun t => (t.leg g).OnePhase) one
    (fun r => by rw [State.endGrant_leg]; exact one) (fun _ _ h => h)
    (fun _ _ _ h _ _ _ next => State.startNext_onePhase next h) ends

theorem State.Orders.arbitrated {s t : State} (h : s.Orders t) (ends : Bool) : s.Orders (t.arbitrate ends) :=
  h.trans (t.orders_arbitrate ends)

/-! ### Replies, flushes and the entry to a state (R22) -/

section
variable (s : State) (g : LegId)

theorem State.orders_reply (st : Status) (p : List Byte) : s.Orders (s.reply st p) := .of_eq rfl rfl

theorem State.orders_post (k : NoticeKind) (o : Option LegId) (d : List Byte) : s.Orders (s.post k o d) := .of_eq rfl rfl

theorem State.orders_farReadDone (st : Status) (p : List Byte) : s.Orders (s.farReadDone st p) := by
  rw [State.farReadDone_rest]
  exact .of_eq rfl rfl

theorem State.orders_modLane (c : LaneId) (f : Lane → Lane) : s.Orders (s.modLane c f) := .of_eq rfl rfl

theorem State.orders_flush : s.Orders (s.flush g) := by
  rw [State.flush_rest]
  exact (State.Orders.modLeg s g fun l _ => l.flushed_onePhase).then_eq rfl rfl

theorem State.orders_enter (new : LegState) (cause : LegCause) (a : Option Nat) : s.Orders (s.enter g new cause a) :=
  .then_eq (t := (s.modWindow g (Lane.entered new)).modLeg g (fun l => l.entered s.role new a s.time))
    (.after (.fields _ g _ fun _ => ⟨rfl, rfl, rfl⟩) (.of_eq rfl rfl)) rfl rfl

/-! ### Receivers and searches -/

theorem State.orders_startSearch : s.Orders (s.startSearch g) := by
  have opened : s.Orders ((s.winIndices g).foldl (State.openLane g) s) :=
    List.foldlRecOn _ _ (.refl s) fun t h i _ => h.trans (.after (.requested _ g _ i _) (t.orders_modLane _ _))
  unfold State.startSearch
  exact .after (.fields _ g _ fun _ => ⟨rfl, rfl, rfl⟩) opened

theorem State.orders_startAdapt : s.Orders (s.startAdapt g) :=
  .then_eq (.fields s g (fun l => { l with adapt := some (vec8 (fun i => AdaptLane.start (s.lane (s.winLane g i)).peaking)) })
    fun _ => ⟨rfl, rfl, rfl⟩) rfl rfl

theorem State.orders_startVerify : s.Orders (s.startVerify g) := .fields s g _ fun _ => ⟨rfl, rfl, rfl⟩

theorem State.orders_handOver : s.Orders (s.handOver g) := .of_eq rfl rfl

theorem State.orders_startDeadline (us : Nat) : s.Orders (s.startDeadline g us) :=
  .fields s g _ fun _ => ⟨rfl, rfl, rfl⟩

/-! ### Entries the HUB leads (R25 to R40) -/

theorem State.orders_queuePhase (st : PhaseState) (n : Nat) : s.Orders (s.queuePhase g st n) :=
  .modLeg s g fun _ one => one.queuePhase st n _

theorem State.orders_enterProbe : s.Orders (s.enterProbe g) := .after (.pushed _ g rfl) (s.orders_enter g _ _ _)

theorem State.orders_checkListen : s.Orders (s.checkListen g) := .ite (s.orders_enterProbe g) (.refl s)

theorem State.orders_checkProbeWait : s.Orders (s.checkProbeWait g) :=
  .ite (.fields s g _ fun _ => ⟨rfl, rfl, rfl⟩) (.refl s)

theorem State.orders_enterListen (cause : LegCause) (holdoff phase : Bool) : s.Orders (s.enterListen g cause holdoff phase) := by
  have cleared : s.Orders (((s.enter g .listen cause none).flush g).modLeg g
      (fun l => { l with retrains := 0, holdoff := if holdoff then some (s.after 100000) else none })) :=
    .after (.fields _ g _ fun _ => ⟨rfl, rfl, rfl⟩) ((s.orders_enter g _ _ _).trans (State.orders_flush _ g))
  refine .after (State.orders_checkProbeWait _ g) (.after (State.orders_checkListen _ g) (.ite ?_ cleared))
  exact cleared.trans (.modLeg _ g fun _ one => one.queuePhase .listen 0 .l)

theorem State.orders_enterFault (why : FaultReason) : s.Orders (s.enterFault g why) := by
  have entered : s.Orders ((s.enter g .fault .faultEntry none).modLeg g
      (fun l => { l with lastFault := why, faultCount := min 255 (l.faultCount + 1) })) :=
    .after (.fields _ g _ fun _ => ⟨rfl, rfl, rfl⟩) (s.orders_enter g _ _ _)
  exact .ite (.refl s) ((entered.trans (State.orders_flush _ g)).posted _ _ _)

theorem State.orders_enterTrain (cause : LegCause) (n : Nat) : s.Orders (s.enterTrain g cause n) := by
  have entered : s.Orders ((s.enter g .train cause (some n)).modLeg g (fun l => { l with errCount := 0 })) :=
    .after (.fields _ g _ fun _ => ⟨rfl, rfl, rfl⟩) (s.orders_enter g _ _ _)
  exact (((entered.trans (State.orders_flush _ g)).trans (State.orders_queuePhase _ g _ _)).trans
    (State.orders_startSearch _ g)).trans (State.orders_startDeadline _ g _)

theorem State.orders_enterAdapt : s.Orders (s.enterAdapt g) :=
  (((s.orders_enter g _ _ _).trans (State.orders_queuePhase _ g _ _)).trans (State.orders_startDeadline _ g _)).trans
    (State.orders_startAdapt _ g)

theorem State.orders_enterVerify : s.Orders (s.enterVerify g) :=
  (((s.orders_enter g _ _ _).trans (State.orders_queuePhase _ g _ _)).trans (State.orders_startDeadline _ g _)).trans
    (State.orders_startVerify _ g)

theorem State.orders_enterUp : s.Orders (s.enterUp g) :=
  .after (State.orders_queuePhase _ g _ _) (.after (State.orders_handOver _ g)
    (.after (.fields _ g _ fun _ => ⟨rfl, rfl, rfl⟩) (s.orders_enter g _ _ _)))

theorem State.orders_attemptFails (cause : LegCause) : s.Orders (s.attemptFails g cause) :=
  .ite (s.orders_enterTrain g _ _) (.ite (s.orders_enterTrain g _ _) (s.orders_enterFault g _))

theorem State.orders_retrain : s.Orders (s.retrain g) :=
  .ite (.after (State.orders_enterTrain _ g _ _) (.fields s g _ fun _ => ⟨rfl, rfl, rfl⟩)) (s.orders_enterFault g _)

theorem State.orders_decideVerify : s.Orders (s.decideVerify g).1 := by
  unfold State.decideVerify
  split
  · exact .ite (s.orders_enterUp g) (s.orders_attemptFails g _)
  · exact .refl s

theorem State.orders_checkTrained : s.Orders (s.checkTrained g).1 := by
  unfold State.checkTrained
  split
  · exact s.orders_enterAdapt g
  · exact .refl s

/-! ### The training engine's results (R66 to R85) -/

theorem State.orders_laneFails : s.Orders (s.laneFails g).1 := by
  unfold State.laneFails
  split
  · exact s.orders_attemptFails g _
  · exact .refl s

theorem State.orders_laneDone (c : LaneId) : s.Orders (s.laneDone g c).1 := by
  unfold State.laneDone
  split
  · exact s.orders_laneFails g
  · split
    · split
      · exact .after (State.orders_checkTrained _ g) (.fields s g _ fun _ => ⟨rfl, rfl, rfl⟩)
      · exact .reported s g (fun l => .trainDone (l.attempt.getD 0)) fun _ => rfl
    · exact .refl s

theorem State.orders_searchOut (i : WinIx) (o : SearchOut) : s.Orders (s.searchOut g i o).1 := by
  cases o with
  | quiet => exact .refl s
  | send q => exact .requested s g _ i q
  | finished => exact s.orders_laneDone g _
  | failed => exact s.orders_laneFails g

theorem State.orders_moveSearch (i : WinIx) (f : Search → Search × SearchOut) : s.Orders (s.moveSearch g i f).1 := by
  unfold State.moveSearch
  split
  · exact .refl s
  · exact .after (State.orders_searchOut _ g i _) (s.orders_modLane _ _)

theorem State.orders_takeResult (i : WinIx) (res : ReqResult) : s.Orders (s.takeResult g i res) :=
  .ite ((s.orders_moveSearch g i _).then_eq rfl rfl) (.refl s)

theorem State.orders_reportAdapt (i : WinIx) (m : Nat) (r : Int) : s.Orders (s.reportAdapt g i m r).1 := by
  unfold State.reportAdapt
  split
  · exact .refl s
  · rename_i v _
    have moved : s.Orders (s.modLeg g (fun l => { l with adapt := some (v.set i.val (v[i].onReport m).1 i.isLt) })) :=
      .fields s g _ fun _ => ⟨rfl, rfl, rfl⟩
    have measured (f : Lane → Lane) := moved.trans (State.orders_modLane _ (s.winLane g i) f)
    dsimp only
    split
    · exact moved
    · exact measured (fun l => { l with peaking := _ })
    · split
      · exact (measured _).trans (State.orders_laneFails _ g)
      · exact measured (fun l => { l with peaking := _ })
    · split
      · exact (measured _).trans (State.orders_enterVerify _ g)
      · exact measured (fun l => { l with d1 := updateD1 l.d1 r 4 })

theorem State.orders_reportVerify (i : WinIx) (bad : Bool) : s.Orders (s.reportVerify g i bad).1 := by
  unfold State.reportVerify
  split
  · exact .refl s
  · rename_i v _
    have moved : s.Orders (s.modLeg g (fun l => { l with verify := some (v.set i.val (v[i].onReport bad) i.isLt) })) :=
      .fields s g _ fun _ => ⟨rfl, rfl, rfl⟩
    dsimp only
    split
    · split
      · exact .after (State.orders_decideVerify _ g) (moved.trans (.fields _ g _ fun _ => ⟨rfl, rfl, rfl⟩))
      · dsimp only
        exact moved.trans (.reported _ g _ fun _ => rfl)
    · exact moved

theorem State.orders_handReport (c : LaneId) (rep : Report) : s.Orders (s.handReport g c rep).1 := by
  unfold State.handReport
  split
  · exact .refl s
  · split
    · exact s.orders_moveSearch g _ _
    · exact s.orders_reportAdapt g _ _ _
    · exact s.orders_reportVerify g _ _
    · exact s.orders_modLane c (fun l => { l with d1 := updateD1 l.d1 rep.r.toInt 8 })
    · exact s.orders_modLane c (fun l => { l with d1 := updateD1 l.d1 rep.r.toInt 8 })
    · exact .refl s

/-! ### Link health (R93 to R101) -/

theorem State.orders_checkHealth : s.Orders (s.checkHealth g) :=
  .ite ((s.orders_enter g _ _ _).posted _ _ _) (.ite (s.orders_enter g _ _ _) (.refl s))

theorem State.orders_countHealth (bad : Bool) : s.Orders (s.countHealth g bad) := by
  have counted (n : Nat) : s.Orders (s.modLeg g (fun l => { l with errCount := n })) :=
    .fields s g _ fun _ => ⟨rfl, rfl, rfl⟩
  unfold State.countHealth State.counterTop
  split
  · exact (counted _).trans (State.orders_checkHealth _ g)
  · exact .ite ((counted 0).trans (State.orders_retrain _ g))
      ((counted 0).trans (.modLeg _ g fun _ one => Leg.queueRetrain_onePhase one))

theorem State.orders_joinSet (c : LaneId) (rep : Report) : s.Orders (s.joinSet g c rep) := by
  have emptied (merit : Nat) : s.Orders (s.emptied g merit) := .fields s g _ fun _ => ⟨rfl, rfl, rfl⟩
  rcases s.joinSet_cases g c rep with e | ⟨merit, e⟩ | ⟨merit, isBad, e⟩ <;> rw [e]
  · exact .fields s g _ fun _ => ⟨rfl, rfl, rfl⟩
  · exact emptied merit
  · exact (emptied merit).trans (State.orders_countHealth _ g isBad)

theorem State.orders_takeReport (c : LaneId) (rep : Report) : s.Orders (s.takeReport g c rep) := by
  have handed := (s.orders_modLane c (fun l => { l with report := some rep, merit := rep.merit })).trans
    (State.orders_handReport _ g c rep)
  exact .ite handed (handed.trans (State.orders_joinSet _ g c rep))

/-! ### Presence (R13 to R15, R28, R38, R44, R45, R117) -/

theorem State.orders_wakeEvent (c : LaneId) : s.Orders (s.wakeEvent g c) := by
  have woken : s.Orders ((s.modLeg g (fun l => { l with wakePending := true })).post .wake (some g)
      [byteOf c.val, boolByte (s.leg g).autoWake]) :=
    .after (State.orders_post _ _ _ _) (.fields s g _ fun _ => ⟨rfl, rfl, rfl⟩)
  exact .ite (woken.trans (State.orders_enterListen _ g _ _ _)) woken

theorem State.orders_lanePresent (c : LaneId) : s.Orders (s.lanePresent g c) := by
  unfold State.lanePresent
  split
  · exact .after (State.orders_checkProbeWait _ g) (s.orders_checkListen g)
  · exact s.orders_wakeEvent g c
  · exact .refl s

theorem State.orders_hubSignalLoss : s.Orders (s.hubSignalLoss g) := by
  unfold State.hubSignalLoss
  split
  case h_8 => exact .refl s
  all_goals exact s.orders_enterListen g _ _ _

theorem State.orders_endSignalLoss : s.Orders (s.endSignalLoss g) := by
  unfold State.endSignalLoss
  split
  · exact .refl s
  · exact .refl s
  · exact .refl s
  · exact .fields s g _ fun _ => ⟨rfl, rfl, rfl⟩
  · exact s.orders_enterListen g _ _ _

theorem State.orders_presenceChange (c : LaneId) (p : Presence) : s.Orders (s.presenceChange g c p) := by
  cases p with
  | present => exact s.orders_lanePresent g c
  | absent => exact .ite (s.orders_hubSignalLoss g) (s.orders_endSignalLoss g)

theorem State.orders_takeReading (c : LaneId) (signal : Bool) : s.Orders (s.takeReading g c signal) :=
  .ite (s.orders_modLane c _) (.ite (s.orders_modLane c _)
    (.after (State.orders_presenceChange _ g c _) (s.orders_modLane c _)))

/-! ### Probing, sideband loss and refusals (R29, R30, R39, R40, R44) -/

theorem State.orders_probeAck (d : Ident) : s.Orders (s.probeAck g d) := by
  unfold State.probeAck
  refine .ite (.refl s) (.ite (s.orders_enterFault g _) (.ite (s.orders_enterFault g _) ?_))
  split
  · exact s.orders_enterFault g _
  · rename_i cap _
    have told : s.Orders (s.modLeg g (fun l => { l with farId := some d, negRate := some (l.rateCap.lower cap) })) :=
      .fields s g _ fun _ => ⟨rfl, rfl, rfl⟩
    exact .after (State.orders_enterTrain _ g _ _) (.ite told (told.posted _ _ _))

theorem State.orders_listenLost (cause : LegCause) (holdoff phase : Bool) :
    s.Orders ((s.enterListen g cause holdoff phase).post .sidebandLost (some g) []) :=
  (s.orders_enterListen g cause holdoff phase).posted _ _ _

theorem State.orders_probeFailed : s.Orders (s.probeFailed g) := .ite (.refl s) (s.orders_listenLost g _ _ _)

theorem State.orders_markLost : s.Orders ((s.modLeg g (fun l => { l with sbLost := true })).post .sidebandLost (some g) []) :=
  .after (State.orders_post _ _ _ _) (.fields s g _ fun _ => ⟨rfl, rfl, rfl⟩)

theorem State.orders_sidebandLost : s.Orders (s.sidebandLost g) := by
  unfold State.sidebandLost
  split
  · exact s.orders_listenLost g _ _ _
  · exact s.orders_listenLost g _ _ _
  · exact s.orders_listenLost g _ _ _
  · exact s.orders_markLost g
  · exact s.orders_markLost g
  · exact s.orders_markLost g
  · exact s.orders_markLost g
  · exact s.orders_probeFailed g
  · exact .of_eq rfl rfl
  · exact .refl s
  · exact .refl s

theorem State.orders_hubSilent : s.Orders (s.hubSilent g) := by
  unfold State.hubSilent
  split
  · exact s.orders_listenLost g _ _ _
  · exact s.orders_listenLost g _ _ _
  · exact s.orders_listenLost g _ _ _
  · exact s.orders_listenLost g _ _ _
  · exact s.orders_markLost g
  · exact s.orders_markLost g
  · exact s.orders_markLost g
  · exact s.orders_markLost g
  · exact .refl s
  · exact .refl s
  · exact .refl s

theorem State.orders_restoreSideband : s.Orders (s.restoreSideband g) :=
  .ite (.after (State.orders_post _ _ _ _) (.fields s g _ fun _ => ⟨rfl, rfl, rfl⟩)) (.refl s)

theorem State.orders_phaseRefused (st : PhaseState) : s.Orders (s.phaseRefused g st) := .ite (.refl s) (s.orders_enterFault g _)

/-! ### Power requests and drained items at a HUB (R108 to R116, R159) -/

theorem State.orders_standbyVerify (cause : LegCause) : s.Orders (s.standbyVerify g cause) :=
  .after (State.orders_startVerify _ g) (.after (State.orders_startDeadline _ g _) (.after (State.orders_queuePhase _ g _ _)
    (.after (.fields _ g _ fun _ => ⟨rfl, rfl, rfl⟩) (s.orders_enter g _ _ _))))

theorem State.orders_powerTaken (p : Power) (cause : LegCause) : s.Orders (s.powerTaken g p cause) := by
  unfold State.powerTaken
  cases p with
  | standby => exact (s.orders_enter g _ _ _).trans (State.orders_queuePhase _ g _ _)
  | sleep =>
    have entered := s.orders_enter g .sleep cause none
    exact .ite entered (.after (State.orders_queuePhase _ g _ _)
      (entered.trans (.fields _ g _ fun _ => ⟨rfl, rfl, rfl⟩)))
  | active =>
    dsimp only
    split
    · exact s.orders_standbyVerify g cause
    · exact s.orders_enterListen g _ _ _
    · exact .refl s

theorem State.orders_drainedPower (code : Byte) : s.Orders (s.drainedPower g code) := by
  unfold State.drainedPower
  split
  · exact .posted (.ite (s.orders_powerTaken g _ _) (.refl s)) _ _ _
  · exact .of_eq rfl rfl

theorem State.orders_applyTaps (i : WinIx) (q : TapRequest) : s.Orders (s.applyTaps g i q) := by
  rw [State.applyTaps_rest]
  exact .of_eq rfl rfl

theorem State.orders_drainedTap (d : List Byte) : s.Orders (s.drainedTap g d) := by
  unfold State.drainedTap
  split
  · split
    · exact .ite (.after (.modLeg _ g fun _ one => Leg.queueStatus_onePhase one _) (s.orders_applyTaps g _ _)) (.refl s)
    · exact .refl s
  · exact .refl s

theorem State.orders_drained (item : Byte) (d : List Byte) : s.Orders (s.drained g item d) := by
  unfold State.drained
  refine .ite (.refl s) ?_
  split
  · exact s.orders_drainedTap g d
  · exact .ite (.after (State.orders_checkTrained _ g) (.fields s g _ fun _ => ⟨rfl, rfl, rfl⟩)) (.refl s)
  · exact .ite (.after (State.orders_decideVerify _ g) (.fields s g _ fun _ => ⟨rfl, rfl, rfl⟩)) (.refl s)
  · exact .ite (s.orders_retrain g) (.refl s)
  · exact s.orders_drainedPower g _
  · exact .refl s

/-! ### Following at an END (R41 to R45, R68, R115) -/

theorem State.orders_takeRate (r : Rate) : s.Orders (s.takeRate g r) := .fields s g _ fun _ => ⟨rfl, rfl, rfl⟩

theorem State.orders_enterWithRate (new : LegState) (a : Option Nat) (r : Rate) :
    s.Orders ((s.enter g new .phase a).takeRate g r) := (s.orders_enter g new .phase a).trans (State.orders_takeRate _ g r)

theorem State.orders_follow (new : LegState) (a : Option Nat) (r : Rate) : s.Orders (s.follow g new a r) :=
  (s.orders_enterWithRate g new a r).trans (.modLeg _ g fun _ one => Leg.withdrawn_onePhase one s.role)

theorem State.orders_cutShortAdapt : s.Orders (s.cutShortAdapt g) := by
  unfold State.cutShortAdapt
  split
  · exact .refl s
  · exact .after (.fields _ g _ fun _ => ⟨rfl, rfl, rfl⟩) (.of_eq rfl rfl)

theorem State.orders_followRun (r : Rate) : s.Orders (s.followRun g r) := by
  have up := s.orders_follow g .up none r
  exact .ite (.after (State.orders_handOver _ g) (up.trans (.fields _ g _ fun _ => ⟨rfl, rfl, rfl⟩))) up

theorem State.orders_takePhase (st : PhaseState) (n : Nat) (r : Rate) : s.Orders (s.takePhase g st n r) := by
  cases st with
  | listen => exact s.orders_enterListen g _ _ _
  | train =>
    exact .after (State.orders_startSearch _ g)
      ((s.orders_follow g .train (some n) r).trans (.fields _ g _ fun _ => ⟨rfl, rfl, rfl⟩))
  | adapt => exact (s.orders_follow g .adapt (some n) r).trans (State.orders_startAdapt _ g)
  | verify =>
    exact ((s.orders_cutShortAdapt g).trans (State.orders_follow _ g .verify (some n) r)).trans (State.orders_startVerify _ g)
  | run => exact s.orders_followRun g r
  | standby => exact s.orders_enterWithRate g .standby none r
  | sleep =>
    exact (s.orders_enterWithRate g .sleep none r).trans (.fields _ g (fun l => { l with resume := true }) fun _ => ⟨rfl, rfl, rfl⟩)

/-! ### Stopping and resetting a leg (R18, R26, R27) -/

theorem State.orders_abandon : s.Orders (s.abandon g) := .of_eq (s.abandon_grant g) (s.abandon_legs g)

theorem State.orders_stopLeg (cause : LegCause) : s.Orders (s.stopLeg g cause) := by
  unfold State.stopLeg
  exact .after (.fields _ g _ fun _ => ⟨rfl, rfl, rfl⟩)
    (((s.orders_enter g .off cause none).trans (State.orders_flush _ g)).trans (State.orders_abandon _ g))

theorem State.orders_resetLeg : s.Orders (s.resetLeg g) := by
  unfold State.resetLeg
  exact .after (.fields _ g _ fun _ => ⟨rfl, rfl, rfl⟩) ((s.orders_stopLeg g .legReset).then_eq rfl rfl)

end

end Sys2Proof.Machine
end

