-- ==== Sys2Proof/Proofs/StepOrders.lean ====
section
/-! SUPPORT. Every command keeps a grant within its limit and one unsent PHASE to a leg (`State.Orders`): the sideband at both ends,
the cable memory unit and the management port on top of the leg controller's operations, and the dispatch over all commands. -/

open Sys2Proof Sys2Proof.Machine

namespace Sys2Proof.Machine

section
variable (s : State)

/-! ### The HUB's sideband (R126 to R133, R143) -/

theorem State.orders_setTx (x : Option Transaction) : s.Orders { s with tx := x } := .of_eq rfl rfl

theorem State.orders_takeFarStatus (g : LegId) (d : List Byte) : s.Orders (s.takeFarStatus g d) :=
  .fields s g _ fun _ => ⟨rfl, rfl, rfl⟩

theorem State.orders_setFarTaps (g : LegId) (t : TapStatus) : s.Orders (s.setFarTaps g t) := by
  rw [State.setFarTaps_rest]
  exact .of_eq rfl rfl

theorem State.orders_exchangeEnds (x : Transaction) (i : WinIx) (r : TxResult) : s.Orders (s.exchangeEnds x i r) := by
  have told : s.Orders (match r.forEngine i with
      | .ack st => s.setFarTaps x.leg st
      | _ => s) := by
    split
    · exact s.orders_setFarTaps x.leg _
    · exact .refl s
  exact .ite (told.trans (State.orders_takeResult _ x.leg i _)) told

theorem State.orders_farFetchEnds (x : Transaction) (k : FetchKind) (r : TxResult) : s.Orders (s.farFetchEnds x k r) := by
  cases r with
  | ack item more d => exact .after (State.orders_farReadDone _ _ _) (.ite (s.orders_takeFarStatus _ _) (.refl s))
  | refuse why => exact s.orders_farReadDone _ _
  | lost => exact s.orders_farReadDone _ _
  | expired => exact s.orders_farReadDone _ _

theorem State.orders_probeEnds (x : Transaction) (r : TxResult) : s.Orders (s.probeEnds x r) := by
  cases r with
  | ack item more d => exact s.orders_probeAck _ _
  | refuse why => exact .ite (.refl s) (s.orders_enterListen _ _ _ _)
  | lost => exact s.orders_probeFailed _
  | expired => exact s.orders_probeFailed _

theorem State.orders_drainEnds (x : Transaction) (r : TxResult) : s.Orders (s.drainEnds x r) := by
  cases r with
  | ack item more d => exact .after (State.orders_drained _ _ _ _) (.fields s x.leg _ fun _ => ⟨rfl, rfl, rfl⟩)
  | refuse why => exact .refl s
  | lost => exact .refl s
  | expired => exact .refl s

theorem State.orders_handOn (x : Transaction) (r : TxResult) : s.Orders (s.handOn x r) := by
  unfold State.handOn
  split
  · exact s.orders_drainEnds x r
  · split
    · exact s.orders_probeEnds x r
    · split
      · exact s.orders_phaseRefused _ _
      · exact .refl s
    · exact s.orders_exchangeEnds x _ r
    · split
      · exact s.orders_takeFarStatus _ _
      · exact .refl s
    · exact s.orders_farFetchEnds x _ r
    · exact .refl s

theorem State.orders_endTx (x : Transaction) (r : TxResult) : s.Orders (s.endTx x r) := by
  have handed : s.Orders (State.handOn { s with tx := none } x r) := .after (State.orders_handOn _ x r) (s.orders_setTx none)
  unfold State.endTx
  exact .arbitrated (.ite (handed.trans (State.orders_sidebandLost _ _)) handed) _

theorem State.orders_timeouts (g : LegId) (n : Nat) : s.Orders (s.modLeg g (fun l => { l with timeouts := n })) :=
  .fields s g _ fun _ => ⟨rfl, rfl, rfl⟩

theorem State.orders_timeout (x : Transaction) : s.Orders (s.timeout x) :=
  .ite (.after (State.orders_setTx _ _) (s.orders_timeouts x.leg _)) (.after (State.orders_endTx _ _ _) (s.orders_timeouts x.leg 0))

theorem State.orders_goodReply (x : Transaction) (low : BitVec 2) (f : ResponseBody) : s.Orders (s.goodReply x low f) := by
  have restored := (s.orders_timeouts x.leg 0).trans (State.orders_restoreSideband _ x.leg)
  exact .ite (restored.trans (State.orders_endTx _ _ _))
    (.ite (restored.trans (State.orders_setTx _ _)) (restored.trans (State.orders_endTx _ _ _)))

theorem State.orders_takeResponse (g : LegId) (low mid : BitVec 2) (f : ResponseBody) : s.Orders (s.takeResponse g low mid f) := by
  unfold State.takeResponse
  split
  · exact .refl s
  · exact .ite (.ite (s.orders_goodReply _ _ _) (s.orders_timeout _)) (.refl s)

theorem State.orders_takeBeacon (g : LegId) (level : Fin 4) : s.Orders (s.takeBeacon g level) := by
  unfold State.takeBeacon
  exact .ite (.after (State.orders_arbitrate _ _) (.fields s g _ fun _ => ⟨rfl, rfl, rfl⟩)) (.refl s)

/-! ### The END's responder (R138 to R144) -/

theorem State.orders_answer (kind : BitVec 3) (item : Byte) (f : CommandBody) (frame : List Byte) :
    s.Orders (s.answer kind item f frame) := .of_eq rfl rfl

theorem State.orders_heard : s.Orders s.heard := by
  have waits : s.Orders (State.modLeg { s with resp := { s.resp with silence := some (s.after 20000) } } 0
      (fun l => { l with probeWait := l.probeWait.map (fun _ => s.after 500000) })) :=
    .after (.fields _ 0 _ fun _ => ⟨rfl, rfl, rfl⟩) (.of_eq rfl rfl)
  exact waits.trans (State.orders_restoreSideband _ 0)

section
variable (kind : BitVec 3) (item : Byte) (f : CommandBody)

theorem State.orders_takeProbe : s.Orders (s.takeProbe kind item f) := by
  have entered : s.Orders ((s.enter 0 .probe .probeAnswered none).modLeg 0 (fun l => { l with farId := some (parseIdent f.data) })) :=
    .after (.fields _ 0 _ fun _ => ⟨rfl, rfl, rfl⟩) (s.orders_enter 0 _ _ _)
  exact .ite (.after (State.orders_answer _ _ _ _ _) (.ite entered (entered.posted _ _ _))) (s.orders_answer _ _ _ _)

theorem State.orders_takeFetch : s.Orders (s.takeFetch kind item f) := by
  unfold State.takeFetch
  split
  · exact s.orders_answer _ _ _ _
  · exact s.orders_answer _ _ _ _
  · exact .ite (s.orders_answer _ _ _ _) (s.orders_answer _ _ _ _)
  · exact s.orders_answer _ _ _ _

theorem State.orders_takeStorePhase : s.Orders (s.takeStorePhase kind item f) := by
  have taken (st : PhaseState) (n : Nat) (r : Rate) : s.Orders ((s.takePhase 0 st n r).ack kind item f []) :=
    (s.orders_takePhase 0 st n r).trans (State.orders_answer _ _ _ _ _)
  unfold State.takeStorePhase
  refine .ite (s.orders_answer _ _ _ _) ?_
  split
  · exact s.orders_answer _ _ _ _
  · exact taken _ _ _
  · split
    · exact s.orders_answer _ _ _ _
    · exact .ite (taken _ _ _) (s.orders_answer _ _ _ _)

theorem State.orders_takeStoreStatus : s.Orders (s.takeStoreStatus kind item f) := by
  unfold State.takeStoreStatus
  refine .ite (s.orders_answer _ _ _ _) (.ite (s.orders_answer _ _ _ _) ?_)
  split
  · exact s.orders_answer _ _ _ _
  · rename_i st _
    have told := s.orders_setFarTaps 0 st
    exact .after (State.orders_answer _ _ _ _ _) (.ite (told.trans (State.orders_takeResult _ 0 _ _)) told)

theorem State.orders_takeExchange : s.Orders (s.takeExchange kind item f) := by
  unfold State.takeExchange
  refine .ite (s.orders_answer _ _ _ _) (.ite (s.orders_answer _ _ _ _) ?_)
  split
  · exact s.orders_answer _ _ _ _
  · exact .ite (s.orders_answer _ _ _ _)
      (.ite (.of_eq rfl rfl) ((s.orders_applyTaps 0 _ _).trans (State.orders_answer _ _ _ _ _)))

theorem State.orders_checkCommand : s.Orders (s.checkCommand kind item f) := by
  unfold State.checkCommand
  refine .ite (s.orders_answer _ _ _ _) (.ite (s.orders_answer _ _ _ _) (.ite (s.orders_answer _ _ _ _) ?_))
  split
  · exact s.orders_takeProbe _ _ _
  · exact s.orders_takeFetch _ _ _
  · exact s.orders_takeStorePhase _ _ _
  · exact s.orders_takeStoreStatus _ _ _
  · exact s.orders_takeExchange _ _ _

theorem State.orders_noteDrained (i : Item) : s.Orders (s.noteDrained i) := by
  rw [State.noteDrained_rest]
  exact .of_eq rfl rfl

theorem State.orders_takeDrain : s.Orders (s.takeDrain f) := by
  unfold State.takeDrain
  refine .ite (.of_eq rfl rfl) ?_
  split
  · exact .of_eq rfl rfl
  · rename_i i _ _
    have popped : s.Orders (s.modLeg 0 (fun l => l.popped s.role)) := .modLeg s 0 fun _ one => Leg.popped_onePhase one s.role
    exact (popped.trans (State.orders_noteDrained _ i)).then_eq rfl rfl

theorem State.orders_takeCommand (pair : LegId) : s.Orders (s.takeCommand pair kind item f) := by
  unfold State.takeCommand
  refine .ite (.refl s) (.ite ((s.orders_enterFault pair _).arbitrated _) (.ite (.refl s)
    (.ite (s.orders_heard.trans (State.orders_takeDrain _ _)) ?_)))
  refine s.orders_heard.trans ?_
  split
  · exact .ite (.of_eq rfl rfl) (State.orders_checkCommand _ _ _ _)
  · exact State.orders_checkCommand _ _ _ _

end

/-! ### The cable memory unit (R161 to R172) -/

theorem State.orders_setCable (k : Cable) : s.Orders { s with cable := k } := .of_eq rfl rfl

theorem State.orders_enterReady : s.Orders s.enterReady := by
  unfold State.enterReady
  refine .after (State.orders_arbitrate _ _) ?_
  exact List.foldlRecOn allLegs _ (.of_eq rfl rfl) fun t h g _ => h.trans (.ite (t.orders_enterListen g _ _ _) (.refl t))

theorem State.orders_takeHeader (bs : List Byte) : s.Orders (s.takeHeader bs) := by
  unfold State.takeHeader
  exact .ite (.refl s) (.ite (.after (State.orders_enterReady _) (s.orders_setCable _)) (.ite (s.orders_setCable _) (s.orders_setCable _)))

theorem State.orders_installWindow (g : LegId) (w : Window) : s.Orders (s.installWindow g w) :=
  .after (.fields _ g (fun l => { l with window := some w }) fun _ => ⟨rfl, rfl, rfl⟩) (.of_eq rfl rfl)

theorem installDefault_orders (ds : List LegDefault) (r : State × Bool) (g : LegId) : r.1.Orders (installDefault ds r g).1 := by
  unfold installDefault
  split
  · rename_i d _ _
    have set : r.1.Orders (r.1.modLeg g (fun l => { l with rateCap := d.cap, autoStart := d.autoStart, autoWake := d.autoWake })) :=
      .fields _ g _ fun _ => ⟨rfl, rfl, rfl⟩
    dsimp only
    split
    · exact set
    · exact set.trans (State.orders_installWindow _ g _)
  · exact .refl r.1

theorem State.orders_takeThresholds : s.Orders s.takeThresholds where
  grant := id
  phase := fun k one => by
    unfold State.takeThresholds
    rw [State.mapLegs_leg]
    split
    · exact one.congr rfl rfl rfl
    · exact one

theorem State.orders_applyRecords (r : Accepted × Bool) : s.Orders (s.applyRecords r) := by
  have installed : s.Orders (allLegs.foldl (installDefault (r.1.defaults.getD []))
      ({ s with cable := s.cable.withRecords r.1 }, r.2)).1 :=
    List.foldlRecOn (motive := fun x : State × Bool => s.Orders x.1) allLegs _ (s.orders_setCable _)
      fun x h g _ => h.trans (installDefault_orders _ x g)
  exact .after (State.orders_setCable _ _) (installed.trans (State.orders_takeThresholds _))

theorem State.orders_takeImage (bs : List Byte) : s.Orders (s.takeImage bs) := by
  unfold State.takeImage
  split
  · exact .ite (s.orders_setCable _) (s.orders_applyRecords _)
  · exact .refl s

theorem State.orders_takeLearned (bytes : List Byte) : s.Orders (s.takeLearned bytes) := by
  unfold State.takeLearned
  exact .ite (.refl s) (.after (State.orders_enterReady _) (s.orders_setCable _))

theorem State.orders_endCommit (status : LearnedStatus) (data : List Byte) : s.Orders (s.endCommit status data) := .of_eq rfl rfl

theorem State.orders_pageSent : s.Orders s.pageSent := by
  unfold State.pageSent
  split
  · exact .ite (s.orders_setCable _) (.refl s)
  · exact .refl s

theorem State.orders_pollAcked : s.Orders s.pollAcked := by
  unfold State.pollAcked
  split
  · exact .ite (.refl s) (.ite (s.orders_setCable _) (s.orders_endCommit _ _))
  · exact .refl s

theorem State.orders_pollExpired : s.Orders s.pollExpired := by
  unfold State.pollExpired
  split
  · exact .ite (.refl s) (s.orders_endCommit _ _)
  · exact .refl s

theorem State.orders_pageNacked : s.Orders s.pageNacked := by
  unfold State.pageNacked
  split
  · exact .ite (s.orders_endCommit _ _) (.refl s)
  · exact .refl s

/-! ### The management port (R174 to R191) -/

/-- A request is as its kind's own act. -/
theorem State.orders_takeRequest (kind : Byte) (q : RequestBody) (act : State → List Byte → State)
    (h : ∀ t : State, t.Orders (act t q.payload)) : s.Orders (s.takeRequest kind q act) := by
  rcases s.takeRequest_cases kind q act with ⟨-, e⟩ | ⟨-, e⟩ <;> rw [e]
  · exact .of_eq rfl rfl
  · exact .trans (t := (s.collect false).occupy kind q.tag) (.of_eq rfl rfl) (h _)

variable (p : List Byte)

theorem State.orders_ofLength {t : State} (n : Nat) (h : s.Orders t) : s.Orders (s.ofLength n p t) := .ite h (s.orders_reply _ _)

theorem State.orders_forLeg (n : Nat) {act : LegId → State} (h : ∀ g, s.Orders (act g)) : s.Orders (s.forLeg n p act) := by
  rcases s.forLeg_cases n p act with ⟨g, -, -, -, e⟩ | e <;> rw [e]
  · exact h g
  · exact s.orders_reply _ _

theorem State.orders_forLane (n : Nat) {act : LaneId → State} (h : ∀ c, s.Orders (act c)) : s.Orders (s.forLane n p act) := by
  rcases s.forLane_cases n p act with ⟨c, -, -, e⟩ | e <;> rw [e]
  · exact h c
  · exact s.orders_reply _ _

theorem State.orders_doReadLeg : s.Orders (s.doReadLeg p) := by
  refine s.orders_forLeg p 2 fun g => ?_
  split
  · exact s.orders_reply _ _
  · exact .after (.fields _ g _ fun _ => ⟨rfl, rfl, rfl⟩) (s.orders_reply _ _)

theorem State.orders_configure (g : LegId) (k : LegConfig) : s.Orders (s.configure g k) := by
  unfold State.configure
  exact .after (.fields _ g _ fun _ => ⟨rfl, rfl, rfl⟩) (s.orders_installWindow g _)

theorem State.orders_doConfigureLeg : s.Orders (s.doConfigureLeg p) := by
  refine s.orders_forLeg p 12 fun g => .ite (s.orders_reply _ _) ?_
  split
  · exact s.orders_reply _ _
  · exact .ite (s.orders_reply _ _) ((s.orders_configure g _).trans (State.orders_reply _ _ _))

theorem State.orders_doStartLeg : s.Orders (s.doStartLeg p) :=
  s.orders_forLeg p 1 fun g => .ite (.arbitrated (.after (State.orders_reply _ _ _) (s.orders_enterListen g _ _ _)) _) (s.orders_reply _ _)

theorem State.orders_doStopLeg : s.Orders (s.doStopLeg p) := by
  refine s.orders_forLeg p 1 fun g => ?_
  split
  · exact s.orders_reply _ _
  · exact s.orders_reply _ _
  · exact .arbitrated (.after (State.orders_reply _ _ _) (s.orders_stopLeg g _)) _

theorem State.orders_doResetLeg : s.Orders (s.doResetLeg p) :=
  s.orders_forLeg p 1 fun g => .arbitrated (.after (State.orders_reply _ _ _) (s.orders_resetLeg g)) _

theorem State.orders_queuePower (g : LegId) (w : Power) : s.Orders (s.queuePower g w) :=
  .ite (.after (State.orders_reply _ _ _) (.pushed s g rfl)) (s.orders_reply _ _)

theorem State.orders_endPower (g : LegId) (w : Power) : s.Orders (s.endPower g w) := by
  unfold State.endPower
  split
  · exact s.orders_queuePower g _
  · exact .after (State.orders_reply _ _ _) (.after (.pushed _ g rfl) (s.orders_enterListen g _ _ _))
  · exact s.orders_reply _ _
  · exact s.orders_reply _ _
  · exact s.orders_reply _ _
  · exact s.orders_reply _ _
  · exact s.orders_queuePower g _

theorem State.orders_doSetLegPower : s.Orders (s.doSetLegPower p) := by
  refine s.orders_forLeg p 2 fun g => ?_
  split
  · exact s.orders_reply _ _
  · exact .ite (.ite (.arbitrated (.after (State.orders_reply _ _ _) (s.orders_powerTaken g _ _)) _) (s.orders_reply _ _))
      (s.orders_endPower g _)

theorem State.orders_doPinTaps : s.Orders (s.doPinTaps p) :=
  s.orders_forLane p 3 fun _ => .ite (.of_eq rfl rfl) (s.orders_reply _ _)

theorem State.orders_doCommitPresets : s.Orders (s.doCommitPresets p) := by
  refine s.orders_ofLength p 0 ?_
  split
  · exact .of_eq rfl rfl
  · exact s.orders_reply _ _

theorem State.orders_queueFarRead (g : LegId) (k : FetchKind) (lane : Nat) : s.Orders (s.queueFarRead g k lane) := by
  unfold State.queueFarRead
  refine .ite (s.orders_reply _ _) ?_
  split
  · exact s.orders_reply _ _
  · exact .ite (.after (State.orders_arbitrate _ _) (.pushed s g rfl)) (s.orders_reply _ _)

theorem State.orders_doFarRead : s.Orders (s.doFarRead p) := by
  refine .ite (s.orders_reply _ _) (s.orders_forLeg p 3 fun g => ?_)
  split
  · exact s.orders_reply _ _
  · exact .ite (s.orders_reply _ _) (s.orders_queueFarRead g _ _)

theorem State.orders_doSetNoticeLevels : s.Orders (s.doSetNoticeLevels p) :=
  s.orders_ofLength p 12 (.ite (.of_eq rfl rfl) (s.orders_reply _ _))

theorem State.orders_afterReset (strap : Role) (n : Nat) (q : List Instr) : s.Orders (State.afterReset strap n q) :=
  ⟨fun _ => State.afterReset_grantOk strap n q, fun k _ => State.afterReset_onePhase strap n q k⟩

theorem State.orders_replyGone : s.Orders s.replyGone := by
  unfold State.replyGone
  split
  · exact .refl s
  · exact .ite (s.orders_afterReset _ _ _) (.of_eq rfl rfl)

/-! ### Every command -/

theorem State.orders_windowReport (c : LaneId) (rep : Report) :
    s.Orders (match (s.lane c).owner with | some g => (s.takeReport g c rep).arbitrate false | none => s) := by
  split
  · exact (s.orders_takeReport _ c rep).arbitrated _
  · exact .refl s

theorem State.orders_scanReading (c : LaneId) (level : Fin 64) :
    s.Orders (match (s.lane c).owner with
      | some g => if s.scanned c then (s.takeReading g c ((s.leg g).presThreshold ≤ level.val)).arbitrate false else s
      | none => s) := by
  split
  · exact .ite ((s.orders_takeReading _ c _).arbitrated _) (.refl s)
  · exact .refl s

theorem State.orders_holdoff (g : LegId) :
    s.Orders (((s.modLeg g (fun l => { l with holdoff := none })).checkListen g).arbitrate false) :=
  .after (State.orders_arbitrate _ _) (.after (State.orders_checkListen _ g)
    (.fields s g (fun l => { l with holdoff := none }) fun _ => ⟨rfl, rfl, rfl⟩))

/-- A change of the transaction in flight, where there is one. -/
theorem State.orders_onTx (f : Transaction → State) (h : ∀ x, s.Orders (f x)) :
    s.Orders (match s.tx with | some x => f x | none => s) := by
  split
  · exact h _
  · exact .refl s

end

/-- Every command keeps a grant within its limit and one unsent PHASE to a leg. -/
theorem exec_orders {i : Instr} {s t : State} (h : exec i s = .next t) : s.Orders t := by
  cases i <;> (injection h with h; subst h)
  case deviceReset strap => exact s.orders_afterReset _ _ _
  case settlingEnd => exact .ite (s.orders_setCable _) (.refl s)
  case factoryHeaderRead bytes => exact s.orders_takeHeader bytes
  case factoryImageRead bytes => exact s.orders_takeImage bytes
  case learnedBlockRead bytes => exact s.orders_takeLearned bytes
  case windowReport c h e r => exact s.orders_windowReport c _
  case scanReading c level => exact s.orders_scanReading c level
  case settleExpiry c => exact s.orders_modLane c _
  case probeHoldoffExpiry g => exact .ite (s.orders_holdoff g) (.refl s)
  case attemptDeadlineExpiry g => exact .ite ((s.orders_attemptFails g _).arbitrated _) (.refl s)
  case probeWaitExpiry => exact .ite (s.orders_enterFault 0 _) (.refl s)
  case hubSilenceExpiry => exact .ite (.after (State.orders_hubSilent _ 0) (.of_eq rfl rfl)) (.refl s)
  case keepaliveTimerExpiry g =>
    exact .ite (.after (State.orders_arbitrate _ _) (.modLeg s g fun _ one => Leg.keptAlive_onePhase one)) (.refl s)
  case commandFrameSent g seq => exact s.orders_onTx _ fun x => .ite (s.orders_setTx _) (.refl s)
  case sidebandAck g f => exact s.orders_takeResponse g _ _ f
  case sidebandDefer g f => exact s.orders_takeResponse g _ _ f
  case sidebandRefuse g f => exact s.orders_takeResponse g _ _ f
  case replyFailingChecks g low mid f => exact s.orders_takeResponse g low mid f
  case replyTimeout => exact s.orders_onTx _ fun x => .ite (s.orders_timeout x) (.refl s)
  case backoffEnd => exact s.orders_onTx _ fun x => .ite (s.orders_setTx _) (.refl s)
  case transactionExpiry => exact s.orders_onTx _ fun x => (s.orders_post _ _ _).trans (State.orders_endTx _ x _)
  case beaconReceived g level crc => exact .ite (s.orders_takeBeacon g level) (.refl s)
  case beaconSilence g => exact s.orders_takeBeacon g 0
  case hubCommandFrame pair kind item f => exact s.orders_takeCommand kind item f pair
  case probeCommand pair f => exact s.orders_takeCommand 1 1 f pair
  case fetchCommand pair item f => exact s.orders_takeCommand 2 _ f pair
  case storePhase pair f => exact s.orders_takeCommand 3 4 f pair
  case storeTapStatus pair f => exact s.orders_takeCommand 3 6 f pair
  case exchangeTapRequest pair f => exact s.orders_takeCommand 4 5 f pair
  case drainCommand pair item f => exact s.orders_takeCommand 5 item f pair
  case unknownCommandOrItem pair kind item f => exact s.orders_takeCommand kind item f pair
  case requestFrameGap => exact .of_eq rfl rfl
  case requestFrameStart b => exact .ite (.of_eq rfl rfl) (.refl s)
  case requestFrameDiscarded why => exact .ite (.of_eq rfl rfl) (.refl s)
  case replySent => exact s.orders_replyGone
  case identify q => exact s.orders_takeRequest 0x01 q _ fun t => t.orders_ofLength _ 0 (t.orders_reply _ _)
  case readLeg q => exact s.orders_takeRequest 0x02 q _ fun t => t.orders_doReadLeg _
  case readLane q => exact s.orders_takeRequest 0x03 q _ fun t => t.orders_forLane _ 1 fun _ => t.orders_reply _ _
  case configureLeg q => exact s.orders_takeRequest 0x04 q _ fun t => t.orders_doConfigureLeg _
  case startLeg q => exact s.orders_takeRequest 0x05 q _ fun t => t.orders_doStartLeg _
  case stopLeg q => exact s.orders_takeRequest 0x06 q _ fun t => t.orders_doStopLeg _
  case resetLeg q => exact s.orders_takeRequest 0x07 q _ fun t => t.orders_doResetLeg _
  case setLegPower q => exact s.orders_takeRequest 0x08 q _ fun t => t.orders_doSetLegPower _
  case pinTaps q => exact s.orders_takeRequest 0x09 q _ fun t => t.orders_doPinTaps _
  case unpinTaps q => exact s.orders_takeRequest 0x0A q _ fun t => t.orders_forLane _ 1 fun _ => .of_eq rfl rfl
  case readPresets q => exact s.orders_takeRequest 0x0B q _ fun t => t.orders_ofLength _ 0 (t.orders_reply _ _)
  case commitPresets q => exact s.orders_takeRequest 0x0C q _ fun t => t.orders_doCommitPresets _
  case forgetPresets q => exact s.orders_takeRequest 0x0D q _ fun t => t.orders_ofLength _ 0 (.of_eq rfl rfl)
  case farRead q => exact s.orders_takeRequest farReadKind q _ fun t => t.orders_doFarRead _
  case readNotices q => exact s.orders_takeRequest 0x0F q _ fun t => t.orders_ofLength _ 0 (.of_eq rfl rfl)
  case setNoticeLevels q => exact s.orders_takeRequest 0x10 q _ fun t => t.orders_doSetNoticeLevels _
  case resetDevice q => exact s.orders_takeRequest 0x11 q _ fun t => t.orders_ofLength _ 0 (.of_eq rfl rfl)
  case unknownRequestKind kind q => exact .ite (.refl s) (s.orders_takeRequest kind q _ fun t => t.orders_reply _ _)
  case pageSent => exact s.orders_pageSent
  case pollAcknowledged => exact s.orders_pollAcked
  case pollLimitExpiry => exact s.orders_pollExpired
  case pageWriteNack => exact s.orders_pageNacked

/-- Every step does, the idle one too. -/
theorem step_orders {s t : State} (h : step s = .next t) : s.Orders t := by
  cases e : s.pending with
  | nil =>
    rw [step_of_pending_nil e] at h
    injection h with h
    exact h ▸ .of_eq rfl rfl
  | cons c rest =>
    rw [step_of_pending_cons e] at h
    exact .trans (t := { s with pending := rest }) (.of_eq rfl rfl) (exec_orders h)

end Sys2Proof.Machine

/-- Settles O59: only the arbiter's choice moves a grant, and it raises the count of one below its limit alone. -/
theorem stepKeepsGrant : Obligations.StepKeepsGrant := by
  unfold Obligations.StepKeepsGrant
  exact fun _ _ ok h => (step_orders h).grant ok

/-- Settles O53: a PHASE queued takes the place of an unsent one, and every step keeps one to a leg at most. -/
theorem onePhasePerLeg : Obligations.OnePhasePerLeg := by
  unfold Obligations.OnePhasePerLeg
  refine ⟨fun l st a r places _ one => ?_, fun _ _ ok h k => (step_orders h).phase k (ok k)⟩
  exact ⟨(l.queuePhase_requeued st a r).places places, Leg.queuePhase_replaces one st a r⟩
end

