-- ==== Sys2Proof/Proofs/Readiness.lean ====
section
/-! SUPPORT. The entry to READY (R161) with its auto-starts in leg order (R25): what they leave alone, and what each started leg
comes to. Then the header read (R162), which may end in it. -/

open Sys2Proof Sys2Proof.Machine

namespace Sys2Proof.Machine

/-! ### One auto-start -/

/-- The leg starts by itself at READY (R25). -/
def State.startsItself (s : State) (g : LegId) : Prop :=
  s.hasLeg g ∧ (s.leg g).autoStart ∧ (s.leg g).window.isSome ∧ (s.leg g).state = .off

theorem State.autoStart_starts {s : State} {g : LegId} (h : s.startsItself g) :
    s.autoStart g = s.enterListen g .autoStart false false := if_pos h

theorem State.autoStart_stays {s : State} {g : LegId} (h : ¬s.startsItself g) : s.autoStart g = s := if_neg h

/-- What holds of a state and after an entry to LISTEN by auto-start holds after the judgement of a leg. -/
theorem State.autoStart_induct {s : State} {P : State → Prop} (g : LegId) (stays : P s)
    (starts : P (s.enterListen g .autoStart false false)) : P (s.autoStart g) := by
  by_cases h : s.startsItself g
  · rw [State.autoStart_starts h]; exact starts
  · rw [State.autoStart_stays h]; exact stays

theorem State.autoStart_acts (s : State) (g : LegId) : s.Acts g (s.autoStart g) :=
  State.autoStart_induct g (.refl s g) (s.acts_enterListen g _ _ _)

theorem State.autoStart_cable (s : State) (g : LegId) : (s.autoStart g).cable = s.cable :=
  State.autoStart_induct (P := fun t => t.cable = s.cable) g rfl (s.enterListen_cable g _ _ _)

theorem State.autoStart_presenceKept (s : State) (g : LegId) : s.presenceKept (s.autoStart g) :=
  State.autoStart_induct g (.refl s) (s.enterListen_presenceKept g _ _ _)

theorem State.autoStart_port {s : State} (free : s.port.slot.any (fun q => q.kind == farReadKind) = false) (g : LegId) :
    (s.autoStart g).port = s.port :=
  State.autoStart_induct (P := fun t => t.port = s.port) g rfl (State.enterListen_port free g _ _)

/-- An entry to LISTEN posts LEG_STATE twice at most. -/
theorem State.enterListen_few (s : State) (g : LegId) (cause : LegCause) (phase : Bool) :
    (s.enterListen g cause false phase).notices.records.length ≤ s.notices.records.length + 2 := by
  have once : (s.listened g cause false phase).notices.records.length ≤ s.notices.records.length + 1 := by
    rw [State.listened_notices]
    exact NoticeQueue.length_post le_rfl
  rcases State.enterListen_cases (s := s) (g := g) cause false phase with e | ⟨-, -, e⟩ | ⟨-, e⟩ <;> rw [e]
  · omega
  · obtain ⟨-, -, -, -, notices⟩ := (s.listened g cause false phase).enterProbe_rest g
    rw [notices]
    exact NoticeQueue.length_post once
  · rw [State.modLeg_notices]; omega

theorem State.autoStart_few (s : State) (g : LegId) :
    (s.autoStart g).notices.records.length ≤ s.notices.records.length + 2 :=
  State.autoStart_induct (P := fun t => t.notices.records.length ≤ s.notices.records.length + 2) g (Nat.le_add_right _ 2)
    (s.enterListen_few g _ _)

/-! ### The auto-starts in turn -/

/-- What the auto-starts of other legs leave of leg g and of what its own start looks at. -/
structure State.AsideOf (s : State) (g : LegId) (t : State) : Prop where
  role : t.role = s.role
  time : t.time = s.time
  cable : t.cable = s.cable
  leg : t.leg g = s.leg g
  presence : s.presenceKept t

theorem State.AsideOf.refl (s : State) (g : LegId) : s.AsideOf g s := ⟨rfl, rfl, rfl, rfl, .refl s⟩

theorem State.AsideOf.trans {s t u : State} {g : LegId} (h : s.AsideOf g t) (k : t.AsideOf g u) : s.AsideOf g u :=
  ⟨k.role.trans h.role, k.time.trans h.time, k.cable.trans h.cable, k.leg.trans h.leg, h.presence.trans k.presence⟩

theorem State.autoStarts_aside {g : LegId} {ks : List LegId} (out : g ∉ ks) (s : State) : s.AsideOf g (ks.foldl State.autoStart s) :=
  List.foldlRecOn (motive := s.AsideOf g) ks _ (.refl s g) fun t h k hk => by
    have other : g ≠ k := fun e => out (e ▸ hk)
    have acts := t.autoStart_acts k
    exact h.trans ⟨acts.role, acts.time, t.autoStart_cable k, acts.others g other, t.autoStart_presenceKept k⟩

theorem State.AsideOf.allPresent {s t : State} {g : LegId} (h : s.AsideOf g t) : t.allPresent g = s.allPresent g :=
  State.allPresent_congr (by rw [h.leg]) fun c => (h.presence c).1

theorem State.AsideOf.ident {s t : State} {g : LegId} (h : s.AsideOf g t) : t.ident g = s.ident g := by
  unfold State.ident
  rw [h.role, h.leg, h.cable]

theorem State.AsideOf.startsItself {s t : State} {g : LegId} (h : s.AsideOf g t) : t.startsItself g ↔ s.startsItself g := by
  unfold State.startsItself State.hasLeg
  rw [h.role, h.leg]

/-- A leg's record after all auto-starts is that of its own, begun from a state the others left aside. -/
theorem State.autoStarts_leg (s : State) (g : LegId) :
    ∃ u, s.AsideOf g u ∧ (allLegs.foldl State.autoStart s).leg g = (u.autoStart g).leg g := by
  have nodup : allLegs.Nodup := by decide
  obtain ⟨before, after, split⟩ := List.append_of_mem (mem_allLegs g)
  rw [split] at nodup ⊢
  obtain ⟨earlier, later⟩ : g ∉ before ∧ g ∉ after := by
    have apart := List.nodup_append.mp nodup
    exact ⟨fun h => apart.2.2 g h g (List.mem_cons_self ..) rfl, (List.nodup_cons.mp apart.2.1).1⟩
  refine ⟨before.foldl State.autoStart s, State.autoStarts_aside earlier s, ?_⟩
  rw [List.foldl_append, List.foldl_cons]
  exact (State.autoStarts_aside later _).leg

theorem State.autoStarts_role (s : State) : (allLegs.foldl State.autoStart s).role = s.role :=
  List.foldlRecOn (motive := fun t : State => t.role = s.role) allLegs _ rfl fun t h k _ => (t.autoStart_acts k).role.trans h

theorem State.autoStarts_cable (s : State) : (allLegs.foldl State.autoStart s).cable = s.cable :=
  List.foldlRecOn (motive := fun t : State => t.cable = s.cable) allLegs _ rfl fun t h k _ => (t.autoStart_cable k).trans h

theorem State.tapsKept.refl (s : State) : s.tapsKept s := fun _ => ⟨rfl, rfl, rfl, rfl⟩

theorem State.tapsKept.trans {s t u : State} (h : s.tapsKept t) (k : t.tapsKept u) : s.tapsKept u := fun c => by
  obtain ⟨taps, pinned, settle, far⟩ := h c
  obtain ⟨taps', pinned', settle', far'⟩ := k c
  exact ⟨taps'.trans taps, pinned'.trans pinned, settle'.trans settle, far'.trans far⟩

theorem State.autoStarts_tapsKept (s : State) : s.tapsKept (allLegs.foldl State.autoStart s) :=
  List.foldlRecOn (motive := s.tapsKept) allLegs _ (.refl s) fun t h k _ => h.trans (t.autoStart_acts k).taps

theorem State.autoStarts_port {s : State} (free : s.port.slot.any (fun q => q.kind == farReadKind) = false) :
    (allLegs.foldl State.autoStart s).port = s.port :=
  List.foldlRecOn (motive := fun t : State => t.port = s.port) allLegs _ rfl fun t h k _ =>
    (State.autoStart_port (by rw [h]; exact free) k).trans h

/-- A record of another kind than LEG_STATE goes on being shown while there is room for two records a leg. -/
theorem State.autoStarts_shows {k : NoticeKind} {o : Option LegId} {data : List Byte} (other : .legState ≠ k) (ks : List LegId) :
    ∀ s : State, s.notices.shows k o data → s.notices.records.length + 2 * ks.length ≤ 15 →
      (ks.foldl State.autoStart s).notices.shows k o data := by
  induction ks with
  | nil => exact fun _ shown _ => shown
  | cons g ks ih =>
    intro s shown few
    rw [List.length_cons] at few
    have fewAfter := s.autoStart_few g
    refine ih _ ?_ (by omega)
    exact State.autoStart_induct (P := fun t => t.notices.shows k o data) g shown (State.enterListen_shows _ _ shown other (by omega))

/-! ### The entry to READY -/

/-- READY with LOAD_DONE posted, before the auto-starts. -/
def State.readied (s : State) : State :=
  State.post { s with cable := { s.cable with startup := .ready } } .loadDone none
    [byteOf (loadCode s.cable.loadStatus), byteOf (learnedCode s.cable.learnedStatus)]

theorem State.enterReady_eq (s : State) : s.enterReady = (allLegs.foldl State.autoStart s.readied).arbitrate false := rfl

theorem State.enterReady_cable (s : State) : s.enterReady.cable = { s.cable with startup := .ready } := by
  rw [State.enterReady_eq, State.arbitrate_cable, State.autoStarts_cable]
  rfl

theorem State.enterReady_tapsKept (s : State) : s.tapsKept s.enterReady := fun c => by
  rw [State.enterReady_eq, State.arbitrate_lane]
  exact s.readied.autoStarts_tapsKept c

theorem State.enterReady_port {s : State} (free : s.port.slot.any (fun q => q.kind == farReadKind) = false) :
    s.enterReady.port = s.port := by
  rw [State.enterReady_eq, State.arbitrate_port]
  exact State.autoStarts_port (s := s.readied) free

theorem State.enterReady_shows {s : State} (empty : s.notices.records = []) : s.enterReady.notices.shows .loadDone none
    [byteOf (loadCode s.cable.loadStatus), byteOf (learnedCode s.cable.learnedStatus)] := by
  rw [State.enterReady_eq, State.arbitrate_notices]
  have few : s.readied.notices.records.length ≤ 0 + 1 := NoticeQueue.length_post (by rw [empty]; exact le_rfl)
  have shown : s.readied.notices.shows .loadDone none
      [byteOf (loadCode s.cable.loadStatus), byteOf (learnedCode s.cable.learnedStatus)] :=
    NoticeQueue.shows_post (q := s.notices) (by rw [empty]; decide)
  have legs : allLegs.length = 4 := rfl
  exact State.autoStarts_shows (by decide) allLegs s.readied shown (by omega)

/-- A leg's record at READY, but for traffic: that of its own auto-start from a state that shows it as `s` does. -/
theorem State.enterReady_leg (s : State) (g : LegId) : ∃ u : State, s.readied.AsideOf g u
    ∧ (allLegs.foldl State.autoStart s.readied).leg g = (u.autoStart g).leg g := s.readied.autoStarts_leg g

theorem State.enterReady_stays {s : State} {g : LegId} (h : ¬s.startsItself g) : (s.enterReady.leg g).state = (s.leg g).state := by
  obtain ⟨u, aside, record⟩ := s.enterReady_leg g
  have stays : ¬u.startsItself g := fun k => h (aside.startsItself.mp k)
  rw [State.enterReady_eq, State.arbitrate_state, record, State.autoStart_stays stays, aside.leg]
  rfl

/-- A leg with auto-start and a window comes to LISTEN, or to PROBE at a HUB that sees every window lane (R25, R28). -/
theorem State.enterReady_starts {s : State} {g : LegId} (h : s.startsItself g) :
    (s.enterReady.leg g).state = (if s.isHub ∧ s.allPresent g then .probe else .listen) ∧ (s.enterReady.leg g).enteredAt = s.time
      ∧ (s.enterReady.leg g).retrains = 0 ∧ (s.enterReady.leg g).holdoff = none
      ∧ (s.isHub → s.allPresent g → s.enterReady.sends g (.probe (s.ident g))) := by
  obtain ⟨u, aside, record⟩ := s.enterReady_leg g
  rw [State.autoStart_starts (aside.startsItself.mpr h)] at record
  have hub : u.isHub = s.isHub := by rw [State.isHub, aside.role]; rfl
  have present : u.allPresent g = s.allPresent g := aside.allPresent
  have field {α : Type} (f : Leg → α) (apart : ∀ l : Leg, f l.apart = f l)
      (probed : f (((u.leg g).listening u.role u.time false false).entered u.role .probe none u.time)
        = f ((u.leg g).listening u.role u.time false false))
      (waited : ∀ w, f { (u.leg g).listening u.role u.time false false with probeWait := w }
        = f ((u.leg g).listening u.role u.time false false)) :
      f (s.enterReady.leg g) = f ((u.leg g).listening u.role u.time false false) := by
    rw [State.enterReady_eq, State.arbitrate_field f apart, record]
    exact State.enterListen_field .autoStart false f apart probed waited
  refine ⟨?_, (field Leg.enteredAt (fun _ => rfl) rfl fun _ => rfl).trans aside.time,
    field Leg.retrains (fun _ => rfl) rfl fun _ => rfl, field Leg.holdoff (fun _ => rfl) rfl fun _ => rfl, fun isHub every => ?_⟩
  · rw [State.enterReady_eq, State.arbitrate_state, record, State.enterListen_state, hub, present]
  · rw [State.enterReady_eq]
    refine State.arbitrate_sends (State.sends_of_carries (.inl ?_)) false
    rw [record, State.enterListen_queue_hub .autoStart false (hub.trans isHub), present, every, aside.ident]
    exact List.mem_singleton_self _

/-! ### The header read (R162, R198) -/

theorem nat16_le16 {n : Nat} (h : n < 65536) : (byteOf n).toNat + 256 * (byteOf (n / 256)).toNat = n := by
  simp only [byteOf, BitVec.toNat_ofNat]
  omega

/-- A good header: magic, format and the length and CRC given. -/
theorem natAt_header (n m : Nat) : let bs : List Byte := [0x48, 0x4A, 1] ++ le16 n ++ le16 m
    bs.length = 7 ∧ natAt bs 0 = 0x48 ∧ natAt bs 1 = 0x4A ∧ natAt bs 2 = 1
      ∧ nat16At bs 3 = (byteOf n).toNat + 256 * (byteOf (n / 256)).toNat
      ∧ nat16At bs 5 = (byteOf m).toNat + 256 * (byteOf (m / 256)).toNat := ⟨rfl, rfl, rfl, rfl, rfl, rfl⟩

theorem State.takeHeader_none {s : State} (reads : s.cable.startup = .loadingHeader) : s.takeHeader [] =
    State.enterReady { s with cable := { s.cable with
      loadStatus := some .noMemory, learnedStatus := some .absent, learnedSerial := s.cable.serial } } := by
  unfold State.takeHeader
  rw [if_neg (not_not.mpr reads), if_pos rfl]

theorem State.takeHeader_bad {s : State} {bs : List Byte} (reads : s.cable.startup = .loadingHeader) (some : bs ≠ [])
    (bad : bs.length < 7 ∨ natAt bs 0 ≠ 0x48 ∨ natAt bs 1 ≠ 0x4A ∨ natAt bs 2 ≠ 1 ∨ 1024 < nat16At bs 3 ∨ nat16At bs 3 < 7) :
    s.takeHeader bs = s.badImage := by
  unfold State.takeHeader
  rw [if_neg (not_not.mpr reads), if_neg some, if_pos bad]

theorem State.takeHeader_good {s : State} {bs : List Byte} (reads : s.cable.startup = .loadingHeader)
    (good : ¬(bs.length < 7 ∨ natAt bs 0 ≠ 0x48 ∨ natAt bs 1 ≠ 0x4A ∨ natAt bs 2 ≠ 1 ∨ 1024 < nat16At bs 3 ∨ nat16At bs 3 < 7)) :
    s.takeHeader bs = { s with cable := { s.cable with
      startup := .loadingImage (nat16At bs 3) (BitVec.ofNat 16 (nat16At bs 5)) } } := by
  have some : bs ≠ [] := fun e => good (.inl (by rw [e]; decide))
  unfold State.takeHeader
  rw [if_neg (not_not.mpr reads), if_neg some, if_neg good]

end Sys2Proof.Machine

/-- Settles O4: each outcome is an equation of `State.takeHeader`; without a memory the part is at READY, where no auto-start moves
the cable memory unit or a lane's taps. -/
theorem headerReadJudged : Obligations.HeaderReadJudged := by
  unfold Obligations.HeaderReadJudged
  refine ⟨fun s settling => congrArg Host.Outcome.next (if_pos settling), fun s reads => ?_, fun s bytes reads some bad => ?_,
    fun s n crc reads long short => ?_⟩
  · refine ⟨_, congrArg Host.Outcome.next (State.takeHeader_none reads), ?_, State.enterReady_tapsKept _⟩
    rw [State.enterReady_cable]
  · exact congrArg Host.Outcome.next (State.takeHeader_bad reads some (by tauto))
  · obtain ⟨length, m0, m1, format, len, sum⟩ := natAt_header n crc.toNat
    have len' : nat16At ([0x48, 0x4A, 1] ++ le16 n ++ le16 crc.toNat) 3 = n := len.trans (nat16_le16 (by omega))
    have sum' : nat16At ([0x48, 0x4A, 1] ++ le16 n ++ le16 crc.toNat) 5 = crc.toNat := sum.trans (nat16_le16 crc.isLt)
    have good := State.takeHeader_good (s := s) (bs := [0x48, 0x4A, 1] ++ le16 n ++ le16 crc.toNat) reads (by
      rw [length, m0, m1, format, len']; omega)
    rw [len', sum', BitVec.ofNat_toNat, BitVec.setWidth_eq] at good
    exact congrArg Host.Outcome.next good
end

