-- ==== Sys2Proof/Proofs/CommitJob.lean ====
section
/-! SUPPORT. The commit job (R170 to R172): its pages, and what its four events do with a job and without one. Then COMMIT_PRESETS and
FORGET_PRESETS (R168 to R170). -/

open Sys2Proof Sys2Proof.Machine

namespace Sys2Proof.Machine

/-! ### Pages (R171, R199) -/

theorem entryPage_length (v : Vector LearnedEntry 8) (a b : LaneId) : (entryPage v a b).length = 16 := rfl

/-- Each page has sixteen bytes, and its write index gives its address. -/
theorem Job.page_spec (j : Job) (h : j.index ≤ 5) :
    j.page.2.length = 16 ∧ j.page.1 = 0x400 + 16 * (if j.index = 5 then 0 else j.index) := by
  obtain ⟨v, serial, index, poll⟩ := j
  have write : index = 0 ∨ index = 1 ∨ index = 2 ∨ index = 3 ∨ index = 4 ∨ index = 5 := by dsimp only at h; omega
  rcases write with rfl | rfl | rfl | rfl | rfl | rfl
  · exact ⟨by simp [Job.page], rfl⟩
  · exact ⟨entryPage_length v 0 1, rfl⟩
  · exact ⟨entryPage_length v 2 3, rfl⟩
  · exact ⟨entryPage_length v 4 5, rfl⟩
  · exact ⟨entryPage_length v 6 7, rfl⟩
  · exact ⟨by simp [Job.page, le16], rfl⟩

theorem Job.page_first (j : Job) (h : j.index = 0) : j.page.2 = [0, 0] ++ j.serial.toList ++ [0, 0, 0, 0, 0, 0] := by
  obtain ⟨v, serial, index, poll⟩ := j
  subst h
  rfl

/-! ### The events of a job (R171, R172) -/

section
variable {s : State} {j : Job} (runs : s.cable.job = some j)
include runs

theorem State.pageSent_runs (sends : j.poll = none) :
    s.pageSent = { s with cable := { s.cable with job := some { j with poll := some (s.time + 10000) } } } := by
  unfold State.pageSent
  rw [runs]
  exact if_pos sends

theorem State.pollAcked_next (polls : j.poll ≠ none) (more : j.index < 5) :
    s.pollAcked = { s with cable := { s.cable with job := some { j with index := j.index + 1, poll := none } } } := by
  unfold State.pollAcked
  rw [runs]
  exact (if_neg polls).trans (if_pos more)

theorem State.pollAcked_last (polls : j.poll ≠ none) (last : j.index = 5) : s.pollAcked = s.endCommit .ok [0, 0] := by
  unfold State.pollAcked
  rw [runs]
  exact (if_neg polls).trans (if_neg (by omega))

theorem State.pollExpired_runs (polls : j.poll ≠ none) : s.pollExpired = s.endCommit .absent [1, byteOf j.index] := by
  unfold State.pollExpired
  rw [runs]
  exact if_neg polls

theorem State.pageNacked_runs (sends : j.poll = none) : s.pageNacked = s.endCommit .absent [2, byteOf j.index] := by
  unfold State.pageNacked
  rw [runs]
  exact if_pos sends

end

/-- Without a job none of the four events changes anything (log 1). -/
theorem State.commit_idle {s : State} (idle : s.cable.job = none) :
    s.pageSent = s ∧ s.pollAcked = s ∧ s.pollExpired = s ∧ s.pageNacked = s := by
  unfold State.pageSent State.pollAcked State.pollExpired State.pageNacked
  rw [idle]
  exact ⟨rfl, rfl, rfl, rfl⟩

/-! ### COMMIT_PRESETS and FORGET_PRESETS (R168 to R170) -/

theorem forgotten_get (v : Vector LearnedEntry 8) (c : LaneId) : (forgotten v)[c] = { v[c] with valid := false } := by
  unfold forgotten
  rw [vec8_get]

theorem Cable.startCommit_eq (k : Cable) : k.startCommit = { k with
    learned := k.claimed.learned, learnedSerial := k.serial, job := some ⟨k.claimed.learned, k.serial, 0, none⟩ } := by
  unfold Cable.startCommit
  rw [Cable.claimed_same, Cable.claimed_serial]

section
variable {s : State} (takes : s.takesRequests) (tag : Byte)
include takes

theorem exec_commitPresets_free (free : s.cable.job = none) : exec (.commitPresets ⟨tag, []⟩) s = .next
    { s with cable := s.cable.startCommit, port := s.port.answered 0x0C tag .accepted [] } := by
  refine congrArg Host.Outcome.next ((State.takeRequest_taken takes _ _ _).trans ?_)
  unfold State.doCommitPresets
  rw [State.taken_cable, free]
  rfl

theorem exec_commitPresets_running {j : Job} (runs : s.cable.job = some j) : exec (.commitPresets ⟨tag, []⟩) s = .next
    { s with port := s.port.answered 0x0C tag .wrongState [] } := by
  refine congrArg Host.Outcome.next ((State.takeRequest_taken takes _ _ _).trans ?_)
  unfold State.doCommitPresets
  rw [State.taken_cable, runs]
  rfl

theorem exec_forgetPresets : exec (.forgetPresets ⟨tag, []⟩) s = .next
    { s with cable := { s.cable with learned := forgotten s.cable.learned }, port := s.port.answered 0x0D tag .ok [] } :=
  congrArg Host.Outcome.next (State.takeRequest_taken takes _ _ _)

end

end Sys2Proof.Machine

/-- Settles O8: each event of a job is one equation, and the pages are read off `Job.page` by the write index. -/
theorem commitJobSteps : Obligations.CommitJobSteps := by
  unfold Obligations.CommitJobSteps
  refine ⟨fun j h => ?_, fun s j runs sends => congrArg Host.Outcome.next (State.pageSent_runs runs sends),
    fun s j runs polls more => congrArg Host.Outcome.next (State.pollAcked_next runs polls more),
    fun s j runs polls last => congrArg Host.Outcome.next (State.pollAcked_last runs polls last),
    fun s j runs polls => congrArg Host.Outcome.next (State.pollExpired_runs runs polls),
    fun s j runs sends => congrArg Host.Outcome.next (State.pageNacked_runs runs sends), fun s i idle event => ?_⟩
  · obtain ⟨length, address⟩ := j.page_spec h
    exact ⟨length, by rw [address]; exact Nat.le_add_right _ _, address, j.page_first⟩
  · obtain ⟨sent, acked, expired, nacked⟩ := State.commit_idle idle
    rcases event with rfl | rfl | rfl | rfl
    · exact congrArg Host.Outcome.next sent
    · exact congrArg Host.Outcome.next acked
    · exact congrArg Host.Outcome.next expired
    · exact congrArg Host.Outcome.next nacked

/-- Settles O49: the job starts with the claimed table (`Cable.claimed`), and forgetting marks every entry invalid. -/
theorem presetsAreCommittedAndForgotten : Obligations.PresetsAreCommittedAndForgotten := by
  unfold Obligations.PresetsAreCommittedAndForgotten
  refine ⟨fun s tag takes free => ?_, fun s tag takes busy => ?_, fun s tag takes => ?_⟩
  · refine ⟨_, exec_commitPresets_free takes tag free, rfl, ?_⟩
    rw [Cable.startCommit_eq]
    exact ⟨rfl, fun c => s.cable.claimed_learned c, rfl, rfl⟩
  · obtain ⟨j, runs⟩ := Option.ne_none_iff_exists'.mp busy
    exact exec_commitPresets_running takes tag runs
  · exact ⟨_, exec_forgetPresets takes tag, rfl, fun c => forgotten_get _ c⟩
end

