-- ==== Sys2Proof/Proofs/SlotsKept.lean ====
section
/-! SUPPORT. Outside the management port's own commands the start-up state and the request in progress stand as they stood
(R161, R175): a relation that composes (`State.SameSlot`), and every operation of the leg controller, the training engine, the HUB's
sideband and the END's responder, in the order of the definitions. -/

open Sys2Proof Sys2Proof.Machine

namespace Sys2Proof.Machine

/-! ### Ways to compose -/

/-- From s to t neither the start-up state nor the request in progress moved. -/
structure State.SameSlot (s t : State) : Prop where
  startup : t.cable.startup = s.cable.startup
  slot : t.port.slot = s.port.slot

namespace State.SameSlot

variable {s t u : State} {g : LegId}

theorem refl (s : State) : s.SameSlot s := ⟨rfl, rfl⟩

theorem trans (h : s.SameSlot t) (k : t.SameSlot u) : s.SameSlot u := ⟨k.startup.trans h.startup, k.slot.trans h.slot⟩

/-- `State.SameSlot.trans` with the last operation first. -/
theorem after (k : t.SameSlot u) (h : s.SameSlot t) : s.SameSlot u := h.trans k

theorem ite {p : Prop} [Decidable p] (h : s.SameSlot t) (k : s.SameSlot u) : s.SameSlot (if p then t else u) := by
  split
  · exact h
  · exact k

theorem of_eq (cable : t.cable = s.cable) (port : t.port = s.port) : s.SameSlot t := ⟨by rw [cable], by rw [port]⟩

/-- An operation of one leg's controller that only adds replies. -/
theorem of_aside (acts : s.Acts g t) (aside : s.EngineAside t g) : s.SameSlot t := ⟨by rw [acts.cable], aside.slot⟩

/-- What follows an operation leaves the cable memory unit and the port alone. -/
theorem then_eq (h : s.SameSlot t) (cable : u.cable = t.cable) (port : u.port = t.port) : s.SameSlot u := h.trans (of_eq cable port)

theorem arbitrated (h : s.SameSlot t) (ends : Bool) : s.SameSlot (t.arbitrate ends) :=
  h.then_eq (t.arbitrate_cable ends) (t.arbitrate_port ends)

/-- Before READY the slot still holds no request but an IDENTIFY. -/
theorem portOk (h : s.SameSlot t) (ok : s.PortOk) : t.PortOk := fun early q hq =>
  ok (by rw [← h.startup]; exact early) q (by rw [← h.slot]; exact hq)

end State.SameSlot

/-! ### Replies, flushes and entries (R22, R176) -/

theorem Port.answer_slot (p : Port) (st : Status) (payload : List Byte) (resets : Bool) : (p.answer st payload resets).slot = p.slot := by
  rcases p.answer_cases st payload resets with ⟨-, e⟩ | ⟨q, -, e⟩ <;> rw [e]

section
variable (s : State) (g : LegId)

theorem State.sameSlot_reply (st : Status) (payload : List Byte) : s.SameSlot (s.reply st payload) :=
  ⟨rfl, s.port.answer_slot st payload false⟩

theorem State.sameSlot_farReadDone (st : Status) (payload : List Byte) : s.SameSlot (s.farReadDone st payload) :=
  .ite (s.sameSlot_reply st payload) (.refl s)

theorem State.sameSlot_enterListen (cause : LegCause) (holdoff phase : Bool) : s.SameSlot (s.enterListen g cause holdoff phase) :=
  .of_aside (s.acts_enterListen g cause holdoff phase) (s.aside_enterListen g cause holdoff phase)

theorem State.sameSlot_enterFault (why : FaultReason) : s.SameSlot (s.enterFault g why) :=
  .of_aside (s.acts_enterFault g why) (s.aside_enterFault g why)

theorem State.sameSlot_enterTrain (cause : LegCause) (n : Nat) : s.SameSlot (s.enterTrain g cause n) :=
  .of_aside (s.acts_enterTrain g cause n) (s.aside_enterTrain g cause n)

theorem State.sameSlot_attemptFails (cause : LegCause) : s.SameSlot (s.attemptFails g cause) :=
  .of_aside (s.acts_attemptFails g cause) (s.aside_attemptFails g cause)

theorem State.sameSlot_startSearch : s.SameSlot (s.startSearch g) := .of_aside (s.acts_startSearch g) (s.aside_startSearch g)

theorem State.sameSlot_checkListen : s.SameSlot (s.checkListen g) := .ite (.of_eq rfl rfl) (.refl s)

theorem State.sameSlot_checkProbeWait : s.SameSlot (s.checkProbeWait g) := .ite (.of_eq rfl rfl) (.refl s)

theorem State.sameSlot_handOver : s.SameSlot (s.handOver g) := ⟨by rw [(s.acts_handOver g).cable], rfl⟩

theorem State.sameSlot_enterVerify : s.SameSlot (s.enterVerify g) := ⟨by rw [(s.acts_enterVerify g).cable], rfl⟩

theorem State.sameSlot_retrain : s.SameSlot (s.retrain g) :=
  .ite (.after (State.sameSlot_enterTrain _ g _ _) (.of_eq rfl rfl)) (s.sameSlot_enterFault g _)

theorem State.sameSlot_enterUp : s.SameSlot (s.enterUp g) := ⟨by rw [(s.acts_enterUp g).cable], rfl⟩

theorem State.sameSlot_decideVerify : s.SameSlot (s.decideVerify g).1 := by
  unfold State.decideVerify
  split
  · exact .ite (s.sameSlot_enterUp g) (s.sameSlot_attemptFails g _)
  · exact .refl s

/-! ### Window reports (R11, R12, R65 to R102) -/

theorem State.sameSlot_laneFails : s.SameSlot (s.laneFails g).1 := .of_aside (s.acts_laneFails g) (s.aside_laneFails g)

theorem State.sameSlot_checkTrained : s.SameSlot (s.checkTrained g).1 := .of_aside (s.acts_checkTrained g) (s.aside_checkTrained g)

theorem State.sameSlot_moveSearch (i : WinIx) (f : Search → Search × SearchOut) : s.SameSlot (s.moveSearch g i f).1 :=
  ⟨by rw [State.moveSearch_cable], (s.aside_moveSearch g i f).slot⟩

theorem State.sameSlot_takeResult (i : WinIx) (res : ReqResult) : s.SameSlot (s.takeResult g i res) :=
  .of_aside (s.acts_takeResult g i res) (s.aside_takeResult g i res)

theorem State.sameSlot_reportAdapt (i : WinIx) (m : Nat) (r : Int) : s.SameSlot (s.reportAdapt g i m r).1 := by
  unfold State.reportAdapt
  split
  · exact .refl s
  · have moved (u : Leg → Leg) (f : Lane → Lane) : s.SameSlot ((s.modLeg g u).modLane (s.winLane g i) f) := .of_eq rfl rfl
    dsimp only
    split
    · exact .of_eq rfl rfl
    · exact .of_eq rfl rfl
    · split
      · exact (moved _ _).trans (State.sameSlot_laneFails _ g)
      · exact .of_eq rfl rfl
    · split
      · exact (moved _ _).trans (State.sameSlot_enterVerify _ g)
      · exact .of_eq rfl rfl

theorem State.sameSlot_reportVerify (i : WinIx) (bad : Bool) : s.SameSlot (s.reportVerify g i bad).1 := by
  unfold State.reportVerify
  split
  · exact .refl s
  · dsimp only
    split
    · split
      · exact .after (State.sameSlot_decideVerify _ g) (.of_eq rfl rfl)
      · exact .of_eq rfl rfl
    · exact .of_eq rfl rfl

theorem State.sameSlot_handReport (c : LaneId) (rep : Report) : s.SameSlot (s.handReport g c rep).1 := by
  unfold State.handReport
  split
  · exact .refl s
  · split
    · exact s.sameSlot_moveSearch g _ _
    · exact s.sameSlot_reportAdapt g _ _ _
    · exact s.sameSlot_reportVerify g _ _
    · exact .of_eq rfl rfl
    · exact .of_eq rfl rfl
    · exact .refl s

theorem State.sameSlot_checkHealth : s.SameSlot (s.checkHealth g) := .ite (.of_eq rfl rfl) (.ite (.of_eq rfl rfl) (.refl s))

theorem State.sameSlot_countHealth (bad : Bool) : s.SameSlot (s.countHealth g bad) := by
  unfold State.countHealth State.counterTop
  split
  · exact .after (State.sameSlot_checkHealth _ g) (.of_eq rfl rfl)
  · have cleared : s.SameSlot (s.modLeg g (fun l => { l with errCount := 0 })) := .of_eq rfl rfl
    exact .ite (cleared.trans (State.sameSlot_retrain _ g)) (cleared.then_eq rfl rfl)

theorem State.sameSlot_joinSet (c : LaneId) (rep : Report) : s.SameSlot (s.joinSet g c rep) := by
  rcases s.joinSet_cases g c rep with e | ⟨merit, e⟩ | ⟨merit, isBad, e⟩ <;> rw [e]
  · exact .of_eq rfl rfl
  · exact .of_eq rfl rfl
  · exact .after (State.sameSlot_countHealth _ g isBad) (.of_eq rfl rfl)

theorem State.sameSlot_takeReport (c : LaneId) (rep : Report) : s.SameSlot (s.takeReport g c rep) := by
  have handed : s.SameSlot (State.handReport (s.modLane c (fun l => { l with report := some rep, merit := rep.merit })) g c rep).1 :=
    .after (State.sameSlot_handReport _ g c rep) (.of_eq rfl rfl)
  exact .ite handed (handed.trans (State.sameSlot_joinSet _ g c rep))

/-! ### Presence (R13 to R15, R28, R38, R44, R45, R117) -/

theorem State.sameSlot_wakeEvent (c : LaneId) : s.SameSlot (s.wakeEvent g c) :=
  .ite (.after (State.sameSlot_enterListen _ g _ _ _) (.of_eq rfl rfl)) (.of_eq rfl rfl)

theorem State.sameSlot_presenceChange (c : LaneId) (p : Presence) : s.SameSlot (s.presenceChange g c p) := by
  cases p with
  | present =>
    unfold State.presenceChange State.lanePresent
    dsimp only
    split
    · exact .after (State.sameSlot_checkProbeWait _ g) (s.sameSlot_checkListen g)
    · exact s.sameSlot_wakeEvent g c
    · exact .refl s
  | absent =>
    unfold State.presenceChange State.hubSignalLoss State.endSignalLoss
    refine .ite ?_ ?_
    · split
      case h_8 => exact .refl s
      all_goals exact s.sameSlot_enterListen g _ _ _
    · split
      case h_5 => exact s.sameSlot_enterListen g _ _ _
      all_goals exact .of_eq rfl rfl

theorem State.sameSlot_takeReading (c : LaneId) (signal : Bool) : s.SameSlot (s.takeReading g c signal) :=
  .ite (.of_eq rfl rfl) (.ite (.of_eq rfl rfl) (.after (State.sameSlot_presenceChange _ g c _) (.of_eq rfl rfl)))

/-! ### Probing, sideband loss and power requests (R29, R30, R39, R44, R108 to R116) -/

theorem State.sameSlot_probeAck (d : Ident) : s.SameSlot (s.probeAck g d) := by
  unfold State.probeAck
  refine .ite (.refl s) (.ite (s.sameSlot_enterFault g _) (.ite (s.sameSlot_enterFault g _) ?_))
  split
  · exact s.sameSlot_enterFault g _
  · exact .after (State.sameSlot_enterTrain _ g _ _) (.ite (.of_eq rfl rfl) (.of_eq rfl rfl))

theorem State.sameSlot_sidebandLost : s.SameSlot (s.sidebandLost g) := .of_aside (s.acts_sidebandLost g) (s.aside_sidebandLost g)

theorem State.sameSlot_probeFailed : s.SameSlot (s.probeFailed g) := .of_aside (s.acts_probeFailed g) (s.aside_probeFailed g)

theorem State.sameSlot_listenLost (cause : LegCause) (holdoff phase : Bool) :
    s.SameSlot ((s.enterListen g cause holdoff phase).post .sidebandLost (some g) []) :=
  (s.sameSlot_enterListen g cause holdoff phase).then_eq rfl rfl

theorem State.sameSlot_hubSilent : s.SameSlot (s.hubSilent g) := by
  unfold State.hubSilent
  split
  case h_1 | h_2 | h_3 | h_4 => exact s.sameSlot_listenLost g _ _ _
  all_goals exact .of_eq rfl rfl

theorem State.sameSlot_restoreSideband : s.SameSlot (s.restoreSideband g) := .ite (.of_eq rfl rfl) (.refl s)

theorem State.sameSlot_powerTaken (p : Power) (cause : LegCause) : s.SameSlot (s.powerTaken g p cause) := by
  unfold State.powerTaken
  cases p with
  | standby => exact .of_eq rfl rfl
  | sleep => exact .ite (.of_eq rfl rfl) (.of_eq rfl rfl)
  | active =>
    dsimp only
    split
    · exact .of_eq rfl rfl
    · exact s.sameSlot_enterListen g _ _ _
    · exact .refl s

/-! ### Drained items (R159) -/

theorem State.sameSlot_applyTaps (i : WinIx) (q : TapRequest) : s.SameSlot (s.applyTaps g i q) := .ite (.of_eq rfl rfl) (.refl s)

theorem State.sameSlot_drained (item : Byte) (d : List Byte) : s.SameSlot (s.drained g item d) := by
  unfold State.drained
  refine .ite (.refl s) ?_
  split
  · unfold State.drainedTap
    split
    · split
      · exact .ite ((s.sameSlot_applyTaps g _ _).then_eq rfl rfl) (.refl s)
      · exact .refl s
    · exact .refl s
  · exact .ite (.after (State.sameSlot_checkTrained _ g) (.of_eq rfl rfl)) (.refl s)
  · exact .ite (.after (State.sameSlot_decideVerify _ g) (.of_eq rfl rfl)) (.refl s)
  · exact .ite (s.sameSlot_retrain g) (.refl s)
  · unfold State.drainedPower
    split
    · rename_i p _
      have asked : s.SameSlot (s.powerRequest g p .powerFar) := .ite (s.sameSlot_powerTaken g _ _) (.refl s)
      exact asked.then_eq rfl rfl
    · exact .of_eq rfl rfl
  · exact .refl s

/-! ### Following at an END, and stopping a leg (R26, R27, R43) -/

theorem State.sameSlot_follow (new : LegState) (a : Option Nat) (r : Rate) : s.SameSlot (s.follow g new a r) := .of_eq rfl rfl

theorem State.sameSlot_takePhase (st : PhaseState) (n : Nat) (r : Rate) : s.SameSlot (s.takePhase g st n r) := by
  cases st with
  | listen => exact s.sameSlot_enterListen g _ _ _
  | train => exact .after (State.sameSlot_startSearch _ g) (.of_eq rfl rfl)
  | adapt => exact .of_eq rfl rfl
  | verify =>
    have cut : s.SameSlot (s.cutShortAdapt g) := by
      unfold State.cutShortAdapt
      split
      · exact .refl s
      · exact .of_eq rfl rfl
    have followed := cut.trans (State.sameSlot_follow _ g .verify (some n) r)
    exact followed.then_eq rfl rfl
  | run =>
    have followed := s.sameSlot_follow g .up none r
    exact .ite (.after (State.sameSlot_handOver _ g) (followed.then_eq rfl rfl)) followed
  | standby => exact .of_eq rfl rfl
  | sleep => exact .of_eq rfl rfl

theorem State.sameSlot_abandon : s.SameSlot (s.abandon g) := by
  unfold State.abandon
  split
  · split
    · split
      · exact .after (State.sameSlot_farReadDone _ _ _) (.of_eq rfl rfl)
      · exact .of_eq rfl rfl
    · exact .refl s
  · exact .refl s

theorem State.sameSlot_stopLeg (cause : LegCause) : s.SameSlot (s.stopLeg g cause) := by
  have flushed : s.SameSlot ((s.enter g .off cause none).flush g) :=
    .of_aside ((s.acts_enter g .off cause none).trans (State.acts_flush _ g)) ((s.aside_enter g .off cause none).trans (State.aside_flush _ g))
  exact (flushed.trans (State.sameSlot_abandon _ g)).then_eq rfl rfl

theorem State.sameSlot_resetLeg : s.SameSlot (s.resetLeg g) := (s.sameSlot_stopLeg g .legReset).then_eq rfl rfl

/-! ### The HUB's sideband (R126 to R133, R143) -/

theorem State.sameSlot_setFarTaps (t : TapStatus) : s.SameSlot (s.setFarTaps g t) := .ite (.of_eq rfl rfl) (.refl s)

theorem State.sameSlot_exchangeEnds (x : Transaction) (i : WinIx) (r : TxResult) : s.SameSlot (s.exchangeEnds x i r) := by
  have told : s.SameSlot (match r.forEngine i with
      | .ack st => s.setFarTaps x.leg st
      | _ => s) := by
    split
    · exact s.sameSlot_setFarTaps x.leg _
    · exact .refl s
  exact .ite (told.trans (State.sameSlot_takeResult _ x.leg i _)) told

theorem State.sameSlot_farFetchEnds (x : Transaction) (k : FetchKind) (r : TxResult) : s.SameSlot (s.farFetchEnds x k r) := by
  cases r with
  | ack item more d => exact .after (State.sameSlot_farReadDone _ _ _) (.ite (.of_eq rfl rfl) (.refl s))
  | refuse why => exact s.sameSlot_farReadDone _ _
  | lost => exact s.sameSlot_farReadDone _ _
  | expired => exact s.sameSlot_farReadDone _ _

theorem State.sameSlot_probeEnds (x : Transaction) (r : TxResult) : s.SameSlot (s.probeEnds x r) := by
  cases r with
  | ack item more d => exact s.sameSlot_probeAck _ _
  | refuse why => exact .ite (.refl s) (s.sameSlot_enterListen _ _ _ _)
  | lost => exact s.sameSlot_probeFailed _
  | expired => exact s.sameSlot_probeFailed _

theorem State.sameSlot_drainEnds (x : Transaction) (r : TxResult) : s.SameSlot (s.drainEnds x r) := by
  cases r with
  | ack item more d => exact .after (State.sameSlot_drained _ _ _ _) (.of_eq rfl rfl)
  | refuse why => exact .refl s
  | lost => exact .refl s
  | expired => exact .refl s

theorem State.sameSlot_handOn (x : Transaction) (r : TxResult) : s.SameSlot (s.handOn x r) := by
  unfold State.handOn
  split
  · exact s.sameSlot_drainEnds x r
  · split
    · exact s.sameSlot_probeEnds x r
    · split
      · exact .ite (.refl s) (s.sameSlot_enterFault _ _)
      · exact .refl s
    · exact s.sameSlot_exchangeEnds x _ r
    · split <;> exact .of_eq rfl rfl
    · exact s.sameSlot_farFetchEnds x _ r
    · exact .refl s

theorem State.sameSlot_endTx (x : Transaction) (r : TxResult) : s.SameSlot (s.endTx x r) := by
  have handed : s.SameSlot (State.handOn { s with tx := none } x r) := .after (State.sameSlot_handOn _ x r) (.of_eq rfl rfl)
  unfold State.endTx
  exact .arbitrated (.ite (handed.trans (State.sameSlot_sidebandLost _ _)) handed) _

theorem State.sameSlot_timeout (x : Transaction) : s.SameSlot (s.timeout x) :=
  .ite (.of_eq rfl rfl) (.after (State.sameSlot_endTx _ _ _) (.of_eq rfl rfl))

theorem State.sameSlot_takeResponse (low mid : BitVec 2) (f : ResponseBody) : s.SameSlot (s.takeResponse g low mid f) := by
  unfold State.takeResponse
  split
  · exact .refl s
  · rename_i x _
    have restored : s.SameSlot ((s.modLeg x.leg (fun l => { l with timeouts := 0 })).restoreSideband x.leg) :=
      .after (State.sameSlot_restoreSideband _ _) (.of_eq rfl rfl)
    exact .ite (.ite (.ite (restored.trans (State.sameSlot_endTx _ _ _))
      (.ite (restored.then_eq rfl rfl) (restored.trans (State.sameSlot_endTx _ _ _)))) (s.sameSlot_timeout x)) (.refl s)

theorem State.sameSlot_takeBeacon (level : Fin 4) : s.SameSlot (s.takeBeacon g level) := by
  have told : s.SameSlot (s.modLeg g (fun l => { l with beacon := level, drainDone := false })) := .of_eq rfl rfl
  exact .ite (told.arbitrated false) (.refl s)

/-! ### The END's responder (R138 to R144) -/

theorem State.sameSlot_heard : s.SameSlot s.heard := .after (State.sameSlot_restoreSideband _ 0) (.of_eq rfl rfl)

section
variable (kind : BitVec 3) (item : Byte) (f : CommandBody)

theorem State.sameSlot_answer (frame : List Byte) : s.SameSlot (s.answer kind item f frame) := .of_eq rfl rfl

theorem State.sameSlot_takeProbe : s.SameSlot (s.takeProbe kind item f) :=
  .ite (.after (State.sameSlot_answer _ _ _ _ _) (.ite (.of_eq rfl rfl) (.of_eq rfl rfl))) (.of_eq rfl rfl)

theorem State.sameSlot_takeFetch : s.SameSlot (s.takeFetch kind item f) := by
  unfold State.takeFetch
  split
  case h_3 => exact .ite (.of_eq rfl rfl) (.of_eq rfl rfl)
  all_goals exact .of_eq rfl rfl

theorem State.sameSlot_takeStorePhase : s.SameSlot (s.takeStorePhase kind item f) := by
  have taken (st : PhaseState) (n : Nat) (r : Rate) : s.SameSlot ((s.takePhase 0 st n r).ack kind item f []) :=
    (s.sameSlot_takePhase 0 st n r).then_eq rfl rfl
  unfold State.takeStorePhase
  refine .ite (.of_eq rfl rfl) ?_
  split
  · exact .of_eq rfl rfl
  · exact taken _ _ _
  · split
    · exact .of_eq rfl rfl
    · exact .ite (taken _ _ _) (.of_eq rfl rfl)

theorem State.sameSlot_takeStoreStatus : s.SameSlot (s.takeStoreStatus kind item f) := by
  unfold State.takeStoreStatus
  refine .ite (.of_eq rfl rfl) (.ite (.of_eq rfl rfl) ?_)
  split
  · exact .of_eq rfl rfl
  · rename_i st _
    have told := s.sameSlot_setFarTaps 0 st
    exact .after (State.sameSlot_answer _ _ _ _ _) (.ite (told.trans (State.sameSlot_takeResult _ 0 _ _)) told)

theorem State.sameSlot_takeExchange : s.SameSlot (s.takeExchange kind item f) := by
  unfold State.takeExchange
  refine .ite (.of_eq rfl rfl) (.ite (.of_eq rfl rfl) ?_)
  split
  · exact .of_eq rfl rfl
  · exact .ite (.of_eq rfl rfl) (.ite (.of_eq rfl rfl) ((s.sameSlot_applyTaps 0 _ _).then_eq rfl rfl))

theorem State.sameSlot_checkCommand : s.SameSlot (s.checkCommand kind item f) := by
  unfold State.checkCommand
  refine .ite (.of_eq rfl rfl) (.ite (.of_eq rfl rfl) (.ite (.of_eq rfl rfl) ?_))
  split
  · exact s.sameSlot_takeProbe _ _ _
  · exact s.sameSlot_takeFetch _ _ _
  · exact s.sameSlot_takeStorePhase _ _ _
  · exact s.sameSlot_takeStoreStatus _ _ _
  · exact s.sameSlot_takeExchange _ _ _

theorem State.sameSlot_takeDrain : s.SameSlot (s.takeDrain f) := by
  have noted (i : Item) (t : State) : t.SameSlot (t.noteDrained i) := by
    unfold State.noteDrained
    split <;> exact .of_eq rfl rfl
  unfold State.takeDrain
  refine .ite (.of_eq rfl rfl) ?_
  split
  · exact .of_eq rfl rfl
  · rename_i i _ _
    have popped : s.SameSlot (s.modLeg 0 (fun l => l.popped s.role)) := .of_eq rfl rfl
    exact (popped.trans (noted i _)).then_eq rfl rfl

theorem State.sameSlot_takeCommand (pair : LegId) : s.SameSlot (s.takeCommand pair kind item f) := by
  unfold State.takeCommand
  refine .ite (.refl s) (.ite ((s.sameSlot_enterFault pair _).arbitrated _) (.ite (.refl s)
    (.ite (s.sameSlot_heard.trans (State.sameSlot_takeDrain _ _)) (s.sameSlot_heard.trans ?_))))
  split
  · exact .ite (.of_eq rfl rfl) (State.sameSlot_checkCommand _ _ _ _)
  · exact State.sameSlot_checkCommand _ _ _ _

end

end

end Sys2Proof.Machine
end

