-- ==== Sys2Proof/Proofs/BusyPort.lean ====
section
/-! SUPPORT. A frame that the busy port answers BUSY (R175, R176), and every command keeps the slot free of any request but an
IDENTIFY before READY (`State.PortOk`): the start-up reads, the commit job and the requests on top of `State.SameSlot`. -/

open Sys2Proof Sys2Proof.Machine

namespace Sys2Proof.Machine

/-! ### Start-up and the commit job (R161 to R172) -/

/-- Whatever a start-up event does with the tables, the slot holds what it held before READY. -/
theorem State.PortOk.of_early {s t : State} (ok : s.PortOk) (early : s.cable.startup ≠ .ready) (slot : t.port.slot = s.port.slot) :
    t.PortOk := fun _ q hq => ok early q (slot ▸ hq)

theorem State.portOk_of_ready {s : State} (ready : s.cable.startup = .ready) : s.PortOk := fun early => absurd ready early

theorem State.enterReady_portOk (s : State) : s.enterReady.PortOk :=
  State.portOk_of_ready (by rw [State.enterReady_cable])

theorem Port.answerBusy_eq (p : Port) (kind tag : Byte) : p.answerBusy kind tag = { p with line :=
    if ((p.line.drop 1).filter (fun r => !r.own)).length < 3 then p.line ++ [⟨kind, tag, .busy, [], false, false⟩] else p.line } := by
  unfold Port.answerBusy
  split <;> rfl

section
variable {s : State} (ok : s.PortOk)
include ok

theorem State.takeHeader_portOk (bs : List Byte) : (s.takeHeader bs).PortOk := by
  unfold State.takeHeader
  split
  · exact ok
  · rename_i reads
    have early : s.cable.startup ≠ .ready := by rw [not_not.mp reads]; exact nofun
    split
    · exact State.enterReady_portOk _
    · split
      · exact ok.of_early early rfl
      · exact ok.of_early early rfl

theorem State.takeImage_portOk (bs : List Byte) : (s.takeImage bs).PortOk := by
  have installed (ds : List LegDefault) (r : State × Bool) (g : LegId) : (installDefault ds r g).1.port = r.1.port := by
    unfold installDefault
    split
    · dsimp only
      split <;> rfl
    · rfl
  have applied (r : Accepted × Bool) : (s.applyRecords r).port = s.port :=
    List.foldlRecOn (motive := fun x : State × Bool => x.1.port = s.port) allLegs _ rfl
      fun x h g _ => (installed _ x g).trans h
  unfold State.takeImage
  split
  · rename_i reads
    have early : s.cable.startup ≠ .ready := by rw [reads]; exact nofun
    dsimp only
    split
    · exact ok.of_early early rfl
    · exact ok.of_early early (by rw [applied])
  · exact ok

theorem State.takeLearned_portOk (bytes : List Byte) : (s.takeLearned bytes).PortOk := by
  unfold State.takeLearned
  split
  · exact ok
  · exact State.enterReady_portOk _

/-- A request is dealt with as its kind's own act: taken before READY it is an IDENTIFY (R175). -/
theorem State.takeRequest_portOk (kind : Byte) (q : RequestBody) {act : State → List Byte → State}
    (h : ∀ t : State, t.SameSlot (act t q.payload)) : (s.takeRequest kind q act).PortOk := by
  rcases s.takeRequest_cases kind q act with ⟨-, e⟩ | ⟨free, e⟩ <;> rw [e]
  · refine State.SameSlot.portOk (s := s) ⟨rfl, ?_⟩ ok
    rw [Port.answerBusy_eq]
  · refine (h _).portOk fun early x hx => ?_
    cases hx
    by_contra other
    exact early (State.ready_of_notBusy (s := s) free other)

end

section
variable (s : State)

theorem State.sameSlot_pageSent : s.SameSlot s.pageSent := by
  unfold State.pageSent
  split
  · exact .ite ⟨rfl, rfl⟩ (.refl s)
  · exact .refl s

theorem State.sameSlot_pollAcked : s.SameSlot s.pollAcked := by
  unfold State.pollAcked
  split
  · exact .ite (.refl s) (.ite ⟨rfl, rfl⟩ ⟨rfl, rfl⟩)
  · exact .refl s

theorem State.sameSlot_pollExpired : s.SameSlot s.pollExpired := by
  unfold State.pollExpired
  split
  · exact .ite (.refl s) ⟨rfl, rfl⟩
  · exact .refl s

theorem State.sameSlot_pageNacked : s.SameSlot s.pageNacked := by
  unfold State.pageNacked
  split
  · exact .ite ⟨rfl, rfl⟩ (.refl s)
  · exact .refl s

/-! ### The acts of the request kinds (R177 to R191) -/

variable (p : List Byte)

theorem State.sameSlot_ofLength {t : State} (n : Nat) (h : s.SameSlot t) : s.SameSlot (s.ofLength n p t) :=
  .ite h (s.sameSlot_reply _ _)

theorem State.sameSlot_forLeg (n : Nat) {act : LegId → State} (h : ∀ g, s.SameSlot (act g)) : s.SameSlot (s.forLeg n p act) := by
  rcases s.forLeg_cases n p act with ⟨g, -, -, -, e⟩ | e <;> rw [e]
  · exact h g
  · exact s.sameSlot_reply _ _

theorem State.sameSlot_forLane (n : Nat) {act : LaneId → State} (h : ∀ c, s.SameSlot (act c)) : s.SameSlot (s.forLane n p act) := by
  rcases s.forLane_cases n p act with ⟨c, -, -, e⟩ | e <;> rw [e]
  · exact h c
  · exact s.sameSlot_reply _ _

/-- An operation that leaves the slot and the start-up state is answered. -/
theorem State.SameSlot.replied {s t : State} (h : s.SameSlot t) (st : Status) (payload : List Byte) : s.SameSlot (t.reply st payload) :=
  h.trans (t.sameSlot_reply st payload)

theorem State.sameSlot_doReadLeg : s.SameSlot (s.doReadLeg p) := by
  refine s.sameSlot_forLeg p 2 fun g => ?_
  split
  · exact s.sameSlot_reply _ _
  · exact (s.sameSlot_reply _ _).then_eq rfl rfl

theorem State.sameSlot_doConfigureLeg : s.SameSlot (s.doConfigureLeg p) := by
  refine s.sameSlot_forLeg p 12 fun g => .ite (s.sameSlot_reply _ _) ?_
  split
  · exact s.sameSlot_reply _ _
  · rename_i k _
    have set : s.SameSlot (s.configure g k) := .of_eq rfl rfl
    exact .ite (s.sameSlot_reply _ _) (set.replied _ _)

theorem State.sameSlot_doStartLeg : s.SameSlot (s.doStartLeg p) :=
  s.sameSlot_forLeg p 1 fun g => .ite (((s.sameSlot_enterListen g _ _ _).replied _ _).arbitrated _) (s.sameSlot_reply _ _)

theorem State.sameSlot_doStopLeg : s.SameSlot (s.doStopLeg p) := by
  refine s.sameSlot_forLeg p 1 fun g => ?_
  split
  · exact s.sameSlot_reply _ _
  · exact s.sameSlot_reply _ _
  · exact ((s.sameSlot_stopLeg g _).replied _ _).arbitrated _

theorem State.sameSlot_doResetLeg : s.SameSlot (s.doResetLeg p) :=
  s.sameSlot_forLeg p 1 fun g => ((s.sameSlot_resetLeg g).replied _ _).arbitrated _

theorem State.sameSlot_queued (g : LegId) (i : Item) : s.SameSlot (s.modLeg g (fun l => l.push i)) := .of_eq rfl rfl

theorem State.sameSlot_endPower (g : LegId) (w : Power) : s.SameSlot (s.endPower g w) := by
  have queued (w : Power) : s.SameSlot (s.queuePower g w) :=
    .ite ((s.sameSlot_queued g _).replied _ _) (s.sameSlot_reply _ _)
  unfold State.endPower
  split
  case h_1 | h_7 => exact queued _
  case h_2 => exact ((s.sameSlot_enterListen g _ _ _).trans (State.sameSlot_queued _ g _)).replied _ _
  all_goals exact s.sameSlot_reply _ _

theorem State.sameSlot_doSetLegPower : s.SameSlot (s.doSetLegPower p) := by
  refine s.sameSlot_forLeg p 2 fun g => ?_
  split
  · exact s.sameSlot_reply _ _
  · exact .ite (.ite (((s.sameSlot_powerTaken g _ _).replied _ _).arbitrated _) (s.sameSlot_reply _ _)) (s.sameSlot_endPower g _)

theorem State.sameSlot_doPinTaps : s.SameSlot (s.doPinTaps p) := by
  refine s.sameSlot_forLane p 3 fun c => .ite ?_ (s.sameSlot_reply _ _)
  have pinned : s.SameSlot ((s.writeTaps c (tapsOf (natAt p 1) (natAt p 2))).modLane c (fun l => { l with pinned := true })) :=
    .of_eq rfl rfl
  exact pinned.replied _ _

theorem State.sameSlot_doUnpinTaps : s.SameSlot (s.doUnpinTaps p) := by
  refine s.sameSlot_forLane p 1 fun c => ?_
  have unpinned : s.SameSlot (s.modLane c (fun l => { l with pinned := false })) := .of_eq rfl rfl
  exact unpinned.replied _ _

theorem State.sameSlot_doCommitPresets : s.SameSlot (s.doCommitPresets p) := by
  refine s.sameSlot_ofLength p 0 ?_
  split
  · have started : s.SameSlot { s with cable := s.cable.startCommit } := ⟨by rw [Cable.startCommit_eq], rfl⟩
    exact started.replied _ _
  · exact s.sameSlot_reply _ _

theorem State.sameSlot_doForgetPresets : s.SameSlot (s.doForgetPresets p) := by
  have forgot : s.SameSlot { s with cable := { s.cable with learned := forgotten s.cable.learned } } := ⟨rfl, rfl⟩
  exact s.sameSlot_ofLength p 0 (forgot.replied _ _)

theorem State.sameSlot_doFarRead : s.SameSlot (s.doFarRead p) := by
  refine .ite (s.sameSlot_reply _ _) (s.sameSlot_forLeg p 3 fun g => ?_)
  split
  · exact s.sameSlot_reply _ _
  · refine .ite (s.sameSlot_reply _ _) ?_
    unfold State.queueFarRead
    refine .ite (s.sameSlot_reply _ _) ?_
    split
    · exact s.sameSlot_reply _ _
    · exact .ite ((s.sameSlot_queued g _).arbitrated _) (s.sameSlot_reply _ _)

theorem State.sameSlot_setNotices (q : NoticeQueue) : s.SameSlot { s with notices := q } := ⟨rfl, rfl⟩

theorem State.sameSlot_doReadNotices : s.SameSlot (s.doReadNotices p) :=
  s.sameSlot_ofLength p 0 ((s.sameSlot_setNotices _).replied _ _)

theorem State.sameSlot_doSetNoticeLevels : s.SameSlot (s.doSetNoticeLevels p) :=
  s.sameSlot_ofLength p 12 (.ite ((s.sameSlot_setNotices _).replied _ _) (s.sameSlot_reply _ _))

theorem State.sameSlot_doResetDevice : s.SameSlot (s.doResetDevice p) :=
  s.sameSlot_ofLength p 0 ⟨rfl, s.port.answer_slot _ _ _⟩

theorem State.replyGone_portOk (ok : s.PortOk) : s.replyGone.PortOk := by
  unfold State.replyGone
  split
  · exact ok
  · split
    · exact State.afterReset_portOk _ _ _
    · refine fun early x hx => ok early x ?_
      dsimp only at hx
      split at hx
      · cases hx
      · exact hx

end

/-! ### Every command -/

theorem State.sameSlot_setTx (s : State) (x : Option Transaction) : s.SameSlot { s with tx := x } := ⟨rfl, rfl⟩

theorem State.sameSlot_collect (s : State) (b : Bool) : s.SameSlot (s.collect b) := ⟨rfl, rfl⟩

/-- A change by the transaction in flight, where there is one. -/
theorem State.sameSlot_onTx (s : State) (f : Transaction → State) (h : ∀ x, s.SameSlot (f x)) :
    s.SameSlot (match s.tx with | some x => f x | none => s) := by
  split
  · exact h _
  · exact .refl s

/-- A change by the owner of a lane, where it has one. -/
theorem State.sameSlot_onOwner (s : State) (c : LaneId) (f : LegId → State) (h : ∀ g, s.SameSlot (f g)) :
    s.SameSlot (match (s.lane c).owner with | some g => f g | none => s) := by
  split
  · exact h _
  · exact .refl s

/-- Every command keeps it so that before READY the slot holds no request but an IDENTIFY. -/
theorem exec_portOk {i : Instr} {s t : State} (ok : s.PortOk) (h : exec i s = .next t) : t.PortOk := by
  cases i <;> (injection h with h; subst h)
  case deviceReset strap => exact State.afterReset_portOk _ _ _
  case settlingEnd =>
    split
    · rename_i settling
      exact ok.of_early (by rw [settling]; exact nofun) rfl
    · exact ok
  case factoryHeaderRead bytes => exact State.takeHeader_portOk ok bytes
  case factoryImageRead bytes => exact State.takeImage_portOk ok bytes
  case learnedBlockRead bytes => exact State.takeLearned_portOk ok bytes
  case windowReport c h e r =>
    exact (s.sameSlot_onOwner c _ fun g => (s.sameSlot_takeReport g c _).arbitrated _).portOk ok
  case scanReading c level =>
    exact (s.sameSlot_onOwner c _ fun g => .ite ((s.sameSlot_takeReading g c _).arbitrated _) (.refl s)).portOk ok
  case settleExpiry c => exact State.SameSlot.portOk (s := s) ⟨rfl, rfl⟩ ok
  case probeHoldoffExpiry g =>
    have unheld : s.SameSlot (s.unheld g) := .of_eq rfl rfl
    exact (State.SameSlot.ite ((unheld.trans (State.sameSlot_checkListen _ g)).arbitrated _) (.refl s)).portOk ok
  case attemptDeadlineExpiry g => exact (State.SameSlot.ite ((s.sameSlot_attemptFails g _).arbitrated _) (.refl s)).portOk ok
  case probeWaitExpiry => exact (State.SameSlot.ite (s.sameSlot_enterFault 0 _) (.refl s)).portOk ok
  case hubSilenceExpiry =>
    have stopped : s.SameSlot { s with resp := { s.resp with silence := none } } := ⟨rfl, rfl⟩
    exact (State.SameSlot.ite (stopped.trans (State.sameSlot_hubSilent _ 0)) (.refl s)).portOk ok
  case keepaliveTimerExpiry g =>
    have kept : s.SameSlot (s.modLeg g Leg.keptAlive) := .of_eq rfl rfl
    exact (State.SameSlot.ite (kept.arbitrated _) (.refl s)).portOk ok
  case commandFrameSent g seq => exact (s.sameSlot_onTx _ fun x => .ite (s.sameSlot_setTx _) (.refl s)).portOk ok
  case sidebandAck g f => exact (s.sameSlot_takeResponse g _ _ f).portOk ok
  case sidebandDefer g f => exact (s.sameSlot_takeResponse g _ _ f).portOk ok
  case sidebandRefuse g f => exact (s.sameSlot_takeResponse g _ _ f).portOk ok
  case replyFailingChecks g low mid f => exact (s.sameSlot_takeResponse g low mid f).portOk ok
  case replyTimeout => exact (s.sameSlot_onTx _ fun x => .ite (s.sameSlot_timeout x) (.refl s)).portOk ok
  case backoffEnd => exact (s.sameSlot_onTx _ fun x => .ite (s.sameSlot_setTx _) (.refl s)).portOk ok
  case transactionExpiry =>
    have posted (x : Transaction) : s.SameSlot (s.post .deferExpired (some x.leg) x.expiryData) := ⟨rfl, rfl⟩
    exact (s.sameSlot_onTx _ fun x => (posted x).trans (State.sameSlot_endTx _ x _)).portOk ok
  case beaconReceived g level crc => exact (State.SameSlot.ite (s.sameSlot_takeBeacon g level) (.refl s)).portOk ok
  case beaconSilence g => exact (s.sameSlot_takeBeacon g 0).portOk ok
  case hubCommandFrame pair kind item f => exact (s.sameSlot_takeCommand kind item f pair).portOk ok
  case probeCommand pair f => exact (s.sameSlot_takeCommand 1 1 f pair).portOk ok
  case fetchCommand pair item f => exact (s.sameSlot_takeCommand 2 _ f pair).portOk ok
  case storePhase pair f => exact (s.sameSlot_takeCommand 3 4 f pair).portOk ok
  case storeTapStatus pair f => exact (s.sameSlot_takeCommand 3 6 f pair).portOk ok
  case exchangeTapRequest pair f => exact (s.sameSlot_takeCommand 4 5 f pair).portOk ok
  case drainCommand pair item f => exact (s.sameSlot_takeCommand 5 item f pair).portOk ok
  case unknownCommandOrItem pair kind item f => exact (s.sameSlot_takeCommand kind item f pair).portOk ok
  case requestFrameGap => exact ok
  case requestFrameStart b => exact (State.SameSlot.ite (s.sameSlot_collect _) (.refl s)).portOk ok
  case requestFrameDiscarded why => exact (State.SameSlot.ite (s.sameSlot_collect _) (.refl s)).portOk ok
  case replySent => exact s.replyGone_portOk ok
  case identify q => exact State.takeRequest_portOk ok 0x01 q fun t => t.sameSlot_ofLength _ 0 (t.sameSlot_reply _ _)
  case readLeg q => exact State.takeRequest_portOk ok 0x02 q fun t => t.sameSlot_doReadLeg _
  case readLane q => exact State.takeRequest_portOk ok 0x03 q fun t => t.sameSlot_forLane _ 1 fun _ => t.sameSlot_reply _ _
  case configureLeg q => exact State.takeRequest_portOk ok 0x04 q fun t => t.sameSlot_doConfigureLeg _
  case startLeg q => exact State.takeRequest_portOk ok 0x05 q fun t => t.sameSlot_doStartLeg _
  case stopLeg q => exact State.takeRequest_portOk ok 0x06 q fun t => t.sameSlot_doStopLeg _
  case resetLeg q => exact State.takeRequest_portOk ok 0x07 q fun t => t.sameSlot_doResetLeg _
  case setLegPower q => exact State.takeRequest_portOk ok 0x08 q fun t => t.sameSlot_doSetLegPower _
  case pinTaps q => exact State.takeRequest_portOk ok 0x09 q fun t => t.sameSlot_doPinTaps _
  case unpinTaps q => exact State.takeRequest_portOk ok 0x0A q fun t => t.sameSlot_doUnpinTaps _
  case readPresets q => exact State.takeRequest_portOk ok 0x0B q fun t => t.sameSlot_ofLength _ 0 (t.sameSlot_reply _ _)
  case commitPresets q => exact State.takeRequest_portOk ok 0x0C q fun t => t.sameSlot_doCommitPresets _
  case forgetPresets q => exact State.takeRequest_portOk ok 0x0D q fun t => t.sameSlot_doForgetPresets _
  case farRead q => exact State.takeRequest_portOk ok farReadKind q fun t => t.sameSlot_doFarRead _
  case readNotices q => exact State.takeRequest_portOk ok 0x0F q fun t => t.sameSlot_doReadNotices _
  case setNoticeLevels q => exact State.takeRequest_portOk ok 0x10 q fun t => t.sameSlot_doSetNoticeLevels _
  case resetDevice q => exact State.takeRequest_portOk ok 0x11 q fun t => t.sameSlot_doResetDevice _
  case unknownRequestKind kind q =>
    split
    · exact ok
    · exact State.takeRequest_portOk ok kind q fun t => t.sameSlot_reply _ _
  case pageSent => exact s.sameSlot_pageSent.portOk ok
  case pollAcknowledged => exact s.sameSlot_pollAcked.portOk ok
  case pollLimitExpiry => exact s.sameSlot_pollExpired.portOk ok
  case pageWriteNack => exact s.sameSlot_pageNacked.portOk ok

/-- Every step does, the idle one too. -/
theorem step_portOk {s t : State} (ok : s.PortOk) (h : step s = .next t) : t.PortOk := by
  cases e : s.pending with
  | nil =>
    rw [step_of_pending_nil e] at h
    injection h with h
    exact h ▸ ok
  | cons c rest =>
    rw [step_of_pending_cons e] at h
    exact exec_portOk (s := { s with pending := rest }) ok h

/-! ### A frame at the busy port (R175, R176) -/

/-- A request row is its frame dealt with by the act of its kind. -/
theorem exec_request {i : Instr} {kind : Byte} {q : RequestBody} (h : requestOf i = some (kind, q)) (s : State) :
    ∃ act, exec i s = .next (s.takeRequest kind q act) := by
  cases i <;> try cases h
  case unknownRequestKind k r =>
    dsimp only [requestOf] at h
    split at h
    · cases h
    · rename_i unknown
      cases h
      exact ⟨_, congrArg Host.Outcome.next (if_neg unknown)⟩
  all_goals exact ⟨_, rfl⟩

theorem State.portBusy_iff {s : State} {kind : Byte} : s.portBusy kind ↔ s.port.slot ≠ none ∨ (s.cable.startup ≠ .ready ∧ kind ≠ 1) := by
  simp [State.portBusy, Option.isSome_iff_ne_none, or_comm]

theorem State.takeRequest_busy {s : State} {kind : Byte} (busy : s.portBusy kind) (q : RequestBody) (act : State → List Byte → State) :
    s.takeRequest kind q act = { s with port := Port.answerBusy { s.port with collecting := false } kind q.tag } := by
  rcases s.takeRequest_cases kind q act with ⟨-, e⟩ | ⟨free, -⟩
  · exact e
  · rw [busy] at free; cases free

end Sys2Proof.Machine

/-- Settles O39: a busy port answers BUSY before the kind's act is reached, and `step_portOk` is the step lemma. -/
theorem busyPortTakesNothing : Obligations.BusyPortTakesNothing := by
  unfold Obligations.BusyPortTakesNothing
  refine ⟨fun s t ok h => step_portOk ok h, fun s i kind q row busy => ?_⟩
  obtain ⟨act, e⟩ := exec_request row s
  refine ⟨_, e.trans (congrArg _ (State.takeRequest_busy (State.portBusy_iff.mpr busy) q act)), rfl, ?_⟩
  rw [Port.answerBusy_eq]
  exact ⟨rfl, rfl, rfl⟩
end

