-- ==== Sys2Proof/Proofs/LearnedBlock.lean ====
section
/-! SUPPORT. The learned block (R167, R199): when an entry passes, what a read of the block finds, and what the part comes to at
READY (R161). -/

open Sys2Proof Sys2Proof.Machine

namespace Sys2Proof.Machine

/-! ### One entry -/

theorem Rate.isSome_ofCode_iff {n : Nat} : (Rate.ofCode n).isSome ↔ n ≤ 2 := by
  refine ⟨fun h => ?_, fun h => by interval_cases n <;> rfl⟩
  by_contra beyond
  rw [Rate.ofCode_beyond (by omega)] at h
  cases h

/-- The range of d1 as the byte of the block shows it (R199). -/
theorem toInt_range_iff (b : Byte) : (-31 ≤ b.toInt ∧ b.toInt ≤ 31) ↔ (b.toNat ≤ 31 ∨ 225 ≤ b.toNat) := by
  rw [BitVec.toInt_eq_toNat_cond]
  split <;> omega

/-- The checks of R167 on the entry in position c, by the bytes of the block. -/
theorem blockEntryOk_iff {bs : List Byte} {c : LaneId} : blockEntryOk bs c ↔ natAt bs (16 + 8 * c.val) = c.val
    ∧ natAt bs (17 + 8 * c.val) ≤ 1
    ∧ (natAt bs (17 + 8 * c.val) = 1 → natAt bs (18 + 8 * c.val) ≤ 2 ∧ natAt bs (19 + 8 * c.val) ≤ 12
      ∧ natAt bs (20 + 8 * c.val) ≤ 18 ∧ natAt bs (19 + 8 * c.val) + natAt bs (20 + 8 * c.val) ≤ 24
      ∧ natAt bs (21 + 8 * c.val) ≤ 15 ∧ (natAt bs (22 + 8 * c.val) ≤ 31 ∨ 225 ≤ natAt bs (22 + 8 * c.val))) := by
  have offset (k : Nat) : 16 + 8 * c.val + k = 16 + k + 8 * c.val := by omega
  have signed := toInt_range_iff (bs.getD (22 + 8 * c.val) 0)
  simp only [blockEntryOk, blockEntry, offset, Bool.and_eq_true, Bool.or_eq_true, Bool.not_eq_true', beq_iff_eq, beq_eq_false_iff_ne,
    decide_eq_true_eq, Rate.isSome_ofCode_iff, loadable_iff, natAt] at signed ⊢
  tauto

/-- The entry in position c, by the bytes of the block (R199). -/
theorem blockEntry_eq (bs : List Byte) (c : LaneId) : blockEntry bs c =
    { valid := natAt bs (17 + 8 * c.val) == 1, rate := bs.getD (18 + 8 * c.val) 0, pre := natAt bs (19 + 8 * c.val),
      post := natAt bs (20 + 8 * c.val), peaking := natAt bs (21 + 8 * c.val), d1 := (bs.getD (22 + 8 * c.val) 0).toInt } := by
  have offset (k : Nat) : 16 + 8 * c.val + k = 16 + k + 8 * c.val := by omega
  simp only [blockEntry, offset]

/-! ### The finding -/

theorem learnedFinding_absent {bs : List Byte} (read : 2 ≤ bs.length) (other : natAt bs 0 ≠ 0x4C ∨ natAt bs 1 ≠ 0x42) :
    learnedFinding bs = .absent := if_pos ⟨read, by tauto⟩

/-- A read that is not LEARNED_NONE is judged by its length, its CRC and its entries. -/
theorem learnedFinding_judged {bs : List Byte} (magic : 2 ≤ bs.length → natAt bs 0 = 0x4C ∧ natAt bs 1 = 0x42) :
    learnedFinding bs = if bs.length < 80 ∨ crc16 (bs.take 10 ++ bs.drop 12) ≠ BitVec.ofNat 16 (nat16At bs 10)
      ∨ ∃ c, ¬blockEntryOk bs c then .bad else .ok := by
  have entries : (∃ c, ¬blockEntryOk bs c) ↔ allLanes.all (blockEntryOk bs) = false := by
    rw [List.all_eq_false]
    exact ⟨fun ⟨c, h⟩ => ⟨c, mem_allLanes c, h⟩, fun ⟨c, _, h⟩ => ⟨c, h⟩⟩
  simp only [entries]
  exact if_neg (by tauto)

theorem learnedFinding_bad {bs : List Byte} (magic : 2 ≤ bs.length → natAt bs 0 = 0x4C ∧ natAt bs 1 = 0x42)
    (bad : bs.length < 80 ∨ crc16 (bs.take 10 ++ bs.drop 12) ≠ BitVec.ofNat 16 (nat16At bs 10) ∨ ∃ c, ¬blockEntryOk bs c) :
    learnedFinding bs = .bad := (learnedFinding_judged magic).trans (if_pos bad)

theorem learnedFinding_good {bs : List Byte} (m0 : natAt bs 0 = 0x4C) (m1 : natAt bs 1 = 0x42) (whole : bs.length = 80)
    (sum : crc16 (bs.take 10 ++ bs.drop 12) = BitVec.ofNat 16 (nat16At bs 10)) (good : ∀ c, blockEntryOk bs c) :
    learnedFinding bs = .ok :=
  (learnedFinding_judged fun _ => ⟨m0, m1⟩).trans (if_neg (by
    rintro (short | wrong | ⟨c, bad⟩)
    · omega
    · exact wrong sum
    · exact bad (good c)))

/-! ### The read -/

/-- The cable memory unit after the read, but for the start-up state (R161, R167). -/
def Cable.withLearned (k : Cable) (bs : List Byte) : Cable :=
  if learnedFinding bs = .ok then
    { k with learned := vec8 (blockEntry bs), learnedSerial := serialAt bs 2, learnedStatus := some .ok }
  else { k with learnedSerial := k.serial, learnedStatus := some (learnedFinding bs) }

theorem Cable.withLearned_ok {k : Cable} {bs : List Byte} (h : learnedFinding bs = .ok) : k.withLearned bs =
    { k with learned := vec8 (blockEntry bs), learnedSerial := serialAt bs 2, learnedStatus := some .ok } := if_pos h

theorem Cable.withLearned_other {k : Cable} {bs : List Byte} (h : learnedFinding bs ≠ .ok) : k.withLearned bs =
    { k with learnedSerial := k.serial, learnedStatus := some (learnedFinding bs) } := if_neg h

/-- The fields the finding does not turn on. -/
theorem Cable.withLearned_fields (k : Cable) (bs : List Byte) : (k.withLearned bs).learnedStatus = some (learnedFinding bs)
    ∧ (k.withLearned bs).loadStatus = k.loadStatus ∧ (k.withLearned bs).serial = k.serial := by
  by_cases h : learnedFinding bs = .ok
  · rw [Cable.withLearned_ok h, h]; exact ⟨rfl, rfl, rfl⟩
  · rw [Cable.withLearned_other h]; exact ⟨rfl, rfl, rfl⟩

theorem State.takeLearned_eq {s : State} (reads : s.cable.startup = .loadingLearned) (bytes : List Byte) :
    s.takeLearned bytes = State.enterReady { s with cable := s.cable.withLearned (bytes.take 80) } := by
  unfold State.takeLearned
  rw [if_neg (not_not.mpr reads)]
  dsimp only
  split
  · rename_i found
    rw [Cable.withLearned_ok found, found]
  · rename_i other
    rw [Cable.withLearned_other other]

theorem State.takeLearned_cable {s : State} (reads : s.cable.startup = .loadingLearned) (bytes : List Byte) :
    (s.takeLearned bytes).cable = { s.cable.withLearned (bytes.take 80) with startup := .ready } := by
  rw [State.takeLearned_eq reads, State.enterReady_cable]

end Sys2Proof.Machine

/-- Settles O6: the finding by `learnedFinding_judged` with the entries' checks read off the bytes, and the rest as the entry to READY
leaves the tables the finding decides. -/
theorem learnedReadEntersReady : Obligations.LearnedReadEntersReady := by
  unfold Obligations.LearnedReadEntersReady
  refine ⟨fun bs _ => ⟨fun short => learnedFinding_bad (fun h => by omega) (.inl (by omega)), learnedFinding_absent,
    fun _ m0 m1 => ⟨fun bad => learnedFinding_bad (fun _ => ⟨m0, m1⟩) ?_, fun whole sum good => ?_⟩⟩, fun s bytes reads => ?_⟩
  · refine bad.imp_right (Or.imp_right fun ⟨c, wrong⟩ => ⟨c, fun ok => ?_⟩)
    obtain ⟨lane, flag, ranges⟩ := blockEntryOk_iff.mp ok
    omega
  · exact learnedFinding_good m0 m1 whole sum fun c => blockEntryOk_iff.mpr (good c)
  · obtain ⟨status, load, serial⟩ := s.cable.withLearned_fields (bytes.take 80)
    have cable := State.takeLearned_cable reads bytes
    have ident (g : LegId) : State.ident { s with cable := s.cable.withLearned (bytes.take 80) } g = s.ident g := by
      simp only [State.ident, serial]
      rfl
    refine ⟨_, rfl, by rw [cable], by rw [cable]; exact status, fun ok => ?_, fun other => ?_, fun empty => ?_,
      fun g off has auto window => ?_, fun g stays => ?_, ?_, fun idle => ?_⟩
    · rw [cable, Cable.withLearned_ok ok]
      exact ⟨fun c => (vec8_get _ c).trans (blockEntry_eq _ c), rfl⟩
    · rw [cable, Cable.withLearned_other other]
      exact ⟨rfl, rfl⟩
    · have shown := State.enterReady_shows (s := { s with cable := s.cable.withLearned (bytes.take 80) }) empty
      rw [State.takeLearned_eq reads]
      simp only [status, load] at shown
      exact shown
    · rw [State.takeLearned_eq reads, ← ident g]
      exact State.enterReady_starts (s := { s with cable := s.cable.withLearned (bytes.take 80) }) ⟨has, auto, window, off⟩
    · rw [State.takeLearned_eq reads]
      refine State.enterReady_stays (s := { s with cable := s.cable.withLearned (bytes.take 80) }) fun ⟨_, auto, window, off⟩ => ?_
      rcases stays with busy | manual | none
      · exact busy off
      · exact Bool.false_ne_true (manual.symm.trans auto)
      · have some : (s.leg g).window.isSome := window
        rw [none] at some
        cases some
    · rw [State.takeLearned_eq reads]
      exact State.enterReady_tapsKept _
    · rw [State.takeLearned_eq reads]
      exact State.enterReady_port (s := { s with cable := s.cable.withLearned (bytes.take 80) }) (noFarRead idle)
end

