-- ==== Sys2Proof/Proofs/CommittedBlock.lean ====
section
/-! SUPPORT. The block a commit job leaves in the memory (R171, R199), read back byte by byte. -/

open Sys2Proof Sys2Proof.Machine

namespace Sys2Proof.Machine

/-! ### A learned entry in the block -/

/-- The entry fits its fields in the block, and a valid one lies in the ranges of R167. -/
def LearnedEntry.Fits (e : LearnedEntry) : Prop :=
  e.pre < 256 ∧ e.post < 256 ∧ e.peaking < 256 ∧ -128 ≤ e.d1 ∧ e.d1 ≤ 127
    ∧ (e.valid → e.rate.toNat ≤ 2 ∧ loadable e.pre e.post ∧ e.peaking ≤ 15 ∧ -31 ≤ e.d1 ∧ e.d1 ≤ 31)

theorem signedByte_toInt {i : Int} (low : -128 ≤ i) (high : i ≤ 127) : (signedByte i).toInt = i := by
  rw [signedByte, BitVec.toInt_ofInt, Int.bmod_eq_of_le] <;> omega

theorem boolByte_valid (b : Bool) : ((boolByte b).toNat == 1) = b := by cases b <;> rfl

/-- The bytes from an offset on begin with those of the entry. -/
def HoldsEntry (bs : List Byte) (c : LaneId) (e : LearnedEntry) : Prop :=
  ∀ k < 8, bs.getD (16 + 8 * c.val + k) 0 = (e.bytes c).getD k 0

theorem HoldsEntry.blockEntry {bs : List Byte} {c : LaneId} {e : LearnedEntry} (h : HoldsEntry bs c e) (fits : e.Fits) :
    blockEntry bs c = e := by
  obtain ⟨pre, post, peaking, low, high, -⟩ := fits
  simp only [Machine.blockEntry, natAt, h 1 (by omega), h 2 (by omega), h 3 (by omega), h 4 (by omega), h 5 (by omega),
    h 6 (by omega), LearnedEntry.bytes, List.getD_cons_succ, List.getD_cons_zero, boolByte_valid, byteOf_toNat pre,
    byteOf_toNat post, byteOf_toNat peaking, signedByte_toInt low high]

theorem HoldsEntry.ok {bs : List Byte} {c : LaneId} {e : LearnedEntry} (h : HoldsEntry bs c e) (fits : e.Fits) :
    blockEntryOk bs c := by
  have lane : natAt bs (16 + 8 * c.val) = c.val := by
    rw [natAt, ← Nat.add_zero (16 + 8 * c.val), h 0 (by omega)]
    exact byteOf_toNat (by omega)
  have flag : natAt bs (16 + 8 * c.val + 1) ≤ 1 := by
    rw [natAt, h 1 (by omega)]
    simp only [LearnedEntry.bytes, List.getD_cons_succ, List.getD_cons_zero, boolByte]
    split <;> decide
  have entry := h.blockEntry fits
  obtain ⟨-, -, -, -, -, ranges⟩ := fits
  simp only [blockEntryOk, entry, lane, flag, beq_self_eq_true, decide_true, Bool.true_and, Bool.or_eq_true, Bool.not_eq_true',
    Bool.and_eq_true, decide_eq_true_eq, Rate.isSome_ofCode_iff]
  cases valid : e.valid
  · exact .inl rfl
  · obtain ⟨rate, taps, peaking, low, high⟩ := ranges valid
    exact .inr ⟨⟨⟨⟨rate, taps⟩, peaking⟩, low⟩, high⟩

/-! ### The whole block -/

/-- The eighty bytes of the learned block: magic, serial, CRC-16, zeros and the entries (R199). -/
def Job.block (j : Job) : List Byte :=
  [0x4C, 0x42] ++ j.serial.toList ++ le16 j.crc.toNat ++ [0, 0, 0, 0] ++ allEntries j.entries

/-- A serial by its eight bytes. -/
theorem Serial.bytes_cases (v : Serial) : ∃ a b c d e f g h, v = #v[a, b, c, d, e, f, g, h] :=
  ⟨v[0], v[1], v[2], v[3], v[4], v[5], v[6], v[7], by ext i hi; interval_cases i <;> rfl⟩

theorem Job.block_pages (j : Job) : ({ j with index := 5 } : Job).page.2 ++ ({ j with index := 1 } : Job).page.2
    ++ ({ j with index := 2 } : Job).page.2 ++ ({ j with index := 3 } : Job).page.2 ++ ({ j with index := 4 } : Job).page.2
    = j.block := by
  simp only [Job.page, Job.block, Job.crc, allEntries, List.append_assoc]

/-- The header of the block: sixteen bytes before the entries. -/
theorem Job.block_header (j : Job) : j.block.length = 80 ∧ natAt j.block 0 = 0x4C ∧ natAt j.block 1 = 0x42
    ∧ serialAt j.block 2 = j.serial
    ∧ nat16At j.block 10 = (byteOf j.crc.toNat).toNat + 256 * (byteOf (j.crc.toNat / 256)).toNat
    ∧ j.block.take 10 ++ j.block.drop 12 = [0x4C, 0x42] ++ j.serial.toList ++ [0, 0, 0, 0] ++ allEntries j.entries := by
  obtain ⟨a, b, c, d, e, f, g, h, serial⟩ := Serial.bytes_cases j.serial
  unfold Job.block
  rw [serial]
  exact ⟨rfl, rfl, rfl, rfl, rfl, rfl⟩

theorem Job.block_entries (j : Job) (c : LaneId) : HoldsEntry j.block c j.entries[c] := by
  obtain ⟨a, b, x, d, e, f, g, h, serial⟩ := Serial.bytes_cases j.serial
  intro k hk
  unfold Job.block
  rw [serial]
  fin_cases c <;> interval_cases k <;> rfl

theorem Job.block_found (j : Job) (fits : ∀ c : LaneId, j.entries[c].Fits) : learnedFinding j.block = .ok := by
  obtain ⟨whole, m0, m1, -, sum, covered⟩ := j.block_header
  refine learnedFinding_good m0 m1 whole ?_ fun c => (j.block_entries c).ok (fits c)
  rw [covered, sum, nat16_le16 j.crc.isLt, BitVec.ofNat_toNat, BitVec.setWidth_eq]
  rfl

theorem Job.block_loads (j : Job) (fits : ∀ c : LaneId, j.entries[c].Fits) : vec8 (blockEntry j.block) = j.entries := by
  ext1 i hi
  exact (vec8_get _ ⟨i, hi⟩).trans ((j.block_entries ⟨i, hi⟩).blockEntry (fits ⟨i, hi⟩))

end Sys2Proof.Machine

/-- Settles O7: the pages are the block of `Job.block`, whose header and entries the read finds in place. -/
theorem commitThenLoadAgree : Obligations.CommitThenLoadAgree := by
  unfold Obligations.CommitThenLoadAgree
  intro j s reads fits
  obtain ⟨whole, -, -, serial, -⟩ := j.block_header
  have found := j.block_found fits
  have all : j.block.take 80 = j.block := List.take_of_length_le whole.le
  have cable := State.takeLearned_cable reads j.block
  rw [all, Cable.withLearned_ok found, j.block_loads fits, serial] at cable
  rw [Job.block_pages]
  exact ⟨_, rfl, by rw [cable], by rw [cable], by rw [cable], by rw [cable]⟩
end

