-- ==== Sys2Proof/Proofs/RecordChain.lean ====
section
/-! SUPPORT. The walk of a chain of records laid one after another in the factory image (R163, R198). -/

open Sys2Proof Sys2Proof.Machine

namespace Sys2Proof.Machine

/-! ### Bytes of an image from an offset on -/

theorem natAt_drop (img : List Byte) (off k : Nat) : natAt (img.drop off) k = natAt img (off + k) := by
  simp only [natAt, List.getD_eq_getElem?_getD, List.getElem?_drop]

theorem natAt_beyond {bs : List Byte} {k : Nat} (h : bs.length ≤ k) : natAt bs k = 0 := by
  rw [natAt, List.getD_eq_default _ _ h]
  rfl

theorem natAt_prefix {p bs : List Byte} (h : p <+: bs) {k : Nat} (inside : k < p.length) : natAt p k = natAt bs k := by
  obtain ⟨t, rfl⟩ := h
  rw [natAt, natAt, List.getD_append _ _ _ _ inside]

/-! ### The layout of a chain -/

/-- A record with the offset of the next (R198). -/
def recordBytes (next : Nat) (r : Byte × List Byte) : List Byte := [r.1, byteOf r.2.length] ++ le16 next ++ r.2

theorem recordBytes_length (next : Nat) (r : Byte × List Byte) : (recordBytes next r).length = 4 + r.2.length := by
  simp only [recordBytes, le16, List.length_append, List.length_cons, List.length_nil]

/-- Records from an offset on, each linked to the one laid after it. -/
def linkedBytes : Nat → List (Byte × List Byte) → List Byte
  | _, [] => []
  | off, r :: rs => recordBytes (off + 4 + r.2.length) r ++ linkedBytes (off + 4 + r.2.length) rs

theorem chainBytes_append (last : Nat) (r : Byte × List Byte) (rs : List (Byte × List Byte)) :
    ∀ off, chainBytes last off (rs ++ [r]) = linkedBytes off rs ++ recordBytes last r := by
  induction rs with
  | nil => exact fun off => List.append_nil _
  | cons x rs ih =>
    intro off
    have more : rs ++ [r] ≠ [] := List.append_ne_nil_of_right_ne_nil rs (List.cons_ne_nil r [])
    simp only [List.cons_append, chainBytes, linkedBytes, if_neg more, ih, recordBytes, List.append_assoc]

theorem length_le_linkedBytes (rs : List (Byte × List Byte)) : ∀ off, rs.length ≤ (linkedBytes off rs).length := by
  induction rs with
  | nil => exact fun _ => Nat.zero_le _
  | cons x rs ih =>
    intro off
    have rest := ih (off + 4 + x.2.length)
    rw [linkedBytes, List.length_append, recordBytes_length, List.length_cons]
    omega

/-! ### The walk -/

/-- A record as `takeRecord` takes it. -/
def takeNext (a : Accepted × Bool) (r : Byte × List Byte) : Accepted × Bool := takeRecord r.1.toNat r.2 a

theorem walkChain_cut {img : List Byte} {off : Nat} (short : img.length < off + 4 + natAt img (off + 1)) (n : Nat)
    (a : Accepted × Bool) : walkChain img n off a = (a.1, true) := by
  cases n with
  | zero => rfl
  | succ n => exact if_pos short

theorem walkChain_beyond {img : List Byte} {off : Nat} (out : img.length ≤ off) (n : Nat) (a : Accepted × Bool) :
    walkChain img n off a = (a.1, true) := walkChain_cut (by omega) n a

/-- One step of the walk at a whole record. -/
theorem walkChain_record {img : List Byte} {off next : Nat} {r : Byte × List Byte} (at_off : recordBytes next r <+: img.drop off)
    (short : r.2.length < 256) (small : next < 65536) (n : Nat) (a : Accepted × Bool) : walkChain img (n + 1) off a =
      if next = 0 then takeNext a r else if next ≤ off then ((takeNext a r).1, true)
      else walkChain img n next (takeNext a r) := by
  have size := recordBytes_length next r
  have byte (k : Nat) (hk : k < 4) : natAt img (off + k) = natAt (recordBytes next r) k := by
    rw [← natAt_drop, natAt_prefix at_off (by omega)]
  have type : natAt img off = r.1.toNat := byte 0 (by omega)
  have len : natAt img (off + 1) = r.2.length := (byte 1 (by omega)).trans (byteOf_toNat short)
  have link : nat16At img (off + 2) = next := by
    rw [nat16At, byte 2 (by omega), Nat.add_assoc, byte 3 (by omega)]
    exact nat16_le16 small
  obtain ⟨rest, layout⟩ := at_off
  have data : (img.drop (off + 4)).take r.2.length = r.2 := by
    rw [← List.drop_drop, ← layout]
    exact List.take_left
  have whole : ¬img.length < off + 4 + r.2.length := by
    have total := congrArg List.length layout
    rw [List.length_append, size, List.length_drop] at total
    omega
  rw [walkChain, len, if_neg whole, type, data, link]
  rfl

/-- The walk over linked records comes to the offset after them. -/
theorem walkChain_linked {img : List Byte} (n : Nat) (rs : List (Byte × List Byte)) : ∀ (off : Nat) (a : Accepted × Bool),
    (∀ x ∈ rs, x.2.length < 256) → off + (linkedBytes off rs).length < 65536 → linkedBytes off rs <+: img.drop off →
      walkChain img (rs.length + n) off a = walkChain img n (off + (linkedBytes off rs).length) (rs.foldl takeNext a) := by
  induction rs with
  | nil => intro off a _ _ _; simp only [linkedBytes, List.length_nil, Nat.zero_add, Nat.add_zero, List.foldl_nil]
  | cons x rs ih =>
    intro off a short small laid
    rw [linkedBytes] at laid
    rw [linkedBytes, List.length_append, recordBytes_length] at small
    have step := walkChain_record ((List.prefix_append _ _).trans laid) (short x List.mem_cons_self) (by omega) (rs.length + n) a
    have following : linkedBytes (off + 4 + x.2.length) rs <+: img.drop (off + 4 + x.2.length) := by
      obtain ⟨rest, layout⟩ := laid
      refine ⟨rest, ?_⟩
      rw [Nat.add_assoc off, ← recordBytes_length (off + 4 + x.2.length) x, ← List.drop_drop, ← layout, List.append_assoc,
        List.drop_left, recordBytes_length, Nat.add_assoc]
    rw [List.length_cons, Nat.add_right_comm, step, if_neg (by omega), if_neg (by omega),
      ih _ _ (fun y hy => short y (List.mem_cons_of_mem x hy)) (by omega) following, linkedBytes, List.length_append,
      recordBytes_length, List.foldl_cons]
    congr 1
    omega

/-- An image of records laid one after another from 0x007 on: the walk comes to the last record, with fuel left. -/
theorem readChain_linked {img : List Byte} {rs : List (Byte × List Byte)} (short : ∀ x ∈ rs, x.2.length < 256)
    (small : img.length < 65536) (laid : linkedBytes 7 rs <+: img.drop 7) (head : 7 ≤ img.length) :
    ∃ n, readChain img = walkChain img (n + 1) (7 + (linkedBytes 7 rs).length) (rs.foldl takeNext (Accepted.empty, false)) := by
  have fits := laid.length_le
  have fuel := length_le_linkedBytes rs 7
  rw [List.length_drop] at fits
  refine ⟨img.length - rs.length, ?_⟩
  rw [← walkChain_linked _ rs 7 _ short (by omega) laid, readChain]
  congr 1
  omega

/-- The three ends of a chain of records laid one after another (R163): the last next offset 0, leading back or out of the image,
and a last record that is cut off. -/
theorem readChain_laid {head img : List Byte} {rs : List (Byte × List Byte)} {r : Byte × List Byte} {last : Nat}
    (start : head.length = 7) (short : ∀ x ∈ rs ++ [r], x.2.length < 256) (layout : img = head ++ chainBytes last 7 (rs ++ [r]))
    (small : img.length ≤ 1024) (offset : last < 65536) :
    (last = 0 → readChain img = takeNext (rs.foldl takeNext (Accepted.empty, false)) r)
      ∧ (last ≠ 0 → (last + 4 + r.2.length ≤ img.length ∨ img.length ≤ last) →
        readChain img = ((takeNext (rs.foldl takeNext (Accepted.empty, false)) r).1, true))
      ∧ ∀ n, n < img.length → img.length ≤ n + 4 + r.2.length →
        readChain (img.take n) = ((rs.foldl takeNext (Accepted.empty, false)).1, true) := by
  have shortR : r.2.length < 256 := short r (List.mem_append_right rs List.mem_cons_self)
  have shortRs : ∀ x ∈ rs, x.2.length < 256 := fun x hx => short x (List.mem_append_left [r] hx)
  rw [chainBytes_append] at layout
  have body : img.drop 7 = linkedBytes 7 rs ++ recordBytes last r := by rw [layout, ← start, List.drop_left]
  have lastAt : img.drop (7 + (linkedBytes 7 rs).length) = recordBytes last r := by rw [← List.drop_drop, body, List.drop_left]
  have total : img.length = 7 + (linkedBytes 7 rs).length + (4 + r.2.length) := by
    rw [layout, List.length_append, List.length_append, start, recordBytes_length]
    omega
  obtain ⟨n, walk⟩ := readChain_linked shortRs (by omega) ⟨_, body.symm⟩ (by omega)
  rw [walkChain_record (lastAt ▸ List.prefix_rfl) shortR offset] at walk
  refine ⟨fun ends => walk.trans (if_pos ends), fun goes leads => ?_, fun k cut reaches => ?_⟩
  · rw [walk, if_neg goes]
    split
    · rfl
    · exact walkChain_beyond (by omega) n _
  · have size : (img.take k).length = k := List.length_take_of_le cut.le
    have laid : linkedBytes 7 rs <+: (img.take k).drop 7 := by
      rw [List.drop_take, body]
      exact List.prefix_take_iff.mpr ⟨List.prefix_append _ _, by omega⟩
    obtain ⟨m, walk⟩ := readChain_linked shortRs (by omega) laid (by omega)
    rw [walk]
    refine walkChain_cut ?_ _ _
    rw [size]
    by_cases inside : 7 + (linkedBytes 7 rs).length + 1 < k
    · have len : natAt (img.take k) (7 + (linkedBytes 7 rs).length + 1) = r.2.length := by
        rw [natAt_prefix (List.take_prefix k img) (by omega), ← natAt_drop, lastAt]
        exact byteOf_toNat shortR
      omega
    · rw [natAt_beyond (by omega)]
      omega

end Sys2Proof.Machine
end

