-- ==== Sys2Proof/Proofs/RecordChecks.lean ====
section
/-! SUPPORT. The five record types of the factory image by their bytes (R164): when a record is accepted, and with which fields. -/

open Sys2Proof Sys2Proof.Machine

namespace Sys2Proof.Machine

/-! ### Taking a record -/

/-- A record that parses replaces its type's table (R163); one that does not is rejected (R164). -/
theorem takeRecord_cableId (d : List Byte) (a : Accepted × Bool) :
    takeRecord 1 d a = (parseCableId d).elim (a.1, true) fun x => ({ a.1 with cableId := some x }, a.2) := by
  simp only [takeRecord]
  cases parseCableId d <;> rfl

theorem takeRecord_loss (d : List Byte) (a : Accepted × Bool) :
    takeRecord 2 d a = (parseLoss d).elim (a.1, true) fun x => ({ a.1 with loss := some x }, a.2) := by
  simp only [takeRecord]
  cases parseLoss d <;> rfl

theorem takeRecord_presets (d : List Byte) (a : Accepted × Bool) :
    takeRecord 3 d a = (parsePresets d).elim (a.1, true) fun x => ({ a.1 with presets := some x }, a.2) := by
  simp only [takeRecord]
  cases parsePresets d <;> rfl

theorem takeRecord_defaults (d : List Byte) (a : Accepted × Bool) :
    takeRecord 4 d a = (parseLegDefaults d).elim (a.1, true) fun x => ({ a.1 with defaults := some x }, a.2) := by
  simp only [takeRecord]
  cases parseLegDefaults d <;> rfl

theorem takeRecord_thresholds (d : List Byte) (a : Accepted × Bool) :
    takeRecord 5 d a = (parseThresholds d).elim (a.1, true) fun x => ({ a.1 with thresholds := some x }, a.2) := by
  simp only [takeRecord]
  cases parseThresholds d <;> rfl

/-- An unknown type is skipped (R163). -/
theorem takeRecord_skip {type : Nat} (unknown : type = 0 ∨ 5 < type) (d : List Byte) (a : Accepted × Bool) :
    takeRecord type d a = a := by
  rcases unknown with rfl | beyond
  · rfl
  · obtain ⟨n, rfl⟩ := Nat.exists_eq_add_of_le' beyond
    rfl

/-! ### LANE_LOSS and FACTORY_PRESETS -/

theorem all_below_iff {d : List Byte} (length : d.length = 8) : d.all (fun b => b.toNat < 8) ↔ ∀ c : Fin 8, natAt d c.val ≤ 7 := by
  have byte (c : Fin 8) : natAt d c.val = (d[c.val]'(by omega)).toNat := by
    rw [natAt, List.getD_eq_getElem _ _ (by omega)]
  rw [List.all_eq_true]
  refine ⟨fun all c => ?_, fun each b hb => ?_⟩
  · have := of_decide_eq_true (all _ (List.getElem_mem (l := d) (n := c.val) (by omega)))
    rw [byte]
    omega
  · obtain ⟨i, hi, rfl⟩ := List.mem_iff_getElem.mp hb
    have below := each ⟨i, by omega⟩
    rw [byte] at below
    exact decide_eq_true (Nat.lt_succ_of_le below)

theorem parseLoss_some {d : List Byte} (ok : d.length = 8 ∧ ∀ c : Fin 8, natAt d c.val ≤ 7) :
    ∃ v, parseLoss d = some v ∧ ∀ c : Fin 8, v[c].val = natAt d c.val := by
  obtain ⟨length, below⟩ := ok
  refine ⟨_, if_pos ⟨length, (all_below_iff length).mpr below⟩, fun c => ?_⟩
  rw [vec8_get]
  exact Nat.mod_eq_of_lt (Nat.lt_succ_of_le (below c))

theorem parseLoss_none {d : List Byte} (bad : ¬(d.length = 8 ∧ ∀ c : Fin 8, natAt d c.val ≤ 7)) : parseLoss d = none :=
  if_neg fun ⟨length, all⟩ => bad ⟨length, (all_below_iff length).mp all⟩

theorem all_loadable_iff {d : List Byte} : allLanes.all (fun n => loadable (natAt d (2 * n.val)) (natAt d (2 * n.val + 1)))
    ↔ ∀ n : Fin 8, natAt d (2 * n.val) ≤ 12 ∧ natAt d (2 * n.val + 1) ≤ 18
      ∧ natAt d (2 * n.val) + natAt d (2 * n.val + 1) ≤ 24 := by
  rw [List.all_eq_true]
  exact ⟨fun all n => loadable_iff.mp (all n (mem_allLanes n)), fun each n _ => loadable_iff.mpr (each n)⟩

theorem parsePresets_some {d : List Byte} (ok : d.length = 16 ∧ ∀ n : Fin 8, natAt d (2 * n.val) ≤ 12
    ∧ natAt d (2 * n.val + 1) ≤ 18 ∧ natAt d (2 * n.val) + natAt d (2 * n.val + 1) ≤ 24) :
    ∃ v, parsePresets d = some v ∧ ∀ n : Fin 8, v[n] = ⟨natAt d (2 * n.val), natAt d (2 * n.val + 1)⟩ :=
  ⟨_, if_pos ⟨ok.1, all_loadable_iff.mpr ok.2⟩, fun n => vec8_get _ n⟩

theorem parsePresets_none {d : List Byte} (bad : ¬(d.length = 16 ∧ ∀ n : Fin 8, natAt d (2 * n.val) ≤ 12
    ∧ natAt d (2 * n.val + 1) ≤ 18 ∧ natAt d (2 * n.val) + natAt d (2 * n.val + 1) ≤ 24)) : parsePresets d = none :=
  if_neg fun ⟨length, all⟩ => bad ⟨length, all_loadable_iff.mp all⟩

/-! ### One entry of LEG_DEFAULTS -/

theorem Window.legal_iff {w : Window} : w.legal ↔ w.f ≤ 7 ∧ w.w ∈ [1, 2, 4, 8] ∧ w.f % w.w = 0 ∧ w.o ≤ 7 := by
  simp only [Window.legal, Bool.and_eq_true, Bool.or_eq_true, decide_eq_true_eq, beq_iff_eq, List.mem_cons, List.not_mem_nil]
  tauto

theorem isSome_boolOf_iff {n : Nat} : (boolOf n).isSome ↔ n ≤ 1 := by
  refine ⟨fun h => ?_, fun h => by interval_cases n <;> rfl⟩
  by_contra beyond
  rw [boolOf_beyond (by omega)] at h
  cases h

/-- The ranges of R164 for the entry at byte k. -/
def LegDefaultInRange (d : List Byte) (k : Nat) : Prop :=
  natAt d k ≤ 3 ∧ natAt d (k + 1) ≤ 7 ∧ natAt d (k + 2) ∈ [1, 2, 4, 8] ∧ natAt d (k + 1) % natAt d (k + 2) = 0
    ∧ natAt d (k + 3) ≤ 7 ∧ natAt d (k + 4) ≤ 2 ∧ natAt d (k + 5) ≤ 1 ∧ natAt d (k + 6) ≤ 1

theorem parseLegDefault_some {d : List Byte} {k : Nat} (ok : LegDefaultInRange d k) : ∃ e, parseLegDefault d k = some e := by
  obtain ⟨leg, f, w, aligned, o, cap, start, wake⟩ := ok
  obtain ⟨r, hr⟩ := Option.isSome_iff_exists.mp (Rate.isSome_ofCode_iff.mpr cap)
  obtain ⟨p, hp⟩ := Option.isSome_iff_exists.mp (isSome_boolOf_iff.mpr start)
  obtain ⟨q, hq⟩ := Option.isSome_iff_exists.mp (isSome_boolOf_iff.mpr wake)
  have legal : Window.legal ⟨natAt d (k + 1), natAt d (k + 2), natAt d (k + 3)⟩ := Window.legal_iff.mpr ⟨f, w, aligned, o⟩
  simp only [parseLegDefault, hr, hp, hq, legal, dif_pos (show natAt d k < 4 by omega), if_true]
  exact ⟨_, rfl⟩

theorem parseLegDefault_fields {d : List Byte} {k : Nat} {e : LegDefault} (h : parseLegDefault d k = some e) :
    e.leg.val = natAt d k ∧ e.window = ⟨natAt d (k + 1), natAt d (k + 2), natAt d (k + 3)⟩ ∧ e.cap.code = natAt d (k + 4)
      ∧ boolByte e.autoStart = d.getD (k + 5) 0 ∧ boolByte e.autoWake = d.getD (k + 6) 0 := by
  unfold parseLegDefault at h
  dsimp only at h
  split at h
  · rename_i cap start wake
    split at h
    · split at h
      · cases h
        exact ⟨rfl, rfl, Rate.code_of_ofCode cap, boolByte_of_boolOf start, boolByte_of_boolOf wake⟩
      · cases h
    · cases h
  · cases h

theorem parseLegDefault_inRange {d : List Byte} {k : Nat} {e : LegDefault} (h : parseLegDefault d k = some e) :
    LegDefaultInRange d k := by
  obtain ⟨leg, window, cap, start, wake⟩ := parseLegDefault_fields h
  obtain ⟨f, w, aligned, o⟩ := Window.legal_iff.mp (parseLegDefault_legal h)
  rw [window] at f w aligned o
  have flag (b : Bool) : (boolByte b).toNat ≤ 1 := by cases b <;> decide
  have rate : e.cap.code ≤ 2 := by cases e.cap <;> decide
  refine ⟨by omega, f, w, aligned, o, by omega, ?_, ?_⟩
  · rw [natAt, ← start]; exact flag _
  · rw [natAt, ← wake]; exact flag _

/-! ### LEG_DEFAULTS -/

/-- Entries parsed one by one, none of them rejected. -/
def LegDefaultsParsed (d : List Byte) (n : Nat) (ds : List LegDefault) : Prop :=
  (List.range n).map (fun k => parseLegDefault d (1 + 7 * k)) = ds.map some

theorem LegDefaultsParsed.entry {d : List Byte} {n : Nat} {ds : List LegDefault} (h : LegDefaultsParsed d n ds) {k : Nat}
    {e : LegDefault} (he : ds[k]? = some e) : parseLegDefault d (1 + 7 * k) = some e := by
  have at_k := congrArg (fun l => l[k]?) h
  simp only [List.getElem?_map, he, Option.map_some, Option.map_eq_some_iff] at at_k
  obtain ⟨i, hi, parsed⟩ := at_k
  obtain ⟨inside, rfl⟩ := List.getElem?_eq_some_iff.mp hi
  rwa [List.getElem_range] at parsed

theorem LegDefaultsParsed.length {d : List Byte} {n : Nat} {ds : List LegDefault} (h : LegDefaultsParsed d n ds) : ds.length = n := by
  have lengths := congrArg List.length h
  simpa using lengths.symm

theorem LegDefaultsParsed.parsed {d : List Byte} {n : Nat} {ds : List LegDefault} (h : LegDefaultsParsed d n ds) {k : Nat}
    (below : k < n) : ∃ e, ds[k]? = some e ∧ parseLegDefault d (1 + 7 * k) = some e := by
  have inside : k < ds.length := h.length.symm ▸ below
  exact ⟨ds[k], List.getElem?_eq_getElem inside, h.entry (List.getElem?_eq_getElem inside)⟩

/-- No leg is named twice just where no two leg bytes are alike. -/
theorem LegDefaultsParsed.nodup_iff {d : List Byte} {n : Nat} {ds : List LegDefault} (h : LegDefaultsParsed d n ds) :
    (ds.map LegDefault.leg).Nodup ↔ ∀ j < n, ∀ k < n, natAt d (1 + 7 * j) = natAt d (1 + 7 * k) → j = k := by
  have legs : (ds.map LegDefault.leg).map Fin.val = (List.range n).map (fun k => natAt d (1 + 7 * k)) := by
    refine List.ext_getElem (by simp [h.length]) fun k hk hk' => ?_
    have inside : k < ds.length := by simpa using hk
    obtain ⟨leg, -⟩ := parseLegDefault_fields (h.entry (List.getElem?_eq_getElem inside))
    simpa using leg
  rw [← List.nodup_map_iff Fin.val_injective, legs, List.nodup_map_iff_inj_on List.nodup_range]
  simp only [List.mem_range]

theorem exists_legDefaultsParsed {d : List Byte} {n : Nat} (all : ∀ k < n, LegDefaultInRange d (1 + 7 * k)) :
    ∃ ds, LegDefaultsParsed d n ds := by
  induction n with
  | zero => exact ⟨[], rfl⟩
  | succ n ih =>
    obtain ⟨ds, parsed⟩ := ih fun k hk => all k (by omega)
    obtain ⟨e, he⟩ := parseLegDefault_some (all n (by omega))
    refine ⟨ds ++ [e], ?_⟩
    rw [LegDefaultsParsed, List.range_succ, List.map_append, List.map_append, parsed, List.map_singleton, he, List.map_singleton]

theorem parseLegDefaults_iff {d : List Byte} {ds : List LegDefault} : parseLegDefaults d = some ds ↔
    d.length = 1 + 7 * natAt d 0 ∧ natAt d 0 ≤ 4 ∧ LegDefaultsParsed d (natAt d 0) ds ∧ (ds.map LegDefault.leg).Nodup := by
  unfold parseLegDefaults LegDefaultsParsed
  dsimp only
  constructor
  · intro h
    split at h
    · rename_i ok
      obtain ⟨length, count, all, nodup⟩ := ok
      cases h
      refine ⟨length, count, ?_, nodup⟩
      rw [List.map_filterMap_some_eq_filter_map_isSome, List.map_id, List.filter_eq_self.mpr (List.all_eq_true.mp all)]
    · cases h
  · rintro ⟨length, count, parsed, nodup⟩
    have entries : (ds.map some).filterMap id = ds := by simp
    rw [parsed, entries]
    exact if_pos ⟨length, count, by simp, nodup⟩

/-- What an accepted LEG_DEFAULTS record is (R164). -/
def LegDefaultsInRange (d : List Byte) : Prop :=
  d.length = 1 + 7 * natAt d 0 ∧ natAt d 0 ≤ 4 ∧ (∀ k < natAt d 0, LegDefaultInRange d (1 + 7 * k))
    ∧ ∀ j < natAt d 0, ∀ k < natAt d 0, natAt d (1 + 7 * j) = natAt d (1 + 7 * k) → j = k

theorem parseLegDefaults_some {d : List Byte} (ok : LegDefaultsInRange d) : ∃ ds, parseLegDefaults d = some ds := by
  obtain ⟨length, count, all, distinct⟩ := ok
  obtain ⟨ds, parsed⟩ := exists_legDefaultsParsed all
  exact ⟨ds, parseLegDefaults_iff.mpr ⟨length, count, parsed, parsed.nodup_iff.mpr distinct⟩⟩

theorem parseLegDefaults_none {d : List Byte} (bad : ¬LegDefaultsInRange d) : parseLegDefaults d = none := by
  refine Option.eq_none_iff_forall_ne_some.mpr fun ds h => bad ?_
  obtain ⟨length, count, parsed, nodup⟩ := parseLegDefaults_iff.mp h
  refine ⟨length, count, fun k hk => ?_, parsed.nodup_iff.mp nodup⟩
  obtain ⟨e, -, he⟩ := parsed.parsed hk
  exact parseLegDefault_inRange he

theorem parseLegDefaults_length {d : List Byte} {ds : List LegDefault} (h : parseLegDefaults d = some ds) : ds.length = natAt d 0 := by
  obtain ⟨-, -, parsed, -⟩ := parseLegDefaults_iff.mp h
  exact parsed.length

/-- The entry in position k of an accepted record, by its bytes. -/
theorem parseLegDefaults_entry {d : List Byte} {ds : List LegDefault} (h : parseLegDefaults d = some ds) {k : Nat} {e : LegDefault}
    (he : ds[k]? = some e) : e.leg.val = natAt d (1 + 7 * k)
      ∧ e.window = ⟨natAt d (2 + 7 * k), natAt d (3 + 7 * k), natAt d (4 + 7 * k)⟩ ∧ e.cap.code = natAt d (5 + 7 * k)
      ∧ boolByte e.autoStart = d.getD (6 + 7 * k) 0 ∧ boolByte e.autoWake = d.getD (7 + 7 * k) 0 := by
  obtain ⟨-, -, parsed, -⟩ := parseLegDefaults_iff.mp h
  have offset (i : Nat) : 1 + 7 * k + i = 1 + i + 7 * k := by omega
  have fields := parseLegDefault_fields (parsed.entry he)
  simp only [offset] at fields
  exact fields

theorem legDefaultsInRange_iff {d : List Byte} : LegDefaultsInRange d ↔ d.length = 1 + 7 * natAt d 0 ∧ natAt d 0 ≤ 4
    ∧ (∀ k < natAt d 0, natAt d (1 + 7 * k) ≤ 3 ∧ natAt d (2 + 7 * k) ≤ 7 ∧ natAt d (3 + 7 * k) ∈ [1, 2, 4, 8]
      ∧ natAt d (2 + 7 * k) % natAt d (3 + 7 * k) = 0 ∧ natAt d (4 + 7 * k) ≤ 7 ∧ natAt d (5 + 7 * k) ≤ 2
      ∧ natAt d (6 + 7 * k) ≤ 1 ∧ natAt d (7 + 7 * k) ≤ 1)
    ∧ ∀ j < natAt d 0, ∀ k < natAt d 0, natAt d (1 + 7 * j) = natAt d (1 + 7 * k) → j = k := by
  have offset (k i : Nat) : 1 + 7 * k + i = 1 + i + 7 * k := by omega
  simp only [LegDefaultsInRange, LegDefaultInRange, offset]

/-! ### Each record type judged -/

section
variable (d : List Byte) (a : Accepted × Bool)

theorem takeRecord_cableId_judged : if d.length = 9 ∧ natAt d 8 ≤ 15 then
    takeRecord 1 d a = ({ a.1 with cableId := some (serialAt d 0, natAt d 8) }, a.2) else takeRecord 1 d a = (a.1, true) := by
  rw [takeRecord_cableId]
  split
  · rename_i ok
    rw [parseCableId, if_pos ok, Option.elim_some]
  · rename_i bad
    rw [parseCableId, if_neg bad, Option.elim_none]

theorem takeRecord_loss_judged : if d.length = 8 ∧ ∀ c : Fin 8, natAt d c.val ≤ 7 then
    ∃ v, takeRecord 2 d a = ({ a.1 with loss := some v }, a.2) ∧ ∀ c : Fin 8, v[c].val = natAt d c.val
    else takeRecord 2 d a = (a.1, true) := by
  rw [takeRecord_loss]
  split
  · rename_i ok
    obtain ⟨v, parsed, classes⟩ := parseLoss_some ok
    exact ⟨v, by rw [parsed, Option.elim_some], classes⟩
  · rename_i bad
    rw [parseLoss_none bad, Option.elim_none]

theorem takeRecord_presets_judged : if d.length = 16 ∧ ∀ n : Fin 8, natAt d (2 * n.val) ≤ 12 ∧ natAt d (2 * n.val + 1) ≤ 18
      ∧ natAt d (2 * n.val) + natAt d (2 * n.val + 1) ≤ 24 then
    ∃ v, takeRecord 3 d a = ({ a.1 with presets := some v }, a.2)
      ∧ ∀ n : Fin 8, v[n] = ⟨natAt d (2 * n.val), natAt d (2 * n.val + 1)⟩
    else takeRecord 3 d a = (a.1, true) := by
  rw [takeRecord_presets]
  split
  · rename_i ok
    obtain ⟨v, parsed, pairs⟩ := parsePresets_some ok
    exact ⟨v, by rw [parsed, Option.elim_some], pairs⟩
  · rename_i bad
    rw [parsePresets_none bad, Option.elim_none]

theorem takeRecord_defaults_accepted (ok : LegDefaultsInRange d) : ∃ ds, takeRecord 4 d a = ({ a.1 with defaults := some ds }, a.2)
    ∧ ds.length = natAt d 0 ∧ ∀ k e, ds[k]? = some e → e.leg.val = natAt d (1 + 7 * k)
      ∧ e.window = ⟨natAt d (2 + 7 * k), natAt d (3 + 7 * k), natAt d (4 + 7 * k)⟩ ∧ e.cap.code = natAt d (5 + 7 * k)
      ∧ boolByte e.autoStart = d.getD (6 + 7 * k) 0 ∧ boolByte e.autoWake = d.getD (7 + 7 * k) 0 := by
  obtain ⟨ds, parsed⟩ := parseLegDefaults_some ok
  exact ⟨ds, by rw [takeRecord_defaults, parsed, Option.elim_some], parseLegDefaults_length parsed,
    fun k e he => parseLegDefaults_entry parsed he⟩

theorem takeRecord_defaults_rejected (bad : ¬LegDefaultsInRange d) : takeRecord 4 d a = (a.1, true) := by
  rw [takeRecord_defaults, parseLegDefaults_none bad, Option.elim_none]

theorem takeRecord_thresholds_judged : if d.length = 10 ∧ natAt d 2 ≤ 127 ∧ natAt d 5 ≤ 127 ∧ natAt d 8 ≤ 127 ∧ natAt d 9 ≤ 63 then
    takeRecord 5 d a =
      ({ a.1 with
          thresholds := some
            { l := ⟨natAt d 0 + 256 * natAt d 1, natAt d 2⟩, m := ⟨natAt d 3 + 256 * natAt d 4, natAt d 5⟩,
              h := ⟨natAt d 6 + 256 * natAt d 7, natAt d 8⟩, presence := natAt d 9 } }, a.2)
    else takeRecord 5 d a = (a.1, true) := by
  rw [takeRecord_thresholds]
  split
  · rename_i ok
    rw [parseThresholds, if_pos ok, Option.elim_some]
    rfl
  · rename_i bad
    rw [parseThresholds, if_neg bad, Option.elim_none]

end

/-! ### The accepted LEG_DEFAULTS name no leg twice -/

def Accepted.LegsApart (a : Accepted) : Prop := ∀ ds, a.defaults = some ds → (ds.map LegDefault.leg).Nodup

theorem Accepted.LegsApart.getD {a : Accepted} (h : a.LegsApart) : ((a.defaults.getD []).map LegDefault.leg).Nodup := by
  cases e : a.defaults with
  | none => exact List.nodup_nil
  | some ds => exact h ds e

theorem takeRecord_defaults_kept {type : Nat} (other : type ≠ 4) (d : List Byte) (a : Accepted × Bool) :
    (takeRecord type d a).1.defaults = a.1.defaults := by
  unfold takeRecord
  split
  · split <;> rfl
  · split <;> rfl
  · split <;> rfl
  · exact absurd rfl other
  · split <;> rfl
  · rfl

theorem takeRecord_legsApart (type : Nat) (d : List Byte) {a : Accepted × Bool} (h : a.1.LegsApart) :
    (takeRecord type d a).1.LegsApart := by
  have kept : (takeRecord type d a).1.defaults = a.1.defaults → (takeRecord type d a).1.LegsApart := fun e ds hds => h ds (e ▸ hds)
  by_cases legs : type = 4
  · subst legs
    cases parsed : parseLegDefaults d with
    | none => exact kept (by rw [takeRecord_defaults, parsed, Option.elim_none])
    | some ds =>
      intro es hes
      rw [takeRecord_defaults, parsed] at hes
      cases hes
      obtain ⟨-, -, -, nodup⟩ := parseLegDefaults_iff.mp parsed
      exact nodup
  · exact kept (takeRecord_defaults_kept legs d a)

theorem walkChain_legsApart (img : List Byte) (fuel : Nat) : ∀ (off : Nat) {a : Accepted × Bool}, a.1.LegsApart →
    (walkChain img fuel off a).1.LegsApart := by
  induction fuel with
  | zero => exact fun _ _ h => h
  | succ n ih =>
    intro off a h
    have taken := takeRecord_legsApart (natAt img off) ((img.drop (off + 4)).take (natAt img (off + 1))) h
    unfold walkChain
    split
    · exact h
    · dsimp only
      split
      · exact taken
      · split
        · exact taken
        · exact ih _ taken

theorem readChain_legsApart (img : List Byte) : (readChain img).1.LegsApart :=
  walkChain_legsApart img _ 7 nofun

end Sys2Proof.Machine
end

