-- ==== Sys2Proof/Proofs/ImageApplied.lean ====
section
/-! SUPPORT. The accepted records applied in one event (R165): the LEG_DEFAULTS in leg order, each window judged against the lower legs'
(R6), then the threshold figures (R92). -/

open Sys2Proof Sys2Proof.Machine

namespace Sys2Proof.Machine

/-! ### The entry of one leg -/

/-- The LEG_DEFAULTS entry of a leg the part has. -/
def State.defaultOf (s : State) (ds : List LegDefault) (g : LegId) : Option LegDefault :=
  if s.hasLeg g then ds.find? (fun d => d.leg == g) else none

/-- The entry's window shares a lane with a lower-numbered leg's (R6). -/
def State.rejectsWindow (s : State) (ds : List LegDefault) (g : LegId) : Bool :=
  (s.defaultOf ds g).any (fun d => s.conflictsBelow g d.window)

/-- A leg's record with its entry, the window as the lower legs' windows of `s` let it (R6, R165). -/
def State.withDefault (s : State) (ds : List LegDefault) (g : LegId) (l : Leg) : Leg :=
  match s.defaultOf ds g with
  | none => l
  | some d => { l with rateCap := d.cap, autoStart := d.autoStart, autoWake := d.autoWake,
                       window := if s.conflictsBelow g d.window then l.window else some d.window }

theorem State.defaultOf_congr {s t : State} (role : t.role = s.role) (ds : List LegDefault) (g : LegId) :
    t.defaultOf ds g = s.defaultOf ds g := by
  unfold State.defaultOf State.hasLeg
  rw [role]

theorem State.conflictsBelow_congr {s t : State} {g : LegId} (below : ∀ k < g, (t.leg k).window = (s.leg k).window) (w : Window) :
    t.conflictsBelow g w = s.conflictsBelow g w := by
  unfold State.conflictsBelow
  congr 1
  funext k
  by_cases lower : k < g
  · rw [below k lower]
  · simp only [lower, decide_false, Bool.false_and]

/-- The state shows the installing of leg g's entry what another does: the role, and the legs below. -/
structure State.BelowAs (s : State) (g : LegId) (t : State) : Prop where
  role : t.role = s.role
  below : ∀ k < g, (t.leg k).window = (s.leg k).window

theorem State.BelowAs.rejectsWindow {s t : State} {g : LegId} (h : s.BelowAs g t) (ds : List LegDefault) :
    t.rejectsWindow ds g = s.rejectsWindow ds g := by
  simp only [State.rejectsWindow, State.defaultOf_congr h.role, State.conflictsBelow_congr h.below]

theorem State.BelowAs.withDefault {s t : State} {g : LegId} (h : s.BelowAs g t) (ds : List LegDefault) (l : Leg) :
    t.withDefault ds g l = s.withDefault ds g l := by
  simp only [State.withDefault, State.defaultOf_congr h.role, State.conflictsBelow_congr h.below]

/-! ### One entry installed -/

theorem installDefault_none {ds : List LegDefault} {r : State × Bool} {g : LegId} (h : r.1.defaultOf ds g = none) :
    installDefault ds r g = r := by
  unfold State.defaultOf at h
  unfold installDefault
  split
  · rename_i found has
    rw [if_pos has, found] at h
    cases h
  · rfl

theorem installDefault_some {ds : List LegDefault} {r : State × Bool} {g : LegId} {d : LegDefault}
    (h : r.1.defaultOf ds g = some d) : installDefault ds r g =
      if r.1.conflictsBelow g d.window then
        (r.1.modLeg g (fun l => { l with rateCap := d.cap, autoStart := d.autoStart, autoWake := d.autoWake }), true)
      else ((r.1.modLeg g (fun l => { l with rateCap := d.cap, autoStart := d.autoStart, autoWake := d.autoWake })).installWindow g
        d.window, r.2) := by
  unfold State.defaultOf at h
  split at h
  · rename_i has
    unfold installDefault
    rw [h, has]
    dsimp only
    rw [State.conflictsBelow_congr fun k lower => congrArg Leg.window (r.1.modLeg_leg_other _ (ne_of_lt lower))]
  · cases h

theorem installDefault_leg_other (ds : List LegDefault) (r : State × Bool) {g k : LegId} (other : k ≠ g) :
    (installDefault ds r g).1.leg k = r.1.leg k := by
  cases h : r.1.defaultOf ds g with
  | none => rw [installDefault_none h]
  | some d =>
    rw [installDefault_some h]
    split
    · exact r.1.modLeg_leg_other _ other
    · rw [State.installWindow_leg, if_neg other]
      exact r.1.modLeg_leg_other _ other

theorem installDefault_leg_same (ds : List LegDefault) (r : State × Bool) (g : LegId) :
    (installDefault ds r g).1.leg g = r.1.withDefault ds g (r.1.leg g) := by
  unfold State.withDefault
  cases h : r.1.defaultOf ds g with
  | none => rw [installDefault_none h]
  | some d =>
    rw [installDefault_some h]
    dsimp only
    split
    · exact State.modLeg_leg_same ..
    · rw [State.installWindow_leg, if_pos rfl, State.modLeg_leg_same]

theorem installDefault_flag (ds : List LegDefault) (r : State × Bool) (g : LegId) :
    (installDefault ds r g).2 = (r.2 || r.1.rejectsWindow ds g) := by
  unfold State.rejectsWindow
  cases h : r.1.defaultOf ds g with
  | none => rw [installDefault_none h, Option.any_none, Bool.or_false]
  | some d =>
    rw [installDefault_some h, Option.any_some]
    split
    · rename_i conflict
      rw [conflict, Bool.or_true]
    · rename_i clear
      rw [Bool.eq_false_iff.mpr clear, Bool.or_false]

/-! ### What the installing leaves unchanged -/

/-- The installing of LEG_DEFAULTS moves windows, lane owners and the configured fields only. -/
structure State.Configured (s t : State) : Prop where
  role : t.role = s.role
  cable : t.cable = s.cable
  notices : t.notices = s.notices
  port : t.port = s.port
  tx : t.tx = s.tx
  grant : t.grant = s.grant
  legs : ∀ g, (t.leg g).state = (s.leg g).state ∧ (t.leg g).queue = (s.leg g).queue
  lanes : ∀ c, (t.lane c).taps = (s.lane c).taps ∧ (t.lane c).farTaps = (s.lane c).farTaps
    ∧ (t.lane c).peaking = (s.lane c).peaking ∧ (t.lane c).d1 = (s.lane c).d1

theorem State.Configured.refl (s : State) : s.Configured s :=
  ⟨rfl, rfl, rfl, rfl, rfl, rfl, fun _ => ⟨rfl, rfl⟩, fun _ => ⟨rfl, rfl, rfl, rfl⟩⟩

theorem State.Configured.trans {s t u : State} (h : s.Configured t) (k : t.Configured u) : s.Configured u where
  role := k.role.trans h.role
  cable := k.cable.trans h.cable
  notices := k.notices.trans h.notices
  port := k.port.trans h.port
  tx := k.tx.trans h.tx
  grant := k.grant.trans h.grant
  legs g := ⟨(k.legs g).1.trans (h.legs g).1, (k.legs g).2.trans (h.legs g).2⟩
  lanes c := by
    obtain ⟨taps, far, peaking, d1⟩ := h.lanes c
    obtain ⟨taps', far', peaking', d1'⟩ := k.lanes c
    exact ⟨taps'.trans taps, far'.trans far, peaking'.trans peaking, d1'.trans d1⟩

theorem State.modLeg_configured (s : State) (g : LegId) (f : Leg → Leg)
    (kept : ∀ l, (f l).state = l.state ∧ (f l).queue = l.queue) : s.Configured (s.modLeg g f) where
  role := rfl
  cable := rfl
  notices := rfl
  port := rfl
  tx := rfl
  grant := rfl
  legs k := by
    rw [State.modLeg_leg]
    split
    · rename_i e
      rw [e]
      exact kept _
    · exact ⟨rfl, rfl⟩
  lanes _ := ⟨rfl, rfl, rfl, rfl⟩

theorem State.installWindow_configured (s : State) (g : LegId) (w : Window) : s.Configured (s.installWindow g w) where
  role := rfl
  cable := rfl
  notices := rfl
  port := rfl
  tx := rfl
  grant := rfl
  legs k := by
    rw [State.installWindow_leg]
    split
    · rename_i e
      rw [e]
      exact ⟨rfl, rfl⟩
    · exact ⟨rfl, rfl⟩
  lanes c := by
    rw [State.installWindow_lane]
    unfold Lane.underWindow
    split
    · exact ⟨rfl, rfl, rfl, rfl⟩
    · split <;> exact ⟨rfl, rfl, rfl, rfl⟩

theorem installDefault_configured (ds : List LegDefault) (r : State × Bool) (g : LegId) : r.1.Configured (installDefault ds r g).1 := by
  cases h : r.1.defaultOf ds g with
  | none => rw [installDefault_none h]; exact .refl _
  | some d =>
    have set := r.1.modLeg_configured g (fun l => { l with rateCap := d.cap, autoStart := d.autoStart, autoWake := d.autoWake })
      fun _ => ⟨rfl, rfl⟩
    rw [installDefault_some h]
    split
    · exact set
    · exact set.trans (State.installWindow_configured _ g d.window)

/-! ### The entries in leg order -/

theorem installs_configured (ds : List LegDefault) (ks : List LegId) (r : State × Bool) :
    r.1.Configured (ks.foldl (installDefault ds) r).1 :=
  List.foldlRecOn (motive := fun x : State × Bool => r.1.Configured x.1) ks _ (.refl _)
    fun x h g _ => h.trans (installDefault_configured ds x g)

theorem installs_leg_out (ds : List LegDefault) {ks : List LegId} {k : LegId} (out : k ∉ ks) (r : State × Bool) :
    (ks.foldl (installDefault ds) r).1.leg k = r.1.leg k :=
  List.foldlRecOn (motive := fun x : State × Bool => x.1.leg k = r.1.leg k) ks _ rfl
    fun x h _ hg => (installDefault_leg_other ds x (ne_of_mem_of_not_mem hg out).symm).trans h

/-- The first leg's entry sees the legs below it as they come out. -/
theorem installs_belowAs (ds : List LegDefault) {g : LegId} {ks : List LegId} (ordered : (g :: ks).Pairwise (· < ·)) (r : State × Bool) :
    r.1.BelowAs g ((g :: ks).foldl (installDefault ds) r).1 where
  role := (installs_configured ds _ r).role
  below k lower := by
    have later : k ∉ g :: ks := by
      rintro (_ | ⟨_, hk⟩)
      · exact lt_irrefl _ lower
      · exact lt_asymm lower ((List.pairwise_cons.mp ordered).1 k hk)
    rw [installs_leg_out ds later]

/-- Each leg's record with its entry as the final windows let it, and a rejection noted wherever one is. -/
theorem installs_spec (ds : List LegDefault) (ks : List LegId) (ordered : ks.Pairwise (· < ·)) : ∀ r : State × Bool,
    (∀ g ∈ ks, (ks.foldl (installDefault ds) r).1.leg g = (ks.foldl (installDefault ds) r).1.withDefault ds g (r.1.leg g))
      ∧ (ks.foldl (installDefault ds) r).2 = (r.2 || ks.any (fun g => (ks.foldl (installDefault ds) r).1.rejectsWindow ds g)) := by
  induction ks with
  | nil => exact fun r => ⟨nofun, (Bool.or_false _).symm⟩
  | cons g ks ih =>
    intro r
    have sees := installs_belowAs ds ordered r
    obtain ⟨above, rest⟩ := List.pairwise_cons.mp ordered
    obtain ⟨records, flag⟩ := ih rest (installDefault ds r g)
    have out : g ∉ ks := fun h => lt_irrefl g (above g h)
    rw [List.foldl_cons] at sees ⊢
    refine ⟨fun k hk => ?_, ?_⟩
    · rcases List.mem_cons.mp hk with rfl | hk
      · rw [installs_leg_out ds out, installDefault_leg_same, sees.withDefault]
      · rw [records k hk, installDefault_leg_other ds r (ne_of_mem_of_not_mem hk out)]
    · rw [flag, installDefault_flag, List.any_cons, sees.rejectsWindow, Bool.or_assoc]

/-! ### The threshold figures -/

/-- A leg's record with the figures of a threshold table (R92). -/
def Leg.withFigures (l : Leg) (t : ThresholdTable) : Leg :=
  { l with errThreshold := (t.row l.rateCap).err, eyeFloor := (t.row l.rateCap).eye, presThreshold := t.presence }

theorem State.takeThresholds_leg (s : State) (g : LegId) : s.takeThresholds.leg g =
    if s.hasLeg g then (s.leg g).withFigures s.cable.thresholds else s.leg g := State.mapLegs_leg s _ g

/-- The fields the figures are no part of. -/
theorem State.takeThresholds_field {α : Type} (f : Leg → α) (kept : ∀ l t, f (Leg.withFigures l t) = f l) (s : State) (g : LegId) :
    f (s.takeThresholds.leg g) = f (s.leg g) := by
  rw [State.takeThresholds_leg]
  split
  · exact kept _ _
  · rfl

theorem State.takeThresholds_configured (s : State) : s.Configured s.takeThresholds where
  role := rfl
  cable := rfl
  notices := rfl
  port := rfl
  tx := rfl
  grant := rfl
  legs g := ⟨s.takeThresholds_field Leg.state (fun _ _ => rfl) g, s.takeThresholds_field Leg.queue (fun _ _ => rfl) g⟩
  lanes _ := ⟨rfl, rfl, rfl, rfl⟩

/-! ### The records of an image applied -/

/-- The records of an image name no leg twice, so a leg of the part takes the entry that names it. -/
theorem State.defaultOf_mem {s : State} {ds : List LegDefault} (apart : (ds.map LegDefault.leg).Nodup) {d : LegDefault} (hd : d ∈ ds)
    (has : s.hasLeg d.leg) : s.defaultOf ds d.leg = some d := by
  rw [State.defaultOf, if_pos has]
  cases found : ds.find? (fun e => e.leg == d.leg) with
  | none => exact absurd BEq.rfl (List.find?_eq_none.mp found d hd)
  | some e =>
    have named : e.leg = d.leg := by simpa using List.find?_some found
    rw [List.inj_on_of_nodup_map apart (List.mem_of_find?_eq_some found) hd named]

theorem State.defaultOf_some {s : State} {ds : List LegDefault} {g : LegId} {d : LegDefault} (h : s.defaultOf ds g = some d) :
    d ∈ ds ∧ s.hasLeg d.leg ∧ d.leg = g := by
  unfold State.defaultOf at h
  split at h
  · rename_i has
    have named : d.leg = g := by simpa using List.find?_some h
    exact ⟨List.mem_of_find?_eq_some h, named ▸ has, named⟩
  · cases h

theorem State.defaultOf_unnamed {s : State} {ds : List LegDefault} {g : LegId} (h : ∀ d ∈ ds, s.hasLeg d.leg → d.leg ≠ g) :
    s.defaultOf ds g = none := by
  refine Option.eq_none_iff_forall_ne_some.mpr fun d hd => ?_
  obtain ⟨hmem, has, named⟩ := State.defaultOf_some hd
  exact h d hmem has named

theorem State.rejectsWindow_iff {s : State} {ds : List LegDefault} (apart : (ds.map LegDefault.leg).Nodup) :
    allLegs.any (s.rejectsWindow ds) ↔ ∃ d ∈ ds, s.hasLeg d.leg ∧ s.conflictsBelow d.leg d.window := by
  rw [List.any_eq_true]
  constructor
  · rintro ⟨g, -, rejected⟩
    obtain ⟨d, hd, conflict⟩ := (Option.any_eq_true ..).mp rejected
    obtain ⟨hmem, has, rfl⟩ := State.defaultOf_some hd
    exact ⟨d, hmem, has, conflict⟩
  · rintro ⟨d, hd, has, conflict⟩
    refine ⟨d.leg, mem_allLegs _, ?_⟩
    rw [State.rejectsWindow, State.defaultOf_mem apart hd has]
    exact conflict

/-- The tables replaced and the LEG_DEFAULTS installed, before the threshold figures. -/
def State.installed (s : State) (a : Accepted × Bool) : State × Bool :=
  allLegs.foldl (installDefault (a.1.defaults.getD [])) ({ s with cable := s.cable.withRecords a.1 }, a.2)

section
variable (s : State) (a : Accepted × Bool)

theorem State.installed_configured : State.Configured { s with cable := s.cable.withRecords a.1 } (s.installed a).1 := by
  unfold State.installed
  exact installs_configured _ _ ({ s with cable := s.cable.withRecords a.1 }, a.2)

theorem State.installed_leg (g : LegId) :
    (s.installed a).1.leg g = (s.installed a).1.withDefault (a.1.defaults.getD []) g (s.leg g) :=
  (installs_spec (a.1.defaults.getD []) allLegs (by decide) ({ s with cable := s.cable.withRecords a.1 }, a.2)).1 g (mem_allLegs g)

theorem State.installed_flag :
    (s.installed a).2 = (a.2 || allLegs.any ((s.installed a).1.rejectsWindow (a.1.defaults.getD []))) :=
  (installs_spec (a.1.defaults.getD []) allLegs (by decide) ({ s with cable := s.cable.withRecords a.1 }, a.2)).2

theorem State.installed_hasLeg (g : LegId) : (s.installed a).1.hasLeg g = s.hasLeg g := by
  rw [State.hasLeg, (s.installed_configured a).role]
  rfl

theorem State.applyRecords_cable : (s.applyRecords a).cable = { s.cable.withRecords a.1 with
    loadStatus := some (if (s.installed a).2 then .partialLoad else .ok), startup := .loadingLearned } := by
  have kept := (s.installed_configured a).cable
  change { (s.installed a).1.cable with
    loadStatus := some (if (s.installed a).2 then .partialLoad else .ok), startup := .loadingLearned } = _
  rw [kept]

theorem State.applyRecords_configured :
    State.Configured { s with cable := s.cable.withRecords a.1 } { s.applyRecords a with cable := s.cable.withRecords a.1 } :=
  have kept := (s.installed_configured a).trans (s.installed a).1.takeThresholds_configured
  { kept with cable := rfl }

theorem State.applyRecords_leg (g : LegId) : (s.applyRecords a).leg g =
    if s.hasLeg g then ((s.installed a).1.leg g).withFigures (s.cable.withRecords a.1).thresholds else (s.installed a).1.leg g := by
  rw [← s.installed_hasLeg a g, show s.cable.withRecords a.1 = (s.installed a).1.cable from (s.installed_configured a).cable.symm]
  exact State.takeThresholds_leg _ g

/-- The configured fields of a leg are those of its entry. -/
theorem State.applyRecords_field {α : Type} (f : Leg → α) (kept : ∀ l t, f (Leg.withFigures l t) = f l) (g : LegId) :
    f ((s.applyRecords a).leg g) = f ((s.installed a).1.withDefault (a.1.defaults.getD []) g (s.leg g)) := by
  rw [← s.installed_leg a g]
  exact (s.installed a).1.takeThresholds_field f kept g

theorem State.applyRecords_conflictsBelow (g : LegId) (w : Window) :
    (s.applyRecords a).conflictsBelow g w = (s.installed a).1.conflictsBelow g w :=
  State.conflictsBelow_congr (fun k _ => (s.installed a).1.takeThresholds_field Leg.window (fun _ _ => rfl) k) w

end

/-- A leg the part has and LEG_DEFAULTS names. -/
theorem State.applyRecords_named (s : State) (a : Accepted × Bool) (apart : a.1.LegsApart) {d : LegDefault}
    (hd : d ∈ a.1.defaults.getD []) (has : s.hasLeg d.leg) : ((s.applyRecords a).leg d.leg).rateCap = d.cap
      ∧ ((s.applyRecords a).leg d.leg).autoStart = d.autoStart ∧ ((s.applyRecords a).leg d.leg).autoWake = d.autoWake
      ∧ ((s.applyRecords a).leg d.leg).window =
        if (s.applyRecords a).conflictsBelow d.leg d.window then (s.leg d.leg).window else some d.window := by
  have entry := State.defaultOf_mem apart.getD hd ((s.installed_hasLeg a d.leg).trans has)
  have field {α : Type} (f : Leg → α) (kept : ∀ l t, f (Leg.withFigures l t) = f l) := s.applyRecords_field a f kept d.leg
  simp only [State.withDefault, entry] at field
  rw [State.applyRecords_conflictsBelow]
  exact ⟨field Leg.rateCap fun _ _ => rfl, field Leg.autoStart fun _ _ => rfl, field Leg.autoWake fun _ _ => rfl,
    field Leg.window fun _ _ => rfl⟩

/-- A leg LEG_DEFAULTS leaves out, or the part has not. -/
theorem State.applyRecords_unnamed (s : State) (a : Accepted × Bool) {g : LegId}
    (out : ∀ d ∈ a.1.defaults.getD [], s.hasLeg d.leg → d.leg ≠ g) : ((s.applyRecords a).leg g).rateCap = (s.leg g).rateCap
      ∧ ((s.applyRecords a).leg g).autoStart = (s.leg g).autoStart ∧ ((s.applyRecords a).leg g).autoWake = (s.leg g).autoWake
      ∧ ((s.applyRecords a).leg g).window = (s.leg g).window := by
  have entry : (s.installed a).1.defaultOf (a.1.defaults.getD []) g = none :=
    State.defaultOf_unnamed fun d hd has => out d hd ((s.installed_hasLeg a d.leg).symm.trans has)
  have field {α : Type} (f : Leg → α) (kept : ∀ l t, f (Leg.withFigures l t) = f l) := s.applyRecords_field a f kept g
  simp only [State.withDefault, entry] at field
  exact ⟨field Leg.rateCap fun _ _ => rfl, field Leg.autoStart fun _ _ => rfl, field Leg.autoWake fun _ _ => rfl,
    field Leg.window fun _ _ => rfl⟩

/-- The load status is PARTIAL where the chain says so or a window was rejected (R164). -/
theorem State.installed_partial (s : State) (a : Accepted × Bool) (apart : a.1.LegsApart) : (s.installed a).2 ↔
    a.2 ∨ ∃ d ∈ a.1.defaults.getD [], s.hasLeg d.leg ∧ (s.applyRecords a).conflictsBelow d.leg d.window := by
  simp only [State.installed_flag, Bool.or_eq_true, State.rejectsWindow_iff apart.getD, State.installed_hasLeg,
    State.applyRecords_conflictsBelow]

/-- Every leg of the part has the figures of its rate cap (R92). -/
theorem State.applyRecords_figures (s : State) (a : Accepted × Bool) {g : LegId} (has : s.hasLeg g) :
    ((s.applyRecords a).leg g).errThreshold
        = ((s.applyRecords a).cable.thresholds.row ((s.applyRecords a).leg g).rateCap).err
      ∧ ((s.applyRecords a).leg g).eyeFloor = ((s.applyRecords a).cable.thresholds.row ((s.applyRecords a).leg g).rateCap).eye
      ∧ ((s.applyRecords a).leg g).presThreshold = (s.applyRecords a).cable.thresholds.presence := by
  rw [State.applyRecords_cable, State.applyRecords_leg, if_pos has]
  exact ⟨rfl, rfl, rfl⟩

/-! ### The image read -/

theorem State.takeImage_bad {s : State} {len : Nat} {crc : Half} {bytes : List Byte} (reads : s.cable.startup = .loadingImage len crc)
    (bad : bytes.length < len ∨ crc16 (imageCovered (bytes.take len)) ≠ crc) : s.takeImage bytes = s.badImage := by
  have length : (bytes.take len).length < len ↔ bytes.length < len := by rw [List.length_take]; omega
  unfold State.takeImage
  simp only [reads, length]
  exact if_pos bad

theorem State.takeImage_good {s : State} {len : Nat} {crc : Half} {bytes : List Byte} (reads : s.cable.startup = .loadingImage len crc)
    (whole : len ≤ bytes.length) (sum : crc16 (imageCovered (bytes.take len)) = crc) :
    s.takeImage bytes = s.applyRecords (readChain (bytes.take len)) := by
  have length : (bytes.take len).length = len := List.length_take_of_le whole
  unfold State.takeImage
  simp only [reads, length]
  exact if_neg fun bad => bad.elim (lt_irrefl len) fun wrong => wrong sum

end Sys2Proof.Machine

/-- Settles O5: the chain by its layout, each record type by its parser, and the accepted records by the installing of the LEG_DEFAULTS
in leg order, where the windows below a leg are final when its own is judged. -/
theorem imageReadApplied : Obligations.ImageReadApplied := by
  unfold Obligations.ImageReadApplied
  refine ⟨⟨fun head img rs r last start short layout small offset => ?_, fun d a => ?_⟩,
    fun s len crc bytes reads bad => congrArg Host.Outcome.next (State.takeImage_bad reads bad),
    fun s len crc bytes ds reads whole sum hds => ?_⟩
  · rw [List.foldl_append]
    exact readChain_laid start short layout small offset
  · refine ⟨takeRecord_cableId_judged d a, takeRecord_loss_judged d a, takeRecord_presets_judged d a, ?_,
      takeRecord_thresholds_judged d a, fun type unknown => takeRecord_skip unknown d a⟩
    split
    · rename_i ok
      exact takeRecord_defaults_accepted d a (legDefaultsInRange_iff.mpr ok)
    · rename_i bad
      exact takeRecord_defaults_rejected d a fun ok => bad (legDefaultsInRange_iff.mp ok)
  · subst hds
    have apart := readChain_legsApart (bytes.take len)
    have good := State.takeImage_good reads whole sum
    generalize readChain (bytes.take len) = a at apart good ⊢
    have kept := s.applyRecords_configured a
    have cable := s.applyRecords_cable a
    refine ⟨s.applyRecords a, congrArg Host.Outcome.next good, by rw [cable], ?_, by rw [cable]; rfl, by rw [cable]; rfl,
      by rw [cable]; rfl, by rw [cable]; rfl, by rw [cable]; rfl, fun g has => s.applyRecords_figures a has, kept.legs, kept.lanes,
      by rw [cable]; rfl, kept.notices, kept.port, kept.tx, kept.grant, fun d hd has => s.applyRecords_named a apart hd has,
      fun g out => s.applyRecords_unnamed a out⟩
    simp only [cable, ← State.installed_partial s a apart]
end
